-- ==== Sys2Proof/Word.lean ====
section
/-! DEFINITION. The word types of the Evoja 77 and their plainest arithmetic. -/

namespace Sys2Proof

/-- One 32-bit word of an instruction stream (R82). -/
abbrev W32 := BitVec 32

/-- A 64-bit register word (R81). -/
abbrev W64 := BitVec 64

/-- One byte. -/
abbrev Byte := BitVec 8

/-- One 4-bit slice (R60). -/
abbrev Slice := BitVec 4

end Sys2Proof
end

