-- ==== Sys2Proof/Config.lean ====
section
/-! DEFINITION. What the spec leaves to an implementation or does not fix: constants WITHOUT a body, so that nothing in Lean can
evaluate them and a statement about them holds whatever they are. State.free numbers the fresh ones. -/

namespace Sys2Proof.Config

/-- TIME ticks, beyond the first, that the n-th open-time operation takes to land (R295: a tick the program cannot know).
Free value; log entry 1. -/
opaque openLatency : Nat → Nat

/-- TIME ticks, beyond the first, of the n-th translation walk after a miss (R369, R282). Free value; log entry 1. -/
opaque walkLatency : Nat → Nat

/-- Whether the n-th fixed-time access that meets other traffic of its pseudo-channel or window port is late (R282), and by how many TIME ticks
beyond the first. Free values; log entry 100. -/
opaque busyLate : Nat → Bool
opaque busyExtra : Nat → Nat

/-- Extra ticks of the n-th fixed-time access that meets a FAILING pseudo-channel; the model takes it modulo 129, since R416 allows
up to 128. Free value; log entry 1. -/
opaque failingExtra : Nat → Nat

/-- TIME ticks of the n-th relocation of a DROP, taken modulo 2^28 + 1 (R417: within 2^28 ticks). Free value; log entry 1. -/
opaque dropLatency : Nat → Nat

/-- SHAKE256 of the vendor public key that the fuses hold (R435): a constant of the part. Log entry 10. -/
opaque vendorKeyHash : List Byte

/-- The fused unique device secret (R437), which no software reads. Log entry 10. -/
opaque deviceSecret : List Byte

/-- Verification under SLH-DSA-SHAKE-256s (FIPS 205): public key, context, message, signature (R435). Log entry 10. -/
opaque slhVerify : List Byte → List Byte → List Byte → List Byte → Bool

/-- SLH-DSA-SHAKE-128f key generation from a 384-bit seed: the 32-byte public key (R437). Log entry 10. -/
opaque slhPublic : List Byte → List Byte

/-- Deterministic SLH-DSA-SHAKE-128f signature: seed of the identity key, context, message (R438). Log entry 10. -/
opaque slhSign : List Byte → List Byte → List Byte → List Byte

/-- The vendor public key that goes with a received firmware image (R435 names the key, not where it is kept). Log entry 10. -/
opaque vendorKey : List Byte

/-- Whether the on-device translator can lower a portable image to a mix of dies under its limits, and its revision (R359). Log entry 13. -/
opaque lowerable : List Byte → List Byte → Bool
opaque translatorRev : Nat

end Sys2Proof.Config
end

