-- ==== Sys2Proof/Syntax.lean ====
section
/-! DEFINITION. The operand shapes and the one inductive of instructions, events, commands and messages: one constructor per row of
spec/opcode_table.json. Fields that a form or an instruction requires to be 0 (R100) are not represented: the decoder refuses
words that set them. -/

namespace Sys2Proof

/-- Guard fields GD, GUARD, SENSE of the head word (R82, R89). -/
structure Guard where
  gd : Bool
  p : BitVec 4
  s : Bool
deriving DecidableEq, Repr

/-- What every head word carries beside tag, length, opcode and MOD (R82). -/
structure Head where
  dep : BitVec 4
  g : Guard
deriving DecidableEq, Repr

/-- A 14-bit slice operand field: window, offset, width - 1 (R62). -/
structure Slot where
  win : BitVec 2
  off : BitVec 8
  wm1 : BitVec 4
deriving DecidableEq, Repr

/-- A source operand with its kind and hold bit (R91, R92). The field of a LATCH is 0 and is not represented (R71). -/
inductive Src where
  | file (o : Slot) (hold : Bool)
  | latch (hold : Bool)
  | scalar (o : Slot) (hold : Bool)
  | imm (v : BitVec 14) (hold : Bool)
deriving DecidableEq, Repr

/-- The standard subcode of word 2 [13:0] (R94). -/
structure Sub where
  rm : BitVec 3
  sat : Bool
  cond : BitVec 5
  fmt : BitVec 3
  xs : BitVec 2
deriving DecidableEq, Repr

/-- The source C field of word 2 [13:0] (R95). -/
structure SrcC where
  win : BitVec 2
  off : BitVec 8
  fmt : BitVec 3
  rms : Bool
deriving DecidableEq, Repr

/-- Form F3 with destination, two sources and the standard subcode (R90). `dep` is the DEP field of the last word (R85). -/
structure S3 where
  h : Head
  dep : BitVec 4
  es : BitVec 2
  fs : Bool
  dst : Slot
  a : Src
  b : Src
  sub : Sub
deriving DecidableEq, Repr

/-- Form F3 whose source B field, kind B and hold B are 0. -/
structure S3a where
  h : Head
  dep : BitVec 4
  es : BitVec 2
  fs : Bool
  dst : Slot
  a : Src
  sub : Sub
deriving DecidableEq, Repr

/-- Form F3 with a third source in place of the subcode (R95). -/
structure S3c where
  h : Head
  dep : BitVec 4
  es : BitVec 2
  fs : Bool
  dst : Slot
  a : Src
  b : Src
  c : SrcC
deriving DecidableEq, Repr

/-- CMP and VCMP: the DST field holds PD and MODE (R137, R179). -/
structure S3cmp where
  h : Head
  dep : BitVec 4
  es : BitVec 2
  fs : Bool
  pd : BitVec 4
  mode : BitVec 2
  a : Src
  b : Src
  sub : Sub
deriving DecidableEq, Repr

/-- Form F2R (R90). -/
structure S2r where
  h : Head
  dep : BitVec 4
  es : BitVec 2
  fs : Bool
  dst : Slot
  a : Src
deriving DecidableEq, Repr

structure PbrF where
  k : BitVec 3
  rel : Bool
  target : BitVec 28
deriving DecidableEq, Repr

structure BrF where
  g : Guard
  k : BitVec 3
deriving DecidableEq, Repr

structure BrlF where
  g : Guard
  l : BitVec 3
  k : BitVec 3
deriving DecidableEq, Repr

structure LoopF where
  n : BitVec 2
  csrc : Bool
  count : BitVec 14
  last : BitVec 14
deriving DecidableEq, Repr

structure LbrkF where
  g : Guard
  n : BitVec 2
deriving DecidableEq, Repr

/-- Form F1 with no field of its own. -/
structure F1 where
  h : Head
deriving DecidableEq, Repr

/-- MOVI and MOVI.hi (R134). -/
structure MoviF where
  h : Head
  dep : BitVec 4
  fs : Bool
  dst : Slot
  imm : BitVec 42
deriving DecidableEq, Repr

structure PlogF where
  h : Head
  dep : BitVec 4
  pd : BitVec 4
  pa : BitVec 4
  pb : BitVec 4
  lut : BitVec 4
deriving DecidableEq, Repr

/-- PMOV (R139): `f` is used by DIR 0b00 and 0b01, `k` by DIR 0b10 and 0b11. -/
structure PmovF where
  h : Head
  dep : BitVec 4
  dir : BitVec 2
  k : BitVec 4
  s : Slot
  f : BitVec 4
deriving DecidableEq, Repr

/-- The value field of SETW (R141). -/
inductive SetwArg where
  | imm (v : BitVec 15)
  | slot (o : Slot)
deriving DecidableEq, Repr

structure SetwF where
  h : Head
  dep : BitVec 4
  t : BitVec 3
  w : BitVec 2
  add : Bool
  arg : SetwArg
deriving DecidableEq, Repr

structure GetwF where
  h : Head
  dep : BitVec 4
  t : BitVec 3
  w : BitVec 2
  dst : Slot
deriving DecidableEq, Repr

/-- SPILL and FILL (R149): `cnt` is the slice count - 1. -/
structure SpillF where
  h : Head
  dep : BitVec 4
  win : BitVec 2
  off : BitVec 8
  a : Src
  b : Src
  cnt : BitVec 12
deriving DecidableEq, Repr

/-- ATOM (R150). -/
structure AtomF where
  h : Head
  dep : BitVec 4
  fs : Bool
  dst : Slot
  a : Src
  x : Src
  aop : BitVec 4
  sz : Bool
deriving DecidableEq, Repr

/-- ATOMN (R150). -/
structure AtomnF where
  h : Head
  dep : BitVec 4
  fs : Bool
  a : Src
  x : Src
  aop : BitVec 4
  sz : Bool
deriving DecidableEq, Repr

/-- CAS (R150). -/
structure CasF where
  h : Head
  dep : BitVec 4
  fs : Bool
  dst : Slot
  a : Src
  x : Src
  pd : BitVec 4
  sz : Bool
  pe : Bool
deriving DecidableEq, Repr

structure FenceF where
  h : Head
  k : BitVec 2
  c : BitVec 3
deriving DecidableEq, Repr

structure QfenceF where
  h : Head
  m : BitVec 7
deriving DecidableEq, Repr

/-- A tag mask: one tag, or a slice operand (R155). -/
inductive MaskArg where
  | one (t : BitVec 6)
  | slot (o : Slot)
deriving DecidableEq, Repr

structure TwaitF where
  h : Head
  dep : BitVec 4
  all : Bool
  clr : Bool
  m : MaskArg
deriving DecidableEq, Repr

structure TffrF where
  h : Head
  dep : BitVec 4
  wait : Bool
  clr : Bool
  dst : Slot
  k : Slot
deriving DecidableEq, Repr

structure TclrF where
  h : Head
  dep : BitVec 4
  m : MaskArg
deriving DecidableEq, Repr

/-- BARI and BARX (R158). -/
structure BarF where
  h : Head
  dep : BitVec 4
  a : Src
  e : Src
deriving DecidableEq, Repr

/-- BWAIT (R158): with `psrc` the phase comes from bit 0 of that operand. -/
structure BwaitF where
  h : Head
  dep : BitVec 4
  p : Bool
  psrc : Option Slot
  a : Slot
deriving DecidableEq, Repr

structure TrapF where
  h : Head
  c : BitVec 8
deriving DecidableEq, Repr

structure SegstF where
  h : Head
  dep : BitVec 4
  sel : BitVec 3
  dst : Slot
deriving DecidableEq, Repr

structure MfsrF where
  h : Head
  dep : BitVec 4
  dst : Slot
  num : BitVec 10
deriving DecidableEq, Repr

structure MtsrF where
  h : Head
  dep : BitVec 4
  src : Src
  num : BitVec 10
deriving DecidableEq, Repr

/-- RDTIME and RDRECK (R162). -/
structure RdF where
  h : Head
  dep : BitVec 4
  dst : Slot
deriving DecidableEq, Repr

/-- RAND (R163): coordinate `c`, stream `q`. -/
structure RandF where
  h : Head
  dep : BitVec 4
  dst : Slot
  c : Src
  q : Src
deriving DecidableEq, Repr

inductive PaceArg where
  | imm (v : BitVec 8)
  | slot (o : Slot)
deriving DecidableEq, Repr

structure PaceF where
  h : Head
  dep : BitVec 4
  t : BitVec 3
  arg : PaceArg
deriving DecidableEq, Repr

structure HintF where
  h : Head
  hint : BitVec 2
deriving DecidableEq, Repr

/-- CBSET (R167): `base` and `size` in units of 64 bytes, `ents` is ENTRIES - 1. -/
structure CbsetF where
  h : Head
  dep : BitVec 4
  space : BitVec 3
  fmt : BitVec 5
  base : BitVec 19
  cb : BitVec 4
  ents : BitVec 12
  size : BitVec 12
deriving DecidableEq, Repr

inductive CntArg where
  | imm (v : BitVec 12)
  | slot (o : Slot)
deriving DecidableEq, Repr

structure CbadvF where
  h : Head
  dep : BitVec 4
  cb : BitVec 4
  cons : Bool
  cnt : CntArg
deriving DecidableEq, Repr

structure CbqryF where
  h : Head
  dep : BitVec 4
  cb : BitVec 4
  sel : BitVec 3
  dst : Slot
deriving DecidableEq, Repr

/-- VCVT (R184): source format, signedness and element size. -/
structure VcvtF where
  h : Head
  dep : BitVec 4
  es : BitVec 2
  fs : Bool
  dst : Slot
  a : Src
  sf : BitVec 3
  ss : Bool
  se : BitVec 2
  sub : Sub
deriving DecidableEq, Repr

/-- VLDC and VSTC (R195). -/
structure VcbF where
  h : Head
  dep : BitVec 4
  es : BitVec 2
  fs : Bool
  dst : Slot
  cb : BitVec 4
  off : BitVec 10
  b : Src
  sub : Sub
deriving DecidableEq, Repr

/-- QSCALE (R208): `bf` is the block format code. -/
structure QscaleF where
  h : Head
  dep : BitVec 4
  es : BitVec 2
  fs : Bool
  dst : Slot
  a : Src
  bf : BitVec 4
  sub : Sub
deriving DecidableEq, Repr

/-- QBLK (R209). -/
structure QblkF where
  h : Head
  dep : BitVec 4
  es : BitVec 2
  fs : Bool
  cb : BitVec 4
  blk : BitVec 10
  a : Src
  b : Src
  sub : Sub
deriving DecidableEq, Repr

/-- QDEQ (R212). -/
structure QdeqF where
  h : Head
  dep : BitVec 4
  es : BitVec 2
  fs : Bool
  dst : Slot
  cb : BitVec 4
  blk : BitVec 10
  sub : Sub
deriving DecidableEq, Repr

structure LdsF where
  h : Head
  dep : BitVec 4
  fmt : BitVec 5
  a : Src
deriving DecidableEq, Repr

/-- LDSC and LDSCL (R235). -/
structure LdscF where
  h : Head
  dep : BitVec 4
  cb : BitVec 4
  adv : Bool
deriving DecidableEq, Repr

structure MsignF where
  h : Head
  dep : BitVec 4
  en : Bool
  b : Src
deriving DecidableEq, Repr

structure MmaF where
  h : Head
  dep : BitVec 4
  ua : Bool
  uw : Bool
  aoff : Src
deriving DecidableEq, Repr

structure AccClrF where
  h : Head
  vis : Bool
deriving DecidableEq, Repr

/-- ACC.RD and ACC.WR (R240). -/
structure AccF where
  h : Head
  dep : BitVec 4
  d : Slot
  i : Src
  vis : Bool
deriving DecidableEq, Repr

/-- DRAIN (R242). -/
structure DrainF where
  h : Head
  dep : BitVec 4
  fs : Bool
  cb : BitVec 4
  row : Src
  n : Src
  rm : BitVec 3
  sat : Bool
  half : Bool
  adv : Bool
deriving DecidableEq, Repr

/-- DSCALE (R241). -/
structure DscaleF where
  h : Head
  dep : BitVec 4
  a : Src
  b : Src
  setm : Bool
  sett : Bool
deriving DecidableEq, Repr

/-- DAMAX (R241). -/
structure DamaxF where
  h : Head
  dep : BitVec 4
  dst : Slot
  row : Src
  n : Src
  half : Bool
deriving DecidableEq, Repr

structure IgenF where
  h : Head
  dep : BitVec 4
  dcb : BitVec 4
  adv : Bool
  a : Src
  b : Src
deriving DecidableEq, Repr

/-- IMAP and ICMP (R250); `inv` is ICMP's alone. -/
structure ImapF where
  h : Head
  dep : BitVec 4
  dcb : BitVec 4
  scb : BitVec 4
  advs : Bool
  advd : Bool
  a : Src
  b : Src
deriving DecidableEq, Repr

structure IcmpF where
  h : Head
  dep : BitVec 4
  inv : Bool
  dcb : BitVec 4
  scb : BitVec 4
  advs : Bool
  advd : Bool
  a : Src
  b : Src
deriving DecidableEq, Repr

/-- GATH and SCAT (R251): `cb` is DCB or SCB, `advx` is ADVD or ADVS. -/
structure GathF where
  h : Head
  dep : BitVec 4
  ten : Bool
  tag : BitVec 6
  cb : BitVec 4
  icb : BitVec 4
  advi : Bool
  advx : Bool
  a : Src
  rb : Src
deriving DecidableEq, Repr

structure WinF where
  h : Head
  dep : BitVec 4
  dcb : BitVec 4
  scb : BitVec 4
  advs : Bool
  advd : Bool
  a : Src
deriving DecidableEq, Repr

structure GsegF where
  h : Head
  dep : BitVec 4
  op : BitVec 2
  dcb : BitVec 4
  scb : BitVec 4
  advs : Bool
  advd : Bool
  a : Src
  rb : Src
  icb : BitVec 4
  advi : Bool
deriving DecidableEq, Repr

structure AstF where
  h : Head
  dep : BitVec 4
  vcb : BitVec 4
  icb : BitVec 4
  advv : Bool
  advi : Bool
  a : Src
  aop : BitVec 4
  sz : Bool
deriving DecidableEq, Repr

structure AwaitF where
  h : Head
  dep : BitVec 4
  bar : Bool
  n : Src
  a : Slot
deriving DecidableEq, Repr

/-- HLD and HST (R256). -/
structure HldF where
  h : Head
  dep : BitVec 4
  ten : Bool
  tag : BitVec 6
  cb : BitVec 4
  adv : Bool
  cbm : Bool
  a : Src
  b : Src
  c : Slot
deriving DecidableEq, Repr

structure HpreF where
  h : Head
  dep : BitVec 4
  a : Src
  n : Src
deriving DecidableEq, Repr

structure HzeroF where
  h : Head
  dep : BitVec 4
  ten : Bool
  tag : BitVec 6
  a : Src
  n : Src
deriving DecidableEq, Repr

structure TcopyF where
  h : Head
  dep : BitVec 4
  es : BitVec 2
  ten : Bool
  tag : BitVec 6
  tr : Bool
  a : Src
  b : Src
  c : Slot
deriving DecidableEq, Repr

structure TcvtF where
  h : Head
  dep : BitVec 4
  rm : BitVec 3
  ten : Bool
  tag : BitVec 6
  scb : BitVec 4
  dcb : BitVec 4
  advs : Bool
  advd : Bool
deriving DecidableEq, Repr

structure PushF where
  h : Head
  dep : BitVec 4
  timed : Bool
  dcore : BitVec 8
  dcb : BitVec 4
  scb : BitVec 4
  advs : Bool
  due : Src
deriving DecidableEq, Repr

structure PushbF where
  h : Head
  dep : BitVec 4
  timed : Bool
  dst : Slot
  a : Src
  due : Src
  c : Slot
deriving DecidableEq, Repr

/-- COPY, COPYD and PULL (R262, R263). -/
structure CopyF where
  h : Head
  dep : BitVec 4
  ten : Bool
  tag : BitVec 6
  dst : Slot
  a : Src
  n : Src
deriving DecidableEq, Repr

structure CopybF where
  h : Head
  dep : BitVec 4
  dst : Slot
  a : Src
  n : Src
  bar : Slot
deriving DecidableEq, Repr

structure CollF where
  h : Head
  dep : BitVec 4
  ten : Bool
  op : BitVec 4
  tag : BitVec 6
  a : Src
deriving DecidableEq, Repr

/-- A submission entry of the job channel (R350), less its OP, which is the constructor. -/
structure Sbm where
  seq : Nat
  flags : Nat
  handle : Nat
  arg0 : Nat
  arg1 : Nat
  arg2 : Nat
deriving DecidableEq, Repr

/-- A request entry of the request window (R371), less its OP. -/
structure Req where
  seq : Nat
  flags : Nat
  job : Nat
  va : Nat
  len : Nat
  arg0 : Nat
  arg1 : Nat
  arg2 : Nat
deriving DecidableEq, Repr

/-- A management message (R439): FLAGS, SEQ and the bytes after the 16-byte header. -/
structure Msg where
  flags : Nat
  seq : Nat
  body : List Byte
deriving DecidableEq, Repr

/-- One contribution to a collective (R264, R385): the identifying fields, the decoded and the raw source bytes, and where the
contributor wants its result. `core` is none for a contributor on another module; `live` while the execution that sent it awaits its result. -/
structure Contrib where
  collid : Nat
  seq : Nat
  ncont : Nat
  rank : Nat
  count : Nat
  op : Nat
  sfmt : BitVec 5
  dfmt : BitVec 5
  eblk : Nat
  root : Nat
  members : List Nat
  src : List Byte
  scales : List Byte
  tiles : List Byte
  core : Option Nat
  dst : Nat
  tag : Option Nat
  inseg : Bool
  live : Bool
  pc : Nat
deriving DecidableEq, Repr

/-- The instructions, events, commands and messages: one constructor per row of spec/opcode_table.json, in its order. Events that
concern one operation in progress name it by its number in State.flights. -/
inductive Instr where
  -- ALL class (R113)
  | nop (n : BitVec 9)
  | pbr (f : PbrF)
  | br (f : BrF)
  | brl (f : BrlF)
  | loop (f : LoopF)
  | lbrk (f : LbrkF)
  | segOpen (d : BitVec 28)
  | segClose
  | gbar (id : BitVec 4)
  | halt
  | ckdiv (d : BitVec 28)
  | slipw
  | brk (c : BitVec 8)
  -- CE arithmetic (R129 to R141)
  | add (f : S3)
  | sub (f : S3)
  | mul (f : S3)
  | mulh (f : S3)
  | divi (f : S3)
  | remi (f : S3)
  | and (f : S3)
  | or (f : S3)
  | xor (f : S3)
  | andn (f : S3)
  | shl (f : S3)
  | shr (f : S3)
  | rot (f : S3)
  | min (f : S3)
  | max (f : S3)
  | clz (f : S2r)
  | popc (f : S2r)
  | ext (f : S3)
  | ins (f : S3)
  | mov (f : S2r)
  | movi (f : MoviF)
  | moviHi (f : MoviF)
  | sel (f : S3c)
  | cmp (f : S3cmp)
  | plog (f : PlogF)
  | pmov (f : PmovF)
  | lea (f : S3)
  | setw (f : SetwF)
  | getw (f : GetwF)
  -- CE memory, synchronisation and system (R143 to R168)
  | ld (f : S3)
  | st (f : S3)
  | spill (f : SpillF)
  | fill (f : SpillF)
  | atom (f : AtomF)
  | atomn (f : AtomnF)
  | cas (f : CasF)
  | fence (f : FenceF)
  | qfence (f : QfenceF)
  | twait (f : TwaitF)
  | tffr (f : TffrF)
  | tclr (f : TclrF)
  | bari (f : BarF)
  | barx (f : BarF)
  | bwait (f : BwaitF)
  | trapf (f : F1)
  | trap (f : TrapF)
  | segst (f : SegstF)
  | mfsr (f : MfsrF)
  | mtsr (f : MtsrF)
  | rdtime (f : RdF)
  | rdreck (f : RdF)
  | rand (f : RandF)
  | pace (f : PaceF)
  | hint (f : HintF)
  | cbset (f : CbsetF)
  | cbadv (f : CbadvF)
  | cbqry (f : CbqryF)
  -- VE (R173)
  | vadd (f : S3)
  | vsub (f : S3)
  | vmul (f : S3)
  | vfma (f : S3c)
  | vfms (f : S3c)
  | vmin (f : S3)
  | vmax (f : S3)
  | vabs (f : S3a)
  | vneg (f : S3a)
  | vand (f : S3)
  | vor (f : S3)
  | vxor (f : S3)
  | vshl (f : S3)
  | vshr (f : S3)
  | vcmp (f : S3cmp)
  | vsel (f : S3c)
  | vcvt (f : VcvtF)
  | vmov (f : S2r)
  | vbcast (f : S3)
  | vperm (f : S3)
  | vrot (f : S3)
  | vshuf (f : S3)
  | vpack (f : S3)
  | vunpk (f : S3a)
  | vred (f : S3)
  | vscan (f : S3)
  | vdot (f : S3c)
  | vld (f : S3)
  | vst (f : S3)
  | vldx (f : S3)
  | vstx (f : S3)
  | vldc (f : VcbF)
  | vstc (f : VcbF)
  | viota (f : S2r)
  -- NE and QE (R200)
  | nrsq (f : S3a)
  | nrcp (f : S3a)
  | nexp2 (f : S3a)
  | nlog2 (f : S3a)
  | nsig (f : S3a)
  | ntanh (f : S3a)
  | nmom (f : S3a)
  | nnorm (f : S3)
  | nsoft (f : S3a)
  | qamax (f : S3a)
  | qscale (f : QscaleF)
  | qblk (f : QblkF)
  | qdeq (f : QdeqF)
  | qsign (f : S3)
  -- LE, SE, XE, DE (R234)
  | lds (f : LdsF)
  | ldsc (f : LdscF)
  | ldscl (f : LdscF)
  | lflip (f : F1)
  | msign (f : MsignF)
  | mstop (f : F1)
  | mma (f : MmaF)
  | accClr (f : AccClrF)
  | accSwap (f : F1)
  | accRd (f : AccF)
  | accWr (f : AccF)
  | accCarry (f : F1)
  | mwait (f : F1)
  | drain (f : DrainF)
  | dscale (f : DscaleF)
  | damax (f : DamaxF)
  -- IE, GE, AE, HE, TE, PE (R249)
  | igen (f : IgenF)
  | imap (f : ImapF)
  | icmp (f : IcmpF)
  | gath (f : GathF)
  | scat (f : GathF)
  | win (f : WinF)
  | gseg (f : GsegF)
  | ast (f : AstF)
  | await (f : AwaitF)
  | hld (f : HldF)
  | hst (f : HldF)
  | hpre (f : HpreF)
  | hzero (f : HzeroF)
  | tcopy (f : TcopyF)
  | tcvt (f : TcvtF)
  | push (f : PushF)
  | pushb (f : PushbF)
  | copy (f : CopyF)
  | copyb (f : CopybF)
  | copyd (f : CopyF)
  | pull (f : CopyF)
  | coll (f : CollF)
  -- events of groups, engines and memory
  | gbarRelease (g : Nat)
  | gbarTimeout (g : Nat)
  | beadDeadlock (core tag : Nat)
  | waitLimitFault (core : Nat)
  | planeLoadComplete (id : Nat)
  | nestPassEntry (core : Nat)
  | nestPassCommit (id : Nat)
  | accCarryComplete (id : Nat)
  | drainRowCommit (id : Nat)
  | memoryEffectCommit (id : Nat)
  | bankAluAtomic (id : Nat)
  | transferCommit (id : Nat)
  | asyncCompletion (id : Nat)
  | openTimeLanding (id : Nat)
  | lateAccessComplete (id : Nat)
  | linkCrcFailure (id : Nat) (sender receiver : Nat)
  | flitReplay (id : Nat) (failures : Nat) (source : Nat)
  | segmentReentry (g : Nat)
  -- pauses, power and time
  | pauseClaimExpiry (g : Nat) (src : Nat)
  | timeSyncExchange (offset : Option Int)
  -- thermal
  | selftest (failed : List Nat)
  -- debug
  | stop (g : Nat)
  | debugRun (g : Nat)
  | step (g : Nat)
  | revstep (g : Nat)
  | snap (g : Nat)
  -- job channel and scheduler
  | jcring (v : W64)
  | job (e : Sbm)
  | phase (e : Sbm)
  | phaseEnd (e : Sbm)
  | graph (e : Sbm)
  | launch (e : Sbm)
  | cancel (e : Sbm)
  | cancelComplete (n : Nat)
  | jobDestroy (e : Sbm)
  | resume (e : Sbm)
  | quota (e : Sbm)
  | jobEnd (e : Sbm)
  | unitStart (graph node u : Nat)
  | unitResume (graph node u : Nat)
  | unitComplete (g : Nat)
  | preemption (graph node : Nat)
  -- memory processor
  | mpring (v : W64)
  | heap (r : Req)
  | mapr (r : Req)
  | mapp (r : Req)
  | prot (r : Req)
  | unmap (r : Req)
  | migbegin (r : Req)
  | migend (r : Req)
  | cntrst (r : Req)
  | query (r : Req)
  | frames (r : Req)
  | deny (r : Req)
  | drop (r : Req)
  | quar (r : Req)
  | migwaitExpiry (seq : Nat)
  | revocationComplete (seq : Nat)
  | requestResponse (seq : Nat)
  -- collectives, domain, dies, errors
  | collContributionArrival (c : Contrib)
  | collResult (id : Nat)
  | moduleDeparture (m : Nat)
  | mapPublication (m : Nat) (hbmcap : Nat) (mix : List Nat)
  | dieFailed (slot : Nat)
  -- boot, management, registers
  | health (m : Msg)
  | thermal (m : Msg)
  | attest (m : Msg)
  | fwimage (m : Msg)
  | domain (modid : Nat) (members : List Nat)
  | command (m : Msg)
  | svnfuse (v : W64)
  | registerWrite (off : Nat) (v : W64)
  | humokChange (ok : Bool)
  | translationCacheFill (id : Nat)
  | accClrComplete (id : Nat)
  -- events and commands without a field
  | patrolScrubSlot
  | patrolSweepStart
  | refreshSlot
  | bankedSlot
  | sagCheck
  | supplyReset
  | slewStep
  | thermalSample
  | purgeComplete
  | purgeTimeout
  | soakComplete
  | stoppingComplete
  | stopwaitExpiry
  | cool
  | run
  | warm
  | completionEntryPost
  | energySample
  | dropRelocationComplete
  | notificationPost
  | errorWindowClear
  | powerOn
  | bootstReady
  | thermalReport
  | measExtend
deriving DecidableEq, Repr

end Sys2Proof
end

