-- ==== Sys2Proof/Machine/SMap.lean ====
section
/-! DEFINITION. Sparse data by key: a list of (key, value) pairs with strictly rising keys. Memory, slice files and register arrays
use it, so that equal contents are equal lists. -/

namespace Sys2Proof.Machine

/-- A sparse map from numbers. -/
abbrev SMap (α : Type) := List (Nat × α)

namespace SMap

/-- The value at `k`, or `d` where the list holds no entry. -/
def get {α : Type} (d : α) : SMap α → Nat → α
  | [], _ => d
  | (k, v) :: r, j => if j = k then v else get d r j

/-- The entry at `k`, if listed. -/
def find {α : Type} : SMap α → Nat → Option α
  | [], _ => none
  | (k, v) :: r, j => if j = k then some v else find r j

/-- Writes an entry and keeps the keys rising. -/
def put {α : Type} : SMap α → Nat → α → SMap α
  | [], j, x => [(j, x)]
  | (k, v) :: r, j, x =>
    if j < k then (j, x) :: (k, v) :: r
    else if j = k then (j, x) :: r
    else (k, v) :: put r j x

/-- Removes every entry at `k`. -/
def erase {α : Type} : SMap α → Nat → SMap α
  | [], _ => []
  | (k, v) :: r, j => if j = k then erase r j else (k, v) :: erase r j

/-- Writes a value in canonical form: writing what an unlisted key reads as removes the entry. -/
def set {α : Type} [DecidableEq α] (d : α) (m : SMap α) (k : Nat) (x : α) : SMap α :=
  if x = d then erase m k else put m k x

/-- Keys strictly rise, and no entry holds the value an unlisted key reads as. -/
def wf {α : Type} [DecidableEq α] (d : α) : SMap α → Bool
  | [] => true
  | [(_, v)] => decide (v ≠ d)
  | (k, v) :: (k', v') :: r => decide (k < k') && decide (v ≠ d) && wf d ((k', v') :: r)

end SMap

end Sys2Proof.Machine
end

