-- ==== Sys2Proof/Machine/State.lean ====
section
/-! DEFINITION. The state of the module: everything the spec names, as plain data, and the state right after reset. -/

namespace Sys2Proof.Machine

open Sys2Proof

/-! ### Small fixed sets -/

/-- The four core types (R11, R16). -/
inductive CoreType where
  | m | v | g | b
deriving DecidableEq, Repr

/-- Faults, traps and detected errors in the order of R421. -/
inductive Cause where
  | illegalEncoding | engineAbsent | illegalInstruction | illegalOperand | bufferAccess | format
  | windowStraddle | windowHole | coreAbsent | addressHole | alignment
  | segmentLegality | loopNest | tagBusy | planeState | copyOverlap | bufferRange | schedule
  | race | sharing | translation | protection | page | revokedRange | footprint
  | arithTrap | systemTrap | pushEarly | pushLate
  | ueSram | ueHbm | ueHost | linkCrc | fabricFlit | checkMismatch | collMismatch | controlWord
  | moduleDeparted | dieLost | remoteMap
deriving DecidableEq, Repr

/-- A register-like resource of a core that interlocks (R72, R73) and carries check bits (R408). A granule is 16 slices (R67). -/
inductive Res where
  | sg (g : Nat)            -- granule of the scalar file
  | lg (g : Nat)            -- granule of the lane files, every lane
  | pred (i : Nat)
  | vpred (i : Nat)
  | win (t w : Nat)
  | lc (i : Nat)
  | bt (i : Nat)
  | tags
  | cb (i : Nat)
  | nst (i : Nat)           -- a NEST register, by its number less 0x040
  | wbank
  | accBank (b : Nat)
  | sign
  | mul
  | tsc
  | plane (pl : Bool)       -- a weight plane of an M-core (R244)
  | stage                   -- the egress stage (R147, R329)
  | opening                 -- the saved opening state (R122, R329)
  | unit (n : Nat)         -- a unit that one instruction holds: 0 the divider, 1 the scan path
  | sysr (n : Nat)          -- another system register, by its number
deriving DecidableEq, Repr

/-- What ECC finds when a check unit is read (R408, R411). -/
inductive EccMark where
  | good | correctable | uncorrectable | poisoned
deriving DecidableEq, Repr

/-! ### Images and descriptors (R108 to R110, R310, R339, R341) -/

/-- A protected or scratch range: base and length in bytes (R311). -/
structure Rng where
  base : Nat
  len : Nat
deriving DecidableEq, Repr

/-- A segment descriptor (R310). -/
structure Desc where
  openKind : Bool
  eqp : Bool
  segno : Nat
  ticks : Nat
  estim : Nat
  sig : W64
  egress : Nat
  shlines : Nat
  foot : Nat
  livein : W64
  carry : BitVec 128
  prot : List Rng
  scr : List Rng
deriving DecidableEq, Repr

/-- An initialisation record (R110). -/
structure InitRec where
  kind : Nat
  tag : Nat
  index : Nat
  fmt : BitVec 5
  a : Nat
  b : Nat
  c : Nat
  d : Nat
  bytes : List Byte
deriving DecidableEq, Repr

/-- A stream record (R109): group-relative cores, words, initialisation. -/
structure StreamRec where
  cores : BitVec 256
  words : List W32
  inits : List InitRec
deriving DecidableEq, Repr

structure ShapeSched where
  shape : Nat
  streams : List StreamRec
  descs : List Desc
deriving DecidableEq, Repr

/-- A state map record (R339). -/
structure MapRec where
  src : Nat
  dst : Nat
  kind : Nat
  score : Nat
  dcore : Nat
  sidx : Nat
  didx : Nat
deriving DecidableEq, Repr

structure EqPoint where
  eqid : Nat
  desc : List Nat
  pcs : List (List Nat)
  maps : List MapRec
deriving DecidableEq, Repr

/-- A task image as the loader reads it (R108). -/
structure Image where
  exact : Bool
  portable : Bool
  seed : W64
  shapes : List ShapeSched
  eqps : List EqPoint
  tmpl : List Byte
deriving DecidableEq, Repr

/-! ### Engines and cores -/

/-- An operand latch: width in slices (0: empty) and a 64-bit pattern per lane; lane 0 on engines without lanes (R71). -/
structure Latch where
  width : Nat
  val : SMap W64
deriving DecidableEq, Repr

/-- A bead with its epoch bit and the tick it was added at (R86, R88). -/
structure Bead where
  epoch : Bool
  tick : Nat
deriving DecidableEq, Repr

/-- A bead queue, oldest first, and the slots freed in tick `freedAt` (R86). -/
structure BeadQ where
  q : List Bead
  freedAt : Nat
  freed : Nat
deriving DecidableEq, Repr

/-- An outcome queue entry (R116): taken or not, or a loop count. -/
structure OutEnt where
  tick : Nat
  taken : Bool
  count : Nat
deriving DecidableEq, Repr

/-- An engine's copy of an active loop (R119); `fresh`: the open segment opened it (R120). -/
structure LoopSt where
  n : Nat
  cnt : Nat
  first : Nat
  last : Nat
  fresh : Bool := false
deriving DecidableEq, Repr

/-- Bead adds due at completion (R85), from tick `tick` on and after the end of operation `op`: to the previous and the next engine. -/
structure Owed where
  tick : Nat
  op : Option Nat
  prev : Bool
  next : Bool
deriving DecidableEq, Repr

/-- Takes at completion still to be made (R85): due from tick `c` on and after the end of operation `op`, with the adds that follow,
the operations and the flags that they hold back, and the word index of the instruction. -/
structure Hold where
  wp : Bool
  wn : Bool
  c : Nat
  op : Option Nat
  sp : Bool
  sn : Bool
  fl : List Nat
  flags : BitVec 32 := 0
  pc : Nat := 0
deriving DecidableEq, Repr

/-- One engine of a core. `waits`: the engine holds its group paused until its access can be made (R282, R372, R377), with the pause
source and the TIME tick of its last attempt; `primed`: the read stall of R69 of the instruction at `pc` has
passed; `asked`: it has begun to ask the banks of a buffer, and `ask` counts the lines that it still needs of each (R197); its beads are taken before both; `pos0` is the position of the last word it issued (R280); `doneAt` and `readAt` are the ticks at
which the last effect and the last memory read of what it has issued complete, of a segment those of the segment, and `seamDone` is the last effect of what
it issued before that; `links` are the old targets of BRLs that name one register
twice and that the CE has issued before it (R117). -/
structure Engine where
  pc : Nat
  nextAt : Nat
  lastAt : Option Nat
  latA : Latch
  latB : Latch
  inPrev : BeadQ
  inNext : BeadQ
  epoch : Bool
  outq : List OutEnt
  loops : List LoopSt
  sig : W64
  dyn : Nat
  seam : Nat
  idx : Nat
  pos : Nat
  pos0 : Nat
  arrived : Option Nat
  since : Option Nat
  owed : List Owed
  hold : Option Hold
  openWait : Bool
  primed : Bool
  asked : Bool
  ask : List Nat := []
  waits : Option (Nat × Nat)
  doneAt : Nat
  seamDone : Nat := 0
  readAt : Nat := 0
  pbrAt : SMap Nat
  links : List Nat := []
deriving DecidableEq, Repr

/-- A producer's reservation of a circular-buffer entry (R255): its operation, whether it advances, whether it is complete, and the
reckoner tick at which it was made (R278). -/
structure Resv where
  id : Nat
  adv : Bool
  done : Bool
  tick : Nat := 0
deriving DecidableEq, Repr

/-- A circular buffer (R166). `attr` 0 (raw) is open (R42). -/
structure Cb where
  space : Nat
  base : Nat
  ents : Nat
  size : Nat
  attr : BitVec 5
  prod : BitVec 32
  cons : BitVec 32
  resv : List Resv
deriving DecidableEq, Repr

/-- The SE's sign state (R237). -/
structure SignSt where
  en : Bool
  qs : BitVec 8
  i0 : BitVec 48
deriving DecidableEq, Repr

/-- A weight plane (R217, R218): 0 EMPTY, 1 LOADING, 2 FULL; its format and its tile image. -/
structure Plane where
  st : Nat
  fmt : BitVec 5
  img : List Byte
deriving DecidableEq, Repr

/-- A running nest (R229 to R232): MMA's copy of the table and how far it has come, the tick of an MSTOP, the tick since which it stalls,
the number of its operation, and SEED as it stood at the MMA. -/
structure NestRun where
  regs : SMap W64
  aoff : Nat
  ua : Bool
  uw : Bool
  sign : SignSt
  cons0 : BitVec 32
  entered : Nat
  total : Nat
  stopAt : Option Nat
  since : Option Nat
  id : Nat
  seed : W64 := 0
deriving DecidableEq, Repr

/-- A piece of an access after translation: VA, PA, length in bytes. -/
structure Run where
  va : Nat
  pa : Nat
  len : Nat
deriving DecidableEq, Repr

/-- An egress-stage entry (R147): marked nibbles of one 64-byte line by nibble number, or one atomic. -/
inductive StageEnt where
  | store (line : Nat) (nibs : SMap Slice)
  | atomn (pa : Nat) (aop : Nat) (s64 : Bool) (x : Nat)
deriving DecidableEq, Repr

/-- A deferred copy (R263). -/
structure DefCopy where
  src : List Run
  dst : List Run
  tag : Option Nat
  pc : Nat
deriving DecidableEq, Repr

/-- What SEG.OPEN saves of one core (R122, R325). `pbr` holds, by tag, the ticks of the PBRs of the seam (R117). -/
structure Opening where
  pcs : SMap Nat
  win : SMap (BitVec 15)
  pred : BitVec 16
  vpred : SMap W64
  lc : SMap (BitVec 32)
  bt : SMap (BitVec 32)
  loops : SMap (List LoopSt)
  tags : W64
  flags : BitVec 32
  ckd : BitVec 32
  cb : SMap Cb
  nest : SMap W64
  sign : SignSt
  mul : BitVec 32
  tsc : BitVec 32
  wbank : Bool
  epochs : SMap Bool
  pbr : SMap (SMap Nat) := []
deriving DecidableEq, Repr

/-- The open segment of a core. `rel` is the widest release scope of its fences, 0 for none (R152); `closed`: its SEG.CLOSE, at that word index,
has issued, and the group's commit waits for the other cores (R301). -/
structure Seg where
  ix : Nat
  desc : Desc
  openAt : Nat
  opening : Opening
  carry : Option Bool
  rel : Nat
  closed : Option Nat
deriving DecidableEq, Repr

/-- A resource not available before reckoner tick `tick` (R72, R111). With `op`, the operation of that number must end first; with
`hold`, the takes at completion of the engine at that tag must be made first (R85). A result is written into the resource at issue and
`old` is what the resource held before: until the write commits, a stop shows `old` and a discard puts it back (R324, R428). `mask` marks the
bits written where an earlier operation has still to write the resource: it leaves them alone (R72). `seam`: an
instruction of a seam makes the result, which no discard takes back. -/
structure Busy where
  res : Res
  tick : Nat
  op : Option Nat
  hold : Option Nat
  old : List Nat
  mask : List Nat
  seam : Bool := false
deriving DecidableEq, Repr

/-- One core (R11, R60, R76, R81). `sysq` holds the writes of system registers that have issued and take effect at a later tick, as (reckoner
tick, number, value), oldest first (R81). `ports` holds the banks of its V-buffer or A-buffer that engines ask, as (reckoner tick, tag, bank), from
the present tick on (R197, R232); `deRead` is the tick of the DE's last read of a bank (R227). -/
structure Core where
  grp : Option Nat
  stream : List W32
  halted : Bool
  scalar : SMap Slice
  lanes : SMap Slice
  pred : BitVec 16
  vpred : SMap W64
  bt : SMap (BitVec 32)
  lc : SMap (BitVec 32)
  win : SMap (BitVec 15)
  eng : SMap Engine
  tgrp : BitVec 3
  segno : BitVec 32
  reent : BitVec 4
  seglim : BitVec 4
  fpmode : BitVec 32
  flags : BitVec 32
  flagq : SMap (BitVec 32)
  fmask : BitVec 32
  sysq : List (Nat × Nat × W64) := []
  tags : W64
  tagOps : List Nat
  slip : BitVec 12
  seed : W64
  ckd : BitVec 32
  pacer : W64
  heapb : W64
  heapl : W64
  heapo : W64
  frec : SMap W64
  frecAt : Option Nat
  nest : SMap W64
  act : Bool
  plane0 : Plane
  plane1 : Plane
  wbank : Bool
  carryok : Bool
  stoppedN : Bool
  passes : Nat
  nestRun : Option NestRun
  sign : SignSt
  mul : BitVec 32
  tsc : BitVec 32
  cb : SMap Cb
  seg : Option Seg
  openings : Nat
  egress : List StageEnt
  deferred : List DefCopy
  path : List Nat
  base : Nat
  busy : List Busy
  ecc : List (Res × Bool)
  bcm : SMap Nat
  ports : List (Nat × Nat × Nat)
  deRead : Nat
deriving DecidableEq, Repr

/-! ### Operations in progress -/

/-- What an operation signals when its last byte has arrived (R85, R154, R156, R255). -/
inductive Fin where
  | tag (core t : Nat)
  | barrier (pa n : Nat)
  | resv (core cb id : Nat)
  | cons (core cb n : Nat)
  | prod (core cb n : Nat)
  | attr (core cb : Nat) (a : BitVec 5)
deriving DecidableEq, Repr

/-- What an operation in progress will do. Bytes are held as (PA, byte) cells in the order they are applied. -/
inductive Work where
  /-- CE load: runs, staged nibbles laid over them (R148), first slice, width in slices, signed, saturating, access size in bytes, the tick
  at which the result commits. -/
  | load (runs : List Run) (ovl : List (Nat × Slice)) (start w : Nat) (fs sat : Bool) (n commit : Nat)
  /-- FILL chunk: runs, staged nibbles, first slice, number of slices. -/
  | fill (runs : List Run) (ovl : List (Nat × Slice)) (start cnt : Nat)
  /-- Bytes to be written, and completion signals. -/
  | write (ws : List Host.Cell) (fins : List Fin)
  /-- Nibbles to be written by nibble address (2·PA or 2·PA+1). -/
  | nibbles (ns : List (Nat × Slice))
  /-- An atomic: PA, AOP (13: compare and swap), 64-bit, operand, expected value, destination slice and width (0: none), signed,
  predicate to write. -/
  | atomic (pa aop : Nat) (s64 : Bool) (x exp : Nat) (start w : Nat) (fs : Bool) (pd : Option Nat)
  /-- A transfer: what the source runs hold when it lands, then the bytes `img`, into the destination runs, with completion signals. Its
  beats enter the links (from, to) until tick `last` (R274), and until then writes to the runs `held` stall (R263). -/
  | copy (src : List Run) (img : List Byte) (dst : List Run) (links : List (Nat × Nat)) (last : Nat) (held : List Run) (fins : List Fin)
  /-- Vector load: per enabled lane its byte address list is consecutive from the PA; first slice and width. -/
  | vload (lanes : List (Nat × Nat)) (start w : Nat)
  /-- QDEQ: PA of the entry, its attribute, blocks per entry, first block, enabled lanes, first slice and width, format of the result, resolved
  rounding mode, saturation, SEED as it stood at issue, counter of element 0 of lane 0, and the
  tick at which the result commits. -/
  | qdeq (ent : Nat) (attr : BitVec 5) (k blk : Nat) (lanes : List Nat) (start w : Nat) (fmt : BitVec 3) (rm : Nat) (sat : Bool) (seed ctr : W64)
    (commit : Nat)
  /-- A tile or scale load into a plane (R235): plane, PA of the image, first byte, size, next byte to read, the image so far. -/
  | plane (pl : Bool) (pa lo size next : Nat) (img : List Byte) (fins : List Fin)
  /-- A nest (R238); its next pass enters at the tick the operation is due. -/
  | nest
  /-- A pass in the array: first half-row, sums (for a rotation the new values), flags, whether it is a rotation pass (R225, R233). -/
  | pass (c : Nat) (sums : List (BitVec 32)) (flags : BitVec 32) (rot : Bool)
  /-- ACC.CLR of a bank, ACC.CARRY. -/
  | clear (bank : Bool)
  | carry
  /-- A row of a DRAIN before it is read (R242, R245): the DRAIN's tick, half-row, number of values, PA of the entry, its attribute and size,
  MUL, TSC, FS, SAT, resolved rounding mode, SEED, EMBER counter of value 0, ticks of delay so far, signals of the last row. -/
  | rowRead (t0 h n pa : Nat) (attr : BitVec 5) (size : Nat) (mul tsc : BitVec 32) (fs sat : Bool) (rm : Nat) (seed ctr : W64) (lag : Nat) (fins : List Fin)
  /-- A drained row with its flags, and the completion signals of the last one. -/
  | row (t0 : Nat) (ws : List Host.Cell) (flags : BitVec 32) (fins : List Fin)
  /-- DAMAX: next and last half-row, half-rows per read, the largest magnitude code so far, first slice of the destination. -/
  | damax (h last : Nat) (acc : Nat) (start : Nat)
  /-- A barrier-object initialisation or arrival. -/
  | arrive (pa : Nat) (n : Int)
  /-- A collective contribution in the fabric (R390). -/
  | contrib (c : Contrib)
  /-- The result of a collective on its way to a contributor (R390). -/
  | deliver (c : Contrib)
  /-- The place that a COLL of the queue keeps until its result has been written: identifier, sequence number, and the runs of DST (R296). -/
  | collDst (collid seq : Nat) (runs : List Run)
  /-- A translation walk: the die, and the translations that it fetches, ranges and pages by their base (R369). -/
  | walk (die : Nat) (keys : List (Bool × Nat))
  /-- A late fixed-time access: the pause claim that ends when it completes. `busy`: it met other traffic (R282). -/
  | late (busy : Bool)
  /-- A request of a cancelled operation that has still to drain, without effect (R326). -/
  | drained
  /-- Beats of transfer `op` that are still to leave a buffer, or to reach one, from the present one on (R197, R232, R274): the core and space of the
  buffer where engines share its banks, the offset and number of bytes left, whether they leave, and the signals of the last one. Beats that ask
  no bank are due together, when the last leaves. -/
  | beats (op : Nat) (own : Option (Nat × Nat)) (off n : Nat) (out : Bool) (fins : List Fin)
deriving DecidableEq, Repr

/-- An operation in progress: number, issuing core and engine, group, reckoner tick (or TIME tick when `fixed` is false) at which it
takes effect, whether a segment issued it, whether the instruction that issued it is asynchronous (R85), and the stream words that lie
before that instruction (R72), and the word index of its head word. -/
structure Flight where
  id : Nat
  core : Nat
  tag : Nat
  grp : Nat
  due : Nat
  fixed : Bool
  inseg : Bool
  async : Bool
  pos : Nat
  pc : Nat
  work : Work
deriving DecidableEq, Repr

/-! ### Groups, jobs and the scheduler -/

/-- A pause claim (R281, R282): source by its row, and the TIME tick at which it ends, if stated. -/
structure Claim where
  src : Nat
  till : Option Nat
deriving DecidableEq, Repr

/-- A barrier in progress (R124). -/
structure Gbar where
  id : BitVec 4
  first : Nat
  last : Nat
  cores : List Nat
deriving DecidableEq, Repr

/-- A registration of a line (R305 to R307): by the segment, or by the access of a seam that holds it, `flight`. A line has one entry for the
segment and one for each such access. -/
structure Reg where
  line : Nat
  rd : Bool
  wr : Bool
  atomic : Bool
  flight : Option Nat
deriving DecidableEq, Repr

/-- Why a group is to stop before its next SEG.OPEN or HALT (R348, R352, R353, R405). -/
inductive Leave where
  | checkpoint (cause : Nat)
  | vanish
deriving DecidableEq, Repr

/-- What follows at a group's next tick (R323, R348, R354, R413): re-entry after a counted cause, a checkpoint with its CAUSE and the
page it waits for, the end of a unit by a detected error of a seam, a fatal fault of the job, a kill with re-queueing, removal, the re-entry of a REVSTEP
(R429). -/
inductive After where
  | counted
  | checkpoint (cause : Nat) (page : Option Nat)
  | seamError
  | jobFatal
  | kill
  | vanish
  | replay
deriving DecidableEq, Repr

/-- A discard or stop that takes effect at reckoner tick `tick` (R324), charged to a core; `also` is a pre-emption or page fault that met a
counted cause, with its page (R329). -/
structure Pend where
  tick : Nat
  core : Nat
  after : After
  also : Option (Nat × Option Nat)
deriving DecidableEq, Repr

/-- A unit stopped in a seam that holds its group (R354): the core and engine charged, the cause, and the reckoner tick: the group issues nothing after it. -/
structure Held where
  core : Nat
  tag : Nat
  cause : Cause
  tick : Nat
deriving DecidableEq, Repr

/-- A timing group (R337), with the unit it runs and its band as it now acts (R283). `sticky` keeps the fixed-time class of pages switched since the last edge (R375); `live`: no claim holds its reckoner at the present tick (R281).
`cbs`: the circular buffers of cores that had halted when the open segment opened (R267). -/
structure Group where
  num : Nat
  shape : Nat
  dies : List Nat
  cores : List Nat
  graph : Nat
  node : Nat
  unit : Nat
  job : Nat
  startAt : Nat
  reck : Nat
  claims : List Claim
  openings : Nat
  bar : Option Gbar
  regs : List Reg
  gen : Nat
  sticky : List (Nat × Bool)
  foot : Nat
  stopped : Bool
  stopIn : Option Nat
  replayTo : Option Nat
  reenter : Option Nat
  leave : Option Leave
  pend : Option Pend
  held : Option Held
  band : Nat
  live : Bool
  cbs : SMap (SMap Cb) := []
deriving DecidableEq, Repr

/-- A counter record (R347): VA, fields, whether a failed write was already reported. -/
structure Counter where
  va : Nat
  done : Nat
  total : Nat
  st : Nat
  cseq : Nat
  failed : Bool
deriving DecidableEq, Repr

/-- Where a unit that has started or been re-queued stands. A unit stopped in a seam stays `running` on its held group (R354). -/
inductive UnitSt where
  | queued
  | running (g : Nat)
  | ready
  | stoppedFrame
  | waitPage (va : Nat)
  | waitFoot (n : Nat)
  | finished
  | removed
deriving DecidableEq, Repr

/-- A unit that has started or been re-queued (R344, R357). `frame` is the VA of its context frame. -/
structure UnitRec where
  u : Nat
  st : UnitSt
  frame : Option Nat
  flen : Nat
  starts : Nat
  shape : Nat
deriving DecidableEq, Repr

/-- One node of a graph: a launch (R341, R347). -/
structure Node where
  preds : List Nat
  image : Image
  imgBytes : List Byte
  shapes : Nat
  trav : Nat
  swz : Nat
  det : Nat
  kill : Nat
  gx : Nat
  gy : Nat
  gz : Nat
  tokens : Nat
  args : Nat
  seed : W64
  energyQ : Nat
  trace : Nat
  tracelen : Nat
  traced : Nat
  digest : Nat
  outs : List (Nat × Nat × Nat)
  ctr : Counter
  energy : Nat
  requeues : Nat
  nextK : Nat
  units : List UnitRec
  cancelled : Bool
deriving DecidableEq, Repr

/-- A graph; a LAUNCH forms a graph of one node (R346). -/
structure Graph where
  handle : Nat
  single : Bool
  job : Nat
  phase : Nat
  ctr : Counter
  nodes : List Node
deriving DecidableEq, Repr

structure Phase where
  no : Nat
  ctr : Counter
  closed : Bool
deriving DecidableEq, Repr

/-- A range entry (R365). -/
structure Range where
  base : Nat
  limit : Nat
  off : Nat
  attr : BitVec 16
  paged : Bool
  revoking : Bool
  esz : Nat
  ssz : Nat
deriving DecidableEq, Repr

/-- A page-table leaf (R368): VA, size in bytes, attribute word, PRES, MIG, PA or token, COUNT, whether its notice was posted. -/
structure Leaf where
  va : Nat
  size : Nat
  attr : BitVec 16
  pres : Bool
  mig : Bool
  revoking : Bool
  pa : Nat
  count : Nat
  noticed : Bool
deriving DecidableEq, Repr

/-- A change that reaches groups at their segment edges (R374, R375, R378). -/
inductive ChangeKind where
  | prot (attr : BitVec 16)
  | unmap
  | remap (l : Leaf)
  | migrate (pa : Nat)
deriving DecidableEq, Repr

/-- A pending change: request SEQ, span, groups not yet switched, TIME limit (R378). -/
structure Change where
  seq : Nat
  kind : ChangeKind
  va : Nat
  len : Nat
  waiting : List Nat
  deadline : Option Nat
deriving DecidableEq, Repr

/-- A job (R346) with its translation context (R361, R366, R367, R374). -/
structure Job where
  handle : Nat
  pool : Nat
  poolLen : Nat
  frames : List Rng
  ctr : Counter
  phases : List Phase
  closed : Bool
  heapb : W64
  heapl : W64
  heapo : W64
  ranges : List Range
  leaves : List Leaf
  revoked : List Rng
  changes : List Change
  destroyed : Bool
deriving DecidableEq, Repr

/-- A completion entry before it is written (R351). -/
structure CqEnt where
  ack : Nat
  kind : Nat
  status : Nat
  sub : Nat
  handle : Nat
  data : List Byte
deriving DecidableEq, Repr

/-- A notification entry before it is written (R372). -/
structure NqEnt where
  kind : Nat
  size : Nat
  status : Nat
  count : Nat
  job : Nat
  va : Nat
deriving DecidableEq, Repr

/-- A response that waits until its request has taken effect for every group (R371), and until no operation still writes the frame
`page` (PA and size) of a MIGBEGIN (R377). -/
structure Resp where
  seq : Nat
  ent : NqEnt
  page : Option (Nat × Nat)
deriving DecidableEq, Repr

/-- What a QUERY is answered with (R371): its SEQ, the PA, the ATTR and the page size code. -/
structure Answer where
  seq : Nat
  pa : Nat
  attr : BitVec 16
  size : Nat
deriving DecidableEq, Repr

/-- A cancellation that waits until every unit has left its group (R348). -/
structure CancelRec where
  id : Nat
  level : Nat
  handle : Nat
  arg : Nat
  destroy : Bool
deriving DecidableEq, Repr

/-! ### Module-wide pieces -/

/-- Kinds of access to a SHARED line (R305). -/
inductive RaceKind where
  | read | write | atomic
deriving DecidableEq, Repr

/-- A race record (R304). -/
structure RaceRec where
  wmod : BitVec 8
  wgrp : BitVec 3
  wopen : Bool
  aonly : Bool
  lrd : BitVec 8
  rcnt : BitVec 11
deriving DecidableEq, Repr

/-- A collective at its X-die (R385, R391): contributions, whether its result is formed, ranks that have reported. -/
structure Coll where
  xdie : Nat
  parts : List Contrib
  formed : Bool
  received : List Nat
deriving DecidableEq, Repr

/-- A member's published map and MIX (R288, R381). -/
structure Member where
  id : Nat
  hbmcap : Nat
  mix : List Nat
  gone : Bool
deriving DecidableEq, Repr

/-- Present readings of the three sensors of a die slot in 1/64 K; none: no answer (R397). -/
structure Sensor where
  slot : Nat
  die : Option Nat
  stack0 : Option Nat
  stack1 : Option Nat
deriving DecidableEq, Repr

/-- Outside conditions that the machine samples (R397, R440, R441): sensors other than at 77 K, dies whose rail sags, input in
units of 0.1 V, mean power in W, energy in nJ that each die has drawn since its last sample, dies that do not answer, a rate limit of R403
exceeded while cooling or warming, whether the training of host memory fails (R433), and whether no fabric port of the domain is down or
replays, every other member is in LOCK and the fabric carries no traffic but a collective of this module's (R393). -/
structure Env where
  sensors : List Sensor
  railSag : List Nat
  input : Nat
  meanPower : Nat
  energy : SMap Nat
  silent : List Nat
  hotFall : Bool
  hotRise : Bool
  hostBad : Bool
  quiet : Bool := false
deriving DecidableEq, Repr

/-- A translation-cache entry (R369): page or range, job, VA key, generation of the filling group. -/
structure TcEnt where
  range : Bool
  job : Nat
  key : Nat
  grp : Nat
  gen : Nat
deriving DecidableEq, Repr

/-- Something the outside does, with the TIME tick from which the step may take it. -/
inductive Input where
  /-- An event or message of the table. -/
  | event (i : Instr)
  /-- New outside conditions. -/
  | env (e : Env)
  /-- Bytes placed in memory. -/
  | bytes (pa : Nat) (bs : List Byte)
  /-- An ECC mark in memory. -/
  | ecc (pa : Nat) (m : EccMark)
  /-- An ECC mark in a register or weight plane of a core. -/
  | coreEcc (core : Nat) (r : Res) (bad : Bool)
  /-- Group `g` of module `m` reads, writes or makes an atomic on a SHARED line of this module; `rd` and `atom`: whether its own table holds a
  read and an atomic registration of the line (R304, R305). -/
  | race (m g line : Nat) (k : RaceKind) (rd atom : Bool)
  /-- A registration of group `g` of module `m` on a line of this module ends (R307). -/
  | raceEnd (m g line : Nat) (rd wr atom : Bool)
  /-- The record of a line of another module, as the accesses of that module's other groups leave it there (R304). -/
  | raceRec (line : Nat) (r : RaceRec)
  /-- An uncorrectable error in the race record of a line, or in the owner field of a frame (R408). -/
  | recordEcc (frame : Bool) (n : Nat)
  /-- A parity error in an entry of a die's translation cache (R408). -/
  | parity (die : Nat) (e : TcEnt)
  /-- Bytes of other modules that their homes no longer serve, though the published copies still hold them (R288). -/
  | stale (rs : List Rng)
deriving DecidableEq, Repr

/-- A reply or report sent through the management port (R439). -/
structure MgmtOut where
  typ : Nat
  seq : Nat
  body : List Byte
deriving DecidableEq, Repr

/-- The thermal controller beyond its registers (R397, R401, R403). -/
structure ThermSt where
  since : Nat
  holdFrom : Option Nat
  warmPending : Bool
  sweepPos : Nat
  scrubAt : Nat
deriving DecidableEq, Repr

/-- A DROP in progress (R417): request, channels, count, the TIME of its start, and the end of the relocation once it has begun. -/
structure DropSt where
  seq : Nat
  first : Nat
  n : Nat
  since : Nat
  ends : Option Nat
deriving DecidableEq, Repr

/-- Boot, firmware and management state (R433 to R439). -/
structure BootSt where
  store : List Byte
  frags : List Byte
  svn : Nat
  subscribed : Bool
  out : List MgmtOut
  firmware : List (Nat × Msg)
deriving DecidableEq, Repr

/-- The parts of a tick: events keyed on TIME are found; then they happen and the reckoners advance; issue; effects that fall due. -/
inductive Half where
  | events
  | claims
  | work
  | land
deriving DecidableEq, Repr

/-- The core and engine whose instruction is being issued. -/
structure Cursor where
  core : Nat
  tag : Nat
deriving DecidableEq, Repr

/-- The whole module. `again`: the present tick repeats the value of TIME after a slew step (R24). -/
structure State where
  time : Nat
  again : Bool
  half : Half
  agenda : List Instr
  inputs : List (Nat × Input)
  env : Env
  free : Nat
  cur : Cursor
  mem : List Host.Cell
  ecc : SMap EccMark
  race : SMap RaceRec
  owner : SMap (BitVec 4)
  /-- Uncorrectable errors in race records (false, line) and frame owner fields (true, frame), R408. -/
  recErr : List (Bool × Nat) := []
  tcache : SMap (List TcEnt)
  nextId : Nat
  flights : List Flight
  cores : SMap Core
  groups : List Group
  jobs : List Job
  graphs : List Graph
  creg : SMap W64
  nextSub : Nat
  cqSeq : Nat
  cqWait : List CqEnt
  nextReq : Nat
  nqSeq : Nat
  nqWait : List NqEnt
  resps : List Resp
  answers : List Answer
  freef : Int
  cancels : List CancelRec
  cancelId : Nat
  colls : List Coll
  members : List Member
  stale : List Rng := []
  lowered : List (List Byte) := []
  slew : Int
  pcErr : SMap (Nat × Nat)
  dieErr : SMap Nat
  errFrom : Nat
  therm : ThermSt
  dropSt : Option DropSt
  boot : BootSt
deriving DecidableEq, Repr

/-! ### Reset -/

/-- R11. -/
def coreType (c : Nat) : CoreType :=
  if c < 128 then .m else if c < 192 then .v else if c < 224 then .g else .b

/-- Divisors after reset, as CKD holds them (R23, R126). -/
def ckdReset (c : Nat) : BitVec 32 :=
  match coreType c with
  | .m => 0x0202_2222#32
  | .v => 0x0200_2222#32
  | .g => 0x0300_3333#32
  | .b => 0x0200_0222#32

def Latch.empty : Latch := { width := 0, val := [] }

def BeadQ.empty : BeadQ := { q := [], freedAt := 0, freed := 0 }

/-- An engine after reset (R61, R71, R76, R88, R119). -/
def Engine.reset : Engine :=
  { pc := 0, nextAt := 0, lastAt := none, latA := .empty, latB := .empty, inPrev := .empty, inNext := .empty, epoch := false,
    outq := [], loops := [], sig := 0, dyn := 0, seam := 0, idx := 0, pos := 0, pos0 := 0, arrived := none, since := none, owed := [],
    hold := none, openWait := false, primed := false, asked := false, waits := none, doneAt := 0, seamDone := 0, readAt := 0, pbrAt := [], links := [] }

/-- An unconfigured circular buffer (R166). -/
def Cb.none : Cb := { space := 0, base := 0, ents := 0, size := 0, attr := 0, prod := 0, cons := 0, resv := [] }

def Plane.empty : Plane := { st := 0, fmt := 0, img := [] }

def SignSt.off : SignSt := { en := false, qs := 0, i0 := 0 }

/-- Core `c` after module reset (R81 and the rules it names). Slice files read 0 (R446; log entry 4). -/
def Core.reset (c : Nat) : Core :=
  { grp := none, stream := [], halted := false, scalar := [], lanes := [], pred := 0, vpred := [], bt := [], lc := [], win := [],
    eng := [], tgrp := 0, segno := 0, reent := 0, seglim := 3, fpmode := 0, flags := 0, flagq := [], fmask := 0, sysq := [], tags := 0, tagOps := [],
    slip := 256, seed := 0, ckd := ckdReset c, pacer := 0, heapb := 0, heapl := 0, heapo := 0, frec := [], frecAt := none, nest := [],
    act := false, plane0 := .empty, plane1 := .empty, wbank := false, carryok := false, stoppedN := false, passes := 0,
    nestRun := none, sign := .off, mul := 0x3F80_0000#32, tsc := 0x3F80_0000#32, cb := [], seg := none, openings := 0,
    egress := [], deferred := [], path := [], base := 0, busy := [], ecc := [], bcm := [], ports := [], deRead := 0 }

/-- Reset value of the C-die register at an offset (R13, R14, R399, R412, R416, R430, R432, R434, R440, R443, R444). -/
def cregReset (off : Nat) : W64 :=
  if off = 0x40 then 0x4040_4040_4040_4020#64          -- slots 0-7: C, B
  else if off = 0x48 then 0x6060_6060_6060_6040#64     -- slots 8-15: B, M
  else if off = 0x50 then 0x6060_6060_6060_6060#64     -- slots 16-23: M
  else if off = 0x58 then 0x8080_8080_8080_8060#64     -- slots 24-31: M, V
  else if off = 0x60 then 0x00C0_C0A0_A0A0_A080#64     -- slots 32-39: V, G, X, empty
  else if off = 0x1A0 then 0x10#64
  else if off = 0x1A8 then 56160000000000#64
  else if off = 0x1B0 then 0x100_0000#64
  else if off = 0x200 then 0x08_0204_0002#64
  else if off = 0x208 then 0x1000_0000_0000#64
  else if off = 0x210 then 1024#64
  else if off = 0x310 then 8192#64
  else if off = 0x330 then 256#64
  else if off = 0x338 then 0x10_0000#64
  else if off = 0x340 then 0x100#64
  else if off = 0x700 then 1#64
  else if off = 0x710 then 3400#64
  else 0#64

/-- Outside conditions at reset: 77 K on every sensor, a good supply (log entry 3). -/
def Env.calm : Env :=
  { sensors := [], railSag := [], input := 480, meanPower := 0, energy := [], silent := [], hotFall := false, hotRise := false, hostBad := false }

def RaceRec.zero : RaceRec := { wmod := 0, wgrp := 0, wopen := false, aonly := false, lrd := 0, rcnt := 0 }

/-- The module right after reset: boot stage ROM, thermal state WARM-OFF, nothing running (R14, R433). -/
def State.reset : State :=
  { time := 0, again := false, half := .work, agenda := [.powerOn], inputs := [], env := .calm, free := 0, cur := { core := 0, tag := 0 }, mem := [], ecc := [],
    race := [], owner := [], recErr := [], tcache := [], nextId := 0, flights := [], cores := [], groups := [], jobs := [], graphs := [],
    creg := [], nextSub := 1, cqSeq := 0, cqWait := [], nextReq := 1, nqSeq := 0, nqWait := [], resps := [], answers := [], freef := 0,
    cancels := [], cancelId := 0, colls := [], members := [], stale := [], lowered := [], slew := 0, pcErr := [], dieErr := [], errFrom := 0,
    therm := { since := 0, holdFrom := none, warmPending := false, sweepPos := 0, scrubAt := 0 },
    dropSt := none,
    boot := { store := [], frags := [], svn := 0, subscribed := false, out := [], firmware := [] } }

/-- Why the model stops with a fault. -/
inductive Fault where
  /-- Raised by the meaning of an instruction when exec is called for an engine that runs no instruction stream (its core belongs to no
  group, has halted, or its group is paused, held or re-entering). step never calls exec so. Safe: the hardware issues nothing there (R15, R125, R281). -/
  | engineIdle
deriving DecidableEq, Repr

/-- Why the model has no next state for an instruction. -/
inductive Refusal where
  /-- Answered by exec alone for an instruction whose meaning is still missing. Safe. -/
  | notModelled (mnemonic : String)
deriving DecidableEq, Repr

/-- The three outcomes over this machine. -/
abbrev Out := Host.Outcome State Fault Refusal

end Sys2Proof.Machine
end

