-- ==== Sys2Proof/Machine/Static.lean ====
section
/-! DEFINITION. The issue checks of R100, orders 4 and 5, that follow from an instruction's fields alone: the rules of R93, R94 and
R96 and the field values that a description declares illegal. What depends on the core's type or state is checked by the meaning. -/

namespace Sys2Proof

/-- Bits of a slice operand. -/
def Slot.bits (o : Slot) : Nat := 4 * (o.wm1.toNat + 1)

/-- Width of a slice operand in slices (R62). -/
def Slot.w (o : Slot) : Nat := o.wm1.toNat + 1

def Src.isImm : Src → Bool
  | .imm _ _ => true
  | _ => false

/-- Kind FILE or LATCH. -/
def Src.isFileOrLatch : Src → Bool
  | .file _ _ => true
  | .latch _ => true
  | _ => false

/-- GD = 0 with GUARD or SENSE not 0 is illegal (R89, R100). -/
def Guard.ok (g : Guard) : Bool := g.gd || (decide (g.p = 0) && !g.s)

def Slot.zero (o : Slot) : Bool := decide (o = ⟨0, 0, 0⟩)

def Src.isZeroFile : Src → Bool
  | .file o h => o.zero && !h
  | _ => false

def Src.isZeroDue : Src → Bool
  | .file o h => o.zero && !h
  | .imm v _ => decide (v = 0)
  | _ => false

/-- The hold bit of a source. -/
def Src.hold : Src → Bool
  | .file _ h | .latch h | .scalar _ h | .imm _ h => h

end Sys2Proof

namespace Sys2Proof.Machine

open Sys2Proof

/-- Element size in bits (R65). -/
def esBits (es : BitVec 2) : Nat := 4 <<< es.toNat

/-- Width in bits of the format that FMT names, 0 for integer (R94). -/
def fmtBits (fmt : BitVec 3) : Nat :=
  match fmt.toNat with
  | 1 => 4 | 2 => 8 | 3 => 8 | 4 => 16 | 5 => 16 | 6 => 32 | _ => 0

/-- Integer immediates lie in the range of their width (R93). -/
def immIntOk (fs : Bool) (bits : Nat) : Src → Bool
  | .imm v _ =>
    if fs then decide (-(2 ^ (bits - 1) : Int) ≤ v.toInt) && decide (v.toInt < 2 ^ (bits - 1)) else decide (v.toNat < 2 ^ bits)
  | _ => true

/-- A float immediate is a code of its width (R93). -/
def immFloatOk (fw : Nat) : Src → Bool
  | .imm v _ => decide (14 ≤ fw) || decide (v.toNat < 2 ^ fw)
  | _ => true

/-- FMT against FS and ES (R94). -/
def fmtOk (fmt : BitVec 3) (fs : Bool) (es : BitVec 2) : Bool :=
  decide (fmt = 0) || (decide (fmt ≠ 7) && fs && decide (fmtBits fmt = esBits es))

/-- An immediate under FMT at element size `es` (R172). -/
def immOk (fmt : BitVec 3) (fs : Bool) (es : BitVec 2) (x : Src) : Bool :=
  if fmt = 0 then immIntOk fs (esBits es) x else immFloatOk (esBits es) x

def fmtVe (fmt : BitVec 3) : Bool := decide (fmt = 0 ∨ fmt = 4 ∨ fmt = 5 ∨ fmt = 6)

/-- Which subcode fields an instruction uses: RM, SAT, COND (R94: a field not used is 0). -/
def subUse (s : Sub) (rm sat cond : Bool) : Bool :=
  (rm || decide (s.rm = 0)) && (sat || !s.sat) && (cond || decide (s.cond = 0))

/-- Order 4 for CE two-source arithmetic (R129); `bctl` marks a control operand b (R130). -/
def ceOk4 (f : S3) (sat xs bctl : Bool) : Bool :=
  decide (f.es = 0) && subUse f.sub false sat false && decide (f.sub.fmt = 0) && (xs || decide (f.sub.xs = 0)) &&
  immIntOk f.fs f.dst.bits f.a && (bctl || immIntOk f.fs f.dst.bits f.b)

/-- Order 4 of a VE or NE two-source instruction with elements. -/
def veOk4 (f : S3) (rm sat : Bool) (bctl : Bool) : Bool :=
  fmtOk f.sub.fmt f.fs f.es && subUse f.sub rm sat false && immOk f.sub.fmt f.fs f.es f.a &&
  (bctl || immOk f.sub.fmt f.fs f.es f.b)

def s3aOk4 (f : S3a) (rm sat : Bool) : Bool :=
  fmtOk f.sub.fmt f.fs f.es && subUse f.sub rm sat false && immOk f.sub.fmt f.fs f.es f.a

def s3cOk4 (f : S3c) : Bool :=
  fmtOk f.c.fmt f.fs f.es && immOk f.c.fmt f.fs f.es f.a && immOk f.c.fmt f.fs f.es f.b

/-- Condition codes (R96). -/
def condOk (s : Sub) : Bool := decide (s.cond.toNat < 8) && (decide (s.cond.toNat < 6) || decide (s.fmt ≠ 0))

/-- The control word of VRED and VSCAN (R189). -/
def redWordOk (scan : Bool) (fmt : BitVec 3) : Src → Bool
  | .imm v _ =>
    let op := v.toNat % 8
    let axis := v.getLsbD 3
    decide (v.toNat < 64) && (!v.getLsbD 4 || (!scan && !axis)) && (!v.getLsbD 5 || scan) &&
    (decide (fmt = 0) || !(decide (3 ≤ op) && decide (op ≤ 5))) && (decide (fmt ≠ 0) || decide (op < 6))
  | _ => true

def tenOk (ten : Bool) (tag : BitVec 6) : Bool := ten || decide (tag = 0)

def aopOk (aop : BitVec 4) (s64 : Bool) : Bool :=
  decide (aop.toNat < 13) && !(decide (9 ≤ aop.toNat) && decide (aop.toNat ≤ 11) && s64)

/-- The value operand of an atomic follows R93 at the access size; float operations read a float code (R150). -/
def atomImmOk (aop : BitVec 4) (fs s64 : Bool) (x : Src) : Bool :=
  if 9 ≤ aop.toNat ∧ aop.toNat ≤ 11 then true else immIntOk fs (if s64 then 64 else 32) x

/-- The guard of an instruction word; none of the events has one. -/
def guardOf : Instr → Guard
  | .br f => f.g
  | .brl f => f.g
  | .lbrk f => f.g
  | .add f => f.h.g
  | .sub f => f.h.g
  | .mul f => f.h.g
  | .mulh f => f.h.g
  | .divi f => f.h.g
  | .remi f => f.h.g
  | .and f => f.h.g
  | .or f => f.h.g
  | .xor f => f.h.g
  | .andn f => f.h.g
  | .shl f => f.h.g
  | .shr f => f.h.g
  | .rot f => f.h.g
  | .min f => f.h.g
  | .max f => f.h.g
  | .clz f => f.h.g
  | .popc f => f.h.g
  | .ext f => f.h.g
  | .ins f => f.h.g
  | .mov f => f.h.g
  | .movi f => f.h.g
  | .moviHi f => f.h.g
  | .sel f => f.h.g
  | .cmp f => f.h.g
  | .plog f => f.h.g
  | .pmov f => f.h.g
  | .lea f => f.h.g
  | .setw f => f.h.g
  | .getw f => f.h.g
  | .ld f => f.h.g
  | .st f => f.h.g
  | .spill f => f.h.g
  | .fill f => f.h.g
  | .atom f => f.h.g
  | .atomn f => f.h.g
  | .cas f => f.h.g
  | .fence f => f.h.g
  | .qfence f => f.h.g
  | .twait f => f.h.g
  | .tffr f => f.h.g
  | .tclr f => f.h.g
  | .bari f => f.h.g
  | .barx f => f.h.g
  | .bwait f => f.h.g
  | .trapf f => f.h.g
  | .trap f => f.h.g
  | .segst f => f.h.g
  | .mfsr f => f.h.g
  | .mtsr f => f.h.g
  | .rdtime f => f.h.g
  | .rdreck f => f.h.g
  | .rand f => f.h.g
  | .pace f => f.h.g
  | .hint f => f.h.g
  | .cbset f => f.h.g
  | .cbadv f => f.h.g
  | .cbqry f => f.h.g
  | .vadd f => f.h.g
  | .vsub f => f.h.g
  | .vmul f => f.h.g
  | .vfma f => f.h.g
  | .vfms f => f.h.g
  | .vmin f => f.h.g
  | .vmax f => f.h.g
  | .vabs f => f.h.g
  | .vneg f => f.h.g
  | .vand f => f.h.g
  | .vor f => f.h.g
  | .vxor f => f.h.g
  | .vshl f => f.h.g
  | .vshr f => f.h.g
  | .vcmp f => f.h.g
  | .vsel f => f.h.g
  | .vcvt f => f.h.g
  | .vmov f => f.h.g
  | .vbcast f => f.h.g
  | .vperm f => f.h.g
  | .vrot f => f.h.g
  | .vshuf f => f.h.g
  | .vpack f => f.h.g
  | .vunpk f => f.h.g
  | .vred f => f.h.g
  | .vscan f => f.h.g
  | .vdot f => f.h.g
  | .vld f => f.h.g
  | .vst f => f.h.g
  | .vldx f => f.h.g
  | .vstx f => f.h.g
  | .vldc f => f.h.g
  | .vstc f => f.h.g
  | .viota f => f.h.g
  | .nrsq f => f.h.g
  | .nrcp f => f.h.g
  | .nexp2 f => f.h.g
  | .nlog2 f => f.h.g
  | .nsig f => f.h.g
  | .ntanh f => f.h.g
  | .nmom f => f.h.g
  | .nnorm f => f.h.g
  | .nsoft f => f.h.g
  | .qamax f => f.h.g
  | .qscale f => f.h.g
  | .qblk f => f.h.g
  | .qdeq f => f.h.g
  | .qsign f => f.h.g
  | .lds f => f.h.g
  | .ldsc f => f.h.g
  | .ldscl f => f.h.g
  | .lflip f => f.h.g
  | .msign f => f.h.g
  | .mstop f => f.h.g
  | .mma f => f.h.g
  | .accClr f => f.h.g
  | .accSwap f => f.h.g
  | .accRd f => f.h.g
  | .accWr f => f.h.g
  | .accCarry f => f.h.g
  | .mwait f => f.h.g
  | .drain f => f.h.g
  | .dscale f => f.h.g
  | .damax f => f.h.g
  | .igen f => f.h.g
  | .imap f => f.h.g
  | .icmp f => f.h.g
  | .gath f => f.h.g
  | .scat f => f.h.g
  | .win f => f.h.g
  | .gseg f => f.h.g
  | .ast f => f.h.g
  | .await f => f.h.g
  | .hld f => f.h.g
  | .hst f => f.h.g
  | .hpre f => f.h.g
  | .hzero f => f.h.g
  | .tcopy f => f.h.g
  | .tcvt f => f.h.g
  | .push f => f.h.g
  | .pushb f => f.h.g
  | .copy f => f.h.g
  | .copyb f => f.h.g
  | .copyd f => f.h.g
  | .pull f => f.h.g
  | .coll f => f.h.g
  | _ => ⟨false, 0, false⟩

/-- Order 4 (illegal-encoding), apart from the guard fields: true when nothing is wrong. CAS has PD = 0 where PE is 0 (DEDUCED, log entry 106). -/
def fieldsOk4 : Instr → Bool
  | .pmov f => if f.dir.toNat < 2 then decide (f.k = 0) else decide (f.f = 0)
  | .accRd f | .accWr f => !f.i.hold
  | .damax f => !f.row.hold && !f.n.hold
  | .add f | .sub f | .mul f | .mulh f | .divi f | .remi f | .and f | .or f | .xor f | .andn f | .min f | .max f => ceOk4 f true false false
  | .shl f | .shr f | .ext f => ceOk4 f true false true
  | .rot f => ceOk4 f false false true
  | .moviHi f => !f.fs
  | .ins f => ceOk4 f false false true && !f.fs
  | .lea f => ceOk4 f true true false
  | .clz f | .popc f => decide (f.es = 0) && !f.fs && immIntOk false f.dst.bits f.a
  | .mov f => decide (f.es = 0) && immIntOk f.fs f.dst.bits f.a
  | .sel f => decide (f.es = 0) && decide (f.c.fmt = 0) && !f.c.rms && immIntOk f.fs f.dst.bits f.a && immIntOk f.fs f.dst.bits f.b
  | .cmp f =>
    fmtOk f.sub.fmt f.fs f.es && subUse f.sub false false true && decide (f.sub.xs = 0) && condOk f.sub &&
    (if f.sub.fmt = 0 then
      decide (f.es = 0) && !(f.a.isImm && f.b.isImm) &&
      (match f.a, f.b with
       | .imm _ _, .file o _ => immIntOk f.fs o.bits f.a | .imm _ _, .scalar o _ => immIntOk f.fs o.bits f.a
       | .file o _, .imm _ _ => immIntOk f.fs o.bits f.b | .scalar o _, .imm _ _ => immIntOk f.fs o.bits f.b
       | _, _ => true)
     else immFloatOk (fmtBits f.sub.fmt) f.a && immFloatOk (fmtBits f.sub.fmt) f.b)
  | .ld f | .st f =>
    decide (f.es = 0) && subUse f.sub false true false && decide (f.sub.fmt = 0) && !f.a.isImm
  | .spill f | .fill f => !f.a.isImm
  | .atom f => !f.a.isImm && atomImmOk f.aop f.fs f.sz f.x
  | .atomn f => !f.a.isImm && atomImmOk f.aop f.fs f.sz f.x
  | .cas f => !f.a.isImm && immIntOk f.fs (if f.sz then 64 else 32) f.x && (f.pe || decide (f.pd = 0))
  | .qfence f => decide (f.m ≠ 0) && !f.m.getLsbD 5
  | .bari f | .barx f => !f.a.isImm
  | .vadd f | .vsub f | .vmul f => veOk4 f (decide (f.sub.fmt ≠ 0)) true false
  | .vfma f | .vfms f => s3cOk4 f
  | .vmin f | .vmax f => veOk4 f false (decide (f.sub.fmt = 0)) false
  | .vabs f | .vneg f => s3aOk4 f false (decide (f.sub.fmt = 0))
  | .vand f | .vor f | .vxor f => veOk4 f false false false
  | .vshl f | .vshr f => veOk4 f false true true
  | .vcmp f =>
    fmtOk f.sub.fmt f.fs f.es && subUse f.sub false false true && condOk f.sub &&
    immOk f.sub.fmt f.fs f.es f.a && immOk f.sub.fmt f.fs f.es f.b
  | .vsel f => decide (f.c.fmt = 0) && !f.c.rms && immOk 0 f.fs f.es f.a && immOk 0 f.fs f.es f.b
  | .vcvt f =>
    fmtOk f.sub.fmt f.fs f.es && decide (f.sf ≠ 7) && (decide (f.sf = 0) || (!f.ss && decide (fmtBits f.sf = esBits f.se))) &&
    subUse f.sub (decide (f.sub.fmt ≠ 0 ∨ f.sf ≠ 0)) true false &&
    (if f.sf = 0 then immIntOk f.ss (esBits f.se) f.a else immFloatOk (esBits f.se) f.a)
  | .vmov f => immIntOk f.fs (esBits f.es) f.a
  | .vbcast f | .vrot f => veOk4 f false false true && !f.b.isFileOrLatch
  | .vperm f => veOk4 f false false true
  | .vshuf f => veOk4 f false false false
  | .vpack f => veOk4 f false true false
  | .vunpk f => s3aOk4 f false false
  | .vred f | .vscan f => veOk4 f false (decide (f.sub.fmt = 0)) true && f.b.isImm
  | .vdot f => s3cOk4 f && (decide (f.c.fmt = 0) || !f.c.rms)
  | .vld f | .vst f | .vldx f | .vstx f => decide (f.es = 0) && !f.fs && decide (f.sub.fmt = 0) && subUse f.sub false false false
  | .vldc f | .vstc f => fmtOk f.sub.fmt f.fs f.es && subUse f.sub false false false
  | .nrsq f | .nrcp f | .nexp2 f | .nlog2 f | .nsig f | .ntanh f | .nmom f | .nsoft f | .qamax f => s3aOk4 f true true
  | .nnorm f => veOk4 f true true true
  | .qscale f => fmtOk f.sub.fmt f.fs f.es && decide (f.sub.cond = 0) && immOk f.sub.fmt f.fs f.es f.a
  | .qblk f =>
    fmtOk f.sub.fmt f.fs f.es && decide (f.sub.cond = 0) && immOk f.sub.fmt f.fs f.es f.a && (decide (f.sub.xs ≠ 0) || f.b.isZeroFile)
  | .qdeq f => fmtOk f.sub.fmt f.fs f.es && decide (f.sub.cond = 0)
  | .qsign f => veOk4 f true true true
  | .msign f => f.en || (match f.b with | .file _ _ => true | _ => false)
  | .gath f | .scat f => !f.a.isImm && tenOk f.ten f.tag
  | .ast f => !f.a.isImm
  | .await f => f.bar || (f.n.isZeroFile && f.a.zero)
  | .hld f | .hst f =>
    !f.a.isImm && tenOk f.ten f.tag && (!f.cbm || f.c.zero)
  | .hpre f => !f.a.isImm
  | .hzero f => !f.a.isImm && tenOk f.ten f.tag
  | .tcopy f => tenOk f.ten f.tag
  | .tcvt f => tenOk f.ten f.tag
  | .pushb f => !f.a.isImm
  | .copy f | .copyd f | .pull f => !f.a.isImm && tenOk f.ten f.tag
  | .copyb f => !f.a.isImm
  | .coll f => !f.a.isImm && tenOk f.ten f.tag
  | _ => true

/-- Order 4 (illegal-encoding) of R100: true when nothing is wrong. -/
def ok4 (i : Instr) : Bool := (guardOf i).ok && fieldsOk4 i

/-- Order 5 (illegal-instruction): true when nothing is wrong. -/
def ok5 : Instr → Bool
  | .cmp f => decide (f.mode ≠ 3) && !(decide (1 ≤ f.sub.fmt.toNat) && decide (f.sub.fmt.toNat ≤ 3))
  | .atom f => aopOk f.aop f.sz
  | .atomn f => aopOk f.aop f.sz
  | .ast f => aopOk f.aop f.sz
  | .fence f => decide (f.k ≠ 0) && decide (f.c.toNat < 5)
  | .cbset f => decide (f.space ≠ 7)
  | .vadd f | .vsub f => fmtVe f.sub.fmt && decide (f.sub.xs = 0) && decide (f.sub.rm ≠ 7)
  | .vmul f => fmtVe f.sub.fmt && decide (f.sub.xs.toNat < if f.sub.fmt = 0 then 2 else 1) && decide (f.sub.rm ≠ 7)
  | .vfma f | .vfms f => fmtVe f.c.fmt
  | .vmin f | .vmax f => fmtVe f.sub.fmt && decide (f.sub.xs.toNat < if f.sub.fmt = 0 then 1 else 2)
  | .vabs f | .vneg f => decide (f.sub.xs = 0)
  | .vand f | .vor f | .vxor f | .vshl f | .vshr f | .vpack f => decide (f.sub.fmt = 0) && decide (f.sub.xs = 0)
  | .vcmp f => decide (f.mode ≠ 3) && fmtVe f.sub.fmt && decide (f.sub.xs = 0)
  | .vcvt f => decide (f.sub.xs = 0) && decide (f.sub.rm ≠ 7)
  | .vbcast f | .vperm f | .vshuf f => decide (f.sub.fmt = 0) && decide (f.sub.xs.toNat < 2)
  | .vrot f => decide (f.sub.fmt = 0) && decide (f.sub.xs ≠ 3)
  | .vunpk f => decide (f.sub.fmt = 0) && decide (f.sub.xs.toNat < 2)
  | .vred f => fmtVe f.sub.fmt && decide (f.sub.xs = 0) && redWordOk false f.sub.fmt f.b
  | .vscan f => fmtVe f.sub.fmt && decide (f.sub.xs = 0) && redWordOk true f.sub.fmt f.b
  | .vdot f => decide (f.c.fmt.toNat < 6)
  | .vld f | .vst f => decide (f.sub.xs = 0)
  | .vldc f | .vstc f => decide (f.sub.xs.toNat < 2)
  | .nrsq f | .nrcp f | .nexp2 f | .nlog2 f | .nsig f | .ntanh f =>
    decide (4 ≤ f.sub.fmt.toNat) && decide (f.sub.xs = 0) && decide (f.sub.rm ≠ 7)
  | .nmom f => decide (4 ≤ f.sub.fmt.toNat) && decide (f.sub.xs ≠ 3) && decide (f.sub.rm = 0) && !f.sub.sat
  | .nnorm f => decide (4 ≤ f.sub.fmt.toNat) && decide (f.sub.xs = 0) && decide (f.sub.rm ≠ 7)
  | .nsoft f => decide (4 ≤ f.sub.fmt.toNat) && decide (f.sub.xs = 0) && decide (f.sub.rm = 0) && !f.sub.sat
  | .qamax f => decide (f.sub.fmt ≠ 0) && decide (f.sub.xs.toNat < 2) && decide (f.sub.rm = 0) && !f.sub.sat
  | .qscale f => decide (f.sub.fmt ≠ 0) && decide (f.sub.xs = 0) && decide (f.sub.rm = 0) && !f.sub.sat && decide (0xB ≤ f.bf.toNat)
  | .qblk f => decide (f.sub.fmt ≠ 0) && decide (f.sub.rm ≠ 7) && !f.sub.sat && !f.h.g.gd && decide (f.sub.xs ≠ 3)
  | .qdeq f => decide (4 ≤ f.sub.fmt.toNat) && decide (f.sub.xs = 0) && decide (f.sub.rm ≠ 7)
  | .qsign f => decide (f.sub.fmt ≠ 0) && decide (f.sub.xs = 0) && decide (f.sub.rm = 0) && !f.sub.sat
  | .drain f => decide (f.rm ≠ 7)
  | .dscale f => f.setm || f.sett
  | .gseg f => decide (f.op ≠ 3)
  | .tcvt f => decide (f.rm ≠ 7)
  | .coll f => decide (f.op.toNat < 7)
  | _ => true

/-- The fault of the first failing check, if any. -/
def staticFault (i : Instr) : Option Cause :=
  if !ok4 i then some .illegalEncoding else if !ok5 i then some .illegalInstruction else none

end Sys2Proof.Machine
end

