-- ==== Sys2Proof/WellFormed.lean ====
section
/-! DEFINITION. A well-formed instruction: one that the checks of R100, orders 4 and 5, let pass. Events, commands and messages have no
encoding and are well-formed. -/

namespace Sys2Proof

/-- Nothing in the instruction's own fields, its guard fields among them, is illegal. -/
def WellFormed (i : Instr) : Prop := Machine.staticFault i = none

end Sys2Proof
end

