-- ==== Sys2Proof/Decode.lean ====
section
/-! DEFINITION. Decoding of instruction words (R82 to R100, orders 1 to 4 as far as the words alone decide them), total on any words,
and the encoder of the same tables. -/

namespace Sys2Proof

/-- An engine class (R97). -/
inductive Cls where
  | ce | pe | all | le | se | xe | de | ve | ne | qe | ie | ge | ae | he | te
deriving DecidableEq, Repr

/-- The class of the engine at a tag, if the core type has that engine (R16). -/
def clsOf (ct : Machine.CoreType) (tag : Nat) : Option Cls :=
  match tag, ct with
  | 0, _ => some .ce
  | 6, _ => some .pe
  | 1, .m => some .le
  | 2, .m => some .se
  | 3, .m => some .xe
  | 4, .m => some .de
  | 1, .v => some .ve
  | 2, .v => some .ne
  | 3, .v => some .qe
  | 1, .g => some .ie
  | 2, .g => some .ge
  | 3, .g => some .ae
  | 1, .b => some .he
  | 2, .b => some .te
  | _, _ => none

/-! ### Fields -/

/-- `n` bits of a word from bit `lo` up. -/
def fld (w : W32) (lo n : Nat) : BitVec n := w.extractLsb' lo n

/-- A slice operand field (R62). -/
def slotOf (v : BitVec 14) : Slot := { win := v.extractLsb' 12 2, off := v.extractLsb' 4 8, wm1 := v.extractLsb' 0 4 }

/-- The slice operand in [27:14] of a tail word. -/
def slotHi (w : W32) : Slot := slotOf (fld w 14 14)

/-- The slice operand in [13:0] of a tail word. -/
def slotLo (w : W32) : Slot := slotOf (fld w 0 14)

/-- A source of a kind (R92); none where a LATCH field is not 0. -/
def srcOf (k : BitVec 2) (v : BitVec 14) (h : Bool) : Option Src :=
  if k = 0 then some (.file (slotOf v) h)
  else if k = 1 then (if v = 0 then some (.latch h) else none)
  else if k = 2 then some (.scalar (slotOf v) h)
  else some (.imm v h)

def guardBits (w : W32) : Guard := { gd := w.getLsbD 22, p := fld w 18 4, s := w.getLsbD 17 }

def headOf (w : W32) : Head := { dep := fld w 28 4, g := guardBits w }

/-- The DEP field of a word. -/
def depOf (w : W32) : BitVec 4 := fld w 28 4

/-- Source A, its field in word 1 [13:0] (R91). -/
def srcA (w0 w1 : W32) : Option Src := srcOf (fld w0 7 2) (fld w1 0 14) (w0.getLsbD 4)

/-- Source B, its field in word 2 [27:14]. -/
def srcB (w0 w2 : W32) : Option Src := srcOf (fld w0 5 2) (fld w2 14 14) (w0.getLsbD 3)

/-- The standard subcode (R94). -/
def subOf (w : W32) : Sub :=
  { rm := fld w 11 3, sat := w.getLsbD 10, cond := fld w 5 5, fmt := fld w 2 3, xs := fld w 0 2 }

/-- The source C field (R95). -/
def srcCOf (w : W32) : SrcC := { win := fld w 12 2, off := fld w 4 8, fmt := fld w 1 3, rms := w.getLsbD 0 }

/-! ### Shapes. Each reads the head word and the tail words; none is an illegal encoding (R100, order 4). -/

abbrev Build := W32 → W32 → W32 → Option Instr

def dS3 (mk : S3 → Instr) : Build := fun w0 w1 w2 => do
  let a ← srcA w0 w1
  let b ← srcB w0 w2
  some (mk { h := headOf w0, dep := depOf w2, es := fld w0 1 2, fs := w0.getLsbD 0, dst := slotHi w1, a := a, b := b, sub := subOf w2 })

def dS3a (mk : S3a → Instr) : Build := fun w0 w1 w2 => do
  let a ← srcA w0 w1
  some (mk { h := headOf w0, dep := depOf w2, es := fld w0 1 2, fs := w0.getLsbD 0, dst := slotHi w1, a := a, sub := subOf w2 })

def dS3c (mk : S3c → Instr) : Build := fun w0 w1 w2 => do
  let a ← srcA w0 w1
  let b ← srcB w0 w2
  some (mk { h := headOf w0, dep := depOf w2, es := fld w0 1 2, fs := w0.getLsbD 0, dst := slotHi w1, a := a, b := b, c := srcCOf w2 })

def dS3cmp (mk : S3cmp → Instr) : Build := fun w0 w1 w2 => do
  let a ← srcA w0 w1
  let b ← srcB w0 w2
  some (mk { h := headOf w0, dep := depOf w2, es := fld w0 1 2, fs := w0.getLsbD 0, pd := fld w1 14 4, mode := fld w1 18 2,
             a := a, b := b, sub := subOf w2 })

def dS2r (mk : S2r → Instr) : Build := fun w0 w1 _ => do
  let a ← srcA w0 w1
  some (mk { h := headOf w0, dep := depOf w1, es := fld w0 1 2, fs := w0.getLsbD 0, dst := slotHi w1, a := a })

def dNop : Build := fun w0 _ _ => some (.nop (fld w0 0 9))

def dPbr : Build := fun w0 w1 _ => some (.pbr { k := fld w0 0 3, rel := w0.getLsbD 3, target := fld w1 0 28 })

def dBr : Build := fun w0 _ _ => some (.br { g := guardBits w0, k := fld w0 0 3 })

def dBrl : Build := fun w0 _ _ => some (.brl { g := guardBits w0, l := fld w0 3 3, k := fld w0 0 3 })

def dLoop : Build := fun w0 w1 _ =>
  some (.loop { n := fld w0 0 2, csrc := w0.getLsbD 8, count := fld w1 14 14, last := fld w1 0 14 })

def dLbrk : Build := fun w0 _ _ => some (.lbrk { g := guardBits w0, n := fld w0 0 2 })

def dSegOpen : Build := fun _ w1 _ => some (.segOpen (fld w1 0 28))

def dSegClose : Build := fun _ _ _ => some .segClose

def dGbar : Build := fun w0 _ _ => some (.gbar (fld w0 0 4))

def dHalt : Build := fun _ _ _ => some .halt

def dCkdiv : Build := fun _ w1 _ => some (.ckdiv (fld w1 0 28))

def dSlipw : Build := fun _ _ _ => some .slipw

def dBrk : Build := fun w0 _ _ => some (.brk (fld w0 0 8))

def dF1 (mk : F1 → Instr) : Build := fun w0 _ _ => some (mk { h := headOf w0 })

/-- MOVI and MOVI.hi (R134): KA is IMM, and MOD[2:1] selects the position. -/
def dMovi : Build := fun w0 w1 w2 =>
  let f : MoviF := { h := headOf w0, dep := depOf w2, fs := w0.getLsbD 0, dst := slotHi w1, imm := fld w1 0 14 ++ fld w2 0 28 }
  if fld w0 7 2 = 3 then
    (if fld w0 1 2 = 0 then some (.movi f) else if fld w0 1 2 = 1 then some (.moviHi f) else none)
  else none

def dPlog (mk : PlogF → Instr) : Build := fun w0 w1 _ =>
  some (mk { h := headOf w0, dep := depOf w1, pd := fld w0 0 4, pa := fld w1 24 4, pb := fld w1 20 4, lut := fld w1 16 4 })

def dPmov (mk : PmovF → Instr) : Build := fun w0 w1 _ =>
  some (mk { h := headOf w0, dep := depOf w1, dir := fld w0 0 2, k := fld w0 2 4, s := slotHi w1, f := fld w1 10 4 })

def dSetw (mk : SetwF → Instr) : Build := fun w0 w1 _ =>
  let f (a : SetwArg) : SetwF :=
    { h := headOf w0, dep := depOf w1, t := fld w0 0 3, w := fld w0 3 2, add := w0.getLsbD 6, arg := a }
  if w0.getLsbD 5 then (if fld w1 14 1 = 0 then some (mk (f (.slot (slotLo w1)))) else none)
  else some (mk (f (.imm (fld w1 0 15))))

def dGetw (mk : GetwF → Instr) : Build := fun w0 w1 _ =>
  some (mk { h := headOf w0, dep := depOf w1, t := fld w0 0 3, w := fld w0 3 2, dst := slotHi w1 })

def dSpill (mk : SpillF → Instr) : Build := fun w0 w1 w2 => do
  let a ← srcA w0 w1
  let b ← srcB w0 w2
  some (mk { h := headOf w0, dep := depOf w2, win := fld w1 26 2, off := fld w1 18 8, a := a, b := b, cnt := fld w2 0 12 })

def dAtom (mk : AtomF → Instr) : Build := fun w0 w1 w2 => do
  let a ← srcA w0 w1
  let b ← srcB w0 w2
  some (mk { h := headOf w0, dep := depOf w2, fs := w0.getLsbD 0, dst := slotHi w1, a := a, x := b, aop := fld w2 10 4, sz := w2.getLsbD 9 })

def dAtomn (mk : AtomnF → Instr) : Build := fun w0 w1 w2 => do
  let a ← srcA w0 w1
  let b ← srcB w0 w2
  some (mk { h := headOf w0, dep := depOf w2, fs := w0.getLsbD 0, a := a, x := b, aop := fld w2 10 4, sz := w2.getLsbD 9 })

def dCas (mk : CasF → Instr) : Build := fun w0 w1 w2 => do
  let a ← srcA w0 w1
  let b ← srcB w0 w2
  some (mk { h := headOf w0, dep := depOf w2, fs := w0.getLsbD 0, dst := slotHi w1, a := a, x := b, pd := fld w2 10 4, sz := w2.getLsbD 9,
             pe := w2.getLsbD 8 })

def dFence (mk : FenceF → Instr) : Build := fun w0 _ _ => some (mk { h := headOf w0, k := fld w0 3 2, c := fld w0 0 3 })

def dQfence (mk : QfenceF → Instr) : Build := fun w0 _ _ => some (mk { h := headOf w0, m := fld w0 0 7 })

/-- A tag mask (R155): with `one` it is a tag number in [5:0]. -/
def maskArg (one : Bool) (w : W32) : Option MaskArg :=
  if one then (if fld w 6 8 = 0 then some (.one (fld w 0 6)) else none) else some (.slot (slotLo w))

def dTwait (mk : TwaitF → Instr) : Build := fun w0 w1 _ => do
  let m ← maskArg (w0.getLsbD 2) w1
  some (mk { h := headOf w0, dep := depOf w1, all := w0.getLsbD 0, clr := w0.getLsbD 1, m := m })

def dTffr (mk : TffrF → Instr) : Build := fun w0 w1 _ =>
  some (mk { h := headOf w0, dep := depOf w1, wait := w0.getLsbD 0, clr := w0.getLsbD 1, dst := slotHi w1, k := slotLo w1 })

def dTclr (mk : TclrF → Instr) : Build := fun w0 w1 _ => do
  let m ← maskArg (w0.getLsbD 2) w1
  some (mk { h := headOf w0, dep := depOf w1, m := m })

def dBar (mk : BarF → Instr) : Build := fun w0 w1 w2 => do
  let a ← srcA w0 w1
  let b ← srcB w0 w2
  some (mk { h := headOf w0, dep := depOf w2, a := a, e := b })

def dBwait (mk : BwaitF → Instr) : Build := fun w0 w1 _ =>
  let f (p : Option Slot) : BwaitF := { h := headOf w0, dep := depOf w1, p := w0.getLsbD 0, psrc := p, a := slotLo w1 }
  if w0.getLsbD 1 then some (mk (f (some (slotHi w1)))) else if fld w1 14 14 = 0 then some (mk (f none)) else none

def dTrap (mk : TrapF → Instr) : Build := fun w0 _ _ => some (mk { h := headOf w0, c := fld w0 0 8 })

def dSegst (mk : SegstF → Instr) : Build := fun w0 w1 _ =>
  some (mk { h := headOf w0, dep := depOf w1, sel := fld w0 0 3, dst := slotHi w1 })

def dMfsr (mk : MfsrF → Instr) : Build := fun w0 w1 _ =>
  some (mk { h := headOf w0, dep := depOf w1, dst := slotHi w1, num := fld w1 0 10 })

def dMtsr (mk : MtsrF → Instr) : Build := fun w0 w1 _ => do
  let a ← srcOf (fld w0 7 2) (fld w1 14 14) (w0.getLsbD 4)
  some (mk { h := headOf w0, dep := depOf w1, src := a, num := fld w1 0 10 })

def dRd (mk : RdF → Instr) : Build := fun w0 w1 _ => some (mk { h := headOf w0, dep := depOf w1, dst := slotHi w1 })

def dRand (mk : RandF → Instr) : Build := fun w0 w1 w2 => do
  let a ← srcA w0 w1
  let b ← srcB w0 w2
  some (mk { h := headOf w0, dep := depOf w2, dst := slotHi w1, c := a, q := b })

def dPace (mk : PaceF → Instr) : Build := fun w0 w1 _ =>
  let f (a : PaceArg) : PaceF := { h := headOf w0, dep := depOf w1, t := fld w0 0 3, arg := a }
  if w0.getLsbD 3 then some (mk (f (.slot (slotLo w1)))) else if fld w1 8 6 = 0 then some (mk (f (.imm (fld w1 0 8)))) else none

def dHint (mk : HintF → Instr) : Build := fun w0 _ _ => some (mk { h := headOf w0, hint := fld w0 0 2 })

def dCbset (mk : CbsetF → Instr) : Build := fun w0 w1 w2 =>
  some (mk { h := headOf w0, dep := depOf w2, space := fld w1 25 3, fmt := fld w1 20 5, base := fld w1 0 19, cb := fld w2 24 4,
             ents := fld w2 12 12, size := fld w2 0 12 })

def dCbadv (mk : CbadvF → Instr) : Build := fun w0 w1 _ =>
  let f (a : CntArg) : CbadvF := { h := headOf w0, dep := depOf w1, cb := fld w0 0 4, cons := w0.getLsbD 4, cnt := a }
  if w0.getLsbD 5 then (if fld w1 12 2 = 0 then some (mk (f (.imm (fld w1 0 12)))) else none) else some (mk (f (.slot (slotLo w1))))

def dCbqry (mk : CbqryF → Instr) : Build := fun w0 w1 _ =>
  some (mk { h := headOf w0, dep := depOf w1, cb := fld w0 0 4, sel := fld w0 4 3, dst := slotHi w1 })

def dVcvt (mk : VcvtF → Instr) : Build := fun w0 w1 w2 => do
  let a ← srcA w0 w1
  some (mk { h := headOf w0, dep := depOf w2, es := fld w0 1 2, fs := w0.getLsbD 0, dst := slotHi w1, a := a, sf := fld w2 25 3,
             ss := w2.getLsbD 24, se := fld w2 22 2, sub := subOf w2 })

def dVcb (mk : VcbF → Instr) : Build := fun w0 w1 w2 => do
  let b ← srcB w0 w2
  some (mk { h := headOf w0, dep := depOf w2, es := fld w0 1 2, fs := w0.getLsbD 0, dst := slotHi w1, cb := fld w1 10 4, off := fld w1 0 10,
             b := b, sub := subOf w2 })

def dQscale (mk : QscaleF → Instr) : Build := fun w0 w1 w2 => do
  let a ← srcA w0 w1
  some (mk { h := headOf w0, dep := depOf w2, es := fld w0 1 2, fs := w0.getLsbD 0, dst := slotHi w1, a := a, bf := fld w2 24 4,
             sub := subOf w2 })

def dQblk (mk : QblkF → Instr) : Build := fun w0 w1 w2 => do
  let a ← srcA w0 w1
  let b ← srcB w0 w2
  some (mk { h := headOf w0, dep := depOf w2, es := fld w0 1 2, fs := w0.getLsbD 0, cb := fld w1 24 4, blk := fld w1 14 10, a := a, b := b,
             sub := subOf w2 })

def dQdeq (mk : QdeqF → Instr) : Build := fun w0 w1 w2 =>
  some (mk { h := headOf w0, dep := depOf w2, es := fld w0 1 2, fs := w0.getLsbD 0, dst := slotHi w1, cb := fld w1 10 4, blk := fld w1 0 10,
             sub := subOf w2 })

def dLds (mk : LdsF → Instr) : Build := fun w0 w1 w2 => do
  let a ← srcA w0 w1
  some (mk { h := headOf w0, dep := depOf w2, fmt := fld w1 23 5, a := a })

def dLdsc (mk : LdscF → Instr) : Build := fun w0 w1 w2 =>
  some (mk { h := headOf w0, dep := depOf w2, cb := fld w1 24 4, adv := w1.getLsbD 23 })

def dMsign (mk : MsignF → Instr) : Build := fun w0 w1 w2 => do
  let b ← srcA w0 w1
  some (mk { h := headOf w0, dep := depOf w2, en := w0.getLsbD 0, b := b })

def dMma (mk : MmaF → Instr) : Build := fun w0 w1 _ => do
  let a ← srcA w0 w1
  some (mk { h := headOf w0, dep := depOf w1, ua := w0.getLsbD 2, uw := w0.getLsbD 1, aoff := a })

def dAccClr (mk : AccClrF → Instr) : Build := fun w0 _ _ => some (mk { h := headOf w0, vis := w0.getLsbD 0 })

def dAcc (mk : AccF → Instr) : Build := fun w0 w1 w2 => do
  let i ← srcA w0 w1
  some (mk { h := headOf w0, dep := depOf w2, d := slotHi w1, i := i, vis := w2.getLsbD 0 })

def dDrain (mk : DrainF → Instr) : Build := fun w0 w1 w2 => do
  let a ← srcA w0 w1
  let b ← srcB w0 w2
  some (mk { h := headOf w0, dep := depOf w2, fs := w0.getLsbD 0, cb := fld w1 24 4, row := a, n := b, rm := fld w2 11 3,
             sat := w2.getLsbD 10, half := w2.getLsbD 0, adv := w2.getLsbD 1 })

/-- DSCALE and DAMAX encode ES 0b11, FS 1 and FMT 6 (R234). -/
def fp32Fixed (w0 w2 : W32) : Bool := decide (fld w0 0 3 = 7) && decide (fld w2 2 3 = 6)

def dDscale (mk : DscaleF → Instr) : Build := fun w0 w1 w2 => do
  let a ← srcA w0 w1
  let b ← srcB w0 w2
  if fp32Fixed w0 w2 then some (mk { h := headOf w0, dep := depOf w2, a := a, b := b, setm := w2.getLsbD 0, sett := w2.getLsbD 1 })
  else none

def dDamax (mk : DamaxF → Instr) : Build := fun w0 w1 w2 => do
  let a ← srcA w0 w1
  let b ← srcB w0 w2
  if fp32Fixed w0 w2 then some (mk { h := headOf w0, dep := depOf w2, dst := slotHi w1, row := a, n := b, half := w2.getLsbD 0 })
  else none

def dIgen (mk : IgenF → Instr) : Build := fun w0 w1 w2 => do
  let a ← srcA w0 w1
  let b ← srcB w0 w2
  some (mk { h := headOf w0, dep := depOf w2, dcb := fld w1 24 4, adv := w1.getLsbD 23, a := a, b := b })

def dImap (mk : ImapF → Instr) : Build := fun w0 w1 w2 => do
  let a ← srcA w0 w1
  let b ← srcB w0 w2
  some (mk { h := headOf w0, dep := depOf w2, dcb := fld w1 24 4, scb := fld w1 20 4, advs := w1.getLsbD 19, advd := w1.getLsbD 18,
             a := a, b := b })

def dIcmp (mk : IcmpF → Instr) : Build := fun w0 w1 w2 => do
  let a ← srcA w0 w1
  let b ← srcB w0 w2
  some (mk { h := headOf w0, dep := depOf w2, inv := w0.getLsbD 0, dcb := fld w1 24 4, scb := fld w1 20 4, advs := w1.getLsbD 19,
             advd := w1.getLsbD 18, a := a, b := b })

def dGath (mk : GathF → Instr) : Build := fun w0 w1 w2 => do
  let a ← srcA w0 w1
  let b ← srcB w0 w2
  some (mk { h := headOf w0, dep := depOf w2, ten := w0.getLsbD 0, tag := fld w2 8 6, cb := fld w1 24 4, icb := fld w1 20 4,
             advi := w1.getLsbD 19, advx := w1.getLsbD 18, a := a, rb := b })

def dWin (mk : WinF → Instr) : Build := fun w0 w1 w2 => do
  let a ← srcA w0 w1
  some (mk { h := headOf w0, dep := depOf w2, dcb := fld w1 24 4, scb := fld w1 20 4, advs := w1.getLsbD 19, advd := w1.getLsbD 18, a := a })

def dGseg (mk : GsegF → Instr) : Build := fun w0 w1 w2 => do
  let a ← srcA w0 w1
  let b ← srcB w0 w2
  some (mk { h := headOf w0, dep := depOf w2, op := fld w0 1 2, dcb := fld w1 24 4, scb := fld w1 20 4, advs := w1.getLsbD 19,
             advd := w1.getLsbD 18, a := a, rb := b, icb := fld w2 10 4, advi := w2.getLsbD 9 })

def dAst (mk : AstF → Instr) : Build := fun w0 w1 w2 => do
  let a ← srcA w0 w1
  some (mk { h := headOf w0, dep := depOf w2, vcb := fld w1 24 4, icb := fld w1 20 4, advv := w1.getLsbD 19, advi := w1.getLsbD 18, a := a,
             aop := fld w2 10 4, sz := w2.getLsbD 9 })

def dAwait (mk : AwaitF → Instr) : Build := fun w0 w1 _ => do
  let n ← srcOf (fld w0 5 2) (fld w1 14 14) (w0.getLsbD 3)
  some (mk { h := headOf w0, dep := depOf w1, bar := w0.getLsbD 0, n := n, a := slotLo w1 })

def dHld (mk : HldF → Instr) : Build := fun w0 w1 w2 => do
  let a ← srcA w0 w1
  let b ← srcB w0 w2
  some (mk { h := headOf w0, dep := depOf w2, ten := w0.getLsbD 0, tag := fld w1 16 6, cb := fld w1 24 4, adv := w1.getLsbD 23,
             cbm := w1.getLsbD 22, a := a, b := b, c := slotLo w2 })

def dHpre (mk : HpreF → Instr) : Build := fun w0 w1 w2 => do
  let a ← srcA w0 w1
  let b ← srcB w0 w2
  some (mk { h := headOf w0, dep := depOf w2, a := a, n := b })

def dHzero (mk : HzeroF → Instr) : Build := fun w0 w1 w2 => do
  let a ← srcA w0 w1
  let b ← srcB w0 w2
  some (mk { h := headOf w0, dep := depOf w2, ten := w0.getLsbD 0, tag := fld w2 8 6, a := a, n := b })

def dTcopy (mk : TcopyF → Instr) : Build := fun w0 w1 w2 => do
  let a ← srcA w0 w1
  let b ← srcB w0 w2
  some (mk { h := headOf w0, dep := depOf w2, es := fld w0 1 2, ten := w0.getLsbD 0, tag := fld w1 22 6, tr := w1.getLsbD 21, a := a, b := b,
             c := slotLo w2 })

def dTcvt (mk : TcvtF → Instr) : Build := fun w0 w1 w2 =>
  some (mk { h := headOf w0, dep := depOf w2, rm := fld w0 1 3, ten := w0.getLsbD 0, tag := fld w1 12 6, scb := fld w1 24 4, dcb := fld w1 20 4,
             advs := w1.getLsbD 19, advd := w1.getLsbD 18 })

def dPush (mk : PushF → Instr) : Build := fun w0 w1 w2 => do
  let b ← srcB w0 w2
  some (mk { h := headOf w0, dep := depOf w2, timed := w0.getLsbD 2, dcore := fld w1 20 8, dcb := fld w1 16 4, scb := fld w1 12 4,
             advs := w1.getLsbD 11, due := b })

def dPushb (mk : PushbF → Instr) : Build := fun w0 w1 w2 => do
  let a ← srcA w0 w1
  let b ← srcB w0 w2
  some (mk { h := headOf w0, dep := depOf w2, timed := w0.getLsbD 2, dst := slotHi w1, a := a, due := b, c := slotLo w2 })

def dCopy (mk : CopyF → Instr) : Build := fun w0 w1 w2 => do
  let a ← srcA w0 w1
  let b ← srcB w0 w2
  some (mk { h := headOf w0, dep := depOf w2, ten := w0.getLsbD 0, tag := fld w2 8 6, dst := slotHi w1, a := a, n := b })

def dCopyb (mk : CopybF → Instr) : Build := fun w0 w1 w2 => do
  let a ← srcA w0 w1
  let b ← srcB w0 w2
  some (mk { h := headOf w0, dep := depOf w2, dst := slotHi w1, a := a, n := b, bar := slotLo w2 })

def dColl (mk : CollF → Instr) : Build := fun w0 w1 w2 => do
  let a ← srcA w0 w1
  some (mk { h := headOf w0, dep := depOf w2, ten := w0.getLsbD 0, op := fld w1 24 4, tag := fld w1 18 6, a := a })

/-! ### The opcode map (R98) with the bits that each encoding leaves free (every other bit of MOD and of the payloads is 0) -/

/-- An opcode: length in words, the usable bits of MOD and of the payloads of words 1 and 2, and its shape. -/
structure Row where
  len : Nat
  modMask : Nat
  mask1 : Nat
  mask2 : Nat
  build : Build

/-- Opcodes of the class ALL (R98). -/
def rowAll : Nat → Option Row
  | 0 => some ⟨1, 0x1FF, 0, 0, dNop⟩
  | 1 => some ⟨2, 0x00F, 0xFFFFFFF, 0, dPbr⟩
  | 2 => some ⟨1, 0x007, 0, 0, dBr⟩
  | 3 => some ⟨1, 0x03F, 0, 0, dBrl⟩
  | 4 => some ⟨2, 0x103, 0xFFFFFFF, 0, dLoop⟩
  | 5 => some ⟨1, 0x003, 0, 0, dLbrk⟩
  | 6 => some ⟨2, 0, 0xFFFFFFF, 0, dSegOpen⟩
  | 7 => some ⟨1, 0, 0, 0, dSegClose⟩
  | 8 => some ⟨1, 0x00F, 0, 0, dGbar⟩
  | 9 => some ⟨1, 0, 0, 0, dHalt⟩
  | 10 => some ⟨2, 0, 0xFFFFFFF, 0, dCkdiv⟩
  | 11 => some ⟨1, 0, 0, 0, dSlipw⟩
  | 12 => some ⟨1, 0x0FF, 0, 0, dBrk⟩
  | _ => none

/-- Opcodes of the class CE (R98). -/
def rowCe : Nat → Option Row
  | 0 => some ⟨3, 0x1FF, 0xFFFFFFF, 0xFFFFFFF, dS3 .add⟩
  | 1 => some ⟨3, 0x1FF, 0xFFFFFFF, 0xFFFFFFF, dS3 .sub⟩
  | 2 => some ⟨3, 0x1FF, 0xFFFFFFF, 0xFFFFFFF, dS3 .mul⟩
  | 3 => some ⟨3, 0x1FF, 0xFFFFFFF, 0xFFFFFFF, dS3 .mulh⟩
  | 4 => some ⟨3, 0x1FF, 0xFFFFFFF, 0xFFFFFFF, dS3 .divi⟩
  | 5 => some ⟨3, 0x1FF, 0xFFFFFFF, 0xFFFFFFF, dS3 .remi⟩
  | 6 => some ⟨3, 0x1FF, 0xFFFFFFF, 0xFFFFFFF, dS3 .and⟩
  | 7 => some ⟨3, 0x1FF, 0xFFFFFFF, 0xFFFFFFF, dS3 .or⟩
  | 8 => some ⟨3, 0x1FF, 0xFFFFFFF, 0xFFFFFFF, dS3 .xor⟩
  | 9 => some ⟨3, 0x1FF, 0xFFFFFFF, 0xFFFFFFF, dS3 .andn⟩
  | 10 => some ⟨3, 0x1FF, 0xFFFFFFF, 0xFFFFFFF, dS3 .shl⟩
  | 11 => some ⟨3, 0x1FF, 0xFFFFFFF, 0xFFFFFFF, dS3 .shr⟩
  | 12 => some ⟨3, 0x1FF, 0xFFFFFFF, 0xFFFFFFF, dS3 .rot⟩
  | 13 => some ⟨3, 0x1FF, 0xFFFFFFF, 0xFFFFFFF, dS3 .min⟩
  | 14 => some ⟨3, 0x1FF, 0xFFFFFFF, 0xFFFFFFF, dS3 .max⟩
  | 15 => some ⟨2, 0x197, 0xFFFFFFF, 0, dS2r .clz⟩
  | 16 => some ⟨2, 0x197, 0xFFFFFFF, 0, dS2r .popc⟩
  | 17 => some ⟨3, 0x1FF, 0xFFFFFFF, 0xFFFFFFF, dS3 .ext⟩
  | 18 => some ⟨3, 0x1FF, 0xFFFFFFF, 0xFFFFFFF, dS3 .ins⟩
  | 19 => some ⟨2, 0x197, 0xFFFFFFF, 0, dS2r .mov⟩
  | 20 => some ⟨3, 0x187, 0xFFFFFFF, 0xFFFFFFF, dMovi⟩
  | 21 => some ⟨3, 0x1FF, 0xFFFFFFF, 0xFFFFFFF, dS3c .sel⟩
  | 22 => some ⟨3, 0x1FF, 0x00FFFFF, 0xFFFFFFF, dS3cmp .cmp⟩
  | 23 => some ⟨2, 0x00F, 0xFFF0000, 0, dPlog .plog⟩
  | 24 => some ⟨2, 0x03F, 0xFFFFC00, 0, dPmov .pmov⟩
  | 25 => some ⟨3, 0x1FF, 0xFFFFFFF, 0xFFFFFFF, dS3 .lea⟩
  | 26 => some ⟨2, 0x07F, 0x0007FFF, 0, dSetw .setw⟩
  | 27 => some ⟨2, 0x01F, 0xFFFC000, 0, dGetw .getw⟩
  | 32 => some ⟨3, 0x1FF, 0xFFFFFFF, 0xFFFFFFF, dS3 .ld⟩
  | 33 => some ⟨3, 0x1FF, 0xFFFFFFF, 0xFFFFFFF, dS3 .st⟩
  | 34 => some ⟨3, 0x1F8, 0xFFC3FFF, 0xFFFCFFF, dSpill .spill⟩
  | 35 => some ⟨3, 0x1F8, 0xFFC3FFF, 0xFFFCFFF, dSpill .fill⟩
  | 36 => some ⟨3, 0x1F9, 0xFFFFFFF, 0xFFFFE00, dAtom .atom⟩
  | 37 => some ⟨3, 0x1F9, 0x3FFF, 0xFFFFE00, dAtomn .atomn⟩
  | 38 => some ⟨3, 0x1F9, 0xFFFFFFF, 0xFFFFF00, dCas .cas⟩
  | 39 => some ⟨1, 0x01F, 0, 0, dFence .fence⟩
  | 40 => some ⟨1, 0x07F, 0, 0, dQfence .qfence⟩
  | 41 => some ⟨2, 0x007, 0x3FFF, 0, dTwait .twait⟩
  | 42 => some ⟨2, 0x003, 0xFFFFFFF, 0, dTffr .tffr⟩
  | 43 => some ⟨2, 0x004, 0x3FFF, 0, dTclr .tclr⟩
  | 44 => some ⟨3, 0x1F8, 0x3FFF, 0xFFFC000, dBar .bari⟩
  | 45 => some ⟨3, 0x1F8, 0x3FFF, 0xFFFC000, dBar .barx⟩
  | 46 => some ⟨2, 0x003, 0xFFFFFFF, 0, dBwait .bwait⟩
  | 47 => some ⟨1, 0, 0, 0, dF1 .trapf⟩
  | 48 => some ⟨2, 0x007, 0xFFFC000, 0, dSegst .segst⟩
  | 49 => some ⟨2, 0, 0xFFFC3FF, 0, dMfsr .mfsr⟩
  | 50 => some ⟨2, 0x190, 0xFFFC3FF, 0, dMtsr .mtsr⟩
  | 51 => some ⟨2, 0, 0xFFFC000, 0, dRd .rdtime⟩
  | 52 => some ⟨2, 0, 0xFFFC000, 0, dRd .rdreck⟩
  | 53 => some ⟨3, 0x1F8, 0xFFFFFFF, 0xFFFC000, dRand .rand⟩
  | 54 => some ⟨2, 0x00F, 0x3FFF, 0, dPace .pace⟩
  | 55 => some ⟨1, 0x003, 0, 0, dHint .hint⟩
  | 56 => some ⟨1, 0x0FF, 0, 0, dTrap .trap⟩
  | 57 => some ⟨3, 0, 0xFF7FFFF, 0xFFFFFFF, dCbset .cbset⟩
  | 58 => some ⟨2, 0x03F, 0x3FFF, 0, dCbadv .cbadv⟩
  | 59 => some ⟨2, 0x07F, 0xFFFC000, 0, dCbqry .cbqry⟩
  | _ => none

/-- Opcodes of the class VE (R98). -/
def rowVe : Nat → Option Row
  | 0 => some ⟨3, 0x1FF, 0xFFFFFFF, 0xFFFFFFF, dS3 .vadd⟩
  | 1 => some ⟨3, 0x1FF, 0xFFFFFFF, 0xFFFFFFF, dS3 .vsub⟩
  | 2 => some ⟨3, 0x1FF, 0xFFFFFFF, 0xFFFFFFF, dS3 .vmul⟩
  | 3 => some ⟨3, 0x1FF, 0xFFFFFFF, 0xFFFFFFF, dS3c .vfma⟩
  | 4 => some ⟨3, 0x1FF, 0xFFFFFFF, 0xFFFFFFF, dS3c .vfms⟩
  | 5 => some ⟨3, 0x1FF, 0xFFFFFFF, 0xFFFFFFF, dS3 .vmin⟩
  | 6 => some ⟨3, 0x1FF, 0xFFFFFFF, 0xFFFFFFF, dS3 .vmax⟩
  | 7 => some ⟨3, 0x197, 0xFFFFFFF, 0x3FFF, dS3a .vabs⟩
  | 8 => some ⟨3, 0x197, 0xFFFFFFF, 0x3FFF, dS3a .vneg⟩
  | 9 => some ⟨3, 0x1FF, 0xFFFFFFF, 0xFFFFFFF, dS3 .vand⟩
  | 10 => some ⟨3, 0x1FF, 0xFFFFFFF, 0xFFFFFFF, dS3 .vor⟩
  | 11 => some ⟨3, 0x1FF, 0xFFFFFFF, 0xFFFFFFF, dS3 .vxor⟩
  | 12 => some ⟨3, 0x1FF, 0xFFFFFFF, 0xFFFFFFF, dS3 .vshl⟩
  | 13 => some ⟨3, 0x1FF, 0xFFFFFFF, 0xFFFFFFF, dS3 .vshr⟩
  | 14 => some ⟨3, 0x1FF, 0x00FFFFF, 0xFFFFFFF, dS3cmp .vcmp⟩
  | 15 => some ⟨3, 0x1FF, 0xFFFFFFF, 0xFFFFFFF, dS3c .vsel⟩
  | 16 => some ⟨3, 0x197, 0xFFFFFFF, 0xFC03FFF, dVcvt .vcvt⟩
  | 17 => some ⟨2, 0x197, 0xFFFFFFF, 0, dS2r .vmov⟩
  | 18 => some ⟨3, 0x1FF, 0xFFFFFFF, 0xFFFFFFF, dS3 .vbcast⟩
  | 19 => some ⟨3, 0x1FF, 0xFFFFFFF, 0xFFFFFFF, dS3 .vperm⟩
  | 20 => some ⟨3, 0x1FF, 0xFFFFFFF, 0xFFFFFFF, dS3 .vrot⟩
  | 21 => some ⟨3, 0x1FF, 0xFFFFFFF, 0xFFFFFFF, dS3 .vshuf⟩
  | 22 => some ⟨3, 0x1FF, 0xFFFFFFF, 0xFFFFFFF, dS3 .vpack⟩
  | 23 => some ⟨3, 0x197, 0xFFFFFFF, 0x3FFF, dS3a .vunpk⟩
  | 24 => some ⟨3, 0x1FF, 0xFFFFFFF, 0xFFFFFFF, dS3 .vred⟩
  | 25 => some ⟨3, 0x1FF, 0xFFFFFFF, 0xFFFFFFF, dS3 .vscan⟩
  | 26 => some ⟨3, 0x1FF, 0xFFFFFFF, 0xFFFFFFF, dS3c .vdot⟩
  | 27 => some ⟨3, 0x1FF, 0xFFFFFFF, 0xFFFFFFF, dS3 .vld⟩
  | 28 => some ⟨3, 0x1FF, 0xFFFFFFF, 0xFFFFFFF, dS3 .vst⟩
  | 29 => some ⟨3, 0x1FF, 0xFFFFFFF, 0xFFFFFFF, dS3 .vldx⟩
  | 30 => some ⟨3, 0x1FF, 0xFFFFFFF, 0xFFFFFFF, dS3 .vstx⟩
  | 31 => some ⟨3, 0x06F, 0xFFFFFFF, 0xFFFFFFF, dVcb .vldc⟩
  | 32 => some ⟨3, 0x06F, 0xFFFFFFF, 0xFFFFFFF, dVcb .vstc⟩
  | 33 => some ⟨2, 0x197, 0xFFFFFFF, 0, dS2r .viota⟩
  | _ => none

/-- Opcodes of the class NE (R98). -/
def rowNe : Nat → Option Row
  | 0 => some ⟨3, 0x197, 0xFFFFFFF, 0x3FFF, dS3a .nrsq⟩
  | 1 => some ⟨3, 0x197, 0xFFFFFFF, 0x3FFF, dS3a .nrcp⟩
  | 2 => some ⟨3, 0x197, 0xFFFFFFF, 0x3FFF, dS3a .nexp2⟩
  | 3 => some ⟨3, 0x197, 0xFFFFFFF, 0x3FFF, dS3a .nlog2⟩
  | 4 => some ⟨3, 0x197, 0xFFFFFFF, 0x3FFF, dS3a .nsig⟩
  | 5 => some ⟨3, 0x197, 0xFFFFFFF, 0x3FFF, dS3a .ntanh⟩
  | 6 => some ⟨3, 0x197, 0xFFFFFFF, 0x3FFF, dS3a .nmom⟩
  | 7 => some ⟨3, 0x1FF, 0xFFFFFFF, 0xFFFFFFF, dS3 .nnorm⟩
  | 8 => some ⟨3, 0x197, 0xFFFFFFF, 0x3FFF, dS3a .nsoft⟩
  | _ => none

/-- Opcodes of the class QE (R98). -/
def rowQe : Nat → Option Row
  | 0 => some ⟨3, 0x197, 0xFFFFFFF, 0x3FFF, dS3a .qamax⟩
  | 1 => some ⟨3, 0x197, 0xFFFFFFF, 0xF003FFF, dQscale .qscale⟩
  | 2 => some ⟨3, 0x1FF, 0xFFFFFFF, 0xFFFFFFF, dQblk .qblk⟩
  | 3 => some ⟨3, 0x007, 0xFFFFFFF, 0x3FFF, dQdeq .qdeq⟩
  | 4 => some ⟨3, 0x1FF, 0xFFFFFFF, 0xFFFFFFF, dS3 .qsign⟩
  | _ => none

/-- Opcodes of the class LE (R98). -/
def rowLe : Nat → Option Row
  | 0 => some ⟨3, 0x190, 0xF803FFF, 0, dLds .lds⟩
  | 1 => some ⟨3, 0, 0xF800000, 0, dLdsc .ldsc⟩
  | 2 => some ⟨1, 0, 0, 0, dF1 .lflip⟩
  | 3 => some ⟨3, 0, 0xF800000, 0, dLdsc .ldscl⟩
  | _ => none

/-- Opcodes of the class SE (R98). -/
def rowSe : Nat → Option Row
  | 0 => some ⟨3, 0x191, 0x3FFF, 0, dMsign .msign⟩
  | 1 => some ⟨1, 0, 0, 0, dF1 .mstop⟩
  | _ => none

/-- Opcodes of the class XE (R98). -/
def rowXe : Nat → Option Row
  | 0 => some ⟨2, 0x196, 0x3FFF, 0, dMma .mma⟩
  | 1 => some ⟨1, 0x001, 0, 0, dAccClr .accClr⟩
  | 2 => some ⟨1, 0, 0, 0, dF1 .accSwap⟩
  | 3 => some ⟨3, 0x180, 0xFFFFFFF, 0x0000001, dAcc .accRd⟩
  | 4 => some ⟨3, 0x180, 0xFFFFFFF, 0x0000001, dAcc .accWr⟩
  | 5 => some ⟨1, 0, 0, 0, dF1 .accCarry⟩
  | 6 => some ⟨1, 0, 0, 0, dF1 .mwait⟩
  | _ => none

/-- Opcodes of the class DE (R98). -/
def rowDe : Nat → Option Row
  | 0 => some ⟨3, 0x1F9, 0xF003FFF, 0xFFFFC03, dDrain .drain⟩
  | 1 => some ⟨3, 0x1FF, 0x3FFF, 0xFFFC01B, dDscale .dscale⟩
  | 2 => some ⟨3, 0x1E7, 0xFFFFFFF, 0xFFFC019, dDamax .damax⟩
  | _ => none

/-- Opcodes of the class IE (R98). -/
def rowIe : Nat → Option Row
  | 0 => some ⟨3, 0x1F8, 0xF803FFF, 0xFFFC000, dIgen .igen⟩
  | 1 => some ⟨3, 0x1F8, 0xFFC3FFF, 0xFFFC000, dImap .imap⟩
  | 2 => some ⟨3, 0x1F9, 0xFFC3FFF, 0xFFFC000, dIcmp .icmp⟩
  | _ => none

/-- Opcodes of the class GE (R98). -/
def rowGe : Nat → Option Row
  | 0 => some ⟨3, 0x1F9, 0xFFC3FFF, 0xFFFFF00, dGath .gath⟩
  | 1 => some ⟨3, 0x1F9, 0xFFC3FFF, 0xFFFFF00, dGath .scat⟩
  | 2 => some ⟨3, 0x190, 0xFFC3FFF, 0, dWin .win⟩
  | 3 => some ⟨3, 0x1FE, 0xFFC3FFF, 0xFFFFE00, dGseg .gseg⟩
  | _ => none

/-- Opcodes of the class AE (R98). -/
def rowAe : Nat → Option Row
  | 0 => some ⟨3, 0x190, 0xFFC3FFF, 0x0003E00, dAst .ast⟩
  | 1 => some ⟨2, 0x069, 0xFFFFFFF, 0, dAwait .await⟩
  | _ => none

/-- Opcodes of the class HE (R98). -/
def rowHe : Nat → Option Row
  | 0 => some ⟨3, 0x1F9, 0xFFF3FFF, 0xFFFFFFF, dHld .hld⟩
  | 1 => some ⟨3, 0x1F9, 0xFFF3FFF, 0xFFFFFFF, dHld .hst⟩
  | 2 => some ⟨3, 0x1F8, 0x3FFF, 0xFFFC000, dHpre .hpre⟩
  | 3 => some ⟨3, 0x1F9, 0x3FFF, 0xFFFFF00, dHzero .hzero⟩
  | _ => none

/-- Opcodes of the class TE (R98). -/
def rowTe : Nat → Option Row
  | 0 => some ⟨3, 0x1FF, 0xFE03FFF, 0xFFFFFFF, dTcopy .tcopy⟩
  | 1 => some ⟨3, 0x00F, 0xFFFF000, 0, dTcvt .tcvt⟩
  | _ => none

/-- Opcodes of the class PE (R98). -/
def rowPe : Nat → Option Row
  | 0 => some ⟨3, 0x06C, 0xFFFF800, 0xFFFC000, dPush .push⟩
  | 1 => some ⟨3, 0x1FC, 0xFFFFFFF, 0xFFFFFFF, dPushb .pushb⟩
  | 2 => some ⟨3, 0x1F9, 0xFFFFFFF, 0xFFFFF00, dCopy .copy⟩
  | 4 => some ⟨3, 0x1F9, 0xFFFFFFF, 0xFFFFF00, dCopy .copyd⟩
  | 5 => some ⟨3, 0x1F9, 0xFFFFFFF, 0xFFFFF00, dCopy .pull⟩
  | 3 => some ⟨3, 0x1F8, 0xFFFFFFF, 0xFFFFFFF, dCopyb .copyb⟩
  | 6 => some ⟨3, 0x191, 0xFFC3FFF, 0, dColl .coll⟩
  | _ => none

def rowOf : Cls → Nat → Option Row
  | .ce => rowCe | .pe => rowPe | .all => rowAll | .le => rowLe | .se => rowSe | .xe => rowXe | .de => rowDe
  | .ve => rowVe | .ne => rowNe | .qe => rowQe | .ie => rowIe | .ge => rowGe | .ae => rowAe | .he => rowHe | .te => rowTe

/-- All bits of `v` lie in the mask. -/
def inMask {n : Nat} (v : BitVec n) (mask : Nat) : Bool := decide (v &&& ~~~(BitVec.ofNat n mask) = 0)

/-- What the words at an index are, for the core: an instruction of the class of `tag` with its length in words, or a fault of
checks 1 to 4 of R100 and the tag of the engine it is raised in. -/
inductive Decoded where
  | instr (i : Instr) (len : Nat) (tag : Nat)
  | bad (c : Machine.Cause) (tag : Nat)
deriving DecidableEq, Repr

/-- Words that a tagged-7 word may not use: DEP in any word, and GD outside BR, BRL and LBRK (R100). -/
def allOk (opc : Nat) (w0 w1 : W32) : Bool :=
  decide (depOf w0 = 0) && (decide (fld w0 23 2 = 0) || decide (depOf w1 = 0)) &&
  (decide (fld w0 17 6 = 0) || decide (opc = 2 ∨ opc = 3 ∨ opc = 5))

/-- The words of one instruction. -/
def decodeRow (r : Row) (tag : Nat) (w0 w1 w2 : W32) : Decoded :=
  if (fld w0 23 2).toNat + 1 = r.len ∧ (r.len ≠ 3 ∨ depOf w1 = 0) ∧ inMask (fld w0 0 9) r.modMask ∧
     (r.len < 2 ∨ inMask (fld w1 0 28) r.mask1) ∧ (r.len < 3 ∨ inMask (fld w2 0 28) r.mask2) then
    match r.build w0 w1 w2 with
    | some i => .instr i r.len tag
    | none => .bad .illegalEncoding tag
  else .bad .illegalEncoding tag

/-- The owner of a word (R99): its own engine, the CE for words tagged 7. -/
def ownerOf (tag : Nat) : Nat := if tag = 7 then 0 else tag

/-- Decodes the words from an index on (R100, checks 1 to 4): total on any list of words. -/
def decode (ct : Machine.CoreType) : List W32 → Decoded
  | [] => .bad .illegalEncoding 0
  | w0 :: r =>
    let len := (fld w0 23 2).toNat + 1
    let tag := (fld w0 25 3).toNat
    let opc := (fld w0 9 8).toNat
    if len = 4 ∨ r.length + 1 < len then .bad .illegalEncoding 0
    else
      match (if tag = 7 then some Cls.all else clsOf ct tag) with
      | none => .bad .engineAbsent 0
      | some c =>
        match rowOf c opc with
        | none => .bad .illegalInstruction (ownerOf tag)
        | some row =>
          if tag = 7 ∧ !allOk opc w0 (r.getD 0 0) then .bad .illegalEncoding 0
          else
            match decodeRow row tag w0 (r.getD 0 0) (r.getD 1 0) with
            | .instr i n t => .instr i n t
            | .bad e t => .bad e (ownerOf t)

/-- The instruction that the decoder of an M-core reads from an instruction whose bits are `w`, bit 0 the least significant bit of
the first word; every bit above `nbits` is 0, so `w` alone gives the words. -/
def decodeTableWord (_nbits w : Nat) : Option Instr :=
  match decode .m [BitVec.ofNat 32 w, BitVec.ofNat 32 (w / 2 ^ 32), BitVec.ofNat 32 (w / 2 ^ 64)] with
  | .instr i _ _ => some i
  | .bad _ _ => none

/-! ### The encoder -/

def bit (b : Bool) : BitVec 1 := BitVec.ofBool b

/-- A slice operand as a field (R62). -/
def slotV (o : Slot) : BitVec 14 := o.win ++ o.off ++ o.wm1

/-- The kind code of a source (R92). -/
def kindV : Src → BitVec 2
  | .file _ _ => 0
  | .latch _ => 1
  | .scalar _ _ => 2
  | .imm _ _ => 3

/-- The 14-bit field of a source. -/
def fieldV : Src → BitVec 14
  | .file o _ => slotV o
  | .latch _ => 0
  | .scalar o _ => slotV o
  | .imm v _ => v

/-- A head word (R82) from DEP, tag, length less 1, guard, opcode and MOD. -/
def wordV (dep : BitVec 4) (tag len : Nat) (g : Guard) (opc : Nat) (mod : BitVec 9) : W32 :=
  dep ++ BitVec.ofNat 3 tag ++ BitVec.ofNat 2 len ++ bit g.gd ++ g.p ++ bit g.s ++ BitVec.ofNat 8 opc ++ mod

def allW (len opc : Nat) (g : Guard) (mod : BitVec 9) : W32 := wordV 0 7 len g opc mod

def headV (tag len opc : Nat) (h : Head) (mod : BitVec 9) : W32 := wordV h.dep tag len h.g opc mod

/-- The standard MOD (R91). -/
def modV (ka kb : BitVec 2) (ha hb : Bool) (es : BitVec 2) (fs : Bool) : BitVec 9 := ka ++ kb ++ bit ha ++ bit hb ++ es ++ bit fs

/-- A tail word (R83) from its DEP and two 14-bit fields. -/
def tailV (dep : BitVec 4) (hi lo : BitVec 14) : W32 := dep ++ hi ++ lo

def subV (s : Sub) : BitVec 14 := s.rm ++ bit s.sat ++ s.cond ++ s.fmt ++ s.xs

def srcCV (c : SrcC) : BitVec 14 := c.win ++ c.off ++ c.fmt ++ bit c.rms

def mod2 (a b : Src) (es : BitVec 2) (fs : Bool) : BitVec 9 := modV (kindV a) (kindV b) a.hold b.hold es fs

def mod1 (a : Src) (es : BitVec 2) (fs : Bool) : BitVec 9 := modV (kindV a) 0 a.hold false es fs

def modB (b : Src) (es : BitVec 2) (fs : Bool) : BitVec 9 := modV 0 (kindV b) false b.hold es fs

def eS3 (tag opc : Nat) (f : S3) : List W32 :=
  [headV tag 2 opc f.h (mod2 f.a f.b f.es f.fs), tailV 0 (slotV f.dst) (fieldV f.a), tailV f.dep (fieldV f.b) (subV f.sub)]

def eS3a (tag opc : Nat) (f : S3a) : List W32 :=
  [headV tag 2 opc f.h (mod1 f.a f.es f.fs), tailV 0 (slotV f.dst) (fieldV f.a), tailV f.dep 0 (subV f.sub)]

def eS3c (tag opc : Nat) (f : S3c) : List W32 :=
  [headV tag 2 opc f.h (mod2 f.a f.b f.es f.fs), tailV 0 (slotV f.dst) (fieldV f.a), tailV f.dep (fieldV f.b) (srcCV f.c)]

def eS3cmp (tag opc : Nat) (f : S3cmp) : List W32 :=
  [headV tag 2 opc f.h (mod2 f.a f.b f.es f.fs), tailV 0 (0#8 ++ f.mode ++ f.pd) (fieldV f.a), tailV f.dep (fieldV f.b) (subV f.sub)]

def eS2r (tag opc : Nat) (f : S2r) : List W32 :=
  [headV tag 1 opc f.h (mod1 f.a f.es f.fs), tailV f.dep (slotV f.dst) (fieldV f.a)]

def eF1 (tag opc : Nat) (f : F1) : List W32 := [headV tag 0 opc f.h 0]

def eMovi (hi : Bool) (f : MoviF) : List W32 :=
  [headV 0 2 20 f.h (modV 3 0 false false (0#1 ++ bit hi) f.fs), tailV 0 (slotV f.dst) (f.imm.extractLsb' 28 14),
   f.dep ++ f.imm.extractLsb' 0 28]

def ePlog (tag opc : Nat) (f : PlogF) : List W32 :=
  [headV tag 1 opc f.h (0#5 ++ f.pd), f.dep ++ f.pa ++ f.pb ++ f.lut ++ 0#16]

def ePmov (tag opc : Nat) (f : PmovF) : List W32 :=
  [headV tag 1 opc f.h (0#3 ++ f.k ++ f.dir), tailV f.dep (slotV f.s) (f.f ++ 0#10)]

def eSetw (tag opc : Nat) (f : SetwF) : List W32 :=
  match f.arg with
  | .imm v => [headV tag 1 opc f.h (0#2 ++ bit f.add ++ 0#1 ++ f.w ++ f.t), f.dep ++ 0#13 ++ v]
  | .slot o => [headV tag 1 opc f.h (0#2 ++ bit f.add ++ 1#1 ++ f.w ++ f.t), tailV f.dep 0 (slotV o)]

def eGetw (tag opc : Nat) (f : GetwF) : List W32 := [headV tag 1 opc f.h (0#4 ++ f.w ++ f.t), tailV f.dep (slotV f.dst) 0]

def eSpill (tag opc : Nat) (f : SpillF) : List W32 :=
  [headV tag 2 opc f.h (mod2 f.a f.b 0 false), tailV 0 (f.win ++ f.off ++ 0#4) (fieldV f.a), tailV f.dep (fieldV f.b) (0#2 ++ f.cnt)]

def eAtom (tag opc : Nat) (f : AtomF) : List W32 :=
  [headV tag 2 opc f.h (mod2 f.a f.x 0 f.fs), tailV 0 (slotV f.dst) (fieldV f.a), tailV f.dep (fieldV f.x) (f.aop ++ bit f.sz ++ 0#9)]

def eAtomn (tag opc : Nat) (f : AtomnF) : List W32 :=
  [headV tag 2 opc f.h (mod2 f.a f.x 0 f.fs), tailV 0 0 (fieldV f.a), tailV f.dep (fieldV f.x) (f.aop ++ bit f.sz ++ 0#9)]

def eCas (tag opc : Nat) (f : CasF) : List W32 :=
  [headV tag 2 opc f.h (mod2 f.a f.x 0 f.fs), tailV 0 (slotV f.dst) (fieldV f.a),
   tailV f.dep (fieldV f.x) (f.pd ++ bit f.sz ++ bit f.pe ++ 0#8)]

def eFence (tag opc : Nat) (f : FenceF) : List W32 := [headV tag 0 opc f.h (0#4 ++ f.k ++ f.c)]

def eQfence (tag opc : Nat) (f : QfenceF) : List W32 := [headV tag 0 opc f.h (0#2 ++ f.m)]

def eMaskArg : MaskArg → BitVec 14
  | .one t => 0#8 ++ t
  | .slot o => slotV o

def isOne : MaskArg → Bool
  | .one _ => true
  | .slot _ => false

def eTwait (tag opc : Nat) (f : TwaitF) : List W32 :=
  [headV tag 1 opc f.h (0#6 ++ bit (isOne f.m) ++ bit f.clr ++ bit f.all), tailV f.dep 0 (eMaskArg f.m)]

def eTffr (tag opc : Nat) (f : TffrF) : List W32 :=
  [headV tag 1 opc f.h (0#7 ++ bit f.clr ++ bit f.wait), tailV f.dep (slotV f.dst) (slotV f.k)]

def eTclr (tag opc : Nat) (f : TclrF) : List W32 := [headV tag 1 opc f.h (0#6 ++ bit (isOne f.m) ++ 0#2), tailV f.dep 0 (eMaskArg f.m)]

def eBar (tag opc : Nat) (f : BarF) : List W32 :=
  [headV tag 2 opc f.h (mod2 f.a f.e 0 false), tailV 0 0 (fieldV f.a), tailV f.dep (fieldV f.e) 0]

def eBwait (tag opc : Nat) (f : BwaitF) : List W32 :=
  match f.psrc with
  | some o => [headV tag 1 opc f.h (0#7 ++ 1#1 ++ bit f.p), tailV f.dep (slotV o) (slotV f.a)]
  | none => [headV tag 1 opc f.h (0#8 ++ bit f.p), tailV f.dep 0 (slotV f.a)]

def eTrap (tag opc : Nat) (f : TrapF) : List W32 := [headV tag 0 opc f.h (0#1 ++ f.c)]

def eSegst (tag opc : Nat) (f : SegstF) : List W32 := [headV tag 1 opc f.h (0#6 ++ f.sel), tailV f.dep (slotV f.dst) 0]

def eMfsr (tag opc : Nat) (f : MfsrF) : List W32 := [headV tag 1 opc f.h 0, tailV f.dep (slotV f.dst) (0#4 ++ f.num)]

def eMtsr (tag opc : Nat) (f : MtsrF) : List W32 := [headV tag 1 opc f.h (mod1 f.src 0 false), tailV f.dep (fieldV f.src) (0#4 ++ f.num)]

def eRd (tag opc : Nat) (f : RdF) : List W32 := [headV tag 1 opc f.h 0, tailV f.dep (slotV f.dst) 0]

def eRand (tag opc : Nat) (f : RandF) : List W32 :=
  [headV tag 2 opc f.h (mod2 f.c f.q 0 false), tailV 0 (slotV f.dst) (fieldV f.c), tailV f.dep (fieldV f.q) 0]

def ePace (tag opc : Nat) (f : PaceF) : List W32 :=
  match f.arg with
  | .imm v => [headV tag 1 opc f.h (0#6 ++ f.t), tailV f.dep 0 (0#6 ++ v)]
  | .slot o => [headV tag 1 opc f.h (0#5 ++ 1#1 ++ f.t), tailV f.dep 0 (slotV o)]

def eHint (tag opc : Nat) (f : HintF) : List W32 := [headV tag 0 opc f.h (0#7 ++ f.hint)]

def eCbset (tag opc : Nat) (f : CbsetF) : List W32 :=
  [headV tag 2 opc f.h 0, 0#4 ++ f.space ++ f.fmt ++ 0#1 ++ f.base, f.dep ++ f.cb ++ f.ents ++ f.size]

def eCbadv (tag opc : Nat) (f : CbadvF) : List W32 :=
  match f.cnt with
  | .imm v => [headV tag 1 opc f.h (0#3 ++ 1#1 ++ bit f.cons ++ f.cb), tailV f.dep 0 (0#2 ++ v)]
  | .slot o => [headV tag 1 opc f.h (0#4 ++ bit f.cons ++ f.cb), tailV f.dep 0 (slotV o)]

def eCbqry (tag opc : Nat) (f : CbqryF) : List W32 := [headV tag 1 opc f.h (0#2 ++ f.sel ++ f.cb), tailV f.dep (slotV f.dst) 0]

def eVcvt (tag opc : Nat) (f : VcvtF) : List W32 :=
  [headV tag 2 opc f.h (mod1 f.a f.es f.fs), tailV 0 (slotV f.dst) (fieldV f.a),
   tailV f.dep (f.sf ++ bit f.ss ++ f.se ++ 0#8) (subV f.sub)]

def eVcb (tag opc : Nat) (f : VcbF) : List W32 :=
  [headV tag 2 opc f.h (modB f.b f.es f.fs), tailV 0 (slotV f.dst) (f.cb ++ f.off), tailV f.dep (fieldV f.b) (subV f.sub)]

def eQscale (tag opc : Nat) (f : QscaleF) : List W32 :=
  [headV tag 2 opc f.h (mod1 f.a f.es f.fs), tailV 0 (slotV f.dst) (fieldV f.a), tailV f.dep (f.bf ++ 0#10) (subV f.sub)]

def eQblk (tag opc : Nat) (f : QblkF) : List W32 :=
  [headV tag 2 opc f.h (mod2 f.a f.b f.es f.fs), tailV 0 (f.cb ++ f.blk) (fieldV f.a), tailV f.dep (fieldV f.b) (subV f.sub)]

def eQdeq (tag opc : Nat) (f : QdeqF) : List W32 :=
  [headV tag 2 opc f.h (modV 0 0 false false f.es f.fs), tailV 0 (slotV f.dst) (f.cb ++ f.blk), tailV f.dep 0 (subV f.sub)]

def eLds (tag opc : Nat) (f : LdsF) : List W32 :=
  [headV tag 2 opc f.h (mod1 f.a 0 false), tailV 0 (f.fmt ++ 0#9) (fieldV f.a), tailV f.dep 0 0]

def eLdsc (tag opc : Nat) (f : LdscF) : List W32 := [headV tag 2 opc f.h 0, tailV 0 (f.cb ++ bit f.adv ++ 0#9) 0, tailV f.dep 0 0]

def eMsign (tag opc : Nat) (f : MsignF) : List W32 :=
  [headV tag 2 opc f.h (mod1 f.b 0 f.en), tailV 0 0 (fieldV f.b), tailV f.dep 0 0]

def eMma (tag opc : Nat) (f : MmaF) : List W32 :=
  [headV tag 1 opc f.h (mod1 f.aoff (bit f.ua ++ bit f.uw) false), tailV f.dep 0 (fieldV f.aoff)]

def eAccClr (tag opc : Nat) (f : AccClrF) : List W32 := [headV tag 0 opc f.h (0#8 ++ bit f.vis)]

def eAcc (tag opc : Nat) (f : AccF) : List W32 :=
  [headV tag 2 opc f.h (mod1 f.i 0 false), tailV 0 (slotV f.d) (fieldV f.i), tailV f.dep 0 (0#13 ++ bit f.vis)]

def eDrain (tag opc : Nat) (f : DrainF) : List W32 :=
  [headV tag 2 opc f.h (mod2 f.row f.n 0 f.fs), tailV 0 (f.cb ++ 0#10) (fieldV f.row),
   tailV f.dep (fieldV f.n) (f.rm ++ bit f.sat ++ 0#8 ++ bit f.adv ++ bit f.half)]

def eDscale (tag opc : Nat) (f : DscaleF) : List W32 :=
  [headV tag 2 opc f.h (mod2 f.a f.b 3 true), tailV 0 0 (fieldV f.a), tailV f.dep (fieldV f.b) (0#9 ++ 6#3 ++ bit f.sett ++ bit f.setm)]

def eDamax (tag opc : Nat) (f : DamaxF) : List W32 :=
  [headV tag 2 opc f.h (mod2 f.row f.n 3 true), tailV 0 (slotV f.dst) (fieldV f.row), tailV f.dep (fieldV f.n) (0#9 ++ 6#3 ++ 0#1 ++ bit f.half)]

def eIgen (tag opc : Nat) (f : IgenF) : List W32 :=
  [headV tag 2 opc f.h (mod2 f.a f.b 0 false), tailV 0 (f.dcb ++ bit f.adv ++ 0#9) (fieldV f.a), tailV f.dep (fieldV f.b) 0]

def eImap (tag opc : Nat) (f : ImapF) : List W32 :=
  [headV tag 2 opc f.h (mod2 f.a f.b 0 false), tailV 0 (f.dcb ++ f.scb ++ bit f.advs ++ bit f.advd ++ 0#4) (fieldV f.a),
   tailV f.dep (fieldV f.b) 0]

def eIcmp (tag opc : Nat) (f : IcmpF) : List W32 :=
  [headV tag 2 opc f.h (mod2 f.a f.b 0 f.inv), tailV 0 (f.dcb ++ f.scb ++ bit f.advs ++ bit f.advd ++ 0#4) (fieldV f.a),
   tailV f.dep (fieldV f.b) 0]

def eGath (tag opc : Nat) (f : GathF) : List W32 :=
  [headV tag 2 opc f.h (mod2 f.a f.rb 0 f.ten), tailV 0 (f.cb ++ f.icb ++ bit f.advi ++ bit f.advx ++ 0#4) (fieldV f.a),
   tailV f.dep (fieldV f.rb) (f.tag ++ 0#8)]

def eWin (tag opc : Nat) (f : WinF) : List W32 :=
  [headV tag 2 opc f.h (mod1 f.a 0 false), tailV 0 (f.dcb ++ f.scb ++ bit f.advs ++ bit f.advd ++ 0#4) (fieldV f.a), tailV f.dep 0 0]

def eGseg (tag opc : Nat) (f : GsegF) : List W32 :=
  [headV tag 2 opc f.h (mod2 f.a f.rb f.op false), tailV 0 (f.dcb ++ f.scb ++ bit f.advs ++ bit f.advd ++ 0#4) (fieldV f.a),
   tailV f.dep (fieldV f.rb) (f.icb ++ bit f.advi ++ 0#9)]

def eAst (tag opc : Nat) (f : AstF) : List W32 :=
  [headV tag 2 opc f.h (mod1 f.a 0 false), tailV 0 (f.vcb ++ f.icb ++ bit f.advv ++ bit f.advi ++ 0#4) (fieldV f.a),
   tailV f.dep 0 (f.aop ++ bit f.sz ++ 0#9)]

def eAwait (tag opc : Nat) (f : AwaitF) : List W32 :=
  [headV tag 1 opc f.h (modB f.n 0 f.bar), tailV f.dep (fieldV f.n) (slotV f.a)]

def eHld (tag opc : Nat) (f : HldF) : List W32 :=
  [headV tag 2 opc f.h (mod2 f.a f.b 0 f.ten), tailV 0 (f.cb ++ bit f.adv ++ bit f.cbm ++ f.tag ++ 0#2) (fieldV f.a),
   tailV f.dep (fieldV f.b) (slotV f.c)]

def eHpre (tag opc : Nat) (f : HpreF) : List W32 :=
  [headV tag 2 opc f.h (mod2 f.a f.n 0 false), tailV 0 0 (fieldV f.a), tailV f.dep (fieldV f.n) 0]

def eHzero (tag opc : Nat) (f : HzeroF) : List W32 :=
  [headV tag 2 opc f.h (mod2 f.a f.n 0 f.ten), tailV 0 0 (fieldV f.a), tailV f.dep (fieldV f.n) (f.tag ++ 0#8)]

def eTcopy (tag opc : Nat) (f : TcopyF) : List W32 :=
  [headV tag 2 opc f.h (mod2 f.a f.b f.es f.ten), tailV 0 (f.tag ++ bit f.tr ++ 0#7) (fieldV f.a), tailV f.dep (fieldV f.b) (slotV f.c)]

def eTcvt (tag opc : Nat) (f : TcvtF) : List W32 :=
  [headV tag 2 opc f.h (0#5 ++ f.rm ++ bit f.ten), 0#4 ++ f.scb ++ f.dcb ++ bit f.advs ++ bit f.advd ++ f.tag ++ 0#12, tailV f.dep 0 0]

def ePush (tag opc : Nat) (f : PushF) : List W32 :=
  [headV tag 2 opc f.h (modB f.due (bit f.timed ++ 0#1) false), 0#4 ++ f.dcore ++ f.dcb ++ f.scb ++ bit f.advs ++ 0#11,
   tailV f.dep (fieldV f.due) 0]

def ePushb (tag opc : Nat) (f : PushbF) : List W32 :=
  [headV tag 2 opc f.h (mod2 f.a f.due (bit f.timed ++ 0#1) false), tailV 0 (slotV f.dst) (fieldV f.a),
   tailV f.dep (fieldV f.due) (slotV f.c)]

def eCopy (tag opc : Nat) (f : CopyF) : List W32 :=
  [headV tag 2 opc f.h (mod2 f.a f.n 0 f.ten), tailV 0 (slotV f.dst) (fieldV f.a), tailV f.dep (fieldV f.n) (f.tag ++ 0#8)]

def eCopyb (tag opc : Nat) (f : CopybF) : List W32 :=
  [headV tag 2 opc f.h (mod2 f.a f.n 0 false), tailV 0 (slotV f.dst) (fieldV f.a), tailV f.dep (fieldV f.n) (slotV f.bar)]

def eColl (tag opc : Nat) (f : CollF) : List W32 :=
  [headV tag 2 opc f.h (mod1 f.a 0 f.ten), 0#4 ++ f.op ++ f.tag ++ 0#4 ++ fieldV f.a, tailV f.dep 0 0]

/-- The words of an instruction; none for an event, command or message. -/
def encode : Instr → List W32
  | .nop n => [allW 0 0 ⟨false, 0, false⟩ n]
  | .pbr f => [allW 1 1 ⟨false, 0, false⟩ (0#5 ++ bit f.rel ++ f.k), 0#4 ++ f.target]
  | .br f => [allW 0 2 f.g (0#6 ++ f.k)]
  | .brl f => [allW 0 3 f.g (0#3 ++ f.l ++ f.k)]
  | .loop f => [allW 1 4 ⟨false, 0, false⟩ (bit f.csrc ++ 0#6 ++ f.n), 0#4 ++ f.count ++ f.last]
  | .lbrk f => [allW 0 5 f.g (0#7 ++ f.n)]
  | .segOpen d => [allW 1 6 ⟨false, 0, false⟩ 0, 0#4 ++ d]
  | .segClose => [allW 0 7 ⟨false, 0, false⟩ 0]
  | .gbar n => [allW 0 8 ⟨false, 0, false⟩ (0#5 ++ n)]
  | .halt => [allW 0 9 ⟨false, 0, false⟩ 0]
  | .ckdiv d => [allW 1 10 ⟨false, 0, false⟩ 0, 0#4 ++ d]
  | .slipw => [allW 0 11 ⟨false, 0, false⟩ 0]
  | .brk c => [allW 0 12 ⟨false, 0, false⟩ (0#1 ++ c)]
  | .add f => eS3 0 0 f
  | .sub f => eS3 0 1 f
  | .mul f => eS3 0 2 f
  | .mulh f => eS3 0 3 f
  | .divi f => eS3 0 4 f
  | .remi f => eS3 0 5 f
  | .and f => eS3 0 6 f
  | .or f => eS3 0 7 f
  | .xor f => eS3 0 8 f
  | .andn f => eS3 0 9 f
  | .shl f => eS3 0 10 f
  | .shr f => eS3 0 11 f
  | .rot f => eS3 0 12 f
  | .min f => eS3 0 13 f
  | .max f => eS3 0 14 f
  | .clz f => eS2r 0 15 f
  | .popc f => eS2r 0 16 f
  | .ext f => eS3 0 17 f
  | .ins f => eS3 0 18 f
  | .mov f => eS2r 0 19 f
  | .movi f => eMovi false f
  | .moviHi f => eMovi true f
  | .sel f => eS3c 0 21 f
  | .cmp f => eS3cmp 0 22 f
  | .plog f => ePlog 0 23 f
  | .pmov f => ePmov 0 24 f
  | .lea f => eS3 0 25 f
  | .setw f => eSetw 0 26 f
  | .getw f => eGetw 0 27 f
  | .ld f => eS3 0 32 f
  | .st f => eS3 0 33 f
  | .spill f => eSpill 0 34 f
  | .fill f => eSpill 0 35 f
  | .atom f => eAtom 0 36 f
  | .atomn f => eAtomn 0 37 f
  | .cas f => eCas 0 38 f
  | .fence f => eFence 0 39 f
  | .qfence f => eQfence 0 40 f
  | .twait f => eTwait 0 41 f
  | .tffr f => eTffr 0 42 f
  | .tclr f => eTclr 0 43 f
  | .bari f => eBar 0 44 f
  | .barx f => eBar 0 45 f
  | .bwait f => eBwait 0 46 f
  | .trapf f => eF1 0 47 f
  | .segst f => eSegst 0 48 f
  | .mfsr f => eMfsr 0 49 f
  | .mtsr f => eMtsr 0 50 f
  | .rdtime f => eRd 0 51 f
  | .rdreck f => eRd 0 52 f
  | .rand f => eRand 0 53 f
  | .pace f => ePace 0 54 f
  | .hint f => eHint 0 55 f
  | .trap f => eTrap 0 56 f
  | .cbset f => eCbset 0 57 f
  | .cbadv f => eCbadv 0 58 f
  | .cbqry f => eCbqry 0 59 f
  | .vadd f => eS3 1 0 f
  | .vsub f => eS3 1 1 f
  | .vmul f => eS3 1 2 f
  | .vfma f => eS3c 1 3 f
  | .vfms f => eS3c 1 4 f
  | .vmin f => eS3 1 5 f
  | .vmax f => eS3 1 6 f
  | .vabs f => eS3a 1 7 f
  | .vneg f => eS3a 1 8 f
  | .vand f => eS3 1 9 f
  | .vor f => eS3 1 10 f
  | .vxor f => eS3 1 11 f
  | .vshl f => eS3 1 12 f
  | .vshr f => eS3 1 13 f
  | .vcmp f => eS3cmp 1 14 f
  | .vsel f => eS3c 1 15 f
  | .vcvt f => eVcvt 1 16 f
  | .vmov f => eS2r 1 17 f
  | .vbcast f => eS3 1 18 f
  | .vperm f => eS3 1 19 f
  | .vrot f => eS3 1 20 f
  | .vshuf f => eS3 1 21 f
  | .vpack f => eS3 1 22 f
  | .vunpk f => eS3a 1 23 f
  | .vred f => eS3 1 24 f
  | .vscan f => eS3 1 25 f
  | .vdot f => eS3c 1 26 f
  | .vld f => eS3 1 27 f
  | .vst f => eS3 1 28 f
  | .vldx f => eS3 1 29 f
  | .vstx f => eS3 1 30 f
  | .vldc f => eVcb 1 31 f
  | .vstc f => eVcb 1 32 f
  | .viota f => eS2r 1 33 f
  | .nrsq f => eS3a 2 0 f
  | .nrcp f => eS3a 2 1 f
  | .nexp2 f => eS3a 2 2 f
  | .nlog2 f => eS3a 2 3 f
  | .nsig f => eS3a 2 4 f
  | .ntanh f => eS3a 2 5 f
  | .nmom f => eS3a 2 6 f
  | .nnorm f => eS3 2 7 f
  | .nsoft f => eS3a 2 8 f
  | .qamax f => eS3a 3 0 f
  | .qscale f => eQscale 3 1 f
  | .qblk f => eQblk 3 2 f
  | .qdeq f => eQdeq 3 3 f
  | .qsign f => eS3 3 4 f
  | .lds f => eLds 1 0 f
  | .ldsc f => eLdsc 1 1 f
  | .lflip f => eF1 1 2 f
  | .ldscl f => eLdsc 1 3 f
  | .msign f => eMsign 2 0 f
  | .mstop f => eF1 2 1 f
  | .mma f => eMma 3 0 f
  | .accClr f => eAccClr 3 1 f
  | .accSwap f => eF1 3 2 f
  | .accRd f => eAcc 3 3 f
  | .accWr f => eAcc 3 4 f
  | .accCarry f => eF1 3 5 f
  | .mwait f => eF1 3 6 f
  | .drain f => eDrain 4 0 f
  | .dscale f => eDscale 4 1 f
  | .damax f => eDamax 4 2 f
  | .igen f => eIgen 1 0 f
  | .imap f => eImap 1 1 f
  | .icmp f => eIcmp 1 2 f
  | .gath f => eGath 2 0 f
  | .scat f => eGath 2 1 f
  | .win f => eWin 2 2 f
  | .gseg f => eGseg 2 3 f
  | .ast f => eAst 3 0 f
  | .await f => eAwait 3 1 f
  | .hld f => eHld 1 0 f
  | .hst f => eHld 1 1 f
  | .hpre f => eHpre 1 2 f
  | .hzero f => eHzero 1 3 f
  | .tcopy f => eTcopy 2 0 f
  | .tcvt f => eTcvt 2 1 f
  | .push f => ePush 6 0 f
  | .pushb f => ePushb 6 1 f
  | .copy f => eCopy 6 2 f
  | .copyd f => eCopy 6 4 f
  | .pull f => eCopy 6 5 f
  | .copyb f => eCopyb 6 3 f
  | .coll f => eColl 6 6 f
  | _ => []

end Sys2Proof
end

