-- ==== Sys2Proof/Machine/Num.lean ====
section
/-! DEFINITION. Number formats and exact arithmetic: values, decoding, rounding, EMBER, dither, scales and quantising (R28 to R59). Values
are computed exactly as rationals and rounded once. -/

namespace Sys2Proof.Machine

/-! ### Flags (R54) -/

/-- Flag bits as a number: NV 1, DZ 2, OF 4, UF 8, NX 16, SA 32. Flags of several results are combined with `|||`. -/
abbrev Flags := Nat

def fNV : Flags := 1
def fDZ : Flags := 2
def fOF : Flags := 4
def fUF : Flags := 8
def fNX : Flags := 16
def fSA : Flags := 32

/-- The flag where a condition holds. -/
def flagIf (c : Bool) (f : Flags) : Flags := if c then f else 0

/-! ### Integers (R59, R66) -/

/-- SEXT (R59). -/
def sext (v w : Nat) : Int :=
  let u := v % 2 ^ w
  if w = 0 then 0 else if u < 2 ^ (w - 1) then (u : Int) else (u : Int) - (2 ^ w : Nat)

/-- ZEXT (R59). -/
def zext (v w : Nat) : Int := ((v % 2 ^ w : Nat) : Int)

/-- extend (R59). -/
def extI (fs : Bool) (v w : Nat) : Int := if fs then sext v w else zext v w

/-- An integer modulo 2^w. -/
def wrapI (v : Int) (w : Nat) : Nat := (v % ((2 ^ w : Nat) : Int)).toNat

/-- clamp (R59). -/
def clampI (v lo hi : Int) : Int := if v < lo then lo else if hi < v then hi else v

/-- The least and largest integers of width w (R32). -/
def intMin (fs : Bool) (w : Nat) : Int := if fs then -((2 ^ (w - 1) : Nat) : Int) else 0

def intMax (fs : Bool) (w : Nat) : Int := if fs then ((2 ^ (w - 1) : Nat) : Int) - 1 else ((2 ^ w : Nat) : Int) - 1

/-- SAT (R59): the bits and SA where the value changed. -/
def satI (v : Int) (w : Nat) (fs : Bool) : Nat × Flags :=
  let c := clampI v (intMin fs w) (intMax fs w)
  (wrapI c w, flagIf (decide (c ≠ v)) fSA)

/-- reduce (R59, R66). -/
def reduceI (sat fs : Bool) (v : Int) (w : Nat) : Nat × Flags := if sat then satI v w fs else (wrapI v w, 0)

/-- Bit `i` of a number. -/
def bitN (v i : Nat) : Bool := v / 2 ^ i % 2 = 1

/-- Bits [lo + n - 1 : lo] of a number. -/
def bitsN (v lo n : Nat) : Nat := v / 2 ^ lo % 2 ^ n

/-! ### Formats (R28) -/

inductive Fmt where
  | e2m1 | e4m3 | e5m2 | bf16 | fp16 | fp32
deriving DecidableEq, Repr

/-- The format that an FMT code names (R94). -/
def fmtOf (f : BitVec 3) : Fmt :=
  match f.toNat with
  | 1 => .e2m1 | 2 => .e4m3 | 3 => .e5m2 | 4 => .bf16 | 5 => .fp16 | _ => .fp32

def Fmt.mbits : Fmt → Nat
  | .e2m1 => 1 | .e4m3 => 3 | .e5m2 => 2 | .bf16 => 7 | .fp16 => 10 | .fp32 => 23

def Fmt.ebits : Fmt → Nat
  | .e2m1 => 2 | .e4m3 => 4 | .e5m2 => 5 | .bf16 => 8 | .fp16 => 5 | .fp32 => 8

def Fmt.bias : Fmt → Nat
  | .e2m1 => 1 | .e4m3 => 7 | .e5m2 => 15 | .bf16 => 127 | .fp16 => 15 | .fp32 => 127

/-- Width in bits. -/
def Fmt.width (F : Fmt) : Nat := 1 + F.ebits + F.mbits

/-- Formats with infinities. -/
def Fmt.hasInf : Fmt → Bool
  | .e2m1 => false | .e4m3 => false | _ => true

/-- The magnitude code of the largest finite value. -/
def Fmt.maxCode : Fmt → Nat
  | .e2m1 => 0x7 | .e4m3 => 0x7E | .e5m2 => 0x7B | .bf16 => 0x7F7F | .fp16 => 0x7BFF | .fp32 => 0x7F7F_FFFF

/-- The canonical NaN (R30); E2M1 has none and takes 0. -/
def Fmt.nan : Fmt → Nat
  | .e2m1 => 0 | .e4m3 => 0x7F | .e5m2 => 0x7E | .bf16 => 0x7FC0 | .fp16 => 0x7E00 | .fp32 => 0x7FC0_0000

/-- The code of +∞. -/
def Fmt.infCode : Fmt → Nat
  | .e2m1 => 0x7 | .e4m3 => 0x7E | .e5m2 => 0x7C | .bf16 => 0x7F80 | .fp16 => 0x7C00 | .fp32 => 0x7F80_0000

/-- The sign bit as a number. -/
def Fmt.sign (F : Fmt) : Nat := 2 ^ (F.ebits + F.mbits)

/-- A datum: NaN, an infinity, a zero with its sign, or a value other than 0. -/
inductive FVal where
  | nan
  | inf (neg : Bool)
  | zero (neg : Bool)
  | num (q : Rat)
deriving DecidableEq

/-- 2^e for any integer e. -/
def pow2 (e : Int) : Rat := if 0 ≤ e then ((2 ^ e.toNat : Nat) : Rat) else 1 / ((2 ^ (-e).toNat : Nat) : Rat)

def absQ (q : Rat) : Rat := if q < 0 then -q else q

/-- ⌊log2 q⌋ for q > 0. -/
def ilog2 (q : Rat) : Int :=
  let e : Int := (Nat.log2 q.num.natAbs : Int) - (Nat.log2 q.den : Int)
  if pow2 e ≤ q then e else e - 1

/-- A rational as a datum; `neg` is the sign of a zero. -/
def FVal.ofRat (q : Rat) (neg : Bool) : FVal := if q = 0 then .zero neg else .num q

/-- The value of a magnitude code that is neither infinity nor NaN (R29). -/
def Fmt.mag (F : Fmt) (c : Nat) : Rat :=
  let e := c / 2 ^ F.mbits
  let m := c % 2 ^ F.mbits
  if e = 0 then (m : Rat) * pow2 (1 - (F.bias : Int) - F.mbits)
  else ((2 ^ F.mbits + m : Nat) : Rat) * pow2 ((e : Int) - F.bias - F.mbits)

/-- The largest finite value. -/
def Fmt.max (F : Fmt) : Rat := F.mag F.maxCode

/-- DEC of an element code (R29, R59). -/
def dec (F : Fmt) (code : Nat) : FVal :=
  let c := code % 2 ^ F.width
  let neg := decide (F.sign ≤ c)
  let m := c % F.sign
  if F.maxCode < m then (if F.hasInf ∧ m = F.infCode then .inf neg else .nan)
  else if m = 0 then .zero neg
  else .num (if neg then -F.mag m else F.mag m)

/-- Sign of a datum (false for NaN). -/
def FVal.neg : FVal → Bool
  | .nan => false
  | .inf n => n
  | .zero n => n
  | .num q => decide (q < 0)

def FVal.isNan : FVal → Bool
  | .nan => true
  | _ => false

def FVal.isInf : FVal → Bool
  | .inf _ => true
  | _ => false

/-- The rational value of a finite datum. -/
def FVal.toRat : FVal → Rat
  | .num q => q
  | _ => 0

def FVal.negate : FVal → FVal
  | .nan => .nan
  | .inf n => .inf (!n)
  | .zero n => .zero (!n)
  | .num q => .num (-q)

def FVal.abs : FVal → FVal
  | .nan => .nan
  | .inf _ => .inf false
  | .zero _ => .zero false
  | .num q => .num (absQ q)

/-! ### Rounding (R45 to R53) -/

/-- A rounding mode with what it draws on: a stochastic decision goes up where `d` < ⌊f · n⌋. -/
inductive RMode where
  | rne | rtz | rup | rdn
  | stoch (d n : Nat)
deriving DecidableEq, Repr

/-- EMBER (R50). -/
def ember (key ctr : W64) : BitVec 32 :=
  let round (p : BitVec 32 × BitVec 32) : BitVec 32 × BitVec 32 :=
    let x := p.1 * 0xA5B3_5C8D#32
    let y := p.2 + x.rotateLeft 11 + 0x5D2B_91E7#32
    let x := x ^^^ (y >>> 15)
    let y := y ^^^ x.rotateLeft 7
    (x, y)
  let k := ctr ^^^ key
  let p := round (round (round (round (k.extractLsb' 0 32, k.extractLsb' 32 32))))
  p.1 ^^^ p.2

/-- An EMBER counter (R51). -/
def emberCtr (cls stream coord : Nat) : W64 :=
  BitVec.ofNat 8 cls ++ BitVec.ofNat 8 stream ++ BitVec.ofNat 48 coord

/-- The dither value of cell (i, j) (R52). -/
def dither (i j : Nat) : Nat :=
  let a := i ^^^ j
  32 * (a % 2) + 16 * (i % 2) + 8 * (a / 2 % 2) + 4 * (i / 2 % 2) + 2 * (a / 4 % 2) + i / 4 % 2

/-- The dither decision of position n in a block of 64 elements (R52), or of 32 (R53). -/
def ditherMode (n : Nat) (half : Bool) : RMode :=
  let d := dither (n / 8 % 8) (n % 8)
  if half then .stoch (d / 2) 32 else .stoch d 64

/-- The EMBER decision (R49). -/
def emberMode (seed ctr : W64) : RMode := .stoch ((ember seed ctr).toNat / 2 ^ 8) (2 ^ 24)

/-- The mode that an RM code selects, `dyn` being FPMODE.RM (R45, R46); the counter and the position are used by the stochastic modes. -/
def modeOf (rm dyn : Nat) (seed ctr : W64) (pos : Nat) (half : Bool) : RMode :=
  let r := if rm = 6 then dyn else rm
  if r = 0 then .rne else if r = 1 then .rtz else if r = 2 then .rup else if r = 3 then .rdn
  else if r = 4 then emberMode seed ctr else ditherMode pos half

def floorN (q : Rat) : Nat := q.floor.toNat

/-- RNE_integer (R59). -/
def rneInt (q : Rat) : Int :=
  let f := q.floor
  let r := q - (f : Rat)
  if r < 1 / 2 then f else if 1 / 2 < r then f + 1 else if f % 2 = 0 then f else f + 1

/-- Whether a magnitude with integer part `lo` and fraction `f` (0 < f < 1) rounds up, its sign being `neg` (R47). -/
def roundUp (md : RMode) (neg : Bool) (lo : Nat) (f : Rat) : Bool :=
  match md with
  | .rne => decide (1 / 2 < f) || (decide (f = 1 / 2) && decide (lo % 2 = 1))
  | .rtz => false
  | .rup => !neg
  | .rdn => neg
  | .stoch d n => decide (d < floorN (f * (n : Rat)))

/-- Overflow (R48): magnitude code and flags, for a magnitude above the largest finite value. -/
def overflow (F : Fmt) (md : RMode) (sat neg : Bool) (a : Rat) : Nat × Flags :=
  if !F.hasInf then (F.maxCode, fSA ||| fNX)
  else
    let ulp := F.max - F.mag (F.maxCode - 1)
    let toInf := match md with
      | .rne => decide (F.max + ulp / 2 ≤ a)
      | .rtz => false
      | .rup => !neg
      | .rdn => neg
      | .stoch _ _ => false
    let saFlag := match md with
      | .stoch _ _ => fSA
      | _ => fOF
    if toInf then (if sat then (F.maxCode, fSA ||| fNX) else (F.infCode, fOF ||| fNX)) else (F.maxCode, saFlag ||| fNX)

/-- The code and flags of a non-zero rational rounded to a format (R47, R48). -/
def rndRat (F : Fmt) (md : RMode) (sat : Bool) (q : Rat) : Nat × Flags :=
  let neg := decide (q < 0)
  let a := absQ q
  let s := if neg then F.sign else 0
  if F.max < a then
    let r := overflow F md sat neg a
    (s + r.1, r.2)
  else
    let emin : Int := 1 - (F.bias : Int)
    let e := if ilog2 a < emin then emin else ilog2 a
    let t := a / pow2 (e - F.mbits)
    let lo := floorN t
    let f := t - (lo : Rat)
    let r := if f = 0 then lo else if roundUp md neg lo f then lo + 1 else lo
    let code := (e - emin).toNat * 2 ^ F.mbits + r
    (s + code, flagIf (decide (f ≠ 0)) (fNX ||| flagIf (decide (code < 2 ^ F.mbits)) fUF))

/-- RND (R59). -/
def rnd (F : Fmt) (md : RMode) (sat : Bool) (v : FVal) : Nat × Flags :=
  match v with
  | .nan => (F.nan, flagIf (decide (F = .e2m1)) fNV)
  | .inf n => ((if n then F.sign else 0) + F.infCode, flagIf (!F.hasInf) fSA)
  | .zero n => (if n then F.sign else 0, 0)
  | .num q => rndRat F md sat q

/-- RNE (R59). -/
def rne (F : Fmt) (v : FVal) : Nat × Flags := rnd F .rne false v

/-- A value rounded to an integer of width w under the mode; NaN, infinity and range as R56 states, NX where inexact. -/
def rndInt (md : RMode) (fs : Bool) (w : Nat) (v : FVal) : Nat × Flags :=
  match v with
  | .nan => (0, fNV)
  | .inf n => (wrapI (if n then intMin fs w else intMax fs w) w, fNV)
  | .zero _ => (0, 0)
  | .num q =>
    let a := absQ q
    let lo := floorN a
    let f := a - (lo : Rat)
    let neg := decide (q < 0)
    let m : Int := if f = 0 then lo else if roundUp md neg lo f then lo + 1 else lo
    let r := if neg then -m else m
    if r < intMin fs w then (wrapI (intMin fs w) w, fNV)
    else if intMax fs w < r then (wrapI (intMax fs w) w, fNV)
    else (wrapI r w, flagIf (decide (f ≠ 0)) fNX)

/-! ### Exact operations on data: the value and whether the operation is invalid (R31, R56) -/

/-- Product. -/
def mulV (a b : FVal) : FVal × Bool :=
  match a, b with
  | .nan, _ => (.nan, false)
  | _, .nan => (.nan, false)
  | .inf _, .zero _ => (.nan, true)
  | .zero _, .inf _ => (.nan, true)
  | .num x, .num y => (.num (x * y), false)
  | .inf n, y => (.inf (n != y.neg), false)
  | x, .inf n => (.inf (x.neg != n), false)
  | x, y => (.zero (x.neg != y.neg), false)

/-- Sum; `down` says that the rounding mode is toward −∞, which decides the sign of an exact zero (R31). -/
def addV (down : Bool) (a b : FVal) : FVal × Bool :=
  match a, b with
  | .nan, _ => (.nan, false)
  | _, .nan => (.nan, false)
  | .inf m, .inf n => if m = n then (.inf m, false) else (.nan, true)
  | .inf m, _ => (.inf m, false)
  | _, .inf n => (.inf n, false)
  | .zero m, .zero n => (.zero (if m = n then m else down), false)
  | .zero _, y => (y, false)
  | x, .zero _ => (x, false)
  | .num x, .num y => (FVal.ofRat (x + y) down, false)

/-- Exact sum of a list: infinities of both signs are invalid, beside a NaN term too; a NaN term gives NaN, an exact zero is −0 only where every term is −0
(R192, R203, R222). -/
def sumV (ts : List FVal) : FVal × Bool :=
  let pinf := ts.any fun t => decide (t = .inf false)
  let ninf := ts.any fun t => decide (t = .inf true)
  if pinf && ninf then (.nan, true)
  else if ts.any FVal.isNan then (.nan, false)
  else if pinf then (.inf false, false)
  else if ninf then (.inf true, false)
  else
    let q := ts.foldl (fun acc t => acc + t.toRat) 0
    if q = 0 then (.zero (!ts.isEmpty && ts.all fun t => decide (t = .zero true)), false) else (.num q, false)

/-- a < b on data that are not NaN; −0 and +0 are equal. -/
def ltV (a b : FVal) : Bool :=
  match a, b with
  | .inf m, .inf n => m && !n
  | .inf m, _ => m
  | _, .inf n => !n
  | x, y => decide (x.toRat < y.toRat)

/-- The total order of minimum and maximum: −0 below +0 (R31). -/
def ordLt (a b : FVal) : Bool :=
  match a, b with
  | .zero m, .zero n => m && !n
  | _, _ => ltV a b

/-- IEEE minimum or maximum (R177, XS = 0). -/
def minmaxV (mx : Bool) (a b : FVal) : FVal :=
  if a.isNan || b.isNan then .nan else if (if mx then ordLt a b else ordLt b a) then b else a

/-- minimumNumber or maximumNumber (R177, XS = 1). -/
def minmaxNumV (mx : Bool) (a b : FVal) : FVal :=
  if a.isNan then b else if b.isNan then a else if (if mx then ordLt a b else ordLt b a) then b else a

/-- RNE(p + q) on codes. -/
def addCode (F : Fmt) (p q : Nat) : Nat × Flags :=
  let r := addV false (dec F p) (dec F q)
  let c := rne F r.1
  (c.1, c.2 ||| flagIf r.2 fNV)

/-- RNE(p · q) on FP32 codes. -/
def mulCode (p q : Nat) : Nat × Flags :=
  let r := mulV (dec .fp32 p) (dec .fp32 q)
  let c := rne .fp32 r.1
  (c.1, c.2 ||| flagIf r.2 fNV)

/-! ### The tree of R190 -/

/-- One level: neighbours are combined, an odd last value passes. -/
def treeLevel (op : Nat → Nat → Nat × Flags) : List Nat → List Nat × Flags
  | [] => ([], 0)
  | [x] => ([x], 0)
  | x :: y :: r =>
    let v := op x y
    let t := treeLevel op r
    (v.1 :: t.1, v.2 ||| t.2)

/-- T (R190), with enough levels for `fuel` halvings. -/
def tree (op : Nat → Nat → Nat × Flags) : Nat → List Nat → Nat × Flags
  | 0, xs => (xs.headD 0, 0)
  | n + 1, xs =>
    if xs.length ≤ 1 then (xs.headD 0, 0)
    else
      let l := treeLevel op xs
      let t := tree op n l.1
      (t.1, l.2 ||| t.2)

/-! ### Format attributes, scales and blocks (R33 to R41, R57, R58) -/

/-- Code [3:0] of an attribute. -/
def attrCode (a : BitVec 5) : Nat := a.toNat % 16

/-- Tile scales present. -/
def attrT (a : BitVec 5) : Bool := a.getLsbD 4

/-- Codes 0x10 to 0x1A are reserved (R39). -/
def attrReserved (a : BitVec 5) : Bool := attrT a && decide (attrCode a < 0xB)

def attrBlock (a : BitVec 5) : Bool := decide (0xB ≤ attrCode a)

def attrInt (a : BitVec 5) : Bool := decide (7 ≤ attrCode a) && decide (attrCode a ≤ 0xA) && !attrT a

def attrFloat (a : BitVec 5) : Bool := decide (1 ≤ attrCode a) && decide (attrCode a ≤ 6) && !attrT a

/-- Raw bytes: a circular buffer with this attribute is open (R42). -/
def attrRaw (a : BitVec 5) : Bool := decide (a = 0)

/-- Element size in bits (R39); 8 for raw bytes. -/
def attrBits (a : BitVec 5) : Nat :=
  match attrCode a with
  | 1 => 4 | 2 => 8 | 3 => 8 | 4 => 16 | 5 => 16 | 6 => 32 | 7 => 4 | 8 => 8 | 9 => 16 | 10 => 32
  | 0xB => 4 | 0xC => 8 | 0xD => 8 | 0xE => 4 | 0xF => 8 | _ => 8

/-- Element format of a float or block attribute. -/
def attrFmt (a : BitVec 5) : Fmt :=
  match attrCode a with
  | 1 => .e2m1 | 2 => .e4m3 | 3 => .e5m2 | 4 => .bf16 | 5 => .fp16 | 6 => .fp32
  | 0xB => .e2m1 | 0xC => .e4m3 | 0xD => .e5m2 | 0xE => .e2m1 | _ => .e4m3

/-- Q4 and Q8 carry S12 scales. -/
def attrS12 (a : BitVec 5) : Bool := decide (0xE ≤ attrCode a)

/-- Elements per block (R35). -/
def attrBs (a : BitVec 5) : Nat := if attrS12 a then 64 else 32

/-- Element bytes per block. -/
def attrEb (a : BitVec 5) : Nat := attrBs a * attrBits a / 8

/-- Scale bytes per block. -/
def attrSb (a : BitVec 5) : Nat := if attrS12 a then 2 else 1

/-- Rounds up to a multiple of 64. -/
def up64 (n : Nat) : Nat := (n + 63) / 64 * 64

def ceilDiv (a b : Nat) : Nat := (a + b - 1) / b

/-- Bytes of an entry that holds k blocks under R41. -/
def blockBytes (a : BitVec 5) (k : Nat) : Nat :=
  let e := up64 (k * attrEb a) + k * attrSb a
  if attrT a then up64 e + 64 else e

/-- The largest k ≤ `fuel` whose entry fits in `size` (R167). -/
def blocksFit (a : BitVec 5) (size : Nat) : Nat → Nat
  | 0 => 0
  | n + 1 => if blockBytes a (n + 1) ≤ size then n + 1 else blocksFit a size n

/-- Blocks per entry (R167). -/
def blocksPer (a : BitVec 5) (size : Nat) : Nat := blocksFit a size (size / attrEb a)

/-- Entry offset of the scales. -/
def scaleOff (a : BitVec 5) (k : Nat) : Nat := up64 (k * attrEb a)

/-- Entry offset of the tile scales. -/
def tileOff (a : BitVec 5) (k : Nat) : Nat := up64 (scaleOff a k + k * attrSb a)

/-- DEC of a scale code (R33, R34). -/
def decScale (a : BitVec 5) (code : Nat) : FVal :=
  if attrS12 a then
    let c : Nat := code % 2 ^ 12
    let e : Nat := c / 16
    let m : Nat := c % 16
    if e = 255 then .nan
    else if e = 0 then FVal.ofRat ((m : Rat) * pow2 (-130)) false
    else .num (((16 + m : Nat) : Rat) * pow2 ((e : Int) - 131))
  else
    let c := code % 256
    if c = 255 then .nan else .num (pow2 ((c : Int) - 127))

/-- The canonical NaN scale code. -/
def nanScale (a : BitVec 5) : Nat := if attrS12 a then 0xFFF else 0xFF

/-- DEC of an element under its scale (R37). -/
def decElem (a : BitVec 5) (q s : Nat) : FVal :=
  match decScale a s, dec (attrFmt a) q with
  | .nan, _ => .nan
  | _, .nan => .nan
  | .zero _, x => .zero x.neg
  | .num sv, .num x => .num (sv * x)
  | _, x => x

/-- The smallest S12 code with value at least v (v > 0), or 0xFEF (R57). -/
def s12Up (v : Rat) : Nat :=
  if (31 : Rat) / 16 * pow2 127 < v then 0xFEF
  else
    let e := ilog2 v
    if e < -126 then (v / pow2 (-130)).ceil.toNat
    else (e + 127).toNat * 16 + ((v / pow2 (e - 4)).ceil.toNat - 16)

/-- Scale choice (R57) for the exact values of a block. -/
def chooseScale (a : BitVec 5) (xs : List FVal) : Nat × Flags :=
  if xs.any fun x => x.isNan || x.isInf then (nanScale a, fNV)
  else
    let amax := xs.foldl (fun m x => if m < absQ x.toRat then absQ x.toRat else m) 0
    if amax = 0 then (0, 0)
    else if attrS12 a then (s12Up (amax / (attrFmt a).max), 0)
    else
      let ee : Int := match attrFmt a with
        | .e2m1 => 2
        | .e4m3 => 8
        | _ => 15
      ((clampI (ilog2 amax - ee + 127) 0 254).toNat, 0)

/-- Encoding of one element under a scale (R58). -/
def encElem (a : BitVec 5) (s : Nat) (md : RMode) (x : FVal) : Nat × Flags :=
  let F := attrFmt a
  match decScale a s, x with
  | .nan, _ => (0, 0)
  | _, .nan => (0, fNV)
  | .zero _, x => (if x.neg then F.sign else 0, 0)
  | _, .inf n => ((if n then F.sign else 0) + F.maxCode, fSA)
  | .num sv, .num q =>
    if F.max < absQ (q / sv) then ((if q / sv < 0 then F.sign else 0) + F.maxCode, fSA ||| fNX) else rnd F md true (.num (q / sv))
  | _, x => (if x.neg then F.sign else 0, 0)

/-- x / τ for a finite non-zero tile scale. -/
def divV (x : FVal) (tau : Rat) : FVal :=
  match x with
  | .num q => .num (q / tau)
  | .inf n => .inf (n != decide (tau < 0))
  | .zero n => .zero (n != decide (tau < 0))
  | .nan => .nan

/-! ### Packed elements (R36, R78) -/

/-- Element n of width w bits (4, 8, 16, 32 or 64) of a byte list: nibbles low first, the rest little-endian. -/
def getElem (w : Nat) (bs : List Byte) (n : Nat) : Nat :=
  if w = 4 then ((bs.getD (n / 2) 0).toNat / (if n % 2 = 0 then 1 else 16)) % 16
  else (List.range (w / 8)).foldr (fun i acc => (bs.getD (n * (w / 8) + i) 0).toNat + 256 * acc) 0

/-- The bytes of a number, least significant first. -/
def leBytes (n v : Nat) : List Byte := (List.range n).map fun i => BitVec.ofNat 8 (v / 256 ^ i)

/-- The number that bytes make, least significant first. -/
def leNat (bs : List Byte) : Nat := bs.foldr (fun b acc => b.toNat + 256 * acc) 0

/-- Packs elements of w bits into bytes; a last half byte is filled with 0. -/
def packElems (w : Nat) : List Nat → List Byte
  | [] => []
  | [x] => if w = 4 then [BitVec.ofNat 8 (x % 16)] else leBytes (w / 8) x
  | x :: y :: r => if w = 4 then BitVec.ofNat 8 (x % 16 + 16 * (y % 16)) :: packElems w r
                   else leBytes (w / 8) x ++ leBytes (w / 8) y ++ packElems w r

/-- A byte list cut or zero-filled to n bytes. -/
def padTo (n : Nat) (bs : List Byte) : List Byte := bs.take n ++ List.replicate (n - bs.length) 0

end Sys2Proof.Machine
end

