-- ==== Sys2Proof/Machine/Ops.lean ====
section
/-! DEFINITION. The named operations over the state that the meanings share: cores and engines, slice files, memory bytes, flags,
system registers, circular buffers, beads, claims, reports, and taking a fault, trap or detected error. -/

namespace Sys2Proof.Machine

open Sys2Proof

/-! ### Cores and engines -/

/-- Core `c`; a core that nothing has changed is as after reset. -/
def State.core (s : State) (c : Nat) : Core := (SMap.find s.cores c).getD (Core.reset c)

def State.setCore (s : State) (c : Nat) (k : Core) : State := { s with cores := SMap.put s.cores c k }

def State.modCore (s : State) (c : Nat) (f : Core → Core) : State := s.setCore c (f (s.core c))

/-- Engine at a tag of a core. -/
def Core.engine (k : Core) (t : Nat) : Engine := (SMap.find k.eng t).getD Engine.reset

def Core.setEngine (k : Core) (t : Nat) (e : Engine) : Core := { k with eng := SMap.put k.eng t e }

def Core.modEngine (k : Core) (t : Nat) (f : Engine → Engine) : Core := k.setEngine t (f (k.engine t))

def State.modEngine (s : State) (c t : Nat) (f : Engine → Engine) : State := s.modCore c fun k => k.modEngine t f

/-- Tags of the engines present on a core type, in ring order (R16, R17). -/
def tagsOf : CoreType → List Nat
  | .m => [0, 1, 2, 3, 4, 6]
  | .v => [0, 1, 2, 3, 6]
  | .g => [0, 1, 2, 3, 6]
  | .b => [0, 1, 2, 6]

def hasTag (ct : CoreType) (t : Nat) : Bool := (tagsOf ct).contains t

/-- The neighbour at the next higher tag, wrapping (R84). -/
def nextTag (ct : CoreType) (t : Nat) : Nat := ((tagsOf ct).find? fun u => decide (t < u)).getD 0

/-- The neighbour at the next lower tag, wrapping. -/
def prevTag (ct : CoreType) (t : Nat) : Nat := ((tagsOf ct).reverse.find? fun u => decide (u < t)).getD 6

/-- Die slot of a core (R12). -/
def slotOfCore (c : Nat) : Nat :=
  if c < 128 then c / 8 + 9 else if c < 192 then (c - 128) / 8 + 25 else if c < 224 then (c - 192) / 8 + 33 else (c - 224) / 4 + 1

/-- Divisor of an engine, from CKD (R126). -/
def Core.div (k : Core) (t : Nat) : Nat := bitsN k.ckd.toNat (4 * t) 4

/-- The registers of a core that VE, NE and QE operands name are the lane files (R60). -/
def laneEngine (c t : Nat) : Bool := decide (coreType c = .v) && decide (1 ≤ t) && decide (t ≤ 3)

/-- Slices of the file an engine names (R60). -/
def fileSize (lane : Bool) : Nat := if lane then 24576 else 8192

/-! ### Slices, windows, predicates -/

/-- The value of `w` slices of a file from slice `start` (R59, slice()). -/
def rdSlices (m : SMap Slice) (start : Nat) : Nat → Nat
  | 0 => 0
  | w + 1 => (SMap.get 0 m start).toNat + 16 * rdSlices m (start + 1) w

/-- Writes `w` slices (R64). -/
def wrSlices (m : SMap Slice) (start : Nat) : Nat → Nat → SMap Slice
  | 0, _ => m
  | w + 1, v => wrSlices (SMap.set 0 m start (BitVec.ofNat 4 v)) (start + 1) w (v / 16)

/-- Slice 0 of a lane's file in the map of all lanes. -/
def laneBase (l : Nat) : Nat := l * 24576

/-- Window register w of a tag (R61). -/
def Core.window (k : Core) (t w : Nat) : Nat := (SMap.get 0 k.win (4 * t + w)).toNat

def Core.setWindow (k : Core) (t w : Nat) (v : BitVec 15) : Core := { k with win := SMap.set 0 k.win (4 * t + w) v }

/-- Absolute start slice of an operand (R62). -/
def Core.startOf (k : Core) (t : Nat) (o : Slot) : Nat := k.window t o.win.toNat + o.off.toNat

/-- Per-lane predicate pi, one bit per lane (R76). -/
def Core.vpredOf (k : Core) (i : Nat) : W64 := SMap.get 0 k.vpred i

def Core.setVpred (k : Core) (i : Nat) (v : W64) : Core := { k with vpred := SMap.set 0 k.vpred i v }

def Core.predBit (k : Core) (i : Nat) : Bool := k.pred.getLsbD i

/-- Writes one scalar predicate. -/
def Core.setPred (k : Core) (i : Nat) (b : Bool) : Core :=
  { k with pred := if b then k.pred ||| (1#16 <<< i) else k.pred &&& ~~~(1#16 <<< i) }

def Core.btOf (k : Core) (i : Nat) : BitVec 32 := SMap.get 0 k.bt i

def Core.lcOf (k : Core) (i : Nat) : BitVec 32 := SMap.get 0 k.lc i

/-! ### Groups and time -/

def State.group (s : State) (g : Nat) : Option Group := s.groups.find? fun x => decide (x.num = g)

/-- The group of a core, if it belongs to one. -/
def State.groupOf (s : State) (c : Nat) : Option Group :=
  match (s.core c).grp with
  | some g => s.group g
  | none => none

def State.modGroup (s : State) (g : Nat) (f : Group → Group) : State :=
  { s with groups := s.groups.map fun x => if x.num = g then f x else x }

/-- Reckoner value of a core's group. -/
def State.reckOf (s : State) (c : Nat) : Nat :=
  match s.groupOf c with
  | some g => g.reck
  | none => 0

/-- Segment tick (R269); 0 in a seam. -/
def State.segTick (s : State) (c : Nat) : Nat :=
  match (s.core c).seg with
  | some g => s.reckOf c - g.openAt
  | none => 0

/-- The C-die register at an offset. -/
def State.cregOf (s : State) (off : Nat) : W64 := SMap.get (cregReset off) s.creg off

def State.setCreg (s : State) (off : Nat) (v : W64) : State := { s with creg := SMap.set (cregReset off) s.creg off v }

/-- STATUS of a die slot in MIX (R13). -/
def State.dieStatus (s : State) (slot : Nat) : Nat := bitsN (s.cregOf (0x40 + 8 * (slot / 8))).toNat (8 * (slot % 8) + 3) 2

def State.dieGood (s : State) (slot : Nat) : Bool := decide (s.dieStatus slot = 0)

/-- HBMCAP in bytes (R287, R416). -/
def State.hbmCap (s : State) : Nat := (s.cregOf 0x210).toNat * 2 ^ 30

/-- The module's own ID (R381). -/
def State.modId (s : State) : Nat := bitsN (s.cregOf 0x340).toNat 0 8

/-- A fresh operation number. -/
def State.addFlight (s : State) (f : Flight) : State :=
  { s with flights := s.flights ++ [{ f with id := s.nextId }], nextId := s.nextId + 1 }

def State.flight (s : State) (id : Nat) : Option Flight := s.flights.find? fun f => decide (f.id = id)

def State.dropFlight (s : State) (id : Nat) : State := { s with flights := s.flights.filter fun f => decide (f.id ≠ id) }

/-! ### Flags (R54) -/

/-- Flags raised by an instruction, effective at its commit tick. -/
def Core.raise (k : Core) (tick : Nat) (f : Flags) : Core :=
  if f = 0 then k else { k with flagq := SMap.put k.flagq tick (SMap.get 0 k.flagq tick ||| BitVec.ofNat 32 f) }

/-- FLAGS as it reads at a tick. -/
def Core.flagsAt (k : Core) (tick : Nat) : BitVec 32 :=
  k.flagq.foldl (fun acc p => if p.1 ≤ tick then acc ||| p.2 else acc) k.flags

/-- Takes the flags due up to a tick into FLAGS. -/
def Core.settleFlags (k : Core) (tick : Nat) : Core :=
  { k with flags := k.flagsAt tick, flagq := k.flagq.filter fun p => decide (tick < p.1) }

/-! ### Pseudo-channels (R415, R416) -/

def isHbm (pa : Nat) : Bool := decide (pa % 2 ^ 44 < 2 ^ 40)

/-- PCSTATE of a pseudo-channel. -/
def State.pcState (s : State) (ch : Nat) : Nat := bitsN (s.cregOf (0x400 + 8 * (ch / 32))).toNat (2 * (ch % 32)) 2

def State.setPcState (s : State) (ch v : Nat) : State :=
  let off := 0x400 + 8 * (ch / 32)
  let w := (s.cregOf off).toNat
  s.setCreg off (BitVec.ofNat 64 (w - bitsN w (2 * (ch % 32)) 2 * 2 ^ (2 * (ch % 32)) + v * 2 ^ (2 * (ch % 32))))

/-- The pseudo-channels that are not DROPPED, ascending (R415). -/
def State.liveChans (s : State) : List Nat := (List.range 1024).filter fun c => decide (s.pcState c ≠ 3)

/-- The pseudo-channel that holds an HBM offset (R415). While none is dropped, stripe k lies in channel k mod 1,024. -/
def State.chanOf (s : State) (off : Nat) : Nat :=
  let n := (s.cregOf 0x210).toNat
  if n = 1024 then off / 4096 % 1024 else s.liveChans.getD (off / 4096 % n) 0

/-- Whether any pseudo-channel is LOST. -/
def State.anyLost (s : State) : Bool :=
  s.creg.any fun p => decide (0x400 ≤ p.1 ∧ p.1 < 0x500) && (List.range 32).any fun i => decide (bitsN p.2.toNat (2 * i) 2 = 2)

/-- Whether a PA lies in a LOST pseudo-channel, whose writes are discarded. -/
def State.lostPa (s : State) (pa : Nat) : Bool :=
  isHbm pa && decide (pa / 2 ^ 44 = s.modId) && decide (s.pcState (s.chanOf (pa % 2 ^ 44)) = 2)

/-- The first byte of a span of HBM that lies in a LOST pseudo-channel. -/
def State.lostIn (s : State) (pa n : Nat) : Option Nat :=
  if s.anyLost then ((List.range ((pa % 4096 + n + 4095) / 4096)).map fun i => max pa ((pa / 4096 + i) * 4096)).find? fun a => s.lostPa a else none

/-! ### Memory bytes (R4, R286, R287) -/

/-- The byte at a physical address; a byte that nothing has written reads 0 (log entry 4). -/
def rdByte (m : List Host.Cell) (a : Nat) : Byte := SMap.get 0 m a

def wrByte (m : List Host.Cell) (a : Nat) (b : Byte) : List Host.Cell := SMap.set 0 m a b

/-- Bytes of memory from an address up. -/
def rdBytes (m : List Host.Cell) (a n : Nat) : List Byte := (List.range n).map fun i => rdByte m (a + i)

/-- Writes consecutive bytes. -/
def wrBytes (m : List Host.Cell) (a : Nat) : List Byte → List Host.Cell
  | [] => m
  | b :: r => wrBytes (wrByte m a b) (a + 1) r

/-- Writes cells in order. -/
def wrCells (m : List Host.Cell) : List Host.Cell → List Host.Cell
  | [] => m
  | (a, b) :: r => wrCells (wrByte m a b) r

/-- Memory in canonical form. -/
def memWf (m : List Host.Cell) : Bool := SMap.wf (0 : Byte) m

/-- A little-endian number of n bytes. -/
def rdLe (m : List Host.Cell) (a n : Nat) : Nat := leNat (rdBytes m a n)

/-- The nibble at a nibble address. -/
def rdNib (m : List Host.Cell) (na : Nat) : Slice :=
  let b := rdByte m (na / 2)
  if na % 2 = 0 then b.extractLsb' 0 4 else b.extractLsb' 4 4

def wrNib (m : List Host.Cell) (na : Nat) (v : Slice) : List Host.Cell :=
  let b := rdByte m (na / 2)
  wrByte m (na / 2) (if na % 2 = 0 then b.extractLsb' 4 4 ++ v else v ++ b.extractLsb' 0 4)

def wrNibs (m : List Host.Cell) : List (Nat × Slice) → List Host.Cell
  | [] => m
  | (a, v) :: r => wrNibs (wrNib m a v) r

/-- First byte of the check unit that holds an address, and its length (R408, R411): 64 bytes in HBM, 8 elsewhere. -/
def unitOf (pa : Nat) : Nat × Nat :=
  if pa % 2 ^ 44 < 2 ^ 40 then (pa / 64 * 64, 64) else (pa / 8 * 8, 8)

/-- What a write of `n` bytes at an address does to ECC marks (R411): a unit written whole is good again, one written partly is left
poisoned where it was uncorrectable. -/
def eccWrite (e : SMap EccMark) (a n : Nat) : SMap EccMark :=
  e.filterMap fun p =>
    let u := unitOf p.1
    if u.1 + u.2 ≤ a ∨ a + n ≤ u.1 then some p
    else if a ≤ u.1 ∧ u.1 + u.2 ≤ a + n then none
    else match p.2 with
      | .uncorrectable => some (p.1, .poisoned)
      | .poisoned => some (p.1, .poisoned)
      | _ => none

/-- Stores bytes at a physical address; they lie in one pseudo-channel where it is in HBM. -/
def State.store (s : State) (a : Nat) (bs : List Byte) : State :=
  if s.anyLost && s.lostPa a then s else { s with mem := wrBytes s.mem a bs, ecc := eccWrite s.ecc a bs.length }

/-- What a write of the bytes that `hit` selects does to ECC marks (R411). -/
def eccHits (e : SMap EccMark) (hit : Nat → Bool) : SMap EccMark :=
  e.filterMap fun p =>
    let bs := (List.range (unitOf p.1).2).map fun i => hit ((unitOf p.1).1 + i)
    if bs.all id then none
    else if bs.any id then
      (match p.2 with
       | .uncorrectable | .poisoned => some (p.1, .poisoned)
       | _ => none)
    else some p

/-- Stores cells in order. -/
def State.storeCells (s : State) (ws : List Host.Cell) : State :=
  let ws := if s.anyLost then ws.filter fun w => !s.lostPa w.1 else ws
  { s with mem := wrCells s.mem ws, ecc := eccHits s.ecc fun a => ws.any fun w => decide (w.1 = a) }

/-- Stores nibbles in order. -/
def State.storeNibs (s : State) (ns : List (Nat × Slice)) : State :=
  let ns := if s.anyLost then ns.filter fun w => !s.lostPa (w.1 / 2) else ns
  { s with mem := wrNibs s.mem ns, ecc := eccHits s.ecc fun a => ns.any fun w => decide (w.1 / 2 = a) }

/-! ### Trace records (R430) -/

/-- Writes a trace record to the ring, or marks it dropped when the ring is full. `core` and `tag` are 0xFF for a whole group. -/
def State.trace (s : State) (kind g core tag a b : Nat) : State :=
  let ctl := (s.cregOf 0x650).toNat
  if bitN ctl 0 then
    let size := 2 ^ (bitsN ctl 2 4 + 8)
    let tail := bitsN ctl 32 32
    let head := bitsN (s.cregOf 0x658).toNat 0 32
    if (tail + 2 ^ 32 - head) % 2 ^ 32 = size then s.setCreg 0x650 (BitVec.ofNat 64 ctl ||| 2#64)
    else
      let reck := (s.group g).elim 0 fun x => x.reck
      let rec32 := leBytes 8 s.time ++ leBytes 4 reck ++ leBytes 1 kind ++ leBytes 1 g ++ leBytes 1 core ++ leBytes 1 tag ++
        leBytes 8 a ++ leBytes 8 b
      let s := s.store (bitsN (s.cregOf 0x648).toNat 0 52 + tail % size * 32) rec32
      s.setCreg 0x650 (BitVec.ofNat 64 (ctl % 2 ^ 32 + (tail + 1) % 2 ^ 32 * 2 ^ 32))
  else s

/-! ### Pause claims (R281, R282) -/

/-- Adds a pause claim; slots (sources 0 to 2) are not traced. Several corrections of one tick claim one freeze (R410). -/
def State.claim (s : State) (g src : Nat) (till : Option Nat) : State :=
  if till.isSome && (s.group g).elim false fun x => x.claims.contains { src := src, till := till } then s else
  let s := s.modGroup g fun x => { x with claims := x.claims ++ [{ src := src, till := till }] }
  if 3 ≤ src then s.trace 4 g 0xFF 0xFF src 0 else s

/-- Ends one claim of a source on a group. -/
def State.unclaimOne (s : State) (g src : Nat) : State :=
  match s.group g with
  | none => s
  | some x =>
    match x.claims.findIdx? fun c => decide (c.src = src) with
    | none => s
    | some i =>
      let s := s.modGroup g fun y => { y with claims := y.claims.eraseIdx i }
      if 3 ≤ src then s.trace 5 g 0xFF 0xFF src 0 else s

/-- Ends every claim of a source on a group. -/
def State.unclaim (s : State) (g src : Nat) : State :=
  if ((s.group g).elim false fun x => x.claims.any fun c => decide (c.src = src)) then
    let s := s.modGroup g fun x => { x with claims := x.claims.filter fun c => decide (c.src ≠ src) }
    if 3 ≤ src then s.trace 5 g 0xFF 0xFF src 0 else s
  else s

/-! ### Typed buffers and the local window (R18, R21) -/

/-- PA of a core's window slot. -/
def State.slotPa (s : State) (c : Nat) : Nat := s.modId * 2 ^ 44 + 0x0400_0000_0000 + c * 0x1000_0000

/-- Offset in the slot and size of a buffer space (R110, R21) on a core type, if it has it; accumulator memory has two banks. -/
def bufOf (ct : CoreType) (space : Nat) : Option (Nat × Nat) :=
  match ct, space with
  | .m, 0 => some (0, 4 * 2 ^ 20)
  | .m, 1 => some (0x0100_0000, 6 * 2 ^ 20)
  | .m, 2 => some (0x0200_0000, 512 * 2 ^ 10)
  | .v, 3 => some (0, 4 * 2 ^ 20)
  | .g, 4 => some (0, 2 * 2 ^ 20)
  | .g, 5 => some (0x0100_0000, 2 ^ 20)
  | .b, 6 => some (0, 32 * 2 ^ 20)
  | _, _ => none

/-- PA of byte `x` of a core's buffer. -/
def State.bufPa (s : State) (c space x : Nat) : Nat :=
  s.slotPa c + (match bufOf (coreType c) space with
    | some p => p.1
    | none => 0) + x

/-- VA-free local-window address of the same byte, which protected ranges of native writes are compared with (R196, R311). -/
def winAddr (c space x : Nat) : Nat :=
  0x0400_0000_0000 + c * 0x1000_0000 + (match bufOf (coreType c) space with
    | some p => p.1
    | none => 0) + x

/-! ### Circular buffers (R166) -/

def Core.cbOf (k : Core) (i : Nat) : Cb := (SMap.find k.cb i).getD Cb.none

def Core.setCb (k : Core) (i : Nat) (b : Cb) : Core := { k with cb := SMap.put k.cb i b }

def Core.modCb (k : Core) (i : Nat) (f : Cb → Cb) : Core := k.setCb i (f (k.cbOf i))

def Cb.configured (b : Cb) : Bool := decide (b.ents ≠ 0)

/-- Occupancy. -/
def Cb.occ (b : Cb) : Nat := (b.prod - b.cons).toNat

/-- Free entries, less reservations, as they stand at the end of the tick before `T` (R255, R278). -/
def Cb.room (b : Cb) (T : Nat) : Nat := b.ents - b.occ - (b.resv.filter fun r => decide (r.tick < T)).length

/-- Entries that are not occupied. -/
def Cb.freeEnts (b : Cb) : Nat := b.ents - b.occ

/-- Buffer offset of entry `i`. -/
def Cb.entry (b : Cb) (i : Nat) : Nat := b.base + i % b.ents * b.size

/-- The slot a producer writes: PROD + R (R255). -/
def Cb.slot (b : Cb) : Nat := (b.prod + BitVec.ofNat 32 b.resv.length).toNat

/-- Completes reservation `id` and makes the advances that are then due, in reservation order (R255). -/
def Cb.finishResv (b : Cb) (id : Nat) : Cb :=
  let rs := b.resv.map fun r => if r.id = id then { r with done := true } else r
  let done := rs.takeWhile fun r => r.done
  { b with prod := b.prod + BitVec.ofNat 32 (done.filter fun r => r.adv).length, resv := rs.drop done.length }

/-! ### Beads (R84 to R88) -/

/-- A bead that an engine of epoch `ep` can take at `tick`: none to take, or the head's epoch. -/
def BeadQ.ready (q : BeadQ) (tick : Nat) : Bool :=
  match q.q with
  | b :: _ => decide (b.tick < tick)
  | [] => false

def BeadQ.headEpoch (q : BeadQ) : Bool :=
  match q.q with
  | b :: _ => b.epoch
  | [] => false

def BeadQ.take (q : BeadQ) (tick : Nat) : BeadQ :=
  { q := q.q.drop 1, freedAt := tick, freed := if q.freedAt = tick then q.freed + 1 else 1 }

/-- Room for an add at `tick`: a slot freed in this tick is not yet free. -/
def BeadQ.room (q : BeadQ) (tick : Nat) : Bool := decide (q.q.length + (if q.freedAt = tick then q.freed else 0) < 8)

def BeadQ.add (q : BeadQ) (ep : Bool) (tick : Nat) : BeadQ := { q with q := q.q ++ [{ epoch := ep, tick := tick }] }

/-- Whether the adds SP and SN of an engine have room. -/
def Core.beadRoom (k : Core) (ct : CoreType) (t tick : Nat) (sp sn : Bool) : Bool :=
  (!sp || (k.engine (prevTag ct t)).inNext.room tick) && (!sn || (k.engine (nextTag ct t)).inPrev.room tick)

/-- Makes the adds SP and SN. -/
def Core.beadAdd (k : Core) (ct : CoreType) (t tick : Nat) (sp sn : Bool) : Core :=
  let ep := (k.engine t).epoch
  let k := if sp then k.modEngine (prevTag ct t) fun e => { e with inNext := e.inNext.add ep tick } else k
  if sn then k.modEngine (nextTag ct t) fun e => { e with inPrev := e.inPrev.add ep tick } else k

/-- The takes WP and WN: whether both queues hold a bead that can be taken. -/
def Engine.beadReady (e : Engine) (tick : Nat) (wp wn : Bool) : Bool := (!wp || e.inPrev.ready tick) && (!wn || e.inNext.ready tick)

/-- Whether the beads to be taken are of the engine's epoch (R88). -/
def Engine.beadEpoch (e : Engine) (wp wn : Bool) : Bool :=
  (!wp || decide (e.inPrev.headEpoch = e.epoch)) && (!wn || decide (e.inNext.headEpoch = e.epoch))

def Engine.beadTake (e : Engine) (tick : Nat) (wp wn : Bool) : Engine :=
  { e with inPrev := if wp then e.inPrev.take tick else e.inPrev, inNext := if wn then e.inNext.take tick else e.inNext }

/-! ### Reports: fault records, completion entries (R351, R420 to R422) -/

def Cause.code : Cause → Nat
  | .illegalEncoding => 0x01 | .engineAbsent => 0x02 | .illegalInstruction => 0x03 | .illegalOperand => 0x04 | .bufferAccess => 0x05
  | .format => 0x06 | .windowStraddle => 0x07 | .windowHole => 0x08 | .coreAbsent => 0x09 | .addressHole => 0x0A | .alignment => 0x0B
  | .segmentLegality => 0x0C | .loopNest => 0x0D | .tagBusy => 0x0E | .planeState => 0x0F | .copyOverlap => 0x10 | .bufferRange => 0x11
  | .schedule => 0x12 | .race => 0x13 | .sharing => 0x14 | .translation => 0x15 | .protection => 0x16 | .page => 0x17
  | .revokedRange => 0x18 | .footprint => 0x19 | .arithTrap => 0x20 | .systemTrap => 0x21 | .pushEarly => 0x22 | .pushLate => 0x23
  | .ueSram => 0x30 | .ueHbm => 0x31 | .ueHost => 0x32 | .linkCrc => 0x33 | .fabricFlit => 0x34 | .checkMismatch => 0x35
  | .collMismatch => 0x36 | .controlWord => 0x37 | .moduleDeparted => 0x38 | .dieLost => 0x39 | .remoteMap => 0x3A

/-- CLASS: 1 fault, 2 trap, 3 detected error (R420). -/
def Cause.cls (c : Cause) : Nat := if c.code < 0x20 then 1 else if c.code < 0x30 then 2 else 3

/-- A charge: the core and engine, the cause and its INFO, and the word that is charged where it is not the one at the engine's pc. -/
structure Charge where
  core : Nat
  tag : Nat
  cause : Cause
  info : W64
  pc : Option Nat := none
deriving DecidableEq, Repr

/-- FREC of the charged core (R420, R422); FREC2 is kept. Of two charges in one tick the record holds the one of lower class, then of
lower code. -/
def State.writeFrec (s : State) (ch : Charge) : State :=
  let k := s.core ch.core
  let old := (SMap.get 0 k.frec 0).toNat
  let rank (cls code : Nat) : Nat := cls * 256 + code
  if k.frecAt = some s.time ∧ rank (bitsN old 8 3) (bitsN old 0 8) ≤ rank ch.cause.cls ch.cause.code then s
  else
    let f0 : W64 := BitVec.ofNat 32 (ch.pc.getD (k.engine ch.tag).pc) ++ 0#4 ++ k.reent ++ BitVec.ofNat 8 ch.core ++ BitVec.ofBool k.seg.isSome ++
      BitVec.ofNat 3 ch.tag ++ 0#1 ++ BitVec.ofNat 3 ch.cause.cls ++ BitVec.ofNat 8 ch.cause.code
    let f3 : W64 := BitVec.ofNat 32 (s.segTick ch.core) ++ k.segno
    s.setCore ch.core { k with frec := SMap.set 0 (SMap.set 0 (SMap.set 0 k.frec 0 f0) 1 ch.info) 3 f3, frecAt := some s.time }

/-- HANDLE and SUB of the launch a group runs (R350, R351). -/
def State.launchRef (s : State) (g : Group) : Nat × Nat :=
  match s.graphs[g.graph]? with
  | some gr => (gr.handle, if gr.single then 0 else g.node + 1)
  | none => (0, 0)

/-- Queues a completion entry; the device writes it to the ring in a step of its own (R351). -/
def State.postCq (s : State) (e : CqEnt) : State :=
  { s with cqWait := s.cqWait ++ [e], agenda := s.agenda ++ [.completionEntryPost] }

/-- Queues a notification entry (R372). -/
def State.postNq (s : State) (e : NqEnt) : State :=
  { s with nqWait := s.nqWait ++ [e], agenda := s.agenda ++ [.notificationPost] }

/-- The first 16 bytes of a core's FREC. -/
def Core.frecBytes (k : Core) : List Byte := leBytes 8 (SMap.get 0 k.frec 0).toNat ++ leBytes 8 (SMap.get 0 k.frec 1).toNat

/-- The entry of KIND 3 or 4 that reports a stop (R354). -/
def State.postStop (s : State) (g : Group) (c : Nat) (frame : Nat) : State :=
  let k := s.core c
  let r := s.launchRef g
  let kind := if bitsN (SMap.get 0 k.frec 0).toNat 8 3 = 2 then 3 else 4
  s.postCq { ack := 0, kind := kind, status := 0, sub := r.2, handle := r.1, data := leBytes 8 g.unit ++ leBytes 8 frame ++ k.frecBytes }

/-! ### Taking a fault, trap or detected error -/

/-- How a cause ranks among those of one discard (R329; log entry 99): what ends the unit, then a kill, then a counted cause, then a fault that
stops the unit, then a replay, then a pre-emption, quota or page checkpoint. -/
def After.rank : After → Nat
  | .jobFatal => 0
  | .vanish => 1
  | .seamError => 2
  | .kill => 3
  | .counted => 4
  | .checkpoint c _ => if c = 2 then 5 else 7
  | .replay => 6

/-- The checkpoint that a discard takes beside its own outcome, where it is one that R329 keeps. -/
def Pend.asked (p : Pend) : Option (Nat × Option Nat) :=
  match p.after with
  | .checkpoint c page => if c = 2 then p.also else some (c, page)
  | _ => p.also

/-- Merges a discard into one that already stands for the same tick (R329): the one that ranks first prevails, the earlier of equals; it keeps
the pre-emption, quota or page fault of the other beside it. -/
def Pend.merge (old new : Pend) : Pend :=
  if new.after.rank < old.after.rank then { new with also := new.also.or old.asked } else { old with also := old.also.or new.asked }

/-- Sets what happens to the group at its next tick (R324). -/
def Group.setPend (g : Group) (core : Nat) (a : After) : Group :=
  let p : Pend := { tick := g.reck + 1, core := core, after := a, also := none }
  { g with pend := some (match g.pend with
      | some q => q.merge p
      | none => p) }

/-- What follows a fault, trap or error that arises in a segment (R323), or a detected error in a seam (R413). -/
def afterOf (inseg : Bool) (c : Cause) (page : Option Nat) : After :=
  if c.cls = 3 then (if inseg then .counted else .seamError)
  else match c with
    | .revokedRange => .jobFatal
    | .footprint => .jobFatal
    | .page => .checkpoint 1 page
    | _ => .checkpoint 2 none

/-- Takes a fault, trap or detected error: FREC is written on the charged core; in a segment the segment is to be discarded at the
group's next tick; a fault or trap in a seam stops the unit and holds its group, with an entry of KIND 3 or 4; a fatal fault ends the
job; a detected error in a seam ends the unit; a unit that a CANCEL drains is released where it stops (R1, R308, R323, R348, R354, R370, R413, R420 to R422). -/
def State.charge (s : State) (ch : Charge) (page : Option Nat) : State :=
  let inseg := (s.core ch.core).seg.isSome
  let s := s.writeFrec ch
  match s.groupOf ch.core with
  | none => s
  | some g =>
    let f := (s.core ch.core).frec
    let s := s.trace 8 g.num ch.core ch.tag (SMap.get 0 f 0).toNat (SMap.get 0 f 1).toNat
    let a := afterOf inseg ch.cause page
    if inseg || decide (a ≠ .checkpoint 2 none) then s.modGroup g.num fun x => x.setPend ch.core a
    else if g.held.isSome then s
    else
      let s := s.modGroup g.num fun x =>
        if x.leave = some .vanish then x.setPend ch.core .vanish else { x with held := some { core := ch.core, tag := ch.tag, cause := ch.cause, tick := g.reck } }
      s.postStop g ch.core 0

/-- The engine of the cursor raises a fault at the instruction it is about to issue: no effect of the instruction takes place. -/
def State.raise (s : State) (c : Cause) (info : W64) (page : Option Nat) : State :=
  (s.modEngine s.cur.core s.cur.tag fun e => { e with nextAt := max e.nextAt (s.reckOf s.cur.core + 1) }).charge
    { core := s.cur.core, tag := s.cur.tag, cause := c, info := info } page

/-- A detected error counted against a die (R412). -/
def State.countDie (s : State) (slot : Nat) : State :=
  let n := SMap.get 0 s.dieErr slot + 1
  let s := { s with dieErr := SMap.set 0 s.dieErr slot n }
  let dq := bitsN (s.cregOf 0x200).toNat 32 8
  if dq ≠ 0 ∧ dq ≤ n ∧ s.dieStatus slot ≠ 3 then
    { s with agenda := s.agenda ++ [.quar { seq := 0, flags := 0, job := 0, va := 0, len := 0, arg0 := slot, arg1 := 1, arg2 := 0 }] }
  else s

/-! ### System registers (R81, R229, R424) -/

/-- Bits of a NEST register that software writes (R229), by number less 0x40. -/
def nestMask (n : Nat) : W64 :=
  if n < 12 then (if n % 2 = 0 then 0xFFFF_FFFF_01FF_FFFF#64 else 0xFFFF#64)
  else if n = 12 then 0x0000_01FF_007F_FFFF#64
  else if n = 13 then 0x0000_00FF_FFFF_FFFF#64
  else 0#64

def Core.nestOf (k : Core) (n : Nat) : W64 := SMap.get 0 k.nest n

/-- NSTAT as it reads. -/
def Core.nstat (k : Core) : W64 :=
  BitVec.ofNat 32 k.passes ++ 0#23 ++ BitVec.ofBool (bitN k.passes 32) ++ BitVec.ofBool k.stoppedN ++ BitVec.ofBool k.carryok ++
  BitVec.ofBool k.wbank ++ BitVec.ofNat 2 k.plane1.st ++ BitVec.ofNat 2 k.plane0.st ++ BitVec.ofBool k.act

/-- QPOS of a tag (R424). -/
def Core.qpos (k : Core) (ct : CoreType) (t : Nat) : W64 :=
  if !hasTag ct t then 0
  else
    let e := k.engine t
    BitVec.ofBool (!k.stream.isEmpty && !k.halted) ++ 0#3 ++ BitVec.ofNat 32 e.dyn ++ BitVec.ofNat 28 e.pc

/-- Whether a system register of that number exists on the core type (R81). -/
def sysOk (ct : CoreType) (n : Nat) : Bool :=
  decide (n ≤ 4) || decide (8 ≤ n ∧ n ≤ 0xA) || decide (0x10 ≤ n ∧ n ≤ 0x14) || decide (0x18 ≤ n ∧ n ≤ 0x1A) ||
  decide (0x20 ≤ n ∧ n ≤ 0x23) || decide (0x28 ≤ n ∧ n ≤ 0x31) || (decide (0x40 ≤ n ∧ n < 0x80) && decide (ct = .m)) ||
  (decide (0x80 ≤ n ∧ n < 0xA0) && hasTag ct ((n - 0x80) / 4)) || decide (n = 0xA0) || decide (0xA8 ≤ n ∧ n ≤ 0xAB) ||
  decide (0xB0 ≤ n ∧ n ≤ 0xB7) || (decide (0xC0 ≤ n ∧ n < 0xD0) && decide (ct = .v))

/-- A system register as MFSR reads it at the core's present tick. -/
def State.sysRead (s : State) (c n : Nat) : W64 :=
  let k := s.core c
  let ct := coreType c
  if n = 0 then BitVec.ofNat 64 c
  else if n = 1 then k.tgrp.setWidth 64
  else if n = 2 then k.segno.setWidth 64
  else if n = 3 then k.reent.setWidth 64
  else if n = 4 then k.seglim.setWidth 64
  else if n = 8 then k.fpmode.setWidth 64
  else if n = 9 then (k.flagsAt (s.reckOf c)).setWidth 64
  else if n = 0xA then k.fmask.setWidth 64
  else if n = 0x10 then k.tags
  else if n = 0x11 then k.slip.setWidth 64
  else if n = 0x12 then k.seed
  else if n = 0x13 then k.ckd.setWidth 64
  else if n = 0x14 then k.pacer
  else if n = 0x18 then k.heapb
  else if n = 0x19 then k.heapl
  else if n = 0x1A then k.heapo
  else if 0x20 ≤ n ∧ n ≤ 0x23 then SMap.get 0 k.frec (n - 0x20)
  else if 0x28 ≤ n ∧ n ≤ 0x2F then k.qpos ct (n - 0x28)
  else if n = 0x30 then BitVec.ofNat 64 s.time
  else if n = 0x31 then BitVec.ofNat 64 (s.reckOf c)
  else if n = 0x4D then k.nestOf 13 ||| (if k.nestRun.isSome then 0x8000_0000_0000_0000#64 else 0)
  else if n = 0x4E then k.nstat
  else if 0x40 ≤ n ∧ n < 0x4E then k.nestOf (n - 0x40)
  else if 0x40 ≤ n ∧ n < 0x80 then 0
  else if 0x80 ≤ n ∧ n < 0xA0 then BitVec.ofNat 64 (k.window ((n - 0x80) / 4) ((n - 0x80) % 4))
  else if n = 0xA0 then k.pred.setWidth 64
  else if 0xA8 ≤ n ∧ n ≤ 0xAB then (k.lcOf (n - 0xA8)).setWidth 64
  else if 0xB0 ≤ n ∧ n ≤ 0xB7 then (k.btOf (n - 0xB0)).setWidth 64
  else if 0xC0 ≤ n ∧ n < 0xD0 then k.vpredOf (n - 0xC0)
  else 0

/-- Bits of PACE that are fields of present engines (R164). -/
def paceMask (ct : CoreType) : W64 :=
  (List.range 7).foldl (fun m t => if hasTag ct t then m ||| (0xFF#64 <<< (8 * t)) else m) 0

/-- A system register as a write of it takes effect (R6, R81): writes to read-only registers are ignored, W1Z bits clear. -/
def Core.sysWrite (k : Core) (ct : CoreType) (n : Nat) (v : W64) (tick : Nat) : Core :=
  if n = 4 then { k with seglim := v.setWidth 4 }
  else if n = 8 then (if 6 ≤ bitsN v.toNat 0 3 then k else { k with fpmode := (v &&& 7#64).setWidth 32 })
  else if n = 9 then
    let k := k.settleFlags (tick - 1)
    { k with flags := k.flags &&& ~~~(v.setWidth 32) }
  else if n = 0xA then { k with fmask := (v &&& 0x3F#64).setWidth 32 }
  else if n = 0x10 then { k with tags := k.tags &&& ~~~v }
  else if n = 0x11 then (if v.setWidth 12 = 0#12 then k else { k with slip := v.setWidth 12 })
  else if n = 0x12 then { k with seed := v }
  else if n = 0x14 then { k with pacer := v &&& paceMask ct }
  else if n = 0x4E then (if v.getLsbD 7 then { k with stoppedN := false } else k)
  else if 0x40 ≤ n ∧ n < 0x4E then { k with nest := SMap.set 0 k.nest (n - 0x40) (v &&& nestMask (n - 0x40)) }
  else if 0x80 ≤ n ∧ n < 0xA0 then k.setWindow ((n - 0x80) / 4) ((n - 0x80) % 4) (v.setWidth 15)
  else if n = 0xA0 then { k with pred := v.setWidth 16 }
  else if 0xA8 ≤ n ∧ n ≤ 0xAB then { k with lc := SMap.set 0 k.lc (n - 0xA8) (v.setWidth 32) }
  else if 0xB0 ≤ n ∧ n ≤ 0xB7 then
    { k with bt := SMap.set 0 k.bt (n - 0xB0) (v.setWidth 32), eng := k.eng.map fun p => (p.1, { p.2 with pbrAt := SMap.erase p.2.pbrAt (n - 0xB0) }) }
  else if 0xC0 ≤ n ∧ n < 0xD0 then k.setVpred (n - 0xC0) v
  else k

/-- Whether a write of a system register shows at once to the engines, which its interlock holds back: WIN, PRED, LC, BT, VPRED (R73, R81). -/
def sysNow (n : Nat) : Bool := decide (0x80 ≤ n)

/-- MTSR writes a system register with commit tick `C`: the interlocked ones are written now, the others at their commit tick (R6, R81). -/
def Core.sysPost (k : Core) (ct : CoreType) (n : Nat) (v : W64) (C : Nat) : Core :=
  if sysNow n then k.sysWrite ct n v C else { k with sysq := k.sysq ++ [(C, n, v)] }

/-- The writes of system registers that are due at a tick take effect, in the order in which they were issued. -/
def Core.settleSys (k : Core) (ct : CoreType) (T : Nat) : Core :=
  (k.sysq.filter fun p => decide (p.1 ≤ T)).foldl (fun k p => k.sysWrite ct p.2.1 p.2.2 p.1) { k with sysq := k.sysq.filter fun p => decide (T < p.1) }

/-! ### Ranges of a segment (R311, R317, R318) -/

/-- Whether bytes [a, a + n) meet a range. -/
def Rng.meets (r : Rng) (a n : Nat) : Bool := decide (0 < n) && decide (a < r.base + r.len) && decide (r.base < a + n)

def Rng.holds (r : Rng) (a : Nat) : Bool := decide (r.base ≤ a) && decide (a < r.base + r.len)

/-- A write that meets a protected range of the core's open segment. -/
def Core.hitsProt (k : Core) (a n : Nat) : Bool :=
  match k.seg with
  | some g => g.desc.prot.any fun r => r.meets a n
  | none => false

/-- Whether a byte lies in a scratch range of the open segment. -/
def Core.inScratch (k : Core) (a : Nat) : Bool :=
  match k.seg with
  | some g => g.desc.scr.any fun r => r.holds a
  | none => false

/-- Inside a FIXED segment. -/
def Core.inFixed (k : Core) : Bool :=
  match k.seg with
  | some g => !g.desc.openKind
  | none => false

def Core.inSeg (k : Core) : Bool := k.seg.isSome

/-! ### Barrier objects (R156) -/

/-- The arrival of n bytes: PENDING and PHASE after it. PHASE flips, and EXPECT is added, as often as it takes to make PENDING
positive. -/
def arriveVal (pending : Int) (expect : Nat) (ph : Bool) (n : Int) : Int × Bool :=
  let p := pending - n
  if 0 < n ∧ expect ≠ 0 ∧ p ≤ 0 then
    let m : Int := (-p) / expect + 1
    (p + m * expect, ph != decide (m % 2 = 1))
  else (p, ph)

/-- One arrival at the object at a physical address. -/
def State.arrive (s : State) (pa : Nat) (n : Int) : State :=
  let v := arriveVal (sext (rdLe s.mem pa 4) 32) (rdLe s.mem (pa + 4) 4) (bitN (rdLe s.mem (pa + 8) 1) 0) n
  let b8 := rdLe s.mem (pa + 8) 1
  { s with mem := wrBytes (wrBytes s.mem pa (leBytes 4 (wrapI v.1 32))) (pa + 8) [BitVec.ofNat 8 (b8 / 2 * 2 + (if v.2 then 1 else 0))] }

/-- STAMP of the object. -/
def State.stampAt (s : State) (pa : Nat) : Nat := rdLe s.mem (pa + 10) 2

/-- Completion signals (R85, R154, R156, R255). -/
def State.signal (s : State) : List Fin → State
  | [] => s
  | f :: r =>
    let s := match f with
      | .tag c t => s.modCore c fun k => { k with tags := k.tags ||| (1#64 <<< t), tagOps := k.tagOps.erase t }
      | .barrier pa n => s.arrive pa (n : Int)
      | .resv c b id => s.modCore c fun k => k.modCb b fun x => x.finishResv id
      | .cons c b n => s.modCore c fun k => k.modCb b fun x => { x with cons := x.cons + BitVec.ofNat 32 n }
      | .prod c b n => s.modCore c fun k => k.modCb b fun x => { x with prod := x.prod + BitVec.ofNat 32 n }
      | .attr c b a => s.modCore c fun k => k.modCb b fun x => if attrRaw x.attr then { x with attr := a } else x
    s.signal r

end Sys2Proof.Machine
end

