-- ==== Sys2Proof/Machine/Translate.lean ====
section
/-! DEFINITION. Virtual addresses: translation (R360 to R370), regions (R286 to R288), the class and path of an access (R144, R247), frame
owners (R309), race records (R303 to R307), counting (R376), translation caches (R369) and consumption of errors (R408 to R416). -/

namespace Sys2Proof.Machine

open Sys2Proof

/-! ### Attribute words (R363) -/

def awFmt (a : BitVec 16) : BitVec 5 := a.extractLsb' 0 5
def awShared (a : BitVec 16) : Bool := a.getLsbD 5
def awWb (a : BitVec 16) : Bool := a.getLsbD 6
def awR (a : BitVec 16) : Bool := a.getLsbD 7
def awW (a : BitVec 16) : Bool := a.getLsbD 8
def awX (a : BitVec 16) : Bool := a.getLsbD 9
def awHost (a : BitVec 16) : Bool := a.getLsbD 10
def awCnt (a : BitVec 16) : Bool := a.getLsbD 11
def awPin (a : BitVec 16) : Bool := a.getLsbD 12

/-! ### The translations a group sees -/

/-- Ranges, page leaves and revoked spans in force for a group. -/
structure View where
  ranges : List Range
  leaves : List Leaf
  revoked : List Rng
deriving DecidableEq, Repr

def inSpan (va len a n : Nat) : Bool := decide (va ≤ a) && decide (a + n ≤ va + len)

/-- An attribute word whose H says whether a PA lies in host memory (R364). -/
def hostBit (a : BitVec 16) (pa : Nat) : BitVec 16 :=
  if 0x0200_0000_0000 ≤ pa % 2 ^ 44 ∧ pa % 2 ^ 44 < 0x0240_0000_0000 then a ||| 0x400#16 else a &&& ~~~0x400#16

/-- A new attribute word with the FMT of the old one (R371). -/
def keepFmt (new old : BitVec 16) : BitVec 16 := (new &&& 0xFFE0#16) ||| (old &&& 0x1F#16)

/-- One change applied to a view (R371, R374, R378). -/
def View.apply (v : View) (c : Change) : View :=
  match c.kind with
  | .prot attr =>
    { v with ranges := v.ranges.map fun r => if inSpan c.va c.len r.base (r.limit - r.base) then { r with attr := keepFmt attr r.attr } else r,
             leaves := v.leaves.map fun l => if inSpan c.va c.len l.va l.size then { l with attr := keepFmt attr l.attr } else l }
  | .unmap =>
    { v with ranges := v.ranges.map fun r => if inSpan c.va c.len r.base (r.limit - r.base) then { r with revoking := true } else r,
             leaves := v.leaves.map fun l => if inSpan c.va c.len l.va l.size then { l with revoking := true } else l }
  | .remap l => { v with leaves := v.leaves.map fun x => if x.va = l.va then l else x }
  | .migrate pa => { v with leaves := v.leaves.map fun x => if x.va = c.va then { x with pa := pa, attr := hostBit x.attr pa } else x }

/-- The view of a group: the changes that have not yet reached it are left out (R375). -/
def Job.view (j : Job) (g : Nat) : View :=
  (j.changes.filter fun c => !c.waiting.contains g).foldl View.apply { ranges := j.ranges, leaves := j.leaves, revoked := j.revoked }

/-- A translation of one address: its PA, the bytes that the same translation covers from there, the attribute word that applies, the
leaf and the range it came through, and whether it is being revoked. -/
structure Hit where
  pa : Nat
  left : Nat
  attr : BitVec 16
  leaf : Option Leaf
  range : Option Range
  revoked : Bool
deriving DecidableEq, Repr

/-- The heap (R362), from the registers that the scheduler loaded. -/
def heapHit (k : Core) (va : Nat) : Option Hit :=
  let base := bitsN k.heapb.toNat 16 40 * 2 ^ 16
  let len := bitsN k.heapl.toNat 16 40 * 2 ^ 16
  let off := bitsN k.heapo.toNat 16 40 * 2 ^ 16
  if base ≤ va ∧ va < base + len then
    some { pa := (va + off) % 2 ^ 56, left := base + len - va, attr := k.heapb.setWidth 16, leaf := none, range := none, revoked := false }
  else none

/-- Translation of one address (R360): heap, range, page. -/
def lookup (k : Core) (v : View) (va : Nat) : Option Hit :=
  match heapHit k va with
  | some h => some h
  | none =>
    let leaf := v.leaves.find? fun l => decide (l.va ≤ va ∧ va < l.va + l.size)
    match v.ranges.find? fun r => decide (r.base ≤ va ∧ va < r.limit) with
    | some r =>
      if r.paged then
        match leaf with
        | some l =>
          some { pa := l.pa + (va - l.va), left := min (l.va + l.size) r.limit - va,
                 attr := if awWb l.attr then r.attr ||| 0x40#16 else r.attr, leaf := some l, range := some r, revoked := r.revoking || l.revoking }
        | none => if r.revoking then some { pa := 0, left := r.limit - va, attr := r.attr, leaf := none, range := some r, revoked := true } else none
      else
        some { pa := (va + r.off) % 2 ^ 56, left := r.limit - va, attr := r.attr, leaf := none, range := some r, revoked := r.revoking }
    | none =>
      match leaf with
      | some l => some { pa := l.pa + (va - l.va), left := l.va + l.size - va, attr := l.attr, leaf := some l, range := none, revoked := l.revoking }
      | none => none

/-- A piece of an access: its VA, length and translation. -/
structure Piece where
  va : Nat
  len : Nat
  hit : Option Hit
deriving DecidableEq, Repr

/-- Cuts [va, va + len) where translations end; `fuel` bounds the number of pieces. Untranslated addresses are cut at 64 KiB. -/
def cutPieces (k : Core) (v : View) : Nat → Nat → Nat → List Piece
  | 0, _, _ => []
  | n + 1, va, len =>
    if len = 0 then []
    else
      let h := lookup k v va
      let m := min len (match h with
        | some h => h.left
        | none => 0x10000 - va % 0x10000)
      { va := va, len := m, hit := h } :: cutPieces k v n (va + m) (len - m)

/-- The pieces of an access below 2^56. -/
def pieces (k : Core) (v : View) (va len : Nat) : List Piece :=
  cutPieces k v (len / 0x10000 + v.ranges.length + v.leaves.length + 4) va (min len (2 ^ 56 - va))

/-! ### Regions (R288) -/

/-- What lies at a physical address: a region or a hole with its extent; `win` for the local window. -/
structure Place where
  region : Bool
  win : Bool
  base : Nat
  len : Nat
deriving DecidableEq, Repr

/-- Mapped buffers of a slot (R21) in ascending order: offset and length, each accumulator bank by itself. -/
def slotBufs : CoreType → List (Nat × Nat)
  | .m => [(0, 4 * 2 ^ 20), (0x0100_0000, 6 * 2 ^ 20), (0x0200_0000, 0x4_0000), (0x0204_0000, 0x4_0000)]
  | .v => [(0, 4 * 2 ^ 20)]
  | .g => [(0, 2 * 2 ^ 20), (0x0100_0000, 2 ^ 20)]
  | .b => [(0, 32 * 2 ^ 20)]

/-- The place of offset `o` of a slot whose address is `base`. -/
def slotPlace (base : Nat) (bufs : List (Nat × Nat)) (o : Nat) : Place :=
  match bufs.find? fun b => decide (b.1 ≤ o ∧ o < b.1 + b.2) with
  | some b => { region := true, win := true, base := base + b.1, len := b.2 }
  | none =>
    let lo := bufs.foldl (fun m b => if b.1 + b.2 ≤ o then b.1 + b.2 else m) 0
    let hi := (bufs.find? fun b => decide (o < b.1)).elim 0x1000_0000 fun b => b.1
    { region := false, win := true, base := base + lo, len := hi - lo }

/-- The place of a local offset of a module with the given HBM capacity (R287). -/
def placeIn (modBase cap o : Nat) : Place :=
  if o < cap then { region := true, win := false, base := modBase, len := cap }
  else if o < 0x0200_0000_0000 then { region := false, win := false, base := modBase + cap, len := 0x0200_0000_0000 - cap }
  else if o < 0x0240_0000_0000 then { region := true, win := false, base := modBase + 0x0200_0000_0000, len := 2 ^ 38 }
  else if o < 0x0400_0000_0000 then { region := false, win := false, base := modBase + 0x0240_0000_0000, len := 0x01C0_0000_0000 }
  else if o < 0x0410_0000_0000 then
    let c := (o - 0x0400_0000_0000) / 0x1000_0000
    slotPlace (modBase + 0x0400_0000_0000 + c * 0x1000_0000) (slotBufs (coreType c)) (o % 0x1000_0000)
  else { region := false, win := false, base := modBase + 0x0410_0000_0000, len := 0x0BF0_0000_0000 }

/-- HBM capacity and die statuses that a PA is checked against: the module's own, or another member's as last published (R288, R381). -/
def State.memberOf (s : State) (m : Nat) : Option Member := s.members.find? fun x => decide (x.id = m) && !x.gone

/-- The place of a physical address. A module that the formed domain does not hold is a hole (R381). -/
def State.placeOf (s : State) (pa : Nat) : Place :=
  let m := pa / 2 ^ 44
  let o := pa % 2 ^ 44
  if m = s.modId then placeIn (m * 2 ^ 44) s.hbmCap o
  else match (if (s.cregOf 0x340).getLsbD 17 then s.memberOf m else none) with
    | some x => placeIn (m * 2 ^ 44) (x.hbmcap * 2 ^ 30) o
    | none => { region := false, win := false, base := m * 2 ^ 44, len := 2 ^ 44 }

/-- The core whose window slot holds a PA, if it lies in the window. -/
def winCore (pa : Nat) : Option Nat :=
  let o := pa % 2 ^ 44
  if 0x0400_0000_0000 ≤ o ∧ o < 0x0410_0000_0000 then some ((o - 0x0400_0000_0000) / 0x1000_0000) else none

/-- Whether the die of a window slot is good: MIX of this module, or the published MIX of another. -/
def State.winGood (s : State) (pa : Nat) : Bool :=
  match winCore pa with
  | none => true
  | some c =>
    if pa / 2 ^ 44 = s.modId then s.dieGood (slotOfCore c)
    else match s.memberOf (pa / 2 ^ 44) with
      | some x => decide (bitsN (x.mix.getD (slotOfCore c / 8) 0) (8 * (slotOfCore c % 8) + 3) 2 = 0)
      | none => true

/-- The VA of the lowest byte of a run that lies in a window slot whose die is not good. -/
def State.absentByte (s : State) (r : Run) : Option Nat :=
  ((List.range ((r.pa + r.len - 1) / 0x1000_0000 - r.pa / 0x1000_0000 + 1)).find? fun i =>
    !s.winGood (max r.pa ((r.pa / 0x1000_0000 + i) * 0x1000_0000))).map fun i => r.va + (max r.pa ((r.pa / 0x1000_0000 + i) * 0x1000_0000) - r.pa)

/-- The region checks of R288 and R22 on a list of runs: the fault and the VA of the lowest failing byte. -/
def State.regionCheck (s : State) (runs : List Run) (past : Bool) : Option (Cause × Nat) :=
  match runs.findSome? fun r => s.absentByte r with
  | some va => some (.coreAbsent, va)
  | none =>
    match runs with
    | [] => if past then some (.windowStraddle, 2 ^ 56) else none
    | r0 :: _ =>
      let p := s.placeOf r0.pa
      match runs.find? fun r => decide (r.pa < p.base ∨ p.base + p.len < r.pa + r.len) with
      | some r =>
        some (.windowStraddle, if !p.region then r0.va else if r.pa < p.base ∨ p.base + p.len ≤ r.pa then r.va else r.va + (p.base + p.len - r.pa))
      | none =>
        if past then some (.windowStraddle, if p.region then 2 ^ 56 else r0.va)
        else if p.region then none else some (if p.win then .windowHole else .addressHole, r0.va)

/-! ### Paths (R10, R144, R247, R273) -/

/-- Locked latency of the direct link between dies of two types. -/
def linkLat : CoreType → CoreType → Option Nat
  | .b, .m => some 10 | .m, .b => some 10
  | .m, .v => some 12 | .v, .m => some 12
  | .v, .b => some 10 | .b, .v => some 10
  | .g, .b => some 10 | .b, .g => some 10
  | .g, .v => some 11 | .v, .g => some 11
  | _, _ => none

/-- Latency of the direct path between two cores, if there is one. -/
def coreLat (c d : Nat) : Option Nat :=
  if c = d then some 2 else if slotOfCore c = slotOfCore d then some 4 else linkLat (coreType c) (coreType d)

/-- Latency of the path from a core to own-module HBM. -/
def hbmLat (c : Nat) : Nat := if coreType c = .b then 96 else 106

/-- The latency of a fixed-time path from a core to a PA; none where the access is open-time. -/
def State.pathLat (s : State) (c pa : Nat) : Option Nat :=
  if pa / 2 ^ 44 ≠ s.modId then none
  else if pa % 2 ^ 44 < 2 ^ 40 then some (hbmLat c)
  else match winCore pa with
    | some d => if (s.core d).grp = (s.core c).grp then coreLat c d else none
    | none => none

/-- Latency over all runs: none if any is open-time. -/
def State.runsLat (s : State) (c : Nat) (runs : List Run) : Option Nat :=
  runs.foldl (fun m r => match m, s.pathLat c r.pa with
    | some a, some b => some (max a b)
    | _, _ => none) (some 0)

/-! ### Frame owners (R309) -/

def isMem (pa : Nat) : Bool := decide (pa % 2 ^ 44 < 0x0240_0000_0000)

/-- The frames of 64 KiB that a run touches. -/
def framesOf (r : Run) : List Nat := (List.range ((r.pa + r.len - 1) / 2 ^ 16 - r.pa / 2 ^ 16 + 1)).map fun i => r.pa / 2 ^ 16 + i

/-- Whether a frame is free for a group, or its own. -/
def State.frameOk (s : State) (g f : Nat) : Bool :=
  let o := SMap.get 0 s.owner f
  !o.getLsbD 3 || decide (o.toNat % 8 = g)

/-- The sharing rule for one run (R309): true where it passes. -/
def State.shareOk (s : State) (g : Nat) (a : BitVec 16) (r : Run) : Bool :=
  match winCore r.pa with
  | some c =>
    if r.pa / 2 ^ 44 ≠ s.modId then awShared a
    else match (s.core c).grp with
      | some h => decide (h = g) || (s.group h).isNone
      | none => true
  | none =>
    if awShared a then true
    else if r.pa / 2 ^ 44 ≠ s.modId then false
    else if awW a then (framesOf r).all fun f => s.frameOk g f else true

/-- Frames that are freed lose their owner (R309). -/
def State.freeFrames (s : State) (pa len : Nat) : State :=
  { s with owner := s.owner.filter fun p => !decide (pa / 65536 ≤ p.1 ∧ p.1 < (pa + len) / 65536) }

/-- Takes the unowned frames of a run (R309). -/
def State.ownFrames (s : State) (g : Nat) (a : BitVec 16) (r : Run) : State :=
  if awShared a || !awW a || !isMem r.pa then s
  else { s with owner := (framesOf r).foldl (fun o f => SMap.set 0 o f (8#4 ||| BitVec.ofNat 4 g)) s.owner }

/-! ### Race records (R304 to R307) -/

def RaceRec.acnt (r : RaceRec) : Nat := r.wgrp.toNat * 256 + r.wmod.toNat + 1

def RaceRec.setAcnt (r : RaceRec) (n : Nat) : RaceRec := { r with wmod := BitVec.ofNat 8 (n - 1), wgrp := BitVec.ofNat 3 ((n - 1) / 256) }

/-- What some entries of a line hold together; none where there are no entries. -/
def Reg.join (line : Nat) : List Reg → Option Reg
  | [] => none
  | rs => some { line := line, rd := rs.any Reg.rd, wr := rs.any Reg.wr, atomic := rs.any Reg.atomic, flight := none }

/-- What a group's registration table holds of a line (R306). -/
def Group.regOf (g : Group) (line : Nat) : Option Reg := Reg.join line (g.regs.filter fun r => decide (r.line = line))

/-- G is the sole open writer of the line (R305). -/
def soleWriter (r : RaceRec) (m g : Nat) (reg : Option Reg) : Bool :=
  r.wopen && (if r.aonly then decide (r.acnt = 1) && (reg.elim false fun x => x.atomic)
              else decide (r.wmod.toNat = m) && decide (r.wgrp.toNat = g))

/-- Whether a group's table holds a read registration. -/
def regRead (reg : Option Reg) : Bool := reg.elim false Reg.rd

/-- Readers other than the group (R305): of the home module by their bits, of other modules by their number. -/
def otherReaders (r : RaceRec) (home : Bool) (g : Nat) (reg : Option Reg) : Bool :=
  if home then decide (r.lrd &&& ~~~(1#8 <<< g) ≠ 0) || decide (r.rcnt ≠ 0)
  else decide (r.lrd ≠ 0) || decide ((if regRead reg then 1 else 0) < r.rcnt.toNat)

/-- The record with one more reader: the group's bit, or the count of remote readers, once per group. -/
def RaceRec.addReader (r : RaceRec) (home : Bool) (g : Nat) (reg : Option Reg) : RaceRec :=
  if home then { r with lrd := r.lrd ||| (1#8 <<< g) } else if regRead reg then r else { r with rcnt := r.rcnt + 1 }

/-- The record after an access of group g of module m, or none for a race; `home`: the line's home is that module (R305). -/
def raceAccess (r : RaceRec) (home : Bool) (m g : Nat) (reg : Option Reg) (k : RaceKind) : Option RaceRec :=
  let sole := soleWriter r m g reg
  let plainMine := r.wopen && !r.aonly && decide (r.wmod.toNat = m) && decide (r.wgrp.toNat = g)
  match k with
  | .read => if r.wopen && !sole then none else some (r.addReader home g reg)
  | .write =>
    if (r.wopen && !sole) || otherReaders r home g reg then none
    else some { r with wopen := true, aonly := false, wmod := BitVec.ofNat 8 m, wgrp := BitVec.ofNat 3 g }
  | .atomic =>
    if (r.wopen && !r.aonly && !plainMine) || otherReaders r home g reg then none
    else if plainMine || (reg.elim false fun x => x.atomic) then some r
    else if !r.wopen then some ({ r with wopen := true, aonly := true }.setAcnt 1)
    else some (r.setAcnt (r.acnt + 1))

/-- The record after a registration of group g of module m ends (R307). -/
def raceEnd (r : RaceRec) (home : Bool) (m g : Nat) (x : Reg) : RaceRec :=
  let r := if x.rd then (if home then { r with lrd := r.lrd &&& ~~~(1#8 <<< g) } else { r with rcnt := r.rcnt - 1 }) else r
  if x.wr && r.wopen && !r.aonly && decide (r.wmod.toNat = m) && decide (r.wgrp.toNat = g) then { r with wopen := false, wmod := 0, wgrp := 0 }
  else if x.atomic && r.wopen && r.aonly then
    (if r.acnt ≤ 1 then { r with wopen := false, aonly := false, wmod := 0, wgrp := 0 } else r.setAcnt (r.acnt - 1))
  else r

/-- Whether a line's home is this module. -/
def State.homeLine (s : State) (line : Nat) : Bool := decide (line / 2 ^ 44 = s.modId)

/-- The entries of a table after an access to a line that passed (R305, R306): the segment's entry, or that of the access `fl` of a seam,
holds it; a plain write makes the group's atomic registrations of the line plain, and an atomic on a line that the group holds by a plain write
keeps that (log entry 107). -/
def regsAfter (rs : List Reg) (line : Nat) (k : RaceKind) (fl : Option Nat) : List Reg :=
  let mine (r : Reg) : Bool := decide (r.line = line)
  let plain := rs.any fun r => mine r && r.wr
  let rs := if k = .write then rs.map fun r => if mine r && r.atomic then { r with wr := true, atomic := false } else r else rs
  let here (r : Reg) : Bool := mine r && decide (r.flight = fl)
  let old : Reg := (rs.find? here).getD { line := line, rd := false, wr := false, atomic := false, flight := fl }
  let new : Reg := match k with
    | .read => { old with rd := true }
    | .write => { old with wr := true }
    | .atomic => if plain then { old with wr := true } else { old with atomic := true }
  (rs.filter fun r => !here r) ++ [new]

/-- Registers one line: none for a race. `fl` is the access of a seam that holds the registration. The record of a line of another module
is that module's, as this one knows it. -/
def State.raceLine (s : State) (g line : Nat) (k : RaceKind) (fl : Option Nat) : Option State :=
  match s.group g with
  | none => some s
  | some gr =>
    (raceAccess (SMap.get RaceRec.zero s.race line) (s.homeLine line) s.modId g (gr.regOf line) k).map fun r =>
      ({ s with race := SMap.set RaceRec.zero s.race line r } : State).modGroup g fun x => { x with regs := regsAfter x.regs line k fl }

def State.raceLines (s : State) (g : Nat) (k : RaceKind) (fl : Option Nat) : List Nat → Option State
  | [] => some s
  | l :: r =>
    match s.raceLine g l k fl with
    | some s => s.raceLines g k fl r
    | none => none

/-- A line whose bytes the egress stage is to hold takes an entry of the segment, without a mark in any record (R306). -/
def State.stageLine (s : State) (g line : Nat) : State :=
  s.modGroup g fun x => if x.regs.any fun r => decide (r.line = line) && r.flight.isNone then x
    else { x with regs := x.regs ++ [{ line := line, rd := false, wr := false, atomic := false, flight := none }] }

/-- What ends of a group's hold on a line when the entries `gone` of a table end and `kept` stay. -/
def regGone (line : Nat) (gone kept : List Reg) : Reg :=
  let at' (p : Reg → Bool) (rs : List Reg) : Bool := rs.any fun r => decide (r.line = line) && p r
  let out (p : Reg → Bool) : Bool := at' p gone && !at' p kept
  { line := line, rd := out Reg.rd, wr := out Reg.wr, atomic := out Reg.atomic, flight := none }

/-- Ends registrations of a group that `p` selects. -/
def State.raceRelease (s : State) (g : Nat) (p : Reg → Bool) : State :=
  match s.group g with
  | none => s
  | some gr =>
    let gone := gr.regs.filter p
    let kept := gr.regs.filter fun y => !p y
    let race := ((gone.map Reg.line).eraseDups).foldl (fun m l =>
      SMap.set RaceRec.zero m l (raceEnd (SMap.get RaceRec.zero m l) (s.homeLine l) s.modId g (regGone l gone kept))) s.race
    { s with race := race }.modGroup g fun x => { x with regs := x.regs.filter fun y => !p y }

/-- First bytes of the 64-byte lines that a run touches. -/
def linesOf (r : Run) : List Nat :=
  if r.len = 0 then [] else (List.range ((r.pa + r.len - 1) / 64 - r.pa / 64 + 1)).map fun i => (r.pa / 64 + i) * 64

/-! ### Counting (R376) -/

/-- Adds `n` line accesses to the leaf at a VA of a job; reaching HOTTH posts KIND 1 once. -/
def State.countPage (s : State) (job va n : Nat) : State :=
  match s.jobs.find? fun j => decide (j.handle = job) with
  | none => s
  | some j =>
    match j.leaves.find? fun l => decide (l.va = va) with
    | none => s
    | some l =>
      let c := min 65535 (l.count + n)
      let th := bitsN (s.cregOf 0x330).toNat 0 16
      let hot := decide (th ≠ 0) && decide (th ≤ c) && !l.noticed
      let l' := { l with count := c, noticed := l.noticed || hot }
      let s := { s with jobs := s.jobs.map fun x => if x.handle = job then
        { x with leaves := x.leaves.map fun y => if y.va = va then l' else y } else x }
      if hot then
        s.postNq { kind := 1, size := if l.size = 2 ^ 16 then 0 else if l.size = 2 ^ 21 then 1 else if l.size = 2 ^ 30 then 2 else 3, status := 0, count := max th c, job := job, va := va }
      else s

/-! ### Translation caches (R369) -/

/-- Cache keys of a hit: the range, which is cached whole or for its attributes, and the page's leaf; the heap needs none. -/
def Hit.keys (h : Hit) : List (Bool × Nat) := h.range.elim [] (fun r => [(true, r.base)]) ++ h.leaf.elim [] fun l => [(false, l.va)]

/-- Whether an entry is held in a die's cache and its generation still stands. -/
def State.cached (s : State) (die job : Nat) (key : Bool × Nat) : Bool :=
  (SMap.get [] s.tcache die).any fun e =>
    decide (e.range = key.1) && decide (e.key = key.2) && decide (e.job = job) &&
    (match s.group e.grp with
     | some g => decide (g.gen = e.gen)
     | none => false)

/-- Puts an entry at the recent end; the least recently used of its kind leaves when the cache is full. -/
def State.cacheFill (s : State) (die job grp : Nat) (key : Bool × Nat) : State :=
  let gen := (s.group grp).elim 0 fun g => g.gen
  let old := (SMap.get [] s.tcache die).filter fun e => !(decide (e.range = key.1) && decide (e.key = key.2) && decide (e.job = job))
  let same := old.filter fun e => decide (e.range = key.1)
  let other := old.filter fun e => decide (e.range ≠ key.1)
  let cap := if key.1 then 64 else 4096
  let e : TcEnt := { range := key.1, job := job, key := key.2, grp := grp, gen := gen }
  { s with tcache := SMap.put s.tcache die (other ++ same.drop (same.length + 1 - cap) ++ [e]) }

/-- Entries that are fetched or used, in their order: each becomes the most recent of its kind (R369). -/
def State.cacheAll (s : State) (die job grp : Nat) (keys : List (Bool × Nat)) : State := keys.foldl (fun s k => s.cacheFill die job grp k) s

/-! ### Errors met by reads (R408 to R416) -/

/-- Counts an HBM error against its channel and applies the thresholds (R412, R416). -/
def State.countHbm (s : State) (ch : Nat) (ue : Bool) : State :=
  let c := SMap.get (0, 0) s.pcErr ch
  let c := if ue then (c.1, c.2 + 1) else (c.1 + 1, c.2)
  let s := { s with pcErr := SMap.set (0, 0) s.pcErr ch c }
  let ctl := (s.cregOf 0x200).toNat
  let pcth := bitsN ctl 8 16
  let ueth := bitsN ctl 24 8
  if s.pcState ch = 0 ∧ ((pcth ≠ 0 ∧ pcth ≤ c.1) ∨ (ueth ≠ 0 ∧ ueth ≤ c.2)) then
    (s.setPcState ch 1).postNq { kind := 5, size := 0, status := 0, count := ch, job := 0, va := 0 }
  else s

def isHost (pa : Nat) : Bool := decide (0x0200_0000_0000 ≤ pa % 2 ^ 44) && decide (pa % 2 ^ 44 < 0x0240_0000_0000)

/-- What ECC finds in [pa, pa + n): the first uncorrectable unit with its mark, and the correctable units. -/
def State.eccScan (s : State) (pa n : Nat) : Option (Nat × EccMark) × List Nat :=
  let hit := s.ecc.filter fun p => decide (p.1 < pa + n ∧ pa < p.1 + (unitOf p.1).2)
  let bad := hit.find? fun p => decide (p.2 = .uncorrectable ∨ p.2 = .poisoned)
  (match bad, s.lostIn pa n with
   | some b, some l => if l < b.1 then some (l / 64 * 64, EccMark.uncorrectable) else some b
   | some b, none => some b
   | none, l => l.map fun l => (l / 64 * 64, EccMark.uncorrectable),
   (hit.filter fun p => decide (p.2 = .correctable)).map fun p => p.1)

/-- INFO of an uncorrectable unit: its local PA, and whether it is poisoned (R421). -/
def eccInfo (x : Nat × EccMark) : W64 := BitVec.ofNat 64 (x.1 % 2 ^ 52) ||| (if x.2 = .poisoned then 0x8000_0000_0000_0000#64 else 0)

/-- Consumption of [pa, pa + n) by an engine (R409, R410): false where it is a detected error, which is charged. -/
def State.consume (s : State) (core tag pa n : Nat) (fixed : Bool) (pc : Option Nat) : State × Bool :=
  match s.eccScan pa n with
  | (none, []) => (s, true)
  | (some (u, m), _) =>
    let cause : Cause := if isHbm pa then .ueHbm else if isHost pa then .ueHost else .ueSram
    let info : W64 := eccInfo (u, m)
    let s := if isHbm u then s.countHbm (s.chanOf (u % 2 ^ 44)) true
             else match winCore u with
               | some c => s.countDie (slotOfCore c)
               | none => s
    (s.charge { core := core, tag := tag, cause := cause, info := info, pc := pc } none, false)
  | (none, us) =>
    let s := us.foldl (fun s u =>
      let s := { s with ecc := SMap.erase s.ecc u }
      if isHbm u then s.countHbm (s.chanOf (u % 2 ^ 44)) false else s) s
    let g := (s.core core).grp
    match g with
    | some g => if fixed then (s.claim g 3 (some (s.time + 25)), true) else (s, true)
    | none => (s, true)

/-! ### Changes as groups are switched (R374, R375, R378) -/

/-- Size code of a page. -/
def sizeCode (n : Nat) : Nat := if n = 2 ^ 16 then 0 else if n = 2 ^ 21 then 1 else if n = 2 ^ 30 then 2 else 3

def State.modJob (s : State) (h : Nat) (f : Job → Job) : State := { s with jobs := s.jobs.map fun j => if j.handle = h then f j else j }

/-- The leaf at a VA of a job. -/
def State.leafAt (s : State) (h va : Nat) : Option Leaf :=
  (s.jobs.find? fun j => decide (j.handle = h)).bind fun j => j.leaves.find? fun l => decide (l.va = va)

/-- A change of a job has reached every group; frames that it leaves are freed (R309). It becomes the job's translation. A revocation is finished by an event of its own. -/
def State.landChange (s : State) (h : Nat) (c : Change) : State :=
  let drop (j : Job) : Job := { j with changes := j.changes.filter fun x => decide (x.seq ≠ c.seq) }
  match c.kind with
  | .unmap => if s.agenda.contains (.revocationComplete c.seq) then s else { s with agenda := s.agenda ++ [.revocationComplete c.seq] }
  | .prot _ | .remap _ =>
    let s := match c.kind, s.leafAt h c.va with
      | .remap l, some o => if o.pres && !(l.pres && decide (l.pa = o.pa)) then s.freeFrames o.pa o.size else s
      | _, _ => s
    s.modJob h fun j =>
      let v := View.apply { ranges := j.ranges, leaves := j.leaves, revoked := j.revoked } c
      drop { j with ranges := v.ranges, leaves := v.leaves }
  | .migrate pa =>
    let size := (s.leafAt h c.va).elim 0 fun l => l.size
    let s := (s.leafAt h c.va).elim s fun l => s.freeFrames l.pa l.size
    let s := s.modJob h fun j => drop { j with leaves := j.leaves.map fun l =>
      if l.va = c.va then { l with pa := pa, attr := hostBit l.attr pa &&& ~~~0x40#16, mig := false, count := 0, noticed := false } else l }
    s.postNq { kind := 4, size := sizeCode size, status := 0, count := 0, job := h, va := c.va }

/-- Completes the changes that every group has been switched to. -/
def State.finishChanges (s : State) : State :=
  s.jobs.foldl (fun s j => (j.changes.filter fun c => c.waiting.isEmpty).foldl (fun s c => s.landChange j.handle c) s) s

/-- Lines that a group's egress stages and deferred copies hold move with a page whose PA changes (R377, R378). -/
def State.moveStage (s : State) (g old size new : Nat) : State :=
  let mv (a : Nat) : Nat := if old ≤ a ∧ a < old + size then a - old + new else a
  let run (r : Run) : Run := { r with pa := mv r.pa }
  { s with cores := s.cores.map fun p =>
    if p.2.grp = some g ∧ (p.2.egress ≠ [] ∨ p.2.deferred ≠ []) then
      (p.1, { p.2 with
        egress := p.2.egress.map fun e => match e with
          | .store l ns => .store (mv l) (ns.map fun n => (2 * mv (n.1 / 2) + n.1 % 2, n.2))
          | .atomn pa a z x => .atomn (mv pa) a z x,
        deferred := p.2.deferred.map fun d => { d with src := d.src.map run, dst := d.dst.map run } })
    else p }

/-- Switches a group to the changes that `p` selects. -/
def State.switchIf (s : State) (g : Nat) (p : Change → Bool) : State :=
  let hits := s.jobs.flatMap fun j => (j.changes.filter fun c => c.waiting.contains g && p c).filterMap fun c =>
    match c.kind with
    | .migrate pa => (j.leaves.find? fun l => decide (l.va = c.va)).map fun l => (l.pa, l.size, pa)
    | _ => none
  let s := hits.foldl (fun s h => s.moveStage g h.1 h.2.1 h.2.2) s
  let off (c : Change) : Change := if p c then { c with waiting := c.waiting.filter fun x => decide (x ≠ g) } else c
  ({ s with jobs := s.jobs.map fun j => { j with changes := j.changes.map off } } : State).finishChanges

/-- A group passes a segment edge: its translation generation advances and pending changes reach it (R375). -/
def State.edge (s : State) (g : Nat) : State :=
  (s.modGroup g fun x => { x with gen := x.gen + 1, sticky := [] }).switchIf g fun _ => true

/-- Switches a group to the migration of one page in the middle of a segment or seam: accesses keep their class until the next edge, and
the group's cache entries of the page go (R375, R378). -/
def State.switchPage (s : State) (g va : Nat) : State :=
  let pend := s.jobs.any fun j => j.changes.any fun c => decide (c.va = va) && c.waiting.contains g && (match c.kind with
    | .migrate _ => true
    | _ => false)
  if pend then
    let own := s.jobs.any fun j => (s.group g).elim false (fun x => decide (x.job = j.handle)) && j.leaves.any fun l => decide (l.va = va) && isHbm l.pa && decide (l.pa / 2 ^ 44 = s.modId)
    let s := s.modGroup g fun x => { x with sticky := (va, own) :: x.sticky.filter fun y => decide (y.1 ≠ va) }
    let s : State := { s with tcache := s.tcache.map fun p => (p.1, p.2.filter fun e => !(decide (e.grp = g) && decide (e.key = va) && !e.range)) }
    s.switchIf g fun c => decide (c.va = va) && (match c.kind with
      | .migrate _ => true
      | _ => false)
  else s

/-! ### What a failed access names, and errors of records (R308, R408, R421) -/

/-- Lines of a SHARED run of HBM or host memory, each with the VA of its first byte in the run. -/
def lineVas (p : Run × BitVec 16) : List (Nat × Nat) :=
  if awShared p.2 && isMem p.1.pa then (linesOf p.1).map fun l => (l, p.1.va + (max l p.1.pa - p.1.pa)) else []

/-- VA of the lowest byte of an access that races. -/
def State.raceVa (s : State) (g : Nat) (k : RaceKind) (fl : Option Nat) (va : Nat) (rs : List (Run × BitVec 16)) : Nat :=
  (((rs.flatMap lineVas).find? fun x => (s.raceLine g x.1 k fl).isNone).map fun x => x.2).getD va

/-- VA of the lowest byte of a run that the sharing rule refuses. -/
def State.shareVa (s : State) (g : Nat) (a : BitVec 16) (r : Run) : Nat :=
  (((framesOf r).map fun f => max r.pa (f * 2 ^ 16)).find? fun p => !s.shareOk g a { va := r.va + (p - r.pa), pa := p, len := 1 }).elim r.va fun p => r.va + (p - r.pa)

/-- The first race record or frame owner field with an uncorrectable error that an access consults (R304, R309, R408). -/
def State.recordError (s : State) (rs : List (Run × BitVec 16)) : Option (Bool × Nat) :=
  if s.recErr.isEmpty then none
  else (rs.flatMap fun p =>
    if awShared p.2 then (lineVas p).map fun x => (false, x.1)
    else if isMem p.1.pa && awW p.2 then (framesOf p.1).map fun f => (true, f) else []).find? fun e => s.recErr.contains e

/-- A record or owner field with an uncorrectable error is reset to 0, and the access at the cursor takes the error (R408; log entry 116). -/
def State.loseRecord (s : State) (e : Bool × Nat) : State :=
  let pa := if e.1 then e.2 * 2 ^ 16 else e.2
  let s : State := { s with recErr := s.recErr.filter fun x => decide (x ≠ e), race := if e.1 then s.race else s.race.filter fun p => decide (p.1 ≠ e.2),
                            owner := if e.1 then s.owner.filter fun p => decide (p.1 ≠ e.2) else s.owner }
  let s := if isHbm pa then s.countHbm (s.chanOf (pa % 2 ^ 44)) true else s
  s.charge { core := s.cur.core, tag := s.cur.tag, cause := if isHbm pa then .ueHbm else .ueHost, info := eccInfo (pa, .uncorrectable) } none

/-! ### A whole access -/

/-- An access that passed every check: the state with ownership, counts and registrations, its runs, the attribute of each run, the
path latency (none: open-time), and whether a fixed-time access will be late, and if so whether for other traffic (R282, R375, R416). -/
structure Granted where
  s : State
  runs : List Run
  attrs : List (BitVec 16)
  lat : Option Nat
  late : Option Bool
deriving DecidableEq, Repr

/-- What becomes of an access: granted, a fault with the VA of the lowest failing byte and the page it needs, or a wait that leaves the
state `s`: with the group paused under a source, or with the engine stalled. -/
inductive Got where
  | ok (g : Granted)
  | bad (c : Cause) (va : Nat) (page : Option Nat)
  | wait (s : State) (pause : Option Nat)
deriving DecidableEq, Repr

/-- How an access uses its bytes. `stg`: whether its bytes go to the egress stage inside a segment: never, where R147 says so of a store,
or all of them. -/
structure Use where
  rd : Bool
  wr : Bool
  atomic : Bool
  stg : Option Bool
deriving DecidableEq, Repr

def useRead : Use := { rd := true, wr := false, atomic := false, stg := none }
def useWrite : Use := { rd := false, wr := true, atomic := false, stg := none }
def useAtomic : Use := { rd := true, wr := true, atomic := true, stg := none }

/-- The job whose translations a core uses. -/
def State.jobOf (s : State) (c : Nat) : Option Job :=
  match s.groupOf c with
  | some g => s.jobs.find? fun j => decide (j.handle = g.job)
  | none => none

def State.viewOf (s : State) (c : Nat) : View :=
  match s.jobOf c, s.groupOf c with
  | some j, some g => j.view g.num
  | _, _ => { ranges := [], leaves := [], revoked := [] }

/-- Checks of R370 in their order over all pieces of an access. -/
def transFault (v : View) (u : Use) (ps : List Piece) : Option (Cause × Nat × Option Nat) :=
  let first (p : Piece → Bool) : Option Piece := ps.find? p
  let revoked (p : Piece) : Bool := (p.hit.elim false fun h => h.revoked) || v.revoked.any fun r => r.meets p.va p.len && p.hit.isNone
  match first revoked with
  | some p => some (.revokedRange, p.va, none)
  | none =>
  match first fun p => p.hit.isNone with
  | some p => some (.translation, p.va, none)
  | none =>
  match first fun p => p.hit.elim false fun h => (u.rd && !awR h.attr) || (u.wr && !awW h.attr) with
  | some p => some (.protection, p.va, none)
  | none =>
  match first fun p => p.hit.elim false fun h => h.range.isNone && h.leaf.isSome && attrBlock (awFmt h.attr) with
  | some p => some (.format, p.va, none)
  | none =>
  match first fun p => p.hit.elim false fun h => h.leaf.elim false fun l => !l.pres with
  | some p => some (.page, p.va, p.hit.elim none fun h => h.leaf.elim none fun l => some l.va)
  | none => none

def runsOfPieces (ps : List Piece) : List Run := ps.filterMap fun p => p.hit.map fun h => { va := p.va, pa := h.pa, len := p.len }

def attrsOfPieces (ps : List Piece) : List (BitVec 16) := ps.filterMap fun p => p.hit.map fun h => h.attr

/-- An accumulator bank met by a run (R20): the core and bank. -/
def bankOf (pa : Nat) : Option (Nat × Bool) :=
  match winCore pa with
  | some c =>
    let o := pa % 0x1000_0000
    if coreType c = .m ∧ 0x0200_0000 ≤ o ∧ o < 0x0208_0000 then some (c, decide (0x0204_0000 ≤ o)) else none
  | none => none

/-- An accumulator bank of this module met by a run: the core and bank. -/
def State.bankAt (s : State) (pa : Nat) : Option (Nat × Bool) := if pa / 2 ^ 44 = s.modId then bankOf pa else none

/-- A run in a working accumulator bank (R20). -/
def State.inWorkBank (s : State) (r : Run) : Bool :=
  match s.bankAt r.pa with
  | some (c, b) => decide ((s.core c).wbank = b)
  | none => false

/-- A write into the carry bank of a core in an open carry segment (R228). -/
def State.inCarryBank (s : State) (r : Run) : Bool :=
  match s.bankAt r.pa with
  | some (c, b) => decide (((s.core c).seg.bind fun g => g.carry) = some b)
  | none => false

/-- Lines to register: SHARED runs of HBM and host memory. -/
def sharedLines (rs : List (Run × BitVec 16)) : List Nat :=
  (rs.flatMap fun p => if awShared p.2 && isMem p.1.pa then linesOf p.1 else []).eraseDups

/-- The translations that an access uses, in order. -/
def keysOfPieces (ps : List Piece) : List (Bool × Nat) := (ps.flatMap fun p => p.hit.elim [] Hit.keys).eraseDups

/-- An access uses the die's translation cache (R369). What it holds becomes recent. A fixed-time access that misses lets its group pause until a walk
has fetched what is missing (R282); an open-time one has it fetched as it waits in its queue. -/
def State.useCache (s : State) (c job grp : Nat) (fixed inseg : Bool) (keys : List (Bool × Nat)) : State :=
  let die := slotOfCore c
  let miss := keys.filter fun k => !s.cached die job k
  if fixed && !miss.isEmpty then
    let s := ((s.cacheAll die job grp (keys.filter fun k => !miss.contains k)).claim grp 6 none).addFlight
      { id := 0, core := c, tag := s.cur.tag, grp := grp, due := s.time + 1 + Config.walkLatency s.free, fixed := false, inseg := inseg, async := false, pos := 0, pc := 0,
        work := .walk die miss }
    { s with free := s.free + 1 }
  else s.cacheAll die job grp keys

/-- Whether a store to a target is held in the egress stage inside a segment, scratch ranges apart (R147). -/
def storeStaged (m : Nat) (a : BitVec 16) (pa : Nat) : Bool := awShared a || isHost pa || decide (pa / 2 ^ 44 ≠ m)

/-! ### What operations touch -/

/-- Whether two runs share a byte. -/
def Run.meets (a b : Run) : Bool := decide (a.pa < b.pa + b.len) && decide (b.pa < a.pa + a.len)

/-- Physical runs that an operation still has to read or write. -/
def Work.runs : Work → List Run
  | .load rs _ _ _ _ _ _ _ => rs
  | .fill rs _ _ _ => rs
  | .write ws _ => ws.map fun p => { va := 0, pa := p.1, len := 1 }
  | .nibbles ns => ns.map fun p => { va := 0, pa := p.1 / 2, len := 1 }
  | .atomic pa _ s64 _ _ _ _ _ _ => [{ va := 0, pa := pa, len := if s64 then 8 else 4 }]
  | .copy src _ dst _ _ _ _ => src ++ dst
  | .vload ls _ w => ls.map fun p => { va := 0, pa := p.2, len := (w + 1) / 2 }
  | .row _ ws _ _ => ws.map fun p => { va := 0, pa := p.1, len := 1 }
  | .arrive pa _ => [{ va := 0, pa := pa, len := 16 }]
  | _ => []

/-- What a byte of memory is reached through: a pseudo-channel of HBM or a window port of a core of this module (R282). -/
def State.portOf (s : State) (pa : Nat) : Option (Bool × Nat) :=
  if pa / 2 ^ 44 ≠ s.modId then none
  else if isHbm pa then some (true, s.chanOf (pa % 2 ^ 44))
  else (winCore pa).map fun c => (false, c)

/-- All that the bytes of a run are reached through. -/
def State.portsOf (s : State) (r : Run) : List (Bool × Nat) :=
  (List.range ((r.pa % 4096 + r.len + 4095) / 4096)).filterMap fun i => s.portOf (max r.pa ((r.pa / 4096 + i) * 4096))

/-- Whether open-time traffic, or traffic of another group, is on its way to a pseudo-channel or window port that an access of a group
needs (R282). -/
def State.contended (s : State) (g : Nat) (runs : List Run) : Bool :=
  (s.flights.filter fun f => !f.fixed || decide (f.grp ≠ g)).any fun f => f.work.runs.any fun a => (s.portsOf a).any fun p => runs.any fun b =>
    (s.portsOf b).contains p

/-- Lines that the egress stage is to hold for a store: staged ones, bytes in scratch ranges apart (R147, R306). -/
def stagedLines (k : Core) (staged : BitVec 16 → Nat → Bool) (rs : List (Run × BitVec 16)) : List Nat :=
  (rs.flatMap fun p => if staged p.2 p.1.pa then (linesOf p.1).filter fun l => !k.inScratch (p.1.va + (max l p.1.pa - p.1.pa)) else []).eraseDups

/-- Translates and checks an access of the engine at the cursor, byte by byte (R288, R309, R370), registers it (R305), takes frames and
counts lines. Order of the outcomes: translation faults, region checks, buffer access, sharing, protected and scratch rules, races.
A miss of a fixed-time access pauses the group while the translation is fetched (R282, R369); a write under write-block and a page fault
in a seam wait with the group paused or the queue held (R372, R377). -/
def State.access (s : State) (va len : Nat) (u : Use) (fl : Option Nat) : Got :=
  let c := s.cur.core
  let k := s.core c
  match s.groupOf c with
  | none => .bad .translation va none
  | some g =>
    let ps := pieces k (s.viewOf c) va len
    match transFault (s.viewOf c) u ps with
    | some (e, a, page) =>
      if e = .page ∧ !k.inSeg then
        match page with
        | some pv =>
          let posted := (s.jobOf c).elim true fun j => (j.leaves.find? fun l => decide (l.va = pv)).elim true fun l => l.noticed
          let s1 : State := { s with jobs := s.jobs.map fun j => if j.handle = g.job then
            { j with leaves := j.leaves.map fun l => if l.va = pv then { l with noticed := true } else l } else j }
          let s := if posted then s else s1.postNq { kind := 2, size := (s.jobOf c).elim 0 fun j => (j.leaves.find? fun l => decide (l.va = pv)).elim 0 fun l => sizeCode l.size, status := 0, count := 0, job := g.job, va := pv }
          .wait s (if (s.jobOf c).elim false fun j => (j.leaves.find? fun l => decide (l.va = pv)).elim false fun l => awHost l.attr then none else some 6)
        | none => .bad e a page
      else .bad e a page
    | none =>
      let runs := runsOfPieces ps
      let attrs := attrsOfPieces ps
      match s.regionCheck runs (decide (2 ^ 56 < va + len)) with
      | some (e, a) => .bad e a none
      | none =>
        match runs.find? fun r => s.inWorkBank r with
        | some _ => .bad .bufferAccess 0 none
        | none =>
          match s.recordError (runs.zip attrs) with
          | some e => .wait (s.loseRecord e) none
          | none =>
          match (runs.zip attrs).find? fun p => !s.shareOk g.num p.2 p.1 with
          | some p => .bad .sharing (s.shareVa g.num p.2 p.1) none
          | none =>
            if (u.wr && k.hitsProt va len) || (u.wr && runs.any fun r => s.inCarryBank r) ||
               ((runs.zip attrs).any fun p => awShared p.2 && (k.seg.elim false fun sg => sg.desc.scr.any fun r => r.meets p.1.va p.1.len)) then
              .bad .segmentLegality 0 none
            else
              let cls := (ps.filterMap fun p => p.hit.bind fun h => h.leaf).findSome? fun l => (g.sticky.find? fun x => decide (x.1 = l.va)).map fun x => x.2
              let lat0 := s.runsLat c runs
              let lat := match cls with
                | some true => some (lat0.getD (hbmLat c))
                | some false => none
                | none => lat0
              let slow := (decide (cls = some true) && lat0.isNone) ||
                (lat.isSome && runs.any fun r => isHbm r.pa && decide (r.pa / 2 ^ 44 = s.modId) &&
                  (List.range ((r.pa % 4096 + r.len + 4095) / 4096)).any fun i => decide (s.pcState (s.chanOf ((r.pa / 4096 + i) * 4096 % 2 ^ 44)) = 1))
              let staged (a : BitVec 16) (pa : Nat) : Bool := k.inSeg && (u.stg.elim false fun all => all || storeStaged s.modId a pa)
              if u.wr ∧ (runs.zip attrs).any fun p => awWb p.2 && !staged p.2 p.1.pa then
                let vas := ps.filterMap fun p => p.hit.bind fun h => if awWb h.attr && !staged h.attr h.pa then h.leaf.map fun l => l.va else none
                .wait (vas.foldl (fun s v => s.switchPage g.num v) s) (if lat.isSome then some 5 else none)
              else
                let s := s.useCache c g.job g.num lat.isSome k.inSeg (keysOfPieces ps)
                let lines := sharedLines (runs.zip attrs)
                let held := if u.wr then (stagedLines k staged (runs.zip attrs)).filter fun l => !lines.contains l else []
                let old := (g.regs.filter fun r => r.flight.isNone).map fun r => r.line
                let fresh := (lines ++ held).filter fun l => !old.contains l
                if !fresh.isEmpty && (k.seg.elim false fun sg => decide (sg.desc.shlines < old.length + fresh.length)) then .bad .segmentLegality 0 none
                else
                  let kind := if u.atomic then RaceKind.atomic else if u.wr then .write else .read
                  match s.raceLines g.num kind (if k.inSeg then none else fl) lines with
                  | none => .bad .race (s.raceVa g.num kind (if k.inSeg then none else fl) va (runs.zip attrs)) none
                  | some s =>
                    let s := held.foldl (fun s l => s.stageLine g.num l) s
                    let busy := !slow && lat.isSome && s.contended g.num runs
                    let late := if slow then some false else if busy && Config.busyLate s.free then some true else none
                    let s : State := if busy then { s with free := s.free + 1 } else s
                    let s := (runs.zip attrs).foldl (fun s p => s.ownFrames g.num p.2 p.1) s
                    let s := ps.foldl (fun s p => match p.hit with
                      | some h => match h.leaf with
                        | some l => if awCnt h.attr && !staged h.attr h.pa then s.countPage g.job l.va (linesOf { va := p.va, pa := h.pa, len := p.len }).length else s
                        | none => s
                      | none => s) s
                    .ok { s := s, runs := runs, attrs := attrs, lat := lat, late := late }

end Sys2Proof.Machine
end

