-- ==== Sys2Proof/Machine/Operands.lean ====
section
/-! DEFINITION. Operand forms: slice operands, sources of every kind, latches, addresses, tag masks; and the resources that an instruction
reads and writes, which the interlocks and the bank rule work on (R60 to R73, R91 to R95, R143, R155). -/

namespace Sys2Proof.Machine

open Sys2Proof

/-! ### Scalar-file operands -/

/-- The range check of R63 in the scalar file. -/
def Core.slotOk (k : Core) (t : Nat) (o : Slot) : Bool := decide (k.startOf t o + o.w ≤ 8192)

/-- Value of a slice operand of the scalar file. -/
def Core.slotVal (k : Core) (t : Nat) (o : Slot) : Nat := rdSlices k.scalar (k.startOf t o) o.w

/-- Order 6 of R100 for a source in the scalar file: its range, or a latch that is not empty. -/
def Core.srcOk (k : Core) (t : Nat) (b : Bool) : Src → Bool
  | .file o _ | .scalar o _ => k.slotOk t o
  | .latch _ => decide ((if b then (k.engine t).latB else (k.engine t).latA).width ≠ 0)
  | .imm _ _ => true

/-- Width in slices of a source; an immediate has the width `dw` (R93). -/
def Core.srcW (k : Core) (t : Nat) (b : Bool) (dw : Nat) : Src → Nat
  | .file o _ | .scalar o _ => o.w
  | .latch _ => (if b then (k.engine t).latB else (k.engine t).latA).width
  | .imm _ _ => dw

/-- The check of R93 on an integer immediate of CMP whose other source is a latch: it takes the latch's width (R129). An empty latch is refused by
order 6. -/
def Core.latchImmOk (k : Core) (t : Nat) : Instr → Bool
  | .cmp f =>
    decide (f.sub.fmt ≠ 0) ||
    (match f.a, f.b with
     | .imm _ _, .latch _ => decide ((k.engine t).latB.width = 0) || immIntOk f.fs (4 * (k.engine t).latB.width) f.a
     | .latch _, .imm _ _ => decide ((k.engine t).latA.width = 0) || immIntOk f.fs (4 * (k.engine t).latA.width) f.b
     | _, _ => true)
  | _ => true

/-- The bits of a source in the scalar file: an integer immediate takes the width `dw` under its signedness. -/
def Core.srcVal (k : Core) (t : Nat) (b fs : Bool) (dw : Nat) : Src → Nat
  | .file o _ | .scalar o _ => k.slotVal t o
  | .latch _ =>
    let l := if b then (k.engine t).latB else (k.engine t).latA
    (SMap.get 0 l.val 0).toNat % 2 ^ (4 * l.width)
  | .imm v _ => wrapI (if fs then v.toInt else (v.toNat : Int)) (4 * dw)

/-- A source extended under FS (R66). -/
def Core.srcInt (k : Core) (t : Nat) (b fs : Bool) (dw : Nat) (x : Src) : Int := extI fs (k.srcVal t b fs dw x) (4 * k.srcW t b dw x)

/-- A control operand (R130) and every operand read with ZEXT: an immediate is ZEXT(v, 14). -/
def Core.ctlVal (k : Core) (t : Nat) (b : Bool) : Src → Nat
  | .imm v _ => v.toNat
  | x => k.srcVal t b false 0 x

/-- An offset operand (R143): SEXT of its own width; an immediate is SEXT(v, 14). -/
def Core.offVal (k : Core) (t : Nat) (b : Bool) : Src → Int
  | .imm v _ => v.toInt
  | x => sext (k.srcVal t b false 0 x) (4 * k.srcW t b 0 x)

/-- A float immediate of width fw (R93). -/
def immFloat (fw : Nat) (v : BitVec 14) : Nat := if 14 ≤ fw then v.toNat * 2 ^ (fw - 14) else v.toNat % 2 ^ fw

/-- Loads the latch of a position from a source with hold (R71). `v` and `w` are the value and width read. -/
def Core.holdLatch (k : Core) (t : Nat) (b : Bool) (x : Src) (v w : Nat) : Core :=
  match x with
  | .latch _ => k
  | x =>
    if x.hold then
      let l : Latch := { width := w, val := SMap.set 0 [] 0 (BitVec.ofNat 64 v) }
      k.modEngine t fun e => if b then { e with latB := l } else { e with latA := l }
    else k

/-- Loads latch A or B with the value that an integer source of the scalar file gives. -/
def Core.holdSrc (k : Core) (t : Nat) (b fs : Bool) (dw : Nat) (x : Src) : Core :=
  k.holdLatch t b x (k.srcVal t b fs dw x) (k.srcW t b dw x)

/-- Writes a destination of the scalar file (R64). -/
def Core.wrSlot (k : Core) (t : Nat) (o : Slot) (v : Nat) : Core :=
  { k with scalar := wrSlices k.scalar (k.startOf t o) o.w v }

/-- The effective address of R143. -/
def Core.effAddr (k : Core) (t : Nat) (a b : Src) : Nat :=
  (((k.ctlVal t false a : Nat) : Int) + k.offVal t true b) % ((2 ^ 56 : Nat) : Int) |>.toNat

/-- An address operand alone: ZEXT, modulo 2^56 (R143). -/
def Core.addr (k : Core) (t : Nat) (b : Bool) (a : Src) : Nat := k.ctlVal t b a % 2 ^ 56

/-! ### Lane-file operands (V-core, tags 1 to 3) -/

def Core.lslotOk (k : Core) (t : Nat) (o : Slot) : Bool := decide (k.startOf t o + o.w ≤ 24576)

/-- Value of a slice operand in one lane. -/
def Core.lslotVal (k : Core) (t l : Nat) (o : Slot) : Nat := rdSlices k.lanes (laneBase l + k.startOf t o) o.w

def Core.lsrcOk (k : Core) (t : Nat) (b : Bool) : Src → Bool
  | .file o _ => k.lslotOk t o
  | .scalar o _ => k.slotOk t o
  | .latch _ => decide ((if b then (k.engine t).latB else (k.engine t).latA).width ≠ 0)
  | .imm _ _ => true

/-- An immediate of `es` bits repeated over every element of a width of `dw` slices (R93). -/
def immSpread (es dw code : Nat) : Nat := (List.range (4 * dw / es)).foldl (fun a i => a + code % 2 ^ es * 2 ^ (es * i)) 0

/-- The code of an immediate under a format: 0 integer. -/
def immCode (fmt : BitVec 3) (fs : Bool) (es : Nat) (v : BitVec 14) : Nat :=
  if fmt = 0 then wrapI (if fs then v.toInt else (v.toNat : Int)) es else immFloat (fmtBits fmt) v

/-- The bits of a source in lane `l`. -/
def Core.lsrcVal (k : Core) (t l : Nat) (b : Bool) (fmt : BitVec 3) (fs : Bool) (es dw : Nat) : Src → Nat
  | .file o _ => k.lslotVal t l o
  | .scalar o _ => k.slotVal t o
  | .latch _ =>
    let x := if b then (k.engine t).latB else (k.engine t).latA
    (SMap.get 0 x.val l).toNat % 2 ^ (4 * x.width)
  | .imm v _ => immSpread es dw (immCode fmt fs es v)

/-- Lanes that a guard enables (R77, R89). -/
def Core.lanesOn (k : Core) (g : Guard) : List Nat :=
  (List.range 64).filter fun l => !g.gd || ((k.vpredOf g.p.toNat).getLsbD l != g.s)

/-- Loads a latch of every enabled lane (R71): the width in every case, the value where the lane is enabled. -/
def Core.holdLanes (k : Core) (t : Nat) (b : Bool) (x : Src) (lanes : List Nat) (w : Nat) (v : Nat → Nat) : Core :=
  match x with
  | .latch _ => k
  | x =>
    if x.hold then
      k.modEngine t fun e =>
        let old := if b then e.latB else e.latA
        let l : Latch := { width := w, val := lanes.foldl (fun m n => SMap.set 0 m n (BitVec.ofNat 64 (v n))) old.val }
        if b then { e with latB := l } else { e with latA := l }
    else k

/-- Writes a destination in one lane. -/
def Core.wrLane (k : Core) (t l : Nat) (o : Slot) (v : Nat) : Core :=
  { k with lanes := wrSlices k.lanes (laneBase l + k.startOf t o) o.w v }

/-- The 14-bit start and width of source C, which has the destination's width (R95). -/
def slotC (c : SrcC) (d : Slot) : Slot := { win := c.win, off := c.off, wm1 := d.wm1 }

/-! ### Elements of a value (R65) -/

/-- Element e of width es of a value. -/
def elemOf (es v e : Nat) : Nat := bitsN v (es * e) es

/-- A value made of elements, element 0 lowest. -/
def joinElems (es : Nat) (xs : List Nat) : Nat := xs.foldr (fun x acc => x % 2 ^ es + 2 ^ es * acc) 0

/-- The elements of a value of n elements. -/
def splitElems (es n v : Nat) : List Nat := (List.range n).map fun e => elemOf es v e

/-! ### Resources (R67 to R73) -/

/-- What an instruction reads and writes: granules of FILE and SCALAR sources (counted for R69), other reads, writes, and registers it
changes in stream order without a latency of its own (tags that an operation names, and the advances of circular buffers), and granules written whole. -/
structure Uses where
  src : List Res
  rd : List Res
  wr : List Res
  ord : List Res
  full : List Res
deriving DecidableEq, Repr

def Uses.nil : Uses := { src := [], rd := [], wr := [], ord := [], full := [] }

def Uses.add (a b : Uses) : Uses := { src := a.src ++ b.src, rd := a.rd ++ b.rd, wr := a.wr ++ b.wr, ord := a.ord ++ b.ord, full := a.full ++ b.full }

def Uses.all (us : List Uses) : Uses := us.foldl Uses.add .nil

/-- The granules of [start, start + w) (R67, R68), of a lane file or the scalar file. -/
def granules (lane : Bool) (start w : Nat) : List Res :=
  (List.range ((start + w - 1) / 16 - start / 16 + 1)).map fun i => if lane then Res.lg (start / 16 + i) else .sg (start / 16 + i)

/-- The granules that lie wholly in [start, start + w). -/
def wholeGranules (lane : Bool) (start w : Nat) : List Res :=
  (List.range ((start + w) / 16 - (start + 15) / 16)).map fun i => if lane then Res.lg ((start + 15) / 16 + i) else .sg ((start + 15) / 16 + i)

/-- The circumstances of an instruction: core, number, engine tag. -/
structure At where
  k : Core
  c : Nat
  t : Nat

def At.lane (a : At) : Bool := laneEngine a.c a.t

/-- A FILE operand that is a source. -/
def At.rdSlot (a : At) (o : Slot) : Uses :=
  { Uses.nil with src := granules a.lane (a.k.startOf a.t o) o.w, rd := [.win a.t o.win.toNat] }

/-- A slice operand of the scalar file that is a source. -/
def At.rdSc (a : At) (o : Slot) : Uses :=
  { Uses.nil with src := granules false (a.k.startOf a.t o) o.w, rd := [.win a.t o.win.toNat] }

/-- A destination. -/
def At.wrSlot (a : At) (o : Slot) : Uses :=
  { Uses.nil with wr := granules a.lane (a.k.startOf a.t o) o.w, rd := [.win a.t o.win.toNat], full := wholeGranules a.lane (a.k.startOf a.t o) o.w }

/-- A destination that is read as well (R135). -/
def At.rwSlot (a : At) (o : Slot) : Uses :=
  let g := granules a.lane (a.k.startOf a.t o) o.w
  { Uses.nil with wr := g, rd := [.win a.t o.win.toNat] ++ g }

def At.rdSrc (a : At) : Src → Uses
  | .file o _ => a.rdSlot o
  | .scalar o _ => a.rdSc o
  | _ => .nil

def useRd (rs : List Res) : Uses := { Uses.nil with rd := rs }
def useWr (rs : List Res) : Uses := { Uses.nil with wr := rs }
def useOrd (rs : List Res) : Uses := { Uses.nil with ord := rs }

/-- A circular buffer read, or read and advanced (R166, R255). -/
def useCb (i : BitVec 4) (adv : Bool) : Uses := if adv then useOrd [.cb i.toNat] else useRd [.cb i.toNat]

/-- A tag named by an asynchronous operation. -/
def useTen (ten : Bool) : Uses := if ten then useOrd [.tags] else .nil

/-- The registers that a system register number stands for. -/
def sysRes (n : Nat) : List Res :=
  if 0x80 ≤ n ∧ n < 0xA0 then [.win ((n - 0x80) / 4) ((n - 0x80) % 4)]
  else if n = 0xA0 then (List.range 16).map .pred
  else if 0xA8 ≤ n ∧ n ≤ 0xAB then [.lc (n - 0xA8)]
  else if 0xB0 ≤ n ∧ n ≤ 0xB7 then [.bt (n - 0xB0)]
  else if 0xC0 ≤ n ∧ n < 0xD0 then [.vpred (n - 0xC0)]
  else if 0x40 ≤ n ∧ n < 0x4E then [.nst 0]
  else if n = 8 ∨ n = 0x12 ∨ n = 0x4E then [.sysr n]
  else if n = 0x10 then [.tags]
  else []

/-- SEED and FPMODE.RM, read under a stochastic or dynamic mode (R45, R49). -/
def useRm (rm : Nat) : Uses := if rm = 6 then useRd [.sysr 8, .sysr 0x12] else if rm = 4 then useRd [.sysr 0x12] else .nil

/-- Guard predicate (R89). -/
def At.guard (a : At) (g : Guard) : Uses :=
  if g.gd then useRd [if a.lane then .vpred g.p.toNat else .pred g.p.toNat] else .nil

def At.s3 (a : At) (f : S3) : Uses := .all [a.rdSrc f.a, a.rdSrc f.b, a.wrSlot f.dst, useRm f.sub.rm.toNat]
def At.s3a (a : At) (f : S3a) : Uses := .all [a.rdSrc f.a, a.wrSlot f.dst, useRm f.sub.rm.toNat]
def At.s3c (a : At) (f : S3c) : Uses :=
  .all [a.rdSrc f.a, a.rdSrc f.b, a.rdSlot (slotC f.c f.dst), a.wrSlot f.dst, useRm (if f.c.rms && decide (f.c.fmt ≠ 0) then 6 else 0)]
def At.s2r (a : At) (f : S2r) : Uses := .all [a.rdSrc f.a, a.wrSlot f.dst]

/-- ST-like: the DST field is a source. -/
def At.s3st (a : At) (f : S3) : Uses := .all [a.rdSlot f.dst, a.rdSrc f.a, a.rdSrc f.b]

def At.cmp (a : At) (f : S3cmp) : Uses :=
  let p : Res := if a.lane then .vpred f.pd.toNat else .pred f.pd.toNat
  .all [a.rdSrc f.a, a.rdSrc f.b, useWr [p], if f.mode = 0 then .nil else useRd [p]]

def At.mask (a : At) : MaskArg → Uses
  | .one _ => .nil
  | .slot o => a.rdSc o

/-- The working bank and the visible bank (R226). -/
def At.bank (a : At) (vis : Bool) : Res := .accBank (if a.k.wbank != vis then 1 else 0)

def At.copy (a : At) (f : CopyF) : Uses := .all [a.rdSlot f.dst, a.rdSrc f.a, a.rdSrc f.n, useTen f.ten]

/-- Whether the CE has issued the word at the pc of the engine before it. -/
def Core.ceAhead (k : Core) (t : Nat) : Bool := decide (t ≠ 0) && decide ((k.engine t).idx < (k.engine 0).idx)

/-- Whether a BRL that names one register twice goes, on the engine, to the target that the CE has handed on (R117). -/
def Core.handed (k : Core) (t kk l : Nat) : Bool := decide (kk = l) && k.ceAhead t && !(k.engine t).links.isEmpty

/-- The instruction's operands and registers, its guard apart. Words of the ALL class are read by every engine; only the CE writes. -/
def At.body (a : At) (i : Instr) : Uses :=
  match i with
  | .pbr f => if a.t = 0 then useWr [.bt f.k.toNat] else .nil
  | .br f => useRd [.bt f.k.toNat]
  | .brl f => .all [if a.k.handed a.t f.k.toNat f.l.toNat then .nil else useRd [.bt f.k.toNat], if a.t = 0 then useWr [.bt f.l.toNat] else .nil]
  | .loop f =>
    if a.t = 0 then
      .all [useWr [.lc f.n.toNat],
        if f.csrc then a.rdSc { win := f.count.extractLsb' 12 2, off := f.count.extractLsb' 4 8, wm1 := f.count.extractLsb' 0 4 } else .nil]
    else .nil
  | .add f | .sub f | .mul f | .mulh f | .and f | .or f | .xor f | .andn f | .shl f | .shr f | .rot f | .min f | .max f
  | .ext f | .lea f => a.s3 f
  | .divi f | .remi f => .all [a.s3 f, useRd [.unit 0], useWr [.unit 0]]
  | .ins f => .all [a.rdSrc f.a, a.rdSrc f.b, a.rwSlot f.dst]
  | .clz f | .popc f | .mov f => a.s2r f
  | .movi f => a.wrSlot f.dst
  | .moviHi f => a.rwSlot f.dst
  | .sel f => a.s3c f
  | .cmp f => a.cmp f
  | .plog f => .all [useRd [.pred f.pa.toNat, .pred f.pb.toNat], useWr [.pred f.pd.toNat]]
  | .pmov f =>
    let ps := (List.range (min (4 * f.s.w) (16 - f.f.toNat))).map fun j => Res.pred (f.f.toNat + j)
    match f.dir.toNat with
    | 0 => .all [a.rdSc f.s, useWr ps]
    | 1 => .all [useRd ps, a.wrSlot f.s]
    | 2 => .all [a.rdSc f.s, useWr [.vpred f.k.toNat]]
    | _ => .all [useRd [.vpred f.k.toNat], a.wrSlot f.s]
  | .setw f =>
    .all [useWr [.win f.t.toNat f.w.toNat], if f.add then useRd [.win f.t.toNat f.w.toNat] else .nil,
      match f.arg with
      | .imm _ => .nil
      | .slot o => a.rdSc o]
  | .getw f => .all [useRd [.win f.t.toNat f.w.toNat], a.wrSlot f.dst]
  | .ld f => a.s3 f
  | .st f => a.s3st f
  | .spill f =>
    let st := a.k.window a.t f.win.toNat + f.off.toNat
    .all [a.rdSrc f.a, a.rdSrc f.b, useRd (.win a.t f.win.toNat :: granules false st (f.cnt.toNat + 1))]
  | .fill f =>
    let st := a.k.window a.t f.win.toNat + f.off.toNat
    .all [a.rdSrc f.a, a.rdSrc f.b, useRd [.win a.t f.win.toNat],
      { Uses.nil with wr := granules false st (f.cnt.toNat + 1), full := wholeGranules false st (f.cnt.toNat + 1) }]
  | .atom f => .all [a.rdSrc f.a, a.rdSrc f.x, a.wrSlot f.dst]
  | .atomn f => .all [a.rdSrc f.a, a.rdSrc f.x]
  | .cas f => .all [a.rdSrc f.a, a.rdSrc f.x, a.rwSlot f.dst, if f.pe then useWr [.pred f.pd.toNat] else .nil]
  | .twait f => .all [a.mask f.m, useRd [.tags], if f.clr then useWr [.tags] else .nil]
  | .tffr f => .all [a.rdSc f.k, a.wrSlot f.dst, useRd [.tags], if f.clr then useWr [.tags] else .nil]
  | .tclr f => .all [a.mask f.m, useWr [.tags]]
  | .bari f | .barx f => .all [a.rdSrc f.a, a.rdSrc f.e]
  | .bwait f => .all [match f.psrc with
      | some o => a.rdSc o
      | none => .nil, a.rdSc f.a]
  | .segst f => a.wrSlot f.dst
  | .mfsr f => .all [useRd (sysRes f.num.toNat ++ if f.num = 0x4E then [.wbank] else []), a.wrSlot f.dst]
  | .mtsr f => .all [a.rdSrc f.src, useWr (sysRes f.num.toNat)]
  | .rdtime f | .rdreck f => a.wrSlot f.dst
  | .rand f => .all [a.rdSrc f.c, a.rdSrc f.q, a.wrSlot f.dst, useRd [.sysr 0x12]]
  | .pace f => match f.arg with
    | .imm _ => .nil
    | .slot o => a.rdSc o
  | .cbset f => useWr [.cb f.cb.toNat]
  | .cbadv f => .all [useWr [.cb f.cb.toNat], match f.cnt with
    | .imm _ => .nil
    | .slot o => a.rdSc o]
  | .cbqry f => .all [useRd [.cb f.cb.toNat], a.wrSlot f.dst]
  | .vadd f | .vsub f | .vmul f | .vmin f | .vmax f | .vand f | .vor f | .vxor f | .vshl f | .vshr f | .vbcast f | .vperm f
  | .vrot f | .vshuf f | .vpack f | .vld f | .vldx f | .nnorm f => a.s3 f
  | .vred f => a.s3 f
  | .vscan f => .add (a.s3 f) (match f.b with
    | .imm v _ => if v.getLsbD 3 then .nil else useRd [.unit 1]
    | _ => .nil)
  | .vst f | .vstx f => a.s3st f
  | .vfma f | .vfms f | .vsel f | .vdot f => a.s3c f
  | .vabs f | .vneg f | .vunpk f | .nrsq f | .nrcp f | .nexp2 f | .nlog2 f | .nsig f | .ntanh f | .qamax f => a.s3a f
  | .nmom f => .all [a.rdSrc f.a, if f.sub.xs.getLsbD 0 then a.rwSlot f.dst else a.wrSlot f.dst]
  | .nsoft f => .all [a.rdSrc f.a, a.rwSlot f.dst]
  | .vcmp f => a.cmp f
  | .vcvt f => .all [a.rdSrc f.a, a.wrSlot f.dst, useRm f.sub.rm.toNat]
  | .vmov f => a.s2r f
  | .viota f => a.s2r f
  | .vldc f => .all [a.rdSrc f.b, a.wrSlot f.dst, useCb f.cb (f.sub.xs.getLsbD 0)]
  | .vstc f => .all [a.rdSlot f.dst, a.rdSrc f.b, useCb f.cb (f.sub.xs.getLsbD 0)]
  | .qscale f => .all [a.rdSrc f.a, a.wrSlot f.dst]
  | .qblk f => .all [a.rdSrc f.a, if f.sub.xs = 0 then .nil else a.rdSrc f.b, useRd [.cb f.cb.toNat], useRm f.sub.rm.toNat]
  | .qdeq f => .all [a.wrSlot f.dst, useRd [.cb f.cb.toNat], useRm f.sub.rm.toNat]
  | .qsign f => .all [a.s3 f, useRd [.sysr 0x12]]
  | .lds f => a.rdSrc f.a
  | .ldsc f | .ldscl f => useCb f.cb f.adv
  | .msign f => .all [if f.en then a.rdSrc f.b else .nil, useWr [.sign]]
  | .mma f =>
    .all [a.rdSrc f.aoff, useRd [.nst 0, .wbank, a.bank false],
      if (a.k.nestOf 13).getLsbD 5 then useRd [.sign] else .nil,
      if (a.k.nestOf 13).getLsbD 5 && (a.k.nestOf 13).getLsbD 3 then useRd [.sysr 0x12] else .nil, useWr [a.bank false]]
  | .accClr f => .all [useRd [.wbank], useWr [a.bank f.vis]]
  | .accSwap _ => useWr [.wbank]
  | .accRd f => .all [a.rdSrc f.i, a.wrSlot f.d, useRd [.wbank, a.bank f.vis]]
  | .accWr f => .all [a.rdSlot f.d, a.rdSrc f.i, useRd [.wbank], useWr [a.bank f.vis]]
  | .accCarry _ => .all [useRd [.wbank, a.bank false], useWr [a.bank true]]
  | .drain f =>
    .all [a.rdSrc f.row, a.rdSrc f.n, useRd [.wbank, a.bank true, .mul, .tsc], useCb f.cb f.adv, useRm f.rm.toNat]
  | .dscale f => .all [if f.setm then .add (a.rdSrc f.a) (useWr [.mul]) else .nil, if f.sett then .add (a.rdSrc f.b) (useWr [.tsc]) else .nil]
  | .damax f => .all [a.rdSrc f.row, a.rdSrc f.n, a.wrSlot f.dst, useRd [.wbank, a.bank true]]
  | .igen f => .all [a.rdSrc f.a, a.rdSrc f.b, useCb f.dcb f.adv]
  | .imap f => .all [a.rdSrc f.a, a.rdSrc f.b, useCb f.dcb f.advd, useCb f.scb f.advs]
  | .icmp f => .all [a.rdSrc f.a, a.rdSrc f.b, useCb f.dcb f.advd, useCb f.scb f.advs]
  | .gath f | .scat f => .all [a.rdSrc f.a, a.rdSrc f.rb, useCb f.cb f.advx, useCb f.icb f.advi, useTen f.ten]
  | .win f => .all [a.rdSrc f.a, useCb f.dcb f.advd, useCb f.scb f.advs]
  | .gseg f => .all [a.rdSrc f.a, a.rdSrc f.rb, useCb f.dcb f.advd, useCb f.scb f.advs, useCb f.icb f.advi]
  | .ast f => .all [a.rdSrc f.a, useCb f.vcb f.advv, useCb f.icb f.advi]
  | .await f => if f.bar then .all [a.rdSrc f.n, a.rdSc f.a] else .nil
  | .hld f | .hst f =>
    .all [a.rdSrc f.a, a.rdSrc f.b, if f.cbm then useCb f.cb f.adv else a.rdSc f.c, useTen f.ten]
  | .hpre f => .all [a.rdSrc f.a, a.rdSrc f.n]
  | .hzero f => .all [a.rdSrc f.a, a.rdSrc f.n, useTen f.ten]
  | .tcopy f => .all [a.rdSrc f.a, a.rdSrc f.b, a.rdSc f.c, useTen f.ten]
  | .tcvt f => .all [useCb f.scb f.advs, useCb f.dcb f.advd, useTen f.ten, useRm f.rm.toNat]
  | .push f => .all [a.rdSrc f.due, useCb f.scb f.advs]
  | .pushb f => .all [a.rdSlot f.dst, a.rdSrc f.a, a.rdSrc f.due, a.rdSc f.c]
  | .copy f | .copyd f | .pull f => a.copy f
  | .copyb f => .all [a.rdSlot f.dst, a.rdSrc f.a, a.rdSrc f.n, a.rdSc f.bar]
  | .coll f => .all [a.rdSrc f.a, useTen f.ten]
  | _ => .nil

/-- Whether an instruction is a word of the ALL class (R113). -/
def isAll : Instr → Bool
  | .nop _ | .pbr _ | .br _ | .brl _ | .loop _ | .lbrk _ | .segOpen _ | .segClose | .gbar _ | .halt | .ckdiv _ | .slipw | .brk _ => true
  | _ => false

/-- All that an instruction reads and writes; of a word of the ALL class only the CE evaluates the guard (R89). -/
def At.uses (a : At) (i : Instr) : Uses :=
  .add (if isAll i && decide (a.t ≠ 0) then .nil else a.guard (guardOf i)) (a.body i)

end Sys2Proof.Machine
end

