-- ==== Sys2Proof/Machine/Issue.lean ====
section
/-! DEFINITION. Issuing an instruction: the conditions under which an engine issues (interlocks, beads, slip, pacing, read stalls, the
checks of R100), and what every issue does beside the instruction's own effect (R69 to R74, R84 to R89, R111, R269 to R285, R316, R321). -/

namespace Sys2Proof.Machine

open Sys2Proof

/-! ### Where the cursor stands -/

/-- The core, engine and reckoner tick of the cursor. -/
def State.here (s : State) : Core := s.core s.cur.core

def State.hereE (s : State) : Engine := s.here.engine s.cur.tag

def State.now (s : State) : Nat := s.reckOf s.cur.core

def State.modHere (s : State) (f : Core → Core) : State := s.modCore s.cur.core f

def State.modHereE (s : State) (f : Engine → Engine) : State := s.modEngine s.cur.core s.cur.tag f

def State.ct (s : State) : CoreType := coreType s.cur.core

/-- Divisor of the engine at the cursor. -/
def State.d (s : State) : Nat := s.here.div s.cur.tag

/-- Whether a core has issued its SEG.CLOSE and waits for the commit of its group (R301). -/
def Core.parked (k : Core) : Bool := k.seg.elim false fun g => g.closed.isSome

/-- Whether the engine at the cursor runs a stream: present, its core in a group that is neither stopped, nor held since an earlier tick, nor
about to be discarded, not halted, and not waiting for a commit (R15, R125, R301, R324, R354). -/
def State.runs (s : State) : Bool :=
  hasTag s.ct s.cur.tag && !s.here.halted && !s.here.stream.isEmpty && !s.here.parked &&
  (match s.groupOf s.cur.core with
   | some g => (g.held.elim true fun h => decide (g.reck ≤ h.tick)) && (g.pend.elim true fun p => decide (g.reck < p.tick)) && g.reenter.isNone && !g.stopped
   | none => false)

/-! ### Waiting -/

/-- The engine stalls until its next issue opportunity (R1, R270). `opn`: it waits for an open-time condition (R279). -/
def State.stall (s : State) (opn : Bool) : State :=
  let T := s.now
  let d := s.d
  s.modHereE fun e => { e with nextAt := T + d, since := some (e.since.getD T), openWait := opn }

/-- The engine waits with its group paused under a source of R282; it tries again at the same reckoner tick. -/
def State.pause (s : State) (src : Nat) : State :=
  let g := (s.here.grp).getD 0
  let s := if s.hereE.waits.isSome then s else s.trace 4 g 0xFF 0xFF src 0
  s.modHereE fun e => { e with waits := some (src, s.time) }

/-- The pause of the engine at the cursor ends. -/
def State.unpause (s : State) : State :=
  match s.hereE.waits with
  | none => s
  | some w => (s.trace 5 ((s.here.grp).getD 0) 0xFF 0xFF w.1 0).modHereE fun e => { e with waits := none }

/-! ### Bead bits (R84, R85) -/

/-- The bead bits of an instruction by the time at which they act: takes and adds at issue, takes and adds at completion. -/
structure Beads where
  tp : Bool
  tn : Bool
  ap : Bool
  an : Bool
  cp : Bool
  cn : Bool
  dp : Bool
  dn : Bool
deriving DecidableEq, Repr

def beadsOf (i : Instr) : Beads :=
  let ws := encode i
  let h := ws.headD 0
  let l := ws.getLastD 0
  let one := decide (ws.length = 1)
  { tp := h.getLsbD 31, tn := h.getLsbD 30, ap := !one && h.getLsbD 29, an := !one && h.getLsbD 28,
    cp := !one && l.getLsbD 31, cn := !one && l.getLsbD 30, dp := l.getLsbD 29, dn := l.getLsbD 28 }

/-! ### Interlocks (R72 to R74) -/

def meetsRes (a b : List Res) : Bool := a.any fun r => b.contains r

/-- An entry that still withholds its resource at a tick. -/
def Busy.blocks (b : Busy) (s : State) (c T : Nat) : Bool :=
  decide (T < b.tick) || (b.op.elim false fun id => (s.flight id).isSome) ||
  (b.hold.elim false fun t => ((s.core c).engine t).hold.isSome)

/-- Reads of an instruction that must wait for a write that has issued and not committed. -/
def State.readsWait (s : State) (c T : Nat) (u : Uses) : Bool :=
  (s.core c).busy.any fun b => (u.src.contains b.res || u.rd.contains b.res || u.ord.contains b.res) && b.blocks s c T

/-- Whether an operation is an open-time one that is still in progress. -/
def State.opOpen (s : State) (o : Option Nat) : Bool := o.elim false fun id => (s.flight id).elim false fun f => !f.fixed

/-- Whether an interlock wait of an instruction waits for an open-time operation (R279). -/
def State.busyOpen (s : State) (c : Nat) (u : Uses) : Bool :=
  (s.core c).busy.any fun b => (u.src ++ u.rd ++ u.ord ++ u.wr).contains b.res && s.opOpen b.op

/-- Whether another engine of the core waits for an open-time condition (R279). -/
def Core.othersOpen (k : Core) (ct : CoreType) (t : Nat) : Bool := (tagsOf ct).any fun f => decide (f ≠ t) && (k.engine f).openWait

/-- Operations that end by writing registers. -/
def Work.lands : Work → Bool
  | .load _ _ _ _ _ _ _ _ | .fill _ _ _ _ | .vload _ _ _ | .qdeq _ _ _ _ _ _ _ _ _ _ _ _ _ | .damax _ _ _ _ | .atomic _ _ _ _ _ _ _ _ _ => true
  | _ => false

/-- Whether the write of an instruction that would commit at tick `C` would not follow an earlier write (R72). A fixed-time operation that
writes registers commits at the tick that its entry holds. -/
def State.writesWait (s : State) (c C : Nat) (u : Uses) : Bool :=
  (s.core c).busy.any fun b => u.wr.contains b.res &&
    (decide (C ≤ b.tick) || (b.op.elim false fun id => (s.flight id).elim false fun f => !(f.fixed && f.work.lands)) ||
      (b.hold.elim false fun t => ((s.core c).engine t).hold.isSome))

/-- Registers whose earlier readers do not hold back a later write (R81: SEED and FPMODE). -/
def Res.free : Res → Bool
  | .sysr _ => true
  | _ => false

/-- Whether `u`, later in stream order, conflicts with `v` (R72). -/
def Uses.conflicts (u v : Uses) : Bool :=
  meetsRes (u.src ++ u.rd ++ u.ord) (v.wr ++ v.ord) ||
  meetsRes ((u.wr ++ u.ord).filter fun r => !r.free) (v.src ++ v.rd ++ v.wr ++ v.ord)

/-- The window write of a word that the CE has not issued, for tag `f`: none if the word writes no window of that engine; the new core
state if the value is known from the word; `some none` if it is not. -/
def pendingWindow (k : Core) (f : Nat) : Instr → Option (Option Core)
  | .setw x =>
    if x.t.toNat ≠ f then none
    else match x.arg with
      | .imm v => some (some (k.setWindow f x.w.toNat (if x.add then BitVec.ofNat 15 (k.window f x.w.toNat) + v else v)))
      | .slot _ => some none
  | .mtsr x => if 0x80 + 4 * f ≤ x.num.toNat ∧ x.num.toNat < 0x84 + 4 * f then some none else none
  | _ => none

/-- Whether the words of `path` that engine `f` has not issued conflict with `u`. `n` counts the words from there that the CE has
issued. A word that does not decode holds every later one back. -/
def lagConflict (k0 : Core) (c f : Nat) (u : Uses) : Core → Nat → List Nat → Bool
  | _, _, [] => false
  | k, n, p :: ps =>
    match decode (coreType c) (k0.stream.drop p) with
    | .bad _ _ => true
    | .instr i _ tag =>
      if (decide (tag = f) || isAll i) && u.conflicts (At.uses { k := k, c := c, t := f } i) then true
      else
        match (if n = 0 ∧ tag = 0 then pendingWindow k f i else none) with
        | some none => true
        | some (some k') => lagConflict k0 c f u k' (n - 1) ps
        | none => lagConflict k0 c f u k (n - 1) ps

/-- Whether an earlier word that another engine has not yet issued conflicts with `u`. -/
def Core.lagsBehind (k : Core) (c t : Nat) (u : Uses) : Bool :=
  let me := (k.engine t).idx
  (tagsOf (coreType c)).any fun f =>
    let e := k.engine f
    decide (f ≠ t) && decide (e.idx < me) && lagConflict k c f u k ((k.engine 0).idx - e.idx) ((k.path.drop e.idx).take (me - e.idx))

/-! ### Read stalls (R69, R333) -/

/-- Column of a granule: its bank. -/
def Res.bank : Res → Option Nat
  | .sg g => some (g % 6)
  | .lg g => some (g % 6)
  | _ => none

/-- The banks' distinct granule counts of one file. -/
def bankCounts (rs : List Res) : List Nat :=
  let ds := rs.eraseDups
  (List.range 6).map fun b => (ds.filter fun r => r.bank = some b).length

def Res.isLane : Res → Bool
  | .lg _ => true
  | _ => false

/-- Read cycles c of R69 and the lowest bank that sets it. -/
def readCycles (src : List Res) : Nat × Nat :=
  let a := bankCounts (src.filter fun r => !r.isLane)
  let b := bankCounts (src.filter Res.isLane)
  let m := (a ++ b).foldl max 1
  (m, ((List.range 6).find? fun i => decide (a.getD i 0 = m ∨ b.getD i 0 = m)).getD 0)

/-- Adds to a counter of the bank-conflict matrix (R431). -/
def Core.bankStall (k : Core) (t col n : Nat) : Core :=
  { k with bcm := SMap.set 0 k.bcm (30 * t + col) (min (2 ^ 32 - 1) (SMap.get 0 k.bcm (30 * t + col) + n)) }

/-! ### Errors in registers (R408 to R410) -/

/-- Slice files, as against words of control state (R408). -/
def Res.isSlices : Res → Bool
  | .sg _ | .lg _ => true
  | _ => false

/-- Consumes the registers and slices that an instruction reads: the error where one is uncorrectable. -/
def State.consumeRes (s : State) (rs : List Res) : State × Option Cause :=
  let hits := s.here.ecc.filter fun p => rs.contains p.1
  if hits.isEmpty then (s, none)
  else if hits.any fun p => p.2 then
    (s.countDie (slotOfCore s.cur.core), some (if hits.any fun p => p.2 && p.1.isSlices then .ueSram else .controlWord))
  else
    let s := s.modHere fun k => { k with ecc := k.ecc.filter fun p => !rs.contains p.1 }
    (s.claim (s.here.grp.getD 0) 3 (some (s.time + 25)), none)

/-! ### The gate -/

/-- Whether an engine may issue now: it may, from a state; or it does not, and the machine goes on from a state. -/
inductive Gate where
  | pass (s : State)
  | stop (s : State)
deriving DecidableEq, Repr

/-- The pc and the loops of an engine after a word of `len` words at its pc: on, or round the innermost loop that ends there (R119). -/
def Engine.onward (e : Engine) (len : Nat) : Nat × List LoopSt :=
  match e.loops with
  | l :: ls =>
    if e.pc ≤ l.last ∧ l.last < e.pc + len then (if l.cnt = 1 then (e.pc + len, ls) else (l.first, { l with cnt := l.cnt - 1 } :: ls))
    else (e.pc + len, e.loops)
  | [] => (e.pc + len, [])

/-- Whether a word that faults is one that no engine passes: it has no length, or every engine executes it. -/
def barsAll (ws : List W32) : Bool :=
  let w := ws.headD 0
  decide (w.extractLsb' 23 2 = 3#2 ∨ w.extractLsb' 25 3 = 7#3) || decide (ws.length < (w.extractLsb' 23 2).toNat + 1)

/-- Position of the next word that engine `t` will issue: the words of others that it steps over lie before it (R280). -/
def headPos (ct : CoreType) (stream : List W32) (t : Nat) : Nat → Engine → Nat
  | 0, e => e.pos
  | n + 1, e =>
    let go (len : Nat) : Nat :=
      let o := e.onward len
      headPos ct stream t n { e with pos := e.pos + len, pc := o.1, loops := o.2 }
    match decode ct (stream.drop e.pc) with
    | .instr i len tag => if tag = t ∨ isAll i then e.pos else go len
    | .bad _ tag => if tag = t ∨ barsAll (stream.drop e.pc) then e.pos else go ((((stream.drop e.pc).headD 0).extractLsb' 23 2).toNat + 1)

/-- Slip (R280): the stream words that lie before the engine against those before the slowest other engine, as they stood when the tick
began. -/
def Core.slips (k : Core) (ct : CoreType) (t T : Nat) : Bool :=
  let p := (k.engine t).pos
  ((tagsOf ct).filter fun f => decide (f ≠ t)).any fun f =>
    let e := k.engine f
    decide (e.pos0 + k.slip.toNat < p) &&
      decide ((if e.lastAt = some T then e.pos0 else headPos ct k.stream f (p - e.pos) e) + k.slip.toNat < p)

/-- Pacing (R164, R272). -/
def Core.paced (k : Core) (t T : Nat) : Bool :=
  let p := bitsN k.pacer.toNat (8 * t) 8
  (k.engine t).lastAt.elim false fun l => decide (T < l + p)

/-- A fault of a word: the CE raises those of ALL-class words; the other engines wait before the word (R99). -/
def State.wordFault (s : State) (i : Instr) (c : Cause) (info : W64) (page : Option Nat) : State :=
  if isAll i && decide (s.cur.tag ≠ 0) then s.stall false else s.unpause.raise c info page

/-- Orders 4 and 5 of R100 on the instruction of the engine at the cursor: the fault of the first failing check. -/
def State.issueFault (s : State) (i : Instr) : Option Cause := if s.here.latchImmOk s.cur.tag i then staticFault i else some .illegalEncoding

/-- The engine at the cursor takes the beads of its instruction, unless it took them before a stall for banks (R84, R86). -/
def State.takeBeads (s : State) (i : Instr) : State :=
  if s.hereE.primed || s.hereE.asked then s
  else
    let T := s.now
    let b := beadsOf i
    s.modHereE fun e => e.beadTake T b.tp b.tn

/-- The conditions of issue in the order in which they are met: adds and takes still owed (R85), the checks of R100 of orders 4 and 5, the
seam's instruction count (R316), slip, pacing, interlocks, beads, read stalls, errors in what is read. -/
def gate (s : State) (i : Instr) : Gate :=
  let c := s.cur.core
  let t := s.cur.tag
  let T := s.now
  let k := s.here
  let e := s.hereE
  let u := At.uses { k := k, c := c, t := t } i
  let b := beadsOf i
  let took := e.primed || e.asked
  if (e.owed.any fun o => decide (o.tick ≤ T) && o.op.isNone) || e.hold.isSome then .stop (s.stall false)
  else match s.issueFault i with
  | some f => .stop (s.wordFault i f 0 none)
  | none =>
    if !k.inSeg && decide (256 ≤ e.seam) then .stop (s.unpause.raise .segmentLegality 0 none)
    else if k.slips s.ct t T || k.paced t T then .stop (s.stall (k.othersOpen s.ct t))
    else if s.readsWait c T u || k.lagsBehind c t u then .stop (s.stall (s.busyOpen c u || k.othersOpen s.ct t))
    else if !took && !e.beadReady T b.tp b.tn then .stop (s.stall false)
    else if !took && !e.beadEpoch b.tp b.tn then .stop (s.unpause.raise .segmentLegality 0 none)
    else if !k.beadRoom s.ct t T b.ap b.an then .stop (s.stall false)
    else
      let r := readCycles u.src
      if decide (1 < r.1) && !e.primed then
        .stop ((s.takeBeads i).modHere fun k => (k.modEngine t fun e => { e with primed := true, nextAt := T + (r.1 - 1) * k.div t }).bankStall t r.2 (r.1 - 1))
      else
        match s.consumeRes (u.src ++ u.rd ++ u.ord) with
        | (s, none) => .pass s
        | (s, some c) => .stop (s.unpause.raise c 0 none)

/-! ### What a meaning answers -/

/-- An instruction that issues: the state with its own effects, its latency in cycles to the result, its issue in cycles, the tick C at
which its last effect commits where that is not issue + latency, whether it is asynchronous (R85), where the engine goes if not on, the
operation whose end its results and its completion wait for, or the operations that each write a part of its results, whether that operation
sees to the completion beads itself, and whether it reads memory, for FENCE (R152). -/
structure Go where
  s : State
  lat : Nat := 1
  cyc : Nat := 1
  commit : Option Nat := none
  async : Bool := false
  jump : Option Nat := none
  op : Option Nat := none
  parts : List (Nat × List Res) := []
  own : Bool := false
  load : Bool := false

/-- What becomes of an instruction at issue: a fault, trap or detected error; a wait, with the group paused or the engine stalled; a stall of
stated length for the banks of a buffer; or it issues. -/
inductive Plan where
  | bad (s : State) (c : Cause) (info : W64) (page : Option Nat)
  | wait (s : State) (pause : Option Nat) (opn : Bool)
  | hold (s : State) (cycles : Nat)
  | go (g : Go)

/-- The answer for a fault with no INFO, charged in the state it was found in. -/
def Plan.fault (s : State) (c : Cause) : Plan := .bad s c 0 none

/-- A stall for a condition that the schedule fixes. -/
def Plan.stall (s : State) : Plan := .wait s none false

/-! ### What operations touch -/

/-- Completion signals that an operation will make. -/
def Work.fins : Work → List Fin
  | .write _ fs | .copy _ _ _ _ _ _ fs | .beats _ _ _ _ _ fs | .plane _ _ _ _ _ _ fs | .row _ _ _ fs | .rowRead _ _ _ _ _ _ _ _ _ _ _ _ _ _ fs => fs
  | _ => []

/-- Runs that an operation will write. -/
def Work.writes : Work → List Run
  | .copy _ _ dst _ _ _ _ => dst
  | .load _ _ _ _ _ _ _ _ | .fill _ _ _ _ | .vload _ _ _ => []
  | w => w.runs

/-- Source bytes of deferred copies of the core at the cursor that are still to be read (R263). -/
def State.heldRuns (s : State) : List Run :=
  s.flights.flatMap fun f => match f.work with
    | .copy _ _ _ _ last hs _ => if f.core = s.cur.core ∧ (!f.fixed ∨ s.now ≤ last) then hs else []
    | _ => []

/-- Whether the operations that an issue would start, in `s'`, write such a byte. -/
def State.heldBy (s s' : State) : Bool :=
  !s.heldRuns.isEmpty &&
    (s'.flights.filter fun f => decide (s.nextId ≤ f.id)).any fun f => f.work.writes.any fun r => s.heldRuns.any fun h => r.meets h

/-! ### Leaving a word -/

/-- The bank-conflict snapshot of a loop ending (KIND 0) or a unit completion (KIND 1) (R432). -/
def State.snapshot (s : State) (c kind n word : Nat) : State :=
  let ctl := (s.cregOf 0x668).toNat
  let k := s.core c
  let clear (s : State) : State := s.modCore c fun k => { k with bcm := [] }
  if bitN ctl 0 then
    let size := 2 ^ (bitsN ctl 1 4 + 4)
    let tail := bitsN ctl 32 32
    let head := bitsN (s.cregOf 0x670).toNat 0 32
    if (tail + 2 ^ 32 - head) % 2 ^ 32 = size then s
    else
      let rec960 := leBytes 8 s.time ++ leBytes 4 (s.reckOf c) ++ leBytes 2 c ++ leBytes 1 kind ++ leBytes 1 n ++ leBytes 4 word ++
        List.replicate 44 0 ++ ((List.range 210).flatMap fun i => leBytes 4 (SMap.get 0 k.bcm i)) ++ List.replicate 56 0
      let s := s.store (bitsN (s.cregOf 0x660).toNat 0 52 + tail % size * 960) rec960
      clear (s.setCreg 0x668 (BitVec.ofNat 64 (ctl % 2 ^ 32 + (tail + 1) % 2 ^ 32 * 2 ^ 32)))
  else clear s

/-- A loop of an engine ends (R120): the CE's copy is the register, and the CE makes the snapshot. -/
def State.loopEnd (s : State) (c t : Nat) (l : LoopSt) (v : Nat) : State :=
  if t = 0 then (s.modCore c fun k => { k with lc := SMap.set 0 k.lc l.n (BitVec.ofNat 32 v) }).snapshot c 0 l.n l.last else s

/-- Drops the part of the path that every engine has passed. -/
def Core.trimPath (k : Core) (ct : CoreType) : Core :=
  let m := (tagsOf ct).foldl (fun a t => min a (k.engine t).idx) k.path.length
  if m = 0 then k
  else { k with path := k.path.drop m, eng := k.eng.map fun p => (p.1, { p.2 with idx := p.2.idx - m }) }

/-- The engine leaves the word at its pc: to `jump`, or on to the next word or round the innermost loop that ends there (R83, R119).
A branch that is taken at the last word of a loop goes to its target and leaves the loop as it is (DEDUCED, log entry 104). -/
def State.leave (s : State) (c t len : Nat) (jump : Option Nat) : State :=
  let k := s.core c
  let e := k.engine t
  let k := { k with path := if e.idx = k.path.length then k.path ++ [e.pc] else k.path }
  let e' := { e with idx := e.idx + 1, pos := e.pos + len, pc := jump.getD (e.pc + len) }
  let put (e : Engine) : State := s.setCore c ((k.setEngine t e).trimPath (coreType c))
  match jump, e.loops with
  | none, l :: ls =>
    if e.pc ≤ l.last ∧ l.last < e.pc + len then
      if l.cnt = 1 then (put { e' with loops := ls }).loopEnd c t l 0
      else
        let s := put { e' with loops := { l with cnt := l.cnt - 1 } :: ls, pc := l.first }
        if t = 0 then s.modCore c fun k => { k with lc := SMap.set 0 k.lc l.n (BitVec.ofNat 32 (l.cnt - 1)) } else s
    else put e'
  | _, _ => put e'

/-! ### What every issue does -/

/-- CRC-64 ECMA-182, most significant bit first (R321). -/
def crcByte (s : W64) (b : Byte) : W64 :=
  (List.range 8).foldl (fun s i => if s.getLsbD 63 != b.getLsbD (7 - i) then (s <<< 1) ^^^ 0x42F0_E1EB_A9EA_3693#64 else s <<< 1) s

/-- The six bytes that an issue adds to the signature: the head word and the low 16 bits of the segment tick. -/
def sigBytes (head : W32) (tick : Nat) : List Byte := leBytes 4 head.toNat ++ leBytes 2 tick

/-- What a resource holds, for a result that has not yet committed. -/
def Core.resVal (k : Core) : Res → List Nat
  | .sg g => [rdSlices k.scalar (16 * g) 16]
  | .lg g => (List.range 64).map fun l => rdSlices k.lanes (laneBase l + 16 * g) 16
  | .pred i => [if k.predBit i then 1 else 0]
  | .vpred i => [(k.vpredOf i).toNat]
  | .win t w => [k.window t w]
  | .lc i => [(k.lcOf i).toNat]
  | .bt i => [(k.btOf i).toNat]
  | _ => []

/-- Puts back what a resource held. -/
def Core.resSet (k : Core) (r : Res) (vs : List Nat) : Core :=
  match r, vs with
  | .sg g, v :: _ => { k with scalar := wrSlices k.scalar (16 * g) 16 v }
  | .lg g, v :: r => { k with lanes := (v :: r).zipIdx.foldl (fun m p => wrSlices m (laneBase p.2 + 16 * g) 16 p.1) k.lanes }
  | .pred i, v :: _ => k.setPred i (decide (v = 1))
  | .vpred i, v :: _ => k.setVpred i (BitVec.ofNat 64 v)
  | .win t w, v :: _ => k.setWindow t w (BitVec.ofNat 15 v)
  | .lc i, v :: _ => { k with lc := SMap.set 0 k.lc i (BitVec.ofNat 32 v) }
  | .bt i, v :: _ => { k with bt := SMap.set 0 k.bt i (BitVec.ofNat 32 v) }
  | _, _ => k

/-- The core as it stands at tick T: results that commit later are taken back, the last first (R324, R428). -/
def Core.settled (k : Core) (T : Nat) : Core :=
  k.busy.foldr (fun b k => if T < b.tick ∨ b.hold.isSome then k.resSet b.res b.old else k) k

/-- What a resource holds, every bit turned over. -/
def Core.flipRes (k : Core) (r : Res) : Core :=
  k.resSet r ((k.resVal r).map fun v => match r with
    | .sg _ | .lg _ => 2 ^ 64 - 1 - v
    | _ => 1 - v)

/-- The bits that two results of one write, made over opposite contents, agree in: those it wrote. -/
def maskOf (a b : Core) (r : Res) : List Nat := ((a.resVal r).zip (b.resVal r)).map fun p => 2 ^ 64 - 1 - (p.1 ^^^ p.2)

/-- Whether a fixed-time operation that has still to land writes the resource (R72). -/
def State.landsInto (s : State) (c : Nat) (r : Res) : Bool :=
  (s.core c).busy.any fun b => decide (b.res = r) && b.op.elim false fun id => (s.flight id).isSome

/-- `b` where the mask is set, `a` elsewhere. -/
def mergeVals (a b m : List Nat) : List Nat := (a.zip (b.zip m)).map fun p => p.1 &&& (2 ^ 64 - 1 - p.2.2) ||| p.2.1 &&& p.2.2

/-- The entries of resource `r` once operation `id` has landed `new` in the bits `m`: what later writes would put back takes them over, and
the bits that no later write made are left. -/
def landBusy (id : Nat) (r : Res) (new : List Nat) : Bool → List Nat → List Busy → List Busy × List Nat
  | _, m, [] => ([], m)
  | seen, m, b :: bs =>
    if b.res ≠ r then
      let q := landBusy id r new seen m bs
      (b :: q.1, q.2)
    else if b.op = some id then
      let q := landBusy id r new true m bs
      ({ b with mask := m } :: q.1, q.2)
    else if seen then
      let q := landBusy id r new seen (if b.mask = [] then m else (m.zip b.mask).map fun p => p.1 &&& (2 ^ 64 - 1 - p.2)) bs
      ({ b with old := if b.old = [] then [] else mergeVals b.old new m } :: q.1, q.2)
    else
      let q := landBusy id r new seen m bs
      (b :: q.1, q.2)

/-- Operation `id` writes registers by `f`; what writes that follow it in stream order have written stays (R72). -/
def Core.landRegs (k : Core) (id : Nat) (f : Core → Core) : Core :=
  let rs := ((k.busy.filter fun b => decide (b.op = some id)).map fun b => b.res).eraseDups
  if k.busy.any fun b => rs.contains b.res && decide (b.op ≠ some id) then
    rs.foldl (fun (x : Core) r =>
      let new := (f k).resVal r
      let q := landBusy id r new false (maskOf (f k) (f (k.flipRes r)) r) x.busy
      { (x.resSet r (mergeVals (k.resVal r) new q.2)) with busy := q.1 }) k
  else f k

/-- The interlock entries of the results of an issue: one for each resource, or for each that each of several operations writes. `mask` tells
what an issue writes of a resource at once. -/
def busyOf (k0 : Core) (u : Uses) (C : Nat) (g : Go) (hold : Option Nat) (mask : Res → List Nat) : List Busy :=
  let ent (op : Option Nat) (r : Res) : Busy := { res := r, tick := C, op := op, hold := hold, old := k0.resVal r, mask := mask r, seam := !k0.inSeg }
  if g.parts.isEmpty then u.wr.eraseDups.map (ent g.op) else g.parts.flatMap fun p => p.2.map (ent (some p.1))

/-- ECC marks that a write clears (R411): of registers, and of granules written whole. -/
def Uses.clears (u : Uses) (r : Res) : Bool :=
  match r with
  | .sg _ | .lg _ => u.full.contains r
  | r => u.wr.contains r

/-- The engine makes its takes at completion at tick T; the adds that follow fall due in the next tick (R85). -/
def Engine.tookAt (e : Engine) (h : Hold) (T : Nat) : Engine :=
  { e.beadTake T h.wp h.wn with
    hold := none, owed := if h.sp || h.sn then e.owed ++ [{ tick := T + 1, op := none, prev := h.sp, next := h.sn }] else e.owed }

/-- The beads at completion of an issue at tick T with completion tick C (R85): takes still to be made, unless C has come and they can be made
now, or adds that fall due. -/
def Engine.completion (e : Engine) (T C : Nat) (b : Beads) (g : Go) (fl : List Nat) (fg : BitVec 32) : Engine :=
  if g.own then e
  else if b.cp || b.cn then
    let h : Hold := { wp := b.cp, wn := b.cn, c := C, op := g.op, sp := b.dp, sn := b.dn, fl := fl, flags := fg, pc := e.pc }
    if C ≤ T && g.op.isNone && e.beadReady T b.cp b.cn && e.beadEpoch b.cp b.cn then e.tookAt h T else { e with hold := some h }
  else if b.dp || b.dn then { e with owed := e.owed ++ [{ tick := C + 1, op := g.op, prev := b.dp, next := b.dn }] }
  else e

/-- The engine's own record of an issue at tick T: counts, signature, times, completion beads. -/
def Engine.issued (e : Engine) (head : W32) (inseg join : Bool) (segTick T C d cyc : Nat) (b : Beads) (g : Go) (fl : List Nat) (fg : BitVec 32) : Engine :=
  ({ e with
    nextAt := T + cyc * d, arrived := none, lastAt := some T, pos0 := e.pos, since := none, openWait := false, primed := false, asked := false, ask := [], waits := none,
    sig := if inseg && !join then (sigBytes head segTick).foldl crcByte e.sig else e.sig,
    dyn := (e.dyn + 1) % 2 ^ 32, seam := if inseg then e.seam else e.seam + 1, doneAt := max e.doneAt C,
    readAt := if g.load then max e.readAt C else e.readAt } : Engine).completion T C b g fl fg

/-- An instruction issues: its own effects are in `g.s`; beads, counts, interlocks and the engine's way on are added here. `s0` is the
state it issued from. -/
def finish (s0 : State) (i : Instr) (u : Uses) (g : Go) (mask : Res → List Nat) : State :=
  let c := s0.cur.core
  let t := s0.cur.tag
  let T := s0.now
  let d := s0.d
  let ct := s0.ct
  let C := g.commit.getD (T + g.lat * d)
  let b := beadsOf i
  let ws := encode i
  let fl := if g.async then [] else (g.s.flights.filter fun f => decide (s0.nextId ≤ f.id) && f.fixed && decide (f.due = C)).map fun f => f.id
  let fg := SMap.get 0 (g.s.core c).flagq C &&& ~~~SMap.get 0 s0.here.flagq C
  let s := g.s.unpause.takeBeads i
  let s := s.modCore c fun k =>
    let k := k.beadAdd ct t T b.ap b.an
    let k := k.modEngine t fun e => e.issued (ws.headD 0) s0.here.inSeg false (s0.segTick c) T C d g.cyc b g fl fg
    { k with busy := k.busy ++ busyOf s0.here u C g (if (k.engine t).hold.isSome then some t else none) mask,
             ecc := k.ecc.filter fun p => !u.clears p.1 }
  s.leave c t ws.length g.jump

/-- What an issue by `plan` from `s` to `s'` writes at once of a resource that an earlier operation has still to write (R72). -/
def writeMask (s s' : State) (plan : State → Plan) (r : Res) : List Nat :=
  if s.landsInto s.cur.core r then
    match plan (s.modHere fun k => k.flipRes r) with
    | .go g => maskOf s'.here g.s.here r
    | _ => []
  else []

/-- What follows a plan. A trap in a seam leaves the word behind it (R159). -/
def settle (s : State) (i : Instr) (plan : State → Plan) : State :=
  let u := At.uses { k := s.here, c := s.cur.core, t := s.cur.tag } i
  match plan s with
  | .bad s1 c info page =>
    if isAll i && decide (s.cur.tag ≠ 0) then s.stall false
    else
      let s2 := s1.unpause.raise c info page
      if c.cls = 2 ∧ !s.here.inSeg then s2.leave s.cur.core s.cur.tag (encode i).length none else s2
  | .wait s1 (some src) _ => s1.pause src
  | .wait s1 none opn => s1.unpause.stall opn
  | .hold s1 n => (s1.takeBeads i).modHereE fun e => { e with asked := true, nextAt := s.now + n * s.d }
  | .go g =>
    let C := g.commit.getD (s.now + g.lat * s.d)
    if s.writesWait s.cur.core C u then s.stall (s.busyOpen s.cur.core u) else if s.heldBy g.s then s.stall true else finish s i u g (writeMask s g.s plan)

/-- Whether the guard enables the instruction at the cursor (R89); the vector engines apply it lane by lane. -/
def State.enabled (s : State) (g : Guard) : Bool :=
  !g.gd || laneEngine s.cur.core s.cur.tag || (s.here.predBit g.p.toNat != g.s)

/-- The checks that a disabled instruction still makes (R77, R100): those that look at no byte of memory. -/
def Cause.atIssue : Cause → Bool
  | .illegalEncoding | .engineAbsent | .illegalInstruction | .illegalOperand | .bufferAccess | .format | .alignment | .segmentLegality | .loopNest
  | .tagBusy | .planeState => true
  | _ => false

/-- What becomes of an instruction that its guard disables, from what it would do if enabled: its checks, its slot and its latency stay; it
changes nothing and waits for nothing (R77, R87, R129; log entry 18). -/
def Plan.disabled (p : Plan) (s : State) : Plan :=
  match p with
  | .bad _ c info page => if c.atIssue then .bad s c info page else .go { s := s }
  | .go g => .go { s := s, lat := g.lat, cyc := g.cyc, commit := g.commit, async := g.async }
  | .wait _ _ _ | .hold _ _ => .go { s := s }

/-- A plan under a guard. -/
def guarded (plan : State → Plan) (s : State) (on : Bool) : Plan :=
  if on then plan s else (plan (s.modHereE fun e => { e with asked := true, ask := [] })).disabled s

/-- Issue of an instruction by the engine at the cursor. `plan` is its own meaning, given the state and whether the guard enables it. -/
def issueIf (s : State) (i : Instr) (plan : State → Bool → Plan) : Out :=
  if s.runs then
    match gate s i with
    | .stop s' => .next s'
    | .pass s1 => .next (settle s1 i fun s => plan s (s1.enabled (guardOf i)))
  else .fault .engineIdle

/-- Issue of an instruction whose guard, if it has one, disables the whole of it (R89). -/
def issue (s : State) (i : Instr) (plan : State → Plan) : Out := issueIf s i (guarded plan)

/-! ### Parts that many meanings share -/

/-- A register effect on the core at the cursor with a latency. -/
def Plan.regs (s : State) (lat : Nat) (f : Core → Core) : Plan := .go { s := s.modHere f, lat := lat }

/-- Raises the flags of operation `id` of the engine at a tag as its result arrives; takes at completion that wait for it hold them back (R85). -/
def Core.raiseOp (k : Core) (t id tick : Nat) (f : Flags) : Core :=
  (k.raise tick f).modEngine t fun e => { e with hold := e.hold.map fun h => if h.op = some id then { h with flags := h.flags ||| BitVec.ofNat 32 f } else h }

/-- Puts flags that are due by tick `T` off to the next tick. -/
def Core.putOff (k : Core) (T : Nat) (f : BitVec 32) : Core :=
  let due := (k.flagq.filter fun p => decide (p.1 ≤ T)).foldl (fun a p => a ||| p.2) 0#32 &&& f
  if due = 0 then k
  else
    let q : SMap (BitVec 32) := k.flagq.map fun p => if p.1 ≤ T then (p.1, p.2 &&& ~~~f) else p
    { k with flagq := SMap.put q (T + 1) (SMap.get 0 q (T + 1) ||| due) }

/-- Raises flags that take effect at the commit tick of a result with a latency. -/
def State.flag (s : State) (lat : Nat) (f : Flags) : State :=
  let C := s.now + lat * s.d
  s.modHere fun k => k.raise C f

end Sys2Proof.Machine
end

