-- ==== Sys2Proof/Machine/Flags.lean ====
section
/-! DEFINITION. Conditions and comparisons (R96), and how the results of instructions raise FLAGS (R54 to R56). -/

namespace Sys2Proof.Machine

open Sys2Proof

/-- A condition on integers (R96). -/
def condInt (cond : Nat) (a b : Int) : Bool :=
  match cond with
  | 0 => decide (a = b)
  | 1 => decide (a ≠ b)
  | 2 => decide (a < b)
  | 3 => decide (a ≤ b)
  | 4 => decide (b < a)
  | 5 => decide (b ≤ a)
  | _ => false

/-- Equality of data that are not NaN; −0 equals +0. -/
def eqV (a b : FVal) : Bool := !ltV a b && !ltV b a

/-- A condition on floats (R96): false under NaN but for `.ne` and `.un`. -/
def condFloat (cond : Nat) (a b : FVal) : Bool :=
  let un := a.isNan || b.isNan
  match cond with
  | 0 => !un && eqV a b
  | 1 => un || !eqV a b
  | 2 => !un && ltV a b
  | 3 => !un && (ltV a b || eqV a b)
  | 4 => !un && ltV b a
  | 5 => !un && (ltV b a || eqV a b)
  | 6 => un
  | 7 => !un
  | _ => false

/-- A comparison of two codes of width `w` under FMT (0: integers of that width). -/
def condOf (fmt : BitVec 3) (fs : Bool) (cond w a b : Nat) : Bool :=
  if fmt = 0 then condInt cond (extI fs a w) (extI fs b w) else condFloat cond (dec (fmtOf fmt) a) (dec (fmtOf fmt) b)

/-- How CMP and VCMP write a predicate bit (R137, R179). -/
def predMode (mode : BitVec 2) (old r : Bool) : Bool :=
  if mode = 0 then r else if mode = 1 then old && r else old || r

/-- The result of an integer operation that wraps or saturates, with SA (R66). -/
def intResult (sat fs : Bool) (v : Int) (w : Nat) : Nat × Flags := reduceI sat fs v w

/-- Flags of several results together. -/
def orFlags (xs : List Flags) : Flags := xs.foldl (fun a b => a ||| b) 0

end Sys2Proof.Machine
end

