-- ==== Sys2Proof/Machine/Join.lean ====
section
/-! DEFINITION. Join words (R112): arrival of the engines, and the one issue for the whole core. -/

namespace Sys2Proof.Machine

open Sys2Proof

/-- The tick at which the last engine of the core arrived, once all have. -/
def Core.joined (k : Core) (ct : CoreType) : Option Nat :=
  (tagsOf ct).foldl (fun m t => match m, (k.engine t).arrived with
    | some a, some b => some (max a b)
    | _, _ => none) (some 0)

/-- The engine at the cursor waits at the join word until the next tick. -/
def State.joinWait (s : State) (opn : Bool) : State :=
  let T := s.now
  s.modHereE fun e => { e with nextAt := T + 1, since := some (e.since.getD T), openWait := opn }

/-- Every engine of the core issues the join word at the cursor's tick and leaves it; phases and positions restart (R112, R270, R280).
`cnt` is false for SEG.OPEN and SEG.CLOSE, which no count and no signature includes (R321, R424). -/
def State.joinIssue (s : State) (i : Instr) (cnt : Bool) : State :=
  let c := s.cur.core
  let ct := s.ct
  let T := s.now
  let ws := encode i
  let inseg := s.here.inSeg
  let st := s.segTick c
  let s := (tagsOf ct).foldl (fun s t =>
    (s.modEngine c t fun e =>
      { e with arrived := none, nextAt := T + (s.core c).div t, lastAt := some T, since := none, openWait := false, primed := false, asked := false, waits := none,
               sig := if inseg && cnt then (sigBytes (ws.headD 0) st).foldl crcByte e.sig else e.sig,
               dyn := if cnt then (e.dyn + 1) % 2 ^ 32 else 0,
               seam := if inseg || i = .halt || !cnt then e.seam else e.seam + 1,
               doneAt := max e.doneAt T }).leave c t ws.length none) s.unpause
  s.modCore c fun k => { k with path := [], base := k.base + (k.engine 0).pos, eng := k.eng.map fun p => (p.1, { p.2 with idx := 0, pos := 0, pos0 := 0 }) }

/-- A join word at the cursor. An engine that may issue arrives; at the first tick after the last arrival the CE issues the word for the
core, as `plan` says. -/
def join (s : State) (i : Instr) (plan : State → Plan) : Out :=
  if s.runs then
    let e := s.hereE
    let T := s.now
    if e.arrived.isNone && ((e.owed.any fun o => decide (o.tick ≤ T) && o.op.isNone) || e.hold.isSome) then .next (s.stall false)
    else match staticFault i with
    | some f => .next (s.wordFault i f 0 none)
    | none =>
      if !s.here.inSeg && decide (256 ≤ e.seam) && !(match i with
          | .segOpen _ | .halt => true
          | _ => false) then .next (s.unpause.raise .segmentLegality 0 none)
      else
        let s := if e.arrived.isNone then s.modHereE fun e => { e with arrived := some T } else s
        match s.here.joined s.ct with
        | none => .next (s.joinWait false)
        | some J =>
          if s.cur.tag ≠ 0 ∨ T ≤ J then .next (s.joinWait (s.here.engine 0).openWait)
          else match plan s with
          | .bad s1 c info page => .next (s1.unpause.raise c info page)
          | .wait s1 (some src) _ => .next (s1.pause src)
          | .wait s1 none opn => .next (s1.unpause.joinWait opn)
          | .hold s1 _ => .next (s1.joinWait false)
          | .go g => .next g.s
  else .fault .engineIdle

/-- Operations in progress that an asynchronous instruction of a core issued (R122, R125), a nest and an accumulator operation among them. -/
def State.asyncOf (s : State) (c : Nat) : List Flight :=
  s.flights.filter fun f => decide (f.core = c) && f.async

/-- Whether a core awaits the result of a collective. -/
def State.awaitsColl (s : State) (c : Nat) : Bool := s.colls.any fun x => x.parts.any fun p => decide (p.core = some c) && p.live

/-- Whether an asynchronous operation of the core is incomplete: fixed-time, and open-time. -/
def State.asyncFixed (s : State) (c : Nat) : Bool := (s.asyncOf c).any (fun f => f.fixed) || (s.core c).nestRun.isSome

def State.asyncOpen (s : State) (c : Nat) : Bool := (s.asyncOf c).any (fun f => !f.fixed) || s.awaitsColl c

end Sys2Proof.Machine
end

