-- ==== Sys2Proof/Machine/All.lean ====
section
/-! DEFINITION. Words of the ALL class apart from the segment markers and HALT: NOP, branches, loops, barriers, divisors, slip and
breakpoints (R114 to R121, R124, R126 to R128), and the release and the timeout of a barrier. -/

namespace Sys2Proof.Machine

open Sys2Proof

/-- NOP (R114): the next issue is at the first opportunity at least 1 + N ticks on. -/
def execNop (n : BitVec 9) (s : State) : Out :=
  issueIf s (.nop n) fun s _ => .go { s := s, lat := 0, cyc := ceilDiv (1 + n.toNat) s.d }

/-! ### Branches -/

/-- NWORD of the core's stream. -/
def Core.nword (k : Core) : Nat := k.stream.length

/-- The target of PBR (R115). -/
def pbrTarget (f : PbrF) (pc : Nat) : Nat :=
  if f.rel then (((pc : Int) + f.target.toInt) % ((2 ^ 28 : Nat) : Int)).toNat else f.target.toNat

/-- PBR: the CE writes the register; every engine notes its own issue, from which a branch's cost counts (R117). -/
def planPbr (f : PbrF) (s : State) (_ : Bool) : Plan :=
  let g := pbrTarget f s.hereE.pc
  let T := s.now
  if s.here.nword ≤ g then .fault s .illegalOperand
  else
    let s := s.modHereE fun e => { e with pbrAt := SMap.put e.pbrAt f.k.toNat T }
    .go { s := if s.cur.tag = 0 then s.modHere fun k => { k with bt := SMap.set 0 k.bt f.k.toNat (BitVec.ofNat 32 g) } else s }

def execPbr (f : PbrF) (s : State) : Out := issueIf s (.pbr f) (planPbr f)

/-- The engines other than the CE. -/
def otherTags (ct : CoreType) : List Nat := (tagsOf ct).filter fun t => decide (t ≠ 0)

/-- Whether an outcome queue of the core is full (R116). -/
def Core.outFull (k : Core) (ct : CoreType) : Bool := (otherTags ct).any fun t => decide (16 ≤ (k.engine t).outq.length)

/-- The CE posts an outcome to every other engine. -/
def State.post (s : State) (taken : Bool) (count : Nat) : State :=
  let T := s.now
  s.modHere fun k => (otherTags (coreType s.cur.core)).foldl (fun k t =>
    k.modEngine t fun e => { e with outq := e.outq ++ [{ tick := T, taken := taken, count := count }] }) k

/-- The entry that an engine can take at tick T. -/
def Engine.outcome (e : Engine) (T : Nat) : Option OutEnt :=
  match e.outq with
  | o :: _ => if o.tick < T then some o else none
  | [] => none

/-- The engine takes the entry at the head of its outcome queue. -/
def State.takeOutcome (s : State) : State := s.modHereE fun e => { e with outq := e.outq.drop 1 }

/-- Ends the innermost `n` loops of the engine at the cursor; each counter keeps its value (R120). -/
def State.endLoops (s : State) (n : Nat) : State :=
  let ls := s.hereE.loops.take n
  let s := s.modHereE fun e => { e with loops := e.loops.drop n }
  ls.foldl (fun s l => s.loopEnd s.cur.core s.cur.tag l l.cnt) s

/-- How many of the innermost loops do not hold a target in their body. -/
def loopsLeft (ls : List LoopSt) (g : Nat) : Nat := (ls.takeWhile fun l => !(decide (l.first ≤ g) && decide (g ≤ l.last))).length

/-- The outcome of a guarded word for the engine at the cursor: the CE evaluates the predicate and posts, another engine takes what was
posted. None: it waits. -/
def State.branchOutcome (s : State) (g : Guard) (en : Bool) : Option (State × Bool) :=
  if !g.gd then some (s, true)
  else if s.cur.tag = 0 then (if s.here.outFull s.ct then none else some (s.post en 0, en))
  else match s.hereE.outcome s.now with
    | some o => some (s.takeOutcome, o.taken)
    | none => none

/-- Cycles that a taken branch costs beyond its issue (R117). -/
def branchCost (e : Engine) (k T d : Nat) : Nat :=
  match SMap.find e.pbrAt k with
  | some p => 4 - (T - p) / d
  | none => 4

/-- The target of a branch for the engine at the cursor: the register as it stood before the link write of the same word. -/
def State.branchTarget (s : State) (k : Nat) (link : Option Nat) : Nat :=
  if link.elim false fun l => s.here.handed s.cur.tag k l then s.hereE.links.headD 0 else (s.here.btOf k).toNat

/-- What a taken BRL does to the registers: the CE writes the link, and hands the old target of a register named twice on to the engines that
have still to issue the word; another engine takes it from there. -/
def State.linkTo (s : State) (k l t pc : Nat) : State :=
  let handed := s.here.handed s.cur.tag k l
  let s := s.modHereE fun e => { e with pbrAt := SMap.erase e.pbrAt l, links := if handed then e.links.drop 1 else e.links }
  if s.cur.tag ≠ 0 then s
  else
    let s := if k = l then
      s.modHere fun c => (otherTags (coreType s.cur.core)).foldl (fun c u =>
        if (c.engine u).idx ≤ (c.engine 0).idx then c.modEngine u fun e => { e with links := e.links ++ [t] } else c) c
      else s
    s.modHere fun c => { c with bt := SMap.set 0 c.bt l (BitVec.ofNat 32 (pc + 1)) }

/-- BR and BRL (R117); `link` is the register BRL writes. At an unguarded branch that faults in the CE the other engines stop (R99). -/
def planBranch (g : Guard) (k : Nat) (link : Option Nat) (s : State) (en : Bool) : Plan :=
  let e := s.hereE
  let t := s.branchTarget k link
  if s.cur.tag = 0 ∧ en ∧ s.here.nword ≤ t then .fault s .illegalOperand
  else if s.cur.tag ≠ 0 ∧ g.gd = false ∧ s.here.nword ≤ t then .stall s
  else match s.branchOutcome g en with
  | none => .stall s
  | some (s, false) => .go { s := s }
  | some (s, true) =>
    let s := match link with
      | none => s
      | some l => s.linkTo k l t e.pc
    .go { s := s.endLoops (loopsLeft e.loops t), jump := some t, cyc := 1 + branchCost e k s.now s.d }

def execBr (f : BrF) (s : State) : Out := issueIf s (.br f) (planBranch f.g f.k.toNat none)

def execBrl (f : BrlF) (s : State) : Out := issueIf s (.brl f) (planBranch f.g f.k.toNat (some f.l.toNat))

/-! ### Loops -/

/-- The slice operand of LOOP's COUNT field. -/
def countSlot (f : LoopF) : Slot := { win := f.count.extractLsb' 12 2, off := f.count.extractLsb' 4 8, wm1 := f.count.extractLsb' 0 4 }

/-- LOOP (R118). A COUNT operand of more than 8 slices is an illegal operand (log entry 38). -/
def planLoop (f : LoopF) (s : State) (_ : Bool) : Plan :=
  let e := s.hereE
  let k := s.here
  let last := e.pc + f.last.toNat
  let n := f.n.toNat
  if f.csrc ∧ s.cur.tag = 0 ∧ (!k.slotOk 0 (countSlot f) || decide (8 < (countSlot f).w)) then .fault s .illegalOperand
  else if f.last.toNat < 2 ∨ k.nword ≤ last then .fault s .illegalOperand
  else if 4 ≤ e.loops.length ∨ (e.loops.any fun l => decide (l.n = n)) ∨ (e.loops.any fun l => decide (l.last ≤ last)) then .fault s .loopNest
  else
    let got : Option (State × Nat) :=
      if !f.csrc then some (s, f.count.toNat)
      else if s.cur.tag = 0 then
        (if k.outFull s.ct then none else let v := k.slotVal 0 (countSlot f); some (s.post false v, v))
      else match e.outcome s.now with
        | some o => some (s.takeOutcome, o.count)
        | none => none
    match got with
    | none => .stall s
    | some (s, 0) => .go { s := s, jump := some (last + 1) }
    | some (s, v) =>
      let s := s.modHereE fun e => { e with loops := { n := n, cnt := v, first := e.pc + 2, last := last, fresh := s.here.inSeg } :: e.loops }
      .go { s := if s.cur.tag = 0 then s.modHere fun k => { k with lc := SMap.set 0 k.lc n (BitVec.ofNat 32 v) } else s }

def execLoop (f : LoopF) (s : State) : Out := issueIf s (.loop f) (planLoop f)

/-- LBRK (R121). -/
def planLbrk (f : LbrkF) (s : State) (en : Bool) : Plan :=
  let ls := s.hereE.loops
  match ls.findIdx? fun l => decide (l.n = f.n.toNat) with
  | none => .fault s .loopNest
  | some j =>
    match s.branchOutcome f.g en with
    | none => .stall s
    | some (s, false) => .go { s := s }
    | some (s, true) => .go { s := s.endLoops (j + 1), jump := some ((ls.getD j { n := 0, cnt := 0, first := 0, last := 0 }).last + 1) }

def execLbrk (f : LbrkF) (s : State) : Out := issueIf s (.lbrk f) (planLbrk f)

/-! ### Barriers of a group (R124) -/

/-- A reckoner tick that no engine reaches before a release. -/
def parkedTick (T : Nat) : Nat := T + 2 ^ 32

/-- GBAR: the core's arrival at its join tick. -/
def planGbar (id : BitVec 4) (s : State) : Plan :=
  let c := s.cur.core
  match s.groupOf c, s.here.joined s.ct with
  | some g, some J =>
    match g.bar with
    | some b =>
      if b.id ≠ id then .fault s .schedule
      else
        let s := s.joinIssue (.gbar id) true
        let s := s.modGroup g.num fun x => { x with bar := some { b with last := max b.last J, cores := b.cores ++ [c] } }
        .go { s := s.modCore c fun k => { k with eng := k.eng.map fun p => (p.1, { p.2 with nextAt := parkedTick s.now }) } }
    | none =>
      let s := s.joinIssue (.gbar id) true
      let s := s.modGroup g.num fun x => { x with bar := some { id := id, first := J, last := J, cores := [c] } }
      .go { s := s.modCore c fun k => { k with eng := k.eng.map fun p => (p.1, { p.2 with nextAt := parkedTick s.now }) } }
  | _, _ => .stall s

def execGbar (id : BitVec 4) (s : State) : Out := join s (.gbar id) (planGbar id)

/-- The release: every engine of every participating core issues its next word at L + 8 at the earliest. -/
def execGbarRelease (g : Nat) (s : State) : Out :=
  match s.group g with
  | none => .next s
  | some x =>
    match x.bar with
    | none => .next s
    | some b =>
      let s := b.cores.foldl (fun s c => s.modCore c fun k => { k with eng := k.eng.map fun p => (p.1, { p.2 with nextAt := max x.reck (b.last + 8) }) }) s
      .next (s.modGroup g fun y => { y with bar := none })

/-- A barrier still incomplete 65,536 ticks after its first arrival: a schedule fault in every core that has arrived. -/
def execGbarTimeout (g : Nat) (s : State) : Out :=
  match s.group g with
  | none => .next s
  | some x =>
    match x.bar with
    | none => .next s
    | some b =>
      let s := s.modGroup g fun y => { y with bar := none }
      .next (b.cores.foldl (fun s c => s.charge { core := c, tag := 0, cause := .schedule, info := 0 } none) s)

/-- A wait on beads, interlocks or other fixed-time conditions has lasted 65,536 ticks (R74, R86, R279). -/
def execBeadDeadlock (core tag : Nat) (s : State) : Out :=
  .next ((s.modEngine core tag fun e => { e with since := none }).charge { core := core, tag := tag, cause := .schedule, info := 0 } none)

/-! ### Divisors, slip, breakpoints -/

/-- CKD after CKDIV (R126). -/
def ckdAfter (old : BitVec 32) (d : BitVec 28) : BitVec 32 :=
  BitVec.ofNat 32 ((List.range 7).foldl (fun a t =>
    let n := bitsN d.toNat (4 * t) 4
    a + (if n = 0 then bitsN old.toNat (4 * t) 4 else n) * 2 ^ (4 * t)) 0)

/-- CKDIV (R126). -/
def planCkdiv (d : BitVec 28) (s : State) : Plan :=
  let bad := (List.range 7).any fun t =>
    let n := bitsN d.toNat (4 * t) 4
    decide (8 < n) || (decide (n ≠ 0) && !hasTag s.ct t)
  if bad then .fault s .illegalOperand
  else .go { s := (s.modHere fun k => { k with ckd := ckdAfter k.ckd d }).joinIssue (.ckdiv d) true }

def execCkdiv (d : BitVec 28) (s : State) : Out := join s (.ckdiv d) (planCkdiv d)

/-- SLIPW (R127). -/
def execSlipw (s : State) : Out := join s .slipw fun s => .go { s := s.joinIssue .slipw true }

/-- BRKEN of the group of the cursor (R426). -/
def State.brkEnabled (s : State) : Bool := (s.cregOf (0x600 + 8 * s.here.grp.getD 0)).getLsbD 0

/-- Bits of DBGCTL that say how a group stopped: STOPPED, BCODE, BSTOP. -/
def dbgStop (w : W64) (stopped bstop : Bool) (code : Nat) : W64 :=
  BitVec.ofNat 64 (w.toNat - bitsN w.toNat 4 1 * 2 ^ 4 - bitsN w.toNat 17 9 * 2 ^ 17 + (if stopped then 16 else 0) + code * 2 ^ 17 + (if bstop then 2 ^ 25 else 0))

/-- A debug stop of a group takes effect (R425, R427, R430). -/
def State.debugStop (s : State) (g : Nat) (bstop : Bool) (code : Nat) : State :=
  let s := s.setCreg (0x600 + 8 * g) (dbgStop (s.cregOf (0x600 + 8 * g)) true bstop code)
  let s := s.modGroup g fun x => { x with stopped := true, stopIn := none }
  let s := s.claim g 8 none
  let c := ((s.group g).elim [] fun x => x.cores).headD 0
  s.trace 6 g 0xFF 0xFF ((s.core c).qpos (coreType c) 0).toNat code

/-- An enabled BRK (R128): the group stops before the word; when it resumes, the word issues. -/
def planBrk (c : BitVec 8) (s : State) : Plan :=
  if s.hereE.primed then .go { s := s.joinIssue (.brk c) true }
  else
    let s := s.modHereE fun e => { e with primed := true }
    .wait (s.debugStop (s.here.grp.getD 0) true c.toNat) none false

def execBrk (c : BitVec 8) (s : State) : Out :=
  if s.brkEnabled then join s (.brk c) (planBrk c) else issueIf s (.brk c) fun s _ => .go { s := s, lat := 0 }

end Sys2Proof.Machine
end

