-- ==== Sys2Proof/Machine/Elem.lean ====
section
/-! DEFINITION. The elementary functions of the NE (R202, R205). A rational result is exact. An irrational result is replaced by a
rational that lies within a relative distance of about 2^-200 of it and is no value, midpoint or stochastic breakpoint of a format
(log entry 14, DEDUCED): rounding it once gives the correctly rounded result. -/

namespace Sys2Proof.Machine

/-- Fraction bits of the fixed-point work below. -/
def fxBits : Nat := 320

/-- 1.0 in fixed point. -/
def fxOne : Nat := 2 ^ fxBits

/-- A rational in fixed point, rounded down. -/
def toFx (q : Rat) : Int := (q * (fxOne : Rat)).floor

/-- A fixed-point number as a rational, moved up by half a unit so that it is no short binary fraction. -/
def ofFx (n : Int) : Rat := ((2 * n + 1 : Int) : Rat) / ((2 * fxOne : Nat) : Rat)

/-- Σ over odd k of t^k / k, in fixed point: the inverse hyperbolic tangent. `p` is the current power of t, `k` its exponent. -/
def atanhSum (t2 : Int) : Nat → Int → Nat → Int
  | 0, _, _ => 0
  | n + 1, p, k => p / (k : Int) + atanhSum t2 n (p * t2 / (fxOne : Int)) (k + 2)

/-- ln m for a rational m in [1, 2], in fixed point. -/
def lnFx (m : Rat) : Int :=
  let t := toFx ((m - 1) / (m + 1))
  2 * atanhSum (t * t / (fxOne : Int)) 110 t 1

/-- ln 2. -/
def ln2Fx : Int := lnFx 2

/-- Σ y^k / k!, in fixed point: `term` is the current term. -/
def expSum (y : Int) : Nat → Int → Nat → Int
  | 0, _, _ => 0
  | n + 1, term, k => term + expSum y n (term * y / (fxOne : Int) / ((k + 1 : Nat) : Int)) (k + 1)

/-- 2^x for any rational x; exact for an integer x. Beyond ±400 the result is beyond, or below any rounding step of, every format, and
±400 stands for it. -/
def exp2Q (x : Rat) : Rat :=
  if x < -400 then pow2 (-400) else if 400 < x then pow2 400
  else
    let n := x.floor
    let f := x - (n : Rat)
    if f = 0 then pow2 n
    else ofFx (expSum (toFx f * ln2Fx / (fxOne : Int)) 90 (fxOne : Int) 0) * pow2 n

/-- log2 x for x > 0; exact for a power of two. -/
def log2Q (x : Rat) : Rat :=
  let e := ilog2 x
  let m := x / pow2 e
  if m = 1 then (e : Rat) else (e : Rat) + ofFx (lnFx m * (fxOne : Int) / ln2Fx)

/-- e^x for |x| ≤ 250, x not 0. -/
def expQ (x : Rat) : Rat := exp2Q (ofFx (toFx x * (fxOne : Int) / ln2Fx))

/-- 1/√x for x > 0; exact where the root is rational. -/
def rsqrtQ (x : Rat) : Rat :=
  let p := x.den
  let q := x.num.natAbs
  let r := Nat.sqrt (p * q)
  if r * r = p * q then (r : Rat) / (q : Rat)
  else ((2 * Nat.sqrt (p * q * 4 ^ fxBits) + 1 : Nat) : Rat) / ((2 * q * 2 ^ fxBits : Nat) : Rat)

/-- The logistic function for x other than 0. -/
def sigQ (x : Rat) : Rat :=
  if absQ x < pow2 (-40) then 1 / 2 + x / 4 - x * x * x / 48
  else if 200 < x then 1 - pow2 (-400)
  else if x < -200 then pow2 (-400)
  else 1 / (1 + expQ (-x))

/-- The hyperbolic tangent for x other than 0. -/
def tanhQ (x : Rat) : Rat :=
  if absQ x < pow2 (-40) then x - x * x * x / 3
  else if 100 < x then 1 - pow2 (-400)
  else if x < -100 then pow2 (-400) - 1
  else
    let e := expQ (2 * x)
    (e - 1) / (e + 1)

/-- The six element functions of R202. -/
inductive ElemFn where
  | rsq | rcp | exp2 | log2 | sig | tanh
deriving DecidableEq, Repr

/-- f(x) with the special values of R202: the datum to round, and flags of the special case. -/
def elemFn (fn : ElemFn) (x : FVal) : FVal × Flags :=
  match x with
  | .nan => (.nan, 0)
  | .zero n =>
    match fn with
    | .rsq => (.inf n, fDZ)
    | .rcp => (.inf n, fDZ)
    | .exp2 => (.num 1, 0)
    | .log2 => (.inf true, fDZ)
    | .sig => (.num (1 / 2), 0)
    | .tanh => (.zero n, 0)
  | .inf n =>
    match fn with
    | .rsq => if n then (.nan, fNV) else (.zero false, 0)
    | .rcp => (.zero n, 0)
    | .exp2 => if n then (.zero false, 0) else (.inf false, 0)
    | .log2 => if n then (.nan, fNV) else (.inf false, 0)
    | .sig => if n then (.zero false, 0) else (.num 1, 0)
    | .tanh => (.num (if n then -1 else 1), 0)
  | .num q =>
    match fn with
    | .rsq => if q < 0 then (.nan, fNV) else (.num (rsqrtQ q), 0)
    | .rcp => (.num (1 / q), 0)
    | .exp2 => (.num (exp2Q q), 0)
    | .log2 => if q < 0 then (.nan, fNV) else (FVal.ofRat (log2Q q) false, 0)
    | .sig => (.num (sigQ q), 0)
    | .tanh => (.num (tanhQ q), 0)

end Sys2Proof.Machine
end

