-- ==== Sys2Proof/Machine/CeArith.lean ====
section
/-! DEFINITION. The control engine's arithmetic, predicates and windows (R129 to R142). -/

namespace Sys2Proof.Machine

open Sys2Proof

/-! ### Shared shapes -/

/-- Order 6 of R100 for a destination and two sources of the scalar file. -/
def Core.ce2Ok (k : Core) (t : Nat) (d : Slot) (a b : Src) : Bool := k.slotOk t d && k.srcOk t false a && k.srcOk t true b

/-- A two-source instruction of the CE whose result is an exact integer reduced to the destination (R66, R131); `ctl` marks source B as a
control operand (R130). -/
def planCe2 (f : S3) (lat : Nat) (ctl : Bool) (v : Int → Int → Nat → Int × Flags) (s : State) : Plan :=
  let k := s.here
  let t := s.cur.tag
  if !k.ce2Ok t f.dst f.a f.b then .fault s .illegalOperand
  else
    let a := k.srcInt t false f.fs f.dst.w f.a
    let b := if ctl then ((k.ctlVal t true f.b : Nat) : Int) else k.srcInt t true f.fs f.dst.w f.b
    let r := v a b f.dst.bits
    let d := intResult f.sub.sat f.fs r.1 f.dst.bits
    let s := s.modHere fun k => ((k.holdSrc t false f.fs f.dst.w f.a).holdLatch t true f.b (if ctl then k.ctlVal t true f.b else
      k.srcVal t true f.fs f.dst.w f.b) (k.srcW t true f.dst.w f.b)).wrSlot t f.dst d.1
    .go { s := s.flag lat (r.2 ||| d.2), lat := lat }

/-- A one-source instruction of the CE; the result wraps. -/
def planCe1 (f : S2r) (v : Nat → Nat → Int) (s : State) : Plan :=
  let k := s.here
  let t := s.cur.tag
  if !(k.slotOk t f.dst && k.srcOk t false f.a) then .fault s .illegalOperand
  else .regs s 1 fun k =>
    (k.holdSrc t false f.fs f.dst.w f.a).wrSlot t f.dst
      (wrapI (v (k.srcVal t false f.fs f.dst.w f.a) (4 * k.srcW t false f.dst.w f.a)) f.dst.bits)

/-- A destination write of the CE that depends on the core alone. -/
def planWr (dst : Slot) (lat : Nat) (v : State → Nat) (s : State) : Plan :=
  let t := s.cur.tag
  if !s.here.slotOk t dst then .fault s .illegalOperand
  else .regs s lat fun k => k.wrSlot t dst (v s % 2 ^ dst.bits)

/-! ### Operations on two's-complement integers (R131, R132) -/

/-- A bitwise operation on extended values. -/
def bitOp (f : BitVec 66 → BitVec 66 → BitVec 66) (a b : Int) : Int := (f (BitVec.ofInt 66 a) (BitVec.ofInt 66 b)).toInt

/-- The shift amount of SHL and SHR. -/
def shAmt (b : Int) : Nat := min b.toNat 127

/-- Rotation left within wd bits. -/
def rotL (a b : Int) (wd : Nat) : Int :=
  let x := wrapI a wd
  let n := b.toNat % wd
  ((x * 2 ^ n % 2 ^ wd + x / 2 ^ (wd - n) : Nat) : Int)

/-- DIVI and REMI (R132). -/
def divRem (rem : Bool) (a b : Int) : Int × Flags :=
  if b = 0 then (if rem then a else -1, fDZ)
  else
    let q := a.tdiv b
    (if rem then a - b * q else q, 0)

/-- EXT (R135): the field of the 64-bit pattern of a, whose bit 63 continues upward. -/
def extField (fs : Bool) (a : Int) (b : Nat) : Int :=
  let x := (BitVec.ofInt 64 a).toInt
  let pos := b % 64
  let len := b / 64 % 64 + 1
  let f := wrapI (x / ((2 ^ pos : Nat) : Int)) len
  extI fs f len

/-- INS (R135). -/
def insField (old a b wd : Nat) : Nat :=
  let pos := b % 64
  let len := b / 64 % 64 + 1
  (old - bitsN old pos len * 2 ^ pos + a % 2 ^ len * 2 ^ pos) % 2 ^ wd

/-- Leading zeros of a within w bits (R133). -/
def clzOf (a w : Nat) : Nat := if a % 2 ^ w = 0 then w else w - 1 - Nat.log2 (a % 2 ^ w)

/-- One bits of a within w bits. -/
def popcOf (a w : Nat) : Nat := ((List.range w).filter fun i => bitN a i).length

/-! ### The instructions -/

def execAdd (f : S3) (s : State) : Out := issue s (.add f) (planCe2 f 1 false fun a b _ => (a + b, 0))

def execSub (f : S3) (s : State) : Out := issue s (.sub f) (planCe2 f 1 false fun a b _ => (a - b, 0))

def execMul (f : S3) (s : State) : Out := issue s (.mul f) (planCe2 f 3 false fun a b _ => (a * b, 0))

def execMulh (f : S3) (s : State) : Out := issue s (.mulh f) (planCe2 f 3 false fun a b wd => (a * b / ((2 ^ wd : Nat) : Int), 0))

/-- DIVI (R132, R142). -/
def execDivi (f : S3) (s : State) : Out := issue s (.divi f) (planCe2 f 20 false fun a b _ => divRem false a b)

/-- REMI (R132, R142). -/
def execRemi (f : S3) (s : State) : Out := issue s (.remi f) (planCe2 f 20 false fun a b _ => divRem true a b)

def execAnd (f : S3) (s : State) : Out := issue s (.and f) (planCe2 f 1 false fun a b _ => (bitOp (· &&& ·) a b, 0))

def execOr (f : S3) (s : State) : Out := issue s (.or f) (planCe2 f 1 false fun a b _ => (bitOp (· ||| ·) a b, 0))

def execXor (f : S3) (s : State) : Out := issue s (.xor f) (planCe2 f 1 false fun a b _ => (bitOp (· ^^^ ·) a b, 0))

def execAndn (f : S3) (s : State) : Out := issue s (.andn f) (planCe2 f 1 false fun a b _ => (bitOp (fun x y => x &&& ~~~y) a b, 0))

def execShl (f : S3) (s : State) : Out := issue s (.shl f) (planCe2 f 1 true fun a b _ => (a * ((2 ^ shAmt b : Nat) : Int), 0))

def execShr (f : S3) (s : State) : Out := issue s (.shr f) (planCe2 f 1 true fun a b _ => (a / ((2 ^ shAmt b : Nat) : Int), 0))

def execRot (f : S3) (s : State) : Out := issue s (.rot f) (planCe2 f 1 true fun a b wd => (rotL a b wd, 0))

def execMin (f : S3) (s : State) : Out := issue s (.min f) (planCe2 f 1 false fun a b _ => (if b < a then b else a, 0))

def execMax (f : S3) (s : State) : Out := issue s (.max f) (planCe2 f 1 false fun a b _ => (if a < b then b else a, 0))

/-- CLZ (R133). -/
def execClz (f : S2r) (s : State) : Out := issue s (.clz f) (planCe1 f fun a w => (clzOf a w : Nat))

/-- POPC (R133). -/
def execPopc (f : S2r) (s : State) : Out := issue s (.popc f) (planCe1 f fun a w => (popcOf a w : Nat))

/-- EXT (R135). -/
def execExt (f : S3) (s : State) : Out := issue s (.ext f) (planCe2 f 1 true fun a b _ => (extField f.fs a b.toNat, 0))

/-- INS (R135). -/
def planIns (f : S3) (s : State) : Plan :=
  let k := s.here
  let t := s.cur.tag
  if !k.ce2Ok t f.dst f.a f.b then .fault s .illegalOperand
  else .regs s 1 fun k =>
    ((k.holdSrc t false false f.dst.w f.a).holdLatch t true f.b (k.ctlVal t true f.b) (k.srcW t true f.dst.w f.b)).wrSlot t f.dst
      (insField (k.slotVal t f.dst) (k.srcVal t false false f.dst.w f.a) (k.ctlVal t true f.b) f.dst.bits)

def execIns (f : S3) (s : State) : Out := issue s (.ins f) (planIns f)

/-- MOV (R133): a extended under FS. -/
def execMov (f : S2r) (s : State) : Out := issue s (.mov f) (planCe1 f fun a w => extI f.fs a w)

/-- MOVI (R134). -/
def execMovi (f : MoviF) (s : State) : Out :=
  issue s (.movi f) (planWr f.dst 1 fun _ => wrapI (if f.fs then f.imm.toInt else (f.imm.toNat : Int)) f.dst.bits)

/-- MOVI.hi (R134). -/
def planMoviHi (f : MoviF) (s : State) : Plan :=
  let t := s.cur.tag
  if !s.here.slotOk t f.dst || decide (f.dst.bits ≤ 22) then .fault s .illegalOperand
  else .regs s 1 fun k =>
    k.wrSlot t f.dst (f.imm.toNat % 2 ^ (f.dst.bits - 22) * 2 ^ 22 + k.slotVal t f.dst % 2 ^ 22)

def execMoviHi (f : MoviF) (s : State) : Out := issue s (.moviHi f) (planMoviHi f)

/-- SEL (R136). -/
def planSel (f : S3c) (s : State) : Plan :=
  let k := s.here
  let t := s.cur.tag
  let c := slotC f.c f.dst
  if !(k.ce2Ok t f.dst f.a f.b && k.slotOk t c) then .fault s .illegalOperand
  else .regs s 1 fun k =>
    let v := if k.slotVal t c ≠ 0 then k.srcInt t false f.fs f.dst.w f.a else k.srcInt t true f.fs f.dst.w f.b
    ((k.holdSrc t false f.fs f.dst.w f.a).holdSrc t true f.fs f.dst.w f.b).wrSlot t f.dst (wrapI v f.dst.bits)

def execSel (f : S3c) (s : State) : Out := issue s (.sel f) (planSel f)

/-- Width in slices that an immediate of CMP takes: that of the other source, or of the format (R129). -/
def cmpImmW (k : Core) (t : Nat) (f : S3cmp) (b : Bool) : Nat :=
  if f.sub.fmt = 0 then k.srcW t (!b) 0 (if b then f.a else f.b) else fmtBits f.sub.fmt / 4

/-- A source of CMP: its code and its width in bits. -/
def cmpSrc (k : Core) (t : Nat) (f : S3cmp) (b : Bool) : Nat × Nat :=
  let x := if b then f.b else f.a
  let w := cmpImmW k t f b
  match x with
  | .imm v _ => (if f.sub.fmt = 0 then k.srcVal t b f.fs w x else immFloat (fmtBits f.sub.fmt) v, 4 * w)
  | x => (k.srcVal t b f.fs w x, 4 * k.srcW t b w x)

/-- CMP (R137). -/
def planCmp (f : S3cmp) (s : State) : Plan :=
  let k := s.here
  let t := s.cur.tag
  let a := cmpSrc k t f false
  let b := cmpSrc k t f true
  if !(k.srcOk t false f.a && k.srcOk t true f.b) then .fault s .illegalOperand
  else if f.sub.fmt ≠ 0 ∧ (a.2 ≠ fmtBits f.sub.fmt ∨ b.2 ≠ fmtBits f.sub.fmt) then .fault s .illegalOperand
  else .regs s 1 fun k =>
    let r := if f.sub.fmt = 0 then condInt f.sub.cond.toNat (extI f.fs a.1 a.2) (extI f.fs b.1 b.2)
             else condFloat f.sub.cond.toNat (dec (fmtOf f.sub.fmt) a.1) (dec (fmtOf f.sub.fmt) b.1)
    ((k.holdLatch t false f.a a.1 (a.2 / 4)).holdLatch t true f.b b.1 (b.2 / 4)).setPred f.pd.toNat (predMode f.mode (k.predBit f.pd.toNat) r)

def execCmp (f : S3cmp) (s : State) : Out := issue s (.cmp f) (planCmp f)

/-- PLOG (R138). -/
def execPlog (f : PlogF) (s : State) : Out :=
  issue s (.plog f) fun s => .regs s 1 fun k =>
    k.setPred f.pd.toNat (f.lut.getLsbD (2 * (if k.predBit f.pa.toNat then 1 else 0) + (if k.predBit f.pb.toNat then 1 else 0)))

/-- Moves the low n bits of v to scalar predicates from p on. -/
def Core.setPreds (k : Core) (p n v : Nat) : Core := (List.range n).foldl (fun k i => k.setPred (p + i) (bitN v i)) k

/-- Scalar predicates from p on as a number of n bits. -/
def Core.getPreds (k : Core) (p n : Nat) : Nat := (List.range n).foldl (fun a i => a + (if k.predBit (p + i) then 2 ^ i else 0)) 0

/-- PMOV (R139). -/
def planPmov (f : PmovF) (s : State) : Plan :=
  let t := s.cur.tag
  let n := f.s.bits
  if 2 ≤ f.dir.toNat ∧ s.ct ≠ .v then .fault s .illegalInstruction
  else if !s.here.slotOk t f.s then .fault s .illegalOperand
  else if f.dir.toNat < 2 ∧ 16 < f.f.toNat + n then .fault s .illegalOperand
  else if 2 ≤ f.dir.toNat ∧ f.s.w ≠ 16 then .fault s .illegalOperand
  else .regs s 1 fun k =>
    match f.dir.toNat with
    | 0 => k.setPreds f.f.toNat n (k.slotVal t f.s)
    | 1 => k.wrSlot t f.s (k.getPreds f.f.toNat n)
    | 2 => k.setVpred f.k.toNat (BitVec.ofNat 64 (k.slotVal t f.s))
    | _ => k.wrSlot t f.s (k.vpredOf f.k.toNat).toNat

def execPmov (f : PmovF) (s : State) : Out := issue s (.pmov f) (planPmov f)

/-- The scale of LEA (R140). -/
def leaShift (xs : BitVec 2) : Nat := match xs.toNat with
  | 0 => 0 | 1 => 2 | 2 => 3 | _ => 6

def execLea (f : S3) (s : State) : Out :=
  issue s (.lea f) (planCe2 f 1 false fun a b _ => (a + b * ((2 ^ leaShift f.sub.xs : Nat) : Int), 0))

/-- A tag that SETW, GETW and PACE may name on a core (R141, R164). -/
def tagOk (ct : CoreType) (t : Nat) : Bool := decide (t ≠ 5) && decide (t ≠ 7) && hasTag ct t

/-- SETW (R141). -/
def planSetw (f : SetwF) (s : State) : Plan :=
  let k := s.here
  let t := s.cur.tag
  if !tagOk s.ct f.t.toNat then .fault s .illegalInstruction
  else match f.arg with
  | .imm v => .regs s 1 fun k =>
      k.setWindow f.t.toNat f.w.toNat (if f.add then BitVec.ofNat 15 (k.window f.t.toNat f.w.toNat) + v else v)
  | .slot o =>
    if !k.slotOk t o || decide (4 < o.w) then .fault s .illegalOperand
    else
      let u := k.slotVal t o
      if !f.add ∧ 2 ^ 15 ≤ u then .fault s .illegalOperand
      else .regs s 1 fun k =>
        k.setWindow f.t.toNat f.w.toNat
          (if f.add then BitVec.ofNat 15 (k.window f.t.toNat f.w.toNat) + BitVec.ofInt 15 (sext u o.bits) else BitVec.ofNat 15 u)

def execSetw (f : SetwF) (s : State) : Out := issue s (.setw f) (planSetw f)

/-- GETW (R141). -/
def planGetw (f : GetwF) (s : State) : Plan :=
  if !tagOk s.ct f.t.toNat then .fault s .illegalInstruction
  else planWr f.dst 1 (fun s => s.here.window f.t.toNat f.w.toNat) s

def execGetw (f : GetwF) (s : State) : Out := issue s (.getw f) (planGetw f)

end Sys2Proof.Machine
end

