-- ==== Sys2Proof/Machine/CeMem.lean ====
section
/-! DEFINITION. The control engine's loads, stores, spills, atomics, fences and barrier objects (R143 to R158, R276, R290 to R297). -/

namespace Sys2Proof.Machine

open Sys2Proof

/-! ### Operations in progress -/

/-- Stream words that lie before the engine at the cursor, counted over the whole stream. -/
def State.herePos (s : State) : Nat := s.here.base + s.hereE.pos

/-- Whether a wait on a circular buffer waits for an open-time operation (R279). -/
def State.cbOpen (s : State) (c b : Nat) : Bool :=
  s.flights.any fun f => !f.fixed && f.work.fins.any fun x => match x with
    | .resv c' b' _ | .cons c' b' _ | .prod c' b' _ => decide (c' = c) && decide (b' = b)
    | _ => false

/-- Whether the core at the cursor has an open-time operation in progress. -/
def State.hasOpen (s : State) : Bool := s.flights.any fun f => decide (f.core = s.cur.core) && !f.fixed

def Work.isAtomic : Work → Bool
  | .atomic _ _ _ _ _ _ _ _ _ => true
  | _ => false

/-- Whether an operation over `runs` keeps its place behind an earlier one of its queue: they share a byte (R296), or both are atomics on one
line (R292). -/
def Work.behind (w : Work) (runs : List Run) (old : Work) : Bool :=
  let line (r : Run) : Run := { va := 0, pa := r.pa / 64 * 64, len := 64 }
  let both := w.isAtomic && old.isAtomic
  old.runs.any fun a => runs.any fun b => if both then (line a).meets (line b) else a.meets b

/-- The TIME tick at which an open-time operation of the engine at the cursor lands: a tick the program cannot know (R295), not before
an earlier operation of its queue that it stands behind (R292, R296). -/
def State.openDue (s : State) (runs : List Run) (w : Work) : Nat :=
  (s.flights.filter fun f => decide (f.core = s.cur.core) && decide (f.tag = s.cur.tag) && !f.fixed && w.behind runs f.work).foldl (fun m f => max m f.due)
    (s.time + 1 + Config.openLatency s.free)

/-- Puts an operation of the engine at the cursor into flight: fixed-time at a reckoner tick, or open-time. Answers its number. -/
def State.launch (s : State) (fixedAt : Option Nat) (async : Bool) (runs : List Run) (w : Work) : State × Nat :=
  let id := s.nextId
  let g := s.here.grp.getD 0
  let due := match fixedAt with
    | some t => t
    | none => s.openDue runs w
  let s := if fixedAt.isSome then s else { s with free := s.free + 1 }
  (s.addFlight { id := 0, core := s.cur.core, tag := s.cur.tag, grp := g, due := due, fixed := fixedAt.isSome, inseg := s.here.inSeg,
                 async := async, pos := s.herePos, pc := s.hereE.pc, work := w }, id)

/-- A registration made by a seam access is held by its operation (R306, R307). -/
def State.bindRegs (s : State) (id : Nat) : State :=
  if s.here.inSeg then s
  else s.modGroup (s.here.grp.getD 0) fun g => { g with regs := g.regs.map fun r => if r.flight.isNone then { r with flight := some id } else r }

/-- A late fixed-time access (R282): from the scheduled commit tick the group pauses until the access completes. -/
def State.lateMark (s : State) (late : Option Bool) (C : Nat) : State :=
  match late with
  | some busy => (s.launch (some (C - 1)) false [] (.late busy)).1
  | none => s

/-- Puts an operation of a granted access into flight, with the ends of registrations and lateness seen to. `tick` is the fixed-time
tick, `C` its scheduled commit. -/
def Granted.launch (g : Granted) (tick C : Nat) (async : Bool) (w : Work) : State × Nat :=
  let r := g.s.launch (if g.lat.isSome then some tick else none) async g.runs w
  ((r.1.bindRegs r.2).lateMark g.late C, r.2)

/-- Puts a fixed-time access that acts in chunks into flight, one operation per memory tick. The registrations of a seam are held until the last
has ended. Answers the numbers. -/
def Granted.launchAll (g : Granted) (C : Nat) (ws : List (Nat × Work)) : State × List Nat :=
  let r := ws.foldl (fun (r : State × List Nat) w =>
    let x := r.1.launch (some w.1) false [] w.2
    (x.1, r.2 ++ [x.2])) (g.s, [])
  (((r.2.getLast?).elim r.1 fun id => r.1.bindRegs id).lateMark g.late C, r.2)

/-- INFO of a fault under R421: the VA of the lowest failing byte where the table gives one. -/
def faultInfo (c : Cause) (va : Nat) : W64 :=
  match c with
  | .windowStraddle | .windowHole | .coreAbsent | .addressHole | .alignment | .race | .sharing | .translation | .protection | .page
  | .revokedRange | .footprint => BitVec.ofNat 64 va
  | _ => 0

/-- The plan of an access that was not granted, made in state `s`; otherwise what `k` says. -/
def Got.plan (g : Got) (s : State) (k : Granted → Plan) : Plan :=
  match g with
  | .ok x => k x
  | .bad c va page => .bad s c (faultInfo c va) page
  | .wait s1 p => .wait s1 p true

/-- Whether an open-time operation is out of place: inside a FIXED segment (R144, R266). -/
def State.openFault (s : State) (lat : Option Nat) : Bool := lat.isNone && s.here.inFixed

/-! ### The egress stage (R147, R148) -/

/-- The marked nibbles of the store entries, in the order in which the entries were opened. -/
def stageNibs (es : List StageEnt) : List (Nat × Slice) :=
  es.flatMap fun e => match e with
    | .store _ ns => ns
    | .atomn _ _ _ _ => []

/-- Adds marked nibbles to the newest entry for their line if that is a store entry, else opens one. -/
def stageMerge (es : List StageEnt) (line : Nat) (ns : List (Nat × Slice)) : List StageEnt :=
  let here (e : StageEnt) : Bool := match e with
    | .store l _ => decide (l = line)
    | .atomn pa _ _ _ => decide (pa / 64 * 64 = line)
  let put (m : SMap Slice) : SMap Slice := ns.foldl (fun m p => SMap.put m p.1 p.2) m
  match es.reverse.findIdx? here with
  | none => es ++ [.store line (put [])]
  | some j =>
    let i := es.length - 1 - j
    match es[i]? with
    | some (.store _ m) => es.set i (.store line (put m))
    | _ => es ++ [.store line (put [])]

/-- Stages nibbles, line by line in ascending order. -/
def stageAll (es : List StageEnt) (ns : List (Nat × Slice)) : List StageEnt :=
  ((ns.map fun p => p.1 / 128 * 64).eraseDups).foldl (fun es l => stageMerge es l (ns.filter fun p => decide (p.1 / 128 * 64 = l))) es

/-- Entries that the egress stage may hold: the descriptor's budget (R319). -/
def Core.stageRoom (k : Core) : Nat := k.seg.elim 256 fun g => g.desc.egress

/-- The staged nibbles that a load of some runs sees (R148): those of its own core inside a segment. -/
def Core.overlay (k : Core) (runs : List Run) : List (Nat × Slice) :=
  if k.inSeg then (stageNibs k.egress).filter fun p => runs.any fun r => decide (r.pa ≤ p.1 / 2) && decide (p.1 / 2 < r.pa + r.len) else []

/-- Bytes of runs read from memory with staged nibbles laid over them. -/
def readRuns (m : List Host.Cell) (ovl : List (Nat × Slice)) (runs : List Run) : List Byte :=
  runs.flatMap fun r => rdBytes (wrNibs m (ovl.filter fun p => decide (r.pa ≤ p.1 / 2) && decide (p.1 / 2 < r.pa + r.len))) r.pa r.len

/-! ### Nibbles of a write -/

/-- The nibble addresses and values of a write over runs: `val j` is nibble j of the image, `n` the number of nibbles. -/
def spreadNibs (runs : List Run) (n : Nat) (val : Nat → Slice) : List (Nat × Nat × Slice) :=
  let rec go : List Run → Nat → List (Nat × Nat × Slice)
    | [], _ => []
    | r :: rs, j => ((List.range (2 * r.len)).filterMap fun i => if j + i < n then some (2 * r.va + i, 2 * r.pa + i, val (j + i)) else none) ++ go rs (j + 2 * r.len)
  go runs 0

/-- Whether the nibble at a VA nibble address of a CE write is staged (R147). -/
def State.nibStaged (s : State) (attrs : List (Run × BitVec 16)) (vn pn : Nat) : Bool :=
  s.here.inSeg && !s.here.inScratch (vn / 2) &&
  (match attrs.find? fun p => decide (p.1.va ≤ vn / 2) && decide (vn / 2 < p.1.va + p.1.len) with
   | some p => storeStaged s.modId p.2 (pn / 2)
   | none => false)

/-! ### What an atomic makes of memory (R151, R293) -/

/-- IEEE minimum or maximum of FP32 codes; a NaN gives the canonical NaN. -/
def minmaxCode (mx : Bool) (m x : Nat) : Nat :=
  let a := dec .fp32 m
  let b := dec .fp32 x
  if a.isNan || b.isNan then Fmt.nan .fp32
  else if (if mx then ordLt a b else ordLt b a) then x else m

/-- The new value of memory under an operation of w bits. -/
def atomNew (aop w m x : Nat) : Nat :=
  match aop with
  | 0 => (m + x) % 2 ^ w
  | 1 => wrapI ((m : Int) - x) w
  | 2 => m &&& x
  | 3 => m ||| x
  | 4 => m ^^^ x
  | 5 => if sext x w < sext m w then x else m
  | 6 => if sext m w < sext x w then x else m
  | 7 => min m x
  | 8 => max m x
  | 9 => (rne .fp32 (addV false (dec .fp32 m) (dec .fp32 x)).1).1
  | 10 => minmaxCode false m x
  | 11 => minmaxCode true m x
  | _ => x

/-- Access size in bits. -/
def szBits (sz : Bool) : Nat := if sz then 64 else 32

/-! ### Reads of memory at issue (R291, R294) -/

/-- Bytes by their addresses in several runs. -/
def spreadBytes : List Run → List Byte → List (Nat × Nat × Byte)
  | [], _ => []
  | r :: rs, bs => ((bs.take r.len).zipIdx.map fun p => (r.va + p.2, r.pa + p.2, p.1)) ++ spreadBytes rs (bs.drop r.len)

/-- What a transfer moves: what its source runs hold, then the bytes read before. -/
def transferBytes (m : List Host.Cell) (src : List Run) (img : List Byte) : List Byte := (src.flatMap fun r => rdBytes m r.pa r.len) ++ img

/-- The order of effects of one tick: fixed-time ones first, by tick, core, engine and number; beats ask the banks of buffers when every other engine
has asked (R197, R232). -/
def flightBefore (a b : Flight) : Bool :=
  let key (f : Flight) : List Nat := [match f.work with
    | .beats _ _ _ _ _ _ => 1
    | _ => if f.fixed then 0 else 2, f.due, f.core, f.tag, f.id]
  decide (key a < key b)

/-- Puts a flight into its place among flights in order. -/
def insertFlight (f : Flight) : List Flight → List Flight
  | [] => [f]
  | g :: r => if flightBefore f g then f :: g :: r else g :: insertFlight f r

/-- Arrivals at barrier objects among completion signals. -/
def State.arriveAll (s : State) (fins : List Fin) : State :=
  fins.foldl (fun s x => match x with
    | .barrier pa n => s.arrive pa (n : Int)
    | _ => s) s

/-- What an operation does to memory as it takes effect. -/
def State.foresee (s : State) (w : Work) : State :=
  match w with
  | .write ws fins => ({ s with mem := wrCells s.mem ws } : State).arriveAll fins
  | .nibbles ns => { s with mem := wrNibs s.mem ns }
  | .row _ ws _ _ => { s with mem := wrCells s.mem ws }
  | .copy src img dst _ _ _ fins =>
    ({ s with mem := wrCells s.mem ((spreadBytes dst (transferBytes s.mem src img)).map fun p => (p.2.1, p.2.2)) } : State).arriveAll fins
  | .atomic pa aop s64 x exp _ _ _ _ =>
    let m := rdLe s.mem pa (szBits s64 / 8)
    if aop = 13 ∧ m ≠ exp then s else { s with mem := wrBytes s.mem pa (leBytes (szBits s64 / 8) (atomNew aop (szBits s64) m x)) }
  | .arrive pa n => s.arrive pa n
  | _ => s

/-- Whether takes at completion hold an operation back (R85). -/
def State.kept (s : State) (f : Flight) : Bool := (s.core f.core).eng.any fun p => p.2.hold.elim false fun h => h.fl.contains f.id

/-- Memory as an instruction of the engine at the cursor reads it at issue: with the fixed-time effects of its group of the same tick that precede it
by core and engine, and those that its own engine has issued before (R291, R294). -/
def State.memAhead (s : State) : List Host.Cell :=
  let before (f : Flight) : Bool := decide (f.core < s.cur.core) || (decide (f.core = s.cur.core) && decide (f.tag ≤ s.cur.tag))
  let fs := s.flights.filter fun f => f.fixed && decide (some f.grp = s.here.grp) && decide (f.due ≤ s.now) && before f && !s.kept f
  ((fs.foldl (fun l f => insertFlight f l) []).foldl (fun s f => s.foresee f.work) s).mem

/-! ### LD and ST (R146) -/

/-- Ticks of R276 for a path latency. -/
def ldTicks (L d : Nat) : Nat := ceilDiv (2 * L + 8) d
def stTicks (L d : Nat) : Nat := ceilDiv (L + 10) d
def atTicks (L d : Nat) : Nat := ceilDiv (2 * L + 16) d

/-- LD. -/
def planLd (f : S3) (s : State) : Plan :=
  let k := s.here
  let t := s.cur.tag
  let n := 2 ^ f.sub.xs.toNat
  if !k.ce2Ok t f.dst f.a f.b then .fault s .illegalOperand
  else (s.access (k.effAddr t f.a f.b) n useRead none).plan s fun g =>
    if s.openFault g.lat then .fault s .segmentLegality
    else
      let T := s.now
      let lat := ldTicks (g.lat.getD 0) s.d
      let start := k.startOf t f.dst
      let r := g.launch (T + g.lat.getD 0 + 4) (T + lat * s.d) false
        (.load g.runs (k.overlay g.runs) start f.dst.w f.fs f.sub.sat n (if g.lat.isSome then T + lat * s.d else 0))
      let s := r.1.modHere fun k => (k.holdSrc t false false 0 f.a).holdSrc t true true f.dst.w f.b
      .go { s := s, lat := if g.lat.isSome then lat else 1, op := some r.2, load := true }

def execLd (f : S3) (s : State) : Out := issue s (.ld f) (planLd f)

/-- The plan of a CE write of nibbles over a granted access: staged nibbles go to the stage, the others into flight. `chunk` writes each
64 bytes of the image one tick after the last (SPILL), and takes `extra` cycles more unless all is staged (R169). -/
def writePlan (s : State) (g : Granted) (n : Nat) (val : Nat → Slice) (chunk : Bool) (extra : Nat) (hold : Core → Core) : Plan :=
  let T := s.now
  let ns := spreadNibs g.runs n val
  let attrs := g.runs.zip g.attrs
  let st := ns.filter fun p => s.nibStaged attrs p.1 p.2.1
  let now := ns.filter fun p => !s.nibStaged attrs p.1 p.2.1
  let stage := stageAll s.here.egress (st.map fun p => p.2)
  if !now.isEmpty && s.openFault g.lat then .fault s .segmentLegality
  else if !st.isEmpty && decide (s.here.stageRoom < stage.length) then .fault s .segmentLegality
  else
    let s1 := g.s.modHere fun k => { hold k with egress := if st.isEmpty then k.egress else stage }
    if now.isEmpty then .go { s := s1 }
    else
      let lat := stTicks (g.lat.getD 0) s.d + extra
      let g1 := { g with s := s1 }
      if chunk && g.lat.isSome then
        let parts := (List.range (ceilDiv n 128)).filterMap fun j =>
          let part := (List.range 128).filterMap fun i => ns[128 * j + i]?
          let mine := (part.filter fun p => !s.nibStaged attrs p.1 p.2.1).map fun p => p.2
          if mine.isEmpty then none else some (T + g.lat.getD 0 + 10 + j, Work.nibbles mine)
        .go { s := (g1.launchAll (T + lat * s.d) parts).1, lat := lat, cyc := max 1 extra }
      else
        let r := g1.launch (T + g.lat.getD 0 + 10) (T + lat * s.d) false (.nibbles (now.map fun p => p.2))
        .go { s := r.1, lat := if g.lat.isSome then lat else 1, cyc := max 1 extra, op := if g.lat.isSome then none else some r.2 }

/-- ST. A held IMM offset takes the width of D (log entry 102). -/
def planSt (f : S3) (s : State) : Plan :=
  let k := s.here
  let t := s.cur.tag
  let n := 2 ^ f.sub.xs.toNat
  if !k.ce2Ok t f.dst f.a f.b then .fault s .illegalOperand
  else (s.access (k.effAddr t f.a f.b) n { useWrite with stg := some false } none).plan s fun g =>
    let v := intResult f.sub.sat f.fs (extI f.fs (k.slotVal t f.dst) f.dst.bits) (8 * n)
    let hold (k : Core) : Core := (k.holdSrc t false false 0 f.a).holdSrc t true true f.dst.w f.b
    match writePlan s g (2 * n) (fun j => BitVec.ofNat 4 (v.1 / 16 ^ j)) false 0 hold with
    | .go x => .go { x with s := x.s.modHere fun k => k.raise (s.now + x.lat * s.d) v.2 }
    | p => p

def execSt (f : S3) (s : State) : Out := issue s (.st f) (planSt f)

/-! ### SPILL and FILL (R149) -/

/-- First slice, count and order 6 of SPILL and FILL. -/
def spillStart (k : Core) (t : Nat) (f : SpillF) : Nat := k.window t f.win.toNat + f.off.toNat

/-- SPILL. A held IMM offset takes 4 slices (log entry 102). -/
def planSpill (f : SpillF) (s : State) : Plan :=
  let k := s.here
  let t := s.cur.tag
  let cnt := f.cnt.toNat + 1
  let start := spillStart k t f
  if !(k.srcOk t false f.a && k.srcOk t true f.b) || decide (8192 < start + cnt) then .fault s .illegalOperand
  else (s.access (k.effAddr t f.a f.b) ((cnt + 1) / 2) { useWrite with stg := some false } none).plan s fun g =>
    writePlan s g cnt (fun j => SMap.get 0 k.scalar (start + j)) true (ceilDiv ((cnt + 1) / 2) 64)
      fun k => (k.holdSrc t false false 0 f.a).holdSrc t true true 4 f.b

def execSpill (f : SpillF) (s : State) : Out := issue s (.spill f) (planSpill f)

/-- The part of runs that holds bytes [lo, lo + n) of the image. -/
def cutRuns : List Run → Nat → Nat → List Run
  | [], _, _ => []
  | r :: rs, lo, n =>
    if n = 0 then []
    else if r.len ≤ lo then cutRuns rs (lo - r.len) n
    else
      let m := min n (r.len - lo)
      { va := r.va + lo, pa := r.pa + lo, len := m } :: cutRuns rs 0 (n - m)

/-- FILL. Each chunk of a fixed-time one writes its own granules; an open-time one lands as a whole (R290). -/
def planFill (f : SpillF) (s : State) : Plan :=
  let k := s.here
  let t := s.cur.tag
  let cnt := f.cnt.toNat + 1
  let start := spillStart k t f
  let bytes := (cnt + 1) / 2
  let b := ceilDiv bytes 64
  if !(k.srcOk t false f.a && k.srcOk t true f.b) || decide (8192 < start + cnt) then .fault s .illegalOperand
  else (s.access (k.effAddr t f.a f.b) bytes useRead none).plan s fun g =>
    if s.openFault g.lat then .fault s .segmentLegality
    else
      let T := s.now
      let lat := ldTicks (g.lat.getD 0) s.d + b
      let hold (k : Core) : Core := (k.holdSrc t false false 0 f.a).holdSrc t true true 4 f.b
      match g.lat with
      | some L =>
        let r := g.launchAll (T + lat * s.d) ((List.range b).map fun j =>
          let runs := cutRuns g.runs (64 * j) (min 64 (bytes - 64 * j))
          (T + L + 4 + j, Work.fill runs (k.overlay runs) (start + 128 * j) (min 128 (cnt - 128 * j))))
        .go { s := r.1.modHere hold, lat := lat, cyc := b, load := true,
              parts := r.2.zipIdx.map fun p => (p.1, granules false (start + 128 * p.2) (min 128 (cnt - 128 * p.2))) }
      | none =>
        let r := g.launch 0 0 false (.fill g.runs (k.overlay g.runs) start cnt)
        .go { s := r.1.modHere hold, cyc := b, op := some r.2, load := true }

def execFill (f : SpillF) (s : State) : Out := issue s (.fill f) (planFill f)

/-! ### Atomics (R150, R151, R293) -/

/-- The value operand of an atomic, as s bits (R150); `dw` in slices. -/
def atomVal (k : Core) (t : Nat) (b : Bool) (aop : Nat) (fs sz : Bool) (x : Src) : Nat :=
  if 9 ≤ aop ∧ aop ≤ 11 then (match x with
    | .imm v _ => immFloat 32 v
    | x => k.srcVal t b false 8 x)
  else wrapI (k.srcInt t b fs (szBits sz / 4) x) (szBits sz)

/-- Order 6 for the value operand: FP32 of exactly 8 slices for the float operations. -/
def atomValOk (k : Core) (t : Nat) (b : Bool) (aop : Nat) (x : Src) : Bool :=
  k.srcOk t b x && (decide (aop < 9 ∨ 11 < aop) || decide (k.srcW t b 8 x = 8))

/-- Latches that an atomic loads. -/
def atomHold (k : Core) (t : Nat) (aop : Nat) (fs sz : Bool) (a x : Src) : Core :=
  (k.holdSrc t false false 0 a).holdLatch t true x (match x with
    | .imm _ _ => atomVal k t true aop fs sz x
    | x => k.srcVal t true fs (szBits sz / 4) x) (k.srcW t true (szBits sz / 4) x)

/-- ATOM and CAS at once: the operation performed at the bank. `aop` 13 stands for CAS. -/
def atomNow (s : State) (a x : Src) (aop : Nat) (fs sz : Bool) (dst : Option Slot) (exp : Nat) (pd : Option Nat) : Plan :=
  let k := s.here
  let t := s.cur.tag
  let n := szBits sz / 8
  let ea := k.addr t false a
  if ea % n ≠ 0 then .bad s .alignment (BitVec.ofNat 64 ea) none
  else (s.access ea n useAtomic none).plan s fun g =>
    if s.openFault g.lat then .fault s .segmentLegality
    else
      let T := s.now
      let lat := atTicks (g.lat.getD 0) s.d
      let r := g.launch (T + g.lat.getD 0 + 8) (T + lat * s.d) false
        (.atomic ((g.runs.headD { va := 0, pa := 0, len := 0 }).pa) aop sz (atomVal k t true aop fs sz x) exp
          (dst.elim 0 fun o => k.startOf t o) (dst.elim 0 fun o => o.w) fs pd)
      .go { s := r.1.modHere fun k => atomHold k t aop fs sz a x, lat := if g.lat.isSome then lat else 1, op := some r.2, load := true }

/-- ATOM. -/
def planAtom (f : AtomF) (s : State) : Plan :=
  let k := s.here
  let t := s.cur.tag
  if !(k.slotOk t f.dst && k.srcOk t false f.a && atomValOk k t true f.aop.toNat f.x) then .fault s .illegalOperand
  else if k.inSeg then .fault s .segmentLegality
  else atomNow s f.a f.x f.aop.toNat f.fs f.sz (some f.dst) 0 none

def execAtom (f : AtomF) (s : State) : Out := issue s (.atom f) (planAtom f)

/-- ATOMN: at once in a seam and in scratch ranges, else staged as an entry of its own. -/
def planAtomn (f : AtomnF) (s : State) : Plan :=
  let k := s.here
  let t := s.cur.tag
  let ea := k.addr t false f.a
  let n := szBits f.sz / 8
  if !(k.srcOk t false f.a && atomValOk k t true f.aop.toNat f.x) then .fault s .illegalOperand
  else if !k.inSeg || k.inScratch ea then atomNow s f.a f.x f.aop.toNat f.fs f.sz none 0 none
  else if ea % n ≠ 0 then .bad s .alignment (BitVec.ofNat 64 ea) none
  else (s.access ea n { useAtomic with stg := some true } none).plan s fun g =>
    let e : StageEnt := .atomn ((g.runs.headD { va := 0, pa := 0, len := 0 }).pa) f.aop.toNat f.sz (atomVal k t true f.aop.toNat f.fs f.sz f.x)
    if k.stageRoom < k.egress.length + 1 then .fault s .segmentLegality
    else .go { s := g.s.modHere fun k => { atomHold k t f.aop.toNat f.fs f.sz f.a f.x with egress := k.egress ++ [e] } }

def execAtomn (f : AtomnF) (s : State) : Out := issue s (.atomn f) (planAtomn f)

/-- CAS. -/
def planCas (f : CasF) (s : State) : Plan :=
  let k := s.here
  let t := s.cur.tag
  if !(k.slotOk t f.dst && k.srcOk t false f.a && k.srcOk t true f.x) then .fault s .illegalOperand
  else if k.inSeg then .fault s .segmentLegality
  else atomNow s f.a f.x 13 f.fs f.sz (some f.dst) (k.slotVal t f.dst % 2 ^ szBits f.sz) (if f.pe then some f.pd.toNat else none)

def execCas (f : CasF) (s : State) : Out := issue s (.cas f) (planCas f)

/-! ### Fences (R152, R153) -/

/-- A write, atomic or SPILL in flight; a load in flight. -/
def Work.isWrite : Work → Bool
  | .write _ _ | .nibbles _ | .atomic _ _ _ _ _ _ _ _ _ | .arrive _ _ => true
  | _ => false

def Work.isLoad : Work → Bool
  | .load _ _ _ _ _ _ _ _ | .fill _ _ _ _ | .atomic _ _ _ _ _ _ _ _ _ => true
  | _ => false

/-- Operations of the CE of the core at the cursor. -/
def State.ceFlights (s : State) : List Flight := s.flights.filter fun f => decide (f.core = s.cur.core) && decide (f.tag = 0)

/-- FENCE. -/
def planFence (f : FenceF) (s : State) : Plan :=
  let k := s.here
  let acq := f.k.getLsbD 0
  let rel := f.k.getLsbD 1
  if f.c.toNat < 2 then .go { s := s }
  else if acq ∧ k.inFixed then .fault s .segmentLegality
  else if acq ∧ (s.now < s.hereE.readAt ∨ s.ceFlights.any fun x => x.work.isLoad) then .wait s none (s.ceFlights.any fun x => x.work.isLoad && !x.fixed)
  else if rel ∧ !k.inSeg ∧ (s.ceFlights.any fun x => x.work.isWrite) then .wait s none (s.ceFlights.any fun x => x.work.isWrite && !x.fixed)
  else .go { s := if rel && k.inSeg then s.modHere fun k => { k with seg := k.seg.map fun g => { g with rel := max g.rel f.c.toNat } } else s }

def execFence (f : FenceF) (s : State) : Out := issue s (.fence f) (planFence f)

/-- Whether every instruction of an engine before the word at the cursor has completed (R153). -/
def State.engineDone (s : State) (t : Nat) : Bool :=
  let e := s.here.engine t
  decide (s.hereE.idx ≤ e.idx) && decide (max e.doneAt e.seamDone ≤ s.now) && e.hold.isNone &&
  !(s.flights.any fun f => decide (f.core = s.cur.core) && decide (f.tag = t) && decide (f.pos < s.herePos)) &&
  !(decide (t = 3) && decide (s.ct = .m) && s.here.nestRun.isSome) &&
  !(decide (t = 6) && s.awaitsColl s.cur.core)

/-- QFENCE. -/
def planQfence (f : QfenceF) (s : State) : Plan :=
  if (List.range 7).any fun t => f.m.getLsbD t && !hasTag s.ct t then .fault s .illegalOperand
  else if (List.range 7).all fun t => !f.m.getLsbD t || s.engineDone t then .go { s := s }
  else .wait s none s.hasOpen

def execQfence (f : QfenceF) (s : State) : Out := issue s (.qfence f) (planQfence f)

/-! ### Barrier objects (R156 to R158) -/

/-- Whether [pa, pa + 16) is a legal place of a barrier object for the group of the core at the cursor (R156). -/
def State.barrierPlace (s : State) (pa : Nat) : Bool :=
  let p := s.placeOf pa
  decide (pa % 16 = 0) && decide (pa / 2 ^ 44 = s.modId) && p.region && p.win && decide (pa + 16 ≤ p.base + p.len) && (s.bankAt pa).isNone &&
  (match winCore pa with
   | some c => decide ((s.core c).grp = s.here.grp)
   | none => false)

/-- STAMP of an object as issued: a BARI that has issued and not yet committed counts. -/
def State.stampIssued (s : State) (pa : Nat) : Nat :=
  s.flights.foldl (fun v f => match f.work with
    | .write ws _ => match ws.find? fun p => decide (p.1 = pa + 10), ws.find? fun p => decide (p.1 = pa + 11) with
      | some a, some b => a.2.toNat + 256 * b.2.toNat
      | _, _ => v
    | _ => v) (s.stampAt pa)

/-- The check of R157: inside a segment the stamp is the opening count modulo 65,535. -/
def State.stampOk (s : State) (pa : Nat) : Bool :=
  !s.here.inSeg || decide (s.stampIssued pa = ((s.groupOf s.cur.core).elim 0 fun g => g.openings) % 65535)

/-- A barrier object that an instruction names: its place, or the fault. -/
def State.barrierAt (s : State) (va : Nat) (u : Use) (stamp : Bool) (k : Granted → Nat → Plan) : Plan :=
  (s.access va 16 u none).plan s fun g =>
    let pa := (g.runs.headD { va := 0, pa := 0, len := 0 }).pa
    if !s.barrierPlace pa || g.runs.length ≠ 1 then .fault s .bufferAccess
    else if stamp && !s.stampOk pa then .fault s .segmentLegality
    else k g pa

/-- The 16 bytes that BARI writes. -/
def bariBytes (e stamp owner : Nat) : List Byte := leBytes 4 e ++ leBytes 4 e ++ leBytes 2 0 ++ leBytes 2 stamp ++ leBytes 1 owner ++ leBytes 3 0

/-- Cells of consecutive bytes. -/
def cellsAt (pa : Nat) (bs : List Byte) : List Host.Cell := bs.zipIdx.map fun p => (pa + p.2, p.1)

/-- A barrier-object operation of the CE over a granted access: it commits after the latency of R169, or at an open-time tick where the path is
relayed (R144). -/
def barGo (s : State) (g : Granted) (w : Work) (hold : Core → Core) : Plan :=
  let r := g.s.launch (if g.lat.isSome then some (s.now + 2 * s.d) else none) false g.runs w
  .go { s := r.1.modHere hold, lat := if g.lat.isSome then 2 else 1, op := if g.lat.isSome then none else some r.2 }

/-- BARI. A held IMM e takes 4 slices (log entry 102). -/
def planBari (f : BarF) (s : State) : Plan :=
  let k := s.here
  let t := s.cur.tag
  let e := k.ctlVal t true f.e
  if !(k.srcOk t false f.a && k.srcOk t true f.e) then .fault s .illegalOperand
  else if e = 0 ∨ 2 ^ 32 ≤ e then .fault s .illegalOperand
  else s.barrierAt (k.addr t false f.a) useWrite false fun g pa =>
    let stamp := if k.inSeg then ((s.groupOf s.cur.core).elim 0 fun g => g.openings) % 65535 else 0xFFFF
    barGo s g (.write (cellsAt pa (bariBytes e stamp s.cur.core)) []) fun k => (k.holdSrc t false false 0 f.a).holdSrc t true false 4 f.e

def execBari (f : BarF) (s : State) : Out := issue s (.bari f) (planBari f)

/-- BARX. -/
def planBarx (f : BarF) (s : State) : Plan :=
  let k := s.here
  let t := s.cur.tag
  if !(k.srcOk t false f.a && k.srcOk t true f.e) then .fault s .illegalOperand
  else s.barrierAt (k.addr t false f.a) { useWrite with rd := true } true fun g pa =>
    barGo s g (.arrive pa (k.offVal t true f.e)) fun k => (k.holdSrc t false false 0 f.a).holdSrc t true true 4 f.e

def execBarx (f : BarF) (s : State) : Out := issue s (.barx f) (planBarx f)

/-- Whether a BARI of an object has issued and not yet written it. -/
def State.bariPending (s : State) (pa : Nat) : Bool :=
  s.flights.any fun f => match f.work with
    | .write ws _ => ws.any fun p => decide (p.1 = pa + 8)
    | _ => false

/-- BWAIT. The PHASE that it reads is that of the object whose STAMP it has checked (log entry 97). -/
def planBwait (f : BwaitF) (s : State) : Plan :=
  let k := s.here
  let t := s.cur.tag
  let ok := match f.psrc with
    | some o => k.slotOk t o
    | none => true
  if !(k.slotOk t f.a && ok) then .fault s .illegalOperand
  else s.barrierAt (k.slotVal t f.a % 2 ^ 56) useRead true fun g pa =>
    let p := match f.psrc with
      | some o => bitN (k.slotVal t o) 0
      | none => f.p
    if s.openFault g.lat then .fault s .segmentLegality
    else if s.bariPending pa ∨ bitN (rdLe s.memAhead (pa + 8) 1) 0 = p then .wait s none true
    else .go { s := g.s }

def execBwait (f : BwaitF) (s : State) : Out := issue s (.bwait f) (planBwait f)

end Sys2Proof.Machine
end

