-- ==== Sys2Proof/Machine/CeSys.lean ====
section
/-! DEFINITION. The control engine's tags, traps, segment state, system registers, random numbers, pacing and circular buffers (R154, R155,
R159 to R168). -/

namespace Sys2Proof.Machine

open Sys2Proof

/-! ### Completion tags (R155) -/

/-- The mask k of TWAIT and TCLR. -/
def maskVal (k : Core) (t : Nat) : MaskArg → Nat
  | .one i => 2 ^ i.toNat
  | .slot o => k.slotVal t o

def maskOk (k : Core) (t : Nat) : MaskArg → Bool
  | .one _ => true
  | .slot o => k.slotOk t o

/-- Bits of TAGS are cleared at the commit tick of an instruction of the CE, a cycle after its issue at tick `T` (R81, R169). -/
def Core.clearTags (k : Core) (m T : Nat) : Core := k.sysPost .b 0x10 (BitVec.ofNat 64 m) (T + k.div 0)

/-- TWAIT. -/
def planTwait (f : TwaitF) (s : State) : Plan :=
  let k := s.here
  let m := maskVal k s.cur.tag f.m
  let got := k.tags.toNat &&& m
  if !maskOk k s.cur.tag f.m then .fault s .illegalOperand
  else if m = 0 then .fault s .illegalOperand
  else if (if f.all then got = m else got ≠ 0) then .go { s := if f.clr then s.modHere fun k => k.clearTags got s.now else s }
  else .wait s none true

def execTwait (f : TwaitF) (s : State) : Out := issue s (.twait f) (planTwait f)

/-- The index of the lowest set bit, or 64. -/
def lowBit (v : Nat) : Nat := ((List.range 64).find? fun i => bitN v i).getD 64

/-- TFFR. -/
def planTffr (f : TffrF) (s : State) : Plan :=
  let k := s.here
  let t := s.cur.tag
  let m := k.slotVal t f.k
  let got := k.tags.toNat &&& m
  if !(k.slotOk t f.dst && k.slotOk t f.k) || decide (f.dst.w < 2) then .fault s .illegalOperand
  else if f.wait ∧ m = 0 then .fault s .illegalOperand
  else if f.wait ∧ got = 0 then .wait s none true
  else .regs s 1 fun k =>
    let k := k.wrSlot t f.dst (lowBit got % 2 ^ f.dst.bits)
    if f.clr then k.clearTags (if got = 0 then 0 else 2 ^ lowBit got) s.now else k

def execTffr (f : TffrF) (s : State) : Out := issue s (.tffr f) (planTffr f)

/-- TCLR. -/
def planTclr (f : TclrF) (s : State) : Plan :=
  let t := s.cur.tag
  if !maskOk s.here t f.m then .fault s .illegalOperand else .regs s 1 fun k => k.clearTags (maskVal k t f.m) s.now

def execTclr (f : TclrF) (s : State) : Out := issue s (.tclr f) (planTclr f)

/-! ### Traps (R159) -/

/-- Whether an operation may still raise flags. -/
def Work.raises : Work → Bool
  | .load _ _ _ _ _ _ _ _ | .pass _ _ _ _ | .row _ _ _ _ | .rowRead _ _ _ _ _ _ _ _ _ _ _ _ _ _ _ | .contrib _ | .nest
  | .qdeq _ _ _ _ _ _ _ _ _ _ _ _ _ => true
  | _ => false

/-- Whether every instruction of every engine before the word has committed its flags. -/
def State.flagsDone (s : State) : Bool :=
  let k := s.here
  ((tagsOf s.ct).all fun t => decide ((k.engine 0).idx ≤ (k.engine t).idx)) && (k.flagq.all fun p => decide (p.1 ≤ s.now)) &&
  !(s.flights.any fun f => decide (f.core = s.cur.core) && f.work.raises && decide (f.pos < s.herePos)) && k.nestRun.isNone

/-- Whether every earlier instruction of the core is complete. -/
def State.allDone (s : State) : Bool := (tagsOf s.ct).all fun t => s.engineDone t

/-- TRAPF: in a seam every earlier instruction is complete before the trap stops the unit. -/
def planTrapf (s : State) : Plan :=
  if !s.flagsDone then .wait s none s.hasOpen
  else
    let f := (s.here.flagsAt s.now) &&& s.here.fmask
    if f = 0 then .go { s := s }
    else if !s.here.inSeg ∧ !s.allDone then .wait s none s.hasOpen
    else .bad s .arithTrap (f.setWidth 64) none

def execTrapf (f : F1) (s : State) : Out := issue s (.trapf f) planTrapf

/-- TRAP. -/
def planTrap (f : TrapF) (s : State) : Plan :=
  if s.here.inSeg then .fault s .segmentLegality
  else if !s.allDone then .wait s none s.hasOpen
  else .bad s .systemTrap (f.c.setWidth 64) none

def execTrap (f : TrapF) (s : State) : Out := issue s (.trap f) (planTrap f)

/-! ### Segment state and system registers (R160 to R164) -/

/-- The values of SEGST. -/
def segstVal (s : State) (sel : Nat) : Nat :=
  let k := s.here
  match sel with
  | 0 => k.segno.toNat
  | 1 => k.reent.toNat
  | 2 => if k.inSeg then 1 else 0
  | 3 => ((s.groupOf s.cur.core).elim 0 fun g => g.openings) % 2 ^ 32
  | 4 => k.egress.length
  | 5 => k.deferred.length
  | 6 => s.segTick s.cur.core
  | _ => k.seg.elim 0 fun g => g.ix

def execSegst (f : SegstF) (s : State) : Out := issue s (.segst f) (planWr f.dst 1 fun s => segstVal s f.sel.toNat)

/-- MFSR. -/
def planMfsr (f : MfsrF) (s : State) : Plan :=
  if !sysOk s.ct f.num.toNat then .fault s .illegalInstruction
  else planWr f.dst 1 (fun s => (s.sysRead s.cur.core f.num.toNat).toNat) s

def execMfsr (f : MfsrF) (s : State) : Out := issue s (.mfsr f) (planMfsr f)

/-- System registers that a segment does not write (R161): SEED, FPMODE, FMASK, SLIP, PACE, SEGLIM. -/
def seamOnly (n : Nat) : Bool := [0x12, 0x8, 0xA, 0x11, 0x14, 0x4].contains n

/-- MTSR. A held IMM source takes 4 slices (log entry 102). -/
def planMtsr (f : MtsrF) (s : State) : Plan :=
  let k := s.here
  let t := s.cur.tag
  let n := f.num.toNat
  if !sysOk s.ct n then .fault s .illegalInstruction
  else if !k.srcOk t false f.src then .fault s .illegalOperand
  else if k.inSeg ∧ seamOnly n then .fault s .segmentLegality
  else
    let v := BitVec.ofNat 64 (k.ctlVal t false f.src)
    let C := s.now + s.d
    .regs s 1 fun k => (k.holdLatch t false f.src (k.ctlVal t false f.src) (k.srcW t false 4 f.src)).sysPost s.ct n v C

def execMtsr (f : MtsrF) (s : State) : Out := issue s (.mtsr f) (planMtsr f)

/-- RDTIME (R162). -/
def execRdtime (f : RdF) (s : State) : Out := issue s (.rdtime f) (planWr f.dst 1 fun s => s.time)

/-- RDRECK (R162). -/
def execRdreck (f : RdF) (s : State) : Out := issue s (.rdreck f) (planWr f.dst 1 fun s => s.now)

/-- The 64 bits that RAND draws (R163): r[0] and, above 32 bits, r[1]. -/
def randVal (seed : W64) (q c bits : Nat) : Nat :=
  let r (j : Nat) : Nat := (ember seed (emberCtr 2 (q % 256) ((c + j) % 2 ^ 48))).toNat
  (r 0 + (if 32 < bits then r 1 * 2 ^ 32 else 0)) % 2 ^ bits

/-- RAND. -/
def planRand (f : RandF) (s : State) : Plan :=
  let k := s.here
  let t := s.cur.tag
  if !(k.slotOk t f.dst && k.srcOk t false f.c && k.srcOk t true f.q) then .fault s .illegalOperand
  else .regs s 4 fun k =>
    ((k.holdLatch t false f.c (k.ctlVal t false f.c) (k.srcW t false f.dst.w f.c)).holdLatch t true f.q (k.ctlVal t true f.q)
      (k.srcW t true f.dst.w f.q)).wrSlot t f.dst (randVal k.seed (k.ctlVal t true f.q) (k.ctlVal t false f.c) f.dst.bits)

def execRand (f : RandF) (s : State) : Out := issue s (.rand f) (planRand f)

/-- PACE (R164): the register is written at the commit tick. A wider slice operand is an illegal operand (log entry 38). -/
def planPace (f : PaceF) (s : State) : Plan :=
  let k := s.here
  let t := s.cur.tag
  let put (v : Nat) : Plan :=
    if k.inSeg then .fault s .segmentLegality
    else .regs s 1 fun k =>
      let old := k.pacer.toNat
      k.sysPost s.ct 0x14 (BitVec.ofNat 64 (old - bitsN old (8 * f.t.toNat) 8 * 2 ^ (8 * f.t.toNat) + v % 256 * 2 ^ (8 * f.t.toNat))) (s.now + s.d)
  if !tagOk s.ct f.t.toNat then .fault s .illegalInstruction
  else match f.arg with
  | .imm v => put v.toNat
  | .slot o => if !k.slotOk t o || decide (2 < o.w) then .fault s .illegalOperand else put (k.slotVal t o)

def execPace (f : PaceF) (s : State) : Out := issue s (.pace f) (planPace f)

/-- HINT (R165): no result, tick count or schedule changes. -/
def execHint (f : HintF) (s : State) : Out := issue s (.hint f) fun s => .go { s := s }

/-! ### Circular buffers (R166 to R168) -/

/-- The checks of CBSET in their order. -/
def cbsetFault (s : State) (f : CbsetF) : Option Cause :=
  let size := f.size.toNat * 64
  let ents := f.ents.toNat + 1
  let base := f.base.toNat * 64
  let old := s.here.cbOf f.cb.toNat
  match bufOf s.ct f.space.toNat with
  | none => some .illegalOperand
  | some b =>
    if size = 0 ∨ f.space = 2 ∨ b.2 < base + ents * size then some .illegalOperand
    else if attrReserved f.fmt then some .format
    else if attrBlock f.fmt ∧ blocksPer f.fmt size = 0 then some .illegalOperand
    else if old.configured ∧ old.occ ≠ 0 ∧ old.attr ≠ f.fmt then some .format
    else none

/-- CBSET. -/
def planCbset (f : CbsetF) (s : State) : Plan :=
  match cbsetFault s f with
  | some c => .fault s c
  | none => .regs s 2 fun k => k.setCb f.cb.toNat
      { space := f.space.toNat, base := f.base.toNat * 64, ents := f.ents.toNat + 1, size := f.size.toNat * 64, attr := f.fmt, prod := 0, cons := 0, resv := [] }

def execCbset (f : CbsetF) (s : State) : Out := issue s (.cbset f) (planCbset f)

/-- CBADV: the advance is made at the issue tick, which is its completion, and seen from the next (R85, R278).
A slice operand wider than 3 slices is an illegal operand (log entry 38). -/
def planCbadv (f : CbadvF) (s : State) : Plan :=
  let k := s.here
  let t := s.cur.tag
  let b := k.cbOf f.cb.toNat
  let ok := match f.cnt with
    | .imm _ => true
    | .slot o => k.slotOk t o && decide (o.w ≤ 3)
  let n := match f.cnt with
    | .imm v => v.toNat
    | .slot o => k.slotVal t o
  if !ok then .fault s .illegalOperand
  else if !b.configured ∨ b.ents < n then .fault s .illegalOperand
  else if f.cons ∧ b.occ < n then .wait s none (s.cbOpen s.cur.core f.cb.toNat)
  else if !f.cons ∧ b.room s.now < n then .wait s none (s.cbOpen s.cur.core f.cb.toNat)
  else
    let r := s.launch (some s.now) false [] (.write [] [if f.cons then .cons s.cur.core f.cb.toNat n else .prod s.cur.core f.cb.toNat n])
    .go { s := r.1.modHere fun k => { k with busy := k.busy ++ [{ res := .cb f.cb.toNat, tick := s.now + 1, op := none, hold := none, old := [], mask := [] }] },
          commit := some s.now }

def execCbadv (f : CbadvF) (s : State) : Out := issue s (.cbadv f) (planCbadv f)

/-- The values of CBQRY. Free entries are those that are not occupied, reservations not counted (log entry 105). -/
def cbqryVal (b : Cb) (sel : Nat) : Nat :=
  match sel with
  | 0 => if b.configured then b.occ else 0
  | 1 => if b.configured then b.freeEnts else 0
  | 2 => b.prod.toNat
  | 3 => b.cons.toNat
  | 4 => b.ents
  | 5 => b.size
  | 6 => b.attr.toNat
  | _ => b.space * 2 ^ 32 + b.base

def execCbqry (f : CbqryF) (s : State) : Out := issue s (.cbqry f) (planWr f.dst 1 fun s => cbqryVal (s.here.cbOf f.cb.toNat) f.sel.toNat)

end Sys2Proof.Machine
end

