-- ==== Sys2Proof/Machine/Ve.lean ====
section
/-! DEFINITION. The vector engine's arithmetic, comparison, conversion, lane moves, reductions and scans (R170 to R192, R199), and the parts
that the normalise and quantise engines share with it. -/

namespace Sys2Proof.Machine

open Sys2Proof

/-! ### Shared shapes -/

/-- A width rule of R65: the source has width `w`; an immediate takes it. -/
def Core.lW (k : Core) (t : Nat) (b : Bool) (w : Nat) (x : Src) : Bool := decide (k.srcW t b w x = w)

/-- Whole elements in a width (R65). -/
def wholeEls (es w : Nat) : Bool := decide (4 * w % es = 0)

/-- A control operand in one lane, read with ZEXT (R171). -/
def Core.lctl (k : Core) (t l : Nat) (b : Bool) : Src → Nat
  | .imm v _ => v.toNat
  | x => k.lsrcVal t l b 0 false 4 0 x

/-- A control operand in one lane, read with SEXT. -/
def Core.lctlS (k : Core) (t l : Nat) (b : Bool) : Src → Int
  | .imm v _ => v.toInt
  | x => sext (k.lsrcVal t l b 0 false 4 0 x) (4 * k.srcW t b 0 x)

/-- The hold of a source whose value in lane `l` is `v l` (R71). -/
def Core.hold1 (k : Core) (t : Nat) (b : Bool) (dw : Nat) (x : Src) (on : List Nat) (v : Nat → Nat) : Core :=
  k.holdLanes t b x on (k.srcW t b dw x) v

/-- An instruction of a lane engine that writes `dst` in every enabled lane of `wr`: `ok` is order 6 of R100 for its sources, `v l` the
result and flags of lane l, computed from the files as they are at issue. -/
def planLanesIn (g : Guard) (wr : Nat → Bool) (dst : Slot) (lat : Nat) (ok : Bool) (hold : Core → List Nat → Core) (v : Nat → Nat × Flags)
    (s : State) : Plan :=
  let t := s.cur.tag
  if !ok || !s.here.lslotOk t dst then .fault s .illegalOperand
  else
    let on := s.here.lanesOn g
    let rs := (on.filter wr).map fun l => (l, v l)
    let s := s.modHere fun k => rs.foldl (fun k p => k.wrLane t p.1 dst p.2.1) (hold k on)
    .go { s := s.flag lat (orFlags (rs.map fun p => p.2.2)), lat := lat }

def planLanes (g : Guard) (dst : Slot) (lat : Nat) (ok : Bool) (hold : Core → List Nat → Core) (v : Nat → Nat × Flags) (s : State) : Plan :=
  planLanesIn g (fun _ => true) dst lat ok hold v s

/-- Results of elements put together, with their flags. -/
def joinRes (es : Nat) (rs : List (Nat × Flags)) : Nat × Flags := (joinElems es (rs.map fun r => r.1), orFlags (rs.map fun r => r.2))

/-- The counter of R178: the VE's copy of its innermost loop count. -/
def State.loopL (s : State) : Nat :=
  match s.hereE.loops with
  | l :: _ => l.cnt
  | [] => 0

/-- The counter of EMBER for element e of lane l (R178): class 0, a stream, SEGNO, loop, start slice, lane and element. -/
def State.laneCtr (s : State) (stream start l e : Nat) : W64 :=
  emberCtr 0 stream (s.here.segno.toNat % 2 ^ 15 * 2 ^ 33 + s.loopL % 2 ^ 8 * 2 ^ 25 + start % 2 ^ 15 * 2 ^ 10 + l % 64 * 16 + e % 16)

/-- The rounding mode of element e of lane l of a VE instruction (R178). -/
def State.veMode (s : State) (xs rm start l e : Nat) : RMode :=
  modeOf rm (bitsN s.here.fpmode.toNat 0 3) s.here.seed (s.laneCtr (0x10 + xs) start l e) ((l + 8 * e) % 64) false

def RMode.isDown : RMode → Bool
  | .rdn => true
  | _ => false

/-- A float operation rounded once. -/
def roundOp (F : Fmt) (md : RMode) (sat : Bool) (r : FVal × Bool) : Nat × Flags :=
  let c := rnd F md sat r.1
  (c.1, c.2 ||| flagIf r.2 fNV)

/-- Order 6 for d, a, b of one width W that holds whole elements. -/
def veOk2 (k : Core) (t : Nat) (f : S3) : Bool :=
  k.lsrcOk t false f.a && k.lsrcOk t true f.b && k.lW t false f.dst.w f.a && k.lW t true f.dst.w f.b && wholeEls (esBits f.es) f.dst.w

/-- A source of a VE instruction in one lane. -/
def Core.va (k : Core) (t l : Nat) (f : S3) : Nat := k.lsrcVal t l false f.sub.fmt f.fs (esBits f.es) f.dst.w f.a

def Core.vb (k : Core) (t l : Nat) (f : S3) : Nat := k.lsrcVal t l true f.sub.fmt f.fs (esBits f.es) f.dst.w f.b

/-- Holds of a two-source VE instruction. -/
def Core.vhold2 (k : Core) (t : Nat) (f : S3) (on : List Nat) : Core :=
  (k.hold1 t false f.dst.w f.a on fun l => k.va t l f).hold1 t true f.dst.w f.b on fun l => k.vb t l f

/-- Two-source lane arithmetic, element by element (R174, R175): `iop` on integers, `fop` on float codes of element e of lane l. -/
def planVe2 (f : S3) (lat : Nat) (iop : Int → Int → Int) (fop : Fmt → Nat → Nat → Nat → Nat → State → Nat × Flags) (s : State) : Plan :=
  let k := s.here
  let t := s.cur.tag
  let es := esBits f.es
  planLanes f.h.g f.dst lat (veOk2 k t f) (fun k on => k.vhold2 t f on) (fun l =>
    let a := k.va t l f
    let b := k.vb t l f
    joinRes es ((List.range (4 * f.dst.w / es)).map fun e =>
      let x := elemOf es a e
      let y := elemOf es b e
      if f.sub.fmt = 0 then intResult f.sub.sat f.fs (iop (extI f.fs x es) (extI f.fs y es)) es
      else fop (fmtOf f.sub.fmt) x y l e s)) s

/-- Latency of an instruction that has one for integers and one for floats. -/
def fmtLat (fmt : BitVec 3) (i f : Nat) : Nat := if fmt = 0 then i else f

/-- A float operation of VADD, VSUB or VMUL. -/
def veFloat (f : S3) (op : Bool → FVal → FVal → FVal × Bool) (F : Fmt) (x y l e : Nat) (s : State) : Nat × Flags :=
  let md := s.veMode f.sub.xs.toNat f.sub.rm.toNat (s.here.startOf s.cur.tag f.dst) l e
  roundOp F md f.sub.sat (op md.isDown (dec F x) (dec F y))

def execVadd (f : S3) (s : State) : Out :=
  issue s (.vadd f) (planVe2 f (fmtLat f.sub.fmt 1 3) (fun a b => a + b) (veFloat f addV))

def execVsub (f : S3) (s : State) : Out :=
  issue s (.vsub f) (planVe2 f (fmtLat f.sub.fmt 1 3) (fun a b => a - b) (veFloat f fun dn a b => addV dn a b.negate))

/-- VMUL: the high half for XS = 1. -/
def execVmul (f : S3) (s : State) : Out :=
  issue s (.vmul f) (planVe2 f 3 (fun a b => if f.sub.xs = 0 then a * b else a * b / ((2 ^ esBits f.es : Nat) : Int)) (veFloat f fun _ a b => mulV a b))

/-- Float minimum and maximum (R177): exact, no flag. -/
def veMinmax (f : S3) (mx : Bool) (F : Fmt) (x y _ _ : Nat) (_ : State) : Nat × Flags :=
  ((rne F (if f.sub.xs = 0 then minmaxV mx (dec F x) (dec F y) else minmaxNumV mx (dec F x) (dec F y))).1, 0)

def execVmin (f : S3) (s : State) : Out :=
  issue s (.vmin f) (planVe2 f (fmtLat f.sub.fmt 1 3) (fun a b => if b < a then b else a) (veMinmax f false))

def execVmax (f : S3) (s : State) : Out :=
  issue s (.vmax f) (planVe2 f (fmtLat f.sub.fmt 1 3) (fun a b => if a < b then b else a) (veMinmax f true))

/-- A bitwise operation on the whole pattern (R174). -/
def planVeBits (f : S3) (op : Nat → Nat → Nat) (s : State) : Plan :=
  let k := s.here
  let t := s.cur.tag
  planLanes f.h.g f.dst 1 (veOk2 k t f) (fun k on => k.vhold2 t f on) (fun l => (op (k.va t l f) (k.vb t l f), 0)) s

def execVand (f : S3) (s : State) : Out := issue s (.vand f) (planVeBits f fun a b => a &&& b)

def execVor (f : S3) (s : State) : Out := issue s (.vor f) (planVeBits f fun a b => a ||| b)

def execVxor (f : S3) (s : State) : Out := issue s (.vxor f) (planVeBits f fun a b => a ^^^ b)

/-- VSHL and VSHR (R174): b gives a count for each element; an immediate gives one count for all, and a held one enters the latch as it is read, one
value at the destination's width (DESIGN CHOICE, log entry 102). -/
def planVeShift (f : S3) (op : Int → Nat → Int) (s : State) : Plan :=
  let k := s.here
  let t := s.cur.tag
  let es := esBits f.es
  let cnt (l e : Nat) : Nat := min 127 (match f.b with
    | .imm v _ => v.toNat
    | x => elemOf es (k.lsrcVal t l true 0 f.fs es f.dst.w x) e)
  planLanes f.h.g f.dst 1 (veOk2 k t f)
    (fun k on => (k.hold1 t false f.dst.w f.a on fun l => k.va t l f).hold1 t true f.dst.w f.b on fun l => k.lctl t l true f.b)
    (fun l =>
      let a := k.va t l f
      joinRes es ((List.range (4 * f.dst.w / es)).map fun e => intResult f.sub.sat f.fs (op (extI f.fs (elemOf es a e) es) (cnt l e)) es)) s

def execVshl (f : S3) (s : State) : Out := issue s (.vshl f) (planVeShift f fun a n => a * ((2 ^ n : Nat) : Int))

def execVshr (f : S3) (s : State) : Out := issue s (.vshr f) (planVeShift f fun a n => a / ((2 ^ n : Nat) : Int))

/-! ### Fused multiply-add (R176) -/

/-- Sources of the form with a third source. -/
def Core.ca (k : Core) (t l : Nat) (f : S3c) (w : Nat) : Nat := k.lsrcVal t l false f.c.fmt f.fs (esBits f.es) w f.a

def Core.cb' (k : Core) (t l : Nat) (f : S3c) (w : Nat) : Nat := k.lsrcVal t l true f.c.fmt f.fs (esBits f.es) w f.b

def Core.chold2 (k : Core) (t : Nat) (f : S3c) (w : Nat) (on : List Nat) : Core :=
  (k.hold1 t false w f.a on fun l => k.ca t l f w).hold1 t true w f.b on fun l => k.cb' t l f w

def veOk3 (k : Core) (t : Nat) (f : S3c) : Bool :=
  k.lsrcOk t false f.a && k.lsrcOk t true f.b && k.lslotOk t (slotC f.c f.dst) && k.lW t false f.dst.w f.a && k.lW t true f.dst.w f.b &&
  wholeEls (esBits f.es) f.dst.w

/-- One element of VFMA or VFMS (`sub`). -/
def fmaEl (f : S3c) (sub : Bool) (md : RMode) (x y z : Nat) : Nat × Flags :=
  let es := esBits f.es
  if f.c.fmt = 0 then
    let p := extI f.fs x es * extI f.fs y es
    let c := extI f.fs z es
    reduceI f.c.rms f.fs (if sub then c - p else p + c) es
  else
    let F := fmtOf f.c.fmt
    let p := mulV (dec F x) (dec F y)
    let r := addV md.isDown (if sub then p.1.negate else p.1) (dec F z)
    roundOp F md false (r.1, p.2 || r.2)

/-- VFMA and VFMS. -/
def planVfma (f : S3c) (sub : Bool) (s : State) : Plan :=
  let k := s.here
  let t := s.cur.tag
  let es := esBits f.es
  planLanes f.h.g f.dst 4 (veOk3 k t f) (fun k on => k.chold2 t f f.dst.w on) (fun l =>
    let a := k.ca t l f f.dst.w
    let b := k.cb' t l f f.dst.w
    let c := k.lslotVal t l (slotC f.c f.dst)
    joinRes es ((List.range (4 * f.dst.w / es)).map fun e =>
      fmaEl f sub (s.veMode 0 (if f.c.rms then 6 else 0) (k.startOf t f.dst) l e) (elemOf es a e) (elemOf es b e) (elemOf es c e))) s

def execVfma (f : S3c) (s : State) : Out := issue s (.vfma f) (planVfma f false)

def execVfms (f : S3c) (s : State) : Out := issue s (.vfms f) (planVfma f true)

/-- VSEL (R180). -/
def planVsel (f : S3c) (s : State) : Plan :=
  let k := s.here
  let t := s.cur.tag
  let es := esBits f.es
  planLanes f.h.g f.dst 1 (veOk3 k t f) (fun k on => k.chold2 t f f.dst.w on) (fun l =>
    let a := k.ca t l f f.dst.w
    let b := k.cb' t l f f.dst.w
    let c := k.lslotVal t l (slotC f.c f.dst)
    joinRes es ((List.range (4 * f.dst.w / es)).map fun e => (if elemOf es c e ≠ 0 then elemOf es a e else elemOf es b e, 0))) s

def execVsel (f : S3c) (s : State) : Out := issue s (.vsel f) (planVsel f)

/-! ### One source -/

/-- A one-source instruction of a lane engine on whole elements. -/
def planVe1 (g : Guard) (dst : Slot) (a : Src) (es : Nat) (lat : Nat) (code : BitVec 3) (fs : Bool) (v : Nat → Nat → Nat × Flags) (s : State) : Plan :=
  let k := s.here
  let t := s.cur.tag
  let va (l : Nat) : Nat := k.lsrcVal t l false code fs es dst.w a
  planLanes g dst lat (k.lsrcOk t false a && k.lW t false dst.w a && wholeEls es dst.w) (fun k on => k.hold1 t false dst.w a on va)
    (fun l => v l (va l)) s

/-- Element by element. -/
def mapEls (es w : Nat) (v : Nat → Nat → Nat × Flags) (x : Nat) : Nat × Flags := joinRes es ((List.range (4 * w / es)).map fun e => v e (elemOf es x e))

/-- VABS and VNEG (R174, R177). -/
def planVabs (f : S3a) (neg : Bool) (s : State) : Plan :=
  let es := esBits f.es
  planVe1 f.h.g f.dst f.a es 1 f.sub.fmt f.fs (fun _ => mapEls es f.dst.w fun _ x =>
    if f.sub.fmt = 0 then
      let v := extI f.fs x es
      intResult f.sub.sat f.fs (if neg then -v else if v < 0 then -v else v) es
    else (if neg then x ^^^ 2 ^ (es - 1) else x % 2 ^ (es - 1), 0)) s

def execVabs (f : S3a) (s : State) : Out := issue s (.vabs f) (planVabs f false)

def execVneg (f : S3a) (s : State) : Out := issue s (.vneg f) (planVabs f true)

/-- VMOV (R181). -/
def execVmov (f : S2r) (s : State) : Out :=
  issue s (.vmov f) fun s => planVe1 f.h.g f.dst f.a (esBits f.es) 1 0 f.fs (fun _ x => (x, 0)) s

/-- VIOTA (R182). -/
def planViota (f : S2r) (s : State) : Plan :=
  let k := s.here
  let t := s.cur.tag
  let es := esBits f.es
  let n := 4 * f.dst.w / es
  let raw (l : Nat) : Nat := k.lctl t l false f.a
  let x (l : Nat) : Int := match f.a with
    | .imm v _ => if f.fs then v.toInt else (v.toNat : Int)
    | a => extI f.fs (raw l) (4 * k.srcW t false 0 a)
  planLanes f.h.g f.dst 1 (k.lsrcOk t false f.a && wholeEls es f.dst.w) (fun k on => k.hold1 t false f.dst.w f.a on fun l => if f.a.isImm then wrapI (x l) (4 * f.dst.w) else raw l)
    (fun l => (joinElems es ((List.range n).map fun e => wrapI (x l + (l * n + e : Nat)) es), 0)) s

def execViota (f : S2r) (s : State) : Out := issue s (.viota f) (planViota f)

/-! ### Compare (R179) -/

def planVcmp (f : S3cmp) (s : State) : Plan :=
  let k := s.here
  let t := s.cur.tag
  let es := esBits f.es
  let w := es / 4
  if !(k.lsrcOk t false f.a && k.lsrcOk t true f.b && k.lW t false w f.a && k.lW t true w f.b) then .fault s .illegalOperand
  else
    let va (l : Nat) : Nat := k.lsrcVal t l false f.sub.fmt f.fs es w f.a
    let vb (l : Nat) : Nat := k.lsrcVal t l true f.sub.fmt f.fs es w f.b
    let on := k.lanesOn f.h.g
    let old := k.vpredOf f.pd.toNat
    let new := on.foldl (fun p l =>
      let r := predMode f.mode (old.getLsbD l) (condOf f.sub.fmt f.fs f.sub.cond.toNat es (va l) (vb l))
      if r then p ||| (1#64 <<< l) else p &&& ~~~(1#64 <<< l)) old
    .regs s 2 fun k => ((k.hold1 t false w f.a on va).hold1 t true w f.b on vb).setVpred f.pd.toNat new

def execVcmp (f : S3cmp) (s : State) : Out := issue s (.vcmp f) (planVcmp f)

/-! ### Conversion and packing (R184, R185) -/

/-- One element of VCVT. -/
def cvtEl (f : VcvtF) (md : RMode) (x : Nat) : Nat × Flags :=
  let ss := esBits f.se
  let sd := esBits f.es
  if f.sf = 0 then
    let v := extI f.ss x ss
    if f.sub.fmt = 0 then reduceI f.sub.sat f.fs v sd else rnd (fmtOf f.sub.fmt) md f.sub.sat (FVal.ofRat (v : Rat) false)
  else
    let v := dec (fmtOf f.sf) x
    if f.sub.fmt = 0 then rndInt md f.fs sd v else rnd (fmtOf f.sub.fmt) md f.sub.sat v

/-- VCVT. An immediate gives every source element its code. -/
def planVcvt (f : VcvtF) (s : State) : Plan :=
  let k := s.here
  let t := s.cur.tag
  let ss := esBits f.se
  let sd := esBits f.es
  let n := 4 * f.dst.w / sd
  let code : BitVec 14 → Nat := fun v => immCode f.sf f.ss ss v
  let wa := k.srcW t false (min 16 (n * ss / 4)) f.a
  let va (l : Nat) : Nat := k.lsrcVal t l false f.sf f.ss ss wa f.a
  let el (l e : Nat) : Nat := match f.a with
    | .imm v _ => code v % 2 ^ ss
    | _ => elemOf ss (va l) e
  let ok := k.lsrcOk t false f.a && wholeEls sd f.dst.w && (f.a.isImm || (wholeEls ss wa && decide (4 * wa / ss = n)))
  planLanes f.h.g f.dst 3 ok (fun k on => k.holdLanes t false f.a on wa va) (fun l =>
    joinRes sd ((List.range n).map fun e => cvtEl f (s.veMode f.sub.xs.toNat f.sub.rm.toNat (k.startOf t f.dst) l e) (el l e))) s

def execVcvt (f : VcvtF) (s : State) : Out := issue s (.vcvt f) (planVcvt f)

/-- VPACK. -/
def planVpack (f : S3) (s : State) : Plan :=
  let k := s.here
  let t := s.cur.tag
  let es := esBits f.es
  let n := 4 * f.dst.w / es
  planLanes f.h.g f.dst 2 (veOk2 k t f && decide (8 ≤ es)) (fun k on => k.vhold2 t f on) (fun l =>
    let xs := splitElems es n (k.va t l f) ++ splitElems es n (k.vb t l f)
    joinRes (es / 2) (xs.map fun x => intResult f.sub.sat f.fs (extI f.fs x es) (es / 2))) s

def execVpack (f : S3) (s : State) : Out := issue s (.vpack f) (planVpack f)

/-- VUNPK: N even. -/
def planVunpk (f : S3a) (s : State) : Plan :=
  let k := s.here
  let t := s.cur.tag
  let es := esBits f.es
  let n := 4 * f.dst.w / es
  let va (l : Nat) : Nat := k.lsrcVal t l false 0 f.fs es f.dst.w f.a
  planLanes f.h.g f.dst 2 (k.lsrcOk t false f.a && k.lW t false f.dst.w f.a && wholeEls es f.dst.w && decide (n % 2 = 0))
    (fun k on => k.hold1 t false f.dst.w f.a on va) (fun l =>
      (joinElems (2 * es) ((List.range (n / 2)).map fun e => wrapI (extI f.fs (elemOf es (va l) (e + f.sub.xs.toNat * (n / 2))) es) (2 * es)), 0)) s

def execVunpk (f : S3a) (s : State) : Out := issue s (.vunpk f) (planVunpk f)

/-! ### Moving values between lanes and elements (R183, R186 to R188) -/

/-- Order 6 where b is a control operand. -/
def veOkCtl (k : Core) (t : Nat) (f : S3) : Bool :=
  k.lsrcOk t false f.a && k.lsrcOk t true f.b && k.lW t false f.dst.w f.a && wholeEls (esBits f.es) f.dst.w

/-- A move whose lane l receives `v` of the source values of all lanes and of its own control value. -/
def planVmove (f : S3) (lat : Nat) (v : (Nat → Nat) → Nat → Nat → Nat) (s : State) : Plan :=
  let k := s.here
  let t := s.cur.tag
  planLanes f.h.g f.dst lat (veOkCtl k t f)
    (fun k on => (k.hold1 t false f.dst.w f.a on fun l => k.va t l f).hold1 t true f.dst.w f.b on fun l => k.lctl t l true f.b)
    (fun l => (v (fun j => k.va t j f) l (k.lctl t l true f.b), 0)) s

/-- VBCAST. -/
def execVbcast (f : S3) (s : State) : Out :=
  issue s (.vbcast f) fun s =>
    let es := esBits f.es
    let n := 4 * f.dst.w / es
    if f.sub.xs = 0 then planVmove f 4 (fun a _ b => a (b % 64)) s
    else planVmove f 1 (fun a l b => joinElems es (List.replicate n (elemOf es (a l) (b % n)))) s

/-- VPERM. -/
def execVperm (f : S3) (s : State) : Out :=
  issue s (.vperm f) fun s => planVmove f 4 (fun a _ b => if f.sub.xs = 1 ∧ 64 ≤ b then 0 else a (b % 64)) s

/-- VROT. -/
def execVrot (f : S3) (s : State) : Out :=
  issue s (.vrot f) fun s => planVmove f 4 (fun a l b =>
    let n := b % 64
    if f.sub.xs = 0 then a ((l + 64 - n) % 64)
    else if f.sub.xs = 1 then (if n ≤ l then a (l - n) else 0)
    else (if l + n < 64 then a (l + n) else 0)) s

/-- VSHUF. -/
def planVshuf (f : S3) (s : State) : Plan :=
  let k := s.here
  let t := s.cur.tag
  let es := esBits f.es
  let n := 4 * f.dst.w / es
  planLanes f.h.g f.dst 2 (veOk2 k t f) (fun k on => k.vhold2 t f on) (fun l =>
    let a := k.va t l f
    let b := k.vb t l f
    (joinElems es ((List.range n).map fun e =>
      let j := elemOf es b e
      if f.sub.xs = 1 ∧ n ≤ j then 0 else elemOf es a (j % n)), 0)) s

def execVshuf (f : S3) (s : State) : Out := issue s (.vshuf f) (planVshuf f)

/-! ### Reductions and scans (R189 to R191) -/

/-- The control word of VRED and VSCAN: OP, AXIS, DEST, EXCL. -/
def redWord : Src → Nat
  | .imm v _ => v.toNat
  | _ => 0

/-- An integer operation of a reduction. -/
def redInt (op : Nat) (a b : Int) : Int :=
  match op with
  | 0 => a + b
  | 1 => if b < a then b else a
  | 2 => if a < b then b else a
  | 3 => bitOp (· &&& ·) a b
  | 4 => bitOp (· ||| ·) a b
  | _ => bitOp (· ^^^ ·) a b

/-- Its identity at width es. -/
def redIntId (op : Nat) (fs : Bool) (es : Nat) : Int :=
  match op with
  | 1 => intMax fs es
  | 2 => intMin fs es
  | 3 => extI fs (2 ^ es - 1) es
  | _ => 0

/-- A float operation of a reduction on codes. -/
def redFloat (F : Fmt) (op p q : Nat) : Nat × Flags :=
  match op with
  | 0 => addCode F p q
  | 1 => ((rne F (minmaxV false (dec F p) (dec F q))).1, 0)
  | 2 => ((rne F (minmaxV true (dec F p) (dec F q))).1, 0)
  | 6 => ((rne F (minmaxNumV false (dec F p) (dec F q))).1, 0)
  | _ => ((rne F (minmaxNumV true (dec F p) (dec F q))).1, 0)

def redFloatId (F : Fmt) (op : Nat) : Nat :=
  match op with
  | 0 => F.sign
  | 1 => F.infCode
  | 2 => F.sign + F.infCode
  | _ => F.nan

/-- The reduction of element codes, a missing one being the identity. -/
def reduceEls (fmt : BitVec 3) (fs sat : Bool) (es op : Nat) (xs : List (Option Nat)) : Nat × Flags :=
  if fmt = 0 then
    intResult sat fs (xs.foldl (fun acc x => redInt op acc (x.elim (redIntId op fs es) fun v => extI fs v es)) (redIntId op fs es)) es
  else
    let F := fmtOf fmt
    tree (redFloat F op) 7 (xs.map fun x => x.getD (redFloatId F op))

/-- The inclusive scan of integers from `acc`. -/
def scanInt (op : Nat) (acc : Int) : List Int → List Int
  | [] => []
  | x :: r => redInt op acc x :: scanInt op (redInt op acc x) r

/-- The inclusive scan of float codes from `acc`. -/
def scanFloat (F : Fmt) (op acc : Nat) : List Nat → List (Nat × Flags)
  | [] => []
  | x :: r =>
    let v := redFloat F op acc x
    v :: scanFloat F op v.1 r

/-- VSCAN of element codes (R191). -/
def scanEls (fmt : BitVec 3) (fs sat excl : Bool) (es op : Nat) (xs : List (Option Nat)) : List (Nat × Flags) :=
  if fmt = 0 then
    let vs := xs.map fun x => x.elim (redIntId op fs es) fun v => extI fs v es
    let out := match vs with
      | [] => []
      | x :: r => if excl then redIntId op fs es :: scanInt op (redIntId op fs es) (vs.take r.length) else x :: scanInt op x r
    out.map fun v => intResult sat fs v es
  else
    let F := fmtOf fmt
    let vs := xs.map fun x => x.getD (redFloatId F op)
    match vs with
    | [] => []
    | x :: r => if excl then (redFloatId F op, 0) :: scanFloat F op (redFloatId F op) (vs.take r.length) else (x, 0) :: scanFloat F op x r

/-- The lanes' values, a disabled lane giving nothing. -/
def laneCol (k : Core) (t : Nat) (f : S3) (w : Nat) (on : List Nat) (e : Nat) : List (Option Nat) :=
  (List.range 64).map fun l => if on.contains l then some (elemOf (esBits f.es) (k.lsrcVal t l false f.sub.fmt f.fs (esBits f.es) w f.a) e) else none

/-- VRED. -/
def planVred (f : S3) (s : State) : Plan :=
  let k := s.here
  let t := s.cur.tag
  let es := esBits f.es
  let c := redWord f.b
  let op := c % 8
  let hold (w : Nat) (k : Core) (on : List Nat) : Core :=
    (k.hold1 t false w f.a on fun l => k.lsrcVal t l false f.sub.fmt f.fs es w f.a).hold1 t true f.dst.w f.b on fun _ => c
  if bitN c 3 then
    let w := k.srcW t false (es / 4) f.a
    planLanes f.h.g f.dst 6 (k.lsrcOk t false f.a && decide (f.dst.w = es / 4) && wholeEls es w) (hold w) (fun l =>
      reduceEls f.sub.fmt f.fs f.sub.sat es op ((splitElems es (4 * w / es) (k.lsrcVal t l false f.sub.fmt f.fs es w f.a)).map some)) s
  else
    let w := f.dst.w
    let on := k.lanesOn f.h.g
    let r := joinRes es ((List.range (4 * w / es)).map fun e => reduceEls f.sub.fmt f.fs f.sub.sat es op (laneCol k t f w on e))
    planLanesIn f.h.g (fun l => !bitN c 4 || decide (l = 0)) f.dst 12 (k.lsrcOk t false f.a && k.lW t false w f.a && wholeEls es w) (hold w) (fun _ => r) s

def execVred (f : S3) (s : State) : Out := issue s (.vred f) (planVred f)

/-- VSCAN: across lanes it holds the scan path for 64 cycles (R199). -/
def planVscan (f : S3) (s : State) : Plan :=
  let k := s.here
  let t := s.cur.tag
  let es := esBits f.es
  let w := f.dst.w
  let n := 4 * w / es
  let c := redWord f.b
  let op := c % 8
  let ok := k.lsrcOk t false f.a && k.lW t false w f.a && wholeEls es w
  let hold (k : Core) (on : List Nat) : Core :=
    (k.hold1 t false w f.a on fun l => k.va t l f).hold1 t true w f.b on fun _ => c
  if bitN c 3 then
    planLanes f.h.g f.dst 16 ok hold (fun l => joinRes es (scanEls f.sub.fmt f.fs f.sub.sat (bitN c 5) es op ((splitElems es n (k.va t l f)).map some))) s
  else
    let on := k.lanesOn f.h.g
    let cols := (List.range n).map fun e => scanEls f.sub.fmt f.fs f.sub.sat (bitN c 5) es op (laneCol k t f w on e)
    match planLanes f.h.g f.dst 68 ok hold (fun l => joinRes es (cols.map fun col => col.getD l (0, 0))) s with
    | .go g => .go { g with s := g.s.modHere fun k =>
        { k with busy := k.busy ++ [{ res := .unit 1, tick := s.now + 64 * s.d, op := none, hold := none, old := [], mask := [] }] } }
    | p => p

def execVscan (f : S3) (s : State) : Out := issue s (.vscan f) (planVscan f)

/-! ### Dot product (R192) -/

/-- The sum of VDOT in one lane. -/
def dotLane (f : S3c) (n a b c : Nat) : Nat × Flags :=
  let es := esBits f.es
  let xs := (splitElems es n a).zip (splitElems es n b)
  if f.c.fmt = 0 then
    reduceI f.c.rms f.fs (xs.foldl (fun acc p => acc + extI f.fs p.1 es * extI f.fs p.2 es) (extI f.fs c 32)) 32
  else
    let F := fmtOf f.c.fmt
    let ps := xs.map fun p => mulV (dec F p.1) (dec F p.2)
    let v := sumV (dec .fp32 c :: ps.map fun p => p.1)
    roundOp .fp32 .rne false (v.1, v.2 || ps.any fun p => p.2)

/-- VDOT. Two immediates take the destination's width. -/
def planVdot (f : S3c) (s : State) : Plan :=
  let k := s.here
  let t := s.cur.tag
  let es := esBits f.es
  let w := if f.a.isImm then k.srcW t true 8 f.b else k.srcW t false 8 f.a
  let ok := k.lsrcOk t false f.a && k.lsrcOk t true f.b && k.lslotOk t (slotC f.c f.dst) && decide (f.dst.w = 8) && k.lW t false w f.a &&
    k.lW t true w f.b && wholeEls es w
  planLanes f.h.g f.dst 5 ok (fun k on => k.chold2 t f w on) (fun l =>
    dotLane f (4 * w / es) (k.ca t l f w) (k.cb' t l f w) (k.lslotVal t l (slotC f.c f.dst))) s

def execVdot (f : S3c) (s : State) : Out := issue s (.vdot f) (planVdot f)

end Sys2Proof.Machine
end

