-- ==== Sys2Proof/Machine/VeMem.lean ====
section
/-! DEFINITION. Bank stalls of the V-buffer and the A-buffer (R197, R232), circular buffers as entries are read and written, and the vector
engine's loads and stores (R193 to R199). -/

namespace Sys2Proof.Machine

open Sys2Proof

/-! ### Banks -/

/-- The distinct 64-byte lines of byte spans (first byte, length). -/
def spanLines (spans : List (Nat × Nat)) : List Nat :=
  (spans.flatMap fun p => if p.2 = 0 then [] else (List.range ((p.1 + p.2 - 1) / 64 - p.1 / 64 + 1)).map fun i => p.1 / 64 + i).eraseDups

/-- How many distinct lines each bank is asked for. -/
def lineCounts (nb : Nat) (lines : List Nat) : List Nat := (List.range nb).map fun b => (lines.filter fun x => decide (x % nb = b)).length

/-- The banks that are still asked for a line. -/
def needOf (cs : List Nat) : List Nat := (List.range cs.length).filter fun b => decide (cs.getD b 0 ≠ 0)

/-- One of the banks `need` that an engine of a lower tag asks in tick T. -/
def Core.lowerPort (k : Core) (tag T : Nat) (need : List Nat) : Option Nat :=
  need.find? fun b => k.ports.any fun p => decide (p.1 = T) && decide (p.2.1 < tag) && decide (p.2.2 = b)

/-- The engine at a tag asks banks in tick T. -/
def Core.notePorts (k : Core) (tag T : Nat) (need : List Nat) : Core :=
  { k with ports := (k.ports.filter fun p => decide (T ≤ p.1)) ++ need.map fun b => (T, tag, b) }

/-- One cycle of an access of the engine at the cursor to the buffer of its core, and whether the access has all its lines (R197): each bank gives
one line a cycle, and a cycle in which a lower tag asks a bank that is needed is lost. Every stall cycle is entered in the bank-conflict matrix (R431):
those of the access itself, when it begins, against its fullest bank. -/
def State.askBanks (s : State) (nb : Nat) (spans : List (Nat × Nat)) : State × Bool :=
  let t := s.cur.tag
  let T := s.now
  let cs := if s.hereE.asked then s.hereE.ask else lineCounts nb (spanLines spans)
  let m := cs.foldl max 0
  let s := if s.hereE.asked ∨ m ≤ 1 then s else s.modHere fun k => k.bankStall t (6 + (cs.findIdx? fun c => decide (c = m)).getD 0) (m - 1)
  let need := needOf cs
  match s.here.lowerPort t T need with
  | some b => (s.modHere fun k => (k.bankStall t (6 + b) 1).modEngine t fun e => { e with ask := cs }, false)
  | none => (s.modHere fun k => (k.notePorts t T need).modEngine t fun e => { e with ask := cs.map fun c => c - 1 }, decide (m ≤ 1))

/-- An access whose bank stall comes first: the engine issues after it (R197). -/
def State.afterBanks (s : State) (nb : Nat) (spans : List (Nat × Nat)) (go : State → Plan) : Plan :=
  let a := s.askBanks nb spans
  if a.2 then go a.1 else .hold a.1 1

/-! ### Circular buffers -/

/-- Whether an entry is there to be read at CONS, and whether one is free at PROD at tick T (R195, R278). -/
def Cb.canRead (b : Cb) : Bool := decide (1 ≤ b.occ)

def Cb.canWrite (b : Cb) (T : Nat) : Bool := decide (1 ≤ b.room T)

/-- A format attribute that data may be read under: the buffer's own, or `raw`. -/
def Cb.readsAs (b : Cb) (a : BitVec 5) : Bool := attrRaw b.attr || decide (b.attr = a)

/-- The buffer takes the attribute of the first entry written (R42). -/
def Cb.takeAttr (b : Cb) (a : BitVec 5) : Cb := if attrRaw b.attr then { b with attr := a } else b

/-- An advance of a circular buffer at tick C that no reservation orders, by the engine at the cursor: it is seen from tick C + 1. -/
def State.advanceAt (s : State) (C : Nat) (i : Nat) (f : Fin) : State :=
  let s := (s.launch (some C) false [] (.write [] [f])).1
  s.modHere fun k => { k with busy := k.busy ++ [{ res := .cb i, tick := C + 1, op := none, hold := none, old := [], mask := [] }] }

/-! ### Loads and stores -/

/-- The data attribute of VLDC, VSTC and PUSH-like data of an element type (R195): the format of FMT, or the integer of ES. -/
def dataAttr (fmt : BitVec 3) (es : BitVec 2) : BitVec 5 := if fmt = 0 then BitVec.ofNat 5 (7 + es.toNat) else fmt.setWidth 5

/-- Bytes of W slices. -/
def sliceBytes (w : Nat) : Nat := (w + 1) / 2

/-- Loads of lanes from V-buffer offsets: the bytes are taken 2 cycles after issue, and the slices are there 8 cycles after issue (R198,
R199). -/
def vloadGo (s : State) (addrs : List (Nat × Nat)) (start w : Nat) : State × Nat :=
  s.launch (some (s.now + 2 * s.d)) false [] (.vload (addrs.map fun p => (p.1, s.bufPa s.cur.core 3 p.2)) start w)

/-- Stores of lanes: nibble by nibble, lanes in ascending order (R196). -/
def vstoreGo (s : State) (addrs : List (Nat × Nat)) (w : Nat) (v : Nat → Nat) : State :=
  let ns := addrs.flatMap fun p => (List.range w).map fun i => (2 * s.bufPa s.cur.core 3 p.2 + i, BitVec.ofNat 4 (v p.1 / 16 ^ i))
  (s.launch (some (s.now + 2 * s.d)) false [] (.nibbles ns)).1

/-- Spans that an access of lanes asks the banks for. -/
def laneSpans (addrs : List (Nat × Nat)) (w : Nat) : List (Nat × Nat) := addrs.map fun p => (p.2, sliceBytes w)

/-- Whether a store of lanes meets a protected range (R196). -/
def State.vprot (s : State) (addrs : List (Nat × Nat)) (w : Nat) : Bool :=
  addrs.any fun p => s.here.hitsProt (winAddr s.cur.core 3 p.2) (sliceBytes w)

/-- Addresses of the enabled lanes, and whether all lie in the buffer. -/
def laneAddrs (on : List Nat) (A : Nat → Int) : List (Nat × Nat) := on.map fun l => (l, (A l).toNat)

def addrsIn (on : List Nat) (A : Nat → Int) (w lim : Nat) : Bool := on.all fun l => decide (0 ≤ A l) && decide (A l + (sliceBytes w : Nat) ≤ (lim : Int))

/-- Bytes of the V-buffer. -/
def vbufSize : Nat := 4 * 2 ^ 20

/-- VLD, VST, VLDX and VSTX; `A k l` is the address of lane l. -/
def planVmem (f : S3) (store : Bool) (A : Core → Nat → Nat → Int) (hold : Core → Nat → List Nat → Core) (s : State) : Plan :=
  let k := s.here
  let t := s.cur.tag
  let w := f.dst.w
  let on := k.lanesOn f.h.g
  let addrs := laneAddrs on (A k t)
  if !(k.lsrcOk t false f.a && k.lsrcOk t true f.b && k.lslotOk t f.dst) then .fault s .illegalOperand
  else if !addrsIn on (A k t) w vbufSize then .fault s .bufferRange
  else if store then
    if s.vprot addrs w then .fault s .segmentLegality
    else s.afterBanks 16 (laneSpans addrs w) fun s =>
      .go { s := (vstoreGo s addrs w fun l => k.lslotVal t l f.dst).modHere fun k => hold k t on, lat := 2 }
  else s.afterBanks 16 (laneSpans addrs w) fun s =>
    let r := vloadGo s addrs (k.startOf t f.dst) w
    .go { s := r.1.modHere fun k => hold k t on, lat := 8, op := some r.2 }

/-- Lane addresses of VLD and VST: base and stride. -/
def addrStride (f : S3) (k : Core) (t l : Nat) : Int := (k.lctl t l false f.a : Int) + (l : Int) * k.lctlS t l true f.b

/-- Lane addresses of VLDX and VSTX: base and index. -/
def addrIndex (f : S3) (k : Core) (t l : Nat) : Int := ((k.lctl t l false f.a + k.lctl t l true f.b * 2 ^ f.sub.xs.toNat : Nat) : Int)

/-- Holds of the two control operands; a signed immediate is held as its 64-bit pattern. -/
def holdCtl2 (f : S3) (signed : Bool) (k : Core) (t : Nat) (on : List Nat) : Core :=
  (k.hold1 t false f.dst.w f.a on fun l => k.lctl t l false f.a).hold1 t true f.dst.w f.b on fun l =>
    if signed && f.b.isImm then wrapI (k.lctlS t l true f.b) (4 * f.dst.w) else k.lctl t l true f.b

def execVld (f : S3) (s : State) : Out := issue s (.vld f) (planVmem f false (addrStride f) (holdCtl2 f true))

def execVst (f : S3) (s : State) : Out := issue s (.vst f) (planVmem f true (addrStride f) (holdCtl2 f true))

def execVldx (f : S3) (s : State) : Out := issue s (.vldx f) (planVmem f false (addrIndex f) (holdCtl2 f false))

def execVstx (f : S3) (s : State) : Out := issue s (.vstx f) (planVmem f true (addrIndex f) (holdCtl2 f false))

/-- The attribute checks of R195 on a buffer. -/
def Cb.holdsNot (b : Cb) (a : BitVec 5) : Bool := attrBlock b.attr || !b.readsAs a

/-- VLDC and VSTC. A buffer whose attribute is already another than the data's is refused at once; an open one waits for an entry (R278). -/
def planVcb (f : VcbF) (store : Bool) (s : State) : Plan :=
  let k := s.here
  let t := s.cur.tag
  let w := f.dst.w
  let i := f.cb.toNat
  let b := k.cbOf i
  let adv := f.sub.xs.getLsbD 0
  let attr := dataAttr f.sub.fmt f.es
  let on := k.lanesOn f.h.g
  let E (l : Nat) : Int := ((f.off.toNat * 64 + l * k.lctl t l true f.b : Nat) : Int)
  let hold (k : Core) : Core := k.hold1 t true w f.b on fun l => k.lctl t l true f.b
  if !(k.lsrcOk t true f.b && k.lslotOk t f.dst && wholeEls (esBits f.es) w) then .fault s .illegalOperand
  else if !b.configured then .fault s .illegalOperand
  else if b.space ≠ 3 then .fault s .bufferAccess
  else if b.holdsNot attr then .fault s .format
  else if !(if store then b.canWrite s.now else b.canRead) then .wait s none (s.cbOpen s.cur.core i)
  else
    let addrs := (laneAddrs on E).map fun p => (p.1, b.entry (if store then b.prod else b.cons).toNat + p.2)
    if !addrsIn on E w b.size then .fault s .bufferRange
    else if store && s.vprot addrs w then .fault s .segmentLegality
    else if store then s.afterBanks 16 (laneSpans addrs w) fun s =>
      let s := (vstoreGo s addrs w fun l => k.lslotVal t l f.dst).modHere fun k => (hold k).modCb i fun x => x.takeAttr attr
      .go { s := if adv then s.advanceAt (s.now + 2 * s.d) i (.prod s.cur.core i 1) else s, lat := 2 }
    else s.afterBanks 16 (laneSpans addrs w) fun s =>
      let r := vloadGo s addrs (k.startOf t f.dst) w
      let s := r.1.modHere hold
      .go { s := if adv then s.advanceAt (s.now + 8 * s.d) i (.cons s.cur.core i 1) else s, lat := 8, op := some r.2 }

def execVldc (f : VcbF) (s : State) : Out := issue s (.vldc f) (planVcb f false)

def execVstc (f : VcbF) (s : State) : Out := issue s (.vstc f) (planVcb f true)

end Sys2Proof.Machine
end

