-- ==== Sys2Proof/Machine/Ne.lean ====
section
/-! DEFINITION. The normalise engine (R200 to R205, R215). -/

namespace Sys2Proof.Machine

open Sys2Proof

/-- An RM code with `.dyn` resolved (R46). -/
def State.rmOf (s : State) (rm : Nat) : Nat := if rm = 6 then bitsN s.here.fpmode.toNat 0 3 else rm

/-- The rounding mode of element e of lane l of an NE or QE instruction (R201). -/
def State.nqMode (s : State) (stream rm start l e : Nat) : RMode :=
  modeOf (s.rmOf rm) 0 s.here.seed (s.laneCtr stream start l e) ((l + 8 * e) % 64) false

/-! ### Element functions (R202) -/

def neMap (fn : ElemFn) (opc : Nat) (f : S3a) (s : State) (l v : Nat) : Nat × Flags :=
  let F := fmtOf f.sub.fmt
  mapEls (esBits f.es) f.dst.w (fun e x =>
    let r := elemFn fn (dec F x)
    let c := rnd F (s.nqMode (0x20 + opc) f.sub.rm.toNat (s.here.startOf s.cur.tag f.dst) l e) f.sub.sat r.1
    (c.1, c.2 ||| r.2)) v

/-- The six element functions. -/
def planNe (fn : ElemFn) (opc lat : Nat) (f : S3a) (s : State) : Plan :=
  planVe1 f.h.g f.dst f.a (esBits f.es) lat f.sub.fmt f.fs (fun l x => neMap fn opc f s l x) s

def execNrsq (f : S3a) (s : State) : Out := issue s (.nrsq f) (planNe .rsq 0 6 f)

def execNrcp (f : S3a) (s : State) : Out := issue s (.nrcp f) (planNe .rcp 1 6 f)

def execNexp2 (f : S3a) (s : State) : Out := issue s (.nexp2 f) (planNe .exp2 2 8 f)

def execNlog2 (f : S3a) (s : State) : Out := issue s (.nlog2 f) (planNe .log2 3 8 f)

def execNsig (f : S3a) (s : State) : Out := issue s (.nsig f) (planNe .sig 4 10 f)

def execNtanh (f : S3a) (s : State) : Out := issue s (.ntanh f) (planNe .tanh 5 10 f)

/-! ### Moments (R203) -/

/-- Sum and sum of squares of terms, each rounded once: S in the low and Q in the high 32 bits. `old` holds S0 and Q0 when they are terms. -/
def moments (old : Option Nat) (xs : List FVal) : Nat × Flags :=
  let s0 := old.elim [] fun v => [dec .fp32 (v % 2 ^ 32)]
  let q0 := old.elim [] fun v => [dec .fp32 (v / 2 ^ 32)]
  if (s0 ++ q0 ++ xs).any FVal.isNan then (Fmt.nan .fp32 * (2 ^ 32 + 1), 0)
  else
    let S := roundOp .fp32 .rne false (sumV (s0 ++ xs))
    let Q := roundOp .fp32 .rne false (if xs.any FVal.isInf then (.inf false, false) else sumV (q0 ++ xs.map fun x => (mulV x x).1))
    (S.1 + Q.1 * 2 ^ 32, S.2 ||| Q.2)

/-- A source of whole elements and a destination of 16 slices. -/
def neOk16 (k : Core) (t es : Nat) (dst : Slot) (a : Src) : Bool :=
  k.lsrcOk t false a && wholeEls es (k.srcW t false 16 a) && decide (dst.w = 16)

/-- NMOM. -/
def planNmom (f : S3a) (s : State) : Plan :=
  let k := s.here
  let t := s.cur.tag
  let es := esBits f.es
  let F := fmtOf f.sub.fmt
  let w := k.srcW t false 16 f.a
  let va (l : Nat) : Nat := k.lsrcVal t l false f.sub.fmt f.fs es w f.a
  let els (l : Nat) : List FVal := (splitElems es (4 * w / es) (va l)).map (dec F)
  let hold (k : Core) (on : List Nat) : Core := k.hold1 t false w f.a on va
  if f.sub.xs.getLsbD 1 then
    let all := moments none ((k.lanesOn f.h.g).flatMap els)
    planLanes f.h.g f.dst 14 (neOk16 k t es f.dst f.a) hold (fun _ => all) s
  else
    planLanes f.h.g f.dst 6 (neOk16 k t es f.dst f.a) hold
      (fun l => moments (if f.sub.xs.getLsbD 0 then some (k.lslotVal t l f.dst) else none) (els l)) s

def execNmom (f : S3a) (s : State) : Out := issue s (.nmom f) (planNmom f)

/-! ### Normalisation (R204) -/

/-- One element of NNORM. -/
def normEl (F : Fmt) (md : RMode) (sat : Bool) (x b : Nat) : Nat × Flags :=
  let v := dec F x
  let mu := dec .fp32 (b % 2 ^ 32)
  let rho := dec .fp32 (b / 2 ^ 32)
  if v.isNan || mu.isNan || rho.isNan then (F.nan, 0)
  else
    let d := addV md.isDown v mu.negate
    let p := mulV d.1 rho
    roundOp F md sat (p.1, d.2 || p.2)

/-- NNORM: b is 16 slices wide, which an immediate has where the destination does: it gives every element its code (R93). -/
def planNnorm (f : S3) (s : State) : Plan :=
  let k := s.here
  let t := s.cur.tag
  let es := esBits f.es
  let F := fmtOf f.sub.fmt
  let vb (l : Nat) : Nat := k.vb t l f
  let ok := k.lsrcOk t false f.a && k.lsrcOk t true f.b && k.lW t false f.dst.w f.a && decide (k.srcW t true f.dst.w f.b = 16) && wholeEls es f.dst.w
  planLanes f.h.g f.dst 4 ok (fun k on => (k.hold1 t false f.dst.w f.a on fun l => k.va t l f).hold1 t true f.dst.w f.b on vb) (fun l =>
    mapEls es f.dst.w (fun e x => normEl F (s.nqMode 0x27 f.sub.rm.toNat (k.startOf t f.dst) l e) f.sub.sat x (vb l)) (k.va t l f)) s

def execNnorm (f : S3) (s : State) : Out := issue s (.nnorm f) (planNnorm f)

/-! ### The softmax step (R205) -/

/-- 2^x rounded to FP32; 2^(−∞) is 0. -/
def exp2Code (x : FVal) : Nat × Flags := let r := elemFn .exp2 x; rne .fp32 r.1

/-- RNE(s · 2^x, FP32), from the exact product. -/
def scaleExp2 (s x : FVal) : Nat × Flags := roundOp .fp32 .rne false (mulV s (elemFn .exp2 x).1)

/-- The new running maximum and sum. -/
def softStep (old : Nat) (xs : List FVal) : Nat × Flags :=
  let m := dec .fp32 (old % 2 ^ 32)
  let sc := old / 2 ^ 32
  let sv := dec .fp32 sc
  let nan := Fmt.nan .fp32
  if (m :: sv :: xs).any FVal.isNan then (nan * (2 ^ 32 + 1), 0)
  else
    let m1 := xs.foldl (minmaxV true) m
    let code := (rne .fp32 m1).1
    match m1 with
    | .inf false => (code + nan * 2 ^ 32, fNV)
    | .inf true => (code + sc * 2 ^ 32, 0)
    | _ =>
      let diff (x : FVal) : FVal := (addV false x m1.negate).1
      let p := scaleExp2 sv (diff m)
      let es := xs.map fun x => exp2Code (diff x)
      let r := roundOp .fp32 .rne false (sumV (dec .fp32 p.1 :: es.map fun e => dec .fp32 e.1))
      (code + r.1 * 2 ^ 32, p.2 ||| orFlags (es.map fun e => e.2) ||| r.2)

/-- NSOFT. -/
def planNsoft (f : S3a) (s : State) : Plan :=
  let k := s.here
  let t := s.cur.tag
  let es := esBits f.es
  let F := fmtOf f.sub.fmt
  let w := k.srcW t false 16 f.a
  let va (l : Nat) : Nat := k.lsrcVal t l false f.sub.fmt f.fs es w f.a
  planLanes f.h.g f.dst 12 (neOk16 k t es f.dst f.a) (fun k on => k.hold1 t false w f.a on va)
    (fun l => softStep (k.lslotVal t l f.dst) ((splitElems es (4 * w / es) (va l)).map (dec F))) s

def execNsoft (f : S3a) (s : State) : Out := issue s (.nsoft f) (planNsoft f)

end Sys2Proof.Machine
end

