-- ==== Sys2Proof/Machine/Qe.lean ====
section
/-! DEFINITION. The quantise engine (R206 to R215). -/

namespace Sys2Proof.Machine

open Sys2Proof

/-! ### QAMAX, QSCALE (R207, R208) -/

/-- The largest magnitude of codes; a NaN gives the canonical NaN. -/
def amaxCode (F : Fmt) (cs : List Nat) : Nat :=
  let vs := cs.map (dec F)
  if vs.any FVal.isNan then F.nan
  else (rne F (vs.foldl (fun m v => if ltV m v.abs then v.abs else m) (.zero false))).1

/-- QAMAX. -/
def planQamax (f : S3a) (s : State) : Plan :=
  let k := s.here
  let t := s.cur.tag
  let es := esBits f.es
  let F := fmtOf f.sub.fmt
  let on := k.lanesOn f.h.g
  let va (l : Nat) : Nat := k.lsrcVal t l false f.sub.fmt f.fs es f.dst.w f.a
  let bs := if f.sub.xs.getLsbD 0 then 32 else 64
  let blocks := (List.range (64 / bs)).map fun h => (List.range (4 * f.dst.w / es)).map fun e =>
    amaxCode F ((on.filter fun l => decide (l / bs = h)).map fun l => elemOf es (va l) e)
  planLanes f.h.g f.dst 4 (k.lsrcOk t false f.a && k.lW t false f.dst.w f.a && wholeEls es f.dst.w) (fun k on => k.hold1 t false f.dst.w f.a on va)
    (fun l => (joinElems es (blocks.getD (l / bs) []), 0)) s

def execQamax (f : S3a) (s : State) : Out := issue s (.qamax f) (planQamax f)

/-- QSCALE: a 16-bit scale code for every element. An immediate has as many elements as the destination has codes. -/
def planQscale (f : QscaleF) (s : State) : Plan :=
  let k := s.here
  let t := s.cur.tag
  let es := esBits f.es
  let F := fmtOf f.sub.fmt
  let w := k.srcW t false (f.dst.w * es / 16) f.a
  let n := 4 * w / es
  let va (l : Nat) : Nat := k.lsrcVal t l false f.sub.fmt f.fs es w f.a
  let ok := k.lsrcOk t false f.a && wholeEls es w && decide (f.dst.w = 4 * n)
  planLanes f.h.g f.dst 3 ok (fun k on => k.hold1 t false w f.a on va) (fun l =>
    joinRes 16 ((splitElems es n (va l)).map fun x => chooseScale (f.bf.setWidth 5) [dec F x])) s

def execQscale (f : QscaleF) (s : State) : Out := issue s (.qscale f) (planQscale f)

/-! ### QBLK (R209 to R211) -/

/-- Element index and first lane of block j (R206). -/
def blockAt (bs j : Nat) : Nat × Nat := if bs = 64 then (j, 0) else (j / 2, 32 * (j % 2))

/-- Blocks of N elements per lane. -/
def blocksOf (bs n : Nat) : Nat := n * 64 / bs

/-- Tile slot of a block (R209, R212). -/
def tileSlot (bs b : Nat) : Nat := b / (128 / bs)

/-- The entry offsets and lengths that blocks [blk, blk + B) touch: elements, scales, tile scales. -/
def blockSpans (a : BitVec 5) (k blk B : Nat) (tiles : Bool) : List (Nat × Nat) :=
  let bs := attrBs a
  [(blk * attrEb a, B * attrEb a), (scaleOff a k + blk * attrSb a, B * attrSb a)] ++
  if tiles then [(tileOff a k + 4 * tileSlot bs blk, 4 * (tileSlot bs (blk + B - 1) - tileSlot bs blk + 1))] else []

/-- The padding between the areas of an entry of `k` blocks (R41). -/
def padSpans (a : BitVec 5) (k : Nat) : List (Nat × Nat) :=
  (k * attrEb a, scaleOff a k - k * attrEb a) :: if attrT a then [(scaleOff a k + k * attrSb a, tileOff a k - (scaleOff a k + k * attrSb a))] else []

/-- One block quantised: its codes, its scale code and flags. `sc` is a supplied scale; `tau` the tile scale. -/
def quantBlock (a : BitVec 5) (tau : FVal) (sc : Option Nat) (md : Nat → RMode) (xs : List FVal) : List Nat × Nat × Flags :=
  let bad := match tau with
    | .num _ => false
    | _ => true
  let ys := if bad then xs else xs.map fun x => divV x tau.toRat
  let s : Nat × Flags := if bad then (nanScale a, fNV) else match sc with
    | some c => (c % (if attrS12 a then 2 ^ 12 else 2 ^ 8), 0)
    | none => chooseScale a ys
  let cs := ys.zipIdx.map fun p => encElem a s.1 (md p.2) p.1
  (cs.map fun c => c.1, s.1, s.2 ||| orFlags (cs.map fun c => c.2))

/-- The checks of R210 after the first, for a source of n elements. -/
def qblkFault (s : State) (b : Cb) (blk n bw : Nat) (sg ts : Bool) : Option Cause :=
  let a := b.attr
  let bs := attrBs a
  let B := blocksOf bs n
  if (sg && decide (bw ≠ 4 * n)) || (ts && decide (bw ≠ 8)) then some .illegalOperand
  else if !b.configured then some .illegalOperand
  else if b.space ≠ 3 then some .bufferAccess
  else if !attrBlock a || (ts && !attrT a) then some .format
  else if blocksPer a b.size < blk + B ∨ n * 64 % bs ≠ 0 then some .illegalOperand
  else if (blockSpans a (blocksPer a b.size) blk B ts ++ padSpans a (blocksPer a b.size)).any fun p => s.here.hitsProt (winAddr s.cur.core 3 (b.entry b.prod.toNat + p.1)) p.2 then some .segmentLegality
  else none

/-- QBLK. It writes its blocks and the padding of the entry, which asks no bank of its own (R41; log entry 29). -/
def planQblk (f : QblkF) (s : State) : Plan :=
  let k := s.here
  let t := s.cur.tag
  let es := esBits f.es
  let F := fmtOf f.sub.fmt
  let sg := f.sub.xs.getLsbD 0
  let ts := f.sub.xs.getLsbD 1
  let w := k.srcW t false (es / 4) f.a
  let n := 4 * w / es
  let b := k.cbOf f.cb.toNat
  let a := b.attr
  let blk := f.blk.toNat
  let va (l : Nat) : Nat := k.lsrcVal t l false f.sub.fmt f.fs es w f.a
  let bw := k.srcW t true (if sg then 4 * n else 8) f.b
  let vb (l : Nat) : Nat := match f.b with
    | .imm v _ => if ts then immFloat 32 v else immSpread 16 bw v.toNat
    | x => k.lsrcVal t l true 0 false 16 bw x
  if !(k.lsrcOk t false f.a && ((!sg && !ts) || k.lsrcOk t true f.b) && wholeEls es w) then .fault s .illegalOperand
  else match qblkFault s b blk n bw sg ts with
  | some c => .fault s c
  | none =>
    if !b.canWrite s.now then .wait s none (s.cbOpen s.cur.core f.cb.toNat)
    else
      let bs := attrBs a
      let kk := blocksPer a b.size
      let tau := if ts then dec .fp32 (vb 0 % 2 ^ 32) else .num 1
      let prod := b.prod.toNat
      let rm := s.rmOf f.sub.rm.toNat
      let blocks := (List.range (blocksOf bs n)).map fun j =>
        let p := blockAt bs j
        let md (i : Nat) : RMode := modeOf rm 0 k.seed
          (emberCtr 0 0x32 (k.segno.toNat % 2 ^ 16 * 2 ^ 32 + prod % 2 ^ 16 * 2 ^ 16 + (blk + j) % 2 ^ 10 * 2 ^ 6 + i % 2 ^ 6)) i (decide (bs = 32))
        quantBlock a tau (if sg then some (bitsN (vb p.2) (16 * p.1) 16) else none) md ((List.range bs).map fun i => dec F (elemOf es (va (p.2 + i)) p.1))
      let ent := b.entry prod
      let pa := s.bufPa s.cur.core 3 ent
      let cells := blocks.zipIdx.flatMap fun p =>
        let bi := blk + p.2
        cellsAt (pa + bi * attrEb a) (packElems (attrBits a) p.1.1) ++ cellsAt (pa + scaleOff a kk + bi * attrSb a) (leBytes (attrSb a) p.1.2.1) ++
        if ts then cellsAt (pa + tileOff a kk + 4 * tileSlot bs bi) (leBytes 4 (vb 0)) else []
      let pad := (padSpans a kk).flatMap fun p => cellsAt (pa + p.1) (List.replicate p.2 0)
      s.afterBanks 16 ((blockSpans a kk blk (blocksOf bs n) ts).map fun p => (ent + p.1, p.2)) fun s =>
      let r := s.launch (some (s.now + 2 * s.d)) false [] (.write (cells ++ pad) [])
      let hold (k : Core) : Core :=
        let k := k.hold1 t false w f.a (List.range 64) va
        if sg || ts then k.hold1 t true bw f.b (List.range 64) vb else k
      let s1 := r.1.modHere hold
      .go { s := s1.flag 2 (orFlags (blocks.map fun x => x.2.2)), lat := 2 }

def execQblk (f : QblkF) (s : State) : Out := issue s (.qblk f) (planQblk f)

/-! ### QDEQ (R212) -/

/-- QDEQ. The checks that the attribute decides are made once an entry is there (R278). -/
def planQdeq (f : QdeqF) (s : State) : Plan :=
  let k := s.here
  let t := s.cur.tag
  let es := esBits f.es
  let b := k.cbOf f.cb.toNat
  let a := b.attr
  let blk := f.blk.toNat
  let n := 4 * f.dst.w / es
  let B := blocksOf (attrBs a) n
  if !(k.lslotOk t f.dst && wholeEls es f.dst.w) then .fault s .illegalOperand
  else if !b.configured then .fault s .illegalOperand
  else if b.space ≠ 3 then .fault s .bufferAccess
  else if !b.canRead then .wait s none (s.cbOpen s.cur.core f.cb.toNat)
  else if !attrBlock a then .fault s .format
  else if blocksPer a b.size < blk + B then .fault s .illegalOperand
  else
    let kk := blocksPer a b.size
    let ent := b.entry b.cons.toNat
    s.afterBanks 16 ((blockSpans a kk blk B (attrT a)).map fun p => (ent + p.1, p.2)) fun s =>
    let C := s.now + 8 * s.d
    let r := s.launch (some (s.now + 2 * s.d)) false []
      (.qdeq (s.bufPa s.cur.core 3 ent) a kk blk (k.lanesOn f.h.g) (k.startOf t f.dst) f.dst.w f.sub.fmt (s.rmOf f.sub.rm.toNat) f.sub.sat k.seed
        (s.laneCtr 0x33 (k.startOf t f.dst) 0 0) C)
    .go { s := r.1, lat := 8, op := some r.2 }

def execQdeq (f : QdeqF) (s : State) : Out := issue s (.qdeq f) (planQdeq f)

/-- The value and flags of lane l of a QDEQ from the bytes of memory. -/
def qdeqLane (m : List Host.Cell) (ent : Nat) (a : BitVec 5) (kk blk w : Nat) (fmt : BitVec 3) (rm : Nat) (sat : Bool) (seed ctr : W64) (l : Nat) : Nat × Flags :=
  let F := fmtOf fmt
  let bs := attrBs a
  let es := fmtBits fmt
  joinRes es ((List.range (4 * w / es)).map fun e =>
    let j := if bs = 64 then e else 2 * e + l / 32
    let n := l % bs
    let bi := blk + j
    let q := if attrBits a = 4 then (rdNib m (2 * (ent + bi * attrEb a) + n)).toNat else (rdByte m (ent + bi * attrEb a + n)).toNat
    let sc := rdLe m (ent + scaleOff a kk + bi * attrSb a) (attrSb a)
    let tau := if attrT a then dec .fp32 (rdLe m (ent + tileOff a kk + 4 * tileSlot bs bi) 4) else .num 1
    roundOp F (modeOf rm 0 seed (ctr + BitVec.ofNat 64 (l * 16 + e)) n (decide (bs = 32))) sat (mulV (decElem a q sc) tau))

/-! ### QSIGN (R213) -/

/-- SGN. -/
def sgnBit (seed : W64) (q i : Nat) : Bool := (ember seed (emberCtr 1 (q % 256) (i / 32 % 2 ^ 48))).getLsbD (i % 32)

/-- QSIGN. -/
def planQsign (f : S3) (s : State) : Plan :=
  let k := s.here
  let t := s.cur.tag
  let es := esBits f.es
  let n := 4 * f.dst.w / es
  planLanes f.h.g f.dst 2 (veOkCtl k t f)
    (fun k on => (k.hold1 t false f.dst.w f.a on fun l => k.va t l f).hold1 t true f.dst.w f.b on fun l => k.lctl t l true f.b)
    (fun l =>
      let c := k.lctl t l true f.b
      mapEls es f.dst.w (fun e x => (if sgnBit k.seed (c % 256) ((bitsN c 8 48 + l * n + e) % 2 ^ 48) then x ^^^ 2 ^ (es - 1) else x, 0)) (k.va t l f)) s

def execQsign (f : S3) (s : State) : Out := issue s (.qsign f) (planQsign f)

end Sys2Proof.Machine
end

