-- ==== Sys2Proof/Machine/Array.lean ====
section
/-! DEFINITION. The numbers of the matrix array: families, tile and row layouts, passes, rotation, and the conversion of a drained row
(R216, R219 to R225, R233, R242, R243). -/

namespace Sys2Proof.Machine

open Sys2Proof

/-! ### Families and layouts -/

/-- Element width of the family of a format (R216); 0 where it belongs to none. -/
def famOf (a : BitVec 5) : Nat :=
  if attrReserved a then 0
  else match attrCode a with
    | 1 | 7 | 0xB | 0xE => 4
    | 2 | 3 | 8 | 0xC | 0xD | 0xF => 8
    | 4 | 5 => 16
    | _ => 0

def famK (fam : Nat) : Nat := if fam = 16 then 64 else 256

def famN (fam : Nat) : Nat := if fam = 8 then 128 else 256

/-- Bytes of n elements in a matrix format under R41. -/
def matBytes (a : BitVec 5) (n : Nat) : Nat := if attrBlock a then blockBytes a (n / attrBs a) else up64 (n * attrBits a / 8)

/-- Size of a tile image (R219): the scale area ends it without padding where there is no tile-scale area. -/
def imageSize (a : BitVec 5) : Nat := matBytes a (famK (famOf a) * famN (famOf a))

/-- Size of an activation record (R220). -/
def recordSize (a : BitVec 5) : Nat := up64 (matBytes a (famK (famOf a)))

/-- The pairing rule (R221). -/
def pairOk (fa fw : BitVec 5) : Bool :=
  decide (famOf fa ≠ 0) && decide (famOf fa = famOf fw) &&
  (if attrInt fa || attrInt fw then decide (fa = fw) else !(attrBlock fa && attrBlock fw) || decide (attrBs fa = attrBs fw))

/-- A decoded side: its attribute, its bytes and the number of its elements. -/
structure Side where
  attr : BitVec 5
  bytes : Array Byte
  n : Nat

def Side.byte (s : Side) (i : Nat) : Nat := (s.bytes.getD i 0).toNat

/-- The code of element i (R36). -/
def Side.code (s : Side) (i : Nat) : Nat :=
  match attrBits s.attr with
  | 4 => s.byte (i / 2) / (if i % 2 = 0 then 1 else 16) % 16
  | 16 => s.byte (2 * i) + 256 * s.byte (2 * i + 1)
  | _ => s.byte i

/-- The value of element i with its block scale (R37). -/
def Side.val (s : Side) (i : Nat) : FVal :=
  if attrBlock s.attr then
    let o := scaleOff s.attr (s.n / attrBs s.attr) + i / attrBs s.attr * attrSb s.attr
    decElem s.attr (s.code i) (if attrS12 s.attr then s.byte o + 256 * s.byte (o + 1) else s.byte o)
  else dec (attrFmt s.attr) (s.code i)

/-- Tile scale i, 1.0 where there are none (R38). -/
def Side.tile (s : Side) (i : Nat) : FVal :=
  if attrT s.attr then
    let o := tileOff s.attr (s.n / attrBs s.attr) + 4 * i
    dec .fp32 (s.byte o + 256 * s.byte (o + 1) + 65536 * s.byte (o + 2) + 16777216 * s.byte (o + 3))
  else .num 1

/-- Block size of a pair (R221). -/
def pairBs (a w : BitVec 5) : Nat := if attrBlock a then attrBs a else if attrBlock w then attrBs w else 64

/-! ### A pass (R222 to R224) -/

/-- One partial: the exact sum of products over a block, rounded once. -/
def partialSum (row tile : Side) (K col lo bs : Nat) : Nat × Flags :=
  let ps := (List.range bs).map fun i => mulV (row.val (lo + i)) (tile.val (col * K + lo + i))
  let v := sumV (ps.map fun p => p.1)
  roundOp .fp32 .rne false (v.1, v.2 || ps.any fun p => p.2)

/-- RNE(x · y, FP32) of data. -/
def mulRne (x y : FVal) : Nat × Flags := roundOp .fp32 .rne false (mulV x y)

/-- A 4-bit or 8-bit float pass of one column: the tree of R223. -/
def passTree (row tile : Side) (fam col : Nat) : Nat × Flags :=
  let K := famK fam
  let bs := pairBs row.attr tile.attr
  let half (h : Nat) : Nat × Flags :=
    let ps := (List.range (128 / bs)).map fun b => partialSum row tile K col (128 * h + b * bs) bs
    let g := tree (addCode .fp32) 3 (ps.map fun p => p.1)
    let t := mulRne (row.tile h) (tile.tile (h * (famN fam / 128) + col / 128))
    let m := mulCode g.1 t.1
    (m.1, orFlags (ps.map fun p => p.2) ||| g.2 ||| t.2 ||| m.2)
  let a := half 0
  let b := half 1
  let r := addCode .fp32 a.1 b.1
  (r.1, a.2 ||| b.2 ||| r.2)

/-- A 16-bit pass of one column (R224). -/
def pass16 (row tile : Side) (col : Nat) : Nat × Flags :=
  let ls := (List.range 64).map fun k => mulRne (row.val k) (tile.val (col * 64 + k))
  let t := tree (addCode .fp32) 7 (ls.map fun p => p.1)
  (t.1, orFlags (ls.map fun p => p.2) ||| t.2)

/-- An integer pass of one column (R224). -/
def passInt (row tile : Side) (fam : Nat) (ua uw : Bool) (col : Nat) : Nat × Flags :=
  let K := famK fam
  rne .fp32 (FVal.ofRat ((((List.range K).foldl (fun acc k =>
    acc + extI (!ua) (row.code k) fam * extI (!uw) (tile.code (col * K + k)) fam) 0 : Int)) : Rat) false)

/-- All columns of a pass. -/
def passAll (row tile : Side) (ua uw : Bool) : List (Nat × Flags) :=
  let fam := famOf tile.attr
  (List.range (famN fam)).map fun col =>
    if attrInt tile.attr then passInt row tile fam ua uw col else if fam = 16 then pass16 row tile col else passTree row tile fam col

/-! ### Rotation (R233) -/

/-- Whether an entry of a Sylvester matrix is −1. -/
def hadNeg (i j : Nat) : Bool := decide (((List.range 8).filter fun b => bitN (i &&& j) b).length % 2 = 1)

/-- A rotation pass over 256 codes; `sg i` says whether the sign vector inverts value i. -/
def rotPass (h256 : Bool) (sg : Nat → Bool) (xs : Array Nat) : List (Nat × Flags) :=
  (List.range 256).map fun j =>
    let n := if h256 then 256 else 64
    let q := j / n * n
    let t := tree (addCode .fp32) 9 ((List.range n).map fun i => if hadNeg i (j - q) != sg (q + i) then xs.getD (q + i) 0 ^^^ 0x8000_0000 else xs.getD (q + i) 0)
    let m := mulCode t.1 (if h256 then 0x3D80_0000 else 0x3E00_0000)
    (m.1, t.2 ||| m.2)

/-! ### A drained row (R242, R243) -/

/-- The values y of a row: DEC(acc) × DEC(MUL), exact. -/
def drainVals (mul : BitVec 32) (acc : List Nat) : List (FVal × Bool) := acc.map fun c => mulV (dec .fp32 c) (dec .fp32 mul.toNat)

/-- The entry image of a row of values under an attribute and an entry size, with its flags. A block entry is written whole up to the end
of its layout, padding as zero (R41). -/
def drainImage (attr : BitVec 5) (size : Nat) (tsc : BitVec 32) (fs sat : Bool) (md : Nat → Nat → RMode) (ys : List (FVal × Bool)) : List Byte × Flags :=
  let nv := flagIf (ys.any fun y => y.2) fNV
  if attrBlock attr then
    let bs := attrBs attr
    let k := blocksPer attr size
    let tau := if attrT attr then dec .fp32 tsc.toNat else .num 1
    let bl := (List.range (ys.length / bs)).map fun b =>
      quantBlock attr tau none (fun i => md (b * bs + i) (i % bs)) (((ys.drop (b * bs)).take bs).map fun y => y.1)
    let els := padTo (scaleOff attr k) (packElems (attrBits attr) (bl.flatMap fun x => x.1))
    let scs := bl.flatMap fun x => leBytes (attrSb attr) x.2.1
    let img := if attrT attr then padTo (tileOff attr k) (els ++ scs) ++ padTo 64 ((List.replicate (ys.length / 128) (leBytes 4 tsc.toNat)).flatten)
               else padTo (up64 (scaleOff attr k + k * attrSb attr)) (els ++ scs)
    (img.take size, nv ||| orFlags (bl.map fun x => x.2.2))
  else
    let rs := ys.zipIdx.map fun p =>
      if attrInt attr then rndInt (md p.2 (p.2 % 64)) fs (attrBits attr) p.1.1 else rnd (attrFmt attr) (md p.2 (p.2 % 64)) sat p.1.1
    (packElems (attrBits attr) (rs.map fun r => r.1), nv ||| orFlags (rs.map fun r => r.2))

/-- Bytes of an entry that a row of n values writes. -/
def drainLen (attr : BitVec 5) (size n : Nat) : Nat :=
  if attrBlock attr then
    let k := blocksPer attr size
    min size (if attrT attr then tileOff attr k + 64 else up64 (scaleOff attr k + k * attrSb attr))
  else n * attrBits attr / 8

/-- Whether an entry holds a row of n values (R242, check 3). -/
def drainFits (attr : BitVec 5) (size n : Nat) : Bool :=
  if attrBlock attr then decide (n / attrBs attr ≤ blocksPer attr size) else decide (n * attrBits attr / 8 ≤ size)

end Sys2Proof.Machine
end

