-- ==== Sys2Proof/Machine/Matrix.lean ====
section
/-! DEFINITION. The matrix engines: loads of the weight planes, the nest, the accumulator banks and the drain (R217, R218, R226 to R245). -/

namespace Sys2Proof.Machine

open Sys2Proof

/-! ### Planes -/

def Core.planeAt (k : Core) (p : Bool) : Plane := if p then k.plane1 else k.plane0

def Core.setPlane (k : Core) (p : Bool) (x : Plane) : Core := if p then { k with plane1 := x } else { k with plane0 := x }

/-- The active and the shadow plane. -/
def Core.actPlane (k : Core) : Plane := k.planeAt k.act

def Core.shPlane (k : Core) : Plane := k.planeAt (!k.act)

/-- A flip (R217). -/
def Core.flip (k : Core) : Core := { k with act := !k.act }.setPlane k.act { (k.planeAt k.act) with st := 0 }

/-! ### The nest table (R229, R230) -/

/-- The nest registers of a table. -/
def nreg (t : SMap W64) (n : Nat) : W64 := SMap.get 0 t n

def nDepth (t : SMap W64) : Nat := bitsN (nreg t 13).toNat 0 3

/-- Count of level L. -/
def nCount (t : SMap W64) (L : Nat) : Nat := if L < nDepth t then bitsN (nreg t (2 * L)).toNat 0 24 + 1 else 1

def nFlip (t : SMap W64) (L : Nat) : Bool := decide (L < nDepth t) && (nreg t (2 * L)).getLsbD 24

def nAstr (t : SMap W64) (L : Nat) : Int := sext (bitsN (nreg t (2 * L)).toNat 32 32) 32

def nCstr (t : SMap W64) (L : Nat) : Int := sext (bitsN (nreg t (2 * L + 1)).toNat 0 16) 16

def nAbase (t : SMap W64) : Nat := bitsN (nreg t 12).toNat 0 23
def nCbase (t : SMap W64) : Nat := bitsN (nreg t 12).toNat 32 9
def nRot (t : SMap W64) : Bool := (nreg t 13).getLsbD 3
def nHsel (t : SMap W64) : Bool := (nreg t 13).getLsbD 4
def nSgn (t : SMap W64) : Bool := (nreg t 13).getLsbD 5
def nAfmt (t : SMap W64) : BitVec 5 := (nreg t 13).extractLsb' 6 5
def nUsecb (t : SMap W64) : Bool := (nreg t 13).getLsbD 11
def nAcb (t : SMap W64) : Nat := bitsN (nreg t 13).toNat 12 4
def nNeed (t : SMap W64) : Nat := bitsN (nreg t 13).toNat 16 12
def nAdv (t : SMap W64) : Nat := bitsN (nreg t 13).toNat 28 12

/-- Passes of one step of level L: the product of the counts below it. -/
def nStep (t : SMap W64) (L : Nat) : Nat := (List.range L).foldl (fun a i => a * nCount t i) 1

/-- P, the number of passes. -/
def nTotal (t : SMap W64) : Nat := nStep t 6

/-- Index of level L in pass p. -/
def nIdx (t : SMap W64) (p L : Nat) : Nat := p / nStep t L % nCount t L

/-- Activation address and half-row of pass p. -/
def nAddr (t : SMap W64) (aoff p : Nat) : Int := (nAbase t + 64 * aoff : Nat) + (List.range 6).foldl (fun a L => a + nIdx t p L * nAstr t L) (0 : Int)

def nRow (t : SMap W64) (p : Nat) : Int := (nCbase t : Int) + (List.range 6).foldl (fun a L => a + nIdx t p L * nCstr t L) (0 : Int)

/-- Whether the planes flip between passes p − 1 and p: the level whose index rises there has FLIP. -/
def nFlipAt (t : SMap W64) (p : Nat) : Bool :=
  decide (0 < p) && (List.range 6).any fun L => nFlip t L && decide (p % nStep t L = 0) && decide (p / nStep t L % nCount t L ≠ 0)

/-- Whether a flip is still to be made before some pass from `entered` on. -/
def nFlipLeft (t : SMap W64) (entered : Nat) : Bool :=
  (List.range 6).any fun L => nFlip t L && decide (1 < nCount t L) && decide (entered ≤ nTotal t - nStep t L)

/-- Least and largest sum of strides. -/
def nSpan (t : SMap W64) (st : Nat → Int) : Int × Int :=
  (List.range 6).foldl (fun a L =>
    let v := ((nCount t L - 1 : Nat) : Int) * st L
    if v < 0 then (a.1 + v, a.2) else (a.1, a.2 + v)) (0, 0)

/-- Whether every stride of a level that moves is a multiple of m. -/
def nAligned (t : SMap W64) (st : Nat → Int) (m : Int) : Bool := (List.range 6).all fun L => decide (nCount t L ≤ 1) || decide (st L % m = 0)

/-! ### Waiting for the nest -/

/-- Whether no nest runs on the core at the cursor. -/
def State.nestIdle (s : State) : Bool := s.here.nestRun.isNone

/-- Ends the operation of the nest: GO clears, CONS advances after a normal end (R231, R232, R237). -/
def State.endNest (s : State) (c : Nat) (r : NestRun) (stopped : Bool) : State :=
  let s := s.dropFlight r.id
  s.modCore c fun k =>
    let k := { k with nestRun := none, stoppedN := k.stoppedN || stopped }
    if !stopped && nUsecb r.regs then k.modCb (nAcb r.regs) fun b => { b with cons := b.cons + BitVec.ofNat 32 (nAdv r.regs) } else k

/-- Whether passes of the core's nest are in flight, other than operation `id`. -/
def State.passesLeft (s : State) (c id : Nat) : Bool :=
  s.flights.any fun f => decide (f.core = c) && decide (f.id ≠ id) && (match f.work with
    | .pass _ _ _ _ => true
    | _ => false)

/-! ### LE (R235, R236) -/

/-- The checks of R235 from the second on. While a nest runs a load has the format of the active plane (R231); under a rotation nest the active plane
may be EMPTY, and has then no format that a load could differ from (DEDUCED, log entry 112). -/
def loadFault (k : Core) (attr : BitVec 5) (scl : Bool) (fits : Bool) : Option Cause :=
  let sh := k.shPlane
  let nest := k.nestRun.isSome && decide (k.actPlane.st ≠ 0)
  if (if scl then !attrBlock attr || decide (attr ≠ sh.fmt) else decide (famOf attr = 0)) then some .format
  else if !scl && nest && decide (attr ≠ k.actPlane.fmt) then some .format
  else if !fits then some .illegalOperand
  else if (if scl then decide (sh.st ≠ 2) else decide (sh.st = 2)) then some .planeState
  else none

/-- A load issues: the shadow plane becomes LOADING; bytes are read from cycle 4 on, 256 a cycle (R217, R235, R245). -/
def loadGo (s : State) (attr : BitVec 5) (pa : Nat) (scl : Bool) (fins : List Fin) (hold : Core → Core) : Plan :=
  let k := s.here
  let size := imageSize attr
  let lo := if scl then 32768 else 0
  let full := 4 + ceilDiv (size - lo) 256
  let sh := k.shPlane
  let r := s.launch (some (s.now + 4 * s.d)) true [] (.plane (!k.act) pa lo size lo (if scl then sh.img else []) fins)
  let s := r.1.modHere fun k => (hold k).setPlane (!k.act) { sh with st := 1, fmt := attr }
  .go { s := s, lat := full, cyc := full + 1, op := some r.2 }

/-- Whether LDS and LDSC wait at tick T for a flip that a running nest has still to make: none after an MSTOP (R235, R237). -/
def Core.loadWaits (k : Core) (T : Nat) : Bool :=
  decide (k.shPlane.st = 2) && k.nestRun.elim false fun r => nFlipLeft r.regs r.entered && r.stopAt.elim true fun x => decide (T ≤ x)

/-- LDS. -/
def planLds (f : LdsF) (s : State) : Plan :=
  let k := s.here
  let t := s.cur.tag
  if !k.srcOk t false f.a then .fault s .illegalOperand
  else if k.loadWaits s.now then .stall s
  else
    let off := 64 * k.ctlVal t false f.a
    match loadFault k f.fmt false (decide (off + imageSize f.fmt ≤ 4 * 2 ^ 20)) with
    | some c => .fault s c
    | none => loadGo s f.fmt (s.bufPa s.cur.core 0 off) false [] fun k => k.holdLatch t false f.a (k.ctlVal t false f.a) (k.srcW t false 4 f.a)

def execLds (f : LdsF) (s : State) : Out := issue s (.lds f) (planLds f)

/-- LDSC and LDSCL. -/
def planLdsc (f : LdscF) (scl : Bool) (s : State) : Plan :=
  let k := s.here
  let i := f.cb.toNat
  let b := k.cbOf i
  if !b.configured then .fault s .illegalOperand
  else if !b.canRead then .wait s none (s.cbOpen s.cur.core i)
  else if !scl && k.loadWaits s.now then .stall s
  else if b.space ≠ 0 then .fault s .bufferAccess
  else match loadFault k b.attr scl (decide (imageSize b.attr ≤ b.size)) with
    | some c => .fault s c
    | none =>
      let full := 4 + ceilDiv (imageSize b.attr - (if scl then 32768 else 0)) 256
      let C := s.now + full * s.d
      loadGo s b.attr (s.bufPa s.cur.core 0 (b.entry b.cons.toNat)) scl (if f.adv then [.cons s.cur.core i 1] else []) fun k =>
        if f.adv then { k with busy := k.busy ++ [{ res := .cb i, tick := C + 1, op := some s.nextId, hold := none, old := [], mask := [] }] } else k

def execLdsc (f : LdscF) (s : State) : Out := issue s (.ldsc f) (planLdsc f false)

def execLdscl (f : LdscF) (s : State) : Out := issue s (.ldscl f) (planLdsc f true)

/-- LFLIP. -/
def planLflip (s : State) : Plan :=
  if !s.nestIdle then .stall s
  else if s.here.shPlane.st ≠ 2 then .fault s .planeState
  else .go { s := s.modHere Core.flip }

def execLflip (f : F1) (s : State) : Out := issue s (.lflip f) planLflip

/-- A load or scale load completes: its plane becomes FULL (R217). A whole image leaves no error in the plane (R411). -/
def execPlaneLoadComplete (id : Nat) (s : State) : Out :=
  match s.flight id with
  | none => .next s
  | some f =>
    match f.work with
    | .plane pl _ lo _ _ img fins =>
      .next (((s.dropFlight id).modCore f.core fun k =>
        let k := k.setPlane pl { (k.planeAt pl) with st := 2, img := img }
        if lo = 0 then { k with ecc := k.ecc.filter fun p => decide (p.1 ≠ .plane pl) } else k).signal fins)
    | _ => .next s

/-! ### SE (R237) -/

/-- MSIGN. -/
def planMsign (f : MsignF) (s : State) : Plan :=
  let k := s.here
  let t := s.cur.tag
  if f.en && !k.srcOk t false f.b then .fault s .illegalOperand
  else .regs s 1 fun k =>
    if f.en then
      let b := k.ctlVal t false f.b
      { (k.holdLatch t false f.b b (k.srcW t false 4 f.b)) with sign := { en := true, qs := BitVec.ofNat 8 b, i0 := BitVec.ofNat 48 (b / 256) } }
    else { k with sign := .off }

def execMsign (f : MsignF) (s : State) : Out := issue s (.msign f) (planMsign f)

/-- MSTOP: no pass enters after its issue tick; with none in flight or about to enter, the nest ends at once. -/
def planMstop (s : State) : Plan :=
  match s.here.nestRun with
  | none => .go { s := s }
  | some r =>
    if r.stopAt.isSome then .go { s := s }
    else
      let enters := (s.flight r.id).elim false fun f => decide (f.due = s.now)
      if !enters ∧ !s.passesLeft s.cur.core r.id then .go { s := s.endNest s.cur.core r true }
      else .go { s := s.modHere fun k => { k with nestRun := some { r with stopAt := some s.now } } }

def execMstop (f : F1) (s : State) : Out := issue s (.mstop f) planMstop

/-! ### MMA and its passes (R231, R232, R238) -/

/-- The carry bank of the open segment of the core at the cursor. -/
def State.carryBank (s : State) : Option Bool := s.here.seg.bind fun g => g.carry

/-- The half-rows that passes of a nest write (R226, R230): `w` each. -/
def nRows (t : SMap W64) (w : Nat) : List Nat :=
  let starts := (List.range 6).foldl (fun rs L =>
    if nCstr t L = 0 then rs else (rs.flatMap fun r => (List.range (nCount t L)).map fun (i : Nat) => r + (i : Int) * nCstr t L).eraseDups) [(nCbase t : Int)]
  starts.flatMap fun r => (List.range w).map fun i => r.toNat + i

/-- Whether a write of [off, off + n) of an accumulator bank of the core at the cursor meets a protected range, by its window address (R20, R21,
R317). -/
def State.accProt (s : State) (bank : Bool) (off n : Nat) : Bool := s.here.hitsProt (winAddr s.cur.core 2 ((if bank then 0x4_0000 else 0) + off)) n

/-- Whether passes of a nest would write a protected range. -/
def State.nestProt (s : State) (t : SMap W64) (w : Nat) : Bool :=
  (s.here.seg.elim false fun g => !g.desc.prot.isEmpty) && (nRows t w).any fun r => s.accProt s.here.wbank (512 * r) 512

/-- The checks of R231 in their order. -/
def mmaFault (s : State) (t : SMap W64) (aoff : Nat) : Option Cause :=
  let k := s.here
  let rot := nRot t
  let b := k.cbOf (nAcb t)
  let flips := (List.range 6).any fun L => nFlip t L
  let act := k.actPlane
  let sh := k.shPlane
  let N := if rot then 256 else famN (famOf act.fmt)
  let lim : Int := if nUsecb t then (nNeed t * b.size : Nat) else 6 * 2 ^ 20
  let a0 : Int := (nAbase t + 64 * aoff : Nat)
  let sa := nSpan t (nAstr t)
  let sc := nSpan t (nCstr t)
  if !rot && decide (act.st ≠ 2) then some .planeState
  else if decide (nDepth t = 0 ∨ nDepth t = 7 ∨ 2 ^ 32 < nTotal t ∨ nNeed t < nAdv t) || (nUsecb t && decide (nNeed t = 0)) ||
    (rot && (decide (nAfmt t ≠ 0) || nUsecb t || decide (aoff ≠ 0) || flips)) then some .illegalOperand
  else if (!rot && !pairOk (nAfmt t) act.fmt) || (flips && decide (sh.st ≠ 0) && decide (sh.fmt ≠ act.fmt)) then some .format
  else if nUsecb t && decide (b.space ≠ 1) then some .bufferAccess
  else if nUsecb t && !(attrRaw b.attr || decide (b.attr = nAfmt t)) then some .format
  else if decide (a0 % 64 ≠ 0) || !nAligned t (nAstr t) 64 || (!rot && (decide (a0 + sa.1 < 0) || decide (lim < a0 + sa.2 + recordSize (nAfmt t)))) ||
    decide ((nCbase t : Int) + sc.1 < 0) || decide (511 < (nCbase t : Int) + sc.2) ||
    (decide (N = 256) && (decide (nCbase t % 2 = 1) || !nAligned t (nCstr t) 2)) then some .illegalOperand
  else if s.carryBank = some k.wbank ∨ s.nestProt t (N / 128) then some .segmentLegality
  else none

/-- Whether an ACC.CARRY of the core at the cursor reads the working bank at tick C or later (R72, R226). -/
def State.carryReads (s : State) (C : Nat) : Bool :=
  s.flights.any fun f => decide (f.core = s.cur.core) && decide (C ≤ f.due) && (match f.work with
    | .carry => true
    | _ => false)

/-- MMA. The nest counts as a write of the working bank from its issue on (R226). -/
def planMma (f : MmaF) (s : State) : Plan :=
  let k := s.here
  let t := s.cur.tag
  let tab := k.nest
  let aoff := k.ctlVal t false f.aoff
  let b := k.cbOf (nAcb tab)
  if (f.ua || f.uw) && decide (famOf (nAfmt tab) ≠ 0) && !attrInt (nAfmt tab) then .fault s .illegalInstruction
  else if !k.srcOk t false f.aoff then .fault s .illegalOperand
  else if nUsecb tab && !b.configured then .fault s .illegalOperand
  else if !s.nestIdle || s.carryReads s.now then .stall s
  else if nUsecb tab && decide (b.occ < nNeed tab) then .wait s none (s.cbOpen s.cur.core (nAcb tab))
  else match mmaFault s tab aoff with
    | some c => .fault s c
    | none =>
      let r := s.launch (some (s.now + 2 * s.d)) true [] .nest
      let run : NestRun := { regs := tab, aoff := aoff, ua := f.ua, uw := f.uw, sign := k.sign, cons0 := b.cons, entered := 0,
                             total := nTotal tab, stopAt := none, since := none, id := r.2, seed := k.seed }
      let s := r.1.modHere fun k => { (k.holdLatch t false f.aoff aoff (k.srcW t false 4 f.aoff)) with nestRun := some run, passes := 0 }
      let s := if nUsecb tab ∧ nAdv tab ≠ 0 then s.modHere fun k =>
        { k with busy := k.busy ++ [{ res := .cb (nAcb tab), tick := s.now + 1, op := some r.2, hold := none, old := [], mask := [] }] } else s
      .go { s := s, op := some r.2 }

def execMma (f : MmaF) (s : State) : Out := issue s (.mma f) (planMma f)

/-- A tick that no pass enters at. -/
def neverTick : Nat := 2 ^ 64

/-- Buffer offsets and lengths of the record at address a (R232): within the circular buffer it wraps. -/
def recordSpans (k : Core) (r : NestRun) (a : Nat) : List (Nat × Nat) :=
  let n := recordSize (nAfmt r.regs)
  if nUsecb r.regs then
    let b := k.cbOf (nAcb r.regs)
    let span := b.ents * b.size
    let st := (r.cons0.toNat % b.ents * b.size + a) % span
    if st + n ≤ span then [(b.base + st, n)] else [(b.base + st, span - st), (b.base, n - (span - st))]
  else [(a, n)]

/-- Consumption of several spans of a buffer of core c: false where an error is found; the others then heal nothing (R423). -/
def State.consumeBuf (s : State) (c tag space pc : Nat) : List (Nat × Nat) → State × Bool
  | [] => (s, true)
  | p :: r =>
    if (s.eccScan (s.bufPa c space p.1) p.2).1.isNone && r.any fun x => (s.eccScan (s.bufPa c space x.1) x.2).1.isSome then s.consumeBuf c tag space pc r
    else match s.consume c tag (s.bufPa c space p.1) p.2 true (some pc) with
    | (s, true) => s.consumeBuf c tag space pc r
    | (s, false) => (s, false)

/-- Bytes of several spans of a buffer. -/
def State.bufBytes (s : State) (c space : Nat) (spans : List (Nat × Nat)) : List Byte := spans.flatMap fun p => rdBytes s.mem (s.bufPa c space p.1) p.2

/-- Values of an accumulator bank from value index v. -/
def State.accVals (s : State) (c : Nat) (bank : Bool) (v n : Nat) : List Nat :=
  (List.range n).map fun i => rdLe s.mem (s.bufPa c 2 ((if bank then 0x4_0000 else 0) + 4 * (v + i))) 4

/-- Requests of the lines of spans in one tick, entered for the ports of lower priority (R232). -/
def State.notePorts (s : State) (c tag T nb : Nat) (spans : List (Nat × Nat)) : State :=
  s.modCore c fun k => k.notePorts tag T ((spanLines spans).map fun l => l % nb).eraseDups

/-- Consumption of the active plane by a pass (R244, R408 to R410): false where it holds an uncorrectable error. -/
def State.consumePlane (s : State) (c pc : Nat) : State × Bool :=
  let k := s.core c
  match k.ecc.find? fun p => decide (p.1 = .plane k.act) with
  | none => (s, true)
  | some (_, true) => ((s.countDie (slotOfCore c)).charge { core := c, tag := 3, cause := .ueSram, info := 0, pc := some pc } none, false)
  | some (r, false) => ((s.modCore c fun k => { k with ecc := k.ecc.filter fun p => decide (p.1 ≠ r) }).claim (k.grp.getD 0) 3 (some (s.time + 25)), true)

/-- Whether a pass in flight writes half-row c or c + 1 of the core. -/
def State.rowsBusy (s : State) (core c : Nat) : Bool :=
  s.flights.any fun f => decide (f.core = core) && (match f.work with
    | .pass c' sums _ _ => decide (c' < c + 2) && decide (c < c' + sums.length / 128)
    | _ => false)

/-- The next pass of the nest of a core enters, or the nest stalls a cycle for its plane or its half-rows (R217, R230 to R233, R245). -/
def execNestPassEntry (core : Nat) (s : State) : Out :=
  match (s.core core).nestRun with
  | none => .next s
  | some r =>
    match s.flight r.id with
    | none => .next s
    | some fl =>
      let T := s.reckOf core
      let k := s.core core
      let d := k.div 3
      let retime (s : State) (t : Nat) : State := { s with flights := s.flights.map fun f => if f.id = r.id then { f with due := t } else f }
      if r.stopAt.elim false fun x => decide (x < T) then .next (if s.passesLeft core r.id then retime s neverTick else s.endNest core r true)
      else
        let row := (nRow r.regs r.entered).toNat
        let flip := nFlipAt r.regs r.entered
        if (flip && decide (k.shPlane.st ≠ 2)) || (nRot r.regs && s.rowsBusy core row) then
          let since := r.since.getD T
          if since + 65536 ≤ T then .next ((retime s neverTick).charge { core := core, tag := 3, cause := .schedule, info := 0, pc := some fl.pc } none)
          else .next ((retime s (T + d)).modCore core fun k => { k with nestRun := some { r with since := some since } })
        else
          let s := if flip then s.modCore core Core.flip else s
          let step (s : State) (vals : List (Nat × Flags)) : State :=
            let last := decide (r.entered + 1 = r.total)
            let s := (retime s (if last then neverTick else T + d)).modCore core fun k =>
              { k with nestRun := some { r with entered := r.entered + 1, since := none } }
            s.addFlight { id := 0, core := core, tag := 3, grp := fl.grp, due := T + 516 * d, fixed := true, inseg := fl.inseg, async := true, pos := fl.pos, pc := fl.pc,
                          work := .pass row (vals.map fun v => BitVec.ofNat 32 v.1) (BitVec.ofNat 32 (orFlags (vals.map fun v => v.2))) (nRot r.regs) }
          if nRot r.regs then
            let sg (i : Nat) : Bool := nSgn r.regs && r.sign.en && sgnBit r.seed r.sign.qs.toNat ((r.sign.i0.toNat + i) % 2 ^ 48)
            match s.consumeBuf core 3 2 fl.pc [((if k.wbank then 0x4_0000 else 0) + 512 * row, 1024)] with
            | (s, false) => .next (retime s neverTick)
            | (s, true) => .next (step s (rotPass (nHsel r.regs) sg (s.accVals core k.wbank (128 * row) 256).toArray))
          else
            let spans := recordSpans k r (nAddr r.regs r.aoff r.entered).toNat
            let s := s.notePorts core 2 T 24 spans
            match (match s.consumeBuf core 2 1 fl.pc spans with
              | (s, true) => s.consumePlane core fl.pc
              | r => r) with
            | (s, false) => .next (retime s neverTick)
            | (s, true) =>
              let act := (s.core core).actPlane
              let rec' : Side := { attr := nAfmt r.regs, bytes := (s.bufBytes core 1 spans).toArray, n := famK (famOf (nAfmt r.regs)) }
              let tile : Side := { attr := act.fmt, bytes := act.img.toArray, n := famK (famOf act.fmt) * famN (famOf act.fmt) }
              .next (step s (passAll rec' tile r.ua r.uw))

/-- A pass commits: acc := RNE(acc + pass), or the rotated values; the last commit ends the nest (R225, R233, R238). -/
def execNestPassCommit (id : Nat) (s : State) : Out :=
  match s.flight id with
  | none => .next s
  | some f =>
    match f.work with
    | .pass c sums flags rot =>
      let k := s.core f.core
      let off := (if k.wbank then 0x4_0000 else 0) + 512 * c
      let s := s.dropFlight id
      match s.consumeBuf f.core 3 2 f.pc [(off, 4 * sums.length)] with
      | (s, false) => .next s
      | (s, true) =>
        let old := s.accVals f.core k.wbank (128 * c) sums.length
        let new := (old.zip sums).map fun p => if rot then (p.2.toNat, 0) else addCode .fp32 p.1 p.2.toNat
        let s := s.store (s.bufPa f.core 2 off) (new.flatMap fun v => leBytes 4 v.1)
        let s := s.modCore f.core fun k =>
          { k.raise (s.reckOf f.core) (flags.toNat ||| orFlags (new.map fun v => v.2)) with passes := k.passes + 1, carryok := false }
        match k.nestRun with
        | none => .next s
        | some r =>
          let done := decide (r.entered = r.total) || r.stopAt.isSome
          .next (if done && !s.passesLeft f.core id then s.endNest f.core r r.stopAt.isSome else s)
    | _ => .next s

/-! ### XE: the banks (R226 to R228, R238 to R240) -/

/-- The bank that VIS names. -/
def State.bankSel (s : State) (vis : Bool) : Bool := s.here.wbank != vis

/-- Whether a write of a bank that commits at tick C would not follow the DE's last read (R72). -/
def State.deHolds (s : State) (vis : Bool) (C : Nat) : Bool := vis && decide (C ≤ s.here.deRead)

/-- ACC.CLR. -/
def planAccClr (f : AccClrF) (s : State) : Plan :=
  let b := s.bankSel f.vis
  if !s.nestIdle ∨ s.deHolds f.vis (s.now + 256 * s.d) ∨ (!f.vis ∧ s.carryReads (s.now + 256 * s.d)) then .stall s
  else if s.carryBank = some b ∨ s.accProt b 0 0x4_0000 then .fault s .segmentLegality
  else
    let r := s.launch (some (s.now + 256 * s.d)) true [] (.clear b)
    .go { s := r.1, lat := 256, op := some r.2 }

def execAccClr (f : AccClrF) (s : State) : Out := issue s (.accClr f) (planAccClr f)

/-- ACC.CLR has finished its 256 cycles (R239). -/
def execAccClrComplete (id : Nat) (s : State) : Out :=
  match s.flight id with
  | none => .next s
  | some f =>
    match f.work with
    | .clear b =>
      let s := (s.dropFlight id).store (s.bufPa f.core 2 (if b then 0x4_0000 else 0)) (List.replicate 0x4_0000 0)
      .next (s.modCore f.core fun k => { k with carryok := false })
    | _ => .next s

/-- ACC.CARRY. -/
def planAccCarry (s : State) : Plan :=
  if !s.nestIdle ∨ s.deHolds true (s.now + 256 * s.d) then .stall s
  else if s.carryBank = some (s.bankSel true) ∨ s.accProt (s.bankSel true) 0 0x4_0000 then .fault s .segmentLegality
  else
    let r := s.launch (some (s.now + 256 * s.d)) true [] .carry
    .go { s := r.1, lat := 256, op := some r.2 }

def execAccCarry (f : F1) (s : State) : Out := issue s (.accCarry f) planAccCarry

/-- ACC.CARRY completes: the visible bank equals the working bank (R228). -/
def execAccCarryComplete (id : Nat) (s : State) : Out :=
  match s.flight id with
  | none => .next s
  | some f =>
    match f.work with
    | .carry =>
      let w := (s.core f.core).wbank
      let off (b : Bool) : Nat := if b then 0x4_0000 else 0
      let s := s.dropFlight id
      match s.consumeBuf f.core 3 2 f.pc [(off w, 0x4_0000)] with
      | (s, false) => .next s
      | (s, true) =>
        let s := s.store (s.bufPa f.core 2 (off (!w))) (rdBytes s.mem (s.bufPa f.core 2 (off w)) 0x4_0000)
        .next (s.modCore f.core fun k => { k with carryok := true })
    | _ => .next s

/-- Whether an ACC.CLR or ACC.CARRY of the core at the cursor is in progress. -/
def State.bankOps (s : State) : Bool :=
  s.flights.any fun f => decide (f.core = s.cur.core) && (match f.work with
    | .clear _ | .carry => true
    | _ => false)

/-- ACC.SWAP. -/
def planAccSwap (s : State) : Plan :=
  if !s.nestIdle ∨ s.bankOps ∨ s.now ≤ s.here.deRead then .stall s
  else .go { s := s.modHere fun k => { k with wbank := !k.wbank } }

def execAccSwap (f : F1) (s : State) : Out := issue s (.accSwap f) planAccSwap

/-- MWAIT: it holds the XE until no nest runs; its adds at completion follow. -/
def planMwait (f : F1) (s : State) : Plan :=
  match s.here.nestRun with
  | none => .go { s := s }
  | some r =>
    let b := beadsOf (.mwait f)
    .go { s := s.modHereE fun e => { e with
            hold := some { wp := false, wn := false, c := s.now + s.d, op := some r.id, sp := b.dp, sn := b.dn, fl := [], flags := 0, pc := e.pc } },
          own := true }

def execMwait (f : F1) (s : State) : Out := issue s (.mwait f) (planMwait f)

/-- Order 6 of ACC.RD and ACC.WR. -/
def accOk (k : Core) (t : Nat) (f : AccF) : Bool :=
  k.slotOk t f.d && k.srcOk t false f.i && decide (f.d.w = 8 ∨ f.d.w = 16) && decide (k.ctlVal t false f.i + f.d.w / 8 ≤ 65536)

/-- INFO of an uncorrectable error that a read at issue meets in a buffer of its own core, if any; correctable errors are healed. -/
def State.issueRead (s : State) (space off n : Nat) : State × Option W64 :=
  let pa := s.bufPa s.cur.core space off
  match s.eccScan pa n with
  | (none, []) => (s, none)
  | (some (u, m), _) =>
    (s.countDie (slotOfCore s.cur.core), some (BitVec.ofNat 64 (u % 2 ^ 52) ||| (if m = .poisoned then 0x8000_0000_0000_0000#64 else 0)))
  | (none, us) =>
    (({ s with ecc := us.foldl SMap.erase s.ecc } : State).claim (s.here.grp.getD 0) 3 (some (s.time + 25)), none)

/-- ACC.RD. -/
def planAccRd (f : AccF) (s : State) : Plan :=
  let k := s.here
  let t := s.cur.tag
  if !accOk k t f then .fault s .illegalOperand
  else if !f.vis ∧ !s.nestIdle then .stall s
  else
    let off := (if s.bankSel f.vis then 0x4_0000 else 0) + 4 * k.ctlVal t false f.i
    match s.issueRead 2 off (f.d.w / 2) with
    | (s, some info) => .bad s .ueSram info none
    | (s, none) => .regs s 4 fun k => k.wrSlot t f.d (rdLe s.memAhead (s.bufPa s.cur.core 2 off) (f.d.w / 2))

def execAccRd (f : AccF) (s : State) : Out := issue s (.accRd f) (planAccRd f)

/-- ACC.WR. -/
def planAccWr (f : AccF) (s : State) : Plan :=
  let k := s.here
  let t := s.cur.tag
  let b := s.bankSel f.vis
  if !accOk k t f then .fault s .illegalOperand
  else if (!f.vis ∧ (!s.nestIdle ∨ s.carryReads (s.now + 2 * s.d))) ∨ s.deHolds f.vis (s.now + 2 * s.d) then .stall s
  else if s.carryBank = some b ∨ s.accProt b (4 * k.ctlVal t false f.i) (f.d.w / 2) then .fault s .segmentLegality
  else
    let pa := s.bufPa s.cur.core 2 ((if b then 0x4_0000 else 0) + 4 * k.ctlVal t false f.i)
    .go { s := (s.launch (some (s.now + 2 * s.d)) false [] (.write (cellsAt pa (leBytes (f.d.w / 2) (k.slotVal t f.d))) [])).1, lat := 2 }

def execAccWr (f : AccF) (s : State) : Out := issue s (.accWr f) (planAccWr f)

/-! ### DE (R241 to R243, R245) -/

/-- Order 6 for an FP32 operand of DSCALE. -/
def scaleOk (k : Core) (t : Nat) (b use : Bool) (x : Src) : Bool := !use || (k.srcOk t b x && decide (k.srcW t b 8 x = 8))

/-- The code of an FP32 operand. -/
def scaleVal (k : Core) (t : Nat) (b : Bool) : Src → Nat
  | .imm v _ => immFloat 32 v
  | x => k.srcVal t b false 8 x

/-- DSCALE. -/
def planDscale (f : DscaleF) (s : State) : Plan :=
  let k := s.here
  let t := s.cur.tag
  if !(scaleOk k t false f.setm f.a && scaleOk k t true f.sett f.b) then .fault s .illegalOperand
  else .regs s 1 fun k =>
    let k' := if f.setm then { (k.holdLatch t false f.a (scaleVal k t false f.a) 8) with mul := BitVec.ofNat 32 (scaleVal k t false f.a) } else k
    if f.sett then { (k'.holdLatch t true f.b (scaleVal k t true f.b) 8) with tsc := BitVec.ofNat 32 (scaleVal k t true f.b) } else k'

def execDscale (f : DscaleF) (s : State) : Out := issue s (.dscale f) (planDscale f)

/-- Check 3 of R242 as far as it concerns the rows. -/
def rowsOk (c n : Nat) (half : Bool) : Bool :=
  decide (n ≠ 0) && (if half then decide (c + n ≤ 512) else decide (c + 2 * n ≤ 512) && decide (c % 2 = 0))

/-- The checks of R242. -/
def drainFault (s : State) (f : DrainF) (b : Cb) (c n : Nat) : Option Cause :=
  let L := if f.half then 128 else 256
  if !b.configured then some .illegalOperand
  else if b.space ≠ 1 then some .bufferAccess
  else if attrRaw b.attr ∨ attrReserved b.attr then some .format
  else if !rowsOk c n f.half || decide (b.ents < n) || !drainFits b.attr b.size L || (f.fs && !attrInt b.attr) then some .illegalOperand
  else if (List.range n).any fun r => s.here.hitsProt (winAddr s.cur.core 1 (b.entry (b.prod.toNat + r))) (drainLen b.attr b.size L) then some .segmentLegality
  else none

/-- DRAIN: one operation per row. -/
def planDrain (f : DrainF) (s : State) : Plan :=
  let k := s.here
  let t := s.cur.tag
  let i := f.cb.toNat
  let b := k.cbOf i
  let c := k.ctlVal t false f.row
  let n := k.ctlVal t true f.n
  let L := if f.half then 128 else 256
  if !(k.srcOk t false f.row && k.srcOk t true f.n) then .fault s .illegalOperand
  else match drainFault s f b c n with
    | some e => .fault s e
    | none =>
      if b.room s.now < n then .wait s none (s.cbOpen s.cur.core i)
      else
        let T := s.now
        let d := s.d
        let r := (List.range n).foldl (fun (r : State × Nat) j =>
          let p := b.prod.toNat + j
          r.1.launch (some (T + (2 + j) * d)) true []
            (.rowRead T (c + (if f.half then j else 2 * j)) L (s.bufPa s.cur.core 1 (b.entry p)) b.attr b.size k.mul k.tsc f.fs f.sat (s.rmOf f.rm.toNat) k.seed
              (emberCtr 0 0x40 (k.segno.toNat % 2 ^ 16 * 2 ^ 32 + p % 2 ^ 16 * 2 ^ 16)) 0
              (if f.adv && decide (j + 1 = n) then [.prod s.cur.core i n] else []))) (s, 0)
        let C := T + (5 + n) * d
        let s := r.1.modHere fun k0 =>
          let k1 := (k0.holdLatch t false f.row c (k0.srcW t false 4 f.row)).holdLatch t true f.n n (k0.srcW t true 4 f.n)
          { k1 with deRead := max k1.deRead (T + (1 + n) * d),
                    busy := if f.adv then k1.busy ++ [{ res := .cb i, tick := C + 1, op := some r.2, hold := none, old := [], mask := [] }] else k1.busy }
        .go { s := s, lat := 5 + n, cyc := n, op := some r.2 }

def execDrain (f : DrainF) (s : State) : Out := issue s (.drain f) (planDrain f)

/-- Reads a row of a DRAIN and converts it; it commits four cycles later (R245). -/
def State.readRow (s : State) (f : Flight) (t0 h n pa : Nat) (attr : BitVec 5) (size : Nat) (mul tsc : BitVec 32) (fs sat : Bool) (rm : Nat) (seed ctr : W64)
    (lag : Nat) (fins : List Fin) : State :=
  let k := s.core f.core
  let vis := !k.wbank
  match s.consumeBuf f.core 4 2 f.pc [((if vis then 0x4_0000 else 0) + 512 * h, 4 * n)] with
  | (s, false) => s.dropFlight f.id
  | (s, true) =>
    let md (j p : Nat) : RMode := modeOf rm 0 seed (ctr + BitVec.ofNat 64 j) p (attrBlock attr && decide (attrBs attr = 32))
    let img := drainImage attr size tsc fs sat md (drainVals mul (s.accVals f.core vis (128 * h) n))
    { s with flights := s.flights.map fun x => if x.id = f.id then
        { x with due := s.reckOf f.core + 4 * k.div 4 + lag, work := .row t0 (cellsAt pa img.1) (BitVec.ofNat 32 img.2) fins } else x }

/-- A drained row commits, or loses a cycle to a lower tag that asks one of its banks, with the later rows of its DRAIN and the DE's next
issue (R232, R245). -/
def execDrainRowCommit (id : Nat) (s : State) : Out :=
  match s.flight id with
  | none => .next s
  | some f =>
    match f.work with
    | .row t0 ws flags fins =>
      let T := s.reckOf f.core
      let k := s.core f.core
      let spans := ws.map fun w => (w.1 - s.bufPa f.core 1 0, 1)
      let banks := ((spanLines spans).map fun l => l % 24).eraseDups
      match (List.range 24).find? fun b => banks.contains b && k.ports.any fun p => decide (p.1 = T) && decide (p.2.1 < 4) && decide (p.2.2 = b) with
      | some b =>
        let d := k.div 4
        let later (x : Flight) : Flight :=
          if x.core = f.core ∧ x.tag = 4 ∧ f.id ≤ x.id then
            match x.work with
            | .row t1 _ _ _ => if t1 = t0 then { x with due := x.due + d } else x
            | .rowRead t1 h n pa a sz m ts fs sa rm sd ctr lag fi => if t1 = t0 then { x with work := .rowRead t1 h n pa a sz m ts fs sa rm sd ctr (lag + d) fi } else x
            | _ => x
          else x
        let s : State := { s with flights := s.flights.map later }
        .next (s.modCore f.core fun k => (k.modEngine 4 fun e => if e.lastAt = some t0 then { e with nextAt := e.nextAt + d } else e).bankStall 4 (6 + b) 1)
      | none =>
        let s := (s.dropFlight id).notePorts f.core 4 T 24 spans
        let s := s.storeCells ws
        .next ((s.modCore f.core fun k => k.raise T flags.toNat).signal fins)
    | _ => .next s

/-- DAMAX. -/
def planDamax (f : DamaxF) (s : State) : Plan :=
  let k := s.here
  let t := s.cur.tag
  let c := k.ctlVal t false f.row
  let n := k.ctlVal t true f.n
  let tot := if f.half then n else 2 * n
  let m := ceilDiv tot 2
  if !(k.slotOk t f.dst && k.srcOk t false f.row && k.srcOk t true f.n) || decide (f.dst.w ≠ 8) then .fault s .illegalOperand
  else if !rowsOk c n f.half then .fault s .illegalOperand
  else
    let r := s.launch (some (s.now + 2 * s.d)) false [] (.damax c (c + tot - 1) 0 (k.startOf t f.dst))
    .go { s := r.1.modHere fun k => { k with deRead := max k.deRead (s.now + (1 + m) * s.d) }, lat := 5 + m, cyc := 2 + m, op := some r.2 }

def execDamax (f : DamaxF) (s : State) : Out := issue s (.damax f) (planDamax f)

end Sys2Proof.Machine
end

