-- ==== Sys2Proof/Machine/Transfer.lean ====
section
/-! DEFINITION. What the movement engines share (R246 to R248, R255, R265 to R268, R274): accesses of many rows, pairing of attributes,
reservations of circular buffers, tags, links, and putting a transfer into flight. -/

namespace Sys2Proof.Machine

open Sys2Proof

/-! ### Operands (R246) -/

/-- Loads the latch of an address or unsigned operand. -/
def Core.holdCtl (k : Core) (t : Nat) (b : Bool) (x : Src) : Core := k.holdLatch t b x (k.ctlVal t b x) (k.srcW t b 4 x)

/-- Loads the latch of an operand read with SEXT. -/
def Core.holdInt (k : Core) (t : Nat) (b : Bool) (x : Src) : Core := k.holdLatch t b x (k.srcVal t b true 4 x) (k.srcW t b 4 x)

/-! ### Accesses -/

/-- The larger latency of two paths; none if either is open-time. -/
def maxLat : Option Nat → Option Nat → Option Nat
  | some a, some b => some (max a b)
  | _, _ => none

/-- Accesses of many spans (VA, length, use) as one operation: each is translated and checked before the first request (R251, R254). -/
def State.accessMany (s : State) : List (Nat × Nat × Use) → Got
  | [] => .ok { s := s, runs := [], attrs := [], lat := some 2, late := none }
  | (va, n, u) :: r =>
    match s.access va n u none with
    | .ok g =>
      match g.s.accessMany r with
      | .ok h => .ok { s := h.s, runs := g.runs ++ h.runs, attrs := g.attrs ++ h.attrs, lat := maxLat g.lat h.lat, late := g.late.or h.late }
      | x => x
    | x => x

/-- The translation of a span as far as check 5 of R265 goes: its runs and attributes if every byte passes translation, window and
sharing. -/
def State.peek (s : State) (va len : Nat) (u : Use) : Option (List Run × List (BitVec 16)) :=
  match s.groupOf s.cur.core with
  | none => none
  | some g =>
    let v := s.viewOf s.cur.core
    let ps := pieces s.here v va len
    let runs := runsOfPieces ps
    let attrs := attrsOfPieces ps
    if (transFault v u ps).isNone && (s.regionCheck runs (decide (2 ^ 56 < va + len))).isNone && !(runs.any fun r => s.inWorkBank r) &&
        (runs.zip attrs).all (fun p => s.shareOk g.num p.2 p.1) then some (runs, attrs) else none

/-- The physical runs of a span as far as it translates at all. -/
def State.peekPas (s : State) (va len : Nat) : List Run := runsOfPieces (pieces s.here (s.viewOf s.cur.core) va len)

/-- Several accesses as one operation: check 5 for every byte, then the pairing of the attributes that translations give (`pair`, for
the attributes of all spans), then the rest. -/
def State.accessPaired (s : State) (spans : List (Nat × Nat × Use)) (pair : List (List Run × List (BitVec 16)) → Bool) (k : Granted → Plan) : Plan :=
  match spans.find? fun p => (s.peek p.1 p.2.1 p.2.2).isNone with
  | some p => (s.access p.1 p.2.1 p.2.2 none).plan s fun _ => .fault s .translation
  | none =>
    if !pair (spans.filterMap fun p => s.peek p.1 p.2.1 p.2.2) then .fault s .format
    else (s.accessMany spans).plan s k

/-! ### Pairing of attributes (R41 to R43) -/

/-- Offset, length and format of the pieces of a span. -/
def fmtSpans : Nat → List (Run × BitVec 16) → List (Nat × Nat × BitVec 5)
  | _, [] => []
  | o, p :: r => (o, p.1.len, awFmt p.2) :: fmtSpans (o + p.1.len) r

/-- A copy that does not convert: wherever source and destination bytes correspond, the destination is raw or of the source's format. -/
def copyPairs (src dst : List Run × List (BitVec 16)) : Bool :=
  (fmtSpans 0 (src.1.zip src.2)).all fun a => (fmtSpans 0 (dst.1.zip dst.2)).all fun b =>
    decide (a.1 + a.2.1 ≤ b.1) || decide (b.1 + b.2.1 ≤ a.1) || attrRaw b.2.2 || decide (b.2.2 = a.2.2)

/-- Formats of several attribute words. -/
def fmtsOf (as : List (List Run × List (BitVec 16))) : List (BitVec 5) := as.flatMap fun p => p.2.map awFmt

/-- Data of several formats into a circular buffer (R42): all one format, which an open buffer takes. -/
def intoCb (b : Cb) (fs : List (BitVec 5)) : Bool :=
  if attrRaw b.attr then fs.all fun f => decide (f = fs.headD 0) else fs.all fun f => decide (f = b.attr)

/-! ### Circular buffers (R255, R265) -/

/-- The first checks of a named buffer: configured (R166), then in the space that the description names. -/
def cbFault (b : Cb) (space : Nat) : Option Cause :=
  if !b.configured then some .illegalOperand else if b.space ≠ space then some .bufferAccess else none

/-- The same for several named buffers with the spaces that the description names. -/
def cbsFault (bs : List (Cb × Nat)) : Option Cause := if bs.all fun b => b.1.configured then bs.findSome? fun b => cbFault b.1 b.2 else some .illegalOperand

/-- Goes on at the first issue opportunity at which each named buffer of a core holds an entry, or has one free to be written (R278). -/
def State.whenReady (s : State) : List (Nat × Nat × Bool) → (State → Plan) → Plan
  | [], k => k s
  | (c, i, wr) :: r, k =>
    let b := (s.core c).cbOf i
    if (if wr then b.canWrite s.now else b.canRead) then s.whenReady r k else .wait s none (s.cbOpen c i)

/-- The first fault of several checks. -/
def firstFault (xs : List (Option Cause)) : Option Cause := xs.findSome? id

/-- Check by a condition that must hold. -/
def needs (ok : Bool) (c : Cause) : Option Cause := if ok then none else some c

/-- Goes on unless a check has failed. -/
def orFault (c : Option Cause) (s : State) (k : State → Plan) : Plan :=
  match c with
  | some c => .fault s c
  | none => k s

/-- Reserves an entry of buffer `i` of core `c` for operation `id` (R255), with the attribute that an open buffer takes. -/
def State.reserve (s : State) (c i id : Nat) (adv : Bool) (attr : BitVec 5) : State :=
  s.modCore c fun k => k.modCb i fun b => { b.takeAttr attr with resv := b.resv ++ [{ id := id, adv := adv, done := false, tick := s.now }] }

/-- Width in bits of the indices of an index buffer (R248). -/
def idxBits (a : BitVec 5) : Nat := if a = 9 then 16 else 32

def idxAttr (a : BitVec 5) : Bool := decide (a = 9 ∨ a = 10)

/-- The number of indices of an entry. -/
def idxCount (b : Cb) : Nat := b.size * 8 / idxBits b.attr

/-- The null index. -/
def idxNull (w : Nat) : Nat := 2 ^ w - 1

/-- The indices of the entry at CONS. -/
def State.indices (s : State) (b : Cb) : List Nat :=
  let w := idxBits b.attr
  let bs := rdBytes s.memAhead (s.bufPa s.cur.core 5 (b.entry b.cons.toNat)) b.size
  (List.range (idxCount b)).map fun k => getElem w bs k

/-- The bytes of the entry at CONS of a buffer of the core at the cursor, or the INFO of the error that its read meets. -/
def State.entryRead (s : State) (b : Cb) : State × Option W64 := s.issueRead b.space (b.entry b.cons.toNat) b.size

def State.entryBytes (s : State) (b : Cb) : List Byte := rdBytes s.memAhead (s.bufPa s.cur.core b.space (b.entry b.cons.toNat)) b.size

/-- Reads entries, and goes on unless one is uncorrectable. -/
def State.readEntries (s : State) : List Cb → (State → Plan) → Plan
  | [], k => k s
  | b :: r, k =>
    match s.entryRead b with
    | (s, some info) => .bad s .ueSram info none
    | (s, none) => s.readEntries r k

/-- Whether a write of [off, off + n) of a buffer of core `c` meets a protected range (R265, check 6). -/
def State.protAt (s : State) (c space off n : Nat) : Bool := s.here.hitsProt (winAddr c space off) n

/-! ### Tags (R154) -/

/-- The tag that an instruction names. -/
def tagOf (ten : Bool) (tag : BitVec 6) : Option Nat := if ten then some tag.toNat else none

/-- Whether an incomplete operation of the core at the cursor names the tag. -/
def State.tagBusy (s : State) (tag : Option Nat) : Bool := tag.elim false fun t => s.here.tagOps.contains t

/-- An operation that names a tag issues. -/
def State.takeTag (s : State) (tag : Option Nat) : State :=
  match tag with
  | none => s
  | some t => s.modHere fun k => { k with tags := k.tags &&& ~~~(1#64 <<< t), tagOps := k.tagOps ++ [t] }

def State.tagFins (s : State) (tag : Option Nat) : List Fin := tag.elim [] fun t => [.tag s.cur.core t]

/-! ### Links (R274) -/

/-- Stands for own-module HBM as an end of a path. -/
def hbmEnd : Nat := 100

/-- The link direction or HBM path that a fixed-time access of core `c` to a PA uses; none within a die. -/
def linkOf (c pa : Nat) (wr : Bool) : List (Nat × Nat) :=
  let me := slotOfCore c
  let far := match winCore pa with
    | some d => slotOfCore d
    | none => hbmEnd
  if far = me then [] else if wr then [(me, far)] else [(far, me)]

def linksOf (c : Nat) (runs : List Run) (wr : Bool) : List (Nat × Nat) := (runs.flatMap fun r => linkOf c r.pa wr).eraseDups

/-- The tick at which the first beat of a transfer may enter its links: after the last beat of every earlier transfer of the group. -/
def State.firstBeat (s : State) (links : List (Nat × Nat)) : Nat :=
  s.flights.foldl (fun m f => match f.work with
    | .copy _ _ _ ls last _ _ => if f.fixed && decide (some f.grp = s.here.grp) && ls.any fun l => links.contains l then max m (last + 1) else m
    | _ => m) s.now

/-- Beats of 256 bytes. -/
def beatsIn (n : Nat) : Nat := ceilDiv n 256

/-- A transfer that has moved by a tick: its number, its group, its links and the tick of its last beat. -/
structure Moved where
  id : Nat
  grp : Nat
  links : List (Nat × Nat)
  last : Nat

/-- The flights after the beats of transfer `op` have lost a tick (R232): it and its other beats move by a tick; so does every later transfer of
its group whose first beat would now meet the last beat of one that has moved. -/
def slideAll (op : Nat) : List Moved → List Flight → List Flight
  | _, [] => []
  | ms, f :: fs =>
    match f.work with
    | .copy src img dst ls last hs fins =>
      let first := last + 1 - beatsIn ((dst.map fun r => r.len).sum)
      if f.id = op ∨ f.fixed ∧ ms.any fun m => decide (m.grp = f.grp) && decide (first ≤ m.last) && ls.any fun l => m.links.contains l then
        { f with due := f.due + 1, work := .copy src img dst ls (last + 1) hs fins } ::
          slideAll op ((if f.fixed then [{ id := f.id, grp := f.grp, links := ls, last := last + 1 }] else [{ id := f.id, grp := f.grp, links := [], last := last }]) ++ ms) fs
      else f :: slideAll op ms fs
    | .beats o _ _ _ _ _ => (if ms.any fun m => decide (m.id = o) then { f with due := f.due + 1 } else f) :: slideAll op ms fs
    | _ => f :: slideAll op ms fs

/-- The banks of a buffer space with ports that engines share: the V-buffer's and the A-buffer's. -/
def sharedBanks (space : Nat) : Option Nat := if space = 3 then some 16 else if space = 1 then some 24 else none

/-- The space and offset of a PA in the buffers of core `c`. -/
def nativeOf (c pa : Nat) : Option (Nat × Nat) :=
  if winCore pa = some c then
    (List.range 7).findSome? fun sp => (bufOf (coreType c) sp).bind fun b =>
      if b.1 ≤ pa % 0x1000_0000 ∧ pa % 0x1000_0000 < b.1 + b.2 then some (sp, pa % 0x1000_0000 - b.1) else none
  else none

/-! ### Takes at completion (R85, R88) -/

/-- Whether an operation is still in progress. -/
def State.opLive (s : State) (o : Option Nat) : Bool := o.elim false fun id => (s.flight id).isSome

/-- Takes at completion of an engine that can be made, once its instruction has completed; until they are made they hold its flags back. Those of
the other segment execution are a fault of the instruction that makes them. -/
def State.takeHolds (s : State) (c t : Nat) : State :=
  let T := s.reckOf c
  let e := (s.core c).engine t
  match e.hold with
  | none => s
  | some h =>
    if T < h.c || s.opLive h.op then s
    else if !e.beadReady T h.wp h.wn then s.modCore c fun k => k.putOff T h.flags
    else if !e.beadEpoch h.wp h.wn then s.charge { core := c, tag := t, cause := .segmentLegality, info := 0, pc := some h.pc } none
    else
      let s := s.modEngine c t fun e => e.tookAt h T
      { s with flights := s.flights.map fun f => if h.fl.contains f.id then { f with due := T } else f }

/-! ### Starting a transfer (R260 to R263, R268, R274) -/

/-- A transfer as an instruction plans it: the state after its checks and reads, its latency (none: open-time), whether it will be late,
the runs whose order counts (R296), bytes moved, links, source and image, destination, the buffer that its beats leave, the circular buffer whose
CONS advances as its last request is placed, and signals. -/
structure Move where
  s : State
  lat : Option Nat
  late : Option Bool
  n : Nat
  links : List (Nat × Nat)
  src : List Run
  img : List Byte
  dst : List Run
  leaves : Option (Nat × Nat)
  cons : Option Nat := none
  fins : List Fin

/-- A transfer that has started: the state, its number, the tick at which its last request is to be placed, and the number of the operation that
ends then. -/
structure Started where
  s : State
  id : Nat
  last : Nat
  op : Nat

/-- Core, space and offset of runs that lie in a buffer whose banks engines share. -/
def sharedAt (runs : List Run) : Option ((Nat × Nat) × Nat) :=
  (runs.head?.bind fun r => (winCore r.pa).bind fun c => (nativeOf c r.pa).map fun p => ((c, p.1), p.2)).filter fun x => (sharedBanks x.1.2).isSome

/-- Starts a transfer. Its beats ask the banks of the buffers that they leave and reach (R197, R232). -/
def Move.start (m : Move) : Started :=
  let n := beatsIn m.n
  let f := if m.lat.isSome then m.s.firstBeat m.links else m.s.now
  let last := f + n - 1
  let due := last + 1 + m.lat.getD 0
  let g : Granted := { s := m.s, runs := m.src ++ m.dst, attrs := [], lat := m.lat, late := m.late }
  let r := g.launch due due true (.copy m.src m.img m.dst m.links last [] m.fins)
  let out := m.leaves.filter fun p => (sharedBanks p.1).isSome
  let fins : List Fin := m.cons.elim [] fun i => [.cons m.s.cur.core i 1]
  let b := r.1.launch (some (if out.isSome then f else last)) true [] (.beats r.2 (out.map fun p => (m.s.cur.core, p.1)) (out.elim 0 fun p => p.2) m.n true fins)
  let s := match m.lat, sharedAt m.dst with
    | some L, some x => (b.1.launch (some (f + L + 1)) true [] (.beats r.2 (some x.1) x.2 m.n false [])).1
    | _, _ => b.1
  let s := match m.cons with
    | some i => s.modHere fun k => { k with busy := k.busy ++ [{ res := .cb i, tick := last + 1, op := some b.2, hold := none, old := [], mask := [] }] }
    | none => s
  { s := s, id := r.2, last := last, op := b.2 }

/-- An asynchronous instruction whose last request is placed at tick `last` (R85, R268), or when operation `op` ends. -/
def Plan.placed (s : State) (last : Nat) (op : Option Nat := none) : Plan := .go { s := s, commit := some last, async := true, op := op }

/-- One run of a buffer of core `c`. -/
def State.bufRun (s : State) (c space off n : Nat) : Run := { va := winAddr c space off, pa := s.bufPa c space off, len := n }

end Sys2Proof.Machine
end

