-- ==== Sys2Proof/Machine/Gather.lean ====
section
/-! DEFINITION. The index, gather and atomic engines (R250 to R254, R268). -/

namespace Sys2Proof.Machine

open Sys2Proof

/-! ### IE (R250) -/

/-- One entry of indices written by a producer: commit 2 + ⌈SIZE/64⌉ cycles after issue; with `scb`, the source's CONS advances then. -/
def indexGo (s : State) (dcb : Nat) (adv : Bool) (attr : BitVec 5) (ys : List Nat) (scb : Option (Nat × Bool)) (hold : Core → Core) : Plan :=
  let c := s.cur.core
  let d := s.here.cbOf dcb
  let lat := 2 + ceilDiv d.size 64
  let C := s.now + lat * s.d
  let pa := s.bufPa c 5 (d.entry d.slot)
  let cons := match scb with
    | some (i, true) => [Fin.cons c i 1]
    | _ => []
  let r := s.launch (some C) false [] (.write (cellsAt pa (padTo d.size (packElems (idxBits attr) ys))) (.resv c dcb s.nextId :: cons))
  let s := (r.1.reserve c dcb r.2 adv attr).modHere hold
  let s := match scb with
    | some (i, true) => s.modHere fun k => { k with busy := k.busy ++ [{ res := .cb i, tick := C + 1, op := none, hold := none, old := [], mask := [] }] }
    | _ => s
  .go { s := s, lat := lat }

/-- IGEN. -/
def planIgen (f : IgenF) (s : State) : Plan :=
  let k := s.here
  let t := s.cur.tag
  let i := f.dcb.toNat
  let d := k.cbOf i
  let w := idxBits d.attr
  let a := k.offVal t false f.a
  let b := k.offVal t true f.b
  if !(k.srcOk t false f.a && k.srcOk t true f.b) then .fault s .illegalOperand
  else orFault (cbFault d 5) s fun s => s.whenReady [(s.cur.core, i, true)] fun s =>
    if !idxAttr d.attr then .fault s .format
    else if s.protAt s.cur.core 5 (d.entry d.slot) d.size then .fault s .segmentLegality
    else indexGo s i f.adv d.attr ((List.range (idxCount d)).map fun (j : Nat) => wrapI (a + (j : Int) * b) w) none fun k => (k.holdInt t false f.a).holdInt t true f.b

def execIgen (f : IgenF) (s : State) : Out := issue s (.igen f) (planIgen f)

/-- IMAP of one index. -/
def imapEl (w A B M x : Nat) : Nat :=
  if x = idxNull w then x
  else
    let y := (x * A + B) % 2 ^ w
    if M = 0 then y else y % M

/-- ICMP: kept indices first, then null. -/
def icmpAll (w lo hi : Nat) (inv : Bool) (xs : List Nat) : List Nat :=
  let keep := xs.filter fun x => decide (x ≠ idxNull w) && ((decide (lo ≤ x) && decide (x < hi)) != inv)
  keep ++ List.replicate (xs.length - keep.length) (idxNull w)

/-- IMAP and ICMP: `op` maps the source's indices of width w, with the values of a and b. -/
def planIdx (dcb scb : BitVec 4) (advs advd : Bool) (a b : Src) (op : Nat → Nat → Nat → List Nat → List Nat) (s : State) : Plan :=
  let k := s.here
  let t := s.cur.tag
  let i := dcb.toNat
  let j := scb.toNat
  let d := k.cbOf i
  let x := k.cbOf j
  if !(k.srcOk t false a && k.srcOk t true b) then .fault s .illegalOperand
  else orFault (cbsFault [(d, 5), (x, 5)]) s fun s => s.whenReady [(s.cur.core, j, false), (s.cur.core, i, true)] fun s =>
    if d.size ≠ x.size then .fault s .illegalOperand
    else if !(idxAttr x.attr && (attrRaw d.attr || decide (d.attr = x.attr))) then .fault s .format
    else if s.protAt s.cur.core 5 (d.entry d.slot) d.size then .fault s .segmentLegality
    else s.readEntries [x] fun s =>
      indexGo s i advd x.attr (op (idxBits x.attr) (k.ctlVal t false a) (k.ctlVal t true b) (s.indices x)) (some (j, advs)) fun k => (k.holdCtl t false a).holdCtl t true b

def execImap (f : ImapF) (s : State) : Out :=
  issue s (.imap f) (planIdx f.dcb f.scb f.advs f.advd f.a f.b fun w a b xs => xs.map fun x => imapEl w (bitsN a 0 32) (bitsN a 32 32) b x)

def execIcmp (f : IcmpF) (s : State) : Out :=
  issue s (.icmp f) (planIdx f.dcb f.scb f.advs f.advd f.a f.b fun w a b xs => icmpAll w a b f.inv xs)

/-! ### GE: rows (R251) -/

/-- Row numbers and addresses of the rows that are not null. -/
def rowAddrs (w a rb : Nat) (xs : List Nat) : List (Nat × Nat) :=
  (xs.zipIdx.filter fun p => decide (p.1 ≠ idxNull w)).map fun p => (p.2, (a + p.1 * rb) % 2 ^ 56)

/-- Ticks of a row operation beyond the latency (R268). -/
def rowTicks (w rb : Nat) (xs : List Nat) : Nat := xs.foldl (fun n x => n + (if x = idxNull w then 1 else ceilDiv rb 64)) 0

/-- The checks 3 and 4 of GATH and SCAT once their entries are there: `d` the G-buffer side, `x` the index buffer. -/
def rowFault (d x : Cb) (rb : Nat) : Option Cause :=
  firstFault [needs (decide (1 ≤ rb ∧ rb ≤ 65536)) .illegalOperand,
    needs (!idxAttr x.attr || decide (idxCount x * rb ≤ d.size)) .illegalOperand, needs (idxAttr x.attr) .format]

/-- Whether the byte at a VA and PA is staged when a movement engine writes it (R147, R251). -/
def State.byteStaged (s : State) (attrs : List (Run × BitVec 16)) (va pa : Nat) : Bool := s.nibStaged attrs (2 * va) (2 * pa)

/-- GATH. Its rows keep the path busy from its first tick until its last row has been sent (R268, R274; log entry 111). -/
def planGath (f : GathF) (s : State) : Plan :=
  let k := s.here
  let t := s.cur.tag
  let c := s.cur.core
  let i := f.cb.toNat
  let d := k.cbOf i
  let x := k.cbOf f.icb.toNat
  let rb := k.ctlVal t true f.rb
  let tag := tagOf f.ten f.tag
  if !(k.srcOk t false f.a && k.srcOk t true f.rb) then .fault s .illegalOperand
  else orFault (cbsFault [(d, 4), (x, 5)]) s fun s => s.whenReady [(c, f.icb.toNat, false), (c, i, true)] fun s => orFault (rowFault d x rb) s fun s =>
    s.readEntries [x] fun s =>
      let w := idxBits x.attr
      let xs := s.indices x
      let rows := rowAddrs w (k.addr t false f.a) rb xs
      s.accessPaired (rows.map fun p => (p.2, rb, useRead)) (fun as => (fmtsOf as).all (fun a => !attrBlock a) && intoCb d (fmtsOf as)) fun g =>
        if s.openFault g.lat || s.protAt c 4 (d.entry d.slot) d.size then .fault s .segmentLegality
        else if s.tagBusy tag then .fault s .tagBusy
        else
          let links := linksOf c g.runs false
          let f0 := if g.lat.isSome then s.firstBeat links else s.now
          let last := f0 + xs.length - 1
          let due := f0 + g.lat.getD 0 + rowTicks w rb xs
          let ent := d.entry d.slot
          let nulls := (xs.zipIdx.filter fun p => decide (p.1 = idxNull w)).map fun p => s.bufRun c 4 (ent + p.2 * rb) rb
          let tail := s.bufRun c 4 (ent + xs.length * rb) (d.size - xs.length * rb)
          let dst := (rows.map fun p => s.bufRun c 4 (ent + p.1 * rb) rb) ++ nulls ++ [tail]
          let attr := g.attrs.head?.elim d.attr awFmt
          let s1 := g.s.takeTag tag
          let r := ({ g with s := s1 } : Granted).launch due due true
            (.copy g.runs (List.replicate (d.size - rows.length * rb) 0) dst links (f0 + rowTicks w rb xs - 1) []
              (.resv c i s1.nextId :: s1.tagFins tag))
          let s2 := (r.1.reserve c i r.2 f.advx attr).modHere fun k => (k.holdSrc t false false 0 f.a).holdCtl t true f.rb
          .placed (if f.advi then s2.advanceAt last f.icb.toNat (.cons c f.icb.toNat 1) else s2) last

def execGath (f : GathF) (s : State) : Out := issue s (.gath f) (planGath f)

/-- SCAT (log entry 111). -/
def planScat (f : GathF) (s : State) : Plan :=
  let k := s.here
  let t := s.cur.tag
  let c := s.cur.core
  let i := f.cb.toNat
  let d := k.cbOf i
  let x := k.cbOf f.icb.toNat
  let rb := k.ctlVal t true f.rb
  let tag := tagOf f.ten f.tag
  if !(k.srcOk t false f.a && k.srcOk t true f.rb) then .fault s .illegalOperand
  else orFault (cbsFault [(d, 4), (x, 5)]) s fun s => s.whenReady [(c, f.icb.toNat, false), (c, i, false)] fun s => orFault (rowFault d x rb) s fun s =>
    s.readEntries [x, d] fun s =>
      let w := idxBits x.attr
      let xs := s.indices x
      let rows := rowAddrs w (k.addr t false f.a) rb xs
      let src := s.entryBytes d
      s.accessPaired (rows.map fun p => (p.2, rb, { useWrite with stg := some false }))
          (fun as => (fmtsOf as).all fun a => attrRaw a || (!attrBlock a && decide (a = d.attr))) fun g =>
        let all := spreadBytes g.runs (rows.flatMap fun p => (src.drop (p.1 * rb)).take rb)
        let attrs := g.runs.zip g.attrs
        let st := all.filter fun p => s.byteStaged attrs p.1 p.2.1
        let now := all.filter fun p => !s.byteStaged attrs p.1 p.2.1
        let stage := stageAll k.egress (st.flatMap fun p => [(2 * p.2.1, p.2.2.extractLsb' 0 4), (2 * p.2.1 + 1, p.2.2.extractLsb' 4 4)])
        if s.openFault g.lat || (!st.isEmpty && decide (k.stageRoom < stage.length)) then .fault s .segmentLegality
        else if s.tagBusy tag then .fault s .tagBusy
        else
          let links := linksOf c g.runs true
          let f0 := if g.lat.isSome then s.firstBeat links else s.now
          let last := f0 + xs.length - 1
          let due := f0 + g.lat.getD 0 + rowTicks w rb xs
          let s1 := (g.s.takeTag tag).modHere fun k =>
            { ((k.holdSrc t false false 0 f.a).holdCtl t true f.rb) with egress := if st.isEmpty then k.egress else stage }
          let r := ({ g with s := s1 } : Granted).launch due due true
            (.copy [] (now.map fun p => p.2.2) (now.map fun p => { va := p.1, pa := p.2.1, len := 1 }) links (f0 + rowTicks w rb xs - 1) [] (s1.tagFins tag))
          let s2 := if f.advi then r.1.advanceAt last f.icb.toNat (.cons c f.icb.toNat 1) else r.1
          .placed (if f.advx then s2.advanceAt last i (.cons c i 1) else s2) last

def execScat (f : GathF) (s : State) : Out := issue s (.scat f) (planScat f)

/-! ### GE: WIN and GSEG (R252, R253) -/

/-- Commits a whole entry of a G-buffer producer at once, with the advances of its sources. -/
def entryGo (s : State) (lat dcb : Nat) (adv : Bool) (attr : BitVec 5) (img : List Byte) (cons : List Nat) (fl : Flags) (hold : Core → Core) : Plan :=
  let c := s.cur.core
  let d := s.here.cbOf dcb
  let C := s.now + lat * s.d
  let r := s.launch (some C) false [] (.write (cellsAt (s.bufPa c d.space (d.entry d.slot)) (padTo d.size img))
    (.resv c dcb s.nextId :: cons.map fun i => .cons c i 1))
  let s := (r.1.reserve c dcb r.2 adv attr).modHere fun k =>
    { (hold k).raise C fl with busy := k.busy ++ cons.map fun i => { res := .cb i, tick := C + 1, op := none, hold := none, old := [], mask := [] } }
  .go { s := s, lat := lat }

/-- The output of WIN. -/
def winImage (src : List Byte) (rb wl st es j : Nat) : List Byte :=
  (List.range j).flatMap fun n => (List.range wl).flatMap fun i =>
    let r := n * st + i
    if r < es then (src.drop (r * rb)).take rb else List.replicate rb 0

/-- WIN. -/
def planWin (f : WinF) (s : State) : Plan :=
  let k := s.here
  let t := s.cur.tag
  let d := k.cbOf f.dcb.toNat
  let x := k.cbOf f.scb.toNat
  let a := k.ctlVal t false f.a
  let rb := bitsN a 0 16
  let wl := bitsN a 16 8 + 1
  let st := bitsN a 24 8 + 1
  if !k.srcOk t false f.a then .fault s .illegalOperand
  else orFault (cbsFault [(d, 4), (x, 4)]) s fun s => s.whenReady [(s.cur.core, f.scb.toNat, false), (s.cur.core, f.dcb.toNat, true)] fun s =>
    if !(decide (rb ≠ 0) && decide (wl * rb ≤ d.size)) then .fault s .illegalOperand
    else if !intoCb d [x.attr] then .fault s .format
    else if s.protAt s.cur.core 4 (d.entry d.slot) d.size then .fault s .segmentLegality
    else s.readEntries [x] fun s =>
      entryGo s (4 + ceilDiv d.size 256) f.dcb.toNat f.advd x.attr (winImage (s.entryBytes x) rb wl st (x.size / rb) (d.size / (wl * rb)))
        (if f.advs then [f.scb.toNat] else []) 0 fun k => k.holdCtl t false f.a

def execWin (f : WinF) (s : State) : Out := issue s (.win f) (planWin f)

/-- GSEG: the accumulators (32-bit codes, row after row) after index `x` of row `k`, and flags. -/
def gsegStep (isF : Bool) (op w a n D : Nat) (src : Nat → Nat) (acc : List Nat × Flags) (p : Nat × Nat) : List Nat × Flags :=
  if p.1 = idxNull w then acc
  else if p.1 < a ∨ D ≤ p.1 - a then (acc.1, acc.2 ||| fSA)
  else
    let u := p.1 - a
    (List.range n).foldl (fun acc e =>
      let x := acc.1.getD (u * n + e) 0
      let y := src (p.2 * n + e)
      let r : Nat × Flags := if isF then redFloat .fp32 op x y else (wrapI (redInt op (sext x 32) (sext y 32)) 32, 0)
      (acc.1.set (u * n + e) r.1, acc.2 ||| r.2)) acc

/-- GSEG. -/
def planGseg (f : GsegF) (s : State) : Plan :=
  let k := s.here
  let t := s.cur.tag
  let c := s.cur.core
  let d := k.cbOf f.dcb.toNat
  let x := k.cbOf f.scb.toNat
  let ix := k.cbOf f.icb.toNat
  let rb := k.ctlVal t true f.rb
  let op := f.op.toNat
  if !(k.srcOk t false f.a && k.srcOk t true f.rb) then .fault s .illegalOperand
  else orFault (cbsFault [(d, 4), (x, 4), (ix, 5)]) s fun s =>
    s.whenReady [(c, f.scb.toNat, false), (c, f.icb.toNat, false), (c, f.dcb.toNat, true)] fun s =>
    if !(decide (rb ≠ 0 ∧ rb % 4 = 0) && (!idxAttr ix.attr || decide (idxCount ix * rb ≤ x.size))) then .fault s .illegalOperand
    else if !(idxAttr ix.attr && decide (d.attr = x.attr) && decide (d.attr = 6 ∨ d.attr = 0xA)) then .fault s .format
    else if s.protAt c 4 (d.entry d.slot) d.size then .fault s .segmentLegality
    else s.readEntries [x, ix] fun s =>
      let isF := decide (d.attr = 6)
      let n := rb / 4
      let D := d.size / rb
      let src := s.entryBytes x
      let ident := if isF then redFloatId .fp32 op else wrapI (redIntId op true 32) 32
      let xs := s.indices ix
      let r := xs.zipIdx.foldl (gsegStep isF op (idxBits ix.attr) (k.ctlVal t false f.a) n D fun j => getElem 32 src j) (List.replicate (D * n) ident, 0)
      entryGo s (4 + xs.length + ceilDiv d.size 256) f.dcb.toNat f.advd d.attr (packElems 32 r.1)
        ((if f.advs then [f.scb.toNat] else []) ++ if f.advi then [f.icb.toNat] else []) r.2 fun k => (k.holdCtl t false f.a).holdCtl t true f.rb

def execGseg (f : GsegF) (s : State) : Out := issue s (.gseg f) (planGseg f)

/-! ### AE (R254) -/

/-- AST. -/
def planAst (f : AstF) (s : State) : Plan :=
  let k := s.here
  let t := s.cur.tag
  let c := s.cur.core
  let v := k.cbOf f.vcb.toNat
  let x := k.cbOf f.icb.toNat
  let n := szBits f.sz / 8
  let a := k.addr t false f.a
  if !k.srcOk t false f.a then .fault s .illegalOperand
  else orFault (cbsFault [(v, 4), (x, 5)]) s fun s => s.whenReady [(c, f.icb.toNat, false), (c, f.vcb.toNat, false)] fun s =>
    if !(!idxAttr x.attr || decide (idxCount x * n ≤ v.size)) then .fault s .illegalOperand
    else if !idxAttr x.attr then .fault s .format
    else if a % n ≠ 0 then .bad s .alignment (BitVec.ofNat 64 a) none
    else s.readEntries [x, v] fun s =>
      let w := idxBits x.attr
      let xs := s.indices x
      let els := rowAddrs w a n xs
      let vals := s.entryBytes v
      let val (i : Nat) : Nat := getElem (szBits f.sz) vals i
      let staged (va : Nat) : Bool := k.inSeg && !k.inScratch va
      (s.accessMany (els.map fun p => (p.2, n, { useAtomic with stg := if staged p.2 then some true else none }))).plan s fun g =>
        let parts := els.zip g.runs
        let st := (parts.filter fun p => staged p.1.2).map fun p => StageEnt.atomn p.2.pa f.aop.toNat f.sz (val p.1.1)
        if s.openFault g.lat || (!st.isEmpty && decide (k.stageRoom < k.egress.length + st.length)) then .fault s .segmentLegality
        else
          let last := s.now + xs.length - 1
          let due := s.now + g.lat.getD 0 + xs.length
          let now := parts.filter fun p => !staged p.1.2
          let s1 := g.s.modHere fun k => { (k.holdSrc t false false 0 f.a) with egress := k.egress ++ st }
          let r := now.foldl (fun (r : State × Nat) p =>
            r.1.launch (if g.lat.isSome then some due else none) true [p.2] (.atomic p.2.pa f.aop.toNat f.sz (val p.1.1) 0 0 0 false none)) (s1, 0)
          let s2 := if now.isEmpty then r.1 else (r.1.bindRegs r.2).lateMark g.late due
          let s3 := if f.advi then s2.advanceAt last f.icb.toNat (.cons c f.icb.toNat 1) else s2
          .placed (if f.advv then s3.advanceAt last f.vcb.toNat (.cons c f.vcb.toNat 1) else s3) last

def execAst (f : AstF) (s : State) : Out := issue s (.ast f) (planAst f)

/-- Whether an AST of the core at the cursor has elements still to be performed. -/
def State.astLeft (s : State) : Bool :=
  s.flights.any fun f => decide (f.core = s.cur.core) && decide (f.tag = 3) && (match f.work with
    | .atomic _ _ _ _ _ _ _ _ _ => true
    | _ => false)

/-- AWAIT. -/
def planAwait (f : AwaitF) (s : State) : Plan :=
  let k := s.here
  let t := s.cur.tag
  if f.bar && !(k.srcOk t true f.n && k.slotOk t f.a) then .fault s .illegalOperand
  else if s.astLeft then .wait s none s.hasOpen
  else if !f.bar then .go { s := s }
  else
    s.barrierAt (k.slotVal t f.a % 2 ^ 56) { useWrite with rd := true } true fun g pa =>
      if k.inFixed then .fault s .segmentLegality
      else .go { s := (g.s.launch (some (s.now + s.d)) false g.runs (.arrive pa (k.offVal t true f.n))).1.modHere fun k => k.holdInt t true f.n }

def execAwait (f : AwaitF) (s : State) : Out := issue s (.await f) (planAwait f)

end Sys2Proof.Machine
end

