-- ==== Sys2Proof/Machine/Buffer.lean ====
section
/-! DEFINITION. The HBM engine and the transform engine (R256 to R259, R268). -/

namespace Sys2Proof.Machine

open Sys2Proof

/-- Bytes of the B SRAM. -/
def bsramSize : Nat := 32 * 2 ^ 20

/-! ### Block formats in ranges (R40, R256) -/

/-- The block-format range that the translation of an address comes through. -/
def State.blockRange (s : State) (va : Nat) : Option Range :=
  ((lookup s.here (s.viewOf s.cur.core) va).bind fun h => h.range).bind fun r => if attrBlock (awFmt r.attr) then some r else none

/-- First bytes of the scale plane and of the tile-scale plane, and the end of the latter. -/
def Range.scaleBase (r : Range) : Nat := r.base + r.esz * 0x10000

def Range.tileBase (r : Range) : Nat := r.base + (r.esz + r.ssz) * 0x10000

/-- Blocks whose elements lie in the element plane. -/
def Range.blocks (r : Range) (a : BitVec 5) : Nat := r.esz * 0x10000 / attrEb a

/-- How many bytes of the tile-scale area from tile scale `ts` the plane holds. -/
def Range.tileBytes (r : Range) (a : BitVec 5) (ts : Nat) : Nat := if attrT a then min 64 (r.limit - (r.tileBase + 4 * ts)) else 0

/-- The parts of `kk` blocks from block `b0` on, in the planes of a range and in an entry: VA, entry offset, bytes. -/
def planeParts (r : Range) (a : BitVec 5) (kk b0 ts : Nat) : List (Nat × Nat × Nat) :=
  [(r.base + b0 * attrEb a, 0, kk * attrEb a), (r.scaleBase + b0 * attrSb a, scaleOff a kk, kk * attrSb a)] ++
  (if 0 < r.tileBytes a ts then [(r.tileBase + 4 * ts, tileOff a kk, r.tileBytes a ts)] else [])

/-- The parts of an entry of `size` bytes that lie outside given parts (offset, bytes), which rise. -/
def gapsOf (size : Nat) : Nat → List (Nat × Nat) → List (Nat × Nat)
  | o, [] => if o < size then [(o, size - o)] else []
  | o, p :: r => (if o < p.1 then [(o, p.1 - o)] else []) ++ gapsOf size (p.1 + p.2) r

/-! ### HLD and HST (R256) -/

/-- Check 6 on a memory destination (R266): in a segment no SHARED page, host memory or other module. -/
def State.outFault (s : State) (runs : List Run) (attrs : List (BitVec 16)) : Bool :=
  s.here.inSeg && (runs.zip attrs).any fun p => storeStaged s.modId p.2 p.1.pa

/-- Loads the latches of HLD, HST, HPRE and HZERO. -/
def heHold (a b : Src) (t : Nat) (k : Core) : Core := (k.holdSrc t false false 0 a).holdCtl t true b

/-- HLD of spans of memory into parts of B SRAM: `dst` lists runs of B SRAM as long as the source and `pad` zero bytes together. -/
def hldGo (s : State) (spans : List (Nat × Nat × Use)) (pair : List (List Run × List (BitVec 16)) → Bool) (dst : List Run) (pad : Nat)
    (tag : Option Nat) (cb : Option (Nat × Bool × BitVec 5)) (hold : Core → Core) : Plan :=
  let c := s.cur.core
  s.accessPaired spans pair fun g =>
    if s.openFault g.lat || dst.any (fun r => s.here.hitsProt r.va r.len) then .fault s .segmentLegality
    else if s.tagBusy tag then .fault s .tagBusy
    else
      let s1 := g.s.takeTag tag
      let fins := (match cb with
        | some (i, _, _) => [Fin.resv c i s1.nextId]
        | none => []) ++ s1.tagFins tag
      let m : Move := { s := s1, lat := g.lat, late := g.late, n := (g.runs.map fun r => r.len).sum, links := linksOf c g.runs false, src := g.runs,
                        img := List.replicate pad 0, dst := dst, leaves := none, fins := fins }
      let r := m.start
      let s2 := match cb with
        | some (i, adv, a) => r.s.reserve c i r.id adv (if attrRaw a then g.attrs.head?.elim a awFmt else a)
        | none => r.s
      .placed (s2.modHere hold) r.last r.op

/-- HST of bytes of B SRAM to spans of memory: `src` are the runs of B SRAM in the order of the spans. -/
def hstGo (s : State) (spans : List (Nat × Nat × Use)) (pair : List (List Run × List (BitVec 16)) → Bool) (src : List Run) (tag : Option Nat)
    (cons : Option Nat) (hold : Core → Core) : Plan :=
  let c := s.cur.core
  s.accessPaired spans pair fun g =>
    if s.openFault g.lat || s.outFault g.runs g.attrs then .fault s .segmentLegality
    else if s.tagBusy tag then .fault s .tagBusy
    else
      let s1 := g.s.takeTag tag
      let fixed := g.lat.isSome
      let late : List Fin := match cons with
        | some i => if fixed then [] else [.cons c i 1]
        | none => []
      let m : Move := { s := s1, lat := g.lat, late := g.late, n := (g.runs.map fun r => r.len).sum, links := linksOf c g.runs true,
                        src := if fixed then [] else src, img := if fixed then src.flatMap fun r => rdBytes s.memAhead r.pa r.len else [], dst := g.runs,
                        leaves := none, cons := if fixed then cons else none, fins := late ++ s1.tagFins tag }
      let r := m.start
      let s2 := r.s.modHere hold
      .placed (match cons with
        | some i => if fixed then s2
                    else s2.modHere fun k => { k with busy := k.busy ++ [{ res := .cb i, tick := s.now + 1, op := some r.id, hold := none, old := [], mask := [] }] }
        | none => s2) r.last r.op

/-- Reads B SRAM at issue and goes on unless a unit is uncorrectable. -/
def State.readParts (s : State) : List (Nat × Nat) → (State → Plan) → Plan
  | [], k => k s
  | p :: r, k =>
    match s.issueRead 6 p.1 p.2 with
    | (s, some info) => .bad s .ueSram info none
    | (s, none) => s.readParts r k

/-- HLD. -/
def planHld (f : HldF) (s : State) : Plan :=
  let k := s.here
  let t := s.cur.tag
  let c := s.cur.core
  let a := k.addr t false f.a
  let b := k.ctlVal t true f.b
  let i := f.cb.toNat
  let d := k.cbOf i
  let tag := tagOf f.ten f.tag
  let hold := heHold f.a f.b t
  if !(k.srcOk t false f.a && k.srcOk t true f.b && (f.cbm || k.slotOk t f.c)) then .fault s .illegalOperand
  else if !f.cbm then
    let n := k.slotVal t f.c
    if n = 0 ∨ bsramSize < b + n then .fault s .illegalOperand
    else hldGo s [(a, n, useRead)] (fun _ => true) [s.bufRun c 6 b n] 0 tag none hold
  else match cbFault d 6 with
  | some e => .fault s e
  | none =>
    match s.blockRange a with
    | none =>
      s.whenReady [(c, i, true)] fun s => hldGo s [((a + b) % 2 ^ 56, d.size, useRead)] (fun as => intoCb d (fmtsOf as)) [s.bufRun c 6 (d.entry d.slot) d.size] 0 tag (some (i, f.adv, d.attr)) hold
    | some r =>
      let fm := awFmt r.attr
      let kk := blocksPer fm d.size
      let b0 := bitsN b 0 40
      s.whenReady [(c, i, true)] fun s =>
      if r.blocks fm < b0 + kk then .fault s .illegalOperand
      else
        let parts := planeParts r fm kk b0 (bitsN b 40 24)
        let gaps := gapsOf d.size 0 (parts.map fun p => (p.2.1, p.2.2))
        let ent := d.entry d.slot
        hldGo s (parts.map fun p => (p.1, p.2.2, useRead)) (fun as => intoCb d (fmtsOf as))
          ((parts.map fun p => s.bufRun c 6 (ent + p.2.1) p.2.2) ++ gaps.map fun p => s.bufRun c 6 (ent + p.1) p.2) (gaps.map fun p => p.2).sum tag
          (some (i, f.adv, d.attr)) hold

def execHld (f : HldF) (s : State) : Out := issue s (.hld f) (planHld f)

/-- HST. -/
def planHst (f : HldF) (s : State) : Plan :=
  let k := s.here
  let t := s.cur.tag
  let c := s.cur.core
  let a := k.addr t false f.a
  let b := k.ctlVal t true f.b
  let i := f.cb.toNat
  let d := k.cbOf i
  let tag := tagOf f.ten f.tag
  let hold := heHold f.a f.b t
  let adv := if f.adv then some i else none
  if !(k.srcOk t false f.a && k.srcOk t true f.b && (f.cbm || k.slotOk t f.c)) then .fault s .illegalOperand
  else if !f.cbm then
    let n := k.slotVal t f.c
    if n = 0 ∨ bsramSize < b + n then .fault s .illegalOperand
    else s.readParts [(b, n)] fun s =>
      hstGo s [(a, n, useWrite)] (fun as => (fmtsOf as).all fun x => !attrBlock x) [s.bufRun c 6 b n] tag none hold
  else match cbFault d 6 with
  | some e => .fault s e
  | none =>
    let ent := d.entry d.cons.toNat
    match s.blockRange a with
    | none =>
      s.whenReady [(c, i, false)] fun s => s.readParts [(ent, d.size)] fun s =>
        hstGo s [((a + b) % 2 ^ 56, d.size, useWrite)] (fun as => (fmtsOf as).all fun x => attrRaw x || decide (x = d.attr)) [s.bufRun c 6 ent d.size] tag adv hold
    | some r =>
      let fm := awFmt r.attr
      let kk := blocksPer fm d.size
      let b0 := bitsN b 0 40
      s.whenReady [(c, i, false)] fun s =>
      if r.blocks fm < b0 + kk then .fault s .illegalOperand
      else
        let parts := planeParts r fm kk b0 (bitsN b 40 24)
        s.readParts (parts.map fun p => (ent + p.2.1, p.2.2)) fun s =>
          hstGo s (parts.map fun p => (p.1, p.2.2, useWrite)) (fun as => (fmtsOf as).all fun x => decide (x = d.attr))
            (parts.map fun p => s.bufRun c 6 (ent + p.2.1) p.2.2) tag adv hold

def execHst (f : HldF) (s : State) : Out := issue s (.hst f) (planHst f)

/-! ### HPRE and HZERO (R257) -/

/-- Translation-cache keys of the pages and ranges that [a, a + n) meets. -/
def preKeys (v : View) (a n : Nat) : List (Bool × Nat) :=
  ((v.leaves.filter fun l => decide (l.va < a + n ∧ a < l.va + l.size)).map fun l => (false, l.va)) ++
  ((v.ranges.filter fun r => decide (r.base < a + n ∧ a < r.limit)).map fun r => (true, r.base))

/-- HPRE: it fills the die's translation cache and nothing else. -/
def planHpre (f : HpreF) (s : State) : Plan :=
  let k := s.here
  let t := s.cur.tag
  if !(k.srcOk t false f.a && k.srcOk t true f.n) then .fault s .illegalOperand
  else
    let s1 := match s.groupOf s.cur.core with
      | some g => s.cacheAll (slotOfCore s.cur.core) g.job g.num (preKeys (s.viewOf s.cur.core) (k.addr t false f.a) (k.ctlVal t true f.n))
      | none => s
    .go { s := s1.modHere (heHold f.a f.n t) }

def execHpre (f : HpreF) (s : State) : Out := issue s (.hpre f) (planHpre f)

/-- HZERO. -/
def planHzero (f : HzeroF) (s : State) : Plan :=
  let k := s.here
  let t := s.cur.tag
  let c := s.cur.core
  let n := k.ctlVal t true f.n
  let tag := tagOf f.ten f.tag
  if !(k.srcOk t false f.a && k.srcOk t true f.n) then .fault s .illegalOperand
  else if n = 0 then .fault s .illegalOperand
  else s.accessPaired [(k.addr t false f.a, n, useWrite)] (fun as => (fmtsOf as).all fun x => !attrBlock x) fun g =>
    if s.openFault g.lat || s.outFault g.runs g.attrs then .fault s .segmentLegality
    else if s.tagBusy tag then .fault s .tagBusy
    else
      let s1 := g.s.takeTag tag
      let m : Move := { s := s1, lat := g.lat, late := g.late, n := n, links := linksOf c g.runs true, src := [], img := List.replicate n 0, dst := g.runs,
                        leaves := none, fins := s1.tagFins tag }
      let r := m.start
      .placed (r.s.modHere (heHold f.a f.n t)) r.last r.op

def execHzero (f : HzeroF) (s : State) : Out := issue s (.hzero f) (planHzero f)

/-! ### TCOPY (R258) -/

/-- A tile in B SRAM: first byte, rows, bytes per row, pitch. -/
structure Tile where
  base : Nat
  rows : Nat
  bytes : Nat
  pitch : Nat

/-- First byte after the span of a tile. -/
def Tile.fin (x : Tile) : Nat := x.base + (x.rows - 1) * x.pitch + x.bytes

/-- Offset and length of every row. -/
def Tile.spans (x : Tile) : List (Nat × Nat) := (List.range x.rows).map fun i => (x.base + i * x.pitch, x.bytes)

/-- TCOPY. -/
def planTcopy (f : TcopyF) (s : State) : Plan :=
  let k := s.here
  let t := s.cur.tag
  let c := s.cur.core
  let es := esBits f.es
  let w := k.slotVal t f.c
  let rows := bitsN w 0 12 + 1
  let cols := bitsN w 12 12 + 1
  let drows := if f.tr then cols else rows
  let dcols := if f.tr then rows else cols
  let src : Tile := { base := k.ctlVal t false f.a, rows := rows, bytes := cols * es / 8, pitch := bitsN w 24 20 }
  let dst : Tile := { base := k.ctlVal t true f.b, rows := drows, bytes := dcols * es / 8, pitch := bitsN w 44 20 }
  let tag := tagOf f.ten f.tag
  if !(k.srcOk t false f.a && k.srcOk t true f.b && k.slotOk t f.c) || decide (f.c.w ≠ 16) then .fault s .illegalOperand
  else if cols * es % 8 ≠ 0 ∨ dcols * es % 8 ≠ 0 ∨ src.pitch < src.bytes ∨ dst.pitch < dst.bytes ∨ bsramSize < src.fin ∨ bsramSize < dst.fin then
    .fault s .illegalOperand
  else if src.base < dst.fin ∧ dst.base < src.fin then .fault s .copyOverlap
  else if dst.spans.any fun p => s.protAt c 6 p.1 p.2 then .fault s .segmentLegality
  else if s.tagBusy tag then .fault s .tagBusy
  else s.readParts src.spans fun s =>
    let m := s.memAhead
    let el (i j : Nat) : Nat :=
      if es = 4 then (rdNib m (2 * s.bufPa c 6 (src.base + i * src.pitch) + j)).toNat
      else rdLe m (s.bufPa c 6 (src.base + i * src.pitch + j * es / 8)) (es / 8)
    let cells := (List.range drows).flatMap fun i =>
      cellsAt (s.bufPa c 6 (dst.base + i * dst.pitch)) (packElems es ((List.range dcols).map fun j => if f.tr then el j i else el i j))
    let B := rows * cols * es / 8
    let C := s.now + (4 + (if f.tr then 2 else 1) * ceilDiv B 512) * s.d
    let s1 := s.takeTag tag
    let r := s1.launch (some C) true [] (.write cells (s1.tagFins tag))
    .placed (r.1.modHere fun k => (k.holdCtl t false f.a).holdCtl t true f.b) (s.now + ceilDiv B 256 - 1)

def execTcopy (f : TcopyF) (s : State) : Out := issue s (.tcopy f) (planTcopy f)

/-! ### TCVT (R259) -/

/-- Elements of an entry of a format. -/
def entryElems (a : BitVec 5) (size : Nat) : Nat := if attrBlock a then blocksPer a size * attrBs a else size * 8 / attrBits a

/-- The value of element i of an entry, and whether a product was invalid (R56); `tiles` includes the tile scale. -/
def entryVal (a : BitVec 5) (size : Nat) (bs : List Byte) (tiles : Bool) (i : Nat) : FVal × Bool :=
  let at' (off n : Nat) : Nat := leNat ((bs.drop off).take n)
  if attrBlock a then
    let kk := blocksPer a size
    let b := i / attrBs a
    let q := getElem (attrBits a) (bs.drop (b * attrEb a)) (i % attrBs a)
    let v := decElem a q (at' (scaleOff a kk + b * attrSb a) (attrSb a))
    if tiles && attrT a then (mulV v (dec .fp32 (at' (tileOff a kk + 4 * tileSlot (attrBs a) b) 4))) else (v, false)
  else if attrInt a then (FVal.ofRat (sext (getElem (attrBits a) bs i) (attrBits a)) false, false)
  else (dec (attrFmt a) (getElem (attrBits a) bs i), false)

/-- The converted entry and its flags: `val` gives the source's n values, `mode` the rounding of a position. -/
def cvtEntry (a : BitVec 5) (size n : Nat) (val : Nat → FVal × Bool) (mode : Nat → Nat → Bool → RMode) (tiles : List Byte) : List Byte × Flags :=
  let bad := flagIf ((List.range n).any fun i => (val i).2) fNV
  if attrBlock a then
    let kk := blocksPer a size
    let bs := attrBs a
    let blocks := (List.range kk).map fun b =>
      quantBlock a (.num 1) none (fun p => mode (b * bs + p) p (decide (bs = 32)))
        ((List.range bs).map fun p => if b * bs + p < n then (val (b * bs + p)).1 else .zero false)
    let els := padTo (scaleOff a kk) (blocks.flatMap fun x => packElems (attrBits a) x.1)
    let scs := blocks.flatMap fun x => leBytes (attrSb a) x.2.1
    let img := if attrT a then padTo (tileOff a kk) (els ++ scs) ++ tiles else els ++ scs
    (padTo size img, bad ||| orFlags (blocks.map fun x => x.2.2))
  else
    let rs := (List.range n).map fun i =>
      if attrInt a then rndInt (mode i i false) true (attrBits a) (val i).1 else rnd (attrFmt a) (mode i i false) false (val i).1
    (padTo size (packElems (attrBits a) (rs.map fun r => r.1)), bad ||| orFlags (rs.map fun r => r.2))

/-- A format that TCVT converts. -/
def cvtAttr (a : BitVec 5) : Bool := !attrRaw a && !attrReserved a

/-- TCVT. -/
def planTcvt (f : TcvtF) (s : State) : Plan :=
  let k := s.here
  let c := s.cur.core
  let d := k.cbOf f.dcb.toNat
  let x := k.cbOf f.scb.toNat
  let tag := tagOf f.ten f.tag
  let n := entryElems x.attr x.size
  orFault (cbsFault [(d, 6), (x, 6)]) s fun s => s.whenReady [(c, f.scb.toNat, false), (c, f.dcb.toNat, true)] fun s =>
    if !(!(cvtAttr d.attr && cvtAttr x.attr) || decide (n ≤ entryElems d.attr d.size)) then .fault s .illegalOperand
    else if !(cvtAttr d.attr && cvtAttr x.attr) then .fault s .format
    else if s.protAt c 6 (d.entry d.slot) d.size then .fault s .segmentLegality
    else if s.tagBusy tag then .fault s .tagBusy
    else s.readEntries [x] fun s =>
      let src := s.entryBytes x
      let both := attrT x.attr && attrT d.attr
      let rm := s.rmOf f.rm.toNat
      let ctr (i : Nat) : W64 := emberCtr 0 0x50 (k.segno.toNat % 2 ^ 16 * 2 ^ 32 + d.slot % 2 ^ 12 * 2 ^ 20 + i % 2 ^ 20)
      let mode (i p : Nat) (half : Bool) : RMode := modeOf rm 0 k.seed (ctr i) (p % 64) half
      let tiles := if both then (src.drop (tileOff x.attr (blocksPer x.attr x.size))).take 64 else (List.range 16).flatMap fun _ => leBytes 4 0x3F800000
      let img := cvtEntry d.attr d.size n (entryVal x.attr x.size src (!both)) mode tiles
      let lat := 4 + ceilDiv (max x.size d.size) 256
      let C := s.now + lat * s.d
      let s1 := s.takeTag tag
      let fins := Fin.resv c f.dcb.toNat s1.nextId :: ((if f.advs then [.cons c f.scb.toNat 1] else []) ++ s1.tagFins tag)
      let r := s1.launch (some C) true [] (.write (cellsAt (s.bufPa c 6 (d.entry d.slot)) img.1) fins)
      let s2 := (r.1.reserve c f.dcb.toNat r.2 f.advd d.attr).modHere fun k =>
        { (k.raise C img.2) with busy := if f.advs then k.busy ++ [{ res := .cb f.scb.toNat, tick := C + 1, op := none, hold := none, old := [], mask := [] }] else k.busy }
      .placed s2 (s.now + ceilDiv (max x.size d.size) 256 - 1)

def execTcvt (f : TcvtF) (s : State) : Out := issue s (.tcvt f) (planTcvt f)

end Sys2Proof.Machine
end

