-- ==== Sys2Proof/Machine/Push.lean ====
section
/-! DEFINITION. The push engine: pushes and copies (R260 to R263, R265 to R268, R274). -/

namespace Sys2Proof.Machine

open Sys2Proof

/-- The group core of a group-relative index (R107). -/
def State.groupCore (s : State) (i : Nat) : Option Nat := (s.groupOf s.cur.core).bind fun g => g.cores[i]?

/-- Placement of a push (R266): timed in FIXED segments only, untimed everywhere else. -/
def State.pushPlace (s : State) (timed : Bool) : Bool := timed == s.here.inFixed

/-- The due check of R260 at issue: the trap, with its INFO (R421). -/
def dueTrap (dcore due sL : Nat) : Option (Cause × W64) :=
  let info : W64 := BitVec.ofNat 32 sL ++ 0#10 ++ BitVec.ofNat 14 due ++ BitVec.ofNat 8 dcore
  if sL < due then some (.pushEarly, info) else if due < sL then some (.pushLate, info) else none

/-- Goes on unless a timed push is early or late. -/
def dueCheck (s : State) (timed : Bool) (dcore due L : Nat) (k : Plan) : Plan :=
  match if timed then dueTrap dcore due (s.segTick s.cur.core + L) else none with
  | some (c, info) => .bad s c info none
  | none => k

/-- DUE of an untimed push is 0, by its value or by an all-zero field (DEDUCED, log entry 110). -/
def dueOk (timed : Bool) (due : Nat) (x : Src) : Bool := timed || decide (due = 0) || x.isZeroDue

/-- PUSH. -/
def planPush (f : PushF) (s : State) : Plan :=
  let k := s.here
  let t := s.cur.tag
  let c := s.cur.core
  let i := f.scb.toNat
  let j := f.dcb.toNat
  let x := k.cbOf i
  let due := k.ctlVal t true f.due
  if !k.srcOk t true f.due then .fault s .illegalOperand
  else match s.groupCore f.dcore.toNat with
  | none => .fault s .illegalOperand
  | some dc =>
    let d := (s.core dc).cbOf j
    let L := coreLat c dc
    if !(x.configured && d.configured) then .fault s .illegalOperand
    else s.whenReady [(c, i, false), (dc, j, true)] fun s =>
      if !(decide (x.size = d.size) && dueOk f.timed due f.due && (!f.timed || L.isSome)) then .fault s .illegalOperand
      else if !intoCb d [x.attr] then .fault s .format
      else if !s.pushPlace f.timed || s.protAt dc d.space (d.entry d.slot) d.size then .fault s .segmentLegality
      else dueCheck s f.timed f.dcore.toNat due (L.getD 0) (s.readEntries [x] fun s =>
        let dst := s.bufRun dc d.space (d.entry d.slot) d.size
        let m : Move := { s := s, lat := if f.timed then L else none, late := none, n := x.size, links := linkOf c dst.pa true, src := [],
                          img := s.entryBytes x, dst := [dst], leaves := some (x.space, x.entry x.cons.toNat), cons := if f.advs then some i else none,
                          fins := [.resv dc j s.nextId] }
        let r := m.start
        .placed ((r.s.reserve dc j r.id true x.attr).modHere fun k => k.holdCtl t true f.due) r.last r.op)

def execPush (f : PushF) (s : State) : Out := issue s (.push f) (planPush f)

/-- Reads bytes of the core's own buffers at issue, and goes on unless a unit is uncorrectable. -/
def State.readOwn (s : State) : List Run → (State → Plan) → Plan
  | [], k => k s
  | r :: rs, k =>
    match nativeOf s.cur.core r.pa with
    | none => s.readOwn rs k
    | some p =>
      match s.issueRead p.1 p.2 r.len with
      | (s, some info) => .bad s .ueSram info none
      | (s, none) => s.readOwn rs k

/-- Whether runs lie wholly in the window slot of a core that `p` accepts. -/
def State.inSlots (s : State) (runs : List Run) (p : Nat → Bool) : Bool :=
  runs.all fun r => decide (r.pa / 2 ^ 44 = s.modId) && (winCore r.pa).elim false p

/-- The PE reaches its own core's buffers by their native ports, and has none to the accumulator memory (R19, R20). -/
def State.ownAcc (s : State) (runs : List Run) : Bool := runs.any fun r => (s.bankAt r.pa).elim false fun b => decide (b.1 = s.cur.core)

/-- The runs, image and buffer of a source: bytes that leave the core's own buffers at fixed times are taken at issue, others when the
transfer lands. -/
def State.srcSide (s : State) (fixed : Bool) (src : List Run) : List Run × List Byte × Option (Nat × Nat) :=
  let own := s.inSlots src fun d => decide (d = s.cur.core)
  (if fixed && own then [] else src, if fixed && own then src.flatMap fun r => rdBytes s.memAhead r.pa r.len else [],
   if own then src.head?.bind fun r => nativeOf s.cur.core r.pa else none)

/-- PUSHB. The window faults of R22 on the barrier object come before its buffer-access fault (R156), by its address in the local window. -/
def planPushb (f : PushbF) (s : State) : Plan :=
  let k := s.here
  let t := s.cur.tag
  let c := s.cur.core
  let w := k.slotVal t f.c
  let n := bitsN w 0 24 + 1
  let due := k.ctlVal t true f.due
  let sva := k.addr t false f.a
  let dva := k.slotVal t f.dst % 2 ^ 56
  let sp := s.peekPas sva n
  let dp := s.peekPas dva n
  let dc := (dp.head?.bind fun r => winCore r.pa).getD c
  let bar : Run := { va := 0x0400_0000_0000 + dc * 0x1000_0000 + bitsN w 24 24 * 16, pa := s.slotPa dc + bitsN w 24 24 * 16, len := 16 }
  let bpa := bar.pa
  let L := coreLat c dc
  let rel := ((s.groupOf c).elim [] fun g => g.cores).findIdx fun x => decide (x = dc)
  if !(k.srcOk t false f.a && k.srcOk t true f.due && k.slotOk t f.dst && k.slotOk t f.c) || decide (f.c.w ≠ 12) then .fault s .illegalOperand
  else if !s.inSlots sp (fun d => decide (d = c)) || !s.inSlots dp (fun d => decide ((s.core d).grp = k.grp)) || s.ownAcc (sp ++ dp) then
    .fault s .bufferAccess
  else match s.regionCheck [bar] false with
  | some e => .bad s e.1 (faultInfo e.1 e.2) none
  | none =>
  if !s.barrierPlace bpa then .fault s .bufferAccess
  else if !dueOk f.timed due f.due || (f.timed && L.isNone) then .fault s .illegalOperand
  else s.accessPaired [(sva, n, useRead), (dva, n, useWrite)]
      (fun as => match as with
        | [a, b] => copyPairs a b
        | _ => false) fun g =>
    if !s.pushPlace f.timed || !s.stampOk bpa || s.here.hitsProt bar.va 16 then .fault s .segmentLegality
    else dueCheck s f.timed rel due (L.getD 0) (
      let src := cutRuns g.runs 0 n
      let dst := cutRuns g.runs n n
      g.s.readOwn (if f.timed then src else []) fun s =>
        let sd := s.srcSide f.timed src
        let m : Move := { s := s, lat := if f.timed then L else none, late := g.late, n := n, links := linksOf c dst true, src := sd.1, img := sd.2.1,
                          dst := dst, leaves := sd.2.2, fins := [.barrier bpa n] }
        let r := m.start
        .placed (r.s.modHere fun k => (k.holdSrc t false false 0 f.a).holdCtl t true f.due) r.last r.op)

def execPushb (f : PushbF) (s : State) : Out := issue s (.pushb f) (planPushb f)

/-- COPY, COPYB, COPYD and PULL. `pull`: always open-time, into the own slot. `defer`: COPYD. `bar`: the barrier operand of COPYB. -/
def planCopy (pull defer : Bool) (dstS : Slot) (a nS : Src) (tag : Option Nat) (bar : Option Slot) (s : State) : Plan :=
  let k := s.here
  let t := s.cur.tag
  let c := s.cur.core
  let n := k.ctlVal t true nS
  let sva := k.addr t false a
  let dva := k.slotVal t dstS % 2 ^ 56
  let sp := s.peekPas sva n
  let dp := s.peekPas dva n
  let put := defer && k.inSeg
  let hold (k : Core) : Core := (k.holdSrc t false false 0 a).holdCtl t true nS
  let dUse : Use := { useWrite with stg := if put then some true else none }
  let bspan : List (Nat × Nat × Use) := match bar with
    | some o => [(k.slotVal t o % 2 ^ 56, 16, { useWrite with rd := true })]
    | none => []
  if !(k.srcOk t false a && k.srcOk t true nS && k.slotOk t dstS && bar.elim true fun o => k.slotOk t o) then .fault s .illegalOperand
  else if s.ownAcc (sp ++ dp) then .fault s .bufferAccess
  else if n = 0 ∨ 2 ^ 32 ≤ n then .fault s .illegalOperand
  else if (if pull then !s.inSlots dp (fun d => decide (d = c)) else sp.any fun r => decide (r.pa / 2 ^ 44 ≠ s.modId)) then .fault s .illegalOperand
  else s.accessPaired ([(sva, n, useRead), (dva, n, dUse)] ++ bspan)
      (fun as => match as with
        | x :: y :: _ => copyPairs x y
        | _ => false) fun g =>
    let src := cutRuns g.runs 0 n
    let dst := cutRuns g.runs n n
    let bpa := (cutRuns g.runs (2 * n) 16).head?.map fun r => r.pa
    let fixed := g.lat.isSome && !pull
    let outs := !pull && (s.peek dva n dUse).elim false fun p => s.outFault p.1 p.2
    if src.any (fun x => dst.any fun y => x.meets y) then .fault s .copyOverlap
    else if bpa.elim false (fun p => !s.barrierPlace p) then .fault s .bufferAccess
    else if put then
      if 16 ≤ k.deferred.length then .fault s .segmentLegality
      else if s.tagBusy tag then .fault s .tagBusy
      else .go { s := (g.s.takeTag tag).modHere fun k => { (hold k) with deferred := k.deferred ++ [{ src := src, dst := dst, tag := tag, pc := s.hereE.pc }] } }
    else if outs || (!fixed && k.inFixed) || bpa.elim false (fun p => !s.stampOk p) then .fault s .segmentLegality
    else if s.tagBusy tag then .fault s .tagBusy
    else g.s.readOwn (if fixed && s.inSlots src (fun d => decide (d = c)) then src else []) fun s =>
      let s1 := s.takeTag tag
      let sd := s1.srcSide fixed src
      let L := (s.runsLat c src).getD (hbmLat c) + (s.runsLat c dst).getD (hbmLat c) - 2
      let m : Move := { s := s1, lat := if fixed then some L else none, late := g.late, n := n,
                        links := (linksOf c src false ++ linksOf c dst true).eraseDups, src := sd.1, img := sd.2.1, dst := dst, leaves := sd.2.2,
                        fins := (bpa.elim [] fun p => [Fin.barrier p n]) ++ s1.tagFins tag }
      let r := m.start
      .placed (r.s.modHere hold) r.last r.op

def execCopy (f : CopyF) (s : State) : Out := issue s (.copy f) (planCopy false false f.dst f.a f.n (tagOf f.ten f.tag) none)

def execCopyb (f : CopybF) (s : State) : Out := issue s (.copyb f) (planCopy false false f.dst f.a f.n none (some f.bar))

def execCopyd (f : CopyF) (s : State) : Out := issue s (.copyd f) (planCopy false true f.dst f.a f.n (tagOf f.ten f.tag) none)

def execPull (f : CopyF) (s : State) : Out := issue s (.pull f) (planCopy true false f.dst f.a f.n (tagOf f.ten f.tag) none)

end Sys2Proof.Machine
end

