-- ==== Sys2Proof/Machine/Coll.lean ====
section
/-! DEFINITION. Collectives (R264, R385 to R392, R396): the COLL instruction, a contribution's arrival at the collective engine, the exact
reduction, and a result's arrival at a contributor. -/

namespace Sys2Proof.Machine

open Sys2Proof

/-! ### The reduction (R386 to R389) -/

/-- Blocks of COUNT elements. -/
def blocksFor (a : BitVec 5) (n : Nat) : Nat := ceilDiv n (attrBs a)

/-- Bytes of the elements of n elements: whole blocks of a block format. -/
def elemBytes (a : BitVec 5) (n : Nat) : Nat := if attrBlock a then blocksFor a n * attrEb a else ceilDiv (n * attrBits a) 8

/-- The exact decoded value of a contributor's element j. Contributions hold one tile scale for each block. -/
def contribVal (c : Contrib) (j : Nat) : FVal :=
  let a := c.sfmt
  if attrBlock a then
    let b := j / attrBs a
    let v := decElem a (getElem (attrBits a) (c.src.drop (b * attrEb a)) (j % attrBs a)) (leNat ((c.scales.drop (b * attrSb a)).take (attrSb a)))
    if attrT a then (mulV v (dec .fp32 (leNat ((c.tiles.drop (4 * b)).take 4)))).1 else v
  else dec (attrFmt a) (getElem (attrBits a) c.src j)

/-- The exponent of a finite non-zero value. -/
def FVal.exp? : FVal → Option Int
  | .num q => some (ilog2 q)
  | _ => none

/-- The agreed exponent of values; none where none is finite and non-zero (R386). -/
def agreedExp (xs : List FVal) : Option Int := (xs.filterMap FVal.exp?).foldl (fun m e => some (m.elim e fun n => max n e)) none

/-- The integer that a value is quantised to under exponent E (R387). -/
def quantInt (E : Int) (x : FVal) : Int := rneInt (x.toRat * pow2 (39 - E))

/-- Phase 2 for one element of the contributions under the block's exponent: the FP32 code and the flags that all contributors share. -/
def sumEl (E : Option Int) (xs : List FVal) : Nat × Flags :=
  let pos := xs.any fun x => x.isInf && !x.neg
  let neg := xs.any fun x => x.isInf && x.neg
  if xs.any FVal.isNan || (pos && neg) then (Fmt.nan .fp32, fNV)
  else if pos || neg then (rne .fp32 (.inf neg)).1 |> fun c => (c, 0)
  else match E with
    | none => ((rne .fp32 (.zero (xs.all FVal.neg))).1, 0)
    | some E =>
      let Q := (xs.map (quantInt E)).sum
      let under := xs.all fun x => x.neg && decide (quantInt E x = 0)
      rne .fp32 (FVal.ofRat ((Q : Rat) * pow2 (E - 39)) under)

/-- Whether a contributor's own quantisation of an element is inexact (R388). -/
def quantInexact (E : Option Int) (xs : List FVal) (x : FVal) : Bool :=
  match E with
  | none => false
  | some E => !(xs.any fun y => y.isNan || y.isInf) && decide ((quantInt E x : Rat) ≠ x.toRat * pow2 (39 - E))

/-- Bits of an element; bytes for `raw`. -/
def collBits (a : BitVec 5) : Nat := if attrRaw a then 8 else attrBits a

/-- A result as it is written: element bytes, scale bytes, and tile scales, one for each block. -/
structure CollImage where
  els : List Byte
  scales : List Byte
  tiles : List Byte
  flags : Flags

/-- Values converted to DFMT with RNE (R264). -/
def collConvert (d : BitVec 5) (xs : List FVal) : CollImage :=
  if attrBlock d then
    let bs := attrBs d
    let blocks := (List.range (blocksFor d xs.length)).map fun b =>
      quantBlock d (.num 1) none (fun _ => .rne) ((List.range bs).map fun p => xs.getD (b * bs + p) (.zero false))
    { els := blocks.flatMap fun x => packElems (attrBits d) x.1, scales := blocks.flatMap fun x => leBytes (attrSb d) x.2.1,
      tiles := if attrT d then blocks.flatMap fun _ => leBytes 4 0x3F800000 else [], flags := orFlags (blocks.map fun x => x.2.2) }
  else
    let rs := xs.map fun x => rne (attrFmt d) x
    { els := packElems (attrBits d) (rs.map fun r => r.1), scales := [], tiles := [], flags := orFlags (rs.map fun r => r.2) }

/-- Whether two contributions belong to one collective, and whether they agree (R385). -/
def contribSame (a b : Contrib) : Bool :=
  decide (a.collid = b.collid ∧ a.seq = b.seq ∧ a.ncont = b.ncont ∧ a.count = b.count ∧ a.op = b.op ∧ a.sfmt = b.sfmt ∧ a.dfmt = b.dfmt ∧
    a.eblk = b.eblk ∧ a.root = b.root)

/-- The elements of the result of a sum, maximum or minimum with the flags that all contributors share. -/
def collReduce (ps : List Contrib) (f : Contrib) : List FVal × Flags :=
  let col (j : Nat) : List FVal := ps.map fun p => contribVal p j
  let rs := (List.range f.count).map fun j =>
    if f.op < 2 then
      let b := j / f.eblk
      let r := sumEl (agreedExp ((List.range f.eblk).flatMap fun i => if b * f.eblk + i < f.count then col (b * f.eblk + i) else [])) (col j)
      (dec .fp32 r.1, r.2)
    else
      let xs := col j
      ((xs.drop 1).foldl (minmaxV (decide (f.op = 4))) (xs.headD (.zero false)), 0)
  (rs.map fun r => r.1, orFlags (rs.map fun r => r.2))

/-- The result for a rank from the contributions of all ranks, with all its flags (R387 to R389). -/
def collResultFor (parts : List Contrib) (me : Contrib) : CollImage :=
  let ps := (List.range me.ncont).filterMap fun r => parts.find? fun p => decide (p.rank = r)
  if me.op = 6 then { els := [], scales := [], tiles := [], flags := 0 }
  else if me.op = 2 then
    { els := if attrBlock me.sfmt then ps.flatMap fun p => p.src
             else packElems (collBits me.sfmt) (ps.flatMap fun p => (List.range me.count).map fun j => getElem (collBits me.sfmt) p.src j),
      scales := ps.flatMap fun p => p.scales, tiles := ps.flatMap fun p => p.tiles, flags := 0 }
  else if me.op = 3 then
    match ps.find? fun p => decide (p.rank = me.root) with
    | some p => { els := p.src, scales := p.scales, tiles := p.tiles, flags := 0 }
    | none => { els := [], scales := [], tiles := [], flags := 0 }
  else
    let r := collReduce ps me
    let n := me.count / me.ncont
    let part (q : Nat) : List FVal := (r.1.drop (q * n)).take n
    let conv := if me.op = 1 then orFlags ((List.range me.ncont).map fun q => (collConvert me.dfmt (part q)).flags) else (collConvert me.dfmt r.1).flags
    let own := me.op < 2 ∧ (List.range me.count).any fun j =>
      let b := j / me.eblk
      quantInexact (agreedExp ((List.range me.eblk).flatMap fun i => if b * me.eblk + i < me.count then ps.map fun p => contribVal p (b * me.eblk + i) else []))
        (ps.map fun p => contribVal p j) (contribVal me j)
    let img := collConvert me.dfmt (if me.op = 1 then part me.rank else r.1)
    { img with flags := r.2 ||| conv ||| flagIf (decide own) fNX }

/-! ### COLL (R264) -/

/-- What a read at issue meets: the cause and INFO of an uncorrectable unit; correctable ones are healed (R409, R410). -/
def State.readAtIssue (s : State) (fixed : Bool) : List Run → State × Option (Cause × W64)
  | [] => (s, none)
  | r :: rs =>
    match s.eccScan r.pa r.len with
    | (some (u, m), _) =>
      let c : Cause := if isHbm r.pa then .ueHbm else if isHost r.pa then .ueHost else .ueSram
      let info : W64 := BitVec.ofNat 64 (u % 2 ^ 52) ||| (if m = .poisoned then 0x8000_0000_0000_0000#64 else 0)
      let s := if isHbm u then s.countHbm (s.chanOf (u % 2 ^ 44)) true
               else match winCore u with
                 | some c => s.countDie (slotOfCore c)
                 | none => s
      (s, some (c, info))
    | (none, []) => s.readAtIssue fixed rs
    | (none, us) =>
      let s := if rs.any fun x => (s.eccScan x.pa x.len).1.isSome then s else us.foldl (fun (s : State) u =>
        let s : State := { s with ecc := SMap.erase s.ecc u }
        if isHbm u then s.countHbm (s.chanOf (u % 2 ^ 44)) false else s) s
      State.readAtIssue (if fixed && !(rs.any fun x => (s.eccScan x.pa x.len).1.isSome) then s.claim (s.here.grp.getD 0) 3 (some (s.time + 25)) else s) fixed rs

/-- Reads a span at issue; goes on with its bytes. -/
def readSpan (s : State) (va n : Nat) (pair : List (List Run × List (BitVec 16)) → Bool) (k : State → List Byte → List Run → Plan) : Plan :=
  if n = 0 then k s [] []
  else s.accessPaired [(va, n, useRead)] pair fun g =>
    match g.s.readAtIssue g.lat.isSome g.runs with
    | (s, some (c, info)) => .bad s c info none
    | (s, none) => k s (g.runs.flatMap fun r => rdBytes s.memAhead r.pa r.len) g.runs

/-- The fields of a descriptor. -/
structure CollDesc where
  collid : Nat
  seq : Nat
  ncont : Nat
  rank : Nat
  src : Nat
  dst : Nat
  count : Nat
  sfmt : Nat
  dfmt : Nat
  eblk : Nat
  memb : Nat
  root : Nat
  rest : Nat

def collDesc (bs : List Byte) : CollDesc :=
  let g (o n : Nat) : Nat := leNat ((bs.drop o).take n)
  { collid := g 0 8, seq := g 8 4, ncont := g 0xC 2 + 1, rank := g 0xE 2, src := g 0x10 8, dst := g 0x18 8, count := g 0x20 4, sfmt := g 0x24 1,
    dfmt := g 0x25 1, eblk := g 0x26 2, memb := g 0x28 8, root := g 0x30 2, rest := g 0x32 14 }

/-- The field limits of R264: those of the formats among them. -/
def collFieldsOk (op : Nat) (d : CollDesc) : Bool :=
  let s := BitVec.ofNat 5 d.sfmt
  let t := BitVec.ofNat 5 d.dfmt
  let num (a : BitVec 5) : Bool := attrFloat a || attrBlock a
  decide (d.ncont ≤ 4096) && decide (d.rank < d.ncont) && decide (d.rest = 0) &&
  (if op = 6 then decide (d.src = 0 ∧ d.dst = 0 ∧ d.count = 0 ∧ d.sfmt = 0 ∧ d.dfmt = 0 ∧ d.eblk = 0 ∧ d.root = 0)
   else decide (d.sfmt < 32 ∧ d.dfmt < 32) && !attrReserved s && !attrReserved t && (decide (op = 2 ∨ op = 3) || (num s && num t)) &&
     decide (op ≠ 1 ∨ d.count % d.ncont = 0) && decide (op ≠ 3 ∨ d.root < d.ncont) && [32, 64, 128, 256, 512, 1024, 2048, 4096].contains d.eblk)

/-- Elements of a contributor's result. -/
def collOut (op count ncont : Nat) : Nat := if op = 1 then count / ncont else if op = 2 then ncont * count else count

/-- Where elements, scales and tile scales of `blocks` blocks from the block that starts at a VA lie: none if it is no block start in a
range of that format. -/
def State.blockPlaces (s : State) (a : BitVec 5) (va blocks : Nat) : Option (List (Nat × Nat) × Nat) :=
  match s.blockRange va with
  | none => none
  | some r =>
    if awFmt r.attr ≠ a ∨ (va - r.base) % attrEb a ≠ 0 then none
    else
      let b := (va - r.base) / attrEb a
      let t0 := tileSlot (attrBs a) b
      some ([(va, blocks * attrEb a), (r.scaleBase + b * attrSb a, blocks * attrSb a)] ++
        (if attrT a then [(r.tileBase + 4 * t0, 4 * (tileSlot (attrBs a) (b + blocks - 1) + 1 - t0))] else []), b)

/-- The tile scales of blocks b, b + 1, …, one for each block, from those of the plane. -/
def tilesByBlock (a : BitVec 5) (b blocks : Nat) (ts : List Byte) : List Byte :=
  (List.range blocks).flatMap fun i => (ts.drop (4 * (tileSlot (attrBs a) (b + i) - tileSlot (attrBs a) b))).take 4

/-- Pairs with a raw or equal attribute, at SRC as at DST: the spec does not say how SFMT pairs with the attribute of the memory that it is read
from, and the model takes raw memory as a source of any format (DESIGN CHOICE, log entry 101). -/
def fmtIs (a : BitVec 5) (as : List (List Run × List (BitVec 16))) : Bool := (fmtsOf as).all fun x => attrRaw x || decide (x = a)

/-- Spans of a contributor's result: none if DST is no block start in a range of the format. -/
def State.collDst (s : State) (a : BitVec 5) (dst n : Nat) : Option (List (Nat × Nat)) :=
  if n = 0 then some []
  else if attrBlock a then (s.blockPlaces a dst (blocksFor a n)).map fun p => p.1
  else some [(dst, ceilDiv (n * collBits a) 8)]

/-- Whether an earlier open-time operation of the PE's queue still has to write what COLL reads. -/
def State.queueWrites (s : State) (runs : List Run) : Bool :=
  s.flights.any fun f => decide (f.core = s.cur.core) && decide (f.tag = s.cur.tag) && !f.fixed && (match f.work with
    | .collDst _ _ rs => rs
    | w => w.writes).any fun r => runs.any fun x => r.meets x

/-- A span of DST that lies on a SHARED page or in another module, as far as it translates (R264). -/
def State.dstAway (s : State) (dst : List (Nat × Nat)) : Bool :=
  dst.any fun p => (pieces s.here (s.viewOf s.cur.core) p.1 p.2).any fun x => x.hit.elim false fun h => awShared h.attr || decide (h.pa / 2 ^ 44 ≠ s.modId)

/-- The X-die that holds a collective: the other one where that of COLLID is not good (R385, R418). -/
def State.xdieOf (s : State) (collid : Nat) : Nat := if s.dieGood (37 + collid % 2) then collid % 2 else 1 - collid % 2

/-- Ticks within which an `.ars` completes, from the issue of the last contribution to the last tag, where R393 gives a bound. -/
def State.collBound (s : State) (c : Contrib) : Option Nat :=
  let mods := (c.members.map fun w => w % 256).eraseDups
  let B := elemBytes c.sfmt c.count
  if c.op = 0 ∧ mods.length = c.ncont ∧ (s.cregOf 0x348).getLsbD 0 ∧ s.env.quiet then
    ([(2, 1200), (4, 1800), (16, 3400), (64, 5200), (256, 7020)].find? fun p => decide (p.1 = c.ncont)).map fun p =>
      p.2 + if B ≤ 4096 then 0 else 2 * ceilDiv B 3584
  else none

/-- TIME ticks that one of the two ways of a collective takes, to the collective engine and back: a number the program cannot know (R295), of which
two stay within the bound of R393 (DESIGN CHOICE, log entry 103). -/
def State.collTicks (s : State) (c : Contrib) : Nat :=
  let n := Config.openLatency s.free
  1 + match s.collBound c with
    | some b => n % (b / 2)
    | none => n

/-- Puts an operation of the engine at the cursor into flight that lands at a TIME tick. Answers its number. -/
def State.sendOff (s : State) (due : Nat) (w : Work) : State × Nat :=
  (s.addFlight { id := 0, core := s.cur.core, tag := s.cur.tag, grp := s.here.grp.getD 0, due := due, fixed := false, inseg := s.here.inSeg, async := true,
                 pos := s.herePos, pc := s.hereE.pc, work := w }, s.nextId)

/-- COLL after its source is read. Its contribution goes out, and its result keeps its place in the queue (R296). -/
def collSend (f : CollF) (s : State) (d : CollDesc) (words : List Nat) (src scales tiles : List Byte) (dst : List (Nat × Nat)) (runs : List Run)
    (hold : Core → Core) : Plan :=
  let op := f.op.toNat
  let c := s.cur.core
  let a := BitVec.ofNat 5 d.dfmt
  let tag := tagOf f.ten f.tag
  s.accessPaired (dst.map fun p => (p.1, p.2, useWrite)) (fmtIs a) fun g =>
    if s.here.inFixed then .fault s .segmentLegality
    else if s.tagBusy tag then .fault s .tagBusy
    else if s.queueWrites runs then .wait s none true
    else if decide (1024 ≤ (s.colls.filter fun x => decide (x.xdie = s.xdieOf d.collid)).length) &&
        !(s.colls.any fun x => x.parts.any fun p => decide (p.collid = d.collid ∧ p.seq = d.seq)) then .wait s none true
    else
      let me : Contrib := { collid := d.collid, seq := d.seq, ncont := d.ncont, rank := d.rank, count := d.count, op := op, sfmt := BitVec.ofNat 5 d.sfmt,
                            dfmt := a, eblk := d.eblk, root := d.root, members := words, src := src, scales := scales, tiles := tiles, core := some c,
                            dst := d.dst, tag := tag.map fun t => t, inseg := s.here.inSeg, live := true, pc := s.hereE.pc }
      let s1 := g.s.takeTag tag
      let r := ({ s1 with free := s1.free + 1 } : State).sendOff (s.time + s1.collTicks me) (.contrib me)
      .placed (((r.1.bindRegs r.2).sendOff neverTick (.collDst d.collid d.seq g.runs)).1.modHere hold) s.now

/-- COLL. -/
def planColl (f : CollF) (s : State) : Plan :=
  let k := s.here
  let t := s.cur.tag
  let op := f.op.toNat
  let va := k.addr t false f.a
  if !k.srcOk t false f.a then .fault s .illegalOperand
  else if (s.peekPas va 64).any fun r => decide (r.pa / 2 ^ 44 ≠ s.modId) then .fault s .illegalOperand
  else readSpan s va 64 (fun _ => true) fun s bs _ =>
    let d := collDesc bs
    let sf := BitVec.ofNat 5 d.sfmt
    let df := BitVec.ofNat 5 d.dfmt
    let nout := collOut op d.count d.ncont
    let hold (k : Core) : Core := k.holdSrc t false false 0 f.a
    if !collFieldsOk op d then .fault s .illegalOperand
    else readSpan s d.memb (4 * d.ncont) (fun _ => true) fun s ms _ =>
      let words := (List.range d.ncont).map fun i => getElem 32 ms i
      if words.any fun w => decide (2 ^ 16 ≤ w) then .fault s .illegalOperand
      else if op = 6 then collSend f s d words [] [] [] [] [] hold
      else match s.collDst df d.dst nout with
        | none => .fault s .illegalOperand
        | some dst =>
          let blocks := attrBlock sf && decide (d.count ≠ 0)
          let places := s.blockPlaces sf d.src (blocksFor sf d.count)
          if s.dstAway dst || (blocks && places.isNone) then .fault s .illegalOperand
          else if decide (op = 2 ∨ op = 3) && decide (sf ≠ df) then .fault s .format
          else if blocks then
            match places with
            | none => .fault s .illegalOperand
            | some (sp, b) =>
              readSpan s (sp.getD 0 (0, 0)).1 (sp.getD 0 (0, 0)).2 (fmtIs sf) fun s e1 r1 =>
              readSpan s (sp.getD 1 (0, 0)).1 (sp.getD 1 (0, 0)).2 (fmtIs sf) fun s e2 r2 =>
              readSpan s (sp.getD 2 (0, 0)).1 (sp.getD 2 (0, 0)).2 (fmtIs sf) fun s e3 r3 =>
                collSend f s d words e1 e2 (tilesByBlock sf b (if attrT sf then blocksFor sf d.count else 0) e3) dst (r1 ++ r2 ++ r3) hold
          else readSpan s d.src (ceilDiv (d.count * collBits sf) 8) (fmtIs sf) fun s e1 r1 => collSend f s d words e1 [] [] dst r1 hold

def execColl (f : CollF) (s : State) : Out := issue s (.coll f) (planColl f)

/-! ### The collective engine (R385, R390 to R392) -/

/-- Whether a collective is that of a contribution. -/
def Coll.isOf (x : Coll) (c : Contrib) : Bool := x.parts.any fun p => decide (p.collid = c.collid ∧ p.seq = c.seq)

/-- The result of a contribution keeps its place in the queue no longer. -/
def State.dropDst (s : State) (p : Contrib) : State :=
  { s with flights := s.flights.filter fun f => match f.work with
      | .collDst i n _ => !(decide (p.core = some f.core) && decide (i = p.collid) && decide (n = p.seq))
      | _ => true }

/-- A detected error charged to the PE of every contributor of this module whose execution still stands. -/
def State.collError (s : State) (ps : List Contrib) (cause : Cause) (info : W64) : State :=
  ps.foldl (fun s p => match p.core with
    | some c => if p.live then (s.dropDst p).charge { core := c, tag := 6, cause := cause, info := info, pc := some p.pc } none else s
    | none => s) s

/-- Sends a result on its way to a contributor; it arrives at a tick that the program cannot know (R295). -/
def State.deliver (s : State) (p : Contrib) : State :=
  match p.core with
  | none => s
  | some c =>
    if p.live then
      let s := s.addFlight { id := 0, core := c, tag := 6, grp := ((s.core c).grp).getD 0, due := s.time + s.collTicks p, fixed := false,
                             inseg := p.inseg, async := true, pos := 0, pc := p.pc, work := .deliver p }
      { s with free := s.free + 1 }
    else s

/-- Releases collectives whose result every rank has reported (R391). -/
def State.releaseColls (s : State) : State :=
  { s with colls := s.colls.filter fun x => !(x.formed && x.parts.all fun p => x.received.contains p.rank) }

/-- A member module of a contribution's collective that has left the domain (R383). -/
def State.goneMember (s : State) (c : Contrib) : Option Nat :=
  (c.members.map fun w => w % 256).find? fun m => s.members.any fun x => decide (x.id = m) && x.gone

/-- Whether the part of a rank gives way to a repeated contribution: another execution of the rank has issued it, since the one that issued the part
has been discarded. While that one stands, a second core's contribution is a duplicate and no more (R391, R392). -/
def contribYields (p c : Contrib) : Bool := c.core.isSome && (decide (p.core = c.core) || (!p.live && !p.inseg))

/-- A contribution arrives: it forms a collective, joins it, is discarded as a duplicate, or differs from what stands (R264, R385); a collective with a
member that has left ends in an error (R383). -/
def execCollContributionArrival (c : Contrib) (s : State) : Out :=
  match s.goneMember c with
  | some m =>
    .next (({ s with colls := s.colls.filter fun y => !y.isOf c } : State).collError (((s.colls.find? fun x => x.isOf c).elim [] fun x => x.parts) ++ [c])
      .moduleDeparted (BitVec.ofNat 64 m))
  | none =>
  match s.colls.find? fun x => x.isOf c with
  | none =>
    let x : Coll := { xdie := s.xdieOf c.collid, parts := [c], formed := decide (c.ncont = 1), received := if c.core.isNone then [c.rank] else [] }
    .next (if x.formed then ({ s with colls := s.colls ++ [x] } : State).deliver c else { s with colls := s.colls ++ [x] })
  | some x =>
    let old := x.parts.find? fun p => decide (p.rank = c.rank)
    let differs := x.parts.any (fun p => !contribSame p c) ||
      old.elim false fun p => !(decide (p.src = c.src) && decide (p.scales = c.scales) && decide (p.tiles = c.tiles))
    if differs then
      .next (({ s with colls := s.colls.filter fun y => !y.isOf c } : State).collError (x.parts ++ [c]) .collMismatch (BitVec.ofNat 64 c.collid))
    else
      let parts := match old with
        | none => x.parts ++ [c]
        | some o => if contribYields o c then x.parts.map fun p => if p.rank = c.rank then c else p else x.parts
      let full := decide (parts.length = c.ncont)
      let x' : Coll := { x with parts := parts, formed := full, received := if c.core.isNone then (c.rank :: x.received).eraseDups else x.received }
      let s : State := { s with colls := s.colls.map fun y => if y.isOf c then x' else y }
      .next ((if !full then s else if x.formed then (if old.elim true fun o => contribYields o c then s.deliver c else s) else parts.foldl State.deliver s).releaseColls)

/-- Writes bytes at a VA of a core as its translations stand. -/
def State.storeVa (s : State) (c va : Nat) (bs : List Byte) : State :=
  let runs := runsOfPieces (pieces (s.core c) (s.viewOf c) va bs.length)
  s.storeCells ((spreadBytes runs bs).map fun p => (p.2.1, p.2.2))

/-- Marks what a rank has: its result, and with `rep` its report. -/
def Coll.settleRank (x : Coll) (rank : Nat) (rep : Bool) : Coll :=
  { x with parts := x.parts.map fun p => if p.rank = rank then { p with live := false } else p,
           received := if rep then (rank :: x.received).eraseDups else x.received }

/-- The result reaches a contributor: DST is written, the flags and the tag are set; a COLL of a seam reports (R388, R390, R391, R396). -/
def execCollResult (id : Nat) (s : State) : Out :=
  match s.flight id with
  | none => .next s
  | some f =>
    match f.work with
    | .deliver me =>
      let s := (s.dropFlight id).dropDst me
      match s.colls.find? fun x => x.isOf me with
      | none => .next s
      | some x =>
        let img := collResultFor x.parts me
        let n := collOut me.op me.count me.ncont
        let cur : State := { s with cur := { core := f.core, tag := f.tag } }
        let s := if me.op = 6 ∨ n = 0 then s
          else if attrBlock me.dfmt then
            match cur.blockPlaces me.dfmt me.dst (blocksFor me.dfmt n) with
            | none => s
            | some (sp, b) =>
              let s := (s.storeVa f.core (sp.getD 0 (0, 0)).1 img.els).storeVa f.core (sp.getD 1 (0, 0)).1 img.scales
              if attrT me.dfmt then
                (List.range (blocksFor me.dfmt n)).foldl (fun s i => s.storeVa f.core
                  ((sp.getD 2 (0, 0)).1 + 4 * (tileSlot (attrBs me.dfmt) (b + i) - tileSlot (attrBs me.dfmt) b)) ((img.tiles.drop (4 * i)).take 4)) s
              else s
          else s.storeVa f.core me.dst (img.els.take (ceilDiv (n * collBits me.dfmt) 8))
        let s : State := { s with colls := s.colls.map fun y => if y.isOf me then y.settleRank me.rank (!me.inseg) else y }
        let s := s.modCore f.core fun k => k.raise (s.reckOf f.core) img.flags
        .next ((s.signal (me.tag.elim [] fun t => [.tag f.core t])).releaseColls)
    | _ => .next s

end Sys2Proof.Machine
end

