-- ==== Sys2Proof/Machine/Segment.lean ====
section
/-! DEFINITION. Segments: SEG.OPEN, SEG.CLOSE, HALT, the discard of a segment and what re-entry restores (R122, R123, R125, R263, R271,
R310 to R330). -/

namespace Sys2Proof.Machine

open Sys2Proof

/-! ### Cores of a group -/

/-- Whether a core runs a stream (R15, R125). -/
def Core.active (k : Core) : Bool := !k.stream.isEmpty && !k.halted

/-- The descriptors of the shape that a group runs. -/
def State.descsOf (s : State) (g : Group) : List Desc :=
  match s.graphs[g.graph]? with
  | some gr =>
    match gr.nodes[g.node]? with
    | some n => ((n.image.shapes.find? fun x => decide (x.shape = g.shape)).elim [] fun x => x.descs)
    | none => []
  | none => []

/-- Position of a core among the M-cores of its group (R107). -/
def mIndex (g : Group) (c : Nat) : Nat := (g.cores.filter fun x => decide (coreType x = .m)).findIdx fun x => decide (x = c)

/-- Whether the carry mask of a descriptor includes a core (R228). -/
def Desc.carries (d : Desc) (g : Group) (c : Nat) : Bool := decide (coreType c = .m) && d.carry.getLsbD (mIndex g c)

/-! ### Opening (R122, R320) -/

/-- FLAGS with every flag that an instruction which has issued is still to raise. -/
def Core.flagsAll (k : Core) : BitVec 32 := k.flagq.foldl (fun a p => a ||| p.2) k.flags

/-- What SEG.OPEN saves of a core. Results that instructions of the seam have still to commit belong to it: no discard takes them back (R72;
log entry 113). -/
def Core.snapshotAt (k : Core) (ct : CoreType) : Opening :=
  let ts := tagsOf ct
  { pcs := ts.map fun t => (t, (k.engine t).pc), win := k.win, pred := k.pred, vpred := k.vpred, lc := k.lc, bt := k.bt,
    loops := ts.map fun t => (t, (k.engine t).loops.map fun l => { l with fresh := false }), tags := k.tags, flags := k.flagsAll, ckd := k.ckd,
    cb := k.cb.map fun p => (p.1, { p.2 with resv := [] }), nest := k.nest, sign := k.sign, mul := k.mul, tsc := k.tsc, wbank := k.wbank,
    epochs := ts.map fun t => (t, (k.engine t).epoch), pbr := ts.map fun t => (t, (k.engine t).pbrAt) }

/-- Latches empty, epoch flipped, signature and counts zero; no loop is the segment's own. -/
def Engine.opened (e : Engine) : Engine :=
  { e with latA := .empty, latB := .empty, epoch := !e.epoch, sig := 0, dyn := 0, loops := e.loops.map fun l => { l with fresh := false },
           seamDone := max e.seamDone e.doneAt, doneAt := 0 }

/-- A core enters a segment at tick T. A re-entry keeps SEGNO and REENT. -/
def Core.openSeg (k : Core) (ct : CoreType) (ix : Nat) (d : Desc) (T : Nat) (o : Opening) (carry again : Bool) : Core :=
  { k with
    seg := some { ix := ix, desc := d, openAt := T, opening := o, carry := if carry then some (!k.wbank) else none, rel := 0,
                  closed := none },
    segno := if again then k.segno else BitVec.ofNat 32 d.segno, reent := if again then k.reent else 0,
    plane0 := .empty, plane1 := .empty, egress := [], deferred := [],
    eng := (tagsOf ct).foldl (fun m t => SMap.put m t (((SMap.find m t).getD Engine.reset).opened)) k.eng }

/-- Whether an incoming queue of an engine holds a bead of its epoch (R88). -/
def Engine.ownBeads (e : Engine) : Bool := (e.inPrev.q ++ e.inNext.q).any fun b => decide (b.epoch = e.epoch)

def Core.ownBeads (k : Core) (ct : CoreType) : Bool := (tagsOf ct).any fun t => (k.engine t).ownBeads

/-- Whether the word at the pc of a core's CE is SEG.OPEN and every engine has arrived there. -/
def Core.atOpen (k : Core) (c : Nat) : Bool :=
  (k.joined (coreType c)).isSome && (match decode (coreType c) (k.stream.drop (k.engine 0).pc) with
    | .instr (.segOpen _) _ _ => true
    | _ => false)

/-- The checks of an opening: the fault, if any. -/
def openFaultOf (s : State) (g : Group) (d : Nat) : Option Cause :=
  let c := s.cur.core
  let k := s.here
  match (s.descsOf g)[d]? with
  | none => some .illegalOperand
  | some desc =>
    if k.ownBeads s.ct then some .segmentLegality
    else if desc.carries g c && !k.carryok then some .segmentLegality
    else none

/-- Frames that groups have reserved (R373). -/
def State.committed (s : State) : Nat := (s.groups.map fun g => g.foot).sum

/-- What the first core of a group to open a segment does for the group: the opening count, an edge, the footprint, the buffers of cores that have
halted (R156, R267, R373, R375). -/
def State.openGroup (s : State) (g : Group) (foot : Nat) : State :=
  let cbs := (g.cores.filter fun c => !(s.core c).active).map fun c => (c, (s.core c).cb)
  (s.modGroup g.num fun x => { x with openings := x.openings + 1, foot := foot, cbs := cbs }).edge g.num

/-- SEG.OPEN. -/
def planSegOpen (d : BitVec 28) (s : State) : Plan :=
  let c := s.cur.core
  let k := s.here
  match s.groupOf c with
  | none => .stall s
  | some g =>
    if k.inSeg then .fault s .segmentLegality
    else if g.pend.isSome ∨ s.asyncFixed c then .stall s
    else if s.asyncOpen c then .wait s (some 7) true
    else match g.leave, openFaultOf s g d.toNat with
    | some l, _ =>
      if g.cores.all fun x => !(s.core x).active || (s.core x).atOpen x then
        .wait (s.modGroup g.num fun x => { x with pend := some { tick := g.reck + 1, core := c, also := none, after := (match l with
          | .checkpoint n => .checkpoint n none
          | .vanish => .vanish) } }) none false
      else .stall s
    | none, some e => .fault s e
    | none, none =>
      match (s.descsOf g)[d.toNat]? with
      | none => .stall s
      | some desc =>
        let first := decide (k.openings = g.openings)
        if first ∧ desc.foot ≠ 0 ∧ s.freef - s.committed < desc.foot then
          .wait (s.modGroup g.num fun x => { x with pend := some { tick := g.reck + 1, core := c, also := none, after := .checkpoint 1 none } }) none false
        else
          let o := k.snapshotAt s.ct
          let s := if first then s.openGroup g desc.foot else s
          let n := (s.group g.num).elim 0 fun x => x.openings
          let T := s.now
          let s := s.joinIssue (.segOpen d) false
          let s := s.modHere fun k => { (k.openSeg (coreType c) d.toNat desc T o (desc.carries g c) false) with openings := n }
          .go { s := s.trace 1 g.num c 0xFF desc.segno d.toNat }

def execSegOpen (d : BitVec 28) (s : State) : Out := join s (.segOpen d) (planSegOpen d)

/-! ### Closing (R123, R271, R301, R321, R322) -/

/-- Whether an engine with these loops at `pc` has nothing left to issue but NOPs before SEG.CLOSE. -/
def quietTail (ct : CoreType) (stream : List W32) (t : Nat) (ls : List LoopSt) : Nat → Nat → Bool
  | 0, _ => false
  | n + 1, pc =>
    let ends (len : Nat) : Bool := ls.any fun l => decide (pc ≤ l.last) && decide (l.last < pc + len)
    match decode ct (stream.drop pc) with
    | .instr .segClose _ _ => true
    | .instr (.nop _) len _ => !ends len && quietTail ct stream t ls n (pc + len)
    | .instr i len tag => !ends len && !isAll i && decide (tag ≠ t) && quietTail ct stream t ls n (pc + len)
    | .bad _ _ => false

/-- Whether a core of the group can still bring effects of the segment about. -/
def State.mayEffect (s : State) (g : Group) (c : Nat) : Bool :=
  let k := s.core c
  k.active && !k.parked && (if k.inSeg then (tagsOf (coreType c)).any fun t =>
      let e := k.engine t
      e.arrived.isNone && !quietTail (coreType c) k.stream t e.loops (k.stream.length + 1) e.pc
    else decide (k.openings ≠ g.openings))

/-- Whether what a core has issued in the open segment has committed before the present tick. -/
def State.coreDone (s : State) (g : Group) (c : Nat) : Bool :=
  let k := s.core c
  !k.inSeg || k.parked ||
  (k.nestRun.isNone && (tagsOf (coreType c)).all fun t => (k.engine t).hold.isNone && decide ((k.engine t).doneAt < g.reck))

/-- Whether every effect of the open segment of a group has committed before the present tick. -/
def State.segDone (s : State) (g : Group) : Bool :=
  !(s.flights.any fun f => decide (f.grp = g.num) && f.inseg) &&
  !(s.colls.any fun x => x.parts.any fun p => p.inseg && p.live && (p.core.elim false fun c => g.cores.contains c)) &&
  g.cores.all fun c => !s.mayEffect g c && s.coreDone g c

/-- The group signature (R321). -/
def State.groupSig (s : State) (g : Group) : W64 :=
  g.cores.foldl (fun x c => if (s.core c).stream.isEmpty then x else (tagsOf (coreType c)).foldl (fun x t => x ^^^ ((s.core c).engine t).sig) x) 0

/-- Whether every core of the group but the one at the cursor has issued its SEG.CLOSE of the open segment. -/
def State.othersClosed (s : State) (g : Group) : Bool :=
  g.cores.all fun c => decide (c = s.cur.core) || !((s.core c).inSeg && (s.core c).active) || (s.core c).parked

/-- The closing checks of a FIXED segment: INFO of the mismatch (R322, R421). Each core compares its tick count; the last to close compares the
signature. -/
def State.closeCheck (s : State) (g : Group) (sg : Seg) : Option W64 :=
  if sg.desc.openKind then none
  else
    let own := s.segTick s.cur.core
    let ticks := decide (own ≠ sg.desc.ticks)
    let sig := s.othersClosed g && decide (s.groupSig g ≠ sg.desc.sig)
    if ticks || sig then some (BitVec.ofNat 32 0 ++ BitVec.ofNat 32 own ||| (if ticks then 0x1_0000_0000#64 else 0) ||| (if sig then 0x2_0000_0000#64 else 0))
    else none

/-- Whether a PA lies in a write-blocked page of the core's job (R377). -/
def State.blockedPage (s : State) (c pa : Nat) : Option Nat :=
  ((s.viewOf c).leaves.find? fun l => awWb l.attr && decide (l.pa ≤ pa ∧ pa < l.pa + l.size)).map fun l => l.va

/-- Pages under migration that the commit of a core would write. -/
def State.coreBlocked (s : State) (c : Nat) : List Nat :=
  let k := s.core c
  let pas : List Nat := (k.egress.map fun e => (match e with
    | .store l _ => l
    | .atomn pa _ _ _ => pa)) ++ k.deferred.flatMap fun d => d.dst.map fun r => r.pa
  pas.filterMap fun a => s.blockedPage c a

/-- Pages under migration that the commit of a group would write. -/
def State.commitBlocked (s : State) (g : Group) : List Nat := g.cores.flatMap fun c => s.coreBlocked c

/-- A core whose egress stage, which it is to commit, reads uncorrectable (R329). -/
def State.stageBad (s : State) (g : Group) : Option Nat :=
  g.cores.find? fun c => !(s.core c).egress.isEmpty && (s.core c).ecc.contains (.stage, true)

/-- The egress stages of a group are read: corrected words claim the freeze of R410. -/
def State.readStages (s : State) (g : Group) : State :=
  if g.cores.any fun c => !(s.core c).egress.isEmpty && (s.core c).ecc.contains (.stage, false) then
    (g.cores.foldl (fun s c => s.modCore c fun k => { k with ecc := k.ecc.filter fun p => decide (p.1 ≠ .stage) }) s).claim g.num 3 (some (s.time + 25))
  else s

/-- Writes at physical addresses clear CARRYOK of the cores whose accumulator banks they touch (R228). -/
def State.noteBanks (s : State) (pas : List Nat) : State :=
  ((pas.filterMap fun a => (s.bankAt a).map fun b => b.1).eraseDups).foldl (fun s c => s.modCore c fun k => { k with carryok := false }) s

/-- An atomic on memory at a PA. -/
def State.atomAt (s : State) (pa aop : Nat) (s64 : Bool) (x : Nat) : State :=
  let n := szBits s64 / 8
  (s.store pa (leBytes n (atomNew aop (szBits s64) (rdLe s.mem pa n) x))).noteBanks [pa]

/-- Counts the lines of a staged write that commits (R376). -/
def State.countPa (s : State) (c pa : Nat) : State :=
  match (s.viewOf c).leaves.find? fun l => decide (l.pa ≤ pa ∧ pa < l.pa + l.size) with
  | some l =>
    let a := match (s.viewOf c).ranges.find? fun r => decide (r.base ≤ l.va ∧ l.va < r.limit) with
      | some r => r.attr
      | none => l.attr
    if awCnt a then s.countPage ((s.jobOf c).elim 0 fun j => j.handle) l.va 1 else s
  | none => s

/-- Applies the staged entries of a core in the order they were opened; an atomic on an uncorrectable line is not performed (R147, R329). -/
def State.commitStage (s : State) (c pc : Nat) : List StageEnt → State
  | [] => s
  | .store l ns :: r => (((s.storeNibs ns).noteBanks (ns.map fun p => p.1 / 2)).countPa c l).commitStage c pc r
  | .atomn pa aop s64 x :: r =>
    match s.consume c 0 pa (szBits s64 / 8) false (some pc) with
    | (s, true) => ((s.atomAt pa aop s64 x).countPa c pa).commitStage c pc r
    | (s, false) => s.commitStage c pc r

/-- Starts the deferred copies of the core at the cursor, in issue order (R263). -/
def State.startDeferred (s : State) : List DefCopy → State
  | [] => s
  | d :: r =>
    let ok := d.src.foldl (fun (p : State × Bool) x => if p.2 then p.1.consume s.cur.core 6 x.pa x.len false (some d.pc) else p) (s, true)
    let s := ok.1
    if ok.2 then
      let n := (d.src.map fun x => x.len).sum
      let img := d.src.flatMap fun x => rdBytes s.mem x.pa x.len
      let links := (linksOf s.cur.core d.src false ++ linksOf s.cur.core d.dst true).eraseDups
      let q := s.launch none true (d.src ++ d.dst) (.copy [] img d.dst links (s.now + ceilDiv n 256) d.src (s.tagFins d.tag))
      let s : State := { q.1 with flights := q.1.flights.map fun f => if f.id = q.2 then { f with pc := d.pc } else f }
      s.startDeferred r
    else s.startDeferred r

/-- Reports of collectives whose results a core has had in a segment that closes (R391). -/
def State.reportColls (s : State) (c : Nat) : State :=
  let ranks (x : Coll) : List Nat := (x.parts.filter fun p => decide (p.core = some c) && p.inseg && !p.live).map fun p => p.rank
  ({ s with colls := s.colls.map fun x => { x with received := (ranks x ++ x.received).eraseDups } } : State).releaseColls

/-- The core at the cursor issues SEG.CLOSE: it has closed its part of the segment. -/
def State.closeCore (s : State) (g : Group) (ix segno : Nat) : State :=
  let c := s.cur.core
  let pc := (s.here.engine 0).pc
  ((s.joinIssue .segClose false).modHere fun k => { k with seg := k.seg.map fun x => { x with closed := some pc } }).trace 2 g.num c 0xFF segno ix

/-- An engine after the commit of the segment at tick `T`: it goes on at its first issue opportunity after `T`. -/
def Engine.shut (e : Engine) (T d : Nat) : Engine :=
  { e with epoch := !e.epoch, seam := 0, dyn := 0, nextAt := if e.nextAt ≤ T then e.nextAt + ((T - e.nextAt) / d + 1) * d else e.nextAt }

/-- The commit of a group's segment, as one event (R301): every staged entry applies, core by core; then the deferred copies start; the group's
registrations and reservation end, and it passes an edge (R307, R373, R375). -/
def State.commitGroup (s : State) (g : Group) : State :=
  let cur := s.cur
  let cs := (g.cores.filter fun c => (s.core c).inSeg).map fun c => (c, s.core c)
  let s := s.readStages g
  let s := cs.foldl (fun s p => s.modCore p.1 fun k =>
    { k with seg := none, egress := [], deferred := [], eng := k.eng.map fun e => (e.1, e.2.shut g.reck (k.div e.1)) }) s
  let s := cs.foldl (fun s p => s.commitStage p.1 ((p.2.seg.bind fun x => x.closed).getD 0) p.2.egress) s
  let s := cs.foldl (fun (s : State) p => ({ s with cur := { core := p.1, tag := 6 } } : State).startDeferred p.2.deferred) s
  let s := cs.foldl (fun s p => s.reportColls p.1) s
  let s : State := { s with cur := cur }
  ((s.raceRelease g.num fun r => r.flight.isNone).modGroup g.num fun x => { x with foot := 0, cbs := [] }).edge g.num

/-- SEG.CLOSE. Where other cores of the group have not closed, the core waits for the commit behind its word. -/
def planSegClose (s : State) : Plan :=
  let k := s.here
  match s.groupOf s.cur.core, k.seg with
  | some g, some sg =>
    if (tagsOf s.ct).any fun t => (k.engine t).loops.any fun l => l.fresh then .fault s .segmentLegality
    else if k.ownBeads s.ct then .fault s .segmentLegality
    else if g.pend.isSome then .stall s
    else if !s.segDone g then .wait s none (s.flights.any fun f => decide (f.grp = g.num) && f.inseg && !f.fixed)
    else match s.closeCheck g sg with
    | some info => .wait (s.charge { core := g.cores.headD s.cur.core, tag := 0, cause := .checkMismatch, info := info } none) none false
    | none =>
      if !s.othersClosed g then .go { s := s.closeCore g sg.ix k.segno.toNat }
      else match s.stageBad g with
      | some c => .wait ((s.countDie (slotOfCore c)).charge { core := c, tag := 0, cause := .controlWord, info := 0 } none) none false
      | none =>
        match s.commitBlocked g with
        | [] => .go { s := (s.closeCore g sg.ix k.segno.toNat).commitGroup g }
        | vs => .wait (vs.foldl (fun s v => s.switchPage g.num v) s) (some 5) true
  | _, _ => .fault s .segmentLegality

def execSegClose (s : State) : Out := join s .segClose planSegClose

/-! ### HALT (R125) -/

/-- HALT. -/
def planHalt (s : State) : Plan :=
  let c := s.cur.core
  match s.groupOf c with
  | none => .stall s
  | some g =>
    if s.here.inSeg then .fault s .segmentLegality
    else if s.asyncFixed c then .stall s
    else if s.asyncOpen c then .wait s none true
    else if g.leave = some .vanish then
      .wait (s.modGroup g.num fun x => { x with pend := some { tick := g.reck + 1, core := c, after := .vanish, also := none } }) none false
    else .go { s := (s.joinIssue .halt true).modHere fun k => { k with halted := true } }

def execHalt (s : State) : Out := join s .halt planHalt

/-! ### Discard (R244, R267, R323 to R325) -/

/-- FREC2 at a discard (R420). -/
def Core.frec2 (k : Core) : W64 :=
  BitVec.ofNat 64 (k.passes % 2 ^ 32 + (if k.stoppedN ∨ k.nestRun.isSome then 2 ^ 32 else 0) + (if k.nestRun.isSome then 2 ^ 33 else 0) +
    (if bitN k.passes 32 then 2 ^ 34 else 0))

/-- A core at a discard at tick X: results of the segment that would commit at X or later are not made, the nest and the loads stop. -/
def Core.discardAt (k : Core) (ct : CoreType) (X : Nat) : Core :=
  let r := k.frec2
  let seam := k.busy.filter fun b => b.seam
  let k := { k with busy := k.busy.filter fun b => !b.seam }.settled (X - 1)
  { k with
    flags := k.flagsAt (X - 1), flagq := [], sysq := [], busy := seam, nestRun := none, stoppedN := k.stoppedN || k.nestRun.isSome,
    plane0 := if k.plane0.st = 1 then .empty else k.plane0, plane1 := if k.plane1.st = 1 then .empty else k.plane1,
    frec := if ct = .m then SMap.set 0 k.frec 2 r else k.frec,
    egress := [], deferred := [], tagOps := [], ports := [], deRead := 0,
    cb := k.cb.map fun p => (p.1, { p.2 with resv := [] }),
    eng := k.eng.map fun p => (p.1, { p.2 with hold := none, owed := [], waits := none, arrived := none, since := none, openWait := false, primed := false, asked := false }) }

/-- What is left of a cancelled operation (R267, R326; log entry 108): the requests that are outstanding, which drain without effect. Of a transfer
of fixed time those are the requests placed before the present tick. -/
def Flight.cancelled (f : Flight) (now : Nat) : Option Flight :=
  let drain (due : Nat) : Option Flight := some { f with due := due, inseg := false, async := false, work := .drained }
  match f.work with
  | .contrib c => some { f with inseg := false, async := false, work := .contrib { c with live := false, inseg := false } }
  | .load _ _ _ _ _ _ _ _ | .fill _ _ _ _ | .write _ _ | .nibbles _ | .atomic _ _ _ _ _ _ _ _ _ | .arrive _ _ | .late _ | .walk _ _ | .drained => drain f.due
  | .copy _ _ _ _ last _ _ => drain (if f.fixed then min f.due (now + (f.due - last)) else f.due)
  | _ => none

/-- Operations in progress of a group that are cancelled: those of the segment, or in a seam all of them. Contributions of collectives
stay at the collective engine, and copies of an earlier commit run on where a segment is discarded (R267, R329). -/
def State.cancelOps (s : State) (g : Group) (inseg : Bool) : State :=
  let mine (f : Flight) : Bool := decide (f.grp = g.num) && (!inseg || f.inseg)
  { s with
    flights := s.flights.filterMap fun f => if mine f then f.cancelled g.reck else some f,
    colls := s.colls.map fun x => { x with parts := x.parts.map fun p =>
      if (p.core.elim false fun c => g.cores.contains c) && (!inseg || p.inseg) then { p with live := false, inseg := false } else p } }

/-- Circular buffers as a core of a discarded segment had them at its opening: those of a core that had halted too (R267, R325). -/
def Core.cbBack (k : Core) (cbs : Option (SMap Cb)) : Core := { k with cb := k.seg.elim (cbs.getD k.cb) fun sg => sg.opening.cb }

/-- A discard of a group's segment, or the end of its unit in a seam. Registrations of accesses of the seam that are still in progress stay
(R307). -/
def State.discard (s : State) (g : Group) (inseg : Bool) : State :=
  let s := s.cancelOps g inseg
  let s := g.cores.foldl (fun s c => s.modCore c fun k =>
    let k := k.discardAt (coreType c) g.reck
    if inseg then k.cbBack (SMap.find g.cbs c) else k) s
  let lives := (s.flights.filter fun f => f.work ≠ .drained).map fun f => f.id
  let s := s.raceRelease g.num fun r => r.flight.elim true fun id => !lives.contains id
  (s.modGroup g.num fun x => { x with foot := 0, cbs := [], bar := none, claims := x.claims.filter fun c => decide (c.src ≠ 5 ∧ c.src ≠ 6 ∧ c.src ≠ 7) }).edge g.num

/-- An opening that is re-entered `n` ticks later: PBRs of the seam count from as many ticks later (R117, R326). -/
def Opening.shifted (o : Opening) (n : Nat) : Opening := { o with pbr := o.pbr.map fun p => (p.1, p.2.map fun q => (q.1, q.2 + n)) }

/-- What a core's engine holds at a re-entered opening. -/
def Engine.restored (e : Engine) (o : Opening) (t : Nat) : Engine :=
  { e with
    pc := SMap.get 0 o.pcs t, loops := (SMap.find o.loops t).getD [], epoch := (SMap.find o.epochs t).getD false, latA := .empty, latB := .empty,
    inPrev := .empty, inNext := .empty, outq := [], owed := [], hold := none, arrived := none, since := none, openWait := false, primed := false, asked := false,
    waits := none, idx := 0, pos := 0, pos0 := 0, sig := 0, dyn := 0, pbrAt := (SMap.find o.pbr t).getD [], links := [] }

/-- The state of an opening restored on a core (R325). CB buffers keep what CBSET configures: PROD, CONS and ATTR return. -/
def Core.restore (k : Core) (ct : CoreType) (o : Opening) : Core :=
  { k with
    win := o.win, pred := o.pred, vpred := o.vpred, lc := o.lc, bt := o.bt, tags := o.tags, tagOps := [], flags := o.flags, flagq := [], ckd := o.ckd,
    cb := o.cb, nest := o.nest, sign := o.sign, mul := o.mul, tsc := o.tsc, wbank := o.wbank, plane0 := .empty, plane1 := .empty, nestRun := none,
    egress := [], deferred := [], path := [], base := k.base + ((tagsOf ct).foldl (fun m t => max m (k.engine t).pos) 0), ports := [], deRead := 0,
    eng := (tagsOf ct).foldl (fun m t => SMap.put m t (((SMap.find m t).getD Engine.reset).restored o t)) k.eng }

/-- The seam of an opening: what a checkpoint of a core saves, at its open segment or, at a SEG.OPEN that has not issued, as it would be
saved (R122, R328). -/
def State.openingOf (s : State) (c : Nat) : Opening :=
  match (s.core c).seg with
  | some sg => sg.opening
  | none => (s.core c).snapshotAt (coreType c)

/-- Overwrites the working bank with the carry bank (R228). -/
def State.copyCarry (s : State) (c : Nat) : State :=
  let w := (s.core c).wbank
  let off (b : Bool) : Nat := if b then 0x4_0000 else 0
  (s.store (s.bufPa c 2 (off w)) (rdBytes s.mem (s.bufPa c 2 (off (!w))) 0x4_0000)).modCore c fun k => { k with carryok := true }

/-- The re-entered SEG.OPEN issues on every core of the group that was in the segment (R325, R326). -/
def State.reopen (s : State) (g : Group) : State :=
  let s := (s.modGroup g.num fun x => { x with openings := x.openings + 1, reenter := none }).edge g.num
  let n := (s.group g.num).elim 0 fun x => x.openings
  g.cores.foldl (fun s c =>
    match (s.core c).seg with
    | none => s
    | some sg =>
      let T := s.reckOf c
      let o := sg.opening.shifted (T - sg.openAt)
      let s := s.modCore c fun k => k.restore (coreType c) o
      let s := (tagsOf (coreType c)).foldl (fun s t => s.leave c t 2 none) s
      let go (k : Core) (p : Nat × Engine) : Nat × Engine := (p.1, { p.2 with idx := 0, pos := 0, pos0 := 0, nextAt := T + k.div p.1, lastAt := some T, doneAt := T })
      let s := s.modCore c fun k =>
        let k : Core := { k with path := [], eng := k.eng.map (go k) }
        { (k.openSeg (coreType c) sg.ix sg.desc T o false true) with openings := n }
      let s := s.modCore c fun k => { k with seg := k.seg.map fun x => { x with carry := sg.carry } }
      let s := if sg.carry.isSome then s.copyCarry c else s
      (s.modGroup g.num fun x => { x with foot := sg.desc.foot }).trace 1 g.num c 0xFF (s.core c).segno.toNat sg.ix) s

end Sys2Proof.Machine
end

