-- ==== Sys2Proof/Machine/Image.lean ====
section
/-! DEFINITION. Images: job memory as the scheduler reaches it, the task image and its checks (R108 to R110, R310 to R313, R339, R340), the
launch parameter block (R341) and the unit order (R343). -/

namespace Sys2Proof.Machine

open Sys2Proof

/-! ### Job memory (R347, R358, R360, R364) -/

def State.job (s : State) (h : Nat) : Option Job := s.jobs.find? fun j => decide (j.handle = h)

/-- A core that holds the heap registers of a job, as translation reads them. -/
def Job.heapCore (j : Job) : Core := { Core.reset 0 with heapb := j.heapb, heapl := j.heapl, heapo := j.heapo }

/-- The job's own translations, pending changes apart. -/
def Job.base (j : Job) : View := { ranges := j.ranges, leaves := j.leaves, revoked := j.revoked }

/-- The runs of a span through a heap and a view if every byte is translated, present, live and allowed, in one region. -/
def State.runsBy (s : State) (k : Core) (v : View) (va n : Nat) (ok : BitVec 16 → Bool) : Option (List Run) :=
  let ps := pieces k v va n
  let runs := runsOfPieces ps
  if (ps.all fun p => p.hit.elim false fun h => !h.revoked && ok h.attr && h.leaf.elim true fun l => l.pres) && decide (va + n ≤ 2 ^ 56) &&
      (s.regionCheck runs false).isNone then some runs else none

/-- The runs of a span through the job's translations. -/
def State.jobRuns (s : State) (j : Job) (va n : Nat) (ok : BitVec 16 → Bool) : Option (List Run) := s.runsBy j.heapCore j.base va n ok

/-- Bytes of a span of a job. -/
def State.jobRead (s : State) (j : Job) (va n : Nat) (ok : BitVec 16 → Bool) : Option (List Byte) :=
  if n = 0 then some [] else (s.jobRuns j va n ok).map fun rs => rs.flatMap fun r => rdBytes s.mem r.pa r.len

/-- Writes bytes to a span of a job. -/
def State.jobWrite (s : State) (j : Job) (va : Nat) (bs : List Byte) (ok : BitVec 16 → Bool) : Option State :=
  (s.jobRuns j va bs.length ok).map fun rs => s.storeCells ((spreadBytes rs bs).map fun p => (p.2.1, p.2.2))

def awRw (a : BitVec 16) : Bool := awR a && awW a

/-! ### The task image -/

/-- A little-endian field of a byte list. -/
def fieldAt (bs : List Byte) (o n : Nat) : Nat := leNat ((bs.drop o).take n)

/-- Entries of a table. -/
def tableAt {α : Type} (f : List Byte → Option α) (size n : Nat) (bs : List Byte) : Option (List α) :=
  (List.range n).mapM fun i => f ((bs.drop (size * i)).take size)

/-- A range record (R311): none where it breaks the rule. -/
def rngOf (bs : List Byte) : Option Rng :=
  let b := fieldAt bs 0 8
  let l := fieldAt bs 8 4
  if b % 64 = 0 ∧ b < 2 ^ 56 ∧ l ≠ 0 then some { base := b, len := 64 * l } else none

/-- The used records of a range field; the rest are zero. -/
def rngsOf (bs : List Byte) (cap n : Nat) : Option (List Rng) :=
  if (bs.drop (12 * n)).take (12 * (cap - n)) |>.all fun b => decide (b = 0) then (List.range n).mapM fun i => rngOf ((bs.drop (12 * i)).take 12) else none

def Rng.laps (a b : Rng) : Bool := decide (a.base < b.base + b.len) && decide (b.base < a.base + a.len)

/-- Pairs of a list, each with every later element. -/
def pairsOf {α : Type} : List α → List (α × α)
  | [] => []
  | a :: r => (r.map fun b => (a, b)) ++ pairsOf r

/-- M-, V-, G- and B-dies of a shape (R337). -/
def shapeDies (shape : Nat) : Nat × Nat × Nat × Nat :=
  match shape with
  | 0 => (16, 8, 4, 8)
  | 1 => (8, 4, 2, 4)
  | 2 => (4, 2, 1, 2)
  | _ => (2, 1, 0, 1)

/-- Cores of a shape by type, in the order of R107. -/
def shapeCores (shape : Nat) : List CoreType :=
  let d := shapeDies shape
  List.replicate (8 * d.1) .m ++ List.replicate (8 * d.2.1) .v ++ List.replicate (8 * d.2.2.1) .g ++ List.replicate (4 * d.2.2.2) .b

/-- A segment descriptor (R310, R313); `m` M-cores. -/
def descOf (m : Nat) (bs : List Byte) : Option Desc :=
  let fl := fieldAt bs 1 1
  let np := fieldAt bs 2 1
  let ns := fieldAt bs 3 1
  let open' := decide (fieldAt bs 0 1 = 1)
  let ticks := fieldAt bs 8 4
  let sig := fieldAt bs 0x10 8
  if 1 < fieldAt bs 0 1 ∨ 1 < fl ∨ 4 < np ∨ 2 < ns ∨ 256 < fieldAt bs 0x18 2 ∨ 4096 < fieldAt bs 0x1A 2 ∨ 2 ^ m ≤ fieldAt bs 0x28 16 ∨
      (open' = true ∧ (ticks ≠ 0 ∨ sig ≠ 0)) ∨ (open' = false ∧ ticks = 0) then none
  else
    match rngsOf ((bs.drop 0x38).take 48) 4 np, rngsOf ((bs.drop 0x68).take 24) 2 ns with
    | some ps, some ss =>
      if (pairsOf ss).any (fun p => p.1.laps p.2) || ps.any fun p => ss.any fun x => p.laps x then none
      else some { openKind := open', eqp := decide (fl = 1), segno := fieldAt bs 4 4, ticks := ticks, estim := fieldAt bs 0xC 4, sig := BitVec.ofNat 64 sig,
                  egress := fieldAt bs 0x18 2, shlines := fieldAt bs 0x1A 2, foot := fieldAt bs 0x1C 4, livein := BitVec.ofNat 64 (fieldAt bs 0x20 8),
                  carry := BitVec.ofNat 128 (fieldAt bs 0x28 16), prot := ps, scr := ss }
    | _, _ => none

/-- Whether a buffer configuration is within the limits of CBSET on a core type (R167). -/
def cbLimits (ct : CoreType) (space base ents size : Nat) (attr : BitVec 5) : Bool :=
  match bufOf ct space with
  | none => false
  | some b => decide (space ≠ 2 ∧ base % 64 = 0 ∧ 1 ≤ ents ∧ ents ≤ 4096 ∧ size % 64 = 0 ∧ size ≠ 0 ∧ size / 64 < 4096 ∧ base + ents * size ≤ b.2) &&
      !attrReserved attr && (!attrBlock attr || decide (blocksPer attr size ≠ 0))

/-- An initialisation record for cores of the given types (R110). -/
def initOf (img : List Byte) (cts : List CoreType) (bs : List Byte) : Option InitRec :=
  let kind := fieldAt bs 0 1
  let r : InitRec := { kind := kind, tag := fieldAt bs 1 1, index := fieldAt bs 2 1, fmt := BitVec.ofNat 5 (fieldAt bs 3 1), a := fieldAt bs 4 4, b := fieldAt bs 8 8,
                       c := fieldAt bs 0x10 8, d := fieldAt bs 0x18 8, bytes := [] }
  let f := fieldAt bs 3 1
  if kind = 1 then
    if f = 0 ∧ r.a = 0 ∧ r.c = 0 ∧ r.d = 0 ∧ r.index < 4 ∧ r.b < 2 ^ 15 ∧ cts.all (fun ct => hasTag ct r.tag) then some r else none
  else if kind = 2 then
    if r.tag = 0 ∧ r.index < 16 ∧ f < 32 ∧ cts.all (fun ct => cbLimits ct r.a r.b r.c r.d r.fmt) then some r else none
  else if kind = 3 then
    if r.tag = 0 ∧ r.index = 0 ∧ f = 0 ∧ r.d % 64 = 0 ∧ r.d + r.c ≤ img.length ∧ cts.all (fun ct => (bufOf ct r.a).elim false fun b => decide (r.b + r.c ≤ b.2)) then
      some { r with bytes := (img.drop r.d).take r.c } else none
  else none

/-- A stream record of a shape (R109). -/
def streamOf (img : List Byte) (shape : Nat) (bs : List Byte) : Option StreamRec :=
  let cores := fieldAt bs 0 32
  let code := fieldAt bs 0x20 8
  let nw := fieldAt bs 0x28 4
  let ni := fieldAt bs 0x2C 4
  let ini := fieldAt bs 0x30 8
  let cts := (shapeCores shape).zipIdx.filterMap fun p => if bitN cores p.2 then some p.1 else none
  if fieldAt bs 0x38 8 ≠ 0 ∨ nw = 0 ∨ 2 ^ 28 < nw ∨ code % 64 ≠ 0 ∨ img.length < code + 4 * nw ∨ ini % 64 ≠ 0 ∨ img.length < ini + 32 * ni ∨
      2 ^ (shapeCores shape).length ≤ cores then none
  else (tableAt (initOf img cts) 32 ni (img.drop ini)).map fun is =>
    { cores := BitVec.ofNat 256 cores, words := (List.range nw).map fun i => BitVec.ofNat 32 (fieldAt img (code + 4 * i) 4), inits := is }

/-- A shape entry (R109). -/
def shapeOf (img : List Byte) (bs : List Byte) : Option ShapeSched :=
  let shape := fieldAt bs 0 1
  let n := fieldAt bs 4 4
  let st := fieldAt bs 8 8
  let dt := fieldAt bs 0x10 8
  let nd := fieldAt bs 0x18 4
  if 3 < shape ∨ fieldAt bs 1 3 ≠ 0 ∨ fieldAt bs 0x1C 4 ≠ 0 ∨ st % 64 ≠ 0 ∨ dt % 64 ≠ 0 ∨ img.length < st + 64 * n ∨ img.length < dt + 128 * nd then none
  else
    match tableAt (streamOf img shape) 64 n (img.drop st), tableAt (descOf (8 * (shapeDies shape).1)) 128 nd (img.drop dt) with
    | some ss, some ds =>
      if (pairsOf ss).any fun p => decide (p.1.cores &&& p.2.cores ≠ 0) then none else some { shape := shape, streams := ss, descs := ds }
    | _, _ => none

/-- A map record (R339, R340). -/
def mapOf (bs : List Byte) : Option MapRec :=
  let r : MapRec := { src := fieldAt bs 0 1, dst := fieldAt bs 1 1, kind := fieldAt bs 2 1, score := fieldAt bs 3 1, dcore := fieldAt bs 4 1, sidx := fieldAt bs 5 1,
                      didx := fieldAt bs 6 1 }
  let is (shape core : Nat) (t : CoreType) : Bool := decide ((shapeCores shape)[core]? = some t)
  let has (shape core : Nat) : Bool := decide (core < (shapeCores shape).length)
  let ok := decide (r.src < 4 ∧ r.dst < 4 ∧ r.kind < 4 ∧ fieldAt bs 7 9 = 0) && has r.src r.score && has r.dst r.dcore &&
    (match r.kind with
     | 0 => decide (r.sidx < 64 ∧ r.didx < 64)
     | 1 => decide (r.sidx < 64 ∧ r.didx < 64) && is r.src r.score .v && is r.dst r.dcore .v
     | 2 => decide (r.sidx = 0 ∧ r.didx = 0) && is r.src r.score .m && is r.dst r.dcore .m
     | _ => decide (r.sidx < 16 ∧ r.didx < 16))
  if ok then some r else none

/-- The indices of the head words of a stream from index `i`, `n` words of the instruction before them to be passed (R83). -/
def headsFrom : Nat → Nat → List W32 → List Nat
  | _, _, [] => []
  | i, 0, w :: ws => i :: headsFrom (i + 1) (w.extractLsb' 23 2).toNat ws
  | i, n + 1, _ :: ws => headsFrom (i + 1) n ws

/-- Whether word `i` of a stream lies in the body of a LOOP word: from the word after its second word to its last. -/
def inLoopBody (ws : List W32) (i : Nat) : Bool :=
  (headsFrom 0 0 ws).any fun p =>
    match decode .m (ws.drop p) with
    | .instr (.loop f) _ _ => decide (p + 2 ≤ i ∧ i ≤ p + f.last.toNat)
    | _ => false

/-- Whether word `i` of a stream is the head word of a SEG.OPEN that names descriptor `d`. -/
def isOpenOf (ws : List W32) (i d : Nat) : Bool :=
  (headsFrom 0 0 ws).contains i && match decode .m (ws.drop i) with
  | .instr (.segOpen x) _ _ => decide (x.toNat = d)
  | _ => false

/-- An equivalence-point entry (R313, R339). -/
def eqpOf (img : List Byte) (shapes : List ShapeSched) (bs : List Byte) : Option EqPoint :=
  let nm := fieldAt bs 4 4
  let mp := fieldAt bs 0x38 8
  let desc := (List.range 4).map fun i => fieldAt bs (8 + 4 * i) 4
  let offs := (List.range 4).map fun i => fieldAt bs (0x18 + 8 * i) 8
  let none' := 0xFFFF_FFFF
  let pcs : Option (List (List Nat)) := (List.range 4).mapM fun i =>
    match shapes.find? fun x => decide (x.shape = i) with
    | none => if desc.getD i 0 = none' ∧ offs.getD i 0 = 0 then some [] else none
    | some sh =>
      if desc.getD i 0 = none' then some []
      else
        let o := offs.getD i 0
        let ps := (List.range sh.streams.length).map fun k => fieldAt img (o + 4 * k) 4
        if sh.descs.length ≤ desc.getD i 0 ∨ o % 64 ≠ 0 ∨ img.length < o + 4 * sh.streams.length then none
        else if (sh.streams.zip ps).all fun p => isOpenOf p.1.words p.2 (desc.getD i 0) && !inLoopBody p.1.words p.2 then some ps else none
  if mp % 64 ≠ 0 ∨ img.length < mp + 16 * nm then none
  else match pcs, tableAt mapOf 16 nm (img.drop mp) with
  | some ps, some ms => some { eqid := fieldAt bs 0 4, desc := desc, pcs := ps, maps := ms }
  | _, _ => none

/-- The loader: the image of its bytes, or none where a rule makes it invalid (R108 to R110, R313, R340). -/
def parseImage (img : List Byte) : Option Image :=
  let ns := fieldAt img 8 1
  let ne := fieldAt img 0xC 4
  let st := fieldAt img 0x10 8
  let et := fieldAt img 0x18 8
  let lp := fieldAt img 0x30 8
  if fieldAt img 0 4 ≠ 0x3737_4A45 ∨ fieldAt img 4 2 ≠ 1 ∨ 4 ≤ fieldAt img 6 2 ∨ ns = 0 ∨ 4 < ns ∨ fieldAt img 9 3 ≠ 0 ∨ fieldAt img 0x38 8 ≠ 0 ∨
      fieldAt img 0x20 8 ≠ img.length ∨ st % 64 ≠ 0 ∨ img.length < st + 32 * ns ∨ et % 64 ≠ 0 ∨ img.length < et + 64 * ne ∨ lp % 64 ≠ 0 ∨
      (lp ≠ 0 ∧ img.length < lp + 256) ∨ (et = 0 ∧ ne ≠ 0) then none
  else match tableAt (shapeOf img) 32 ns (img.drop st) with
  | none => none
  | some shapes =>
    if (pairsOf shapes).any fun p => decide (p.1.shape = p.2.shape) then none
    else match tableAt (eqpOf img shapes) 64 ne (img.drop et) with
    | none => none
    | some eqs =>
      let named (sh d : Nat) : Bool := eqs.any fun e => decide (e.desc.getD sh 0 = d)
      if (pairsOf eqs).any (fun p => decide (p.1.eqid = p.2.eqid)) || !(shapes.all fun x => x.descs.zipIdx.all fun p => p.1.eqp == named x.shape p.2) then none
      else some { exact := bitN (fieldAt img 6 2) 0, portable := bitN (fieldAt img 6 2) 1, seed := BitVec.ofNat 64 (fieldAt img 0x28 8), shapes := shapes,
                  eqps := eqs, tmpl := if lp = 0 then [] else (img.drop lp).take 256 }

/-! ### The launch parameter block (R341) -/

/-- A counter record (R347). -/
def Counter.new (va total : Nat) : Counter := { va := va, done := 0, total := total, st := 0, cseq := 0, failed := false }

/-- The node of a parameter block with its image, or none where R341 makes the launch invalid. -/
def nodeOf (preds : List Nat) (b : List Byte) (imgBytes : List Byte) (img : Image) : Option Node :=
  let pick (o n : Nat) : Nat := if fieldAt b o n = 0 then fieldAt img.tmpl o n else fieldAt b o n
  let shapes := pick 8 1
  let gx := pick 0x10 4
  let gy := pick 0x14 4
  let gz := pick 0x18 4
  let trav := fieldAt b 9 1
  let swz := fieldAt b 0xA 1
  let det := fieldAt b 0xB 1
  let nout := fieldAt b 0x44 1
  let ok := decide (shapes < 16 ∧ trav < 4 ∧ det < 3 ∧ nout ≤ 4 ∧ fieldAt b 0x45 1 < 2 ∧ fieldAt b 0x46 2 = 0 ∧ fieldAt b 0xB8 72 = 0 ∧ 1 ≤ gx ∧ gx ≤ 65536 ∧ 1 ≤ gy ∧
      gy ≤ 65536 ∧ 1 ≤ gz ∧ gz ≤ 65536 ∧ gx * gy * gz < 2 ^ 32 ∧ ¬(swz ≠ 0 ∧ 2 ≤ trav) ∧ ¬(det = 2 ∧ fieldAt b 0x38 8 = 0)) &&
    img.shapes.any fun x => bitN shapes x.shape
  if ok then
    some { preds := preds, image := img, imgBytes := imgBytes, shapes := shapes, trav := trav, swz := swz, det := det, kill := fieldAt b 0xC 4, gx := gx, gy := gy, gz := gz,
           tokens := fieldAt b 0x1C 4, args := fieldAt b 0x20 8, seed := if fieldAt b 0x45 1 = 1 then BitVec.ofNat 64 (fieldAt b 0x28 8) else img.seed,
           energyQ := fieldAt b 0x30 8, trace := fieldAt b 0x38 8, tracelen := fieldAt b 0x40 4, traced := 0, digest := fieldAt b 0x48 8,
           outs := (List.range nout).map fun i => (fieldAt b (0x50 + 24 * i) 8, fieldAt b (0x58 + 24 * i) 8, fieldAt b (0x60 + 24 * i) 8),
           ctr := Counter.new (fieldAt b 0xB0 8) (gx * gy * gz), energy := 0, requeues := 0, nextK := 0, units := [], cancelled := false }
  else none

/-! ### Traversal (R343) -/

/-- Morton: the even bits of d are x, the odd bits y. -/
def morton : Nat → Nat → Nat × Nat
  | 0, _ => (0, 0)
  | n + 1, d =>
    let r := morton n (d / 4)
    (d % 2 + 2 * r.1, d / 2 % 2 + 2 * r.2)

/-- One pass of the Hilbert loop. -/
def hilbertLoop : Nat → Nat → Nat → Nat → Nat → Nat × Nat
  | 0, _, _, x, y => (x, y)
  | n + 1, s, t, x, y =>
    let rx := t / 2 % 2
    let ry := (t ^^^ rx) % 2
    let p := if ry = 0 then (if rx = 1 then (s - 1 - y, s - 1 - x) else (y, x)) else (x, y)
    hilbertLoop n (2 * s) (t / 4) (p.1 + s * rx) (p.2 + s * ry)

/-- ⌈log2 n⌉. -/
def clog2 (n : Nat) : Nat := if n ≤ 1 then 0 else Nat.log2 (n - 1) + 1

/-- The first curve index from `d` whose point lies in the grid; `fuel` bounds the search. -/
def curveFrom (hilbert : Bool) (m gx gy : Nat) : Nat → Nat → Option (Nat × Nat × Nat)
  | 0, _ => none
  | f + 1, d =>
    let p := if hilbert then hilbertLoop m 1 d 0 0 else morton m d
    if p.1 < gx ∧ p.2 < gy then some (d, p.1, p.2) else curveFrom hilbert m gx gy f (d + 1)

/-- Index k of a strip order: strips of W columns of an n-wide, m-high plane, each row by row. -/
def stripAt (n m W k : Nat) : Nat × Nat :=
  let full := n / W * (W * m)
  if k < full then (k / (W * m) * W + k % (W * m) % W, k % (W * m) / W)
  else
    let w := n % W
    let j := k - full
    (n / W * W + j % w, j / w)

/-- The k-th unit of a plane by a curve: counts the points of the grid before it. -/
def curveNth (hilbert : Bool) (m gx gy : Nat) : Nat → Nat → Nat → Option (Nat × Nat)
  | 0, _, _ => none
  | f + 1, k, d =>
    match curveFrom hilbert m gx gy (4 ^ m) d with
    | none => none
    | some (d', x, y) => if k = 0 then some (x, y) else curveNth hilbert m gx gy f (k - 1) (d' + 1)

/-- Coordinates of the k-th unit in traversal order. -/
def Node.unitAt (n : Node) (k : Nat) : Nat × Nat × Nat :=
  let z := k / (n.gx * n.gy)
  let j := k % (n.gx * n.gy)
  let p : Nat × Nat := match n.trav with
    | 0 => if n.swz = 0 then (j % n.gx, j / n.gx) else stripAt n.gx n.gy n.swz j
    | 1 => if n.swz = 0 then (j / n.gy, j % n.gy) else let q := stripAt n.gy n.gx n.swz j; (q.2, q.1)
    | t => (curveNth (decide (t = 3)) (clog2 (max n.gx n.gy)) n.gx n.gy (j + 1) j 0).getD (0, 0)
  (p.1, p.2, z)

/-- The linear index of a unit (R342). -/
def Node.linear (n : Node) (p : Nat × Nat × Nat) : Nat := p.1 + n.gx * (p.2.1 + n.gy * p.2.2)

/-- Coordinates of a linear index. -/
def Node.coords (n : Node) (u : Nat) : Nat × Nat × Nat := (u % n.gx, u / n.gx % n.gy, u / n.gx / n.gy)

/-- Units of the grid. -/
def Node.size (n : Node) : Nat := n.gx * n.gy * n.gz

end Sys2Proof.Machine
end

