-- ==== Sys2Proof/Machine/Frames.lean ====
section
/-! DEFINITION. Context frames and core records (R312, R328, R340, R355, R356), and the image of a SNAP (R428). -/

namespace Sys2Proof.Machine

open Sys2Proof

/-! ### Slices as bytes (R78, R79) -/

/-- Slices [start, start + 2n) of a file as n bytes. -/
def sliceImage (m : SMap Slice) (start n : Nat) : List Byte :=
  (List.range n).map fun i => SMap.get 0 m (start + 2 * i + 1) ++ SMap.get 0 m (start + 2 * i)

/-- Writes bytes into slices from `start` up. -/
def loadSlices (m : SMap Slice) (start : Nat) (bs : List Byte) : SMap Slice :=
  bs.zipIdx.foldl (fun m p => SMap.set 0 (SMap.set 0 m (start + 2 * p.2) (p.1.extractLsb' 0 4)) (start + 2 * p.2 + 1) (p.1.extractLsb' 4 4)) m

/-! ### Core records (R356) -/

/-- The loop part of a record for one engine. -/
def loopBytes (ls : List LoopSt) (lc : Nat → Nat) : List Byte :=
  (List.range 4).flatMap fun n =>
    match ls.findIdx? fun l => decide (l.n = n) with
    | some i =>
      let l := ls.getD i { n := 0, cnt := 0, first := 0, last := 0 }
      leBytes 4 l.cnt ++ leBytes 4 l.first ++ leBytes 4 l.last ++ leBytes 4 (ls.length - i)
    | none => leBytes 4 (lc n) ++ leBytes 12 0

def cbBytes (b : Cb) : List Byte :=
  leBytes 1 b.space ++ leBytes 1 b.attr.toNat ++ leBytes 2 0 ++ leBytes 4 b.ents ++ leBytes 8 b.base ++ leBytes 8 b.size ++ leBytes 4 b.prod.toNat ++
  leBytes 4 b.cons.toNat

/-- The 2,048-byte record of a core from an opening state. -/
def coreRecord (ct : CoreType) (k : Core) (o : Opening) (ix : Nat) (carry : Bool) : List Byte :=
  let tags := List.range 7
  let lc (n : Nat) : Nat := (SMap.get 0 o.lc n).toNat
  let m := decide (ct = .m)
  padTo 0x20 (tags.flatMap fun t => leBytes 4 (SMap.get 0 o.pcs t)) ++
  padTo 0x40 (tags.flatMap fun t => (List.range 4).flatMap fun w => leBytes 2 (SMap.get 0 o.win (4 * t + w)).toNat) ++
  leBytes 8 o.pred.toNat ++ leBytes 8 o.tags.toNat ++ leBytes 4 o.flags.toNat ++ leBytes 4 k.fmask.toNat ++ leBytes 4 k.fpmode.toNat ++
  leBytes 4 o.ckd.toNat ++ leBytes 8 k.seed.toNat ++ leBytes 8 k.pacer.toNat ++ leBytes 2 k.slip.toNat ++ leBytes 1 k.seglim.toNat ++ leBytes 1 k.reent.toNat ++
  leBytes 4 k.segno.toNat ++ leBytes 4 ix ++ leBytes 4 (tags.foldl (fun a t => a + if (SMap.find o.epochs t).getD false then 2 ^ t else 0) 0) ++
  ((List.range 8).flatMap fun i => leBytes 4 (SMap.get 0 o.bt i).toNat) ++
  ((List.range 16).flatMap fun i => leBytes 8 (if ct = .v then (SMap.get 0 o.vpred i).toNat else 0)) ++
  (tags.flatMap fun t => loopBytes ((SMap.find o.loops t).getD []) fun n => if t = 0 then lc n else 0) ++
  ((List.range 16).flatMap fun i => cbBytes ((SMap.find o.cb i).getD Cb.none)) ++
  (if m then ((List.range 14).flatMap fun i => leBytes 8 (SMap.get 0 o.nest i).toNat) ++
    leBytes 8 (o.sign.qs.toNat + o.sign.i0.toNat * 2 ^ 8 + (if o.sign.en then 2 ^ 63 else 0)) ++ leBytes 4 o.mul.toNat ++ leBytes 4 o.tsc.toNat ++
    leBytes 1 (if o.wbank then 1 else 0) ++ leBytes 1 (if carry then 1 else 0)
   else leBytes 130 0) ++
  leBytes 638 0

/-- The loops of one engine from its part of a record, innermost first. -/
def loopsFrom (bs : List Byte) : List LoopSt :=
  [4, 3, 2, 1].filterMap fun lv =>
    ((List.range 4).find? fun n => decide (fieldAt bs (16 * n + 12) 1 = lv)).map fun n =>
      { n := n, cnt := fieldAt bs (16 * n) 4, first := fieldAt bs (16 * n + 4) 4, last := fieldAt bs (16 * n + 8) 4 }

def cbFrom (bs : List Byte) : Cb :=
  { space := fieldAt bs 0 1, attr := BitVec.ofNat 5 (fieldAt bs 1 1), ents := fieldAt bs 4 4, base := fieldAt bs 8 8, size := fieldAt bs 0x10 8,
    prod := BitVec.ofNat 32 (fieldAt bs 0x18 4), cons := BitVec.ofNat 32 (fieldAt bs 0x1C 4), resv := [] }

/-- The map of the non-zero values of a table. -/
def mapFrom {α : Type} [DecidableEq α] (d : α) (n : Nat) (f : Nat → α) : SMap α := (List.range n).foldl (fun m i => SMap.set d m i (f i)) []

/-- CKD without the bits of tags that the core lacks. -/
def ckdMask (ct : CoreType) (v : BitVec 32) : BitVec 32 :=
  (List.range 7).foldl (fun m t => if hasTag ct t then m ||| (v &&& BitVec.ofNat 32 (15 * 2 ^ (4 * t))) else m) 0#32

/-- A core with the fields of its record (R356). Bits that the fields do not have read 0 as ever (R6, R7). -/
def loadRecord (ct : CoreType) (k : Core) (r : List Byte) : Core :=
  let g (o n : Nat) : Nat := fieldAt r o n
  let sw := g 0x570 8
  let m := decide (ct = .m)
  { k with
    win := mapFrom 0 28 fun i => BitVec.ofNat 15 (g (0x20 + 2 * i) 2), pred := BitVec.ofNat 16 (g 0x60 8), tags := BitVec.ofNat 64 (g 0x68 8),
    flags := BitVec.ofNat 32 (g 0x70 4 % 64), fmask := BitVec.ofNat 32 (g 0x74 4 % 64), fpmode := BitVec.ofNat 32 (g 0x78 4 % 8), ckd := ckdMask ct (BitVec.ofNat 32 (g 0x7C 4)),
    seed := BitVec.ofNat 64 (g 0x80 8), pacer := BitVec.ofNat 64 (g 0x88 8) &&& paceMask ct, slip := BitVec.ofNat 12 (g 0x90 2), seglim := BitVec.ofNat 4 (g 0x92 1),
    reent := BitVec.ofNat 4 (g 0x93 1), segno := BitVec.ofNat 32 (g 0x94 4), bt := mapFrom 0 8 fun i => BitVec.ofNat 32 (g (0xA0 + 4 * i) 4),
    vpred := if ct = .v then mapFrom 0 16 fun i => BitVec.ofNat 64 (g (0xC0 + 8 * i) 8) else [],
    lc := mapFrom 0 4 fun i => BitVec.ofNat 32 (g (0x140 + 16 * i) 4),
    cb := (List.range 16).filterMap fun i => let b := cbFrom ((r.drop (0x300 + 32 * i)).take 32); if b.configured then some (i, b) else none,
    nest := if m then mapFrom 0 14 fun i => BitVec.ofNat 64 (g (0x500 + 8 * i) 8) &&& nestMask i else [],
    sign := if m then { en := bitN sw 63, qs := BitVec.ofNat 8 sw, i0 := BitVec.ofNat 48 (sw / 2 ^ 8) } else .off,
    mul := if m then BitVec.ofNat 32 (g 0x578 4) else k.mul, tsc := if m then BitVec.ofNat 32 (g 0x57C 4) else k.tsc, wbank := m && bitN (g 0x580 1) 0,
    eng := (tagsOf ct).foldl (fun e t => SMap.put e t
      { Engine.reset with pc := g (4 * t) 4, epoch := bitN (g 0x9C 4) t, loops := loopsFrom ((r.drop (0x140 + 64 * t)).take 64) }) [] }

/-! ### Frames (R355) -/

/-- Cores of a group that run a stream, with their group-relative index. -/
def State.coreset (s : State) (g : Group) : List (Nat × Nat) := g.cores.zipIdx.filter fun p => !(s.core p.1).stream.isEmpty

/-- Bytes of a frame of a shape under a descriptor. -/
def frameSize (cts : List CoreType) (d : Option Desc) : Nat :=
  256 + 2048 * cts.length +
  (match d with
   | none => 0
   | some d => ((List.range 64).filter fun i => d.livein.getLsbD i).length * (cts.map fun t => if t = .v then 64 + 12288 else 64).sum +
      ((List.range 128).filter fun i => d.carry.getLsbD i).length * 262144)

/-- F: the largest frame over the shapes and descriptors of an image, in whole frames of 64 KiB. -/
def Image.frameBytes (i : Image) : Nat :=
  let sizes := i.shapes.flatMap fun sh =>
    let cs := sh.streams.foldl (fun a x => a ||| x.cores) 0
    let cts := (shapeCores sh.shape).zipIdx.filterMap fun p => if cs.getLsbD p.2 then some p.1 else none
    frameSize cts none :: sh.descs.map fun d => frameSize cts (some d)
  (sizes.foldl max 0 + 65535) / 65536 * 65536

/-- The lowest place in a job's frame pool for F bytes. -/
def Job.carve (j : Job) (f : Nat) : Option Nat :=
  let starts := (0 :: j.frames.map fun r => r.base + r.len).filter fun o => decide (o + f ≤ j.poolLen) && !(j.frames.any fun r => decide (r.base < o + f) && decide (o < r.base + r.len))
  starts.foldl (fun m o => some (m.elim o fun x => min x o)) none

/-- The LIVEIN image of region i of a core. -/
def liveImage (ct : CoreType) (k : Core) (i : Nat) : List Byte :=
  sliceImage k.scalar (128 * i) 64 ++ (if ct = .v then (List.range 64).flatMap fun l => sliceImage k.lanes (laneBase l + 384 * i) 192 else [])

/-- Writes a LIVEIN image. -/
def loadLive (ct : CoreType) (k : Core) (i : Nat) (bs : List Byte) : Core :=
  { k with scalar := loadSlices k.scalar (128 * i) (bs.take 64),
           lanes := if ct = .v then (List.range 64).foldl (fun m l => loadSlices m (laneBase l + 384 * i) ((bs.drop (64 + 192 * l)).take 192)) k.lanes else k.lanes }

/-- The CARRY bits of a descriptor, ascending, each with the core that it stands for. -/
def Desc.carryCores (d : Desc) (g : Group) : List (Option Nat) :=
  let ms := g.cores.filter fun x => decide (coreType x = .m)
  ((List.range 128).filter fun i => d.carry.getLsbD i).map fun i => ms[i]?

/-- Bank image of a core. -/
def State.bankImage (s : State) (c : Nat) (b : Bool) : List Byte := rdBytes s.mem (s.bufPa c 2 (if b then 0x4_0000 else 0)) 262144

/-- The descriptor index of a group's opening: that of its open segment, or of the SEG.OPEN that its cores have reached. -/
def State.openIx (s : State) (g : Group) : Nat :=
  (g.cores.findSome? fun c => match (s.core c).seg with
    | some sg => some sg.ix
    | none => match decode (coreType c) ((s.core c).stream.drop ((s.core c).engine 0).pc) with
      | .instr (.segOpen d) _ _ => some d.toNat
      | _ => none).getD 0

/-- The bytes of a checkpoint of a group at its opening. -/
def State.frameImage (s : State) (g : Group) (launch cause : Nat) (img : Image) (frec : Option Core) : List Byte :=
  let ix := s.openIx g
  let d := (s.descsOf g)[ix]?
  let cs := s.coreset g
  let live := d.elim 0 fun d => d.livein.toNat
  let carry := d.elim 0 fun d => d.carry.toNat
  let lives := (List.range 64).filter fun i => bitN live i
  let carries := d.elim [] fun d => d.carryCores g
  let liveBytes := lives.flatMap fun i => cs.flatMap fun p => liveImage (coreType p.1) (s.core p.1) i
  let liveOff := 256 + 2048 * cs.length
  let carryOff := liveOff + liveBytes.length
  let eqid := match img.eqps.find? fun e => decide (e.desc.getD g.shape 0xFFFF_FFFF = ix) with
    | some e => e.eqid
    | none => 0xFFFF_FFFF
  let fr := match frec with
    | some k => (List.range 4).flatMap fun i => leBytes 8 (SMap.get 0 k.frec i).toNat
    | none => leBytes 32 0
  leBytes 4 0x4346_3737 ++ leBytes 2 1 ++ leBytes 1 g.shape ++ leBytes 1 cause ++ leBytes 8 launch ++ leBytes 4 g.unit ++ leBytes 4 ix ++ leBytes 8 live ++
  leBytes 16 carry ++ leBytes 32 (cs.foldl (fun a p => a + 2 ^ p.2) 0) ++ leBytes 8 liveOff ++ leBytes 8 carryOff ++
  leBytes 8 (carryOff + 262144 * carries.length) ++ fr ++ leBytes 4 eqid ++ leBytes 116 0 ++
  (cs.flatMap fun p => coreRecord (coreType p.1) (s.core p.1) (s.openingOf p.1) ix (carries.contains (some p.1))) ++ liveBytes ++
  (carries.flatMap fun p => p.elim (List.replicate 262144 0) fun c => s.bankImage c (!(s.openingOf c).wbank))

/-! ### Resuming (R328, R340) -/

/-- A core is to re-enter the segment of its record at a descriptor. One whose record does not stand at that SEG.OPEN had halted (log entry 109). -/
def Core.toReenter (k : Core) (ct : CoreType) (ix : Nat) (d : Desc) (carry : Bool) : Core :=
  match decode ct (k.stream.drop (k.engine 0).pc) with
  | .instr (.segOpen x) _ _ =>
    if x.toNat = ix then
      { k with seg := some { ix := ix, desc := d, openAt := 0, opening := k.snapshotAt ct, carry := if carry then some (!k.wbank) else none, rel := 0, closed := none } }
    else { k with halted := true }
  | _ => { k with halted := true }

/-- Writes bytes into the visible bank of a core. -/
def State.loadBank (s : State) (c : Nat) (bs : List Byte) : State := s.store (s.bufPa c 2 (if (s.core c).wbank then 0 else 0x4_0000)) bs

/-- The cores of a group take the state of a frame of their shape. -/
def State.loadFrame (s : State) (g : Group) (f : List Byte) : State :=
  let ix := fieldAt f 0x14 4
  match (s.descsOf g)[ix]? with
  | none => s
  | some d =>
    let cs := s.coreset g
    let liveOff := fieldAt f 0x50 8
    let carryOff := fieldAt f 0x58 8
    let lives := (List.range 64).filter fun i => bitN (fieldAt f 0x18 8) i
    let size (c : Nat) : Nat := if coreType c = .v then 64 + 12288 else 64
    let row := (cs.map fun p => size p.1).sum
    let s := cs.zipIdx.foldl (fun s p =>
      let c := p.1.1
      let ct := coreType c
      let before := ((cs.take p.2).map fun q => size q.1).sum
      s.modCore c fun k =>
        let k := loadRecord ct k ((f.drop (256 + 2048 * p.2)).take 2048)
        let k := lives.zipIdx.foldl (fun k i => loadLive ct k i.1 ((f.drop (liveOff + row * i.2 + before)).take (size c))) k
        k.toReenter ct ix d (d.carries g c)) s
    (d.carryCores g).zipIdx.foldl (fun s p => p.1.elim s fun c => s.loadBank c ((f.drop (carryOff + 262144 * p.2)).take 262144)) s

/-- The cores of a group take, at an equivalence point, what the map records give them from a frame of another shape (R340). -/
def State.mapFrame (s : State) (g : Group) (e : EqPoint) (f : List Byte) : State :=
  let src := fieldAt f 6 1
  let ix := e.desc.getD g.shape 0
  match (s.descsOf g)[ix]? with
  | none => s
  | some d =>
    let set := fieldAt f 0x30 32
    let scs := (shapeCores src).zipIdx.filter fun p => bitN set p.2
    let pos (i : Nat) : Nat := scs.findIdx fun p => decide (p.2 = i)
    let size (t : CoreType) : Nat := if t = .v then 64 + 12288 else 64
    let row := (scs.map fun p => size p.1).sum
    let lives := (List.range 64).filter fun i => bitN (fieldAt f 0x18 8) i
    let liveAt (core reg : Nat) : Nat := fieldAt f 0x50 8 + row * (lives.findIdx fun i => decide (i = reg)) + ((scs.take (pos core)).map fun p => size p.1).sum
    let carries := (List.range 128).filter fun i => bitN (fieldAt f 0x20 16) i
    let img := (s.graphs[g.graph]?).bind fun gr => (gr.nodes[g.node]?).map fun n => n.image
    let sh := img.bind fun i => i.shapes.find? fun x => decide (x.shape = g.shape)
    let s := (s.coreset g).foldl (fun s p => s.modCore p.1 fun k =>
      let pc := (sh.bind fun x => (x.streams.findIdx? fun r => r.cores.getLsbD p.2).bind fun n => (e.pcs.getD g.shape [])[n]?).getD 0
      { k with segno := BitVec.ofNat 32 d.segno, reent := 0,
               eng := (tagsOf (coreType p.1)).foldl (fun m t => SMap.put m t { (k.engine t) with pc := pc }) k.eng }) s
    let s := (e.maps.filter fun m => decide (m.src = src ∧ m.dst = g.shape)).foldl (fun s m =>
      match g.cores[m.dcore]? with
      | none => s
      | some c =>
        match m.kind with
        | 0 =>
          if lives.contains m.sidx ∧ bitN set m.score then s.modCore c fun k => { k with scalar := loadSlices k.scalar (128 * m.didx) ((f.drop (liveAt m.score m.sidx)).take 64) } else s
        | 1 =>
          if lives.contains m.sidx ∧ bitN set m.score then s.modCore c fun k =>
            { k with lanes := (List.range 64).foldl (fun x l => loadSlices x (laneBase l + 384 * m.didx) ((f.drop (liveAt m.score m.sidx + 64 + 192 * l)).take 192)) k.lanes }
          else s
        | 2 =>
          if carries.contains (m.score) then
            (s.loadBank c ((f.drop (fieldAt f 0x58 8 + 262144 * (carries.findIdx fun i => decide (i = m.score)))).take 262144)).modCore c fun k => { k with carryok := true }
          else s
        | _ =>
          if bitN set m.score then s.modCore c fun k => k.setCb m.didx (cbFrom ((f.drop (256 + 2048 * pos m.score + 0x300 + 32 * m.sidx)).take 32)) else s) s
    (s.coreset g).foldl (fun s p => s.modCore p.1 fun k => k.toReenter (coreType p.1) ix d (d.carries g p.1)) s

/-! ### SNAP (R428) -/

/-- The image of a core as it stands at a stop at tick S. -/
def State.snapImage (s : State) (c S : Nat) : List Byte :=
  let ct := coreType c
  let k := (s.core c).settled (S - 1)
  coreRecord ct k { k.snapshotAt ct with flags := k.flagsAt S } (k.seg.elim 0 fun g => g.ix) false ++ sliceImage k.scalar 0 4096 ++
  (if ct = .v then ((List.range 64).flatMap fun l => sliceImage k.lanes (laneBase l) 12288) ++ ((List.range 16).flatMap fun i => leBytes 8 (k.vpredOf i).toNat) else [])

end Sys2Proof.Machine
end

