-- ==== Sys2Proof/Machine/Keccak.lean ====
section
/-! DEFINITION. SHAKE256 (FIPS 202), which R358, R435, R436 and R437 call. -/

namespace Sys2Proof.Machine

/-- A Keccak state of 25 lanes, lane (x, y) at 5y + x. -/
abbrev KState := List (BitVec 64)

def kGet (a : KState) (x y : Nat) : BitVec 64 := a.getD (5 * (y % 5) + x % 5) 0

/-- Builds a state lane by lane. -/
def kBuild (f : Nat → Nat → BitVec 64) : KState := (List.range 25).map fun i => f (i % 5) (i / 5)

/-- Rotation offsets by lane 5y + x. -/
def kRot : List Nat := [0, 1, 62, 28, 27, 36, 44, 6, 55, 20, 3, 10, 43, 25, 39, 41, 45, 15, 21, 8, 18, 2, 61, 56, 14]

/-- Round constants. -/
def kRc : List (BitVec 64) :=
  [0x0000000000000001#64, 0x0000000000008082#64, 0x800000000000808A#64, 0x8000000080008000#64, 0x000000000000808B#64, 0x0000000080000001#64,
   0x8000000080008081#64, 0x8000000000008009#64, 0x000000000000008A#64, 0x0000000000000088#64, 0x0000000080008009#64, 0x000000008000000A#64,
   0x000000008000808B#64, 0x800000000000008B#64, 0x8000000000008089#64, 0x8000000000008003#64, 0x8000000000008002#64, 0x8000000000000080#64,
   0x000000000000800A#64, 0x800000008000000A#64, 0x8000000080008081#64, 0x8000000000008080#64, 0x0000000080000001#64, 0x8000000080008008#64]

def kTheta (a : KState) : KState :=
  let c := (List.range 5).map fun x => kGet a x 0 ^^^ kGet a x 1 ^^^ kGet a x 2 ^^^ kGet a x 3 ^^^ kGet a x 4
  let d := (List.range 5).map fun x => c.getD ((x + 4) % 5) 0 ^^^ (c.getD ((x + 1) % 5) 0).rotateLeft 1
  kBuild fun x y => kGet a x y ^^^ d.getD x 0

/-- ρ and π: lane (x, y) of the result comes from lane (x + 3y, x). -/
def kRhoPi (a : KState) : KState :=
  kBuild fun x y =>
    let sx := (x + 3 * y) % 5
    (kGet a sx x).rotateLeft (kRot.getD (5 * x + sx) 0)

def kChi (a : KState) : KState := kBuild fun x y => kGet a x y ^^^ (~~~(kGet a (x + 1) y) &&& kGet a (x + 2) y)

def kRound (a : KState) (rc : BitVec 64) : KState :=
  match kChi (kRhoPi (kTheta a)) with
  | [] => []
  | l :: r => (l ^^^ rc) :: r

def keccakF (a : KState) : KState := kRc.foldl kRound a

/-- XORs a block of 136 bytes into the state. -/
def kAbsorb (a : KState) (blk : List Byte) : KState :=
  kBuild fun x y => kGet a x y ^^^ (if 5 * y + x < 17 then BitVec.ofNat 64 (leNat ((blk.drop (8 * (5 * y + x))).take 8)) else 0)

/-- Absorbs whole blocks; `fuel` bounds their number. -/
def kAbsorbAll : Nat → KState → List Byte → KState
  | 0, a, _ => a
  | n + 1, a, bs => if bs.length < 136 then a else kAbsorbAll n (keccakF (kAbsorb a (bs.take 136))) (bs.drop 136)

/-- Padding of SHAKE: 0x1F, zeros, and 0x80 in the last byte of the block. -/
def kPad (bs : List Byte) : List Byte :=
  let z := 135 - bs.length % 136
  if z = 0 then bs ++ [0x9F#8] else bs ++ [0x1F#8] ++ List.replicate (z - 1) 0 ++ [0x80#8]

/-- The 136 bytes a state yields. -/
def kSqueeze (a : KState) : List Byte := (a.take 17).flatMap fun l => leBytes 8 l.toNat

/-- SHAKE256 of a message, up to 136 bytes of output. -/
def shake256 (msg : List Byte) (n : Nat) : List Byte :=
  let p := kPad msg
  (kSqueeze (kAbsorbAll (p.length / 136) (kBuild fun _ _ => 0) p)).take n

end Sys2Proof.Machine
end

