-- ==== Sys2Proof/Machine/Sched.lean ====
section
/-! DEFINITION. The work scheduler's operations: counters and completion entries, groups, starting, stopping, saving and ending units
(R327, R328, R337, R338, R344 to R348, R352 to R358, R370, R413, R441). -/

namespace Sys2Proof.Machine

open Sys2Proof

/-! ### Items, counters and entries (R346, R347, R351) -/

/-- Something that has a counter record: a node's launch, a graph, a phase, a job. -/
inductive Item where
  | node (g n : Nat)
  | graph (g : Nat)
  | phase (job no : Nat)
  | job (h : Nat)
deriving DecidableEq, Repr

def State.node (s : State) (g n : Nat) : Option Node := (s.graphs[g]?).bind fun x => x.nodes[n]?

def State.modGraph (s : State) (g : Nat) (f : Graph → Graph) : State := { s with graphs := s.graphs.modify g f }

def State.modNode (s : State) (g n : Nat) (f : Node → Node) : State := s.modGraph g fun x => { x with nodes := x.nodes.modify n f }

def Job.modPhase (j : Job) (no : Nat) (f : Phase → Phase) : Job := { j with phases := j.phases.map fun p => if p.no = no then f p else p }

def State.ctrOf (s : State) : Item → Option Counter
  | .node g n => (s.node g n).map fun x => x.ctr
  | .graph g => (s.graphs[g]?).bind fun x => if x.single then none else some x.ctr
  | .phase h no => (s.job h).bind fun j => (j.phases.find? fun p => decide (p.no = no)).map fun p => p.ctr
  | .job h => (s.job h).map fun j => j.ctr

def State.setCtr (s : State) (i : Item) (c : Counter) : State :=
  match i with
  | .node g n => s.modNode g n fun x => { x with ctr := c }
  | .graph g => s.modGraph g fun x => { x with ctr := c }
  | .phase h no => s.modJob h fun j => j.modPhase no fun p => { p with ctr := c }
  | .job h => s.modJob h fun j => { j with ctr := c }

/-- The job of an item, with HANDLE and SUB of an entry about it. -/
def State.refOf (s : State) : Item → Nat × Nat × Nat
  | .node g n => (s.graphs[g]?).elim (0, 0, 0) fun x => (x.job, x.handle, if x.single then 0 else n + 1)
  | .graph g => (s.graphs[g]?).elim (0, 0, 0) fun x => (x.job, x.handle, 0)
  | .phase h no => (h, h, no + 1)
  | .job h => (h, h, 0)

/-- Queues an entry about an item. -/
def State.postItem (s : State) (i : Item) (kind status : Nat) (data : List Byte) : State :=
  let r := s.refOf i
  s.postCq { ack := 0, kind := kind, status := status, sub := r.2.2, handle := r.2.1, data := data }

def Counter.bytes (c : Counter) : List Byte := leBytes 4 c.done ++ leBytes 4 c.total ++ leBytes 1 c.st ++ leBytes 3 0 ++ leBytes 4 c.cseq

/-- Changes a counter and writes its record; the first write that cannot be made is reported (R347). -/
def State.putCtr (s : State) (i : Item) (f : Counter → Counter) : State :=
  match s.ctrOf i with
  | none => s
  | some c =>
    let c := f c
    let s := s.setCtr i c
    match (s.job (s.refOf i).1).bind fun j => s.jobWrite j c.va c.bytes awRw with
    | some s => s
    | none => if c.failed then s else (s.setCtr i { c with failed := true }).postItem i 4 1 []

/-- The item that an entry's HANDLE and SUB name. -/
def State.itemOf (s : State) (handle sub : Nat) : Option Item :=
  match (List.range s.graphs.length).reverse.find? fun i => (s.graphs[i]?).elim false fun g => decide (g.handle = handle) with
  | some g =>
    let single := (s.graphs[g]?).elim false fun x => x.single
    if sub = 0 then some (if single then .node g 0 else .graph g)
    else if single || (s.node g (sub - 1)).isNone then none else some (.node g (sub - 1))
  | none => if (s.job handle).isSome then some (if sub = 0 then .job handle else .phase handle (sub - 1)) else none

/-- Metered energy of a node in µJ (R441). -/
def Node.metered (n : Node) : Nat := n.energy / 1000

/-- DATA of an entry of KIND 1, 2 or 6 about an item (R441). -/
def State.energyData (s : State) : Item → List Byte
  | .node g n => leBytes 8 ((s.node g n).elim 0 Node.metered)
  | _ => []

/-! ### Groups (R337, R338) -/

/-- Slots of the dies of a type. -/
def slotsOf : CoreType → List Nat
  | .m => (List.range 16).map fun i => 9 + i
  | .v => (List.range 8).map fun i => 25 + i
  | .g => (List.range 4).map fun i => 33 + i
  | .b => (List.range 8).map fun i => 1 + i

/-- Cores of a slot, ascending. -/
def coresOf (slot : Nat) : List Nat := (List.range 256).filter fun c => decide (slotOfCore c = slot)

/-- Good dies of a type that no group holds, lowest first; `freed` are dies counted as free. -/
def State.freeDies (s : State) (freed : List Nat) (t : CoreType) : List Nat :=
  (slotsOf t).filter fun d => s.dieGood d && (freed.contains d || !(s.groups.any fun g => g.dies.contains d))

def State.diesFor (s : State) (freed : List Nat) (shape : Nat) : Option (List Nat) :=
  let n := shapeDies shape
  let take (t : CoreType) (k : Nat) : Option (List Nat) := let f := s.freeDies freed t; if k ≤ f.length then some (f.take k) else none
  match take .m n.1, take .v n.2.1, take .g n.2.2.1, take .b n.2.2.2 with
  | some a, some b, some c, some d => some (a ++ b ++ c ++ d)
  | _, _, _, _ => none

/-- The lowest group number free for a shape; `freed` are numbers of groups counted as gone. -/
def State.numFor (s : State) (freed : List Nat) (shape : Nat) : Option Nat :=
  let w := 8 / 2 ^ shape
  ((List.range (2 ^ shape)).map fun i => i * w).find? fun n =>
    !(s.groups.any fun g => !freed.contains g.num && decide (g.num < n + w) && decide (n < g.num + 8 / 2 ^ g.shape))

/-- Whether the scheduler may form groups: thermal state RUN or BANKED (R404). -/
def State.mayForm (s : State) : Bool := let t := bitsN (s.cregOf 0x100).toNat 0 4; decide (t = 5 ∨ t = 6)

/-- Whether a group of a shape is free or can be formed. -/
def State.canForm (s : State) (shape : Nat) : Bool := (s.diesFor [] shape).isSome && (s.numFor [] shape).isSome

/-- Band code of a slot (R397). -/
def State.bandOf (s : State) (slot : Nat) : Nat := bitsN (s.cregOf (0x108 + 8 * (slot / 8))).toNat (8 * (slot % 8)) 3

/-- The band of a group of some dies: the highest among them and all B-dies (R283). -/
def State.bandAmong (s : State) (dies : List Nat) : Nat := (dies ++ slotsOf .b).foldl (fun m d => max m (s.bandOf d)) 0

/-- A group of a shape formed for a unit. -/
def State.formGroup (s : State) (shape gi ni u job : Nat) : Option Group :=
  match s.diesFor [] shape, s.numFor [] shape with
  | some ds, some n =>
    some { num := n, shape := shape, dies := ds, cores := (List.range 256).filter fun c => ds.contains (slotOfCore c), graph := gi, node := ni, unit := u, job := job,
           startAt := s.time, reck := 0, claims := [], openings := 0, bar := none, regs := [], gen := 0, sticky := [], foot := 0, stopped := false, stopIn := none,
           replayTo := none, reenter := none, leave := none, pend := none, held := none, band := s.bandAmong ds, live := false, cbs := [] }
  | _, _ => none

/-- A group is dissolved: its claims on dies, frames, lines and cache entries end (R309, R345, R375). -/
def State.freeGroup (s : State) (g : Group) : State :=
  let s := (s.edge g.num).raceRelease g.num fun _ => true
  let s := g.cores.foldl (fun s c => s.modCore c fun k => 
    { k with grp := none, stream := [], halted := false, seg := none, tgrp := 0, flags := k.flagq.foldl (fun a p => a ||| p.2) k.flags, flagq := [] }) s
  let dbg := s.cregOf (0x600 + 8 * g.num)
  { s with groups := s.groups.filter fun x => decide (x.num ≠ g.num),
           flights := s.flights.filter fun f => !(decide (f.grp = g.num) && decide (f.work = .drained)),
           owner := s.owner.filter fun p => !(p.2.getLsbD 3 && decide (p.2.toNat % 8 = g.num)),
           tcache := s.tcache.map fun p => (p.1, p.2.filter fun e => decide (e.grp ≠ g.num)),
           creg := SMap.set (cregReset (0x600 + 8 * g.num)) s.creg (0x600 + 8 * g.num) (dbg &&& ~~~0x10#64) }

/-! ### Units -/

def Node.unitRec (n : Node) (u : Nat) : UnitRec :=
  (n.units.find? fun r => decide (r.u = u)).getD { u := u, st := .queued, frame := none, flen := 0, starts := 0, shape := 0 }

def Node.setUnit (n : Node) (r : UnitRec) : Node := { n with units := (n.units.filter fun x => decide (x.u ≠ r.u)) ++ [r] }

def State.modUnit (s : State) (gi ni u : Nat) (f : UnitRec → UnitRec) : State := s.modNode gi ni fun n => n.setUnit (f (n.unitRec u))

/-- Gives a frame back to the pool. -/
def State.dropFrame (s : State) (gi ni u : Nat) : State :=
  match (s.node gi ni).bind fun n => (n.unitRec u).frame, s.graphs[gi]? with
  | some va, some gr =>
    (s.modJob gr.job fun j => { j with frames := j.frames.filter fun r => decide (j.pool + r.base ≠ va) }).modUnit gi ni u fun r => { r with frame := none }
  | _, _ => s

/-- Takes a frame of the image's size for a unit. -/
def State.takeFrame (s : State) (gi ni u : Nat) : Option State :=
  match s.node gi ni, s.graphs[gi]? with
  | some n, some gr =>
    let f := n.image.frameBytes
    (s.job gr.job).bind fun j => (j.carve f).map fun o =>
      (s.modJob gr.job fun j => { j with frames := j.frames ++ [{ base := o, len := f }] }).modUnit gi ni u fun r => { r with frame := some (j.pool + o), flen := f }
  | _, _ => none

/-- The unit record (R344). -/
def unitWord (n : Node) (u shape : Nat) : Nat :=
  let p := n.coords u
  n.args + u * 2 ^ 64 + p.1 * 2 ^ 96 + p.2.1 * 2 ^ 112 + p.2.2 * 2 ^ 128 + shape * 2 ^ 144

/-- A core brought to its state at unit start (R344, step 3); slices, errors in them and conflict counts stay. -/
def Core.unitReset (k : Core) (c : Nat) (g : Nat) (seed : W64) (j : Job) : Core :=
  let r := Core.reset c
  { r with grp := some g, scalar := k.scalar, lanes := k.lanes, ecc := k.ecc, bcm := k.bcm, tgrp := BitVec.ofNat 3 g, seed := seed, heapb := j.heapb, heapl := j.heapl, heapo := j.heapo }

/-- Applies an initialisation record to a core (R110). -/
def State.applyInit (s : State) (c : Nat) (r : InitRec) : State :=
  if r.kind = 1 then s.modCore c fun k => k.setWindow r.tag r.index (BitVec.ofNat 15 r.b)
  else if r.kind = 2 then s.modCore c fun k => k.setCb r.index { space := r.a, base := r.b, ents := r.c, size := r.d, attr := r.fmt, prod := 0, cons := 0, resv := [] }
  else s.store (s.bufPa c r.a r.b) r.bytes

/-- Gives the cores of a group their streams. -/
def State.giveStreams (s : State) (g : Group) (n : Node) : State :=
  let seed := n.seed ^^^ BitVec.ofNat 64 (g.unit % 2 ^ 32 * 2 ^ 32)
  match s.job g.job with
  | none => s
  | some j =>
    let streams : List StreamRec := (n.image.shapes.find? fun x => decide (x.shape = g.shape)).elim [] fun x => x.streams
    g.cores.zipIdx.foldl (fun s p =>
      s.modCore p.1 fun k =>
        let k := k.unitReset p.1 g.num seed j
        let k : Core := { k with stream := (streams.find? fun (x : StreamRec) => x.cores.getLsbD p.2).elim [] fun x => x.words }
        { k with eng := (tagsOf (coreType p.1)).foldl (fun m t => SMap.put m t { Engine.reset with nextAt := k.div t }) k.eng }) s

/-- Steps 4 and 5 of a unit start. -/
def State.fillUnit (s : State) (g : Group) (n : Node) : State :=
  let streams : List StreamRec := (n.image.shapes.find? fun x => decide (x.shape = g.shape)).elim [] fun x => x.streams
  g.cores.zipIdx.foldl (fun s p =>
    let s := s.modCore p.1 fun k => { k with scalar := wrSlices k.scalar 8128 64 (unitWord n g.unit g.shape) }
    ((streams.find? fun x => x.cores.getLsbD p.2).elim [] fun x => x.inits).foldl (fun s r => s.applyInit p.1 r) s) s

/-- STATE 1 of an item that is pending. -/
def State.markRunning (s : State) (i : Item) : State :=
  if (s.ctrOf i).elim false fun c => decide (c.st = 0) then s.putCtr i fun c => { c with st := 1 } else s

/-- A unit of a node starts: the node and what holds it run. -/
def State.runningItems (s : State) (gi ni : Nat) : State :=
  match s.graphs[gi]? with
  | none => s
  | some g => (((s.markRunning (.job g.job)).markRunning (.phase g.job g.phase)).markRunning (.graph gi)).markRunning (.node gi ni)

/-- A dispatch trace entry of a start (R357). -/
def State.recordStart (s : State) (gi ni u run shape num : Nat) : State :=
  match s.node gi ni, s.graphs[gi]? with
  | some n, some gr =>
    if n.det = 1 ∧ n.traced < n.tracelen then
      let bs := leBytes 4 u ++ leBytes 2 run ++ leBytes 1 shape ++ leBytes 1 num ++ leBytes 8 0
      let s := ((s.job gr.job).bind fun j => s.jobWrite j (n.trace + 16 * n.traced) bs awW).getD s
      let s := s.modNode gi ni fun n => { n with traced := n.traced + 1 }
      if n.traced + 1 = n.tracelen then s.postItem (.node gi ni) 8 0 [] else s
    else s
  | _, _ => s

/-- Starts a unit on a group (R344). -/
def State.startUnit (s : State) (gi ni u shape : Nat) : Option State :=
  match s.node gi ni, s.graphs[gi]?, s.takeFrame gi ni u with
  | some n, some gr, some s1 =>
    (s1.formGroup shape gi ni u gr.job).map fun g =>
      let run := (n.unitRec u).starts
      let s := ({ s1 with groups := s1.groups ++ [g] } : State).giveStreams g n
      let s := s.fillUnit g n
      let s := s.modUnit gi ni u fun r => { r with st := .running g.num, starts := r.starts + 1, shape := shape }
      let s := (s.recordStart gi ni u run shape g.num).runningItems gi ni
      s.trace 10 g.num 0xFF 0xFF u gr.handle
  | _, _, _ => none

/-! ### Ends of units -/

/-- The running group of a unit, if any. -/
def State.groupOfUnit (s : State) (gi ni u : Nat) : Option Group :=
  s.groups.find? fun g => decide (g.graph = gi) && decide (g.node = ni) && decide (g.unit = u)

/-- A unit is to run again from its start: its frame returns (R352). -/
def State.queueUnit (s : State) (gi ni u : Nat) : State := (s.dropFrame gi ni u).modUnit gi ni u fun r => { r with st := .queued }

/-- A unit is removed for good (R348). -/
def State.removeUnit (s : State) (gi ni u : Nat) : State := (s.dropFrame gi ni u).modUnit gi ni u fun r => { r with st := .removed }

/-- Indices of the nodes of graphs that `p` selects. -/
def State.nodesWhere (s : State) (p : Graph → Nat → Bool) : List (Nat × Nat) :=
  s.graphs.zipIdx.flatMap fun g => (List.range g.1.nodes.length).filterMap fun n => if p g.1 n then some (g.2, n) else none

/-- Whether the last HALT of a group's unit has issued: it counts as completed (R345, R348). -/
def State.allHalted (s : State) (g : Group) : Bool := g.cores.all fun c => !(s.core c).active

/-- Cancels a node: units not started are removed, stopped ones released, running ones stop as POLICY says (R348). -/
def State.cancelNode (s : State) (gi ni : Nat) (kill : Bool) : State :=
  match s.node gi ni with
  | none => s
  | some n =>
    let s := s.modNode gi ni fun n => { n with nextK := n.size, cancelled := true }
    n.units.foldl (fun s r =>
      match r.st with
      | .running num =>
        (match s.group num with
         | none => s
         | some g =>
           if g.held.isSome then ((s.cancelOps g false).freeGroup g).removeUnit gi ni r.u
           else if kill then (if s.allHalted g then s else s.modGroup num fun g => g.setPend (g.cores.headD 0) .vanish)
           else s.modGroup num fun g => { g with leave := some .vanish })
      | .finished | .removed => s
      | _ => s.removeUnit gi ni r.u) s

/-- Nodes of a level (R348). -/
def State.levelNodes (s : State) (level handle arg : Nat) : List (Nat × Nat) :=
  match level with
  | 0 | 1 =>
    (match s.itemOf handle (if level = 0 then arg else 0) with
     | some (.node g n) => [(g, n)]
     | some (.graph g) => s.nodesWhere fun x _ => (s.graphs[g]?).elim false fun y => decide (x.handle = y.handle)
     | _ => [])
  | 2 => s.nodesWhere fun x _ => decide (x.job = handle ∧ x.phase = arg)
  | _ => s.nodesWhere fun x _ => decide (x.job = handle)

/-- Items below and at a level that are unfinished take a STATE. -/
def State.stampItems (s : State) (items : List Item) (st : Nat) : State :=
  items.foldl (fun s i => if (s.ctrOf i).elim true fun c => decide (c.st = 2 ∨ c.st = 3 ∨ c.st = 4) then s else s.putCtr i fun c => { c with st := st }) s

/-- Items of a level. -/
def State.levelItems (s : State) (level handle arg : Nat) : List Item :=
  let ns := s.levelNodes level handle arg
  let gs := ((ns.map fun p => p.1).eraseDups).map Item.graph
  let nodes := ns.map fun p => Item.node p.1 p.2
  match level with
  | 0 => nodes
  | 1 => nodes ++ gs
  | 2 => nodes ++ gs ++ [.phase handle arg]
  | _ => nodes ++ gs ++ ((s.job handle).elim [] fun j => j.phases.map fun p => Item.phase handle p.no) ++ [.job handle]

/-- The job fails: every unit is cancelled, every unfinished item takes STATE 4, one entry reports it (R370, R413). -/
def State.failJob (s : State) (h kind : Nat) (about : Item) (data : List Byte) : State :=
  let s := (s.levelNodes 3 h 0).foldl (fun s p => s.cancelNode p.1 p.2 true) s
  (s.stampItems (s.levelItems 3 h 0) 4).postItem about kind 0 data

/-- A node is re-queued: its running units are discarded at their groups' next ticks and every unit that has not completed runs again; over
the limit the job fails (R327, R413). -/
def State.requeueNode (s : State) (gi ni : Nat) (u core : Nat) : State :=
  match s.node gi ni, s.graphs[gi]? with
  | some n, some gr =>
    let data := leBytes 8 u ++ leBytes 8 0 ++ (s.core core).frecBytes
    if bitsN (s.cregOf 0x200).toNat 0 4 < n.requeues + 1 then s.failJob gr.job 5 (.job gr.job) data
    else
      let s := s.modNode gi ni fun n => { n with requeues := n.requeues + 1 }
      let s := n.units.foldl (fun s r =>
        match r.st with
        | .running num =>
          (match s.group num with
           | none => s
           | some g =>
             if g.held.isSome then ((s.cancelOps g false).freeGroup g).queueUnit gi ni r.u
             else s.modGroup num fun g => g.setPend (g.cores.headD 0) .kill)
        | .finished | .removed => s
        | _ => s.queueUnit gi ni r.u) s
      s.postItem (.node gi ni) 5 0 data
  | _, _ => s

/-- Saves the frame of a group's unit at its opening (R328, R355). -/
def State.saveFrame (s : State) (g : Group) (cause core : Nat) : State :=
  match s.node g.graph g.node, s.job g.job, s.graphs[g.graph]? with
  | some n, some j, some gr =>
    let img := s.frameImage g gr.handle cause n.image (if cause = 1 ∨ cause = 2 then some (s.core core) else none)
    (((n.unitRec g.unit).frame).bind fun va => s.jobWrite j va img awW).getD s
  | _, _, _ => s

/-- Whether the page at a VA of a job is present. -/
def State.pagePresent (s : State) (h va : Nat) : Bool := (s.job h).elim true fun j => (j.leaves.find? fun l => decide (l.va = va)).elim true fun l => l.pres

/-- A core of a group whose saved opening state reads uncorrectable (R329). -/
def State.openingBad (s : State) (g : Group) : Option Nat := g.cores.find? fun c => (s.core c).ecc.contains (.opening, true)

/-- The opening of a unit is lost on a core: the node is re-queued at once (R329). -/
def State.loseOpening (s : State) (g : Group) (c : Nat) (cause : Cause) (info : W64) : State :=
  let s := (s.countDie (slotOfCore c)).charge { core := c, tag := 0, cause := cause, info := info } none
  ((s.freeGroup g).queueUnit g.graph g.node g.unit).requeueNode g.graph g.node g.unit c

/-- A unit is checkpointed: frame, entries and notices, and its group is freed (R328, R353, R354, R372, R373). -/
def State.checkpoint (s : State) (g : Group) (cause : Nat) (page : Option Nat) (core : Nat) : State :=
  if let some c := s.openingBad g then s.loseOpening g c .controlWord 0 else
  let s := s.saveFrame g cause core
  let va := (s.node g.graph g.node).elim 0 fun n => ((n.unitRec g.unit).frame).getD 0
  let foot := ((s.descsOf g)[s.openIx g]?).elim 0 fun d => d.foot
  let s := if cause = 2 then s.postStop g core va else s
  let st : UnitSt := match cause, page with
    | 2, _ => .stoppedFrame
    | 1, some p => if s.pagePresent g.job p then .ready else .waitPage p
    | 1, none => .waitFoot foot
    | _, _ => .ready
  let s := s.freeGroup g
  let s := match cause, page with
    | 1, some p =>
      (match (s.job g.job).bind fun (j : Job) => j.leaves.find? fun (l : Leaf) => decide (l.va = p) with
       | some l =>
         if l.noticed ∨ l.pres then s
         else (s.modJob g.job fun j => { j with leaves := j.leaves.map fun (x : Leaf) => if x.va = p then { x with noticed := true } else x }).postNq
           { kind := 2, size := sizeCode l.size, status := 0, count := 0, job := g.job, va := p }
       | none => s)
    | 1, none => s.postNq { kind := 3, size := 0, status := 0, count := foot, job := g.job, va := 0 }
    | _, _ => s
  s.modUnit g.graph g.node g.unit fun r => { r with st := st, shape := g.shape }

/-- The code in a discard's trace record (R430). -/
def afterCode (s : State) (p : Pend) : Nat :=
  match p.after with
  | .checkpoint 0 _ | .checkpoint 3 _ => 0x80
  | .kill | .vanish => 0x81
  | .replay => 0x82
  | _ => bitsN (SMap.get 0 (s.core p.core).frec 0).toNat 0 8

/-- The discard or stop of a group takes effect (R323 to R329, R348, R354, R413). -/
def State.discharge (s : State) (g : Group) (p : Pend) : State :=
  let inseg := g.cores.any fun c => (s.core c).inSeg
  let s := s.discard g inseg
  let g := { g with pend := none, foot := 0, bar := none }
  let s := s.modGroup g.num fun x => { x with pend := none }
  let k := s.core p.core
  let raise (s : State) : State := g.cores.foldl (fun s c => s.modCore c fun k => { k with reent := k.reent + 1 }) s
  let low := decide (k.reent.toNat < k.seglim.toNat)
  let note (s : State) : State := if inseg then s.trace 3 g.num 0xFF 0xFF (afterCode s p) (s.core p.core).reent.toNat else s
  let freed (s : State) : State := s.freeGroup g
  let q := (g.cores.findSome? fun c => ((s.core c).seg.bind fun sg => sg.carry).map fun _ => 256 * (s.core c).div 3).getD 0
  let again (s : State) : State := s.modGroup g.num fun x => { x with reenter := some (g.reck + 64 + q) }
  let leaves (s : State) : State :=
    match p.also, g.leave with
    | some (c, page), _ => s.checkpoint g c page p.core
    | none, some (.checkpoint c) => s.checkpoint g c none p.core
    | none, _ => again s
  match p.after with
  | .counted =>
    if low then leaves (note (raise s))
    else ((freed (note s)).queueUnit g.graph g.node g.unit).requeueNode g.graph g.node g.unit p.core
  | .seamError => ((freed (note s)).queueUnit g.graph g.node g.unit).requeueNode g.graph g.node g.unit p.core
  | .replay => leaves (note s)
  | .kill => (freed (note s)).queueUnit g.graph g.node g.unit
  | .vanish => (freed (note s)).removeUnit g.graph g.node g.unit
  | .jobFatal =>
    let data := leBytes 8 g.unit ++ leBytes 8 0 ++ (s.core p.core).frecBytes
    let s := (freed (note s)).removeUnit g.graph g.node g.unit
    s.failJob g.job 4 (.node g.graph g.node) data
  | .checkpoint c page =>
    let s := note s
    if g.leave = some .vanish then (freed (if c = 2 then s.postStop g p.core 0 else s)).removeUnit g.graph g.node g.unit
    else s.checkpoint g c page p.core

/-! ### Completion of items (R345 to R347) -/

/-- An item completes: STATE 2 and an entry of KIND 1. -/
def State.completeItem (s : State) (i : Item) : State :=
  (s.putCtr i fun c => { c with st := 2 }).postItem i 1 0 (s.energyData i)

/-- Raises DONE of an item; true where that completes it. -/
def State.raiseDone (s : State) (i : Item) (closed : Bool) : State × Bool :=
  match s.ctrOf i with
  | none => (s, true)
  | some c =>
    if closed ∧ c.done + 1 = c.total ∧ (c.st = 0 ∨ c.st = 1 ∨ c.st = 5) then
      ((s.putCtr i fun c => { c with done := c.done + 1, st := 2 }).postItem i 1 0 (s.energyData i), true)
    else (s.putCtr i fun c => { c with done := c.done + 1 }, false)

/-- A phase completes: the job's count rises. -/
def State.phaseDone (s : State) (h : Nat) : State := (s.raiseDone (.job h) ((s.job h).elim false fun j => j.closed)).1

/-- A graph completes: its phase's count rises. -/
def State.graphDone (s : State) (gi : Nat) : State :=
  match s.graphs[gi]? with
  | none => s
  | some gr =>
    let closed := (s.job gr.job).elim false fun j => (j.phases.find? fun p => decide (p.no = gr.phase)).elim false fun p => p.closed
    match s.raiseDone (.phase gr.job gr.phase) closed with
    | (s, true) => s.phaseDone gr.job
    | (s, false) => s

/-- A unit counts as completed: DONE of its launch rises. -/
def State.unitDone (s : State) (gi ni : Nat) : State :=
  match s.raiseDone (.node gi ni) true with
  | (s, false) => s
  | (s, true) =>
    match s.graphs[gi]? with
    | some gr =>
      if gr.single then s.graphDone gi
      else (match s.raiseDone (.graph gi) true with
        | (s, true) => s.graphDone gi
        | (s, false) => s)
    | none => s

/-- Bytes of a span through the translations of a group's own unit, with its heap as it started: none where a byte is not readable, an uncorrectable one
among them. -/
def State.unitRead (s : State) (g : Group) (va n : Nat) : Option (List Byte) :=
  if n = 0 then some []
  else
    let c := g.cores.headD 0
    (s.runsBy (s.core c) (s.viewOf c) va n awR).bind fun rs =>
      if rs.all fun r => (s.eccScan r.pa r.len).1.isNone then some (rs.flatMap fun r => rdBytes s.mem r.pa r.len) else none

/-- The digest of a group's unit (R358): none where a range cannot be read. -/
def State.digestOf (s : State) (g : Group) (n : Node) : Option (List Byte) :=
  let u := g.unit
  ((n.outs.mapM fun o => (s.unitRead g ((o.1 + u * o.2.1) % 2 ^ 56) o.2.2).map fun bs =>
    leBytes 8 ((o.1 + u * o.2.1) % 2 ^ 64) ++ leBytes 8 o.2.2 ++ bs)).map fun l => shake256 l.flatten 32

/-- Takes the digest of a unit. -/
def State.takeDigest (s : State) (g : Group) : State :=
  match s.node g.graph g.node, s.job g.job with
  | some n, some j =>
    if n.digest = 0 then s
    else match (s.digestOf g n).bind fun d => s.jobWrite j ((n.digest + 32 * g.unit) % 2 ^ 56) d awW with
      | some s => s
      | none => s.postItem (.node g.graph g.node) 7 0 (leBytes 8 g.unit)
  | _, _ => s

/-- Samples the regulators of some dies and charges the launches whose units hold them (R441). -/
def State.sampleEnergy (s : State) (dies : List Nat) : State :=
  let s := dies.foldl (fun s d =>
    match s.groups.find? fun g => g.dies.contains d with
    | some g => s.modNode g.graph g.node fun n => { n with energy := n.energy + SMap.get 0 s.env.energy d }
    | none => s) s
  { s with env := { s.env with energy := s.env.energy.filter fun p => !dies.contains p.1 } }

end Sys2Proof.Machine
end

