-- ==== Sys2Proof/Machine/Dies.lean ====
section
/-! DEFINITION. Dies that fail or are quarantined (R14, R338, R418), error counts (R412), and how groups are made to stop (R329, R352, R405, R417). -/

namespace Sys2Proof.Machine

open Sys2Proof

/-! ### Stopping groups (R352, R405) -/

/-- Whether a group's unit is in a segment. -/
def State.groupInSeg (s : State) (g : Group) : Bool := g.cores.any fun c => (s.core c).inSeg

/-- rem: how much of ESTIM is left of the open segment of a group. -/
def State.remTicks (s : State) (g : Group) : Nat :=
  (g.cores.findSome? fun c => (s.core c).seg.map fun sg => sg.desc.estim - (g.reck - sg.openAt)).getD 0

/-- DRAINMAX (R444). -/
def State.drainMax (s : State) : Nat := bitsN (s.cregOf 0x310).toNat 0 32

/-- A group is to leave before its next SEG.OPEN. An earlier reason stands. -/
def State.leaveAtOpen (s : State) (g : Nat) (cause : Nat) : State :=
  s.modGroup g fun x => { x with leave := some (x.leave.getD (.checkpoint cause)) }

/-- A group is discarded at its next tick and what `a` says follows. -/
def State.pendGroup (s : State) (g : Nat) (a : After) : State := s.modGroup g fun x => x.setPend (x.cores.headD 0) a

/-- The checkpoint of a pre-emption, STOPPING, a DROP (cause 0) or a spent quota (cause 3): a long segment is discarded, or any segment where
`now` says so; otherwise the group leaves before its next SEG.OPEN. A group about to re-enter leaves there (R329). -/
def State.checkpointGroup (s : State) (g : Group) (cause : Nat) (now : Bool) : State :=
  if s.groupInSeg g && g.reenter.isNone && (now || decide (s.drainMax < s.remTicks g)) then s.pendGroup g.num (.checkpoint cause none)
  else s.leaveAtOpen g.num cause

/-- STOPPED and RUN bits of a group's debug control: a group that must go on leaves its debug stop. -/
def State.debugRelease (s : State) (g : Nat) : State :=
  if (s.group g).elim false fun x => x.stopped then
    let off := 0x600 + 8 * g
    ((s.setCreg off (s.cregOf off &&& ~~~0x10#64)).modGroup g fun x => { x with stopped := false, stopIn := none }).unclaim g 8
  else s

/-- Every group that runs a unit is made to stop (R405, R417). -/
def State.stopAll (s : State) : State := s.groups.foldl (fun s g => s.checkpointGroup g 0 false) s

/-- The groups that still run when the allowed time is over (R405): a segment is discarded and saved, a unit in a seam is killed. A debug stop
ends (R423). -/
def State.stopLate (s : State) : State :=
  s.groups.foldl (fun s g => (s.debugRelease g.num).pendGroup g.num (if s.groupInSeg g then .checkpoint 0 none else .kill)) s

/-! ### STATUS (R14, R418, R419) -/

/-- Writes the STATUS bits of a slot. -/
def State.putStatus (s : State) (slot v : Nat) : State :=
  let off := 0x40 + 8 * (slot / 8)
  let sh := 8 * (slot % 8) + 3
  let w := (s.cregOf off).toNat
  s.setCreg off (BitVec.ofNat 64 (w - bitsN w sh 2 * 2 ^ sh + v * 2 ^ sh))

/-- A group loses a die: one counted discard and a checkpoint, or a seam error; the group is dissolved. The error is charged to the group's first
core in a segment, or its first core (log entry 91). -/
def State.loseGroup (s : State) (g : Group) (slot : Nat) : State :=
  let c := (g.cores.find? fun c => (s.core c).inSeg).getD (g.cores.headD 0)
  let s := (s.debugRelease g.num).charge { core := c, tag := 0, cause := .dieLost, info := BitVec.ofNat 64 slot } none
  s.modGroup g.num fun x => { x with pend := x.pend.map fun p => { p with also := if p.after = .counted then some (p.also.getD (0, none)) else p.also } }

/-- The pseudo-channels of a failed B-die become LOST. -/
def State.loseChannels (s : State) (slot : Nat) : State :=
  (List.range 128).foldl (fun s i =>
    let ch := 128 * (slot - 1) + i
    if s.pcState ch < 2 then (s.setPcState ch 2).postNq { kind := 5, size := 0, status := 0, count := ch, job := 0, va := 0 } else s) s

/-- The collectives that an X-die holds end with an error of their contributors. -/
def State.loseColls (s : State) (xd : Nat) (cause : Cause) (info : W64) : State :=
  let lost := s.colls.filter fun x => decide (x.xdie = xd)
  let s : State := { s with colls := s.colls.filter fun x => decide (x.xdie ≠ xd) }
  lost.foldl (fun s x => s.collError x.parts cause info) s

/-- STATUS of a die changes in service, with its effects. Other transitions than those of R14 do not occur. -/
def State.changeStatus (s : State) (slot v : Nat) : State :=
  let old := s.dieStatus slot
  if slot = 0 ∨ 39 ≤ slot ∨ !((old = 0 ∧ (v = 2 ∨ v = 3)) ∨ (old = 2 ∧ v = 3)) then s
  else
    let s := (s.putStatus slot v).postNq { kind := 6, size := 0, status := 0, count := 256 * slot + v, job := 0, va := 0 }
    let s := (s.groups.filter fun g => g.dies.contains slot).foldl (fun s g => s.loseGroup g slot) s
    let s := if v = 2 ∧ 1 ≤ slot ∧ slot ≤ 8 then s.loseChannels slot else s
    if slot = 37 ∨ slot = 38 then s.loseColls (slot - 37) .dieLost (BitVec.ofNat 64 slot) else s

/-- A die that answers on none of its links is failed. -/
def execDieFailed (slot : Nat) (s : State) : Out := .next (s.changeStatus slot 2)

/-! ### Error counts (R412) -/

/-- ERRWIN ticks have passed: the counts are cleared. -/
def execErrorWindowClear (s : State) : Out := .next { s with pcErr := [], dieErr := [], errFrom := s.time }

end Sys2Proof.Machine
end

