-- ==== Sys2Proof/Machine/JobChan.lean ====
section
/-! DEFINITION. The job channel: the doorbell, the submissions and the completion ring (R346 to R351, R353, R354, R359). -/

namespace Sys2Proof.Machine

open Sys2Proof

/-! ### Rings in host memory (R349, R371) -/

/-- A VA of a channel header or ring as a PA of this module (log entry 12). -/
def State.ringPa (s : State) (va : Nat) : Nat := s.modId * 2 ^ 44 + va % 2 ^ 44

/-- The header that a base register names. -/
def State.headerPa (s : State) (off : Nat) : Nat := s.ringPa (bitsN (s.cregOf off).toNat 6 50 * 64)

/-- Ring sizes: a power of two from 16 to 65,536. -/
def ringOk (n : Nat) : Bool := (List.range 13).any fun i => decide (n = 2 ^ (i + 4))

/-- Writes an 8-byte field of a header. -/
def State.putHeader (s : State) (h o v : Nat) : State := s.store (h + o) (leBytes 8 v)

/-! ### Acknowledgements (R350, R351) -/

/-- Answers a submission; SUB names the node or the phase that it is about. -/
def State.ack (s : State) (e : Sbm) (status : Nat) (sub : Nat := 0) : State :=
  s.postCq { ack := e.seq, kind := 0, status := status, sub := sub, handle := e.handle, data := [] }

/-- SUB of an entry about an item. -/
def State.subOf (s : State) (i : Item) : Nat := (s.refOf i).2.2

/-- The entry of an OP. -/
def sbmInstr (op : Nat) (e : Sbm) : Option Instr :=
  match op with
  | 1 => some (.job e) | 2 => some (.phase e) | 3 => some (.phaseEnd e) | 4 => some (.graph e) | 5 => some (.launch e) | 6 => some (.cancel e)
  | 7 => some (.jobDestroy e) | 8 => some (.resume e) | 9 => some (.quota e) | 10 => some (.jobEnd e) | _ => none

/-- The device consumes the submission at SQHEAD, and goes on with the next after it is executed. -/
def State.takeSubmission (s : State) (v : W64) : State :=
  let h := s.headerPa 0x300
  let f (o n : Nat) : Nat := rdLe s.mem (h + o) n
  let head := f 0x20 8 % f 8 4
  if !ringOk (f 8 4) then s
  else
    let s := s.putHeader h 0x38 s.nextSub
    if head = f 0x18 8 % f 8 4 then s
    else
      let pa := s.ringPa (f 0 8 + 64 * head)
      let g (o n : Nat) : Nat := rdLe s.mem (pa + o) n
      let e : Sbm := { seq := g 0 8, flags := g 0xA 2, handle := g 0x10 8, arg0 := g 0x18 8, arg1 := g 0x20 8, arg2 := g 0x28 8 }
      if e.seq ≠ s.nextSub then s.ack e 2
      else
        let s := { (s.putHeader h 0x20 ((head + 1) % f 8 4)).putHeader h 0x38 (s.nextSub + 1) with nextSub := s.nextSub + 1 }
        match sbmInstr (g 8 2) e with
        | some i => { s with agenda := i :: .jcring v :: s.agenda }
        | none => { s.ack e 1 with agenda := .jcring v :: (s.ack e 1).agenda }

/-- A write to the doorbell: the device consumes entries from SQHEAD up to SQTAIL. -/
def execJcring (v : W64) (s : State) : Out := .next ((s.setCreg 0x308 v).takeSubmission v)

/-- Whether a ring of `n` entries with a tail and a head is full: the tail stands one before the head (log entry 69). -/
def ringFull (n tail head : Nat) : Bool := decide ((tail + 1) % n = head % n)

/-- The oldest completion entry that waits is written to the ring, if the ring has room. -/
def execCompletionEntryPost (s : State) : Out :=
  match s.cqWait with
  | [] => .next s
  | e :: rest =>
    let h := s.headerPa 0x300
    let f (o n : Nat) : Nat := rdLe s.mem (h + o) n
    let tail := f 0x28 8 % f 0xC 4
    if !ringOk (f 0xC 4) || ringFull (f 0xC 4) tail (f 0x30 8) then .next s
    else
      let seq := s.cqSeq + 1
      let bs := leBytes 8 seq ++ leBytes 8 e.ack ++ leBytes 2 e.kind ++ leBytes 2 e.status ++ leBytes 4 e.sub ++ leBytes 8 e.handle ++ padTo 32 (e.data.take 32)
      let s := (({ s with cqWait := rest, cqSeq := seq } : State).store (s.ringPa (f 0x10 8 + 64 * tail)) bs).putHeader h 0x28 ((tail + 1) % f 0xC 4)
      .next (match s.itemOf e.handle e.sub with
        | some i => s.putCtr i fun c => { c with cseq := seq % 2 ^ 32 }
        | none => s)

/-! ### Jobs and phases (R346, R347) -/

/-- A handle of a live item. -/
def State.handleUsed (s : State) (h : Nat) : Bool := (s.job h).isSome || s.graphs.any fun g => decide (g.handle = h)

/-- Whether a counter record has a readable and writable translation in one region. -/
def State.counterOk (s : State) (j : Job) (va : Nat) : Bool := (s.jobRuns j va 16 awRw).isSome

/-- The open phase of a job. -/
def Job.openPhase (j : Job) : Option Phase := j.phases.find? fun p => !p.closed

/-- Whether a job takes no more submissions than CANCEL and JOB.DESTROY. -/
def Job.ended (j : Job) : Bool := j.closed || j.destroyed

/-- JOB: a job with its frame pool and counter. -/
def execJob (e : Sbm) (s : State) : Out :=
  if s.handleUsed e.handle then .next (s.ack e 1)
  else
    let j : Job := { handle := e.handle, pool := e.arg0, poolLen := e.arg1, frames := [], ctr := Counter.new e.arg2 0, phases := [], closed := false, heapb := 0,
                     heapl := 0, heapo := 0, ranges := [], leaves := [], revoked := [], changes := [], destroyed := false }
    .next ((({ s with jobs := s.jobs ++ [j] } : State).putCtr (.job e.handle) id).ack e 0)

/-- PHASE. -/
def execPhase (e : Sbm) (s : State) : Out :=
  match s.job e.handle with
  | none => .next (s.ack e 5)
  | some j =>
    if j.ended || j.openPhase.isSome || !s.counterOk j e.arg0 then .next (s.ack e 1)
    else
      let p : Phase := { no := j.phases.length, ctr := Counter.new e.arg0 0, closed := false }
      .next (((s.modJob e.handle fun j => { j with phases := j.phases ++ [p] }).putCtr (.phase e.handle p.no) id).ack e 0 (p.no + 1))

/-- TOTAL of a phase or job is written; it completes if its count is reached. True where it does. -/
def State.setTotal (s : State) (i : Item) (n : Nat) : State × Bool :=
  let full := (s.ctrOf i).elim false fun c => decide (c.done = n) && decide (c.st = 0 ∨ c.st = 1)
  let s := s.putCtr i fun c => { c with total := n, st := if full then 2 else c.st }
  (if full then s.postItem i 1 0 [] else s, full)

/-- PHASE.END. -/
def execPhaseEnd (e : Sbm) (s : State) : Out :=
  match s.job e.handle with
  | none => .next (s.ack e 5)
  | some j =>
    match j.openPhase with
    | none => .next (s.ack e 1)
    | some p =>
      if j.ended then .next (s.ack e 1)
      else
        let s := s.modJob e.handle fun j => j.modPhase p.no fun p => { p with closed := true }
        let n := (s.graphs.filter fun g => decide (g.job = e.handle ∧ g.phase = p.no)).length
        match s.setTotal (.phase e.handle p.no) n with
        | (s, true) => .next ((s.phaseDone e.handle).ack e 0 (p.no + 1))
        | (s, false) => .next (s.ack e 0 (p.no + 1))

/-- JOB.END. -/
def execJobEnd (e : Sbm) (s : State) : Out :=
  match s.job e.handle with
  | none => .next (s.ack e 5)
  | some j =>
    if j.ended || j.openPhase.isSome then .next (s.ack e 1)
    else .next (((s.modJob e.handle fun j => { j with closed := true }).setTotal (.job e.handle) j.phases.length).1.ack e 0)

/-! ### Graphs and launches (R341, R347, R359, R364) -/

/-- The bytes of a task image through executable translations. -/
def State.imageBytes (s : State) (j : Job) (va : Nat) : Option (List Byte) := (s.jobRead j va 64 awX).bind fun h => s.jobRead j va (fieldAt h 0x20 8) awX

/-- MIX slots 1 to 38 with the STATUS bits cleared, one byte each. -/
def State.mixBytes (s : State) : List Byte :=
  (List.range 38).map fun i => BitVec.ofNat 8 (bitsN (s.cregOf (0x40 + 8 * ((i + 1) / 8))).toNat (8 * ((i + 1) % 8)) 8 &&& 0xE7)

/-- K of an image as it stands in memory (R359). -/
def State.lowerKey (s : State) (img : List Byte) : List Byte :=
  shake256 (img ++ [img.getD 6 0] ++ s.mixBytes ++ leBytes 4 (Config.translatorRev % 2 ^ 32)) 32

/-- Whether a portable image can be run (R359; log entry 13): its lowering is in the translation cache, or the translator can make it within the limits. -/
def State.canLower (s : State) (i : Image) (img : List Byte) : Bool :=
  !i.portable || !i.exact || s.lowered.contains (s.lowerKey img) || Config.lowerable img s.mixBytes

/-- The lowered image of a launch is held in the translation cache. -/
def State.holdLowered (s : State) (n : Node) : State :=
  if n.image.portable then { s with lowered := (s.lowerKey n.imgBytes :: s.lowered).eraseDups } else s

/-- The node of a launch parameter block, or the status of its refusal. -/
def State.readLaunch (s : State) (j : Job) (lpb : Nat) (preds : List Nat) : Except Nat Node :=
  match (if lpb % 64 = 0 then s.jobRead j lpb 256 awR else none) with
  | none => .error 1
  | some b =>
    match s.imageBytes j (fieldAt b 0 8) with
    | none => .error 1
    | some img =>
      match (parseImage img).bind fun i => nodeOf preds b img i with
      | none => .error 1
      | some n => if !s.counterOk j n.ctr.va then .error 1 else if !s.canLower n.image img then .error 4 else .ok n

/-- The nodes of a graph descriptor from their records. -/
def State.readNodes (s : State) (j : Job) (recs : List (List Byte)) : Except Nat (List Node) :=
  recs.zipIdx.mapM fun r =>
    let np := fieldAt r.1 8 2
    let preds := (List.range np).map fun i => fieldAt r.1 (0x10 + 2 * i) 2
    if 8 < np ∨ fieldAt r.1 0xA 6 ≠ 0 ∨ (preds.any fun p => decide (r.2 ≤ p)) then .error 1 else s.readLaunch j (fieldAt r.1 0 8) preds

/-- Adds a graph to the open phase of its job and writes its counter records. -/
def State.addGraph (s : State) (g : Graph) : State :=
  let gi := s.graphs.length
  let s : State := { s with graphs := s.graphs ++ [g] }
  let s := if g.single then s else s.putCtr (.graph gi) id
  (List.range g.nodes.length).foldl (fun s n => s.putCtr (.node gi n) id) s

/-- The job and open phase of a GRAPH or LAUNCH, or the status of its refusal. -/
def State.workPlace (s : State) (e : Sbm) : Except Nat (Job × Nat) :=
  match s.job e.arg0 with
  | none => .error 5
  | some j =>
    match j.openPhase with
    | none => .error 1
    | some p => if j.ended || s.handleUsed e.handle then .error 1 else .ok (j, p.no)

/-- Answers a GRAPH or LAUNCH. -/
def State.submitGraph (s : State) (e : Sbm) (r : Except Nat Graph) : State :=
  match r with
  | .error st => s.ack e st
  | .ok g => ((g.nodes.foldl State.holdLowered s).addGraph g).ack e 0

/-- GRAPH. -/
def execGraph (e : Sbm) (s : State) : Out :=
  .next (s.submitGraph e (match s.workPlace e with
    | .error st => .error st
    | .ok (j, ph) =>
      match (if e.arg1 % 64 = 0 then s.jobRead j e.arg1 24 awR else none) with
      | none => .error 1
      | some d =>
        let n := fieldAt d 0 4
        if n = 0 ∨ 4096 < n ∨ fieldAt d 4 4 ≠ 0 ∨ s.counterOk j (fieldAt d 0x10 8) = false then .error 1
        else
          match s.jobRead j (fieldAt d 8 8) (32 * n) awR with
          | none => .error 1
          | some bs =>
            match s.readNodes j ((List.range n).map fun i => (bs.drop (32 * i)).take 32) with
            | .error st => .error st
            | .ok nodes => .ok { handle := e.handle, single := false, job := j.handle, phase := ph, ctr := Counter.new (fieldAt d 0x10 8) n, nodes := nodes }))

/-- LAUNCH: a graph of one node. -/
def execLaunch (e : Sbm) (s : State) : Out :=
  .next (s.submitGraph e (match s.workPlace e with
    | .error st => .error st
    | .ok (j, ph) =>
      match s.readLaunch j e.arg1 [] with
      | .error st => .error st
      | .ok n => .ok { handle := e.handle, single := true, job := j.handle, phase := ph, ctr := Counter.new 0 1, nodes := [n] }))

/-! ### CANCEL and JOB.DESTROY (R348) -/

/-- The item that a level, a handle and ARG0 name. -/
def State.cancelItem (s : State) (level handle arg : Nat) : Option Item :=
  match level with
  | 0 =>
    (match s.itemOf handle arg with
     | some (.node g n) => some (.node g n)
     | _ => none)
  | 1 =>
    (match s.itemOf handle 0 with
     | some (.job _) => none
     | i => i)
  | 2 => if (s.ctrOf (.phase handle arg)).isSome then some (.phase handle arg) else none
  | _ => if (s.job handle).isSome then some (.job handle) else none

/-- Whether an item has ended. -/
def State.itemOver (s : State) (i : Item) : Bool := (s.ctrOf i).elim true fun c => decide (c.st = 2 ∨ c.st = 3 ∨ c.st = 4)

/-- Cancels the nodes of a level; the cancellation completes when their units have left (R348). -/
def State.startCancel (s : State) (e : Sbm) (level arg : Nat) (destroy : Bool) : State :=
  match s.cancelItem level e.handle arg with
  | none => s.ack e 5
  | some i =>
    let over' := s.itemOver i
    let r : CancelRec := { id := s.cancelId, level := level, handle := e.handle, arg := arg, destroy := destroy }
    let s := if over' then s else (s.levelNodes level e.handle arg).foldl (fun s p => s.cancelNode p.1 p.2 (bitN e.flags 2)) s
    let s := if over' && !destroy then s else ({ s with cancels := s.cancels ++ [r], cancelId := s.cancelId + 1 } : State)
    let s := if destroy then s.modJob e.handle fun j => { j with destroyed := true } else s
    s.ack e (if over' then 3 else 0) (s.subOf i)

/-- CANCEL. -/
def execCancel (e : Sbm) (s : State) : Out := .next (s.startCancel e (e.flags % 4) e.arg0 false)

/-- JOB.DESTROY: CANCEL at level 3, and then the job's handles, frames and pool are released. -/
def execJobDestroy (e : Sbm) (s : State) : Out := .next (s.startCancel e 3 0 true)

/-- Whether every unit of a cancellation has left its group. -/
def State.cancelReady (s : State) (r : CancelRec) : Bool :=
  let ns := s.levelNodes r.level r.handle r.arg
  !(s.groups.any fun g => ns.contains (g.graph, g.node))

/-- The handles of a job and of its work are free again. -/
def State.releaseJob (s : State) (h : Nat) : State :=
  { s with jobs := s.jobs.filter fun j => decide (j.handle ≠ h),
           graphs := s.graphs.map fun g => if g.job = h then { g with handle := 2 ^ 64, job := 2 ^ 64, nodes := [] } else g }

/-- Every unit of a cancellation has left its group: the item is cancelled, and one entry says so. -/
def execCancelComplete (n : Nat) (s : State) : Out :=
  match s.cancels.find? fun r => decide (r.id = n) with
  | none => .next s
  | some r =>
    let s : State := { s with cancels := s.cancels.filter fun x => decide (x.id ≠ n) }
    match s.cancelItem r.level r.handle r.arg with
    | none => .next s
    | some i =>
      let live := !s.itemOver i
      let s := s.stampItems (s.levelItems r.level r.handle r.arg) 3
      let s := if live then s.postItem i 2 0 (s.energyData i) else s
      .next (if r.destroy then s.releaseJob r.handle else s)

/-! ### RESUME and QUOTA (R353, R354) -/

/-- The node that a submission names, or the status of its refusal. -/
def State.namedNode (s : State) (e : Sbm) : Except Nat (Nat × Nat) :=
  if s.graphs.any fun g => decide (g.handle = e.handle) then
    match s.itemOf e.handle e.arg1 with
    | some (.node g n) => if ((s.graphs[g]?).bind fun x => s.job x.job).elim true fun j => j.ended then .error 1 else .ok (g, n)
    | _ => .error 1
  else if (s.job e.handle).isSome then .error 1
  else .error 5

/-- A held group goes on: its engines issue again at the next opportunities of their dividers. -/
def State.unhold (s : State) (g : Group) : State :=
  let s := s.modGroup g.num fun x => { x with held := none }
  g.cores.foldl (fun s c => s.modCore c fun k =>
    { k with eng := k.eng.map fun p =>
        if p.2.nextAt ≤ g.reck then (p.1, { p.2 with nextAt := p.2.nextAt + ((g.reck - p.2.nextAt) / k.div p.1 + 1) * k.div p.1 }) else p }) s

/-- RESUME: a unit that a trap or fault stopped continues. -/
def execResume (e : Sbm) (s : State) : Out :=
  match s.namedNode e with
  | .error st => .next (s.ack e st)
  | .ok (g, n) =>
    let answer (s : State) (st : Nat) : Out := .next (s.ack e st (s.subOf (.node g n)))
    match (s.node g n).bind fun x => if x.cancelled then none else x.units.find? fun r => decide (r.u = e.arg0) with
    | none => answer s 1
    | some r =>
      match r.st with
      | .stoppedFrame => answer (s.modUnit g n r.u fun r => { r with st := .ready }) 0
      | .running num =>
        (match s.group num with
         | some x => if x.held.isSome then answer (s.unhold x) 0 else answer s 1
         | none => answer s 1)
      | _ => answer s 1

/-- QUOTA: the energy quota rises and a suspended launch runs again. -/
def execQuota (e : Sbm) (s : State) : Out :=
  match s.namedNode e with
  | .error st => .next (s.ack e st)
  | .ok (g, n) =>
    let s := s.modNode g n fun x => { x with energyQ := if x.energyQ = 0 then 0 else x.energyQ + e.arg0 }
    let s := if (s.ctrOf (.node g n)).elim false fun c => decide (c.st = 5) then s.putCtr (.node g n) fun c => { c with st := 1 } else s
    .next (s.ack e 0 (s.subOf (.node g n)))

end Sys2Proof.Machine
end

