-- ==== Sys2Proof/Machine/SchedEv.lean ====
section
/-! DEFINITION. The scheduler's choices and the events of units: start, resume, completion, pre-emption, energy (R339 to R345, R352, R353, R357, R441). -/

namespace Sys2Proof.Machine

open Sys2Proof

/-! ### Which units may start (R343, R346, R347, R357) -/

/-- Whether units of a node may start: its predecessors have completed, its phase has its turn, and it is neither over, cancelled nor suspended. -/
def State.nodeReady (s : State) (gi ni : Nat) : Bool :=
  match s.graphs[gi]?, s.node gi ni with
  | some gr, some n =>
    !n.cancelled && decide (n.ctr.st = 0 ∨ n.ctr.st = 1) && (n.preds.all fun p => (s.node gi p).elim false fun q => decide (q.ctr.st = 2)) &&
    (s.job gr.job).elim false fun j => !j.destroyed && j.phases.all fun p => !decide (p.no < gr.phase) || (p.closed && decide (p.ctr.st = 2))
  | _, _ => false

/-- The first unit in traversal order from index k that has not started, with its index. -/
def Node.freshFrom (n : Node) : Nat → Nat → Option (Nat × Nat)
  | 0, _ => none
  | f + 1, k =>
    if k < n.size then
      let u := n.linear (n.unitAt k)
      if n.units.any fun r => decide (r.u = u) then n.freshFrom f (k + 1) else some (k, u)
    else none

/-- Shape codes that a node accepts and its image holds. -/
def Node.accepted (n : Node) : List Nat := (List.range 4).filter fun i => bitN n.shapes i && n.image.shapes.any fun x => decide (x.shape = i)

/-- The entries of a dispatch trace as (u, RUN, shape). -/
def State.traceEnts (s : State) (gi : Nat) (n : Node) : Option (List (Nat × Nat × Nat)) :=
  ((s.graphs[gi]?).bind fun gr => s.job gr.job).bind fun j =>
    (s.jobRead j n.trace (16 * n.tracelen) awR).map fun bs =>
      (List.range n.tracelen).map fun i => let e := (bs.drop (16 * i)).take 16; (fieldAt e 0 4, fieldAt e 4 2, fieldAt e 6 1)

/-- Whether an entry names a start that can occur now. -/
def Node.startable (n : Node) (u run : Nat) : Bool :=
  match n.units.find? fun r => decide (r.u = u) with
  | none => decide (run = 0)
  | some r => decide (r.starts = run) && decide (r.st = .queued)

/-- A start the scheduler may make: the unit, the shapes it may take, the traversal index and the trace position after it. -/
structure Start where
  u : Nat
  shapes : List Nat
  nextK : Nat
  traced : Nat
deriving DecidableEq, Repr

/-- The starts of a node in the order in which they are tried. Under replay the trace governs, and a restart that it does not hold is
made at once. -/
def State.starts (s : State) (gi : Nat) (n : Node) : List Start :=
  let queued := n.units.filter fun r => decide (r.st = .queued)
  let again (rs : List UnitRec) : List Start := rs.map fun r => { u := r.u, shapes := n.accepted, nextK := n.nextK, traced := n.traced }
  let fresh : List Start := (n.freshFrom (n.units.length + 1) n.nextK).toList.map fun p => { u := p.2, shapes := n.accepted, nextK := p.1 + 1, traced := n.traced }
  if n.det = 2 then
    let ents := ((s.traceEnts gi n).getD []).drop n.traced
    let free := again (queued.filter fun r => !(ents.any fun e => decide (e.1 = r.u ∧ e.2.1 = r.starts)))
    match ents.findIdx? fun e => n.startable e.1 e.2.1 with
    | some i =>
      let e := ents.getD i (0, 0, 0)
      free ++ [{ u := e.1, shapes := [e.2.2], nextK := n.nextK, traced := n.traced + i + 1 }]
    | none => free ++ fresh
  else again queued ++ fresh

/-- Whether the trace of a node that has not started anything cannot be replayed. -/
def State.badTrace (s : State) (gi : Nat) (n : Node) : Bool :=
  decide (n.det = 2 ∧ n.units = []) &&
  match s.traceEnts gi n with
  | none => true
  | some es => es.any fun e => decide (n.size ≤ e.1) || !n.accepted.contains e.2.2

/-- The lowest of some shapes for which a group is free or can be formed. -/
def State.shapeFor (s : State) (shapes : List Nat) : Option Nat := shapes.find? fun i => s.canForm i

/-! ### Resuming (R328, R340, R352) -/

/-- The frame of a unit. -/
def State.frameOf (s : State) (gi : Nat) (r : UnitRec) : Option (List Byte) :=
  ((s.graphs[gi]?).bind fun gr => s.job gr.job).bind fun j => r.frame.bind fun va =>
    (s.jobRead j va 256 awR).bind fun h => s.jobRead j va (max 256 (min r.flen (fieldAt h 0x60 8))) awR

/-- Whether a frame is one of its launch. -/
def ctxOk (r : UnitRec) (f : List Byte) : Bool := decide (fieldAt f 0 4 = 0x4346_3737 ∧ fieldAt f 4 2 = 1 ∧ fieldAt f 6 1 = r.shape)

/-- The equivalence point of a frame. -/
def frameEq (n : Node) (f : List Byte) : Option EqPoint := n.image.eqps.find? fun e => decide (e.eqid = fieldAt f 0x88 4)

/-- The shapes that a unit may resume on: its saved one, and at an equivalence point the other accepted ones. -/
def resumeShapes (n : Node) (r : UnitRec) (f : Option (List Byte)) : List Nat :=
  r.shape :: match f.bind fun f => frameEq n f with
    | some e => n.accepted.filter fun i => decide (i ≠ r.shape ∧ e.desc.getD i 0xFFFF_FFFF ≠ 0xFFFF_FFFF)
    | none => []

/-- Whether a unit can resume: stopped, and what it waits for has come. -/
def State.resumable (s : State) (gi : Nat) (r : UnitRec) : Bool :=
  match r.st with
  | .ready => true
  | .waitPage va => (s.graphs[gi]?).elim false fun gr => s.pagePresent gr.job va
  | _ => false

/-! ### Choices (R344, R352) -/

/-- What a node asks for next: an event, or shapes for which room must be made. -/
inductive Wish where
  | does (i : Instr)
  | room (shape : Nat)
deriving DecidableEq, Repr

/-- Tries one start. -/
def State.tryStart (s : State) (gi ni : Nat) (x : Start) : Option Wish :=
  if (s.takeFrame gi ni x.u).isNone then none
  else match s.shapeFor x.shapes with
  | some _ => some (.does (.unitStart gi ni x.u))
  | none => x.shapes.head?.map Wish.room

/-- Tries one resumption. -/
def State.tryResume (s : State) (gi ni : Nat) (n : Node) (r : UnitRec) : Wish :=
  let f := s.frameOf gi r
  if !(f.elim false fun f => ctxOk r f) then .does (.unitResume gi ni r.u)
  else match s.shapeFor (resumeShapes n r f) with
  | some _ => .does (.unitResume gi ni r.u)
  | none => .room r.shape

/-- What a node asks for, the first that can be met before the others. -/
def State.wishOf (s : State) (gi ni : Nat) : Option Wish :=
  (s.node gi ni).bind fun n =>
    if s.badTrace gi n then some (.does (.unitStart gi ni 0))
    else
      let ws := ((n.units.filter fun r => s.resumable gi r).map fun r => s.tryResume gi ni n r) ++ (s.starts gi n).filterMap fun x => s.tryStart gi ni x
      (ws.find? fun w => match w with
        | .does _ => true
        | .room _ => false).or ws.head?

/-- Puts an element before the first that it does not follow. -/
def insertBy {α : Type} (le : α → α → Bool) (a : α) : List α → List α
  | [] => [a]
  | b :: r => if le a b then a :: b :: r else b :: insertBy le a r

/-- A list in order; equals keep their places. -/
def sortBy {α : Type} (le : α → α → Bool) (l : List α) : List α := l.foldr (insertBy le) []

/-- TOKENS of the unit of a group. -/
def State.tokensOf (s : State) (g : Group) : Nat := (s.node g.graph g.node).elim 0 fun n => n.tokens

/-- Whether a group is already on its way out. -/
def Group.leaving (g : Group) : Bool := g.leave.isSome || g.pend.elim false fun p => match p.after with
  | .counted | .replay => p.also.isSome
  | _ => true

/-- Whether a shape could be formed if some groups were gone. -/
def State.formsWithout (s : State) (gone : List Group) (shape : Nat) : Bool :=
  (s.diesFor (gone.flatMap fun g => g.dies) shape).isSome && (s.numFor (gone.map fun g => g.num) shape).isSome

/-- Groups that may be victims of a newcomer: fewer TOKENS first, the latest start first among equals (R352). -/
def State.victimOrder (s : State) (tokens : Nat) : List Group :=
  let vs := s.groups.reverse.filter fun g => decide (s.tokensOf g < tokens) && g.held.isNone && !g.leaving
  sortBy (fun a b => decide (s.tokensOf a < s.tokensOf b) || (decide (s.tokensOf a = s.tokensOf b) && decide (b.startAt ≤ a.startAt))) vs

/-- The first victims of a list with which a shape can be formed. -/
def State.victimsFrom (s : State) (shape : Nat) (gone : List Group) : List Group → Option (List Group)
  | [] => none
  | g :: r => if s.formsWithout (g :: gone) shape then some [g] else (s.victimsFrom shape (g :: gone) r).map fun vs => g :: vs

/-- The victims that a newcomer needs: none where it cannot be served, and no one where stops already under way make room. -/
def State.victims (s : State) (tokens shape : Nat) : Option (List Group) :=
  let gone := s.groups.filter fun g => g.leaving
  if s.formsWithout gone shape then some [] else s.victimsFrom shape gone (s.victimOrder tokens)

/-- Nodes whose units may start, by TOKENS and then in the order of submission. -/
def State.nodeOrder (s : State) : List (Nat × Nat) :=
  let ns := (s.nodesWhere fun _ _ => true).filter fun p => s.nodeReady p.1 p.2
  let tok (p : Nat × Nat) : Nat := (s.node p.1 p.2).elim 0 fun n => n.tokens
  sortBy (fun a b => decide (tok b ≤ tok a)) ns

/-- The scheduler's next act: it serves the nodes in order; where it must make room for one, nodes after it wait. -/
def State.chooseFrom (s : State) : List (Nat × Nat) → Option Instr
  | [] => none
  | p :: r =>
    match s.wishOf p.1 p.2 with
    | none => s.chooseFrom r
    | some (.does i) => some i
    | some (.room shape) =>
      match s.victims ((s.node p.1 p.2).elim 0 fun n => n.tokens) shape with
      | none => s.chooseFrom r
      | some [] => none
      | some _ => some (.preemption p.1 p.2)

/-- The scheduler's next act. No group is formed outside RUN and BANKED (R404) or during a DROP (R417). -/
def State.schedNext (s : State) : Option Instr := if s.mayForm && s.dropSt.isNone then s.chooseFrom s.nodeOrder else none

/-! ### Starts and resumptions -/

/-- A launch ends with STATE 4: its units are cancelled at once. -/
def State.endLaunch (s : State) (gi ni : Nat) : State := (s.cancelNode gi ni true).stampItems [.node gi ni] 4

/-- A unit starts on the lowest accepted shape (R344); a trace that cannot be replayed ends its launch (R357). -/
def execUnitStart (graph node u : Nat) (s : State) : Out :=
  match s.node graph node with
  | none => .next s
  | some n =>
    if s.badTrace graph n then .next ((s.endLaunch graph node).postItem (.node graph node) 4 1 [])
    else
      match (s.starts graph n).find? fun x => decide (x.u = u) with
      | none => .next s
      | some x =>
        match (s.shapeFor x.shapes).bind fun sh => s.startUnit graph node u sh with
        | none => .next s
        | some t => .next (t.modNode graph node fun m => { m with nextK := x.nextK, traced := if n.det = 2 then x.traced else m.traced })

/-- A group's cores take the state of a frame, on its shape or through the state map of its equivalence point. -/
def State.restoreUnit (s : State) (g : Group) (n : Node) (r : UnitRec) (f : List Byte) : State :=
  let s := ({ s with groups := s.groups ++ [g] } : State).giveStreams g n
  let s := if g.shape = r.shape then s.loadFrame g f
    else match frameEq n f with
      | some e => (s.fillUnit g n).mapFrame g e f
      | none => s
  (s.modGroup g.num fun x => { x with reenter := some 1 }).modUnit g.graph g.node r.u fun r => { r with st := .running g.num, shape := g.shape }

/-- A unit resumes from its frame: its SEG.OPEN issues as a re-entry that is not counted (R328). A frame that is not its launch's ends the
launch (R356). -/
def execUnitResume (graph node u : Nat) (s : State) : Out :=
  match s.node graph node, s.graphs[graph]? with
  | some n, some gr =>
    (match n.units.find? fun r => decide (r.u = u) with
     | none => .next s
     | some r =>
       match s.frameOf graph r with
       | none => .next (s.endLaunch graph node)
       | some f =>
         if !ctxOk r f then .next (s.endLaunch graph node)
         else
           match (s.shapeFor (resumeShapes n r (some f))).bind fun sh => s.formGroup sh graph node u gr.job with
           | none => .next s
           | some g => .next (s.restoreUnit g n r f))
  | _, _ => .next s

/-! ### Pre-emption (R352) -/

/-- What happens to a victim. One whose segment is to be discarded for a counted cause is checkpointed then (R329). -/
def State.evict (s : State) (tokens : Nat) (g : Group) : State :=
  let kill := (s.node g.graph g.node).elim 0xFFFF_FFFF fun n => n.kill
  let may := decide (kill ≠ 0xFFFF_FFFF ∧ kill ≤ tokens)
  if s.groupInSeg g && g.reenter.isNone then
    if s.remTicks g ≤ s.drainMax then s.leaveAtOpen g.num 0
    else s.pendGroup g.num (if may ∧ g.pend.isNone then .kill else .checkpoint 0 none)
  else if may && g.reenter.isNone then s.pendGroup g.num .kill
  else s.leaveAtOpen g.num 0

/-- A ready unit of a node takes the victims that it needs. -/
def execPreemption (graph node : Nat) (s : State) : Out :=
  let tokens := (s.node graph node).elim 0 fun n => n.tokens
  match s.wishOf graph node with
  | some (.room shape) => .next (((s.victims tokens shape).getD []).foldl (fun s g => s.evict tokens g) s)
  | _ => .next s

/-! ### Energy (R353, R441) -/

/-- A launch whose metered energy has reached its quota is suspended. -/
def State.checkQuota (s : State) (gi ni : Nat) : State :=
  match s.node gi ni with
  | none => s
  | some n =>
    if n.energyQ ≠ 0 ∧ n.energyQ ≤ n.metered ∧ (n.ctr.st = 0 ∨ n.ctr.st = 1) then
      let s := (s.groups.filter fun g => decide (g.graph = gi) && decide (g.node = ni)).foldl (fun s g => s.checkpointGroup g 3 true) s
      let s := s.putCtr (.node gi ni) fun c => { c with st := 5 }
      s.postItem (.node gi ni) 6 0 (s.energyData (.node gi ni))
    else s

/-- Every regulator is sampled. -/
def execEnergySample (s : State) : Out :=
  let s := s.sampleEnergy (List.range 40)
  .next ((s.nodesWhere fun _ _ => true).foldl (fun s p => s.checkQuota p.1 p.2) s)

/-! ### Completion (R345, R432) -/

/-- The unit of a group is complete: energy, snapshots, digest, release, counts. -/
def execUnitComplete (g : Nat) (s : State) : Out :=
  match s.group g with
  | none => .next s
  | some x =>
    let s := s.sampleEnergy x.dies
    let s := (s.coreset x).foldl (fun s p => s.snapshot p.1 1 0 (((s.core p.1).engine 0).pc - 1)) s
    let s := s.takeDigest x
    let s := s.trace 11 g 0xFF 0xFF x.unit ((s.graphs[x.graph]?).elim 0 fun gr => gr.handle)
    let s := ((s.freeGroup x).dropFrame x.graph x.node x.unit).modUnit x.graph x.node x.unit fun r => { r with st := .finished }
    .next ((s.unitDone x.graph x.node).checkQuota x.graph x.node)

end Sys2Proof.Machine
end

