-- ==== Sys2Proof/Machine/MemProc.lean ====
section
/-! DEFINITION. The memory processor: the request window, its requests and the notification ring (R361 to R368, R371 to R379, R417 to R419, R447). -/

namespace Sys2Proof.Machine

open Sys2Proof

/-! ### The request window (R371, R372) -/

/-- The request of an OP. -/
def reqInstr (op : Nat) (r : Req) : Option Instr :=
  match op with
  | 1 => some (.heap r) | 2 => some (.mapr r) | 3 => some (.mapp r) | 4 => some (.prot r) | 5 => some (.unmap r) | 6 => some (.migbegin r)
  | 7 => some (.migend r) | 8 => some (.cntrst r) | 9 => some (.query r) | 10 => some (.frames r) | 11 => some (.deny r) | 12 => some (.drop r)
  | 13 => some (.quar r) | _ => none

/-- The response to a request, to be posted once it has taken effect for every group. -/
def State.respond (s : State) (r : Req) (status size : Nat) (page : Option (Nat × Nat)) : State :=
  { s with resps := s.resps ++ [{ seq := r.seq, ent := { kind := 0, size := size, status := status, count := r.seq % 2 ^ 32, job := r.job, va := r.va }, page := page }] }

/-- The memory processor consumes the request at RQHEAD, and goes on with the next after it is executed. -/
def State.takeRequest (s : State) (v : W64) : State :=
  let h := s.headerPa 0x320
  let f (o n : Nat) : Nat := rdLe s.mem (h + o) n
  let head := f 0x20 8 % f 8 4
  if !ringOk (f 8 4) then s
  else
    let s := s.putHeader h 0x38 s.nextReq
    if head = f 0x18 8 % f 8 4 then s
    else
      let pa := s.ringPa (f 0 8 + 64 * head)
      let g (o n : Nat) : Nat := rdLe s.mem (pa + o) n
      let r : Req := { seq := g 0 8, flags := g 0xA 2, job := g 0x10 8, va := g 0x18 8, len := g 0x20 8, arg0 := g 0x28 8, arg1 := g 0x30 8, arg2 := g 0x38 8 }
      if r.seq ≠ s.nextReq then s.postNq { kind := 0, size := 0, status := 2, count := r.seq % 2 ^ 32, job := r.job, va := r.va }
      else
        let s := { (s.putHeader h 0x20 ((head + 1) % f 8 4)).putHeader h 0x38 (s.nextReq + 1) with nextReq := s.nextReq + 1 }
        match reqInstr (g 8 2) r with
        | some i => { s with agenda := i :: .mpring v :: s.agenda }
        | none => { s.respond r 1 0 none with agenda := .mpring v :: s.agenda }

/-- A write to the doorbell: the memory processor consumes requests from RQHEAD up to RQTAIL. -/
def execMpring (v : W64) (s : State) : Out := .next ((s.setCreg 0x328 v).takeRequest v)

/-- The oldest notification entry that waits is written to the ring, if the ring has room. -/
def execNotificationPost (s : State) : Out :=
  match s.nqWait with
  | [] => .next s
  | e :: rest =>
    let h := s.headerPa 0x320
    let f (o n : Nat) : Nat := rdLe s.mem (h + o) n
    let tail := f 0x28 8 % f 0xC 4
    if !ringOk (f 0xC 4) || ringFull (f 0xC 4) tail (f 0x30 8) then .next s
    else
      let seq := s.nqSeq + 1
      let bs := leBytes 8 seq ++ leBytes 1 e.kind ++ leBytes 1 e.size ++ leBytes 2 e.status ++ leBytes 4 e.count ++ leBytes 8 e.job ++ leBytes 8 e.va
      .next ((({ s with nqWait := rest, nqSeq := seq } : State).store (s.ringPa (f 0x10 8 + 32 * tail)) bs).putHeader h 0x28 ((tail + 1) % f 0xC 4))

/-- Whether a response may be posted: its change has reached every group, its DROP has ended, no write to its frame is under way. -/
def State.respReady (s : State) (r : Resp) : Bool :=
  !(s.jobs.any fun j => j.changes.any fun c => decide (c.seq = r.seq)) && (s.dropSt.elim true fun d => decide (d.seq ≠ r.seq)) &&
  (r.page.elim true fun p => !(s.flights.any fun f => f.work.writes.any fun x => x.meets { va := 0, pa := p.1, len := p.2 }))

/-- A request has taken effect for every group: its one response is posted. -/
def execRequestResponse (seq : Nat) (s : State) : Out :=
  match s.resps.find? fun r => decide (r.seq = seq) with
  | none => .next s
  | some r => if s.respReady r then .next (({ s with resps := s.resps.filter fun x => decide (x.seq ≠ seq) } : State).postNq r.ent) else .next s

/-! ### Checks (R362 to R368) -/

/-- Element and scale bytes of a block. -/
def planesOk (a : BitVec 5) (esz ssz units : Nat) : Bool :=
  if attrBlock a then
    decide (1 ≤ esz ∧ esz * 65536 % attrEb a = 0 ∧ esz * 65536 / attrEb a * attrSb a ≤ ssz * 65536) && (if a.getLsbD 4 then decide (esz + ssz < units) else decide (esz + ssz = units))
  else decide (esz = 0 ∧ ssz = 0)

/-- Whether an attribute word is one that R364 allows: for a page entry, for a FLAT range, and against the PA where there is one. -/
def attrOk (a : BitVec 16) (page flat : Bool) (pa : Option Nat) : Bool :=
  decide (a.extractLsb' 13 3 = 0#3) && !attrReserved (awFmt a) && (pa.elim true fun p => awHost a == isHost p) && !(page && attrBlock (awFmt a)) &&
  !(awShared a && attrBlock (awFmt a)) && !(flat && awCnt a)

/-- Bytes of a page size code. -/
def pageSize (c : Nat) : Nat := if c = 0 then 2 ^ 16 else if c = 1 then 2 ^ 21 else if c = 2 then 2 ^ 30 else 2 ^ 32

/-- Heap of a job: base and length. -/
def Job.heapSpan (j : Job) : Nat × Nat := (bitsN j.heapb.toNat 16 40 * 65536, bitsN j.heapl.toNat 16 40 * 65536)

/-- Whether the physical span of the heap that a core's unit started with is hit. -/
def Core.heapHits (k : Core) (hit : Nat → Nat → Bool) : Bool :=
  let n := bitsN k.heapl.toNat 16 40 * 65536
  decide (n ≠ 0) && hit ((bitsN k.heapb.toNat 16 40 * 65536 + bitsN k.heapo.toNat 16 40 * 65536) % 2 ^ 56) n

def laps (a n b m : Nat) : Bool := decide (a < b + m) && decide (b < a + n)

/-- Whether [va, va + len) meets the heap, a range or a page leaf of a job. -/
def Job.hitsHeap (j : Job) (va len : Nat) : Bool := laps j.heapSpan.1 j.heapSpan.2 va len && decide (j.heapSpan.2 ≠ 0)
def Job.hitsRange (j : Job) (va len : Nat) : Bool := j.ranges.any fun r => laps r.base (r.limit - r.base) va len
def Job.hitsLeaf (j : Job) (va len : Nat) : Bool := j.leaves.any fun l => laps l.va l.size va len

/-- The PAGED range that covers an address. -/
def Job.pagedAt (j : Job) (va : Nat) : Option Range := j.ranges.find? fun r => r.paged && decide (r.base ≤ va ∧ va < r.limit)

/-- The attribute word that applies to a leaf. -/
def Job.leafAttr (j : Job) (l : Leaf) : BitVec 16 := (j.pagedAt l.va).elim l.attr fun r => r.attr

/-- Whether a frame is mapped writable by a present leaf of some context other than that at `va` of job `h` (R368). -/
def State.wrBusy (s : State) (h va pa size : Nat) : Bool :=
  s.jobs.any fun j => j.leaves.any fun l =>
    l.pres && awW (j.leafAttr l) && laps l.pa l.size pa size && !(decide (j.handle = h) && decide (l.va = va))

/-- The physical spans that the present leaves, FLAT ranges and heap of a job reach, each with its VA (none for the heap) and whether it is
writable. -/
def Job.spans (j : Job) : List (Option Nat × Nat × Nat × Bool) :=
  ((j.leaves.filter fun l => l.pres).map fun l => (some l.va, l.pa, l.size, awW (j.leafAttr l))) ++
  ((j.ranges.filter fun r => !r.paged).map fun r => (some r.base, (r.base + r.off) % 2 ^ 56, r.limit - r.base, awW r.attr)) ++
  (if j.heapSpan.2 = 0 then [] else [(none, (j.heapSpan.1 + bitsN j.heapo.toNat 16 40 * 65536) % 2 ^ 56, j.heapSpan.2, awW (j.heapb.setWidth 16))])

/-- Whether a span would be reached through a writable translation and through a read-only one, apart from that at `va` of job `h`
(R309; log entry 115). -/
def State.mixedRights (s : State) (h : Nat) (va : Option Nat) (pa size : Nat) (w : Bool) : Bool :=
  s.jobs.any fun j => j.spans.any fun x =>
    decide (x.2.2.2 ≠ w) && laps x.2.1 x.2.2.1 pa size && !decide (j.handle = h ∧ x.1 = va)

/-- Whether the bytes of a FLAT range lie within one region or contiguous regions of one module; `n` regions at most. -/
def State.regionsOk (s : State) : Nat → Nat → Nat → Bool
  | 0, _, _ => false
  | n + 1, pa, len =>
    let p := s.placeOf pa
    p.region && (decide (pa + len ≤ p.base + p.len) || s.regionsOk n (p.base + p.len) (pa + len - (p.base + p.len)))

/-- Executes a request about a job: NOHANDLE for an unknown one, INVALID where `f` gives nothing. -/
def State.about (s : State) (r : Req) (f : Job → Option State) : Out :=
  match s.job r.job with
  | none => .next (s.respond r 5 0 none)
  | some j =>
    match f j with
    | none => .next (s.respond r 1 0 none)
    | some t => .next t

/-- Spans leave the revoked list when they are mapped again (R374). -/
def Job.unrevoke (j : Job) (va len : Nat) : Job :=
  { j with revoked := j.revoked.flatMap fun x =>
      let lo := if x.base < va then [{ base := x.base, len := min x.len (va - x.base) }] else []
      let hi := if va + len < x.base + x.len then [{ base := max x.base (va + len), len := x.base + x.len - max x.base (va + len) }] else []
      lo ++ hi }

/-- Groups that run a unit of a job. -/
def State.groupsOf (s : State) (h : Nat) : List Nat := (s.groups.filter fun g => decide (g.job = h)).map fun g => g.num

/-- A change is accepted; groups that run no unit of the job have it at once (R375). -/
def State.addChange (s : State) (r : Req) (k : ChangeKind) (va len : Nat) (deadline : Option Nat) : State :=
  let c : Change := { seq := r.seq, kind := k, va := va, len := len, waiting := s.groupsOf r.job, deadline := deadline }
  (s.modJob r.job fun j => { j with changes := j.changes ++ [c] }).finishChanges

/-! ### HEAP, MAPR, MAPP (R362, R365, R368, R371) -/

/-- HEAP: for units started afterwards. -/
def execHeap (r : Req) (s : State) : Out :=
  s.about r fun j =>
    let attr := BitVec.ofNat 16 r.arg1
    let off := r.arg0 % 2 ^ 56
    let pa := (r.va + off) % 2 ^ 56
    let p := s.placeOf pa
    if r.va % 65536 ≠ 0 ∨ r.len % 65536 ≠ 0 ∨ off % 65536 ≠ 0 ∨ 2 ^ 56 ≤ r.va ∨ 2 ^ 56 < r.va + r.len ∨ 2 ^ 16 ≤ r.arg1 ∨
        (r.len ≠ 0 ∧ (2 ^ 52 < pa + r.len ∨ isHbm pa = false ∨ p.region = false ∨ p.base + p.len < pa + r.len)) then none
    else if !attrOk attr false false (some pa) || !awR attr || awX attr || awWb attr || awCnt attr || awHost attr || attrBlock (awFmt attr) ||
        (decide (r.len ≠ 0) && (j.hitsRange r.va r.len || j.hitsLeaf r.va r.len || s.mixedRights r.job none pa r.len (awW attr))) then none
    else some ((s.modJob r.job fun j =>
      { j with heapb := BitVec.ofNat 64 (r.va + attr.toNat), heapl := BitVec.ofNat 64 r.len, heapo := BitVec.ofNat 64 off }).respond r 0 0 none)

/-- MAPR: a new range, at once. -/
def execMapr (r : Req) (s : State) : Out :=
  s.about r fun j =>
    let attr := BitVec.ofNat 16 r.arg1
    let kind := bitsN r.arg1 16 8
    let off := r.arg0 % 2 ^ 56
    let pa := (r.va + off) % 2 ^ 56
    let esz := r.arg2 % 2 ^ 32
    let ssz := r.arg2 / 2 ^ 32
    let flat := decide (kind = 0)
    if r.va % 65536 ≠ 0 ∨ r.len % 65536 ≠ 0 ∨ r.len = 0 ∨ 2 ^ 56 < r.va + r.len ∨ off % 65536 ≠ 0 ∨ 1 < kind ∨ (kind = 1 ∧ off ≠ 0) ∨ 2 ^ 24 ≤ r.arg1 ∨
        j.hitsHeap r.va r.len ∨ j.hitsRange r.va r.len ∨ j.hitsLeaf r.va r.len then none
    else if !attrOk attr false flat (if flat then some pa else none) || !planesOk (awFmt attr) esz ssz (r.len / 65536) ||
        (flat && (decide (2 ^ 52 < pa + r.len) || decide (pa / 2 ^ 44 ≠ (pa + r.len - 1) / 2 ^ 44) || !s.regionsOk 4 pa r.len ||
          s.mixedRights r.job (some r.va) pa r.len (awW attr))) then none
    else
      let x : Range := { base := r.va, limit := r.va + r.len, off := off, attr := attr, paged := !flat, revoking := false, esz := esz, ssz := ssz }
      some ((s.modJob r.job fun j => { j.unrevoke r.va r.len with ranges := j.ranges ++ [x] }).respond r 0 0 none)

/-- A change or revocation of a job that meets a span and is not complete. -/
def Job.pendingAt (j : Job) (va len : Nat) : Bool := j.changes.any fun c => laps c.va c.len va len

/-- MAPP: a page leaf: a new one or one that becomes present at once, any other at segment edges. -/
def execMapp (r : Req) (s : State) : Out :=
  s.about r fun j =>
    let size := pageSize (bitsN r.flags 0 2)
    let pres := bitN r.flags 2
    let attr := BitVec.ofNat 16 r.arg1
    let old := j.leaves.find? fun l => decide (l.va = r.va ∧ l.size = size)
    let rng := j.ranges.find? fun x => laps x.base (x.limit - x.base) r.va size
    let eff := rng.elim attr fun x => x.attr
    let bad := decide (8 ≤ r.flags ∨ r.va % size ≠ 0 ∨ 2 ^ 56 < r.va + size ∨ 2 ^ 52 ≤ r.arg0 ∨ (pres = true ∧ r.arg0 % size ≠ 0)) || j.hitsHeap r.va size ||
      (match rng with
       | some x => !x.paged || decide (2 ^ 21 < size ∨ r.va < x.base ∨ x.limit < r.va + size) || x.revoking
       | none => false) ||
      decide (2 ^ 16 ≤ r.arg1) || !attrOk attr true false (if pres then some r.arg0 else none) ||
      (j.leaves.any fun l => laps l.va l.size r.va size && !decide (some l = old)) || j.pendingAt r.va size || (old.elim false fun l => l.mig) ||
      (pres && ((awW eff && s.wrBusy r.job r.va r.arg0 size) || s.mixedRights r.job (some r.va) r.arg0 size (awW eff))) || (old.elim false fun l => l.pres && !pres && awPin (j.leafAttr l))
    if bad then none
    else
      let l : Leaf := { va := r.va, size := size, attr := attr, pres := pres, mig := false, revoking := false, pa := r.arg0, count := 0, noticed := false }
      let s := s.modJob r.job fun j => j.unrevoke r.va size
      let s : State := if pres ∧ (old.elim true fun o => !o.pres) then { s with freef := s.freef - (size / 65536 : Nat) } else s
      match old with
      | none => some ((s.modJob r.job fun j => { j with leaves := j.leaves ++ [l] }).respond r 0 0 none)
      | some o =>
        if pres ∧ o.pres = false then some ((s.modJob r.job fun j => { j with leaves := j.leaves.map fun x => if x.va = r.va then l else x }).respond r 0 0 none)
        else some ((s.respond r 0 0 none).addChange r (.remap l) r.va size none)

/-! ### PROT and UNMAP (R374, R447) -/

/-- The leaves of the sizes of R367 that cover [a, b) of a leaf exactly; `n` at most. -/
def cutLeaf (l : Leaf) : Nat → Nat → Nat → List Leaf
  | 0, _, _ => []
  | n + 1, a, b =>
    if b ≤ a then []
    else
      let size := ([2 ^ 32, 2 ^ 30, 2 ^ 21].find? fun z => decide (a % z = 0 ∧ a + z ≤ b)).getD (2 ^ 16)
      { l with va := a, size := size, pa := if l.pres then l.pa + (a - l.va) else l.pa } :: cutLeaf l n (a + size) b

/-- A leaf cut at the edges of a span. -/
def splitLeaf (lo hi : Nat) (l : Leaf) : List Leaf :=
  let e := l.va + l.size
  if (l.va < lo ∧ lo < e) ∨ (l.va < hi ∧ hi < e) then
    let a := max l.va (min lo e)
    let b := max l.va (min hi e)
    cutLeaf l 2048 l.va a ++ cutLeaf l 2048 a b ++ cutLeaf l 2048 b e
  else [l]

/-- A range cut at the edges of a span. -/
def splitRange (lo hi : Nat) (r : Range) : List Range :=
  let a := max r.base (min lo r.limit)
  let b := max r.base (min hi r.limit)
  ([(r.base, a), (a, b), (b, r.limit)].filter fun p => decide (p.1 < p.2)).map fun p => { r with base := p.1, limit := p.2 }

/-- The job with its entries cut at the edges of a span, or none where R447 refuses the span. -/
def Job.cutSpan (j : Job) (va len : Nat) : Option Job :=
  let meets (b n : Nat) : Bool := laps b n va len
  let rs := j.ranges.filter fun r => meets r.base (r.limit - r.base)
  let ls := j.leaves.filter fun l => meets l.va l.size
  if va % 65536 ≠ 0 ∨ len % 65536 ≠ 0 ∨ len = 0 ∨ 2 ^ 56 < va + len ∨ j.hitsHeap va len ∨ (rs.isEmpty ∧ ls.isEmpty) then none
  else if (rs.any fun r => r.revoking || j.pendingAt r.base (r.limit - r.base) || (attrBlock (awFmt r.attr) && !inSpan va len r.base (r.limit - r.base))) ||
      ls.any (fun l => l.mig || l.revoking || j.pendingAt l.va l.size) then none
  else some { j with ranges := j.ranges.flatMap (splitRange va (va + len)), leaves := j.leaves.flatMap (splitLeaf va (va + len)) }

/-- Whether a new attribute word only adds R, W, X, CNT or PIN. -/
def onlyAdds (new old : BitVec 16) : Bool := decide (new &&& old = old ∧ (new ^^^ old) &&& ~~~0x1B80#16 = 0)

/-- PROT: rights of a span. -/
def execProt (r : Req) (s : State) : Out :=
  s.about r fun j =>
    let new := BitVec.ofNat 16 r.arg0
    match j.cutSpan r.va r.len with
    | none => none
    | some j' =>
      let rs := j'.ranges.filter fun x => inSpan r.va r.len x.base (x.limit - x.base)
      let ls := j'.leaves.filter fun l => inSpan r.va r.len l.va l.size
      let c : Change := { seq := r.seq, kind := .prot new, va := r.va, len := r.len, waiting := [], deadline := none }
      let v := View.apply { ranges := j'.ranges, leaves := j'.leaves, revoked := j'.revoked } c
      let j2 : Job := { j' with ranges := v.ranges, leaves := v.leaves }
      let rsOk := rs.all fun x => attrOk (keepFmt new x.attr) false (!x.paged) (if x.paged then none else some ((x.base + x.off) % 2 ^ 56))
      let lsOk := ls.all fun l => (j'.pagedAt l.va).isSome || attrOk (keepFmt new l.attr) true false (if l.pres then some l.pa else none)
      let cut := s.modJob r.job fun _ => j'
      let wOk := (ls.all fun l => !l.pres || awW (j'.leafAttr l) == awW (j2.leafAttr l) ||
          (!(awW (j2.leafAttr l) && cut.wrBusy r.job l.va l.pa l.size) && !cut.mixedRights r.job (some l.va) l.pa l.size (awW (j2.leafAttr l)))) &&
        rs.all fun x => x.paged || awW x.attr == awW new || !cut.mixedRights r.job (some x.base) ((x.base + x.off) % 2 ^ 56) (x.limit - x.base) (awW new)
      if 2 ^ 16 ≤ r.arg0 ∨ (rsOk && lsOk && wOk) = false then none
      else if (rs.all fun x => onlyAdds (keepFmt new x.attr) x.attr) && ls.all (fun l => onlyAdds (keepFmt new l.attr) l.attr) then
        some ((s.modJob r.job fun _ => j2).respond r 0 0 none)
      else some ((cut.respond r 0 0 none).addChange r (.prot new) r.va r.len none)

/-- UNMAP: revocation of a span. -/
def execUnmap (r : Req) (s : State) : Out :=
  s.about r fun j => (j.cutSpan r.va r.len).map fun j' => ((s.modJob r.job fun _ => j').respond r 0 0 none).addChange r .unmap r.va r.len none

/-- Every group has passed the edge of an UNMAP: the translations are removed and their VAs enter the revoked list. -/
def execRevocationComplete (seq : Nat) (s : State) : Out :=
  match s.jobs.findSome? fun (j : Job) => (j.changes.find? fun (c : Change) => decide (c.seq = seq) && decide (c.kind = .unmap)).map fun c => (j, c) with
  | none => .next s
  | some (j, c) =>
    let rs := j.ranges.filter fun r => inSpan c.va c.len r.base (r.limit - r.base)
    let ls := j.leaves.filter fun l => inSpan c.va c.len l.va l.size
    let s := (rs.filter fun r => !r.paged).foldl (fun s r => s.freeFrames ((r.base + r.off) % 2 ^ 56) (r.limit - r.base)) s
    let s := (ls.filter fun l => l.pres).foldl (fun s l => s.freeFrames l.pa l.size) s
    .next (s.modJob j.handle fun j =>
      { j with ranges := j.ranges.filter fun r => !inSpan c.va c.len r.base (r.limit - r.base), leaves := j.leaves.filter fun l => !inSpan c.va c.len l.va l.size,
               revoked := j.revoked ++ (rs.map fun r => { base := r.base, len := r.limit - r.base }) ++ ls.map fun l => { base := l.va, len := l.size },
               changes := j.changes.filter fun x => decide (x.seq ≠ seq) })

/-! ### Migration (R377 to R379) -/

/-- The leaf that covers an address. -/
def Job.leafAt (j : Job) (va : Nat) : Option Leaf := j.leaves.find? fun l => decide (l.va ≤ va ∧ va < l.va + l.size)

/-- MIGBEGIN: the page is write-blocked. -/
def execMigbegin (r : Req) (s : State) : Out :=
  s.about r fun j =>
    match j.leafAt r.va with
    | none => none
    | some l =>
      if !l.pres || l.mig || l.revoking || awPin (j.leafAttr l) || j.pendingAt l.va l.size then none
      else some ((s.modJob r.job fun j => { j with leaves := j.leaves.map fun x => if x.va = l.va then { x with mig := true, attr := x.attr ||| 0x40#16 } else x }).respond
        r 0 0 (some (l.pa, l.size)))

/-- MIGEND: the groups switch to the new frame. -/
def execMigend (r : Req) (s : State) : Out :=
  s.about r fun j =>
    match j.leafAt r.va with
    | none => none
    | some l =>
      if !l.mig || j.pendingAt l.va l.size || decide (r.arg0 % l.size ≠ 0 ∨ 2 ^ 52 ≤ r.arg0) || (awW (j.leafAttr l) && s.wrBusy r.job l.va r.arg0 l.size) ||
          s.mixedRights r.job (some l.va) r.arg0 l.size (awW (j.leafAttr l)) then none
      else some ((s.respond r 0 0 none).addChange r (.migrate r.arg0) l.va l.size (some (s.time + bitsN (s.cregOf 0x338).toNat 0 32)))

/-- MIGWAIT ticks after MIGEND every group that has not switched does. -/
def execMigwaitExpiry (seq : Nat) (s : State) : Out :=
  match s.jobs.findSome? fun (j : Job) => j.changes.find? fun (c : Change) => decide (c.seq = seq) with
  | none => .next s
  | some c => .next (c.waiting.foldl (fun s g => s.switchPage g c.va) s)

/-! ### Counts, queries, footprint (R371, R373, R376) -/

/-- CNTRST: counters of the pages of a span. -/
def execCntrst (r : Req) (s : State) : Out :=
  s.about r fun _ => some ((s.modJob r.job fun j =>
    { j with leaves := j.leaves.map fun l => if laps l.va l.size r.va r.len then { l with count := 0, noticed := l.noticed && !l.pres } else l }).respond r 0 0 none)

/-- QUERY: the translation of an address. -/
def execQuery (r : Req) (s : State) : Out :=
  s.about r fun j =>
    match lookup j.heapCore j.base r.va with
    | none => none
    | some h =>
      let size := h.leaf.elim 0 fun l => sizeCode l.size
      some (({ s with answers := s.answers ++ [{ seq := r.seq, pa := h.pa, attr := h.attr, size := size }] } : State).respond r 0 size none)

/-- FRAMES: a signed change of FREEF. A rise makes the units that wait for frames ready. -/
def execFrames (r : Req) (s : State) : Out :=
  let n : Int := (BitVec.ofNat 64 r.arg0).toInt
  let s : State := { s with freef := s.freef + n }
  let s : State := if 0 < n then { s with graphs := s.graphs.map fun g => { g with nodes := g.nodes.map fun x => { x with units := x.units.map fun u => { u with st := match u.st with
      | .waitFoot _ => .ready
      | st => st } } } } else s
  .next (s.respond r 0 0 none)

/-- The unit of a job that waits for frames: graph, node, unit and frame. -/
def State.footWaiter (s : State) (h : Nat) : Option (Nat × Nat × UnitRec) :=
  (s.levelNodes 3 h 0).findSome? fun p => (s.node p.1 p.2).bind fun n => (n.units.find? fun u => match u.st with
    | .waitFoot _ => true
    | _ => false).map fun u => (p.1, p.2, u)

/-- DENY: a footprint fault that is fatal to the job (R370, R373). -/
def execDeny (r : Req) (s : State) : Out :=
  s.about r fun _ =>
    let frec := leBytes 8 (Cause.code .footprint + 256) ++ leBytes 8 0
    let s := s.respond r 0 0 none
    some (match s.footWaiter r.job with
      | some (g, n, u) => s.failJob r.job 4 (.node g n) (leBytes 8 u.u ++ leBytes 8 (u.frame.getD 0) ++ frec)
      | none => s.failJob r.job 4 (.job r.job) (leBytes 16 0 ++ frec))

/-! ### DROP and QUAR (R417, R418) -/

/-- Whether something that is mapped or saved reaches HBM offsets [lo, hi) of this module. -/
def State.reaches (s : State) (lo hi : Nat) : Bool :=
  let hit (pa len : Nat) : Bool := laps (s.modId * 2 ^ 44 + lo) (hi - lo) pa len
  s.jobs.any fun j =>
    (decide (j.heapSpan.2 ≠ 0) && hit ((j.heapSpan.1 + bitsN j.heapo.toNat 16 40 * 65536) % 2 ^ 56) j.heapSpan.2) ||
    (j.ranges.any fun r => !r.paged && hit ((r.base + r.off) % 2 ^ 56) (r.limit - r.base)) || (j.leaves.any fun l => l.pres && hit l.pa l.size) ||
    (j.changes.any fun c => match c.kind with
      | .migrate pa => hit pa c.len
      | .remap l => l.pres && hit l.pa l.size
      | _ => false) ||
    (s.groups.any fun g => decide (g.job = j.handle) && g.cores.any fun c => (s.core c).heapHits hit) ||
    (j.frames.any fun f => ((s.jobRuns j (j.pool + f.base) f.len fun _ => true).getD []).any fun x => hit x.pa x.len)

/-- DROP: groups stop as for STOPPING; the relocation follows. -/
def execDrop (r : Req) (s : State) : Out :=
  let live := (s.cregOf 0x210).toNat
  let n := r.arg1
  let named := (List.range 1024).filter fun c => decide (r.arg0 ≤ c ∧ c < r.arg0 + n)
  if n = 0 ∨ 1024 < r.arg0 + n ∨ s.dropSt.isSome ∨ (named.any fun c => decide (s.pcState c = 0 ∨ s.pcState c = 3)) ∨ s.reaches ((live - n) * 2 ^ 30) (live * 2 ^ 30) then
    .next (s.respond r 1 0 none)
  else .next (({ s with dropSt := some { seq := r.seq, first := r.arg0, n := n, since := s.time, ends := none } } : State).stopAll.respond r 0 0 none)

/-- The HBM lines of this module below a capacity that came from a LOST channel. -/
def State.lostLines (s : State) (cap : Nat) : List Nat :=
  if s.anyLost then (List.range (cap / 64)).filterMap fun i => if s.pcState (s.chanOf (64 * i)) = 2 then some (s.modId * 2 ^ 44 + 64 * i) else none else []

/-- The relocation of a DROP ends: lines keep their offsets, and those that could not be read are poisoned. -/
def execDropRelocationComplete (s : State) : Out :=
  match s.dropSt with
  | none => .next s
  | some d =>
    let cap := ((s.cregOf 0x210).toNat - d.n) * 2 ^ 30
    let base := s.modId * 2 ^ 44
    let out (pa : Nat) : Bool := isHbm pa && decide (pa / 2 ^ 44 = s.modId) && decide (base + cap ≤ pa)
    let kept := (s.ecc.filter fun p => !out p.1).map fun p => if isHbm p.1 ∧ p.1 / 2 ^ 44 = s.modId ∧ p.2 = .uncorrectable then (p.1, .poisoned) else p
    let s : State := { s with ecc := (s.lostLines cap).foldl (fun e a => SMap.put e a .poisoned) kept, mem := s.mem.filter fun p => !out p.1,
                              race := s.race.filter fun p => !out p.1, owner := s.owner.filter fun p => !out (p.1 * 65536), recErr := s.recErr.filter fun p => !out (if p.1 then p.2 * 65536 else p.2) }
    let s := (List.range d.n).foldl (fun s i => s.setPcState (d.first + i) 3) s
    .next { s.setCreg 0x210 (BitVec.ofNat 64 ((s.cregOf 0x210).toNat - d.n)) with dropSt := none }

/-- QUAR: a die is quarantined at once, by request or because its errors reached DQTH (R412). -/
def execQuar (r : Req) (s : State) : Out :=
  if r.seq = 0 then .next (s.changeStatus r.arg0 3)
  else if r.arg0 = 0 ∨ 38 < r.arg0 then .next (s.respond r 1 0 none)
  else .next ((s.changeStatus r.arg0 3).respond r 0 0 none)

end Sys2Proof.Machine
end

