-- ==== Sys2Proof/Machine/Domain.lean ====
section
/-! DEFINITION. The domain of modules: formation, published maps, departures (R288, R381 to R383). -/

namespace Sys2Proof.Machine

open Sys2Proof

/-- Whether DOMMAP holds a module. -/
def State.inDomain (s : State) (m : Nat) : Bool := bitN (s.cregOf (0x350 + 8 * (m / 64))).toNat (m % 64)

/-- Local memory under another module ID: the module's own cells move with its ID. Memory of other modules is known by their IDs in
the domain and is not kept. -/
def State.rename (s : State) (new : Nat) : State :=
  let old := s.modId
  if new = old then s
  else
    let mine (a : Nat) : Bool := decide (a / 2 ^ 44 = old)
    let mv (a : Nat) : Nat := new * 2 ^ 44 + a % 2 ^ 44
    { s with mem := (s.mem.filter fun p => mine p.1).map fun p => (mv p.1, p.2), ecc := (s.ecc.filter fun p => mine p.1).map fun p => (mv p.1, p.2),
             race := (s.race.filter fun p => mine p.1).map fun p => (mv p.1, p.2),
             owner := (s.owner.filter fun p => mine (p.1 * 65536)).map fun p => (mv (p.1 * 65536) / 65536, p.2), recErr := s.recErr.map fun p => (p.1, if p.1 then mv (p.2 * 65536) / 65536 else mv p.2) }

/-- A domain is formed: the module takes its ID, DOMCTL and DOMMAP report the domain, and the published maps of its members are in force.
TSYNC starts without LOCK, which shows in SLIPT where it was set; the lowest ID is the time reference (R384). -/
def execDomain (modid : Nat) (members : List Nat) (s : State) : Out :=
  let ms := (modid :: members).eraseDups.filter fun m => decide (m < 256)
  if 256 ≤ modid then .next s
  else
    let s := s.rename modid
    let s := s.setCreg 0x340 ((s.cregOf 0x340 &&& 0x4_0000#64) ||| BitVec.ofNat 64 (modid + ms.length * 256 + 2 ^ 17))
    let s := (List.range 4).foldl (fun s w => s.setCreg (0x350 + 8 * w) (BitVec.ofNat 64 ((ms.filter fun m => decide (m / 64 = w)).foldl (fun a m => a + 2 ^ (m % 64)) 0))) s
    let ref := ms.all fun m => decide (modid ≤ m)
    let slipt := (s.cregOf 0x348).getLsbD 0 || (s.cregOf 0x348).getLsbD 2
    let s := s.setCreg 0x348 ((if slipt then 4#64 else 0#64) ||| (if ref then 2#64 else 0#64))
    .next { s with slew := 0, members := (s.members.filter fun x => ms.contains x.id).map fun x => { x with gone := false } }

/-- Another module publishes its map and MIX; the copy is replaced. A module that is not of the formed domain is not heard. -/
def execMapPublication (m hbmcap : Nat) (mix : List Nat) (s : State) : Out :=
  if m = s.modId ∨ ((s.cregOf 0x340).getLsbD 17 = true ∧ s.inDomain m = false) then .next s
  else .next { s with stale := s.stale.filter fun r => decide (r.base / 2 ^ 44 ≠ m),
                      members := (s.members.filter fun x => decide (x.id ≠ m)) ++ [{ id := m, hbmcap := hbmcap, mix := mix, gone := false }] }

/-- Whether an operation awaits a module: its bytes lie there, or it is part of a collective with a member there. -/
def Work.awaits (m : Nat) : Work → Bool
  | .contrib c | .deliver c => c.members.any fun w => decide (w % 256 = m)
  | w => w.runs.any fun r => decide (r.pa / 2 ^ 44 = m)

/-- A module leaves: its operations end with no data moved and a detected error; its collectives end with an error of their contributors. -/
def execModuleDeparture (m : Nat) (s : State) : Out :=
  if m = s.modId ∨ s.inDomain m = false then .next s
  else
    let off := 0x350 + 8 * (m / 64)
    let info := BitVec.ofNat 64 m
    let hit := s.flights.filter fun f => !f.fixed && f.work.awaits m
    let lost := s.colls.filter fun x => x.parts.any fun p => p.members.any fun w => decide (w % 256 = m)
    let s := (s.setCreg 0x340 (s.cregOf 0x340 ||| 0x4_0000#64)).setCreg off (s.cregOf off &&& ~~~BitVec.ofNat 64 (2 ^ (m % 64)))
    let s : State := { s with members := s.members.map fun x => if x.id = m then { x with gone := true } else x,
                              flights := s.flights.filter fun f => f.fixed || !f.work.awaits m,
                              colls := s.colls.filter fun x => !(x.parts.any fun p => p.members.any fun w => decide (w % 256 = m)) }
    let s := hit.foldl (fun s f => match f.work with
      | .contrib c => s.collError [c] .moduleDeparted info
      | .deliver _ => s
      | _ => s.charge { core := f.core, tag := f.tag, cause := .moduleDeparted, info := info, pc := some f.pc } none) s
    .next (lost.foldl (fun s x => s.collError x.parts .moduleDeparted info) s)

end Sys2Proof.Machine
end

