-- ==== Sys2Proof/Machine/EvFlight.lean ====
section
/-! DEFINITION. Operations in progress as they take effect: reads and writes of memory, atomics, transfers, completion signals, open-time
landings, late accesses, translation walks, and failures of links and flits (R144 to R156, R198, R217, R241, R245, R267, R274, R275, R282,
R291 to R296, R369, R380, R409 to R412). -/

namespace Sys2Proof.Machine

open Sys2Proof

/-! ### Shared parts -/

/-- The registrations that a seam access holds end with its operation (R307). -/
def State.freeRegs (s : State) (f : Flight) : State :=
  if (s.group f.grp).elim false fun g => g.regs.any fun r => decide (r.flight = some f.id) then s.raceRelease f.grp fun r => decide (r.flight = some f.id) else s

/-- An operation ends. -/
def State.endFlight (s : State) (f : Flight) : State := (s.freeRegs f).dropFlight f.id

/-- An operation takes effect next at another tick. -/
def State.retime (s : State) (id t : Nat) (w : Work) : State :=
  { s with flights := s.flights.map fun f => if f.id = id then { f with due := t, work := w } else f }

/-- Consumption of runs by an operation: false where one is uncorrectable (R409); the others then heal nothing and pause nothing (R423). -/
def State.consumeRuns (s : State) (f : Flight) : List Run → State × Bool
  | [] => (s, true)
  | r :: rs =>
    if (s.eccScan r.pa r.len).1.isNone && rs.any fun x => (s.eccScan x.pa x.len).1.isSome then s.consumeRuns f rs
    else match s.consume f.core f.tag r.pa r.len f.fixed (some f.pc) with
    | (s, true) => s.consumeRuns f rs
    | (s, false) => (s, false)

/-- An operation that writes cells makes its signals and ends. -/
def State.landCells (s : State) (f : Flight) (ws : List Host.Cell) (fins : List Fin) : State :=
  (((s.endFlight f).storeCells ws).noteBanks (ws.map fun w => w.1)).signal fins

/-- Whether a CE access meets, at its commit, a bank that has become a working one since it issued (R20, R227; log entry 114). -/
def State.roleLost (s : State) (f : Flight) : Bool := decide (f.tag = 0) && f.fixed && f.work.runs.any fun r => s.inWorkBank r

/-- The lowest byte of an operation that its home module no longer serves (R288). -/
def State.staleByte (s : State) (f : Flight) : Option Nat :=
  (f.work.runs.flatMap fun r => s.stale.filterMap fun x =>
    if decide (r.pa / 2 ^ 44 ≠ s.modId) && x.meets r.pa r.len then some (max r.pa x.base) else none).foldl (fun m a => some (m.elim a fun b => min a b)) none

/-- An operation ends without moving data, and its core is charged. -/
def State.failFlight (s : State) (f : Flight) (cause : Cause) (info : W64) : State :=
  (s.endFlight f).charge { core := f.core, tag := f.tag, cause := cause, info := info, pc := some f.pc } none

/-- The tick of a group at which a result is raised and held to be there: the present one. -/
def State.tickOf (s : State) (f : Flight) : Nat := s.reckOf f.core

/-! ### Reads -/

/-- A load lands: the bytes, extended and fitted to the destination (R146, R148). -/
def State.landLoad (s : State) (f : Flight) (runs : List Run) (ovl : List (Nat × Slice)) (start w : Nat) (fs sat : Bool) (n commit : Nat) : State :=
  match (s.endFlight f).consumeRuns f runs with
  | (s, false) => s
  | (s, true) =>
    let v := intResult sat fs (extI fs (leNat (readRuns s.mem ovl runs)) (8 * n)) (4 * w)
    s.modCore f.core fun k => (k.landRegs f.id fun k => { k with scalar := wrSlices k.scalar start w v.1 }).raiseOp f.tag f.id (max commit (s.tickOf f)) v.2

/-- A chunk of a FILL lands (R149). -/
def State.landFill (s : State) (f : Flight) (runs : List Run) (ovl : List (Nat × Slice)) (start cnt : Nat) : State :=
  match (s.endFlight f).consumeRuns f runs with
  | (s, false) => s
  | (s, true) =>
    let v := leNat (readRuns s.mem ovl runs)
    s.modCore f.core fun k => k.landRegs f.id fun k => { k with scalar := wrSlices k.scalar start cnt v }

/-- A vector load lands (R193, R195). -/
def State.landVload (s : State) (f : Flight) (lanes : List (Nat × Nat)) (start w : Nat) : State :=
  match (s.endFlight f).consumeRuns f (lanes.map fun p => { va := 0, pa := p.2, len := sliceBytes w }) with
  | (s, false) => s
  | (s, true) =>
    let wr (m : SMap Slice) (p : Nat × Nat) : SMap Slice := wrSlices m (laneBase p.1 + start) w (rdLe s.mem p.2 (sliceBytes w))
    s.modCore f.core fun k => k.landRegs f.id fun k => { k with lanes := lanes.foldl wr k.lanes }

/-- A QDEQ lands (R212). -/
def State.landQdeq (s : State) (f : Flight) (ent : Nat) (attr : BitVec 5) (k blk : Nat) (lanes : List Nat) (start w : Nat) (fmt : BitVec 3) (rm : Nat)
    (sat : Bool) (seed ctr : W64) (commit : Nat) : State :=
  let n := 4 * w / fmtBits fmt
  let spans := blockSpans attr k blk (blocksOf (attrBs attr) n) (attrT attr)
  match (s.endFlight f).consumeRuns f (spans.map fun p => { va := 0, pa := ent + p.1, len := p.2 }) with
  | (s, false) => s
  | (s, true) =>
    let rs : List (Nat × Nat × Flags) := lanes.map fun l => (l, qdeqLane s.mem ent attr k blk w fmt rm sat seed ctr l)
    let wr (m : SMap Slice) (p : Nat × Nat × Flags) : SMap Slice := wrSlices m (laneBase p.1 + start) w p.2.1
    s.modCore f.core fun k' => (k'.landRegs f.id fun x => { x with lanes := rs.foldl wr x.lanes }).raiseOp f.tag f.id commit (orFlags (rs.map fun p => p.2.2))

/-- A cycle of a plane load: the next 256 bytes of the image (R235, R245). -/
def State.landPlane (s : State) (f : Flight) (pl : Bool) (pa lo size next : Nat) (img : List Byte) (fins : List Fin) : State :=
  let n := min 256 (size - next)
  match s.consumeRuns f [{ va := 0, pa := pa + next, len := n }] with
  | (s, false) => s.endFlight f
  | (s, true) => s.retime f.id (f.due + (s.core f.core).div f.tag) (.plane pl pa lo size (next + n) (img ++ rdBytes s.mem (pa + next) n) fins)

/-- The magnitude code of an FP32 value; a NaN gives the canonical one. -/
def magCode (c : Nat) : Nat := if 0x7F80_0000 < c % 2 ^ 31 then 0x7FC0_0000 else c % 2 ^ 31

/-- A cycle of a DAMAX: two half-rows of the visible bank; the last cycle writes the result (R241, R245). -/
def State.landDamax (s : State) (f : Flight) (h last acc start : Nat) : State :=
  let bank := !(s.core f.core).wbank
  let rows := min 2 (last + 1 - h)
  match s.consumeBuf f.core 4 2 f.pc [((if bank then 0x4_0000 else 0) + 512 * h, 512 * rows)] with
  | (s, false) => s.endFlight f
  | (s, true) =>
    let m := (s.accVals f.core bank (128 * h) (128 * rows)).foldl (fun a c => max a (magCode c)) acc
    if last < h + 2 then (s.endFlight f).modCore f.core fun k => k.landRegs f.id fun k => { k with scalar := wrSlices k.scalar start 8 m }
    else s.retime f.id (f.due + (s.core f.core).div 4) (.damax (h + 2) last m start)

/-! ### Atomics (R150, R151, R292, R293) -/

/-- An atomic at its bank: the old value goes to the destination, the result predicate is written. One that reads an uncorrectable line is
not performed. `aop` 13 is CAS. -/
def State.landAtomic (s : State) (f : Flight) (pa aop : Nat) (s64 : Bool) (x exp start w : Nat) (fs : Bool) (pd : Option Nat) : State :=
  let n := szBits s64 / 8
  match (s.endFlight f).consumeRuns f [{ va := 0, pa := pa, len := n }] with
  | (s, false) => s
  | (s, true) =>
    let m := rdLe s.mem pa n
    let hit := decide (aop ≠ 13) || decide (m = exp)
    let s := if hit then (s.store pa (leBytes n (atomNew aop (szBits s64) m x))).noteBanks [pa] else s
    s.modCore f.core fun k => k.landRegs f.id fun k =>
      let k : Core := if w = 0 then k else { k with scalar := wrSlices k.scalar start w (wrapI (extI fs m (szBits s64)) (4 * w)) }
      match pd with
      | some p => k.setPred p hit
      | none => k

/-- A bank ALU performs an atomic. -/
def execBankAluAtomic (id : Nat) (s : State) : Out :=
  match s.flight id with
  | none => .next s
  | some f =>
    if s.roleLost f then .next (s.failFlight f .bufferAccess 0)
    else match f.work with
    | .atomic pa aop s64 x exp start w fs pd => .next (s.landAtomic f pa aop s64 x exp start w fs pd)
    | _ => .next s

/-! ### Fixed-time effects (R85, R274, R282, R291) -/

/-- The pause of a late access begins with its scheduled commit tick; when it ends is not the program's to know (R282, R416; log entry 100). -/
def State.lateStart (s : State) (f : Flight) (busy : Bool) : State :=
  let s := s.claim f.grp 5 none
  let n := if busy then Config.busyExtra s.free else Config.failingExtra s.free % 129
  { s with free := s.free + 1, flights := s.flights.map fun x => if x.id = f.id then { x with fixed := false, due := s.time + 1 + n } else x }

/-- The last request of a transfer has been placed: its signals, and the takes at completion that waited for it (R85, R268). -/
def State.endBeats (s : State) (f : Flight) (fins : List Fin) : State := ((s.dropFlight f.id).signal fins).takeHolds f.core f.tag

/-- Beats of a transfer leave or reach a buffer: all of them where no other engine asks its banks, else the next, unless a lower tag asks a bank of its
lines in the same tick: then it, and what follows it in the transfer, loses that tick (R197, R232). -/
def State.landBeats (s : State) (f : Flight) (op : Nat) (own : Option (Nat × Nat)) (off n : Nat) (out : Bool) (fins : List Fin) : State :=
  match own with
  | none => s.endBeats f fins
  | some (c, sp) =>
    let T := s.reckOf f.core
    let m := min 256 n
    let need := ((spanLines [(off, m)]).map fun l => l % (sharedBanks sp).getD 1).eraseDups
    match (s.core c).lowerPort f.tag T need with
    | some b =>
      let s := s.modCore f.core fun k => k.bankStall f.tag (6 + b) 1
      if out then { s with flights := slideAll op [] s.flights }
      else { s with flights := s.flights.map fun x => if x.id = op ∨ x.id = f.id then { x with due := x.due + 1 } else x }
    | none =>
      let s := s.modCore c fun k => k.notePorts f.tag T need
      if m < n then s.retime f.id (f.due + 1) (.beats op own (off + m) (n - m) out fins)
      else if out then s.endBeats f fins
      else s.dropFlight f.id

/-- A fixed-time access reads or writes memory at its memory tick. -/
def execMemoryEffectCommit (id : Nat) (s : State) : Out :=
  match s.flight id with
  | none => .next s
  | some f =>
    if s.roleLost f then .next (s.failFlight f .bufferAccess 0)
    else match f.work with
    | .load runs ovl start w fs sat n commit => .next (s.landLoad f runs ovl start w fs sat n commit)
    | .fill runs ovl start cnt => .next (s.landFill f runs ovl start cnt)
    | .vload lanes start w => .next (s.landVload f lanes start w)
    | .qdeq ent attr k blk lanes start w fmt rm sat seed ctr commit => .next (s.landQdeq f ent attr k blk lanes start w fmt rm sat seed ctr commit)
    | .plane pl pa lo size next img fins => .next (s.landPlane f pl pa lo size next img fins)
    | .rowRead t0 h n pa attr size mul tsc fs sat rm seed ctr lag fins => .next (s.readRow f t0 h n pa attr size mul tsc fs sat rm seed ctr lag fins)
    | .damax h last acc start => .next (s.landDamax f h last acc start)
    | .write ws fins => .next (s.landCells f ws fins)
    | .nibbles ns => .next (((s.endFlight f).storeNibs ns).noteBanks (ns.map fun p => p.1 / 2))
    | .arrive pa n =>
      .next (match (s.endFlight f).consumeRuns f [{ va := 0, pa := pa, len := 16 }] with
        | (s, true) => s.arrive pa n
        | (s, false) => s)
    | .late busy => .next (s.lateStart f busy)
    | .beats op own off n out fins => .next (s.landBeats f op own off n out fins)
    | .drained => .next (s.dropFlight id)
    | _ => .next s

/-- Bytes of runs before the first uncorrectable line. -/
def State.goodPrefix (s : State) : List Run → Nat
  | [] => 0
  | r :: rs =>
    match (s.eccScan r.pa r.len).1 with
    | some u => max (u.1 / 64 * 64) r.pa - r.pa
    | none => r.len + s.goodPrefix rs

/-- The bytes of an operation in progress reach memory; what is left of it are its completion signals. An uncorrectable line stops it
there, without any (R274, R409). -/
def State.landTransfer (s : State) (f : Flight) (src : List Run) (img : List Byte) (dst : List Run) (fins : List Fin) : State :=
  match s.consumeRuns f src with
  | (s1, false) => (s1.endFlight f).storeCells (((spreadBytes dst (transferBytes s.mem src [])).take (s.goodPrefix src)).map fun p => (p.2.1, p.2.2))
  | (s, true) =>
    let ws := (spreadBytes dst (transferBytes s.mem src img)).map fun p => (p.2.1, p.2.2)
    let s := (s.storeCells ws).noteBanks (dst.map fun r => r.pa)
    let s := s.retime f.id f.due (.write [] fins)
    { s with agenda := .asyncCompletion f.id :: s.agenda }

/-- The bytes of a fixed-time transfer commit at f + L + n. -/
def execTransferCommit (id : Nat) (s : State) : Out :=
  match s.flight id with
  | none => .next s
  | some f =>
    match f.work with
    | .copy src img dst _ _ _ fins => .next (s.landTransfer f src img dst fins)
    | .write ws fins =>
      let s := ((s.storeCells ws).noteBanks (ws.map fun w => w.1)).retime id f.due (.write [] fins)
      .next { s with agenda := .asyncCompletion id :: s.agenda }
    | _ => .next s

/-- An asynchronous operation's last byte has arrived: tag, barrier arrival, advances of circular buffers (R154 to R156, R255). -/
def execAsyncCompletion (id : Nat) (s : State) : Out :=
  match s.flight id with
  | none => .next s
  | some f => .next ((s.endFlight f).signal f.work.fins)

/-! ### Open-time effects (R282, R295, R296, R369) -/

/-- An open-time effect lands. -/
def execOpenTimeLanding (id : Nat) (s : State) : Out :=
  match s.flight id with
  | none => .next s
  | some f =>
    match s.staleByte f with
    | some a => .next (s.failFlight f .remoteMap (BitVec.ofNat 64 a))
    | none =>
    match f.work with
    | .drained => .next (s.dropFlight id)
    | .load runs ovl start w fs sat n commit => .next (s.landLoad f runs ovl start w fs sat n commit)
    | .fill runs ovl start cnt => .next (s.landFill f runs ovl start cnt)
    | .atomic pa aop s64 x exp start w fs pd => .next (s.landAtomic f pa aop s64 x exp start w fs pd)
    | .nibbles ns => .next (((s.endFlight f).storeNibs ns).noteBanks (ns.map fun p => p.1 / 2))
    | .copy src img dst _ _ _ fins => .next (s.landTransfer f src img dst fins)
    | .write ws fins =>
      let s := ((s.storeCells ws).noteBanks (ws.map fun w => w.1)).retime id f.due (.write [] fins)
      .next { s with agenda := .asyncCompletion id :: s.agenda }
    | .arrive pa n =>
      .next (match (s.endFlight f).consumeRuns f [{ va := 0, pa := pa, len := 16 }] with
        | (s, true) => s.arrive pa n
        | (s, false) => s)
    | _ => .next s

/-- A late fixed-time access completes: its pause ends. -/
def execLateAccessComplete (id : Nat) (s : State) : Out :=
  match s.flight id with
  | none => .next s
  | some f => .next ((s.endFlight f).unclaimOne f.grp 5)

/-- A translation walk ends: what it fetched is held in the die's cache, and the pause of the miss ends. -/
def execTranslationCacheFill (id : Nat) (s : State) : Out :=
  match s.flight id with
  | none => .next s
  | some f =>
    match f.work with
    | .walk die keys =>
      let job := (s.group f.grp).elim 0 fun g => g.job
      .next (((s.endFlight f).cacheAll die job f.grp keys).unclaimOne f.grp 6)
    | _ => .next s

/-! ### Links and fabric (R275, R380, R412, R421) -/

/-- A beat of a transfer fails its CRC: the transfer commits nothing. -/
def execLinkCrcFailure (id sender receiver : Nat) (s : State) : Out :=
  match s.flight id with
  | none => .next s
  | some f =>
    let info : W64 := BitVec.ofNat 64 (sender % 256 + receiver % 256 * 256)
    .next ((s.countDie receiver).failFlight f .linkCrc info)

/-- A flit fails its CRC a number of times in a row: up to eight replays change nothing, the ninth failure is a detected error. -/
def execFlitReplay (id failures source : Nat) (s : State) : Out :=
  match s.flight id with
  | none => .next s
  | some f =>
    if failures < 9 then .next s
    else .next (s.failFlight f .fabricFlit (BitVec.ofNat 64 (source % 256)))

end Sys2Proof.Machine
end

