-- ==== Sys2Proof/Machine/EvPause.lean ====
section
/-! DEFINITION. Groups between segments and at the limits of waits (R155, R279, R326, R329), and the pauses of R282: slots, claims that end,
supply sags (R440), and TIME across modules (R24, R384). -/

namespace Sys2Proof.Machine

open Sys2Proof

/-! ### Re-entry and the limit of open waits -/

/-- A core whose opening state, or whose carry bank that a re-entry is to copy, reads uncorrectable (R329), with the cause and INFO. -/
def State.carryBad (s : State) (g : Group) : Option (Nat × Cause × W64) :=
  match s.openingBad g with
  | some c => some (c, .controlWord, 0)
  | none =>
    g.cores.findSome? fun c => ((s.core c).seg.bind fun sg => sg.carry).bind fun b =>
      ((s.eccScan (s.bufPa c 2 (if b then 0x4_0000 else 0)) 0x4_0000).1).map fun x => (c, .ueSram, eccInfo x)

/-- The re-entered SEG.OPEN issues (R325, R326), and a replay gets its stop (R429), unless the group is to leave here or its carry bank is lost (R329). -/
def execSegmentReentry (g : Nat) (s : State) : Out :=
  match s.group g with
  | none => .next s
  | some x =>
    match x.leave, s.carryBad x with
    | some (.checkpoint c), _ => .next (s.checkpoint x c none (x.cores.headD 0))
    | some .vanish, _ => .next ((s.freeGroup x).removeUnit x.graph x.node x.unit)
    | none, some (c, cause, info) => .next (s.loseOpening x c cause info)
    | none, none =>
      let s := s.reopen x
      .next (s.modGroup g fun y => { y with stopIn := (y.replayTo.map fun t => y.reck + max t 1).or y.stopIn, replayTo := none })

/-- The engines of a core that have waited 16,777,216 ticks for open-time conditions (R155, R279). -/
def State.overdue (s : State) (core : Nat) : List Nat :=
  (tagsOf (coreType core)).filter fun t =>
    let e := (s.core core).engine t
    e.openWait && e.since.elim false fun x => decide (x + 16777216 ≤ s.reckOf core)

/-- A wait on an open-time condition has lasted too long: a schedule fault. -/
def execWaitLimitFault (core : Nat) (s : State) : Out :=
  .next ((s.overdue core).foldl (fun s t =>
    (s.modEngine core t fun e => { e with since := none }).charge { core := core, tag := t, cause := .schedule, info := 0 } none) s)

/-! ### Bands as pauses see them (R283, R400) -/

/-- Whether some HBM stack is in a band: those of the B-dies that have not failed. -/
def State.stackIn (s : State) (b : Nat) : Bool := (slotsOf .b).any fun d => decide (s.dieStatus d ≠ 2) && decide (s.bandOf d = b)

/-- STATE of the thermal controller (R399). -/
def State.thermal (s : State) : Nat := bitsN (s.cregOf 0x100).toNat 0 4

/-- A slot of one tick claimed for the groups that `p` selects. -/
def State.claimSlot (s : State) (src : Nat) (p : Group → Bool) : State :=
  s.groups.foldl (fun s g => if p g then s.claim g.num src (some (s.time + 1)) else s) s

/-! ### Slots (R282, R400, R401) -/

/-- Byte of its pseudo-channel that an HBM offset lies at (R415). -/
def State.chanByte (s : State) (off : Nat) : Nat := off / 4096 / (s.cregOf 0x210).toNat * 4096 + off % 4096

/-- Sweep positions: 256-byte pieces of a pseudo-channel. -/
def sweepLen : Nat := 2 ^ 22

/-- The sweep reads one piece of every pseudo-channel in band 0: correctable errors are written back, the others are reported. -/
def State.scrub (s : State) : State :=
  if s.therm.sweepPos = 0 then s
  else
    let lo := (sweepLen - s.therm.sweepPos) * 256
    let hits := s.ecc.filter fun p => isHbm p.1 && decide (p.1 / 2 ^ 44 = s.modId) &&
      (let off := p.1 % 2 ^ 44
       let ch := s.chanOf off
       decide (s.pcState ch < 2) && decide (s.bandOf (ch / 128 + 1) = 0) && decide (lo ≤ s.chanByte off) && decide (s.chanByte off < lo + 256))
    let s := hits.foldl (fun (s : State) p =>
      let ch := s.chanOf (p.1 % 2 ^ 44)
      if p.2 = .correctable then ({ s with ecc := SMap.erase s.ecc p.1 } : State).countHbm ch false
      else (s.countHbm ch true).postNq { kind := 7, size := 0, status := 0, count := ch, job := 0, va := p.1 % 2 ^ 44 }) s
    { s with therm := { s.therm with sweepPos := s.therm.sweepPos - 1 } }

/-- A patrol scrub slot: it is claimed while some stack is in band 0, whether or not a sweep runs. -/
def execPatrolScrubSlot (s : State) : Out := .next (if s.stackIn 0 then (s.claimSlot 0 fun _ => true).scrub else s)

/-- A patrol sweep starts. -/
def State.startSweep (s : State) : State := { s with therm := { s.therm with sweepPos := sweepLen, scrubAt := s.time } }

/-- SCRUBIVL as it acts. -/
def State.scrubIvl (s : State) : Nat := max (2 ^ 35) (bitsN (s.cregOf 0x1A8).toNat 0 48)

def execPatrolSweepStart (s : State) : Out := .next s.startSweep

/-- A refresh slot. -/
def execRefreshSlot (s : State) : Out := .next (if s.stackIn 1 then s.claimSlot 1 fun _ => true else s)

/-- A banked slot: the groups of band 2, and in STOPPING every group. -/
def execBankedSlot (s : State) : Out := .next (s.claimSlot 2 fun g => decide (g.band = 2) || decide (s.thermal = 7))

/-- A claim of stated length ends. -/
def execPauseClaimExpiry (g src : Nat) (s : State) : Out :=
  match (s.group g).bind fun x => x.claims.findIdx? fun c => decide (c.src = src) && c.till.elim false fun t => decide (t ≤ s.time) with
  | none => .next s
  | some i =>
    let s := s.modGroup g fun x => { x with claims := x.claims.eraseIdx i }
    .next (if 3 ≤ src then s.trace 5 g 0xFF 0xFF src 0 else s)

/-! ### Supply (R440) -/

/-- PWRLIM as it acts. -/
def State.powerLimit (s : State) : Nat :=
  let l := bitsN (s.cregOf 0x710).toNat 0 16
  if l = 0 ∨ 3400 < l then 3400 else l

/-- A sag check: each assertion claims 16 ticks from this one on, and SAGCNT counts the claims. -/
def execSagCheck (s : State) : Out :=
  let all := decide (s.env.input < 420) || decide (s.powerLimit < s.env.meanPower)
  let hit := s.groups.filter fun g => all || g.dies.any fun d => s.env.railSag.contains d
  let s := hit.foldl (fun s g => s.claim g.num 4 (some (s.time + 16))) s
  let n := min (2 ^ 32 - 1) (bitsN (s.cregOf 0x720).toNat 0 32 + hit.length)
  .next ((s.setCreg 0x720 (BitVec.ofNat 64 n)).setCreg 0x718 (BitVec.ofNat 64 (s.env.meanPower % 2 ^ 16)))

/-- Dies of MIX that do not answer at reset read STATUS 0b10 (R14). -/
def State.silentDies (s : State) : State := (s.env.silent.filter fun d => decide (1 ≤ d ∧ d ≤ 38)).foldl (fun s d => s.putStatus d 2) s

/-- An input below 36 V resets the module; HBM and host memory lose what they held. Fuses, the boot store and the outside stay. -/
def execSupplyReset (s : State) : Out :=
  let r := State.reset
  let s' : State := { r with
    inputs := s.inputs.map fun p => (p.1 - s.time, p.2), env := s.env, free := s.free,
    creg := SMap.set 0 r.creg 0x728 (s.cregOf 0x728),
    boot := { r.boot with store := s.boot.store, svn := s.boot.svn } }
  .next s'.silentDies

/-! ### TIME across modules (R24, R384) -/

/-- Freezes and sags count REF ticks, not TIME: their ends move with a slew step (R281). -/
def State.shiftTills (s : State) (n : Int) : State :=
  { s with groups := s.groups.map fun g => { g with claims := g.claims.map fun c =>
      if c.src = 3 ∨ c.src = 4 then { c with till := c.till.map fun t => ((t : Int) + n).toNat } else c } }

/-- A slew step at a multiple of 24,576: TIME passes over one value where the module is behind the reference, and repeats one where it is
ahead. -/
def execSlewStep (s : State) : Out :=
  .next (if s.slew < 0 then { (s.shiftTills 1) with time := (s.time + 2) % 2 ^ 64, slew := s.slew + 1 }
    else if 0 < s.slew then { (s.shiftTills (-1)) with again := true, slew := s.slew - 1 }
    else { s with time := (s.time + 1) % 2 ^ 64 })

/-- TSYNC after an estimate. -/
def tsyncAfter (w : W64) (offset : Int) : W64 :=
  let ok := decide (-4 ≤ offset) && decide (offset ≤ 4)
  let slipt := bitN w.toNat 2 || !ok
  BitVec.ofNat 64 ((if ok then 1 else 0) + (if bitN w.toNat 1 then 2 else 0) + (if slipt then 4 else 0) + wrapI offset 16 * 2 ^ 16)

/-- An exchange of sync flits brings an estimate of the module's TIME less the reference's; the reference itself does not slew. -/
def execTimeSyncExchange (offset : Option Int) (s : State) : Out :=
  match offset with
  | none => .next s
  | some o =>
    let w := s.cregOf 0x348
    .next { (s.setCreg 0x348 (tsyncAfter w o)) with slew := if bitN w.toNat 1 then 0 else o }

end Sys2Proof.Machine
end

