-- ==== Sys2Proof/Machine/Thermal.lean ====
section
/-! DEFINITION. Running cold: sampling and bands (R397, R398), the thermal registers (R399), commands (R402) and the thermal state machine
(R403 to R406). -/

namespace Sys2Proof.Machine

open Sys2Proof

/-! ### Fields of TSTATE and THCTL (R399) -/

/-- Replaces a field of a word. -/
def putBits (w lo n v : Nat) : Nat := w - bitsN w lo n * 2 ^ lo + v % 2 ^ n * 2 ^ lo

/-- Replaces a field of a C-die register. -/
def State.putField (s : State) (off lo n v : Nat) : State := s.setCreg off (BitVec.ofNat 64 (putBits (s.cregOf off).toNat lo n v))

/-- A sticky bit of TSTATE is set. -/
def State.thermFlag (s : State) (bit : Nat) (b : Bool) : State := if b then s.putField 0x100 bit 1 1 else s

def State.mband (s : State) : Nat := bitsN (s.cregOf 0x100).toNat 4 3

def State.humok (s : State) : Bool := (s.cregOf 0x100).getLsbD 7

def State.hbmKept (s : State) : Bool := (s.cregOf 0x100).getLsbD 11

def State.hbmKeep (s : State) : Bool := (s.cregOf 0x1A0).getLsbD 4

def State.autorun (s : State) : Bool := (s.cregOf 0x1A0).getLsbD 3

/-- Ticks of a second and of ten minutes at REF (R23). -/
def second : Nat := 3900000000

def tenMin : Nat := 600 * second

/-- HOLD: seconds left of a hold of ten minutes, a part of one counted whole. -/
def State.putHold (s : State) : State :=
  let left := match s.therm.holdFrom with
    | some t => if s.thermal = 1 ∨ s.thermal = 3 then ceilDiv (t + tenMin - s.time) second else 0
    | none => 0
  s.putField 0x100 16 16 left

/-! ### Sampling (R397, R398) -/

/-- How many of the thresholds a reading in 1/64 K exceeds. -/
def above (ths : List Nat) (r : Nat) : Nat := (ths.filter fun t => decide (64 * t < r)).length

/-- A band after a reading, with its hysteresis. -/
def bandAfter (old r : Nat) : Nat :=
  let u := above [82, 95, 130, 200] r
  let d := above [80, 93, 128, 198] r
  if old < u then u else if d < old then d else old

/-- The sensors of a slot: 77 K where the outside conditions name none. -/
def State.sensorOf (s : State) (slot : Nat) : Sensor :=
  (s.env.sensors.find? fun x => decide (x.slot = slot)).getD { slot := slot, die := some 4928, stack0 := some 4928, stack1 := some 4928 }

/-- The answers of a slot's sensors: three on a B-die. -/
def State.readings (s : State) (slot : Nat) : List (Option Nat) :=
  let x := s.sensorOf slot
  if 1 ≤ slot ∧ slot ≤ 8 then [x.die, x.stack0, x.stack1] else [x.die]

/-- A slot's sample: TBAND byte and DIETEMP halfword. -/
def State.sampleSlot (s : State) (slot : Nat) : State :=
  let rs := s.readings slot
  let ok := rs.all fun r => r.isSome
  let top := (rs.filterMap id).foldl max 0
  let b := if ok then bandAfter (s.bandOf slot) top else 2
  let s := s.putField (0x108 + 8 * (slot / 8)) (8 * (slot % 8)) 4 (b + if ok then 8 else 0)
  (s.putField (0x140 + 8 * (slot / 4)) (16 * (slot % 4)) 16 top).thermFlag 10 (!ok)

/-- Every slot is sampled, and MBAND follows. -/
def State.sampleAll (s : State) : State :=
  let s := (List.range 39).foldl State.sampleSlot s
  let m := ((List.range 38).filter fun i => s.dieGood (i + 1)).foldl (fun m i => max m (s.bandOf (i + 1))) 0
  s.putField 0x100 4 3 m

/-! ### Changes of state (R403, R404) -/

/-- The controller enters a state. -/
def State.enter (s : State) (n : Nat) : State :=
  ({ (s.putField 0x100 0 4 n) with therm := { s.therm with since := s.time, holdFrom := none } } : State).putHold

/-- HBM loses its power. -/
def State.dropHbm (s : State) : State := s.putField 0x100 11 1 0

/-- Entry to WARM-OFF: HBM is unpowered where HBMKEEP is 0. -/
def State.enterWarmOff (s : State) : State := let s := s.enter 0; if s.hbmKeep then s else s.dropHbm

/-- HBM is initialised: every byte reads 0, race records and frame owners are cleared. -/
def State.initHbm (s : State) : State :=
  let mine (a : Nat) : Bool := isHbm a && decide (a / 2 ^ 44 = s.modId)
  { s with mem := s.mem.filter fun p => !mine p.1, ecc := s.ecc.filter fun p => !mine p.1, race := s.race.filter fun p => !mine p.1,
           owner := s.owner.filter fun p => !mine (p.1 * 2 ^ 16), recErr := s.recErr.filter fun p => !mine (if p.1 then p.2 * 2 ^ 16 else p.2) }

/-- The compute dies are powered: slices, accumulators and buffers are 0 with good check bits (R446). -/
def State.powerDies (s : State) : State :=
  let mine (a : Nat) : Bool := (winCore a).isSome && decide (a / 2 ^ 44 = s.modId)
  { s with mem := s.mem.filter fun p => !mine p.1, ecc := s.ecc.filter fun p => !mine p.1, cores := [] }

/-- QUENCHED (R404): power, link training, HBM, a patrol sweep. -/
def State.quench (s : State) : State :=
  let s := s.enter 4
  let s := s.powerDies
  let s := (s.env.silent.filter fun d => decide (1 ≤ d ∧ d ≤ 38)).foldl (fun s d => s.changeStatus d 2) s
  let s := if s.hbmKept then s else s.initHbm.putField 0x100 11 1 1
  s.startSweep

/-- RUN or BANKED, by the module band. -/
def State.enterRun (s : State) : State := s.enter (if s.mband ≤ 1 then 5 else 6)

/-- STOPPING: every group is made to stop; units of a die in band W run again from their start (R405). -/
def State.enterStopping (s : State) : State := (s.enter 7).stopAll

/-- Groups that hold a die in band W lose their units. -/
def State.burnGroups (s : State) : State :=
  s.groups.foldl (fun s g => if g.dies.any fun d => decide (s.bandOf d = 4) then (s.debugRelease g.num).pendGroup g.num .kill else s) s

/-- What the controller does at a sample, by its state. -/
def State.thermStep (s : State) : State :=
  let good := (List.range 38).filter fun i => s.dieGood (i + 1)
  match s.thermal with
  | 2 => if good.all fun i => decide (s.bandOf (i + 1) = 0) then
      let s := s.enter 3
      ({ s with therm := { s.therm with holdFrom := some s.time } } : State).putHold
    else s
  | 3 =>
    if (List.range 38).any fun i => decide (2 ≤ s.bandOf (i + 1)) then s.enter 2
    else if (List.range 38).any fun i => decide (s.bandOf (i + 1) ≠ 0) then { s with therm := { s.therm with holdFrom := some s.time } }
    else s
  | 4 => if 3 ≤ s.mband then s.enterStopping else if s.autorun then s.enterRun else s
  | 5 => if 3 ≤ s.mband then s.enterStopping else if s.mband = 2 then s.enter 6 else s
  | 6 => if 3 ≤ s.mband then s.enterStopping else if s.mband ≤ 1 then s.enter 5 else s
  | 8 => if (List.range 39).all fun i => (s.readings i).all fun r => r.elim false fun t => decide (64 * 283 ≤ t) then s.enterWarmOff else s
  | _ => s

/-- The sample of every 2^20 ticks. -/
def execThermalSample (s : State) : Out :=
  let s := s.sampleAll
  let s := s.thermFlag 8 ((decide (s.thermal = 2) && s.env.hotFall) || (decide (s.thermal = 8) && s.env.hotRise))
  let s := s.thermStep
  .next ((if s.thermal = 7 then s.burnGroups else s).putHold)

/-- HUMOK has held for ten minutes in PURGE. -/
def execPurgeComplete (s : State) : Out := .next (if s.thermal = 1 then s.enter 2 else s)

/-- Sixty minutes in PURGE. -/
def execPurgeTimeout (s : State) : Out := .next (if s.thermal = 1 then s.enterWarmOff.thermFlag 9 true else s)

/-- Ten minutes of band 0 in SOAK. -/
def execSoakComplete (s : State) : Out := .next (if s.thermal = 3 then s.quench else s)

/-- Every group has stopped and every frame has been written. -/
def execStoppingComplete (s : State) : Out :=
  .next (if s.thermal = 7 then
    (let w := s.therm.warmPending
     let s : State := { s with therm := { s.therm with warmPending := false } }
     s.enter (if w then 8 else 2))
   else s)

/-- WAIT ticks in STOPPING, or of a DROP, are over. -/
def execStopwaitExpiry (s : State) : Out := .next s.stopLate

/-- The cryostat's report of the dew point changes; the hold of PURGE starts or stops. -/
def execHumokChange (ok : Bool) (s : State) : Out :=
  let was := s.humok
  let s := s.putField 0x100 7 1 (if ok then 1 else 0)
  .next (if s.thermal = 1 then
      ({ s with therm := { s.therm with holdFrom := if ok then (if was then some (s.therm.holdFrom.getD s.time) else some s.time) else none } } : State).putHold
    else s)

/-! ### Commands (R402, R403) -/

/-- CMD as THCTL reads after a command. -/
def State.putCmd (s : State) (c : Nat) : State := s.putField 0x1A0 0 3 c

/-- A command that the state does not list: CMDERR. -/
def State.cmdErr (s : State) : State := s.thermFlag 12 true

/-- COOL. -/
def execCool (s : State) : Out :=
  let s := s.putCmd 1
  .next (match s.thermal with
    | 0 => let s := s.enter 1; ({ s with therm := { s.therm with holdFrom := if s.humok then some s.time else none } } : State).putHold
    | 8 => s.enter 2
    | _ => s.cmdErr)

/-- RUN. -/
def execRun (s : State) : Out :=
  let s := s.putCmd 2
  .next (if s.thermal = 4 then (if 3 ≤ s.mband then s.enterStopping else s.enterRun) else s.cmdErr)

/-- WARM. -/
def execWarm (s : State) : Out :=
  let s := s.putCmd 3
  let mark (s : State) : State := { s with therm := { s.therm with warmPending := true } }
  .next (match s.thermal with
    | 1 => s.enterWarmOff
    | 2 | 3 | 4 => s.enter 8
    | 5 | 6 => mark s.enterStopping
    | 7 => mark s
    | _ => s.cmdErr)

/-- SELFTEST: dies that fail it are failed; the compute dies lose what they held. -/
def execSelftest (failed : List Nat) (s : State) : Out :=
  let s := s.putCmd 4
  .next (if s.thermal = 0 then failed.foldl (fun s d => s.changeStatus d 2) s else s.cmdErr)

end Sys2Proof.Machine
end

