-- ==== Sys2Proof/Machine/Boot.lean ====
section
/-! DEFINITION. Boot, measurement, identity and the management port (R433 to R439, R442). -/

namespace Sys2Proof.Machine

open Sys2Proof

/-- Bytes of a text in ASCII. -/
def ascii (s : String) : List Byte := s.toList.map fun c => BitVec.ofNat 8 c.toNat

/-- A 32-byte value in four registers from an offset up. -/
def State.put32 (s : State) (off : Nat) (bs : List Byte) : State :=
  (List.range 4).foldl (fun s i => s.setCreg (off + 8 * i) (BitVec.ofNat 64 (leNat ((bs.drop (8 * i)).take 8)))) s

/-- Bytes of `n` registers from an offset up. -/
def State.regBytes (s : State) (off n : Nat) : List Byte := (List.range n).flatMap fun i => leBytes 8 (s.cregOf (off + 8 * i)).toNat

/-! ### Measurement and identity (R436, R437) -/

/-- MEASi := SHAKE256(MEASi ‖ d). -/
def State.extend (s : State) (i : Nat) (d : List Byte) : State := s.put32 (0x800 + 32 * i) (shake256 (s.regBytes (0x800 + 32 * i) 4 ++ d) 32)

/-- SEED of the identity key. -/
def State.idSeed (s : State) : List Byte := shake256 (ascii "EVJ77-ID" ++ Config.deviceSecret ++ s.regBytes 0x800 4) 48

/-- GO of MEASCTL: an extension by firmware. -/
def execMeasExtend (s : State) : Out :=
  let i := bitsN (s.cregOf 0x900).toNat 0 3
  let s := s.putField 0x900 3 1 0
  .next (if i = 0 then s.putField 0x900 4 1 1 else s.extend i (s.regBytes 0x940 4))

/-! ### The firmware image (R433 to R435) -/

/-- Length of an image with its signature, from its header. -/
def fwSize (h : List Byte) : Nat := 64 + fieldAt h 8 8 + 29792

/-- Whether a header is one of R435. -/
def headerOk (h : List Byte) : Bool :=
  let n := fieldAt h 8 8
  decide (64 ≤ h.length ∧ fieldAt h 0 4 = 0x4657_3737 ∧ 1 ≤ n ∧ n ≤ 2 ^ 28 ∧ fieldAt h 0x10 8 < n ∧ fieldAt h 0x18 8 = 64 + n ∧ fieldAt h 0x20 32 = 0)

/-- ERR of an image under a floor: 0 where the root accepts it. -/
def imageErr (img : List Byte) (floor : Nat) : Nat :=
  let n := fieldAt img 8 8
  if !headerOk img || decide (img.length < fwSize img) then 1
  else if decide (shake256 Config.vendorKey 32 ≠ Config.vendorKeyHash) ||
      !Config.slhVerify Config.vendorKey (ascii "EVJ77-FW") (img.take (64 + n)) ((img.drop (64 + n)).take 29792) then 2
  else if fieldAt img 4 4 < floor then 3
  else 0

/-- A stage is reached. -/
def State.bootStage (s : State) (n : Nat) : State := s.putField 0x700 0 3 n

/-- A stage fails: the sequence stops. -/
def State.bootErr (s : State) (e : Nat) : State := s.putField 0x700 8 4 e

/-- Stages VERIFY to PORT with an image. -/
def State.bootImage (s : State) (img : List Byte) : State :=
  let s := s.bootStage 2
  let e := imageErr img (bitsN (s.cregOf 0x728).toNat 0 32)
  if e ≠ 0 then s.bootErr e
  else
    let s := (s.bootErr 0).extend 0 (img.take (fwSize img))
    let s := s.put32 0x920 (Config.slhPublic s.idSeed)
    let s : State := { s with boot := { s.boot with svn := fieldAt img 4 4 } }
    let s := s.bootStage 3
    if s.env.hostBad then s.bootErr 4
    else
      let host (a : Nat) : Bool := isHost a && decide (a / 2 ^ 44 = s.modId)
      let s : State := { s with mem := s.mem.filter fun p => !host p.1, ecc := s.ecc.filter fun p => !host p.1 }
      s.bootStage 5

/-- Power is applied: the boot stages up to PORT. -/
def execPowerOn (s : State) : Out :=
  let s := s.silentDies.bootStage 1
  .next (if s.boot.store.isEmpty then s.bootErr 5 else s.bootImage s.boot.store)

/-- Firmware writes READY. -/
def execBootstReady (s : State) : Out :=
  let w := (s.cregOf 0x700).toNat
  .next (if bitsN w 0 3 = 5 ∧ bitsN w 8 4 = 0 then s.bootStage 6 else s)

/-- SVNFUSE: a higher floor is burnt. -/
def execSvnfuse (v : W64) (s : State) : Out :=
  let n := bitsN v.toNat 0 32
  .next (if bitsN (s.cregOf 0x728).toNat 0 32 < n then s.setCreg 0x728 (BitVec.ofNat 64 n) else s)

/-! ### The management port (R438, R439) -/

def State.bootFailed (s : State) : Bool := decide (bitsN (s.cregOf 0x700).toNat 8 4 ≠ 0)

/-- Whether the port links. -/
def State.portUp (s : State) : Bool := decide (5 ≤ bitsN (s.cregOf 0x700).toNat 0 3)

/-- Sends a message. -/
def State.send (s : State) (typ seq : Nat) (body : List Byte) : State :=
  { s with boot := { s.boot with out := s.boot.out ++ [{ typ := typ, seq := seq, body := body }] } }

/-- A message is passed to firmware. -/
def State.toFirmware (s : State) (typ : Nat) (m : Msg) : State := { s with boot := { s.boot with firmware := s.boot.firmware ++ [(typ, m)] } }

/-- HEALTH: BOOTST, MIX, TSTATE, TBAND, HBMCAP and ERRCTL with the counts of the dies' errors. -/
def execHealth (m : Msg) (s : State) : Out :=
  .next (if s.portUp || s.bootFailed then
      s.send 1 m.seq (s.regBytes 0x700 1 ++ s.regBytes 0x40 6 ++ s.regBytes 0x100 1 ++ s.regBytes 0x108 6 ++ s.regBytes 0x210 1 ++ s.regBytes 0x200 1 ++
        (List.range 40).flatMap fun d => leBytes 4 (SMap.get 0 s.dieErr d))
    else s)

/-- The body of a THERMAL message. -/
def State.thermBody (s : State) : List Byte := s.regBytes 0x140 12 ++ s.regBytes 0x348 1

/-- THERMAL: a reply; FLAGS [0] says whether reports are subscribed. -/
def execThermal (m : Msg) (s : State) : Out :=
  .next (if s.portUp then ({ s with boot := { s.boot with subscribed := bitN m.flags 0 } } : State).send 2 m.seq s.thermBody else s)

/-- The report of every 2^32 ticks. -/
def execThermalReport (s : State) : Out := .next (if s.portUp && s.boot.subscribed then s.send 2 0 s.thermBody else s)

/-- The fields of an attestation report. -/
def State.reportBody (s : State) (nonce : List Byte) : List Byte :=
  leBytes 4 0x4154_3737 ++ leBytes 4 s.boot.svn ++ padTo 32 (nonce.take 32) ++ leBytes 8 s.time ++ s.regBytes 0x40 6 ++ s.regBytes 0x800 32 ++ s.regBytes 0x920 4 ++
  s.regBytes 0x100 1 ++ s.regBytes 0x210 1 ++ s.regBytes 0x340 1

/-- ATTEST: the report, signed under the identity key. -/
def execAttest (m : Msg) (s : State) : Out :=
  let r := s.reportBody m.body
  .next (if s.portUp then s.send 3 m.seq (r ++ padTo 17088 ((Config.slhSign s.idSeed (ascii "EVJ77-AT") r).take 17088)) else s)

/-- FWIMAGE: fragments in order. A whole image boots the module in recovery, and is otherwise stored for the next reset (R434, R442). -/
def execFwimage (m : Msg) (s : State) : Out :=
  if !(s.portUp || s.bootFailed) then .next s
  else
    let fr := s.boot.frags ++ m.body.take 1024
    let s : State := { s with boot := { s.boot with frags := fr } }
    let s := if s.bootFailed then s else s.toFirmware 4 m
    if fr.length < 64 ∨ (headerOk fr = true ∧ fr.length < fwSize fr) then .next s
    else
      let s : State := { s with boot := { s.boot with frags := [] } }
      if s.bootFailed then
        let t := s.bootImage fr
        .next (if t.bootFailed then t else t.putField 0x700 12 1 1)
      else .next (if headerOk fr then { s with boot := { s.boot with store := fr.take (fwSize fr) } } else s)

/-- COMMAND: passed to firmware, which acts by its own policy. -/
def execCommand (m : Msg) (s : State) : Out := .next (if s.portUp && !s.bootFailed then s.toFirmware 6 m else s)

end Sys2Proof.Machine
end

