-- ==== Sys2Proof/Machine/Debug.lean ====
section
/-! DEFINITION. Debug commands of a group (R425 to R429). -/

namespace Sys2Proof.Machine

open Sys2Proof

/-- DBGCTL of a group. -/
def dbgOff (g : Nat) : Nat := 0x600 + 8 * g

/-- CMD as it reads after a command. -/
def State.dbgCmd (s : State) (g c : Nat) : State := s.putField (dbgOff g) 1 3 c

/-- A command outside its condition. -/
def State.dbgErr (s : State) (g : Nat) : State := s.putField (dbgOff g) 5 1 1

/-- The core and tag that RCORE and RTAG name, where the group has them. -/
def State.dbgTarget (s : State) (g : Group) : Option (Nat × Nat) :=
  let w := (s.cregOf (dbgOff g.num)).toNat
  match g.cores[bitsN w 9 8]? with
  | some c => if hasTag (coreType c) (bitsN w 6 3) then some (c, bitsN w 6 3) else none
  | none => none

/-- The stopped group of a number. -/
def State.stoppedGroup (s : State) (g : Nat) : Option Group := (s.group g).bind fun x => if x.stopped then some x else none

/-- A stopped group goes on. -/
def State.dbgResume (s : State) (x : Group) : State :=
  let k := s.core (x.cores.headD 0)
  (s.debugRelease x.num).trace 7 x.num 0xFF 0xFF (k.qpos (coreType (x.cores.headD 0)) 0).toNat (bitsN (s.cregOf (dbgOff x.num)).toNat 17 8)

/-- STOP: the stop takes effect at the group's next reckoner tick. -/
def execStop (g : Nat) (s : State) : Out :=
  let s := s.dbgCmd g 1
  match s.group g with
  | some x => .next (if x.stopped then s.dbgErr g else s.modGroup g fun y => { y with stopIn := some (y.reck + 1) })
  | none => .next (s.dbgErr g)

/-- RUN. -/
def execDebugRun (g : Nat) (s : State) : Out :=
  let s := s.dbgCmd g 2
  match s.stoppedGroup g with
  | some x => .next (s.dbgResume x)
  | none => .next (s.dbgErr g)

/-- STEP: exactly one reckoner tick. -/
def execStep (g : Nat) (s : State) : Out :=
  let s := s.dbgCmd g 3
  match s.stoppedGroup g with
  | some x => .next ((s.dbgResume x).modGroup g fun y => { y with stopIn := some (y.reck + 2) })
  | none => .next (s.dbgErr g)

/-- The segment tick at which an engine last issued in the open segment of its core; 0 where it has issued nothing since SEG.OPEN. -/
def Core.lastTick (k : Core) (t : Nat) : Nat :=
  match k.seg, (k.engine t).lastAt with
  | some sg, some l => l - sg.openAt
  | _, _ => 0

/-- REVSTEP: the segment is discarded at the group's next tick, re-enters, and stops before the tick of the engine's last issue. -/
def execRevstep (g : Nat) (s : State) : Out :=
  let s := s.dbgCmd g 4
  match s.stoppedGroup g with
  | none => .next (s.dbgErr g)
  | some x =>
    match s.dbgTarget x with
    | none => .next (s.dbgErr g)
    | some p =>
      if s.groupInSeg x then
        let t := (s.core p.1).lastTick p.2
        .next ((s.dbgResume x).modGroup g fun y => { y.setPend p.1 .replay with replayTo := some t })
      else .next (s.dbgErr g)

/-- SNAP: the state of a core goes to host memory at DBGBUF. -/
def execSnap (g : Nat) (s : State) : Out :=
  let s := s.dbgCmd g 5
  match s.stoppedGroup g with
  | none => .next (s.dbgErr g)
  | some x =>
    match s.dbgTarget x with
    | none => .next (s.dbgErr g)
    | some p =>
      let pa := bitsN (s.cregOf 0x640).toNat 12 40 * 4096
      .next (s.storeCells (cellsAt pa (s.snapImage p.1 (x.reck + 1))))

end Sys2Proof.Machine
end

