-- ==== Sys2Proof/Machine/Regs.lean ====
section
/-! DEFINITION. Writes of the general-purpose cores to C-die registers (R6, R443, R444). -/

namespace Sys2Proof.Machine

open Sys2Proof

/-- Bits that a write sets (RW) and bits that writing 1 clears (W1Z) of the register at an offset. Registers that are read only or
reserved have neither. -/
def regMask (off : Nat) : W64 × W64 :=
  if off = 0x100 then (0, 0x1700#64)
  else if off = 0x1A0 then (0x1F#64, 0)
  else if off = 0x1A8 then (0xFFFF_FFFF_FFFF#64, 0)
  else if off = 0x1B0 then (0xFFFF_FFFF#64, 0)
  else if off = 0x200 then (0xFF_FFFF_FF0F#64, 0)
  else if off = 0x208 then (0xFFFF_FFFF_FFFF#64, 0)
  else if off = 0x300 ∨ off = 0x320 then (0xFF_FFFF_FFFF_FFC0#64, 0)
  else if off = 0x310 ∨ off = 0x338 then (0xFFFF_FFFF#64, 0)
  else if off = 0x330 then (0xFFFF#64, 0)
  else if off = 0x340 then (0, 0x4_0000#64)
  else if off = 0x348 then (0, 4#64)
  else if 0x600 ≤ off ∧ off < 0x640 then (0x1_FFCF#64, 0x20#64)
  else if off = 0x640 ∨ off = 0x648 ∨ off = 0x660 then (0xF_FFFF_FFFF_FFFF#64, 0)
  else if off = 0x650 then (0x3D#64, 2#64)
  else if off = 0x668 then (0x1F#64, 0)
  else if off = 0x658 ∨ off = 0x670 then (0xFFFF_FFFF#64, 0)
  else if off = 0x710 then (0xFFFF#64, 0)
  else if off = 0x720 then (0, 0xFFFF_FFFF#64)
  else if off = 0x900 then (0xF#64, 0x10#64)
  else if 0x940 ≤ off ∧ off < 0x960 then (0xFFFF_FFFF_FFFF_FFFF#64, 0)
  else (0, 0)

/-- What a write to a register with an action makes the device do: doorbells, commands, the fuse floor, READY, a measurement. -/
def State.regAction (s : State) (off : Nat) (v : W64) : List Instr :=
  let n := v.toNat
  if off = 0x1A0 then (match bitsN n 0 3 with
    | 1 => [.cool] | 2 => [.run] | 3 => [.warm] | 4 => [.selftest s.env.silent] | _ => [])
  else if off = 0x308 then [.jcring v]
  else if off = 0x328 then [.mpring v]
  else if 0x600 ≤ off ∧ off < 0x640 then
    let g := (off - 0x600) / 8
    (match bitsN n 1 3 with
     | 1 => [.stop g] | 2 => [.debugRun g] | 3 => [.step g] | 4 => [.revstep g] | 5 => [.snap g] | _ => [])
  else if off = 0x700 then (if bitsN n 0 3 = 6 then [.bootstReady] else [])
  else if off = 0x728 then [.svnfuse v]
  else if off = 0x900 then (if bitN n 3 then [.measExtend] else [])
  else []

/-- A write of a general-purpose core to a C-die register. -/
def execRegisterWrite (off : Nat) (v : W64) (s : State) : Out :=
  if off % 8 ≠ 0 then .next s
  else
    let m := regMask off
    let s' := s.setCreg off ((s.cregOf off &&& ~~~m.1 &&& ~~~(v &&& m.2)) ||| (v &&& m.1))
    let s' := if off = 0x1A0 ∧ s'.thermal = 0 ∧ s'.hbmKeep = false then s'.dropHbm else s'
    .next { s' with agenda := s.regAction off v ++ s'.agenda }

end Sys2Proof.Machine
end

