-- ==== Sys2Proof/Machine/Dispatch.lean ====
section
/-! DEFINITION. The one dispatch from an instruction, event, command or message to its meaning. -/

namespace Sys2Proof.Machine

open Sys2Proof

/-- The meaning of every row of the opcode table. -/
def exec (i : Instr) (s : State) : Host.Outcome State Fault Refusal :=
  match i with
  | .nop n => Sys2Proof.Machine.execNop n s
  | .pbr f => Sys2Proof.Machine.execPbr f s
  | .br f => Sys2Proof.Machine.execBr f s
  | .brl f => Sys2Proof.Machine.execBrl f s
  | .loop f => Sys2Proof.Machine.execLoop f s
  | .lbrk f => Sys2Proof.Machine.execLbrk f s
  | .segOpen d => Sys2Proof.Machine.execSegOpen d s
  | .segClose => Sys2Proof.Machine.execSegClose s
  | .gbar id => Sys2Proof.Machine.execGbar id s
  | .halt => Sys2Proof.Machine.execHalt s
  | .ckdiv d => Sys2Proof.Machine.execCkdiv d s
  | .slipw => Sys2Proof.Machine.execSlipw s
  | .brk c => Sys2Proof.Machine.execBrk c s
  | .add f => Sys2Proof.Machine.execAdd f s
  | .sub f => Sys2Proof.Machine.execSub f s
  | .mul f => Sys2Proof.Machine.execMul f s
  | .mulh f => Sys2Proof.Machine.execMulh f s
  | .divi f => Sys2Proof.Machine.execDivi f s
  | .remi f => Sys2Proof.Machine.execRemi f s
  | .and f => Sys2Proof.Machine.execAnd f s
  | .or f => Sys2Proof.Machine.execOr f s
  | .xor f => Sys2Proof.Machine.execXor f s
  | .andn f => Sys2Proof.Machine.execAndn f s
  | .shl f => Sys2Proof.Machine.execShl f s
  | .shr f => Sys2Proof.Machine.execShr f s
  | .rot f => Sys2Proof.Machine.execRot f s
  | .min f => Sys2Proof.Machine.execMin f s
  | .max f => Sys2Proof.Machine.execMax f s
  | .clz f => Sys2Proof.Machine.execClz f s
  | .popc f => Sys2Proof.Machine.execPopc f s
  | .ext f => Sys2Proof.Machine.execExt f s
  | .ins f => Sys2Proof.Machine.execIns f s
  | .mov f => Sys2Proof.Machine.execMov f s
  | .movi f => Sys2Proof.Machine.execMovi f s
  | .moviHi f => Sys2Proof.Machine.execMoviHi f s
  | .sel f => Sys2Proof.Machine.execSel f s
  | .cmp f => Sys2Proof.Machine.execCmp f s
  | .plog f => Sys2Proof.Machine.execPlog f s
  | .pmov f => Sys2Proof.Machine.execPmov f s
  | .lea f => Sys2Proof.Machine.execLea f s
  | .setw f => Sys2Proof.Machine.execSetw f s
  | .getw f => Sys2Proof.Machine.execGetw f s
  | .ld f => Sys2Proof.Machine.execLd f s
  | .st f => Sys2Proof.Machine.execSt f s
  | .spill f => Sys2Proof.Machine.execSpill f s
  | .fill f => Sys2Proof.Machine.execFill f s
  | .atom f => Sys2Proof.Machine.execAtom f s
  | .atomn f => Sys2Proof.Machine.execAtomn f s
  | .cas f => Sys2Proof.Machine.execCas f s
  | .fence f => Sys2Proof.Machine.execFence f s
  | .qfence f => Sys2Proof.Machine.execQfence f s
  | .twait f => Sys2Proof.Machine.execTwait f s
  | .tffr f => Sys2Proof.Machine.execTffr f s
  | .tclr f => Sys2Proof.Machine.execTclr f s
  | .bari f => Sys2Proof.Machine.execBari f s
  | .barx f => Sys2Proof.Machine.execBarx f s
  | .bwait f => Sys2Proof.Machine.execBwait f s
  | .trapf f => Sys2Proof.Machine.execTrapf f s
  | .trap f => Sys2Proof.Machine.execTrap f s
  | .segst f => Sys2Proof.Machine.execSegst f s
  | .mfsr f => Sys2Proof.Machine.execMfsr f s
  | .mtsr f => Sys2Proof.Machine.execMtsr f s
  | .rdtime f => Sys2Proof.Machine.execRdtime f s
  | .rdreck f => Sys2Proof.Machine.execRdreck f s
  | .rand f => Sys2Proof.Machine.execRand f s
  | .pace f => Sys2Proof.Machine.execPace f s
  | .hint f => Sys2Proof.Machine.execHint f s
  | .cbset f => Sys2Proof.Machine.execCbset f s
  | .cbadv f => Sys2Proof.Machine.execCbadv f s
  | .cbqry f => Sys2Proof.Machine.execCbqry f s
  | .vadd f => Sys2Proof.Machine.execVadd f s
  | .vsub f => Sys2Proof.Machine.execVsub f s
  | .vmul f => Sys2Proof.Machine.execVmul f s
  | .vfma f => Sys2Proof.Machine.execVfma f s
  | .vfms f => Sys2Proof.Machine.execVfms f s
  | .vmin f => Sys2Proof.Machine.execVmin f s
  | .vmax f => Sys2Proof.Machine.execVmax f s
  | .vabs f => Sys2Proof.Machine.execVabs f s
  | .vneg f => Sys2Proof.Machine.execVneg f s
  | .vand f => Sys2Proof.Machine.execVand f s
  | .vor f => Sys2Proof.Machine.execVor f s
  | .vxor f => Sys2Proof.Machine.execVxor f s
  | .vshl f => Sys2Proof.Machine.execVshl f s
  | .vshr f => Sys2Proof.Machine.execVshr f s
  | .vcmp f => Sys2Proof.Machine.execVcmp f s
  | .vsel f => Sys2Proof.Machine.execVsel f s
  | .vcvt f => Sys2Proof.Machine.execVcvt f s
  | .vmov f => Sys2Proof.Machine.execVmov f s
  | .vbcast f => Sys2Proof.Machine.execVbcast f s
  | .vperm f => Sys2Proof.Machine.execVperm f s
  | .vrot f => Sys2Proof.Machine.execVrot f s
  | .vshuf f => Sys2Proof.Machine.execVshuf f s
  | .vpack f => Sys2Proof.Machine.execVpack f s
  | .vunpk f => Sys2Proof.Machine.execVunpk f s
  | .vred f => Sys2Proof.Machine.execVred f s
  | .vscan f => Sys2Proof.Machine.execVscan f s
  | .vdot f => Sys2Proof.Machine.execVdot f s
  | .vld f => Sys2Proof.Machine.execVld f s
  | .vst f => Sys2Proof.Machine.execVst f s
  | .vldx f => Sys2Proof.Machine.execVldx f s
  | .vstx f => Sys2Proof.Machine.execVstx f s
  | .vldc f => Sys2Proof.Machine.execVldc f s
  | .vstc f => Sys2Proof.Machine.execVstc f s
  | .viota f => Sys2Proof.Machine.execViota f s
  | .nrsq f => Sys2Proof.Machine.execNrsq f s
  | .nrcp f => Sys2Proof.Machine.execNrcp f s
  | .nexp2 f => Sys2Proof.Machine.execNexp2 f s
  | .nlog2 f => Sys2Proof.Machine.execNlog2 f s
  | .nsig f => Sys2Proof.Machine.execNsig f s
  | .ntanh f => Sys2Proof.Machine.execNtanh f s
  | .nmom f => Sys2Proof.Machine.execNmom f s
  | .nnorm f => Sys2Proof.Machine.execNnorm f s
  | .nsoft f => Sys2Proof.Machine.execNsoft f s
  | .qamax f => Sys2Proof.Machine.execQamax f s
  | .qscale f => Sys2Proof.Machine.execQscale f s
  | .qblk f => Sys2Proof.Machine.execQblk f s
  | .qdeq f => Sys2Proof.Machine.execQdeq f s
  | .qsign f => Sys2Proof.Machine.execQsign f s
  | .lds f => Sys2Proof.Machine.execLds f s
  | .ldsc f => Sys2Proof.Machine.execLdsc f s
  | .ldscl f => Sys2Proof.Machine.execLdscl f s
  | .lflip f => Sys2Proof.Machine.execLflip f s
  | .msign f => Sys2Proof.Machine.execMsign f s
  | .mstop f => Sys2Proof.Machine.execMstop f s
  | .mma f => Sys2Proof.Machine.execMma f s
  | .accClr f => Sys2Proof.Machine.execAccClr f s
  | .accSwap f => Sys2Proof.Machine.execAccSwap f s
  | .accRd f => Sys2Proof.Machine.execAccRd f s
  | .accWr f => Sys2Proof.Machine.execAccWr f s
  | .accCarry f => Sys2Proof.Machine.execAccCarry f s
  | .mwait f => Sys2Proof.Machine.execMwait f s
  | .drain f => Sys2Proof.Machine.execDrain f s
  | .dscale f => Sys2Proof.Machine.execDscale f s
  | .damax f => Sys2Proof.Machine.execDamax f s
  | .igen f => Sys2Proof.Machine.execIgen f s
  | .imap f => Sys2Proof.Machine.execImap f s
  | .icmp f => Sys2Proof.Machine.execIcmp f s
  | .gath f => Sys2Proof.Machine.execGath f s
  | .scat f => Sys2Proof.Machine.execScat f s
  | .win f => Sys2Proof.Machine.execWin f s
  | .gseg f => Sys2Proof.Machine.execGseg f s
  | .ast f => Sys2Proof.Machine.execAst f s
  | .await f => Sys2Proof.Machine.execAwait f s
  | .hld f => Sys2Proof.Machine.execHld f s
  | .hst f => Sys2Proof.Machine.execHst f s
  | .hpre f => Sys2Proof.Machine.execHpre f s
  | .hzero f => Sys2Proof.Machine.execHzero f s
  | .tcopy f => Sys2Proof.Machine.execTcopy f s
  | .tcvt f => Sys2Proof.Machine.execTcvt f s
  | .push f => Sys2Proof.Machine.execPush f s
  | .pushb f => Sys2Proof.Machine.execPushb f s
  | .copy f => Sys2Proof.Machine.execCopy f s
  | .copyb f => Sys2Proof.Machine.execCopyb f s
  | .copyd f => Sys2Proof.Machine.execCopyd f s
  | .pull f => Sys2Proof.Machine.execPull f s
  | .coll f => Sys2Proof.Machine.execColl f s
  | .gbarRelease g => Sys2Proof.Machine.execGbarRelease g s
  | .gbarTimeout g => Sys2Proof.Machine.execGbarTimeout g s
  | .beadDeadlock core tag => Sys2Proof.Machine.execBeadDeadlock core tag s
  | .waitLimitFault core => Sys2Proof.Machine.execWaitLimitFault core s
  | .planeLoadComplete id => Sys2Proof.Machine.execPlaneLoadComplete id s
  | .nestPassEntry core => Sys2Proof.Machine.execNestPassEntry core s
  | .nestPassCommit id => Sys2Proof.Machine.execNestPassCommit id s
  | .accCarryComplete id => Sys2Proof.Machine.execAccCarryComplete id s
  | .drainRowCommit id => Sys2Proof.Machine.execDrainRowCommit id s
  | .memoryEffectCommit id => Sys2Proof.Machine.execMemoryEffectCommit id s
  | .bankAluAtomic id => Sys2Proof.Machine.execBankAluAtomic id s
  | .transferCommit id => Sys2Proof.Machine.execTransferCommit id s
  | .asyncCompletion id => Sys2Proof.Machine.execAsyncCompletion id s
  | .openTimeLanding id => Sys2Proof.Machine.execOpenTimeLanding id s
  | .lateAccessComplete id => Sys2Proof.Machine.execLateAccessComplete id s
  | .linkCrcFailure id sender receiver => Sys2Proof.Machine.execLinkCrcFailure id sender receiver s
  | .flitReplay id failures source => Sys2Proof.Machine.execFlitReplay id failures source s
  | .segmentReentry g => Sys2Proof.Machine.execSegmentReentry g s
  | .pauseClaimExpiry g src => Sys2Proof.Machine.execPauseClaimExpiry g src s
  | .timeSyncExchange offset => Sys2Proof.Machine.execTimeSyncExchange offset s
  | .selftest failed => Sys2Proof.Machine.execSelftest failed s
  | .stop g => Sys2Proof.Machine.execStop g s
  | .debugRun g => Sys2Proof.Machine.execDebugRun g s
  | .step g => Sys2Proof.Machine.execStep g s
  | .revstep g => Sys2Proof.Machine.execRevstep g s
  | .snap g => Sys2Proof.Machine.execSnap g s
  | .jcring v => Sys2Proof.Machine.execJcring v s
  | .job e => Sys2Proof.Machine.execJob e s
  | .phase e => Sys2Proof.Machine.execPhase e s
  | .phaseEnd e => Sys2Proof.Machine.execPhaseEnd e s
  | .graph e => Sys2Proof.Machine.execGraph e s
  | .launch e => Sys2Proof.Machine.execLaunch e s
  | .cancel e => Sys2Proof.Machine.execCancel e s
  | .cancelComplete n => Sys2Proof.Machine.execCancelComplete n s
  | .jobDestroy e => Sys2Proof.Machine.execJobDestroy e s
  | .resume e => Sys2Proof.Machine.execResume e s
  | .quota e => Sys2Proof.Machine.execQuota e s
  | .jobEnd e => Sys2Proof.Machine.execJobEnd e s
  | .unitStart graph node u => Sys2Proof.Machine.execUnitStart graph node u s
  | .unitResume graph node u => Sys2Proof.Machine.execUnitResume graph node u s
  | .unitComplete g => Sys2Proof.Machine.execUnitComplete g s
  | .preemption graph node => Sys2Proof.Machine.execPreemption graph node s
  | .mpring v => Sys2Proof.Machine.execMpring v s
  | .heap r => Sys2Proof.Machine.execHeap r s
  | .mapr r => Sys2Proof.Machine.execMapr r s
  | .mapp r => Sys2Proof.Machine.execMapp r s
  | .prot r => Sys2Proof.Machine.execProt r s
  | .unmap r => Sys2Proof.Machine.execUnmap r s
  | .migbegin r => Sys2Proof.Machine.execMigbegin r s
  | .migend r => Sys2Proof.Machine.execMigend r s
  | .cntrst r => Sys2Proof.Machine.execCntrst r s
  | .query r => Sys2Proof.Machine.execQuery r s
  | .frames r => Sys2Proof.Machine.execFrames r s
  | .deny r => Sys2Proof.Machine.execDeny r s
  | .drop r => Sys2Proof.Machine.execDrop r s
  | .quar r => Sys2Proof.Machine.execQuar r s
  | .migwaitExpiry seq => Sys2Proof.Machine.execMigwaitExpiry seq s
  | .revocationComplete seq => Sys2Proof.Machine.execRevocationComplete seq s
  | .requestResponse seq => Sys2Proof.Machine.execRequestResponse seq s
  | .collContributionArrival c => Sys2Proof.Machine.execCollContributionArrival c s
  | .collResult id => Sys2Proof.Machine.execCollResult id s
  | .moduleDeparture m => Sys2Proof.Machine.execModuleDeparture m s
  | .mapPublication m hbmcap mix => Sys2Proof.Machine.execMapPublication m hbmcap mix s
  | .dieFailed slot => Sys2Proof.Machine.execDieFailed slot s
  | .health m => Sys2Proof.Machine.execHealth m s
  | .thermal m => Sys2Proof.Machine.execThermal m s
  | .attest m => Sys2Proof.Machine.execAttest m s
  | .fwimage m => Sys2Proof.Machine.execFwimage m s
  | .domain modid members => Sys2Proof.Machine.execDomain modid members s
  | .command m => Sys2Proof.Machine.execCommand m s
  | .svnfuse v => Sys2Proof.Machine.execSvnfuse v s
  | .registerWrite off v => Sys2Proof.Machine.execRegisterWrite off v s
  | .humokChange ok => Sys2Proof.Machine.execHumokChange ok s
  | .translationCacheFill id => Sys2Proof.Machine.execTranslationCacheFill id s
  | .accClrComplete id => Sys2Proof.Machine.execAccClrComplete id s
  | .patrolScrubSlot => Sys2Proof.Machine.execPatrolScrubSlot s
  | .patrolSweepStart => Sys2Proof.Machine.execPatrolSweepStart s
  | .refreshSlot => Sys2Proof.Machine.execRefreshSlot s
  | .bankedSlot => Sys2Proof.Machine.execBankedSlot s
  | .sagCheck => Sys2Proof.Machine.execSagCheck s
  | .supplyReset => Sys2Proof.Machine.execSupplyReset s
  | .slewStep => Sys2Proof.Machine.execSlewStep s
  | .thermalSample => Sys2Proof.Machine.execThermalSample s
  | .purgeComplete => Sys2Proof.Machine.execPurgeComplete s
  | .purgeTimeout => Sys2Proof.Machine.execPurgeTimeout s
  | .soakComplete => Sys2Proof.Machine.execSoakComplete s
  | .stoppingComplete => Sys2Proof.Machine.execStoppingComplete s
  | .stopwaitExpiry => Sys2Proof.Machine.execStopwaitExpiry s
  | .cool => Sys2Proof.Machine.execCool s
  | .run => Sys2Proof.Machine.execRun s
  | .warm => Sys2Proof.Machine.execWarm s
  | .completionEntryPost => Sys2Proof.Machine.execCompletionEntryPost s
  | .energySample => Sys2Proof.Machine.execEnergySample s
  | .dropRelocationComplete => Sys2Proof.Machine.execDropRelocationComplete s
  | .notificationPost => Sys2Proof.Machine.execNotificationPost s
  | .errorWindowClear => Sys2Proof.Machine.execErrorWindowClear s
  | .powerOn => Sys2Proof.Machine.execPowerOn s
  | .bootstReady => Sys2Proof.Machine.execBootstReady s
  | .thermalReport => Sys2Proof.Machine.execThermalReport s
  | .measExtend => Sys2Proof.Machine.execMeasExtend s

end Sys2Proof.Machine
end

