-- ==== Sys2Proof/Machine/Tick.lean ====
section
/-! DEFINITION. What happens next: the parts of a tick of TIME (R23, R24, R269, R281), one instruction or event at a time. The order within a
tick is one of those that the spec allows (log entry 11). -/

namespace Sys2Proof.Machine

open Sys2Proof

/-- What the machine does next: it executes a row of the table from a state, or goes on from one. -/
inductive Act where
  | exec (i : Instr) (s : State)
  | quiet (s : State)
deriving DecidableEq, Repr

/-! ### Inputs and events keyed on TIME -/

/-- Changes the race record of a line of this module. -/
def State.modRace (s : State) (line : Nat) (f : RaceRec → RaceRec) : State :=
  if s.homeLine line then { s with race := SMap.set RaceRec.zero s.race line (f (SMap.get RaceRec.zero s.race line)) } else s

/-- What the table of a group of another module holds of a line. -/
def farReg (line : Nat) (rd wr atom : Bool) : Reg := { line := line, rd := rd, wr := wr, atomic := atom, flight := none }

/-- Takes an input that is due. An access of another module that races leaves the record as it is (R305). -/
def State.takeInput (s : State) : Input → Act
  | .event i => .exec i s
  | .race m g line k rd atom => .quiet (if m = s.modId then s else s.modRace line fun r =>
      (raceAccess r false m g (if rd || atom then some (farReg line rd false atom) else none) k).getD r)
  | .raceEnd m g line rd wr atom => .quiet (if m = s.modId then s else s.modRace line fun r => raceEnd r false m g (farReg line rd wr atom))
  | .raceRec line r => .quiet (if s.homeLine line then s else { s with race := SMap.set RaceRec.zero s.race line r })
  | .stale rs => .quiet { s with stale := rs }
  | .recordEcc frame n => .quiet { s with recErr := (frame, n) :: s.recErr.filter fun x => decide (x ≠ (frame, n)) }
  | .parity die e => .quiet { s with tcache := s.tcache.map fun p => if p.1 = die then (p.1, p.2.filter fun x => decide (x ≠ e)) else p }
  | .env e => .quiet { s with env := e, agenda := if e.input < 360 then [.supplyReset] else [] }
  | .bytes pa bs => .quiet (s.store pa bs)
  | .ecc pa m => .quiet { s with ecc := SMap.set .good s.ecc (unitOf pa).1 m }
  | .coreEcc c r bad => .quiet (s.modCore c fun k => { k with ecc := (r, bad) :: k.ecc.filter fun p => decide (p.1 ≠ r) })

/-- Claims that have run out. -/
def State.expiries (s : State) : List Instr :=
  s.groups.flatMap fun g => (g.claims.filter fun c => c.till.elim false fun t => decide (t ≤ s.time)).map fun c => .pauseClaimExpiry g.num c.src

/-- Events at stated values of TIME (R282, R384, R397, R400, R439 to R441). -/
def State.keyed (s : State) : List Instr :=
  let t := s.time
  let at' (p : Prop) [Decidable p] (i : Instr) : List Instr := if p then [i] else []
  let tsync := (s.cregOf 0x348).toNat
  let formed := (s.cregOf 0x340).getLsbD 17
  at' (t % 2 ^ 20 = 0) .thermalSample ++ at' (t % 65536 = 0) .energySample ++ at' (t % 8192 = 8191) .patrolScrubSlot ++ at' (t % 64 = 63) .refreshSlot ++
  at' (t % 3 = 2) .bankedSlot ++ at' (t % 16 = 0) .sagCheck ++ at' (t % 65536 = 0 ∧ formed = true ∧ bitN tsync 1 = true) (.timeSyncExchange (some 0)) ++
  at' (t % 2 ^ 32 = 0 ∧ s.boot.subscribed = true) .thermalReport

/-- Events that fall due when a time has passed or a condition is met (R371, R378, R401, R403, R405, R412, R417). -/
def State.dueEvents (s : State) : List Instr :=
  let t := s.time
  let at' (p : Prop) [Decidable p] (i : Instr) : List Instr := if p then [i] else []
  let hold := s.therm.holdFrom.elim false fun h => decide (h + tenMin ≤ t)
  let run := decide (4 ≤ s.thermal ∧ s.thermal ≤ 7)
  let win := bitsN (s.cregOf 0x208).toNat 0 48
  let wait := bitsN (s.cregOf 0x1B0).toNat 0 32
  let late := (decide (s.thermal = 7) && decide (s.therm.since + wait ≤ t)) || s.dropSt.elim false fun d => d.ends.isNone && decide (d.since + wait ≤ t)
  at' (run = true ∧ s.therm.scrubAt + s.scrubIvl ≤ t) .patrolSweepStart ++ at' (win ≠ 0 ∧ s.errFrom + win ≤ t) .errorWindowClear ++
  at' (s.thermal = 1 ∧ hold = true) .purgeComplete ++ at' (s.thermal = 1 ∧ s.therm.since + 3600 * second ≤ t) .purgeTimeout ++
  at' (s.thermal = 3 ∧ hold = true) .soakComplete ++ at' (s.thermal = 7 ∧ s.groups = []) .stoppingComplete ++
  at' (late = true ∧ (s.groups.any fun g => g.pend.isNone) = true) .stopwaitExpiry ++
  ((s.dropSt.bind fun d => d.ends).elim [] fun e => at' (e ≤ t) .dropRelocationComplete) ++
  (s.jobs.flatMap fun j => (j.changes.filter fun c => !c.waiting.isEmpty && c.deadline.elim false fun d => decide (d ≤ t)).map fun c => .migwaitExpiry c.seq) ++
  ((s.resps.find? fun r => s.respReady r).elim [] fun r => [.requestResponse r.seq]) ++
  at' (s.cqWait ≠ []) .completionEntryPost ++ at' (s.nqWait ≠ []) .notificationPost

/-- A DROP whose groups have stopped has its end fixed (R417). -/
def State.dropClock (s : State) : State :=
  match s.dropSt with
  | some d => if d.ends.isNone ∧ s.groups = [] then { s with dropSt := some { d with ends := some (s.time + Config.dropLatency s.free % (2 ^ 28 + 1)) }, free := s.free + 1 } else s
  | none => s

/-- Messages that are answered with what the registers hold at the end of the tick, its changes of STATUS among them (R14, R439). -/
def Input.isMessage : Input → Bool
  | .event (.health _) | .event (.thermal _) | .event (.attest _) | .event (.fwimage _) | .event (.command _) => true
  | _ => false

/-- Register writes by software, which precede what hardware sets in the same tick (R6). -/
def Input.isWrite : Input → Bool
  | .event (.registerWrite _ _) => true
  | _ => false

/-- The first due input that `p` selects. -/
def State.dueInput (s : State) (p : Input → Bool) : Option Nat := s.inputs.findIdx? fun x => decide (x.1 ≤ s.time) && p x.2

/-- Takes the input at an index. -/
def State.takeAt (s : State) (i : Nat) : Act := ({ s with inputs := s.inputs.eraseIdx i } : State).takeInput ((s.inputs.getD i (0, .env s.env)).2)

/-- The first part of a tick. -/
def State.actEvents (s : State) : Act :=
  match (s.dueInput Input.isWrite).or (s.dueInput fun x => !x.isMessage) with
  | some i => s.takeAt i
  | none =>
    let s := s.dropClock
    .quiet { s with agenda := s.expiries ++ (if s.again then [] else s.keyed) ++ s.dueEvents, half := .claims }

/-! ### The reckoners (R85, R124, R269, R281, R283, R324) -/

/-- Adds at completion of an engine that can be made: each into its own queue, as that has room. -/
def State.makeAdds (s : State) (c t : Nat) : State :=
  let T := s.reckOf c
  ((s.core c).engine t).owed.foldl (fun s o =>
    let s := s.modEngine c t fun e => { e with owed := e.owed.drop 1 }
    let k := s.core c
    let keep (s : State) (o : Owed) : State := s.modEngine c t fun e => { e with owed := e.owed ++ [o] }
    if s.opLive o.op then keep s o
    else if T < o.tick then keep s { o with op := none }
    else
      let p := o.prev && k.beadRoom (coreType c) t T true false
      let n := o.next && k.beadRoom (coreType c) t T false true
      let s := s.setCore c (k.beadAdd (coreType c) t T p n)
      if p = o.prev ∧ n = o.next then s else keep s { o with op := none, prev := o.prev && !p, next := o.next && !n }) s

/-- What a core does at the start of a reckoner tick. -/
def State.coreTick (s : State) (c : Nat) : State :=
  let ts := tagsOf (coreType c)
  let s := ts.foldl (fun s t => s.takeHolds c t) s
  let s := ts.foldl (fun s t => s.makeAdds c t) s
  let T := s.reckOf c
  s.modCore c fun k =>
    let k := (k.settleSys (coreType c) T).settleFlags T
    { k with busy := k.busy.filter fun b => decide (T ≤ b.tick) || s.opLive b.op || b.hold.elim false fun t => (k.engine t).hold.isSome }

/-- Cores of a group that run a stream and have not halted. -/
def State.activeCores (s : State) (g : Group) : List Nat := g.cores.filter fun c => (s.core c).active

/-- Whether the unit of a group is complete (R345). -/
def State.unitOver (s : State) (g : Group) : Bool :=
  (s.activeCores g).isEmpty && g.held.isNone && !(s.flights.any fun f => decide (f.grp = g.num) && (match f.work with
    | .contrib c => c.live
    | .walk _ _ | .drained => false
    | _ => true))

/-- Whether takes at completion hold an operation back (R85). -/
def State.heldBack (s : State) (g : Group) (id : Nat) : Bool :=
  g.cores.any fun c => (s.core c).eng.any fun p => p.2.hold.elim false fun h => h.fl.contains id

/-- Accumulator operations that complete at the start of a reckoner tick, before its issues (R239). -/
def State.bankEvents (s : State) (g : Group) : List Instr :=
  (s.flights.filter fun f => decide (f.grp = g.num) && decide (f.due ≤ g.reck) && !s.heldBack g f.id).filterMap fun f => match f.work with
    | .clear _ => some (.accClrComplete f.id)
    | .carry => some (.accCarryComplete f.id)
    | _ => none

/-- Whether the engines of a core joined at a GBAR before the present tick: its arrival is entered as the word issues (R124). -/
def State.atGbar (s : State) (g : Group) (c : Nat) : Bool :=
  let k := s.core c
  (k.joined (coreType c)).elim false (fun J => decide (J < g.reck)) && (match decode (coreType c) (k.stream.drop (k.engine 0).pc) with
    | .instr (.gbar _) _ _ => true
    | _ => false)

/-- Whether requests of a cancelled operation of a group are still to drain (R326). -/
def State.draining (s : State) (g : Nat) : Bool := s.flights.any fun f => decide (f.grp = g) && decide (f.work = .drained)

/-- Events of a group at its reckoner tick. -/
def State.groupEvents (s : State) (g : Group) : List Instr :=
  let bar := g.bar.elim [] fun b =>
    if (s.activeCores g).all fun c => b.cores.contains c then [Instr.gbarRelease g.num]
    else if b.first + 65536 ≤ g.reck && !((s.activeCores g).all fun c => b.cores.contains c || s.atGbar g c) then [.gbarTimeout g.num] else []
  let waits := (s.activeCores g).flatMap fun c =>
    ((tagsOf (coreType c)).filter fun t =>
      let e := (s.core c).engine t
      !e.openWait && e.since.elim false fun x => decide (x + 65536 ≤ g.reck)).map fun t => Instr.beadDeadlock c t
  let long := ((s.activeCores g).filter fun c => !(s.overdue c).isEmpty).map fun c => Instr.waitLimitFault c
  let again := if (g.reenter.elim false fun t => decide (t ≤ g.reck)) && !s.draining g.num then [Instr.segmentReentry g.num] else []
  let done := if s.unitOver g ∧ g.reenter.isNone then [Instr.unitComplete g.num] else []
  s.bankEvents g ++ bar ++ waits ++ long ++ again ++ done

/-- A reckoner advances by one tick. -/
def State.advance (s : State) (g : Group) : State :=
  let band := s.bandAmong g.dies
  let s := s.modGroup g.num fun x => { x with reck := x.reck + 1, live := true, band := band }
  let s := if band ≠ g.band then s.trace 9 g.num 0xFF 0xFF band s.mband else s
  let s := g.cores.foldl State.coreTick s
  match s.group g.num with
  | some x => { s with agenda := s.agenda ++ s.groupEvents x }
  | none => s

/-- An enabled BRK that every engine of its core has reached, and that has not stopped the group yet: its core and code (R128). -/
def State.brkAt (s : State) (g : Group) : Option (Nat × Nat) :=
  if (s.cregOf (0x600 + 8 * g.num)).getLsbD 0 then
    g.cores.findSome? fun c =>
      let k := s.core c
      if k.active && !(k.engine 0).primed && (k.joined (coreType c)).isSome then
        match decode (coreType c) (k.stream.drop (k.engine 0).pc) with
        | .instr (.brk b) _ _ => some (c, b.toNat)
        | _ => none
      else none
  else none

/-- Whether an engine of a group holds it paused. -/
def State.groupWaits (s : State) (g : Group) : Bool := g.cores.any fun c => (s.core c).eng.any fun p => p.2.waits.isSome

/-- One group at the present tick: its reckoner stands, takes a discard, stops, or advances. At a claimed tick nothing moves (R281). -/
def State.groupTick (s : State) (g : Group) : State :=
  let still := s.modGroup g.num fun x => { x with live := false }
  if g.stopped || !g.claims.isEmpty then still
  else if s.groupWaits g then s.modGroup g.num fun x => { x with live := true }
  else match g.pend with
  | some p =>
    let s := s.modGroup g.num fun x => { x with reck := x.reck + 1, live := true }
    s.discharge { g with reck := g.reck + 1, live := true } p
  | none =>
    if g.stopIn.elim false fun n => decide (n ≤ g.reck + 1) then still.debugStop g.num false 0
    else match s.brkAt g with
    | some (c, b) => (still.modEngine c 0 fun e => { e with primed := true }).debugStop g.num true b
    | none => s.advance g

/-- The second part of a tick: every group's reckoner. -/
def State.actClaims (s : State) : Act :=
  let s := s.groups.foldl (fun s g => match s.group g.num with
    | some x => s.groupTick x
    | none => s) s
  .quiet { s with half := .work }

/-! ### Issue (R1, R83, R99, R100, R270) -/

/-- Whether an engine may issue or retry now: its reckoner has reached its opportunity; where an engine of the group waits, only such engines, once
a tick. -/
def State.canTry (s : State) (g : Group) (waiting : Bool) (c t : Nat) : Bool :=
  let e := (s.core c).engine t
  decide (e.nextAt ≤ g.reck) && (if waiting then e.waits.elim false fun w => decide (w.2 ≠ s.time) else true)

/-- The first core and engine of a group that may issue. -/
def State.firstOf (s : State) (g : Group) : Option (Nat × Nat) :=
  if g.live && (g.held.elim true fun h => decide (g.reck ≤ h.tick)) && g.reenter.isNone && !g.stopped && g.pend.elim true fun p => decide (g.reck < p.tick) then
    let w := s.groupWaits g
    ((s.activeCores g).filter fun c => !(s.core c).parked).findSome? fun c => ((tagsOf (coreType c)).find? fun t => s.canTry g w c t).map fun t => (c, t)
  else none

/-- The first core and engine of all. -/
def State.firstIssue (s : State) : Option (Nat × Nat) :=
  (s.groups.filterMap fun g => s.firstOf g).foldl (fun m p => match m with
    | none => some p
    | some q => if p.1 < q.1 then some p else some q) none

/-- The engine at the cursor meets the word at its pc: it issues it, steps over it, or faults. -/
def State.fetch (s : State) : Act :=
  let c := s.cur.core
  let t := s.cur.tag
  let e := s.hereE
  let ws := s.here.stream.drop e.pc
  match decode (coreType c) ws with
  | .instr i len tag => if tag = t ∨ isAll i then .exec i s else .quiet (s.leave c t len none)
  | .bad f tag =>
    if tag = t then .quiet (s.unpause.raise f 0 none)
    else if barsAll ws then .quiet (s.stall false)
    else .quiet (s.leave c t (((ws.headD 0).extractLsb' 23 2).toNat + 1) none)

/-- The third part of a tick: issue. -/
def State.actWork (s : State) : Act :=
  match s.firstIssue with
  | some (c, t) => ({ s with cur := { core := c, tag := t } } : State).fetch
  | none => .quiet { s with half := .land }

/-! ### Effects that fall due (R281, R291, R292, R295) -/

/-- Operations that complete at the start of a tick. -/
def Work.early : Work → Bool
  | .clear _ | .carry => true
  | _ => false

/-- Whether an open-time operation, or the result of a collective, keeps its place behind an earlier operation of its queue that touches the bytes that
it touches (R296): a COLL stands there from its issue until its result has been written. -/
def State.queued (s : State) (f : Flight) : Bool :=
  let mine (g : Flight) : Bool := decide (g.core = f.core) && decide (g.tag = f.tag) && !(g.fixed && g.work.runs ≠ [])
  let meets (as bs : List Run) : Bool := as.any fun a => bs.any fun b => a.meets b
  match f.work with
  | .deliver p =>
    s.flights.any fun d => (match d.work with
      | .collDst i n dst => decide (i = p.collid) && decide (n = p.seq) && decide (d.core = f.core) &&
        s.flights.any fun g => decide (g.id < d.id) && mine g && (match g.work with
          | .collDst _ _ old => meets dst old
          | w => !g.fixed && meets dst w.runs)
      | _ => false)
  | w => s.flights.any fun d => decide (d.id < f.id) && mine d && (match d.work with
      | .collDst _ _ dst => meets w.runs dst
      | _ => false)

/-- Whether an operation takes effect now. -/
def State.flightDue (s : State) (f : Flight) : Bool :=
  if f.fixed then
    match s.group f.grp with
    | some g => !f.work.early && decide (f.due ≤ g.reck) && !s.groupWaits g && !s.heldBack g f.id
    | none => true
  else decide (f.due ≤ s.time) && !s.queued f

/-- The event by which an operation takes effect. -/
def landEvent (f : Flight) : Instr :=
  match f.work with
  | .late _ => if f.fixed then .memoryEffectCommit f.id else .lateAccessComplete f.id
  | .walk _ _ => .translationCacheFill f.id
  | .contrib c => .collContributionArrival c
  | .deliver _ => .collResult f.id
  | .nest => .nestPassEntry f.core
  | .pass _ _ _ _ => .nestPassCommit f.id
  | .row _ _ _ _ => .drainRowCommit f.id
  | .clear _ => .accClrComplete f.id
  | .carry => .accCarryComplete f.id
  | .plane _ _ _ size next _ _ => if size ≤ next then .planeLoadComplete f.id else .memoryEffectCommit f.id
  | .atomic _ _ _ _ _ _ _ _ _ => if f.fixed then .bankAluAtomic f.id else .openTimeLanding f.id
  | .copy _ _ _ _ _ _ _ => if f.fixed then .transferCommit f.id else .openTimeLanding f.id
  | .write _ _ => if !f.fixed then .openTimeLanding f.id else if f.async then .transferCommit f.id else .memoryEffectCommit f.id
  | _ => if f.fixed then .memoryEffectCommit f.id else .openTimeLanding f.id

/-- The next operation that takes effect. -/
def State.nextLanding (s : State) : Option Flight :=
  (s.flights.filter fun f => s.flightDue f).foldl (fun m f => match m with
    | none => some f
    | some g => if flightBefore f g then some f else some g) none

/-- A contribution leaves the fabric as it arrives. -/
def State.landFrom (s : State) (f : Flight) : State :=
  match f.work with
  | .contrib _ => s.endFlight f
  | _ => s

/-- The last part of a tick: effects, then the scheduler, then TIME goes on, by a slew step where one is due (R24, R384). -/
def State.actLand (s : State) : Act :=
  match s.nextLanding with
  | some f => .exec (landEvent f) (s.landFrom f)
  | none =>
    match s.dueInput Input.isMessage with
    | some i => s.takeAt i
    | none =>
    match s.cancels.find? fun r => s.cancelReady r with
    | some r => .exec (.cancelComplete r.id) s
    | none =>
      match s.schedNext with
      | some i => .exec i s
      | none =>
        if s.time % 24576 = 0 ∧ s.again = false ∧ s.slew ≠ 0 then .exec .slewStep { s with half := .events }
        else .quiet { s with half := .events, time := (s.time + 1) % 2 ^ 64, again := false }

/-- What happens next. -/
def State.act (s : State) : Act :=
  match s.agenda with
  | i :: r => .exec i { s with agenda := r }
  | [] =>
    match s.half with
    | .events => s.actEvents
    | .claims => s.actClaims
    | .work => s.actWork
    | .land => s.actLand

/-! ### A word placed where the next fetch is -/

/-- The engine that issues a word: its own engine, or the CE. -/
def issuerOf (w : W32) : Nat := if w.extractLsb' 25 3 = 7#3 then 0 else (w.extractLsb' 25 3).toNat

/-- Whether a word is a join word (R112). -/
def joins (ws : List W32) : Bool :=
  match decode .m ws with
  | .instr (.segOpen _) _ _ | .instr .segClose _ _ | .instr (.gbar _) _ _ | .instr .halt _ _ | .instr (.ckdiv _) _ _ | .instr .slipw _ _ | .instr (.brk _) _ _ => true
  | _ => false

/-- Core 0 with a stream of one instruction, its issuer at the word and the other engines arrived there; at a join word the issuer has
arrived too, so that it issues. -/
def placedCore (ws : List W32) : Core :=
  let t := issuerOf (ws.headD 0)
  let e (u : Nat) : Engine := { Engine.reset with nextAt := if u = t then 1000 else 2000, arrived := if u = t ∧ joins ws = false then none else some 999 }
  { Core.reset 0 with grp := some 0, stream := ws, eng := (tagsOf .m).foldl (fun m u => SMap.put m u (e u)) [] }

/-- A group of shape EIGHTH on the lowest dies, at reckoner tick 1,000. -/
def placedGroup : Group :=
  { num := 0, shape := 3, dies := [9, 10, 25, 1], cores := (List.range 16) ++ (List.range 8).map (fun i => 128 + i) ++ (List.range 4).map (fun i => 224 + i), graph := 0, node := 0, unit := 0,
    job := 0, startAt := 0, reck := 1000, claims := [], openings := 0, bar := none, regs := [], gen := 0, sticky := [], foot := 0, stopped := false, stopIn := none,
    replayTo := none, reenter := none, leave := none, pend := none, held := none, band := 0, live := true }

/-- The words of an instruction of up to three words, padded with zeros. -/
def wordsOf (w : Nat) : List W32 := [BitVec.ofNat 32 w, BitVec.ofNat 32 (w / 2 ^ 32), BitVec.ofNat 32 (w / 2 ^ 64)]

end Sys2Proof.Machine
end

