-- ==== Sys2Proof/Machine/Step.lean ====
section
/-! DEFINITION. The step of the machine: one instruction, event, command or message of the table, or the passage from one part of a tick to
the next. -/

namespace Sys2Proof.Machine

open Sys2Proof

/-- One step. -/
def step (s : State) : Host.Outcome State Fault Refusal :=
  match s.act with
  | .exec i s' => exec i s'
  | .quiet s' => .next s'

/-- A state whose next step issues the instruction of a table word: the module runs, and one core of a group holds it in its stream. -/
def State.withFetchWord (s : State) (_nbits w : Nat) : State :=
  let ws := wordsOf w
  { s with half := .work, agenda := [], inputs := [], groups := [placedGroup], cores := SMap.put s.cores 0 (placedCore ws) }

end Sys2Proof.Machine
end

