-- ==== Sys2Proof/Safety.lean ====
section
/-! DEFINITION. The terms of the statements: well-formed memory, an engine that nothing holds back, and what every issue does beside the
instruction's own effect. -/

namespace Sys2Proof

open Sys2Proof.Machine

/-- The memory's canonical form. -/
def Machine.State.MemWf (s : Machine.State) : Prop := Machine.memWf s.mem = true

/-- The class of the engine that executes an instruction; none for events, commands and messages (R97, R98). -/
def classOf : Instr → Option Cls
  | .nop _ | .pbr _ | .br _ | .brl _ | .loop _ | .lbrk _ | .segOpen _ | .segClose | .gbar _ | .halt | .ckdiv _ | .slipw | .brk _ => some .all
  | .add _ | .sub _ | .mul _ | .mulh _ | .divi _ | .remi _ | .and _ | .or _ | .xor _ | .andn _ | .shl _ | .shr _ | .rot _ | .min _ | .max _ | .clz _
  | .popc _ | .ext _ | .ins _ | .mov _ | .movi _ | .moviHi _ | .sel _ | .cmp _ | .plog _ | .pmov _ | .lea _ | .setw _ | .getw _ | .ld _ | .st _
  | .spill _ | .fill _ | .atom _ | .atomn _ | .cas _ | .fence _ | .qfence _ | .twait _ | .tffr _ | .tclr _ | .bari _ | .barx _ | .bwait _ | .trapf _
  | .segst _ | .mfsr _ | .mtsr _ | .rdtime _ | .rdreck _ | .rand _ | .pace _ | .hint _ | .trap _ | .cbset _ | .cbadv _ | .cbqry _ => some .ce
  | .vadd _ | .vsub _ | .vmul _ | .vfma _ | .vfms _ | .vmin _ | .vmax _ | .vabs _ | .vneg _ | .vand _ | .vor _ | .vxor _ | .vshl _ | .vshr _
  | .vcmp _ | .vsel _ | .vcvt _ | .vmov _ | .vbcast _ | .vperm _ | .vrot _ | .vshuf _ | .vpack _ | .vunpk _ | .vred _ | .vscan _ | .vdot _ | .vld _
  | .vst _ | .vldx _ | .vstx _ | .vldc _ | .vstc _ | .viota _ => some .ve
  | .nrsq _ | .nrcp _ | .nexp2 _ | .nlog2 _ | .nsig _ | .ntanh _ | .nmom _ | .nnorm _ | .nsoft _ => some .ne
  | .qamax _ | .qscale _ | .qblk _ | .qdeq _ | .qsign _ => some .qe
  | .lds _ | .ldsc _ | .lflip _ | .ldscl _ => some .le
  | .msign _ | .mstop _ => some .se
  | .mma _ | .accClr _ | .accSwap _ | .accRd _ | .accWr _ | .accCarry _ | .mwait _ => some .xe
  | .drain _ | .dscale _ | .damax _ => some .de
  | .igen _ | .imap _ | .icmp _ => some .ie
  | .gath _ | .scat _ | .win _ | .gseg _ => some .ge
  | .ast _ | .await _ => some .ae
  | .hld _ | .hst _ | .hpre _ | .hzero _ => some .he
  | .tcopy _ | .tcvt _ => some .te
  | .push _ | .pushb _ | .copy _ | .copyd _ | .pull _ | .copyb _ | .coll _ => some .pe
  | _ => none

/-- The tag of the engines of a class (R16); 7 marks words that every engine executes (R99). -/
def tagOfCls : Cls → Nat
  | .ce => 0
  | .le | .ve | .ie | .he => 1
  | .se | .ne | .ge | .te => 2
  | .xe | .qe | .ae => 3
  | .de => 4
  | .pe => 6
  | .all => 7

/-- Whether a core type has an engine of the class (R16). -/
def hasCls (ct : Machine.CoreType) (c : Cls) : Prop := c = .all ∨ clsOf ct (tagOfCls c) = some c

namespace Machine

/-- No active loop of the engine at the cursor ends in the `n` words at its pc (R119). -/
def State.midLoop (s : State) (n : Nat) : Bool :=
  match s.hereE.loops with
  | [] => true
  | l :: _ => !(decide (s.hereE.pc ≤ l.last) && decide (l.last < s.hereE.pc + n))

/-- What an instruction reads and writes at the cursor. -/
def State.usesOf (s : State) (i : Instr) : Uses := At.uses { k := s.here, c := s.cur.core, t := s.cur.tag } i

/-- The engine at the cursor runs, and nothing holds it back from issuing `i` at this tick. -/
structure Clear (s : State) (i : Instr) : Prop where
  /-- The engine is present, and its group runs (R15, R125, R281). -/
  runs : s.runs = true
  /-- No adds or takes at completion of earlier instructions are still to be made (R85). -/
  done : s.hereE.owed = [] ∧ s.hereE.hold = none
  /-- The word is legal (R100, orders 4 and 5). -/
  legal : s.issueFault i = none
  /-- The seam is not too long (R316). -/
  seam : s.here.inSeg = true ∨ s.hereE.seam < 256
  /-- Neither slip nor pacing holds the engine (R280, R272). -/
  slip : s.here.slips s.ct s.cur.tag s.now = false
  pace : s.here.paced s.cur.tag s.now = false
  /-- What the instruction reads has committed (R72). -/
  reads : s.readsWait s.cur.core s.now (s.usesOf i) = false
  /-- No engine that lags behind has still to read or write what the instruction writes, or to write what it reads (R72). -/
  lag : s.here.lagsBehind s.cur.core s.cur.tag (s.usesOf i) = false
  /-- What the instruction writes has no earlier write still to commit (R72). -/
  writes : (s.here.busy.any fun b => (s.usesOf i).wr.contains b.res) = false
  /-- The beads it takes are there, of its epoch, and the queues it adds to have room (R84, R86, R88). -/
  beads : (s.hereE.primed || s.hereE.asked) = true ∨
    (s.hereE.beadReady s.now (beadsOf i).tp (beadsOf i).tn = true ∧ s.hereE.beadEpoch (beadsOf i).tp (beadsOf i).tn = true)
  room : s.here.beadRoom s.ct s.cur.tag s.now (beadsOf i).ap (beadsOf i).an = true
  /-- The reads need one cycle, or their stall has passed (R69). -/
  banks : (readCycles (s.usesOf i).src).1 ≤ 1 ∨ s.hereE.primed = true
  /-- The core's files hold no error (R408). -/
  clean : s.here.ecc = []
  /-- The engine holds no pause (R282). -/
  unpaused : s.hereE.waits = none
  /-- No deferred copy of the core has bytes still to be read (R263). -/
  copies : s.heldRuns = []

/-- A core less what every issue touches: the engines, the path, the interlock entries, the ECC marks. -/
def Core.bare (k : Core) : Core := { k with eng := [], path := [], busy := [], ecc := [] }

/-- An engine less what the issue of another engine of its core may touch: its place in the path and its incoming beads. -/
def Engine.apart (e : Engine) : Engine := { e with idx := 0, inPrev := .empty, inNext := .empty }

/-- What an engine keeps through its own issue: latches, epoch, outcomes, loops, targets (R71, R88, R116, R119, R115). -/
def Engine.kept (e : Engine) : Latch × Latch × Bool × List OutEnt × List LoopSt × SMap Nat := (e.latA, e.latB, e.epoch, e.outq, e.loops, e.pbrAt)

/-- `t` is `s'`, the state with the instruction's own effects, but for what every issue does: the engine at the cursor of `s` has issued
at the present tick, stands at `pc` and may issue again at tick `nx`; its beads, its interlock entries, its counts and the places of the core's engines in the path
follow; every module-wide field, every other core and every register of this core is as in `s'`. -/
structure Went (s s' t : State) (pc nx : Nat) : Prop where
  module : { t with cores := s'.cores } = s'
  others : ∀ c, c ≠ s.cur.core → t.core c = s'.core c
  regs : (t.core s.cur.core).bare = (s'.core s.cur.core).bare
  engines : ∀ u, u ≠ s.cur.tag → ((t.core s.cur.core).engine u).apart = ((s'.core s.cur.core).engine u).apart
  own : ((t.core s.cur.core).engine s.cur.tag).kept = ((s'.core s.cur.core).engine s.cur.tag).kept
  place : ((t.core s.cur.core).engine s.cur.tag).pc = pc
  issued : ((t.core s.cur.core).engine s.cur.tag).lastAt = some s.now
  next : ((t.core s.cur.core).engine s.cur.tag).nextAt = nx
  count : ((t.core s.cur.core).engine s.cur.tag).dyn = (((s'.core s.cur.core).engine s.cur.tag).dyn + 1) % 2 ^ 32

/-- The pc after the words of an instruction. -/
def State.pcAfter (s : State) (i : Instr) : Nat := s.hereE.pc + (encode i).length

/-- The instruction issues, with its own effects in `s'`, and the engine goes to the word at `pc`, where it may issue at tick `nx`. -/
def IssuesTo (i : Instr) (s s' : State) (pc nx : Nat) : Prop := ∃ t, exec i s = .next t ∧ Went s s' t pc nx

/-- The instruction issues, with its own effects in `s'`, and the engine goes on to the next word. -/
def Issues (i : Instr) (s s' : State) : Prop := ∃ nx, IssuesTo i s s' (s.pcAfter i) nx

/-- The instruction does not issue: its engine raises a fault with no INFO (R100, R421). -/
def Faults (i : Instr) (s : State) (c : Cause) : Prop := exec i s = .next (s.raise c 0 none)

/-- The instruction can issue: nothing holds its engine back, no loop ends in its words, and its guard enables it (R89). -/
structure Ready (s : State) (i : Instr) : Prop where
  clear : Clear s i
  mid : s.midLoop (encode i).length = true
  on : s.enabled (guardOf i) = true

/-- The effects of a two-source instruction of the CE whose result is the exact integer `v`: sources with hold enter the latches (R71), the
destination takes the result reduced to its width (R66), and the flags fall due at the commit tick, `lat` cycles on (R54). `ctl`: source B is a
control operand (R130). -/
def State.after2 (s : State) (f : S3) (ctl : Bool) (lat : Nat) (v : Int) (fl : Flags) : State :=
  let k := s.here
  let r := reduceI f.sub.sat f.fs v f.dst.bits
  (s.modHere fun c => ((c.holdSrc s.cur.tag false f.fs f.dst.w f.a).holdLatch s.cur.tag true f.b
    (if ctl then k.ctlVal s.cur.tag true f.b else k.srcVal s.cur.tag true f.fs f.dst.w f.b) (k.srcW s.cur.tag true f.dst.w f.b)).wrSlot s.cur.tag
      f.dst r.1).flag lat (fl ||| r.2)

/-- The effects of a one-source instruction of the CE whose result is `v`, which wraps to the destination (R133). -/
def State.after1 (s : State) (f : S2r) (v : Int) : State :=
  s.modHere fun k => (k.holdSrc s.cur.tag false f.fs f.dst.w f.a).wrSlot s.cur.tag f.dst (wrapI v f.dst.bits)

/-- The effects of an instruction of a lane engine that writes `v l` to `dst` in each lane of `on` (R77, R170): latches, lanes, and the flags,
which fall due at the commit tick, `lat` cycles on. -/
def State.afterLanes (s : State) (on : List Nat) (dst : Slot) (lat : Nat) (hold : Core → Core) (v : Nat → Nat × Flags) : State :=
  (s.modHere fun k => on.foldl (fun k l => k.wrLane s.cur.tag l dst (v l).1) (hold k)).flag lat (orFlags (on.map fun l => (v l).2))

/-- The lanes that a guard enables (R89). -/
def State.lanesFor (s : State) (g : Guard) : List Nat := (List.range 64).filter fun l => !g.gd || ((s.here.vpredOf g.p.toNat).getLsbD l != g.s)

/-- The state in which an access of a buffer of `nb` banks goes on, where the banks have given all its lines in this cycle (R197). -/
def State.banked (s : State) (nb : Nat) (spans : List (Nat × Nat)) : Option State :=
  if (s.askBanks nb spans).2 then some (s.askBanks nb spans).1 else none

/-- The engine stalls for the banks of a buffer: it takes its beads and asks again in its next cycle (R86, R197). -/
def StallsForBanks (i : Instr) (s : State) (nb : Nat) (spans : List (Nat × Nat)) : Prop :=
  exec i s = .next (((s.askBanks nb spans).1.takeBeads i).modHereE fun e => { e with asked := true, nextAt := s.now + s.d })

/-- The core at the cursor can issue a join word (R112): its CE is at the cursor, and every engine arrived there before the present tick. -/
structure AtJoin (s : State) (i : Instr) : Prop where
  runs : s.runs = true
  ce : s.cur.tag = 0
  legal : staticFault i = none
  seam : s.here.inSeg = true ∨ s.hereE.seam < 256
  here : s.hereE.arrived ≠ none
  all : ∃ J, s.here.joined s.ct = some J ∧ J < s.now

/-! ### Entries, rows and transfers -/

/-- An entry image of buffer `i` in progress: it commits at tick `C`, with the reservation's end and the advances of the buffers `cons`; an
open buffer takes the attribute; flags fall due then (R42, R255). -/
def State.producing (s : State) (C i : Nat) (adv : Bool) (attr : BitVec 5) (img : List Byte) (cons : List Nat) (fl : Flags) (hold : Core → Core) : State :=
  let c := s.cur.core
  let d := s.here.cbOf i
  ((s.launch (some C) false [] (.write (cellsAt (s.bufPa c d.space (d.entry d.slot)) (padTo d.size img))
    (.resv c i s.nextId :: cons.map fun j => .cons c j 1))).1.reserve c i s.nextId adv attr).modHere fun k =>
      { (hold k).raise C fl with busy := k.busy ++ cons.map fun j => { res := .cb j, tick := C + 1, op := none, hold := none, old := [], mask := [] } }

/-- An access of several spans as one operation is granted: every byte passes check 5 of R265, the attributes pair, and the rest is granted as `g`. -/
def State.GrantsAll (s : State) (spans : List (Nat × Nat × Use)) (pair : List (List Run × List (BitVec 16)) → Bool) (g : Granted) : Prop :=
  (∀ p ∈ spans, ∃ x, s.peek p.1 p.2.1 p.2.2 = some x) ∧ pair (spans.filterMap fun p => s.peek p.1 p.2.1 p.2.2) = true ∧ s.accessMany spans = .ok g

/-- A transfer into B SRAM that is granted as `g`, in progress (R256, R268). -/
def State.hldFrom (s : State) (g : Granted) (dst : List Run) (pad : Nat) (tag : Option Nat) (cb : Option (Nat × Bool × BitVec 5)) (hold : Core → Core) : State :=
  let c := s.cur.core
  let s1 := g.s.takeTag tag
  let fins := (match cb with
    | some (i, _, _) => [Fin.resv c i s1.nextId]
    | none => []) ++ s1.tagFins tag
  let m : Move := { s := s1, lat := g.lat, late := g.late, n := (g.runs.map fun r => r.len).sum, links := linksOf c g.runs false, src := g.runs,
                    img := List.replicate pad 0, dst := dst, leaves := none, fins := fins }
  (match cb with
    | some (i, adv, a) => m.start.s.reserve c i m.start.id adv (if attrRaw a then g.attrs.head?.elim a awFmt else a)
    | none => m.start.s).modHere hold

/-- A transfer out of B SRAM that is granted as `g`, in progress: at fixed times its bytes are taken at issue and its entry is released with the last beat;
at open times both follow when it lands (R256, R268). -/
def State.hstFrom (s : State) (g : Granted) (src : List Run) (tag : Option Nat) (cons : Option Nat) (hold : Core → Core) : State :=
  let c := s.cur.core
  let s1 := g.s.takeTag tag
  let fixed := g.lat.isSome
  let m : Move := { s := s1, lat := g.lat, late := g.late, n := (g.runs.map fun r => r.len).sum, links := linksOf c g.runs true,
                    src := if fixed then [] else src, img := if fixed then src.flatMap fun r => rdBytes s.memAhead r.pa r.len else [], dst := g.runs,
                    leaves := none, cons := if fixed then cons else none, fins := (match cons with
                      | some i => if fixed then [] else [.cons c i 1]
                      | none => []) ++ s1.tagFins tag }
  let s2 := m.start.s.modHere hold
  match cons with
  | some i => if fixed then s2
              else s2.modHere fun k => { k with busy := k.busy ++ [{ res := .cb i, tick := s.now + 1, op := some m.start.id, hold := none, old := [], mask := [] }] }
  | none => s2

/-- A read at issue of the span [va, va + n) takes the state from `s` to `s'` and answers its bytes and its runs. -/
def State.Reads (s : State) (va n : Nat) (pair : List (List Run × List (BitVec 16)) → Bool) (s' : State) (bs : List Byte) (runs : List Run) : Prop :=
  (n = 0 ∧ s' = s ∧ bs = [] ∧ runs = []) ∨
  (n ≠ 0 ∧ ∃ g, s.GrantsAll [(va, n, useRead)] pair g ∧ g.s.readAtIssue g.lat.isSome g.runs = (s', none) ∧ runs = g.runs ∧
    bs = g.runs.flatMap fun r => rdBytes s'.memAhead r.pa r.len)

/-- COLL reads its source of `count` elements at `va`: one span, or the planes of a block format with one tile scale for each block (R264). -/
def State.ReadsSource (s : State) (a : BitVec 5) (va count : Nat) (s' : State) (els scales tiles : List Byte) (runs : List Run) : Prop :=
  ((attrBlock a = false ∨ count = 0) ∧ scales = [] ∧ tiles = [] ∧ s.Reads va (ceilDiv (count * collBits a) 8) (fmtIs a) s' els runs) ∨
  (attrBlock a = true ∧ count ≠ 0 ∧ ∃ sp b s1 s2 r1 r2 r3 e3, s.blockPlaces a va (blocksFor a count) = some (sp, b) ∧
    s.Reads (sp.getD 0 (0, 0)).1 (sp.getD 0 (0, 0)).2 (fmtIs a) s1 els r1 ∧ s1.Reads (sp.getD 1 (0, 0)).1 (sp.getD 1 (0, 0)).2 (fmtIs a) s2 scales r2 ∧
    s2.Reads (sp.getD 2 (0, 0)).1 (sp.getD 2 (0, 0)).2 (fmtIs a) s' e3 r3 ∧ tiles = tilesByBlock a b (if attrT a then blocksFor a count else 0) e3 ∧
    runs = r1 ++ r2 ++ r3)

end Machine

end Sys2Proof
end

