-- ==== Sys2Proof/Certificates/Slice0/Obligations.lean ====
section
/-! DEFINITION. The statements for the provers. -/

open Sys2Proof Sys2Proof.Machine

/-! ### Words -/

/-- R82, R83, R91, R98 and the example of R105: words written out bit by bit from their encodings decode to the instructions they stand for. -/
def Obligations.DecodeSpecWords : Prop :=
  let no : Head := { dep := 0, g := { gd := false, p := 0, s := false } }
  let std (rm fmt : Nat) : Sub := { rm := BitVec.ofNat 3 rm, sat := false, cond := 0, fmt := BitVec.ofNat 3 fmt, xs := 0 }
  decode .v [0x834E004F#32, 0x0845D007#32, 0x1081C018#32] =
    .instr (.vadd { h := { dep := 8, g := { gd := true, p := 3, s := true } }, dep := 1, es := 3, fs := true, dst := { win := 2, off := 17, wm1 := 7 },
                    a := .file { win := 1, off := 0, wm1 := 7 } false, b := .scalar { win := 0, off := 32, wm1 := 7 } true, sub := std 0 6 }) 3 1 ∧
  decode .m [0x01000060#32, 0x0041C007#32, 0x00004000#32] =
    .instr (.add { h := no, dep := 0, es := 0, fs := false, dst := { win := 0, off := 16, wm1 := 7 }, a := .file { win := 0, off := 0, wm1 := 7 } false,
                   b := .imm 1 false, sub := std 0 0 }) 3 0 ∧
  decode .m [0x0E000E00#32] = .instr .segClose 1 7 ∧ decode .m [0x0E001200#32] = .instr .halt 1 7 ∧
  decode .g [0x0E800800#32, 0x0001000A#32] = .instr (.loop { n := 0, csrc := false, count := 4, last := 10 }) 2 7 ∧
  decode .b [0x00803448#32, 0x00000002#32] = .instr (.setw { h := no, dep := 0, t := 0, w := 1, add := true, arg := .imm 2 }) 2 0 ∧
  decode .m [0x03000180#32, 0x0F000000#32, 0x00000000#32] = .instr (.lds { h := no, dep := 0, fmt := 30, a := .imm 0 false }) 3 1 ∧
  decode .m [0x02000400#32] = .instr (.lflip { h := no }) 1 1 ∧ decode .m [0x06000400#32] = .instr (.accSwap { h := no }) 1 3 ∧
  decode .m [0x06800180#32, 0x00000000#32] = .instr (.mma { h := no, dep := 0, ua := false, uw := false, aoff := .imm 0 false }) 2 3 ∧
  decode .g [0x0D000064#32, 0x02032800#32, 0x0011C000#32] =
    .instr (.push { h := no, dep := 0, timed := true, dcore := 32, dcb := 3, scb := 2, advs := true, due := .imm 71 false }) 3 6 ∧
  decode .m [0x0F000000#32] = .bad .illegalEncoding 0 ∧ decode .v [0x0A000000#32] = .bad .engineAbsent 0 ∧
  decode .m [0x0E001A00#32] = .bad .illegalInstruction 0 ∧ decode .m [] = .bad .illegalEncoding 0

/-- R82 to R100: the words of every well-formed instruction decode to it, with every operand, on every core type that has its engine, whatever words follow. -/
def Obligations.DecodeEncode : Prop :=
  ∀ (ct : CoreType) (i : Instr) (c : Cls) (rest : List W32), WellFormed i → classOf i = some c → hasCls ct c →
    decode ct (encode i ++ rest) = .instr i (encode i).length (tagOfCls c)

/-- R82 to R100: words that decode have one meaning: the words of the instruction they decode to are these words, and no bit of them is left out. -/
def Obligations.WordsHaveOneMeaning : Prop :=
  ∀ (ct : CoreType) (ws : List W32) (i : Instr) (n t : Nat), decode ct ws = .instr i n t → encode i = ws.take n ∧ n = (encode i).length

/-- R83, R99 and R100: where an engine is next to act, a step runs the instruction that the words at its pc decode to, if it is the engine's own or one that all
engines execute; the engine steps over words of other engines; words that decode to none are a fault of the engine that owns them. What is on the agenda is run
as it stands. -/
def Obligations.StepRunsDecoded : Prop :=
  (∀ (s : State) (i : Instr) (r : List Instr), s.agenda = i :: r → step s = exec i { s with agenda := r }) ∧
  ∀ (s : State) (c t : Nat), s.agenda = [] → s.half = .work → s.firstIssue = some (c, t) →
    let s1 : State := { s with cur := { core := c, tag := t } }
    let ws := (s.core c).stream.drop ((s.core c).engine t).pc
    (∀ i n u, decode (coreType c) ws = .instr i n u → (u = t ∨ isAll i = true) → step s = exec i s1) ∧
    (∀ i n u, decode (coreType c) ws = .instr i n u → u ≠ t → isAll i = false → step s = .next (s1.leave c t n none)) ∧
    (∀ e, decode (coreType c) ws = .bad e t → step s = .next (s1.unpause.raise e 0 none)) ∧
    (∀ e u, decode (coreType c) ws = .bad e u → u ≠ t → barsAll ws = true → step s = .next (s1.stall false)) ∧
    (∀ e u, decode (coreType c) ws = .bad e u → u ≠ t → barsAll ws = false →
      step s = .next (s1.leave c t (((ws.headD 0).extractLsb' 23 2).toNat + 1) none))

/-! ### Reset and memory -/

/-- R11, R23, R61, R71, R76, R81 and R166: after reset the system registers of every core read as the table of R81 says, the predicates, windows, branch targets and
loop counters are 0, the latches are empty and no circular buffer is configured. -/
def Obligations.ResetRegisters : Prop :=
  ∀ c, c < 256 →
    (∀ n, State.reset.sysRead c n =
      if n = 0 then BitVec.ofNat 64 c else if n = 4 then 3 else if n = 0x11 then 256
      else if n = 0x13 then (if c < 128 then 0x02022222 else if c < 192 then 0x02002222 else if c < 224 then 0x03003333 else 0x02000222) else 0) ∧
    ∀ i, (State.reset.core c).predBit i = false ∧ (State.reset.core c).vpredOf i = 0 ∧ (State.reset.core c).btOf i = 0 ∧ (State.reset.core c).lcOf i = 0 ∧
      (∀ w, (State.reset.core c).window i w = 0) ∧ ((State.reset.core c).engine i).latA.width = 0 ∧ ((State.reset.core c).engine i).latB.width = 0 ∧
      ((State.reset.core c).cbOf i).configured = false ∧ ((State.reset.core c).cbOf i).attr = 0 ∧ ((State.reset.core c).cbOf i).occ = 0

/-- The canonical form of memory (log entry 4) holds at reset. -/
def Obligations.ResetMemoryCanonical : Prop :=
 State.reset.MemWf

/-- Every step keeps the canonical form of memory (log entry 4): the addresses listed rise, and none holds what an unlisted one reads as. -/
def Obligations.MemoryStaysCanonical : Prop :=
  ∀ s t : State, s.MemWf → step s = .next t → t.MemWf

/-- What is written is read: stored bytes, cells and nibbles read as the last value stored to their address, every other byte as before; a write to a line that is
lost is dropped (R417). -/
def Obligations.StoredIsRead : Prop :=
  (∀ (s : State) (a : Nat) (bs : List Byte), (s.anyLost = false ∨ s.lostPa a = false) →
    (∀ (i : Nat) (h : i < bs.length), rdByte (s.store a bs).mem (a + i) = bs[i]) ∧
    ∀ x, (x < a ∨ a + bs.length ≤ x) → rdByte (s.store a bs).mem x = rdByte s.mem x) ∧
  (∀ (s : State) (a : Nat) (bs : List Byte), s.anyLost = true → s.lostPa a = true → s.store a bs = s) ∧
  (∀ (s : State) (ws : List Host.Cell) (x : Nat),
    rdByte (s.storeCells ws).mem x = (ws.reverse.find? fun w => decide (w.1 = x) && !(s.anyLost && s.lostPa x)).elim (rdByte s.mem x) fun w => w.2) ∧
  (∀ (s : State) (ns : List (Nat × Slice)) (x : Nat),
    rdNib (s.storeNibs ns).mem x = (ns.reverse.find? fun w => decide (w.1 = x) && !(s.anyLost && s.lostPa (x / 2))).elim (rdNib s.mem x) fun w => w.2)

/-! ### Waiting, and taking a fault -/

/-- R72, R100, R270, R272, R280 and R316: an engine whose instruction is held back stalls to its next issue opportunity and does nothing else; an ill-formed word
is its fault; a seam of more than 256 instructions is a fault; an engine that runs no stream issues nothing. -/
def Obligations.HeldBack : Prop :=
  ∀ mk ∈ ([.add, .sub, .mul, .mulh, .divi, .remi, .and, .or, .xor, .andn, .shl, .shr, .rot, .min, .max, .ext, .ins, .lea, .ld, .st,
      .vadd, .vsub, .vmul, .vmin, .vmax, .vand, .vor, .vxor, .vshl, .vshr, .nnorm, .qsign] : List (S3 → Instr)),
  ∀ (f : S3) (s : State),
    let i := mk f
    (s.runs = false → exec i s = .fault .engineIdle) ∧
    (s.runs = true → s.hereE.owed = [] → s.hereE.hold = none →
      (∀ c, s.issueFault i = some c → exec i s = .next (s.unpause.raise c 0 none)) ∧
      (s.issueFault i = none → s.here.inSeg = false → 256 ≤ s.hereE.seam → exec i s = .next (s.unpause.raise .segmentLegality 0 none)) ∧
      (s.issueFault i = none → (s.here.inSeg = true ∨ s.hereE.seam < 256) →
        (s.here.slips s.ct s.cur.tag s.now = true ∨ s.here.paced s.cur.tag s.now = true ∨ s.readsWait s.cur.core s.now (s.usesOf i) = true ∨
          s.here.lagsBehind s.cur.core s.cur.tag (s.usesOf i) = true) →
        ∃ t e, exec i s = .next t ∧ t = s.modHereE (fun _ => e) ∧ e.pc = s.hereE.pc ∧ e.nextAt = s.now + s.d ∧ e.kept = s.hereE.kept ∧ e.lastAt = s.hereE.lastAt))

/-- R323, R324, R354 and R420 to R422: a fault, trap or detected error writes the fault record of the core it is charged to; inside a segment the segment is discarded
at the next tick of the group; a fault or trap in a seam stops its unit, with an entry of KIND 3 or 4, and holds the group. -/
def Obligations.TakingFaults : Prop :=
  ∀ (s : State) (ch : Charge) (page : Option Nat), (s.core ch.core).frecAt ≠ some s.time →
    let k := s.core ch.core
    let t := s.charge ch page
    let r (n : Nat) : W64 := SMap.get 0 (t.core ch.core).frec n
    (r 0).toNat % 2 ^ 8 = ch.cause.code ∧ bitsN (r 0).toNat 8 3 = ch.cause.cls ∧ (r 0).extractLsb' 12 3 = BitVec.ofNat 3 ch.tag ∧
    (r 0).getLsbD 15 = k.seg.isSome ∧ (r 0).extractLsb' 16 8 = BitVec.ofNat 8 ch.core ∧ (r 0).extractLsb' 24 4 = k.reent ∧
    (r 0).extractLsb' 32 32 = BitVec.ofNat 32 (ch.pc.getD (k.engine ch.tag).pc) ∧ r 1 = ch.info ∧ r 2 = SMap.get 0 k.frec 2 ∧
    (r 3).extractLsb' 0 32 = k.segno ∧ (r 3).extractLsb' 32 32 = BitVec.ofNat 32 (s.segTick ch.core) ∧
    (∀ c, c ≠ ch.core → t.core c = s.core c) ∧
    ∀ g, s.groupOf ch.core = some g →
      (k.seg.isSome = true → g.pend = none → ∃ p, t.group g.num = some { g with pend := some p } ∧ p.tick = g.reck + 1 ∧ p.core = ch.core) ∧
      (k.seg = none → ch.cause.cls ≠ 3 → ch.cause ≠ .page → ch.cause ≠ .revokedRange → ch.cause ≠ .footprint → g.held = none →
        (g.leave ≠ some .vanish → t.group g.num = some { g with held := some { core := ch.core, tag := ch.tag, cause := ch.cause, tick := g.reck } }) ∧
        (g.leave = some .vanish → g.pend = none →
          t.group g.num = some { g with pend := some { tick := g.reck + 1, core := ch.core, after := .vanish, also := none } }) ∧
        ∃ e, t.cqWait = s.cqWait ++ [e] ∧ e.kind = (if ch.cause.cls = 2 then 3 else 4) ∧ e.handle = (s.launchRef g).1 ∧ e.sub = (s.launchRef g).2)

/-! ### The control engine -/

/-- R131: each of these computes its exact result from the extended sources, reduced to the destination as R66 states.
R131 and R130: the shifts and the rotation; source B is a control operand. -/
def Obligations.CeTwoSources : Prop :=
  (∀ p ∈ ([(.add, 1, fun a b _ => a + b), (.sub, 1, fun a b _ => a - b), (.mul, 3, fun a b _ => a * b),
      (.mulh, 3, fun a b wd => a * b / 2 ^ wd), (.and, 1, fun a b _ => bitOp (· &&& ·) a b), (.or, 1, fun a b _ => bitOp (· ||| ·) a b),
      (.xor, 1, fun a b _ => bitOp (· ^^^ ·) a b), (.andn, 1, fun a b _ => bitOp (fun x y => x &&& ~~~y) a b),
      (.min, 1, fun a b _ => min a b), (.max, 1, fun a b _ => max a b)] : List ((S3 → Instr) × Nat × (Int → Int → Nat → Int))),
  ∀ (f : S3) (s : State), Ready s (p.1 f) → s.here.ce2Ok s.cur.tag f.dst f.a f.b = true →
    Issues (p.1 f) s (s.after2 f false p.2.1
      (p.2.2 (s.here.srcInt s.cur.tag false f.fs f.dst.w f.a) (s.here.srcInt s.cur.tag true f.fs f.dst.w f.b) f.dst.bits) 0)) ∧
  (∀ p ∈ ([(.shl, fun a n _ => a * 2 ^ min n 127), (.shr, fun a n _ => a / 2 ^ min n 127),
      (.rot, fun a n wd => ((BitVec.ofInt wd a).rotateLeft n).toNat)] : List ((S3 → Instr) × (Int → Nat → Nat → Int))),
  ∀ (f : S3) (s : State), Ready s (p.1 f) → s.here.ce2Ok s.cur.tag f.dst f.a f.b = true →
    Issues (p.1 f) s (s.after2 f true 1
      (p.2 (s.here.srcInt s.cur.tag false f.fs f.dst.w f.a) (s.here.ctlVal s.cur.tag true f.b) f.dst.bits) 0))

/-- R132: DIVI and REMI. -/
def Obligations.CeDivision : Prop :=
  ∀ (f : S3) (s : State), s.here.ce2Ok s.cur.tag f.dst f.a f.b = true →
    let a := s.here.srcInt s.cur.tag false f.fs f.dst.w f.a
    let b := s.here.srcInt s.cur.tag true f.fs f.dst.w f.b
    let fl := if b = 0 then fDZ else 0
    (Ready s (.divi f) → Issues (.divi f) s (s.after2 f false 20 (if b = 0 then -1 else a.tdiv b) fl)) ∧
    (Ready s (.remi f) → Issues (.remi f) s (s.after2 f false 20 (if b = 0 then a else a - b * a.tdiv b) fl))

/-- R140: LEA adds a source scaled by 1, 4, 8 or 64. -/
def Obligations.CeLea : Prop :=
  ∀ (f : S3) (s : State), Ready s (.lea f) → s.here.ce2Ok s.cur.tag f.dst f.a f.b = true →
    ∀ sh : Nat, (f.sub.xs, sh) ∈ ([(0, 0), (1, 2), (2, 3), (3, 6)] : List (BitVec 2 × Nat)) →
      Issues (.lea f) s (s.after2 f false 1
        (s.here.srcInt s.cur.tag false f.fs f.dst.w f.a + s.here.srcInt s.cur.tag true f.fs f.dst.w f.b * 2 ^ sh) 0)

/-- R133: CLZ, POPC and MOV; every result wraps to the destination.
R134: MOVI writes its 42-bit immediate, extended under FS and wrapped; MOVI.hi puts the immediate above the destination's low 22 bits, and
traps on a destination of 22 bits or fewer. -/
def Obligations.CeMoves : Prop :=
  (∀ (f : S2r) (s : State), s.here.slotOk s.cur.tag f.dst = true → s.here.srcOk s.cur.tag false f.a = true →
    let a := s.here.srcVal s.cur.tag false f.fs f.dst.w f.a
    let wa := 4 * s.here.srcW s.cur.tag false f.dst.w f.a
    (Ready s (.clz f) → ∀ z, z ≤ wa → (a % 2 ^ wa < 2 ^ (wa - z) ∧ (z < wa → 2 ^ (wa - z - 1) ≤ a % 2 ^ wa)) →
      Issues (.clz f) s (s.after1 f z)) ∧
    (Ready s (.popc f) → Issues (.popc f) s (s.after1 f (((List.range wa).filter fun i => a.testBit i).length : Nat))) ∧
    (Ready s (.mov f) → Issues (.mov f) s (s.after1 f (extI f.fs a wa)))) ∧
  (∀ (f : MoviF) (s : State), s.here.slotOk s.cur.tag f.dst = true →
    (Ready s (.movi f) → Issues (.movi f) s
      (s.modHere fun k => k.wrSlot s.cur.tag f.dst (wrapI (if f.fs then f.imm.toInt else f.imm.toNat) f.dst.bits))) ∧
    (Ready s (.moviHi f) → 22 < f.dst.bits → Issues (.moviHi f) s
      (s.modHere fun k => k.wrSlot s.cur.tag f.dst (f.imm.toNat % 2 ^ (f.dst.bits - 22) * 2 ^ 22 + k.slotVal s.cur.tag f.dst % 2 ^ 22))) ∧
    (Ready s (.moviHi f) → f.dst.bits ≤ 22 → Faults (.moviHi f) s .illegalOperand))

/-- R135: EXT takes a field of the 64-bit pattern of source A, whose bit 63 continues upward.
R135: INS replaces a field of the destination with the low bits of source A. -/
def Obligations.CeFields : Prop :=
  (∀ (f : S3) (s : State), Ready s (.ext f) → s.here.ce2Ok s.cur.tag f.dst f.a f.b = true →
    let b := s.here.ctlVal s.cur.tag true f.b
    let x := (BitVec.ofInt 64 (s.here.srcInt s.cur.tag false f.fs f.dst.w f.a)).signExtend 128
    let e := x.extractLsb' (b % 64) (b / 64 % 64 + 1)
    Issues (.ext f) s (s.after2 f true 1 (if f.fs then e.toInt else e.toNat) 0)) ∧
  (∀ (f : S3) (s : State), Ready s (.ins f) → s.here.ce2Ok s.cur.tag f.dst f.a f.b = true →
    let b := s.here.ctlVal s.cur.tag true f.b
    let a := s.here.srcVal s.cur.tag false false f.dst.w f.a
    let old := s.here.slotVal s.cur.tag f.dst
    ∀ v, v < 2 ^ f.dst.bits →
      (∀ i, i < f.dst.bits → v.testBit i = if b % 64 ≤ i ∧ i < b % 64 + (b / 64 % 64 + 1) then a.testBit (i - b % 64) else old.testBit i) →
      Issues (.ins f) s (s.modHere fun k => ((k.holdSrc s.cur.tag false false f.dst.w f.a).holdLatch s.cur.tag true f.b b
        (k.srcW s.cur.tag true f.dst.w f.b)).wrSlot s.cur.tag f.dst v)) ∧
  (∀ f : S3, staticFault (.ins f) = none → f.fs = false ∧ f.sub.sat = false)

/-- R136: SEL takes source A where source C is not 0, else source B. -/
def Obligations.CeSelect : Prop :=
  (∀ (f : S3c) (s : State), Ready s (.sel f) → s.here.ce2Ok s.cur.tag f.dst f.a f.b = true →
    s.here.slotOk s.cur.tag (slotC f.c f.dst) = true →
    let a := s.here.srcInt s.cur.tag false f.fs f.dst.w f.a
    let b := s.here.srcInt s.cur.tag true f.fs f.dst.w f.b
    let put (v : Int) : State := s.modHere fun k => ((k.holdSrc s.cur.tag false f.fs f.dst.w f.a).holdSrc s.cur.tag true f.fs f.dst.w f.b).wrSlot
      s.cur.tag f.dst (wrapI v f.dst.bits)
    (s.here.slotVal s.cur.tag (slotC f.c f.dst) ≠ 0 → Issues (.sel f) s (put a)) ∧
    (s.here.slotVal s.cur.tag (slotC f.c f.dst) = 0 → Issues (.sel f) s (put b))) ∧
  (∀ f : S3c, (slotC f.c f.dst).w = f.dst.w ∧ (staticFault (.sel f) = none → f.c.fmt = 0 ∧ f.c.rms = false))

/-- R137 and R96: CMP compares integers under FMT 0 and floats under FMT 4 to 6, and writes, ANDs or ORs one predicate.
R138 and R139: PLOG looks its predicate up in the truth table; PMOV moves predicates to and from slices, and traps where they would not
fit. -/
def Obligations.CePredicates : Prop :=
  (∀ (f : S3cmp) (s : State), Ready s (.cmp f) → s.here.srcOk s.cur.tag false f.a = true → s.here.srcOk s.cur.tag true f.b = true →
    let t := s.cur.tag
    let put (r : Bool) : State := s.modHere fun k => ((k.holdLatch t false f.a (cmpSrc k t f false).1 ((cmpSrc k t f false).2 / 4)).holdLatch t true f.b
      (cmpSrc k t f true).1 ((cmpSrc k t f true).2 / 4)).setPred f.pd.toNat
        (if f.mode = 0 then r else if f.mode = 1 then k.predBit f.pd.toNat && r else k.predBit f.pd.toNat || r)
    (f.sub.fmt = 0 →
      let a := s.here.srcInt t false f.fs (s.here.srcW t true 0 f.b) f.a
      let b := s.here.srcInt t true f.fs (s.here.srcW t false 0 f.a) f.b
      ∀ r, (f.sub.cond, r) ∈ ([(0, decide (a = b)), (1, decide (a ≠ b)), (2, decide (a < b)), (3, decide (a ≤ b)), (4, decide (a > b)),
        (5, decide (a ≥ b))] : List (BitVec 5 × Bool)) → Issues (.cmp f) s (put r)) ∧
    (f.sub.fmt ≠ 0 → (cmpSrc s.here t f false).2 = fmtBits f.sub.fmt → (cmpSrc s.here t f true).2 = fmtBits f.sub.fmt →
      let a := dec (fmtOf f.sub.fmt) (cmpSrc s.here t f false).1
      let b := dec (fmtOf f.sub.fmt) (cmpSrc s.here t f true).1
      let un := a.isNan || b.isNan
      ∀ r, (f.sub.cond, r) ∈ ([(0, !un && eqV a b), (1, un || !eqV a b), (2, !un && ltV a b), (3, !un && (ltV a b || eqV a b)),
        (4, !un && ltV b a), (5, !un && (ltV b a || eqV a b)), (6, un), (7, !un)] : List (BitVec 5 × Bool)) → Issues (.cmp f) s (put r))) ∧
  ((∀ (f : PlogF) (s : State), Ready s (.plog f) → Issues (.plog f) s (s.modHere fun k => k.setPred f.pd.toNat
    (f.lut.getLsbD ((if k.predBit f.pa.toNat then 2 else 0) + (if k.predBit f.pb.toNat then 1 else 0))))) ∧
  ∀ (f : PmovF) (s : State), Ready s (.pmov f) → s.here.slotOk s.cur.tag f.s = true →
    let v := s.here.slotVal s.cur.tag f.s
    (f.dir = 0 → f.f.toNat + 4 * f.s.w ≤ 16 → Issues (.pmov f) s
      (s.modHere fun k => (List.range (4 * f.s.w)).foldl (fun k i => k.setPred (f.f.toNat + i) (v.testBit i)) k)) ∧
    (f.dir = 1 → f.f.toNat + 4 * f.s.w ≤ 16 → ∀ x, x < 2 ^ (4 * f.s.w) → (∀ i, i < 4 * f.s.w → x.testBit i = s.here.predBit (f.f.toNat + i)) →
      Issues (.pmov f) s (s.modHere fun k => k.wrSlot s.cur.tag f.s x)) ∧
    (f.dir = 2 → s.ct = .v → f.s.w = 16 → Issues (.pmov f) s (s.modHere fun k => k.setVpred f.k.toNat (BitVec.ofNat 64 v))) ∧
    (f.dir = 3 → s.ct = .v → f.s.w = 16 → Issues (.pmov f) s
      (s.modHere fun k => k.wrSlot s.cur.tag f.s (s.here.vpredOf f.k.toNat).toNat)) ∧
    (f.dir = 0 ∨ f.dir = 1 → 16 < f.f.toNat + 4 * f.s.w → Faults (.pmov f) s .illegalOperand) ∧
    (f.dir = 2 ∨ f.dir = 3 → s.ct ≠ .v → Faults (.pmov f) s .illegalInstruction))

/-- R141: SETW writes a window or adds to it modulo 2^15, GETW reads one; a tag of no engine is an illegal instruction, and a value that no
window holds an illegal operand.
R167 and R168: CBSET configures a buffer and empties it; CBADV has its advance made at its issue tick where there is room or are entries. -/
def Obligations.CeWindowsAndBuffers : Prop :=
  ((∀ (f : SetwF) (s : State), Ready s (.setw f) → hasTag s.ct f.t.toNat = true → f.t ≠ 5 → f.t ≠ 7 →
    let old := s.here.window f.t.toNat f.w.toNat
    let put (v : Nat) : State := s.modHere fun k => k.setWindow f.t.toNat f.w.toNat (BitVec.ofNat 15 v)
    (∀ v, f.arg = .imm v → Issues (.setw f) s (put (if f.add then (old + v.toNat) % 2 ^ 15 else v.toNat))) ∧
    (∀ o, f.arg = .slot o → s.here.slotOk s.cur.tag o = true → o.w ≤ 4 →
      let u := s.here.slotVal s.cur.tag o
      (f.add = false → u < 2 ^ 15 → Issues (.setw f) s (put u)) ∧
      (f.add = false → 2 ^ 15 ≤ u → Faults (.setw f) s .illegalOperand) ∧
      (f.add = true → Issues (.setw f) s (put (wrapI (old + sext u o.bits) 15))))) ∧
  (∀ (f : GetwF) (s : State), Ready s (.getw f) → hasTag s.ct f.t.toNat = true → f.t ≠ 5 → f.t ≠ 7 → s.here.slotOk s.cur.tag f.dst = true →
    Issues (.getw f) s (s.modHere fun k => k.wrSlot s.cur.tag f.dst (s.here.window f.t.toNat f.w.toNat % 2 ^ f.dst.bits))) ∧
  (∀ (f : SetwF) (s : State), Ready s (.setw f) → (hasTag s.ct f.t.toNat = false ∨ f.t = 5 ∨ f.t = 7) →
    Faults (.setw f) s .illegalInstruction) ∧
  (∀ (f : GetwF) (s : State), Ready s (.getw f) → (hasTag s.ct f.t.toNat = false ∨ f.t = 5 ∨ f.t = 7) →
    Faults (.getw f) s .illegalInstruction)) ∧
  ((∀ (f : CbsetF) (s : State), Ready s (.cbset f) →
    (∀ c, cbsetFault s f = some c → Faults (.cbset f) s c) ∧
    (cbsetFault s f = none → Issues (.cbset f) s (s.modHere fun k => k.setCb f.cb.toNat
      { space := f.space.toNat, base := f.base.toNat * 64, ents := f.ents.toNat + 1, size := f.size.toNat * 64, attr := f.fmt, prod := 0, cons := 0,
        resv := [] }))) ∧
  (∀ (f : CbadvF) (s : State) (n : Nat), Ready s (.cbadv f) →
    (match f.cnt with
      | .imm v => n = v.toNat
      | .slot o => s.here.slotOk s.cur.tag o = true ∧ o.w ≤ 3 ∧ n = s.here.slotVal s.cur.tag o) →
    let b := s.here.cbOf f.cb.toNat
    (b.configured = false ∨ b.ents < n → Faults (.cbadv f) s .illegalOperand) ∧
    (b.configured = true → n ≤ b.ents → n ≤ (if f.cons then b.occ else b.room s.now) →
      Issues (.cbadv f) s ((s.launch (some s.now) false []
        (.write [] [if f.cons then .cons s.cur.core f.cb.toNat n else .prod s.cur.core f.cb.toNat n])).1.modHere fun k =>
          { k with busy := k.busy ++ [{ res := .cb f.cb.toNat, tick := s.now + 1, op := none, hold := none, old := [], mask := [] }] }))))

/-- R144 and R276: LD puts a load into progress at its scheduled tick; the result is withheld until it completes.
R149 and R290: FILL reads 64 bytes a tick, from the tick at which a load would read, and at open times all of them at once. -/
def Obligations.CeLoads : Prop :=
  (∀ (f : S3) (s : State) (g : Granted), Ready s (.ld f) → s.here.ce2Ok s.cur.tag f.dst f.a f.b = true →
    s.access (s.here.effAddr s.cur.tag f.a f.b) (2 ^ f.sub.xs.toNat) useRead none = .ok g → (g.lat = none → s.here.inFixed = false) →
    let due := s.now + ceilDiv (2 * g.lat.getD 0 + 8) s.d * s.d
    let r := g.launch (s.now + g.lat.getD 0 + 4) due false
      (.load g.runs (s.here.overlay g.runs) (s.here.startOf s.cur.tag f.dst) f.dst.w f.fs f.sub.sat (2 ^ f.sub.xs.toNat) (if g.lat.isSome then due else 0))
    Issues (.ld f) s (r.1.modHere fun k => (k.holdSrc s.cur.tag false false 0 f.a).holdSrc s.cur.tag true true f.dst.w f.b)) ∧
  (∀ (f : SpillF) (s : State) (g : Granted), Ready s (.fill f) → s.here.srcOk s.cur.tag false f.a = true → s.here.srcOk s.cur.tag true f.b = true →
    spillStart s.here s.cur.tag f + (f.cnt.toNat + 1) ≤ 8192 →
    s.access (s.here.effAddr s.cur.tag f.a f.b) ((f.cnt.toNat + 1 + 1) / 2) useRead none = .ok g →
    let cnt := f.cnt.toNat + 1
    let bytes := (cnt + 1) / 2
    let b := ceilDiv bytes 64
    let hold (k : Core) : Core := (k.holdSrc s.cur.tag false false 0 f.a).holdSrc s.cur.tag true true 4 f.b
    (∀ L, g.lat = some L → Issues (.fill f) s ((g.launchAll (s.now + (ceilDiv (2 * L + 8) s.d + b) * s.d) ((List.range b).map fun j =>
      let runs := cutRuns g.runs (64 * j) (min 64 (bytes - 64 * j))
      (s.now + L + 4 + j, .fill runs (s.here.overlay runs) (spillStart s.here s.cur.tag f + 128 * j) (min 128 (cnt - 128 * j))))).1.modHere hold)) ∧
    (g.lat = none → s.here.inFixed = false →
      Issues (.fill f) s ((g.launch 0 0 false (.fill g.runs (s.here.overlay g.runs) (spillStart s.here s.cur.tag f) cnt)).1.modHere hold)))

/-- R146 to R148: ST reduces its source to the access size; in a seam its bytes are in progress at once, inside a segment those that are staged
join the egress stage.
R149: SPILL writes the slices of its range, the lowest first, 64 bytes a tick; inside a segment the staged ones join the egress stage. -/
def Obligations.CeStores : Prop :=
  (∀ (f : S3) (s : State) (g : Granted), Ready s (.st f) → s.here.ce2Ok s.cur.tag f.dst f.a f.b = true →
    s.access (s.here.effAddr s.cur.tag f.a f.b) (2 ^ f.sub.xs.toNat) { useWrite with stg := some false } none = .ok g →
    let n := 2 ^ f.sub.xs.toNat
    let v := reduceI f.sub.sat f.fs (extI f.fs (s.here.slotVal s.cur.tag f.dst) f.dst.bits) (8 * n)
    let ns := spreadNibs g.runs (2 * n) fun j => BitVec.ofNat 4 (v.1 / 16 ^ j)
    let lat := if g.lat.isSome then ceilDiv (g.lat.getD 0 + 10) s.d else 1
    let hold (k : Core) : Core := (k.holdSrc s.cur.tag false false 0 f.a).holdSrc s.cur.tag true true f.dst.w f.b
    (s.here.inSeg = false → ns ≠ [] →
      Issues (.st f) s ((({ g with s := g.s.modHere hold } : Granted).launch (s.now + g.lat.getD 0 + 10)
        (s.now + ceilDiv (g.lat.getD 0 + 10) s.d * s.d) false (.nibbles (ns.map fun p => p.2))).1.modHere fun k => k.raise (s.now + lat * s.d) v.2)) ∧
    ((∀ p ∈ ns, s.nibStaged (g.runs.zip g.attrs) p.1 p.2.1 = true) → ns ≠ [] →
      let stage := stageAll s.here.egress (ns.map fun p => p.2)
      stage.length ≤ s.here.stageRoom →
      Issues (.st f) s ((g.s.modHere fun k => { hold k with egress := stage }).modHere fun k => k.raise (s.now + s.d) v.2))) ∧
  (∀ (f : SpillF) (s : State) (g : Granted), Ready s (.spill f) → s.here.srcOk s.cur.tag false f.a = true → s.here.srcOk s.cur.tag true f.b = true →
    spillStart s.here s.cur.tag f + (f.cnt.toNat + 1) ≤ 8192 →
    s.access (s.here.effAddr s.cur.tag f.a f.b) ((f.cnt.toNat + 1 + 1) / 2) { useWrite with stg := some false } none = .ok g →
    let cnt := f.cnt.toNat + 1
    let ns := spreadNibs g.runs cnt fun j => SMap.get 0 s.here.scalar (spillStart s.here s.cur.tag f + j)
    let due := s.now + (ceilDiv (g.lat.getD 0 + 10) s.d + ceilDiv ((cnt + 1) / 2) 64) * s.d
    let hold (k : Core) : Core := (k.holdSrc s.cur.tag false false 0 f.a).holdSrc s.cur.tag true true 4 f.b
    let s1 := g.s.modHere hold
    (s.here.inSeg = false → g.lat = none → ns ≠ [] →
      Issues (.spill f) s (({ g with s := s1 } : Granted).launch (s.now + 10) due false (.nibbles (ns.map fun p => p.2))).1) ∧
    (s.here.inSeg = false → g.lat.isSome = true → ns ≠ [] →
      Issues (.spill f) s (({ g with s := s1 } : Granted).launchAll due ((List.range (ceilDiv cnt 128)).filterMap fun j =>
        let part := (List.range 128).filterMap fun i => (ns[128 * j + i]?).map fun p => p.2
        if part = [] then none else some (s.now + g.lat.getD 0 + 10 + j, .nibbles part))).1) ∧
    ((∀ p ∈ ns, s.nibStaged (g.runs.zip g.attrs) p.1 p.2.1 = true) → ns ≠ [] →
      let stage := stageAll s.here.egress (ns.map fun p => p.2)
      stage.length ≤ s.here.stageRoom → Issues (.spill f) s (g.s.modHere fun k => { hold k with egress := stage })))

/-- R150 and R151: ATOM, ATOMN outside a segment and CAS put one operation at the bank into progress; inside a segment ATOMN is staged and
the other two are faults. -/
def Obligations.CeAtomics : Prop :=
  (∀ (f : AtomF) (s : State), Ready s (.atom f) → s.here.slotOk s.cur.tag f.dst = true → s.here.srcOk s.cur.tag false f.a = true →
    atomValOk s.here s.cur.tag true f.aop.toNat f.x = true →
    let n := if f.sz then 8 else 4
    let ea := s.here.addr s.cur.tag false f.a
    (s.here.inSeg = true → Faults (.atom f) s .segmentLegality) ∧
    (∀ g, s.here.inSeg = false → ea % n = 0 → s.access ea n useAtomic none = .ok g →
      Issues (.atom f) s ((g.launch (s.now + g.lat.getD 0 + 8) (s.now + ceilDiv (2 * g.lat.getD 0 + 16) s.d * s.d) false
        (.atomic (g.runs.headD { va := 0, pa := 0, len := 0 }).pa f.aop.toNat f.sz (atomVal s.here s.cur.tag true f.aop.toNat f.fs f.sz f.x) 0
          (s.here.startOf s.cur.tag f.dst) f.dst.w f.fs none)).1.modHere fun k => atomHold k s.cur.tag f.aop.toNat f.fs f.sz f.a f.x))) ∧
  (∀ (f : AtomnF) (s : State), Ready s (.atomn f) → s.here.srcOk s.cur.tag false f.a = true → atomValOk s.here s.cur.tag true f.aop.toNat f.x = true →
    let n := if f.sz then 8 else 4
    let ea := s.here.addr s.cur.tag false f.a
    ea % n = 0 →
    (∀ g, s.here.inSeg = false → s.access ea n useAtomic none = .ok g →
      Issues (.atomn f) s ((g.launch (s.now + g.lat.getD 0 + 8) (s.now + ceilDiv (2 * g.lat.getD 0 + 16) s.d * s.d) false
        (.atomic (g.runs.headD { va := 0, pa := 0, len := 0 }).pa f.aop.toNat f.sz (atomVal s.here s.cur.tag true f.aop.toNat f.fs f.sz f.x) 0
          0 0 f.fs none)).1.modHere fun k => atomHold k s.cur.tag f.aop.toNat f.fs f.sz f.a f.x)) ∧
    (∀ g, s.here.inSeg = true → s.here.inScratch ea = false → s.access ea n { useAtomic with stg := some true } none = .ok g →
      s.here.egress.length + 1 ≤ s.here.stageRoom →
      Issues (.atomn f) s (g.s.modHere fun k => { atomHold k s.cur.tag f.aop.toNat f.fs f.sz f.a f.x with
        egress := s.here.egress ++ [.atomn (g.runs.headD { va := 0, pa := 0, len := 0 }).pa f.aop.toNat f.sz
          (atomVal s.here s.cur.tag true f.aop.toNat f.fs f.sz f.x)] }))) ∧
  (∀ (f : CasF) (s : State), Ready s (.cas f) → s.here.slotOk s.cur.tag f.dst = true → s.here.srcOk s.cur.tag false f.a = true →
    s.here.srcOk s.cur.tag true f.x = true →
    let n := if f.sz then 8 else 4
    let ea := s.here.addr s.cur.tag false f.a
    (s.here.inSeg = true → Faults (.cas f) s .segmentLegality) ∧
    (∀ g, s.here.inSeg = false → ea % n = 0 → s.access ea n useAtomic none = .ok g →
      Issues (.cas f) s ((g.launch (s.now + g.lat.getD 0 + 8) (s.now + ceilDiv (2 * g.lat.getD 0 + 16) s.d * s.d) false
        (.atomic (g.runs.headD { va := 0, pa := 0, len := 0 }).pa 13 f.sz (atomVal s.here s.cur.tag true 13 f.fs f.sz f.x)
          (s.here.slotVal s.cur.tag f.dst % 2 ^ (8 * n)) (s.here.startOf s.cur.tag f.dst) f.dst.w f.fs (if f.pe then some f.pd.toNat else none))).1.modHere
        fun k => atomHold k s.cur.tag 13 f.fs f.sz f.a f.x)))

/-- R152 and R153: FENCE orders earlier accesses and waits for none where they are done; QFENCE waits for the engines it names. -/
def Obligations.CeFences : Prop :=
  (∀ (f : FenceF) (s : State), Ready s (.fence f) →
    (f.c.toNat < 2 → Issues (.fence f) s s) ∧
    (2 ≤ f.c.toNat → f.k.getLsbD 0 = true → s.here.inFixed = true → Faults (.fence f) s .segmentLegality) ∧
    (2 ≤ f.c.toNat → (f.k.getLsbD 0 = true → s.here.inFixed = false ∧ s.hereE.readAt ≤ s.now ∧ ∀ x ∈ s.ceFlights, x.work.isLoad = false) →
      (f.k.getLsbD 1 = true → s.here.inSeg = true ∨ ∀ x ∈ s.ceFlights, x.work.isWrite = false) →
      Issues (.fence f) s (if f.k.getLsbD 1 && s.here.inSeg then
        s.modHere fun k => { k with seg := k.seg.map fun g => { g with rel := max g.rel f.c.toNat } } else s))) ∧
  (∀ (f : QfenceF) (s : State), Ready s (.qfence f) →
    ((∃ t, t < 7 ∧ f.m.getLsbD t = true ∧ hasTag s.ct t = false) → Faults (.qfence f) s .illegalOperand) ∧
    ((∀ t, t < 7 → f.m.getLsbD t = true → hasTag s.ct t = true ∧ s.engineDone t = true) →
      Issues (.qfence f) s s))

/-- R156 to R158 and R169: BARI writes its 16 bytes and BARX makes an arrival two cycles on, or at an open-time tick where the path to the object is
relayed; BWAIT goes on when the phase differs from its own. -/
def Obligations.CeBarrierObjects : Prop :=
  (∀ (f : BarF) (s : State) (g : Granted), Ready s (.bari f) → s.here.srcOk s.cur.tag false f.a = true → s.here.srcOk s.cur.tag true f.e = true →
    let e := s.here.ctlVal s.cur.tag true f.e
    let pa := (g.runs.headD { va := 0, pa := 0, len := 0 }).pa
    0 < e → e < 2 ^ 32 → s.access (s.here.addr s.cur.tag false f.a) 16 useWrite none = .ok g → g.runs.length = 1 → s.barrierPlace pa = true →
    let stamp := if s.here.inSeg then ((s.groupOf s.cur.core).elim 0 fun g => g.openings) % 65535 else 0xFFFF
    Issues (.bari f) s ((g.s.launch (if g.lat.isSome then some (s.now + 2 * s.d) else none) false g.runs
      (.write (cellsAt pa (leBytes 4 e ++ leBytes 4 e ++ leBytes 2 0 ++ leBytes 2 stamp ++ leBytes 1 s.cur.core ++ leBytes 3 0)) [])).1.modHere
        fun k => (k.holdSrc s.cur.tag false false 0 f.a).holdSrc s.cur.tag true false 4 f.e)) ∧
  (∀ (f : BarF) (s : State) (g : Granted), Ready s (.barx f) → s.here.srcOk s.cur.tag false f.a = true → s.here.srcOk s.cur.tag true f.e = true →
    let pa := (g.runs.headD { va := 0, pa := 0, len := 0 }).pa
    s.access (s.here.addr s.cur.tag false f.a) 16 { useWrite with rd := true } none = .ok g → g.runs.length = 1 → s.barrierPlace pa = true →
    (s.stampOk pa = true → Issues (.barx f) s ((g.s.launch (if g.lat.isSome then some (s.now + 2 * s.d) else none) false g.runs
      (.arrive pa (s.here.offVal s.cur.tag true f.e))).1.modHere
        fun k => (k.holdSrc s.cur.tag false false 0 f.a).holdSrc s.cur.tag true true 4 f.e)) ∧
    (s.stampOk pa = false → Faults (.barx f) s .segmentLegality)) ∧
  (∀ (f : BwaitF) (s : State) (g : Granted), Ready s (.bwait f) → s.here.slotOk s.cur.tag f.a = true →
    (∀ o, f.psrc = some o → s.here.slotOk s.cur.tag o = true) →
    let pa := (g.runs.headD { va := 0, pa := 0, len := 0 }).pa
    let p := f.psrc.elim f.p fun o => (s.here.slotVal s.cur.tag o).testBit 0
    s.access (s.here.slotVal s.cur.tag f.a % 2 ^ 56) 16 useRead none = .ok g → g.runs.length = 1 → s.barrierPlace pa = true → s.stampOk pa = true →
    (g.lat = none → s.here.inFixed = false) → s.bariPending pa = false → (rdLe s.memAhead (pa + 8) 1).testBit 0 ≠ p → Issues (.bwait f) s g.s)

/-- R155 and R81: TWAIT goes on when its tags are there, TFFR finds the lowest, TCLR clears; each clears only what it names, a cycle after its
issue.
R159: TRAPF without a masked flag does nothing further; TRAPF with one, and TRAP in a seam, raise their traps with the flags or the code once
every earlier instruction is complete; TRAP inside a segment is a fault. -/
def Obligations.CeTagsAndTraps : Prop :=
  ((∀ (f : TwaitF) (s : State), Ready s (.twait f) → maskOk s.here s.cur.tag f.m = true →
    let m := maskVal s.here s.cur.tag f.m
    let got := s.here.tags.toNat &&& m
    (m = 0 → Faults (.twait f) s .illegalOperand) ∧
    (m ≠ 0 → (if f.all then got = m else got ≠ 0) →
      Issues (.twait f) s (if f.clr then s.modHere fun k => { k with sysq := k.sysq ++ [(s.now + s.here.div 0, 0x10, BitVec.ofNat 64 got)] } else s))) ∧
  (∀ (f : TffrF) (s : State), Ready s (.tffr f) → s.here.slotOk s.cur.tag f.dst = true → s.here.slotOk s.cur.tag f.k = true → 2 ≤ f.dst.w →
    let got := s.here.tags.toNat &&& s.here.slotVal s.cur.tag f.k
    (f.wait = true → s.here.slotVal s.cur.tag f.k = 0 → Faults (.tffr f) s .illegalOperand) ∧
    (∀ i, got ≠ 0 → i < 64 → got.testBit i = true → (∀ j, j < i → got.testBit j = false) →
      Issues (.tffr f) s (s.modHere fun k =>
        let k := k.wrSlot s.cur.tag f.dst (i % 2 ^ f.dst.bits)
        if f.clr then { k with sysq := k.sysq ++ [(s.now + s.here.div 0, 0x10, BitVec.ofNat 64 (2 ^ i))] } else k)) ∧
    (f.wait = false → got = 0 → Issues (.tffr f) s (s.modHere fun k =>
      let k := k.wrSlot s.cur.tag f.dst (64 % 2 ^ f.dst.bits)
      if f.clr then { k with sysq := k.sysq ++ [(s.now + s.here.div 0, 0x10, 0)] } else k))) ∧
  (∀ (f : TclrF) (s : State), Ready s (.tclr f) → maskOk s.here s.cur.tag f.m = true →
    Issues (.tclr f) s (s.modHere fun k => { k with sysq := k.sysq ++ [(s.now + s.here.div 0, 0x10, BitVec.ofNat 64 (maskVal s.here s.cur.tag f.m))] })) ∧
  ∀ (k : Core) (ct : CoreType) (T C : Nat) (m : W64), k.sysq = [(C, 0x10, m)] →
    (C ≤ T → k.settleSys ct T = { k with sysq := [], tags := k.tags &&& ~~~m }) ∧ (T < C → k.settleSys ct T = k)) ∧
  ((∀ (f : F1) (s : State), Ready s (.trapf f) → s.flagsDone = true →
    let x := s.here.flagsAt s.now &&& s.here.fmask
    (x = 0 → Issues (.trapf f) s s) ∧
    (x ≠ 0 → s.here.inSeg = true → exec (.trapf f) s = .next (s.raise .arithTrap (x.setWidth 64) none)) ∧
    (x ≠ 0 → s.here.inSeg = false → s.allDone = true →
      exec (.trapf f) s = .next ((s.raise .arithTrap (x.setWidth 64) none).leave s.cur.core s.cur.tag 1 none))) ∧
  (∀ (f : TrapF) (s : State), Ready s (.trap f) →
    (s.here.inSeg = true → Faults (.trap f) s .segmentLegality) ∧
    (s.here.inSeg = false → s.allDone = true →
      exec (.trap f) s = .next ((s.raise .systemTrap (f.c.setWidth 64) none).leave s.cur.core s.cur.tag 1 none))))

/-- R160 to R163, R168: the words that read a value into a destination: segment state, system registers, TIME, the reckoner, random bits and the
fields of a circular buffer.
R161, R164, R165 and R81: MTSR writes a system register and PACE a pacing interval, which take effect at the commit tick, a cycle on, but for the
registers that engines interlock (0x80 and up); HINT changes nothing; registers that a segment does not write are faults inside one. -/
def Obligations.CeSystemRegisters : Prop :=
  ((∀ (f : SegstF) (s : State), Ready s (.segst f) → s.here.slotOk s.cur.tag f.dst = true →
    ∀ v, (f.sel, v) ∈ ([(0, s.here.segno.toNat), (1, s.here.reent.toNat), (2, if s.here.inSeg then 1 else 0),
        (3, ((s.groupOf s.cur.core).elim 0 fun g => g.openings) % 2 ^ 32), (4, s.here.egress.length), (5, s.here.deferred.length),
        (6, s.segTick s.cur.core), (7, s.here.seg.elim 0 fun g => g.ix)] : List (BitVec 3 × Nat)) →
      Issues (.segst f) s (s.modHere fun k => k.wrSlot s.cur.tag f.dst (v % 2 ^ f.dst.bits))) ∧
  (∀ (f : MfsrF) (s : State), Ready s (.mfsr f) → s.here.slotOk s.cur.tag f.dst = true →
    (sysOk s.ct f.num.toNat = true →
      Issues (.mfsr f) s (s.modHere fun k => k.wrSlot s.cur.tag f.dst ((s.sysRead s.cur.core f.num.toNat).toNat % 2 ^ f.dst.bits))) ∧
    (sysOk s.ct f.num.toNat = false → Faults (.mfsr f) s .illegalInstruction)) ∧
  (∀ (f : RdF) (s : State), s.here.slotOk s.cur.tag f.dst = true →
    (Ready s (.rdtime f) → Issues (.rdtime f) s (s.modHere fun k => k.wrSlot s.cur.tag f.dst (s.time % 2 ^ f.dst.bits))) ∧
    (Ready s (.rdreck f) → Issues (.rdreck f) s (s.modHere fun k => k.wrSlot s.cur.tag f.dst (s.now % 2 ^ f.dst.bits)))) ∧
  (∀ (f : RandF) (s : State), Ready s (.rand f) → s.here.slotOk s.cur.tag f.dst = true → s.here.srcOk s.cur.tag false f.c = true →
    s.here.srcOk s.cur.tag true f.q = true →
    let c := s.here.ctlVal s.cur.tag false f.c
    let q := s.here.ctlVal s.cur.tag true f.q
    let r (j : Nat) : Nat := (ember s.here.seed (emberCtr 2 (q % 256) ((c + j) % 2 ^ 48))).toNat
    Issues (.rand f) s (s.modHere fun k => ((k.holdLatch s.cur.tag false f.c c (k.srcW s.cur.tag false f.dst.w f.c)).holdLatch s.cur.tag true f.q q
      (k.srcW s.cur.tag true f.dst.w f.q)).wrSlot s.cur.tag f.dst ((r 0 + if 32 < f.dst.bits then r 1 * 2 ^ 32 else 0) % 2 ^ f.dst.bits))) ∧
  (∀ (f : CbqryF) (s : State), Ready s (.cbqry f) → s.here.slotOk s.cur.tag f.dst = true →
    let b := s.here.cbOf f.cb.toNat
    let occ := if b.configured then b.occ else 0
    ∀ v, (f.sel, v) ∈ ([(0, occ), (1, if b.configured then b.freeEnts else 0), (2, b.prod.toNat), (3, b.cons.toNat), (4, b.ents), (5, b.size),
        (6, b.attr.toNat), (7, b.space * 2 ^ 32 + b.base)] : List (BitVec 3 × Nat)) →
      Issues (.cbqry f) s (s.modHere fun k => k.wrSlot s.cur.tag f.dst (v % 2 ^ f.dst.bits)))) ∧
  ((∀ (f : MtsrF) (s : State), Ready s (.mtsr f) →
    let n := f.num.toNat
    let v := s.here.ctlVal s.cur.tag false f.src
    (sysOk s.ct n = false → Faults (.mtsr f) s .illegalInstruction) ∧
    (sysOk s.ct n = true → s.here.srcOk s.cur.tag false f.src = true →
      (s.here.inSeg = true → seamOnly n = true → Faults (.mtsr f) s .segmentLegality) ∧
      (s.here.inSeg = false ∨ seamOnly n = false → Issues (.mtsr f) s (s.modHere fun k =>
        let k := k.holdLatch s.cur.tag false f.src v (k.srcW s.cur.tag false 4 f.src)
        if n < 0x80 then { k with sysq := k.sysq ++ [(s.now + s.d, n, BitVec.ofNat 64 v)] }
        else k.sysWrite s.ct n (BitVec.ofNat 64 v) (s.now + s.d))))) ∧
  (∀ (k : Core) (ct : CoreType) (T C n : Nat) (v : W64), k.sysq = [(C, n, v)] →
    (C ≤ T → k.settleSys ct T = ({ k with sysq := [] } : Core).sysWrite ct n v C) ∧ (T < C → k.settleSys ct T = k)) ∧
  (∀ (f : PaceF) (s : State), Ready s (.pace f) →
    let lo := 8 * f.t.toNat
    let put (v : Nat) : State := s.modHere fun k =>
      { k with sysq := k.sysq ++ [(s.now + s.d, 0x14, BitVec.ofNat 64 (k.pacer.toNat - bitsN k.pacer.toNat lo 8 * 2 ^ lo + v % 256 * 2 ^ lo))] }
    (hasTag s.ct f.t.toNat = false ∨ f.t = 5 ∨ f.t = 7 → Faults (.pace f) s .illegalInstruction) ∧
    (hasTag s.ct f.t.toNat = true → f.t ≠ 5 → f.t ≠ 7 →
      (∀ v, f.arg = .imm v →
        (s.here.inSeg = true → Faults (.pace f) s .segmentLegality) ∧ (s.here.inSeg = false → Issues (.pace f) s (put v.toNat))) ∧
      (∀ o, f.arg = .slot o → s.here.slotOk s.cur.tag o = true → o.w ≤ 2 → s.here.inSeg = false →
        Issues (.pace f) s (put (s.here.slotVal s.cur.tag o))))) ∧
  (∀ (f : HintF) (s : State), Ready s (.hint f) → Issues (.hint f) s s))

/-- R77, R87 and R129: an instruction of the CE that its guard disables changes nothing and keeps its issue slot; it makes the checks of its issue alone.
What it would do if enabled is `plan`, in the state in which it asks no bank of a buffer. -/
def Obligations.CeGuardedOff : Prop :=
  (∀ p ∈ ([.add, .sub, .mul, .mulh, .divi, .remi, .and, .or, .xor, .andn, .shl, .shr, .rot, .min, .max, .ext, .ins, .lea] : List (S3 → Instr)),
    ∀ (f : S3) (s : State), Clear s (p f) → s.midLoop (encode (p f)).length = true → s.enabled (guardOf (p f)) = false →
      s.here.ce2Ok s.cur.tag f.dst f.a f.b = true → Issues (p f) s s) ∧
  (∀ p ∈ ([.clz, .popc, .mov] : List (S2r → Instr)),
    ∀ (f : S2r) (s : State), Clear s (p f) → s.midLoop (encode (p f)).length = true → s.enabled (guardOf (p f)) = false →
      s.here.slotOk s.cur.tag f.dst = true → s.here.srcOk s.cur.tag false f.a = true → Issues (p f) s s) ∧
  (∀ p ∈ ([(.ld, planLd), (.st, planSt)] : List ((S3 → Instr) × (S3 → State → Plan))),
    ∀ (f : S3) (s : State), Clear s (p.1 f) → s.midLoop (encode (p.1 f)).length = true → s.enabled (guardOf (p.1 f)) = false →
      (∀ x c n page, p.2 f (s.modHereE fun e => { e with asked := true, ask := [] }) = .bad x c n page → c.atIssue = false) → Issues (p.1 f) s s) ∧
  (∀ (i : Instr) (plan : State → Plan) (s : State), (∀ x, exec i x = issue x i plan) → isAll i = false → Clear s i → s.midLoop (encode i).length = true →
    s.enabled (guardOf i) = false →
    let s' := s.modHereE fun e => { e with asked := true, ask := [] }
    (∀ x c n page, plan s' = .bad x c n page → c.atIssue = true → exec i s = .next (s.raise c n page)) ∧
    ((∀ x c n page, plan s' = .bad x c n page → c.atIssue = false) → Issues i s s))

/-! ### Words of the ALL class -/

/-- R114 and R115: NOP changes nothing, and its engine's next issue is at least 1 + N ticks on; PBR writes its target, or faults where the stream
does not reach it.
R99, R116 and R117: a branch that is taken goes to its target at its cost, ends the loops that do not hold the target, and links after it has read its
target, which engines behind the CE read as it stood before the link; the CE posts what it found, and the other engines take it; they stop before an
unguarded branch whose target the stream does not reach. -/
def Obligations.TargetsAndBranches : Prop :=
  ((∀ (n : BitVec 9) (s : State), Clear s (.nop n) → s.midLoop (encode (.nop n)).length = true →
    IssuesTo (.nop n) s s (s.pcAfter (.nop n)) (s.now + ceilDiv (1 + n.toNat) s.d * s.d)) ∧
  (∀ (f : PbrF) (s : State), Ready s (.pbr f) →
    let g := if f.rel then ((s.hereE.pc + f.target.toInt) % 2 ^ 28).toNat else f.target.toNat
    (s.cur.tag = 0 → s.here.stream.length ≤ g → Faults (.pbr f) s .illegalOperand) ∧
    (g < s.here.stream.length →
      let s1 := s.modHereE fun e => { e with pbrAt := SMap.put e.pbrAt f.k.toNat s.now }
      Issues (.pbr f) s (if s.cur.tag = 0 then s1.modHere fun k => { k with bt := SMap.set 0 k.bt f.k.toNat (BitVec.ofNat 32 g) } else s1)))) ∧
  (∀ p ∈ ([(fun g k _ => .br { g := g, k := k }, false), (fun g k l => .brl { g := g, l := l, k := k }, true)] :
      List ((Guard → BitVec 3 → BitVec 3 → Instr) × Bool)),
  ∀ (g : Guard) (k l : BitVec 3) (s : State), Clear s (p.1 g k l) → s.midLoop 1 = true →
    let e := s.hereE
    let hand := p.2 && s.here.handed s.cur.tag k.toNat l.toNat
    let t := if hand then e.links.headD 0 else (s.here.btOf k.toNat).toNat
    let cost := (SMap.find e.pbrAt k.toNat).elim 4 fun a => 4 - (s.now - a) / s.d
    let link (x : State) : State := if p.2 then
        let x := x.modHereE fun y => { y with pbrAt := SMap.erase y.pbrAt l.toNat, links := if hand then y.links.drop 1 else y.links }
        if s.cur.tag ≠ 0 then x
        else (if k = l then x.modHere fun c => (otherTags s.ct).foldl (fun c u =>
            if (c.engine u).idx ≤ (c.engine 0).idx then c.modEngine u fun y => { y with links := y.links ++ [t] } else c) c else x).modHere fun c =>
          { c with bt := SMap.set 0 c.bt l.toNat (BitVec.ofNat 32 (e.pc + 1)) }
      else x
    let out (x : State) : State := (link x).endLoops (loopsLeft e.loops t)
    let nx := s.now + (1 + cost) * s.d
    (s.cur.tag = 0 → s.enabled g = true → s.here.stream.length ≤ t → Faults (p.1 g k l) s .illegalOperand) ∧
    (s.cur.tag ≠ 0 → g.gd = false → s.here.stream.length ≤ t → exec (p.1 g k l) s = .next (s.stall false)) ∧
    (g.gd = false → s.enabled g = true → t < s.here.stream.length → IssuesTo (p.1 g k l) s (out s) t nx) ∧
    (g.gd = true → s.cur.tag = 0 → s.enabled g = true → t < s.here.stream.length → s.here.outFull s.ct = false →
      IssuesTo (p.1 g k l) s (out (s.post true 0)) t nx) ∧
    (g.gd = true → s.cur.tag = 0 → s.enabled g = false → s.here.outFull s.ct = false → Issues (p.1 g k l) s (s.post false 0)) ∧
    (∀ o, g.gd = true → s.cur.tag ≠ 0 → e.outcome s.now = some o →
      (o.taken = true → IssuesTo (p.1 g k l) s (out s.takeOutcome) t nx) ∧ (o.taken = false → Issues (p.1 g k l) s s.takeOutcome)))

/-- R118: LOOP opens a loop on a counter, or skips the body for a count of 0.
R121: LBRK ends its loop and every loop inside it and goes on behind the loop; it faults where no such loop is active. -/
def Obligations.LoopsBeginAndBreak : Prop :=
  (∀ (f : LoopF) (s : State), Ready s (.loop f) →
    let e := s.hereE
    let last := e.pc + f.last.toNat
    let o := countSlot f
    let bad := f.last.toNat < 2 ∨ s.here.stream.length ≤ last
    let nest := 4 ≤ e.loops.length ∨ (∃ l ∈ e.loops, l.n = f.n.toNat) ∨ ∃ l ∈ e.loops, l.last ≤ last
    let begun (x : State) (v : Nat) : State :=
      let x := x.modHereE fun y => { y with loops := { n := f.n.toNat, cnt := v, first := e.pc + 2, last := last, fresh := x.here.inSeg } :: y.loops }
      if s.cur.tag = 0 then x.modHere fun k => { k with lc := SMap.set 0 k.lc f.n.toNat (BitVec.ofNat 32 v) } else x
    let runs (x : State) (v : Nat) : Prop :=
      (v = 0 → IssuesTo (.loop f) s x (last + 1) (s.now + s.d)) ∧ (v ≠ 0 → Issues (.loop f) s (begun x v))
    (s.cur.tag = 0 → f.csrc = false → bad → Faults (.loop f) s .illegalOperand) ∧
    (s.cur.tag = 0 → f.csrc = false → ¬bad → nest → Faults (.loop f) s .loopNest) ∧
    (¬bad → ¬nest → f.csrc = false → runs s f.count.toNat) ∧
    (¬bad → ¬nest → f.csrc = true → s.cur.tag = 0 → s.here.slotOk 0 o = true → o.w ≤ 8 → s.here.outFull s.ct = false →
      runs (s.post false (s.here.slotVal 0 o)) (s.here.slotVal 0 o)) ∧
    (∀ x, ¬bad → ¬nest → f.csrc = true → s.cur.tag ≠ 0 → e.outcome s.now = some x → runs s.takeOutcome x.count)) ∧
  (∀ (f : LbrkF) (s : State), Clear s (.lbrk f) → s.midLoop 1 = true →
    let ls := s.hereE.loops
    (s.cur.tag = 0 → (∀ l ∈ ls, l.n ≠ f.n.toNat) → Faults (.lbrk f) s .loopNest) ∧
    ∀ (j : Nat) (l : LoopSt), ls[j]? = some l → l.n = f.n.toNat → (∀ (i : Nat) (x : LoopSt), i < j → ls[i]? = some x → x.n ≠ f.n.toNat) →
      let nx := s.now + s.d
      (f.g.gd = false → s.enabled f.g = true → IssuesTo (.lbrk f) s (s.endLoops (j + 1)) (l.last + 1) nx) ∧
      (f.g.gd = true → s.cur.tag = 0 → s.here.outFull s.ct = false →
        (s.enabled f.g = true → IssuesTo (.lbrk f) s ((s.post true 0).endLoops (j + 1)) (l.last + 1) nx) ∧
        (s.enabled f.g = false → Issues (.lbrk f) s (s.post false 0))) ∧
      (∀ o, f.g.gd = true → s.cur.tag ≠ 0 → s.hereE.outcome s.now = some o →
        (o.taken = true → IssuesTo (.lbrk f) s (s.takeOutcome.endLoops (j + 1)) (l.last + 1) nx) ∧
        (o.taken = false → Issues (.lbrk f) s s.takeOutcome)))

/-- R119: an engine that leaves the last word of its innermost loop goes back to the first while more than one iteration is left, and otherwise
falls through with the loop ended. -/
def Obligations.LoopEnds : Prop :=
  ∀ (s : State) (c t n : Nat) (l : LoopSt) (ls : List LoopSt), ((s.core c).engine t).loops = l :: ls →
    ((s.core c).engine t).pc ≤ l.last → l.last < ((s.core c).engine t).pc + n →
    let e := ((s.leave c t n none).core c).engine t
    (l.cnt ≠ 1 → e.pc = l.first ∧ e.loops = { l with cnt := l.cnt - 1 } :: ls ∧
      (t = 0 → ((s.leave c t n none).core c).lcOf l.n = BitVec.ofNat 32 (l.cnt - 1))) ∧
    (l.cnt = 1 → e.pc = ((s.core c).engine t).pc + n ∧ e.loops = ls ∧ (t = 0 → ((s.leave c t n none).core c).lcOf l.n = 0))

/-- R112: a join word that issues moves every engine of its core behind it at once, at the same tick, with its next issue one cycle on; nothing
else of the other cores changes.
R124, R126 to R128: GBAR records the arrival of its core, or faults on another ID; CKDIV sets the divisors it names; SLIPW does nothing but
join; BRK issues when its group runs on after the stop it makes, and as a NOP where breakpoints are disabled. -/
def Obligations.Joins : Prop :=
  (∀ (s : State) (i : Instr) (cnt : Bool), s.hereE.waits = none → (∀ t ∈ tagsOf s.ct, (s.here.engine t).loops = []) →
    let r := s.joinIssue i cnt
    (∀ c, c ≠ s.cur.core → r.core c = s.core c) ∧ r.mem = s.mem ∧
    ∀ t ∈ tagsOf s.ct, (r.here.engine t).pc = (s.here.engine t).pc + (encode i).length ∧ (r.here.engine t).arrived = none ∧
      (r.here.engine t).lastAt = some s.now ∧ (r.here.engine t).nextAt = s.now + s.here.div t) ∧
  ((∀ (id : BitVec 4) (s : State) (g : Group) (J : Nat), AtJoin s (.gbar id) → s.groupOf s.cur.core = some g → s.here.joined s.ct = some J →
    let c := s.cur.core
    let park (x : State) : State := x.modCore c fun k => { k with eng := k.eng.map fun p => (p.1, { p.2 with nextAt := x.now + 2 ^ 32 }) }
    (g.bar = none → exec (.gbar id) s = .next (park ((s.joinIssue (.gbar id) true).modGroup g.num fun x =>
      { x with bar := some { id := id, first := J, last := J, cores := [c] } }))) ∧
    (∀ b, g.bar = some b → b.id ≠ id → exec (.gbar id) s = .next (s.unpause.raise .schedule 0 none)) ∧
    (∀ b, g.bar = some b → b.id = id → exec (.gbar id) s = .next (park ((s.joinIssue (.gbar id) true).modGroup g.num fun x =>
      { x with bar := some { b with last := max b.last J, cores := b.cores ++ [c] } })))) ∧
  (∀ (d : BitVec 28) (s : State), AtJoin s (.ckdiv d) →
    let n (t : Nat) : Nat := bitsN d.toNat (4 * t) 4
    ((∃ t, t < 7 ∧ (8 < n t ∨ n t ≠ 0 ∧ hasTag s.ct t = false)) → exec (.ckdiv d) s = .next (s.unpause.raise .illegalOperand 0 none)) ∧
    ((∀ t, t < 7 → n t ≤ 8 ∧ (n t ≠ 0 → hasTag s.ct t = true)) →
      exec (.ckdiv d) s = .next ((s.modHere fun k => { k with ckd := ckdAfter k.ckd d }).joinIssue (.ckdiv d) true))) ∧
  (∀ s : State, AtJoin s .slipw → exec .slipw s = .next (s.joinIssue .slipw true)) ∧
  (∀ (b : BitVec 8) (s : State),
    (s.brkEnabled = false → Clear s (.brk b) → s.midLoop 1 = true → Issues (.brk b) s s) ∧
    (s.brkEnabled = true → AtJoin s (.brk b) →
      (s.hereE.primed = true → exec (.brk b) s = .next (s.joinIssue (.brk b) true)) ∧
      (s.hereE.primed = false → exec (.brk b) s = .next
        (((s.modHereE fun e => { e with primed := true }).debugStop (s.here.grp.getD 0) true b.toNat).unpause.joinWait false)))))

/-- R120, R122, R123, R125, R301, R321 and R322: SEG.OPEN enters the segment that its descriptor describes and counts the group's opening, or gives way to a
pre-emption before it issues; SEG.CLOSE closes the part of its core, and the last of the group commits the segment; a segment that leaves a loop of its own
active or a bead of its own in a queue, or whose observed tick count or signature is not its descriptor's, does not close; HALT ends the stream; a segment in a
segment, a close without one and HALT inside one are faults. -/
def Obligations.SegmentMarkers : Prop :=
  (∀ (d : BitVec 28) (s : State) (g : Group), AtJoin s (.segOpen d) → s.groupOf s.cur.core = some g →
    let c := s.cur.core
    (s.here.inSeg = true → exec (.segOpen d) s = .next (s.unpause.raise .segmentLegality 0 none)) ∧
    (∀ desc, s.here.inSeg = false → g.pend = none → s.asyncFixed c = false → s.asyncOpen c = false → g.leave = none →
      openFaultOf s g d.toNat = none → (s.descsOf g)[d.toNat]? = some desc →
      (desc.foot ≤ s.freef - s.committed ∨ desc.foot = 0 ∨ s.here.openings ≠ g.openings) →
      let s1 := if s.here.openings = g.openings then s.openGroup g desc.foot else s
      let n := (s1.group g.num).elim 0 fun x => x.openings
      exec (.segOpen d) s = .next (((s1.joinIssue (.segOpen d) false).modHere fun k =>
        { k.openSeg s.ct d.toNat desc s1.now (s.here.snapshotAt s.ct) (desc.carries g c) false with openings := n }).trace
          1 g.num c 0xFF desc.segno d.toNat)) ∧
    (∀ l, s.here.inSeg = false → g.pend = none → s.asyncFixed c = false → s.asyncOpen c = false → g.leave = some l →
      (∀ x ∈ g.cores, (s.core x).active = true → (s.core x).atOpen x = true) →
      exec (.segOpen d) s = .next ((s.modGroup g.num fun x => { x with pend := some { tick := g.reck + 1, core := c, also := none, after := (match l with
        | .checkpoint n => .checkpoint n none
        | .vanish => .vanish) } }).unpause.joinWait false))) ∧
  (∀ (s : State) (g : Group), AtJoin s .segClose → s.groupOf s.cur.core = some g →
    (s.here.seg = none → exec .segClose s = .next (s.unpause.raise .segmentLegality 0 none)) ∧
    (∀ sg, s.here.seg = some sg →
      let own := (∀ t ∈ tagsOf s.ct, ∀ l ∈ (s.here.engine t).loops, l.fresh = false) ∧ s.here.ownBeads s.ct = false
      (¬own → exec .segClose s = .next (s.unpause.raise .segmentLegality 0 none)) ∧
      (own → g.pend = none → s.segDone g = true →
        (∀ info, s.closeCheck g sg = some info → exec .segClose s = .next
          ((s.charge { core := g.cores.headD s.cur.core, tag := 0, cause := .checkMismatch, info := info } none).unpause.joinWait false)) ∧
        (s.closeCheck g sg = none → s.othersClosed g = false → exec .segClose s = .next (s.closeCore g sg.ix s.here.segno.toNat)) ∧
        (s.closeCheck g sg = none → s.othersClosed g = true → s.stageBad g = none → s.commitBlocked g = [] →
          exec .segClose s = .next ((s.closeCore g sg.ix s.here.segno.toNat).commitGroup g))))) ∧
  (∀ (s : State) (g : Group), AtJoin s .halt → s.groupOf s.cur.core = some g →
    (s.here.inSeg = true → exec .halt s = .next (s.unpause.raise .segmentLegality 0 none)) ∧
    (s.here.inSeg = false → s.asyncFixed s.cur.core = false → s.asyncOpen s.cur.core = false → g.leave ≠ some .vanish →
      exec .halt s = .next ((s.joinIssue .halt true).modHere fun k => { k with halted := true })))

/-! ### The vector engine -/

/-- R174: integer elements, bit patterns and shifts, lane by lane; only enabled lanes are written. -/
def Obligations.VectorIntegers : Prop :=
  (∀ p ∈ ([(.vadd, 1, fun _ _ a b => a + b), (.vsub, 1, fun _ _ a b => a - b), (.vmin, 1, fun _ _ a b => min a b), (.vmax, 1, fun _ _ a b => max a b),
      (.vmul, 3, fun xs es a b => if xs = 0 then a * b else a * b / 2 ^ es)] :
      List ((S3 → Instr) × Nat × (BitVec 2 → Nat → Int → Int → Int))),
    ∀ (f : S3) (s : State), Ready s (p.1 f) → f.sub.fmt = 0 → veOk2 s.here s.cur.tag f = true → s.here.lslotOk s.cur.tag f.dst = true →
      let es := esBits f.es
      Issues (p.1 f) s (s.afterLanes (s.lanesFor f.h.g) f.dst p.2.1 (fun k => k.vhold2 s.cur.tag f (s.lanesFor f.h.g)) fun l =>
        joinRes es ((List.range (4 * f.dst.w / es)).map fun e => reduceI f.sub.sat f.fs
          (p.2.2 f.sub.xs es (extI f.fs (elemOf es (s.here.va s.cur.tag l f) e) es) (extI f.fs (elemOf es (s.here.vb s.cur.tag l f) e) es)) es))) ∧
  (∀ p ∈ ([(.vand, fun a b => a &&& b), (.vor, fun a b => a ||| b), (.vxor, fun a b => a ^^^ b)] : List ((S3 → Instr) × (Nat → Nat → Nat))),
    ∀ (f : S3) (s : State), Ready s (p.1 f) → veOk2 s.here s.cur.tag f = true → s.here.lslotOk s.cur.tag f.dst = true →
      Issues (p.1 f) s (s.afterLanes (s.lanesFor f.h.g) f.dst 1 (fun k => k.vhold2 s.cur.tag f (s.lanesFor f.h.g)) fun l =>
        (p.2 (s.here.va s.cur.tag l f) (s.here.vb s.cur.tag l f), 0))) ∧
  (∀ p ∈ ([(.vshl, fun a n => a * 2 ^ n), (.vshr, fun a n => a / 2 ^ n)] : List ((S3 → Instr) × (Int → Nat → Int))),
    ∀ (f : S3) (s : State), Ready s (p.1 f) → veOk2 s.here s.cur.tag f = true → s.here.lslotOk s.cur.tag f.dst = true →
      let es := esBits f.es
      let t := s.cur.tag
      let n (l e : Nat) : Nat := min 127 (match f.b with
        | .imm v _ => v.toNat
        | x => elemOf es (s.here.lsrcVal t l true 0 f.fs es f.dst.w x) e)
      let on := s.lanesFor f.h.g
      Issues (p.1 f) s (s.afterLanes on f.dst 1
        (fun k => (k.hold1 t false f.dst.w f.a on fun l => s.here.va t l f).hold1 t true f.dst.w f.b on fun l => s.here.lctl t l true f.b)
        fun l => joinRes es ((List.range (4 * f.dst.w / es)).map fun e =>
          reduceI f.sub.sat f.fs (p.2 (extI f.fs (elemOf es (s.here.va t l f) e) es) (n l e)) es))) ∧
  (∀ p ∈ ([(.vabs, fun a => if a < 0 then -a else a), (.vneg, fun a => -a)] : List ((S3a → Instr) × (Int → Int))),
    ∀ (f : S3a) (s : State), Ready s (p.1 f) → f.sub.fmt = 0 → s.here.lsrcOk s.cur.tag false f.a = true → s.here.lW s.cur.tag false f.dst.w f.a = true →
      wholeEls (esBits f.es) f.dst.w = true → s.here.lslotOk s.cur.tag f.dst = true →
      let es := esBits f.es
      let a (l : Nat) : Nat := s.here.lsrcVal s.cur.tag l false 0 f.fs es f.dst.w f.a
      Issues (p.1 f) s (s.afterLanes (s.lanesFor f.h.g) f.dst 1 (fun k => k.hold1 s.cur.tag false f.dst.w f.a (s.lanesFor f.h.g) a) fun l =>
        joinRes es ((List.range (4 * f.dst.w / es)).map fun e => reduceI f.sub.sat f.fs (p.2 (extI f.fs (elemOf es (a l) e) es)) es)))

/-- R175 to R177: float elements of VADD, VSUB and VMUL rounded once; minimum and maximum, and the sign bit, without a flag; the fused forms. -/
def Obligations.VectorFloats : Prop :=
  (∀ p ∈ ([(.vadd, addV), (.vsub, fun dn a b => addV dn a b.negate), (.vmul, fun _ a b => mulV a b)] :
      List ((S3 → Instr) × (Bool → FVal → FVal → FVal × Bool))),
    ∀ (f : S3) (s : State), Ready s (p.1 f) → f.sub.fmt ≠ 0 → veOk2 s.here s.cur.tag f = true → s.here.lslotOk s.cur.tag f.dst = true →
      let es := esBits f.es
      let F := fmtOf f.sub.fmt
      Issues (p.1 f) s (s.afterLanes (s.lanesFor f.h.g) f.dst 3 (fun k => k.vhold2 s.cur.tag f (s.lanesFor f.h.g)) fun l =>
        joinRes es ((List.range (4 * f.dst.w / es)).map fun e =>
          let md := s.veMode f.sub.xs.toNat f.sub.rm.toNat (s.here.startOf s.cur.tag f.dst) l e
          let r := p.2 md.isDown (dec F (elemOf es (s.here.va s.cur.tag l f) e)) (dec F (elemOf es (s.here.vb s.cur.tag l f) e))
          let c := rnd F md f.sub.sat r.1
          (c.1, c.2 ||| if r.2 then fNV else 0)))) ∧
  (∀ p ∈ ([(.vmin, false), (.vmax, true)] : List ((S3 → Instr) × Bool)),
    ∀ (f : S3) (s : State), Ready s (p.1 f) → f.sub.fmt ≠ 0 → veOk2 s.here s.cur.tag f = true → s.here.lslotOk s.cur.tag f.dst = true →
      let es := esBits f.es
      let F := fmtOf f.sub.fmt
      Issues (p.1 f) s (s.afterLanes (s.lanesFor f.h.g) f.dst 3 (fun k => k.vhold2 s.cur.tag f (s.lanesFor f.h.g)) fun l =>
        joinRes es ((List.range (4 * f.dst.w / es)).map fun e =>
          let a := dec F (elemOf es (s.here.va s.cur.tag l f) e)
          let b := dec F (elemOf es (s.here.vb s.cur.tag l f) e)
          ((rne F (if f.sub.xs = 0 then minmaxV p.2 a b else minmaxNumV p.2 a b)).1, 0)))) ∧
  (∀ p ∈ ([(.vabs, fun es x => x % 2 ^ (es - 1)), (.vneg, fun es x => x ^^^ 2 ^ (es - 1))] : List ((S3a → Instr) × (Nat → Nat → Nat))),
    ∀ (f : S3a) (s : State), Ready s (p.1 f) → f.sub.fmt ≠ 0 → s.here.lsrcOk s.cur.tag false f.a = true → s.here.lW s.cur.tag false f.dst.w f.a = true →
      wholeEls (esBits f.es) f.dst.w = true → s.here.lslotOk s.cur.tag f.dst = true →
      let es := esBits f.es
      let a (l : Nat) : Nat := s.here.lsrcVal s.cur.tag l false f.sub.fmt f.fs es f.dst.w f.a
      Issues (p.1 f) s (s.afterLanes (s.lanesFor f.h.g) f.dst 1 (fun k => k.hold1 s.cur.tag false f.dst.w f.a (s.lanesFor f.h.g) a) fun l =>
        joinRes es ((List.range (4 * f.dst.w / es)).map fun e => (p.2 es (elemOf es (a l) e), 0)))) ∧
  (∀ p ∈ ([(.vfma, false), (.vfms, true)] : List ((S3c → Instr) × Bool)),
    ∀ (f : S3c) (s : State), Ready s (p.1 f) → veOk3 s.here s.cur.tag f = true → s.here.lslotOk s.cur.tag f.dst = true →
      let es := esBits f.es
      let F := fmtOf f.c.fmt
      let t := s.cur.tag
      let on := s.lanesFor f.h.g
      Issues (p.1 f) s (s.afterLanes on f.dst 4 (fun k => k.chold2 t f f.dst.w on) fun l =>
        joinRes es ((List.range (4 * f.dst.w / es)).map fun e =>
          let x := elemOf es (s.here.ca t l f f.dst.w) e
          let y := elemOf es (s.here.cb' t l f f.dst.w) e
          let z := elemOf es (s.here.lslotVal t l (slotC f.c f.dst)) e
          if f.c.fmt = 0 then
            let m := extI f.fs x es * extI f.fs y es
            reduceI f.c.rms f.fs (if p.2 then extI f.fs z es - m else extI f.fs z es + m) es
          else
            let md := s.veMode 0 (if f.c.rms then 6 else 0) (s.here.startOf t f.dst) l e
            let m := mulV (dec F x) (dec F y)
            let r := addV md.isDown (if p.2 then m.1.negate else m.1) (dec F z)
            let c := rnd F md false r.1
            (c.1, c.2 ||| if m.2 || r.2 then fNV else 0))))

/-- R179 to R182: VCMP writes the predicate of enabled lanes, VSEL selects, VMOV copies, VIOTA counts. -/
def Obligations.VectorCompareAndMove : Prop :=
  (∀ (f : S3cmp) (s : State), Ready s (.vcmp f) →
    let t := s.cur.tag
    let es := esBits f.es
    let w := es / 4
    s.here.lsrcOk t false f.a = true → s.here.lsrcOk t true f.b = true → s.here.lW t false w f.a = true → s.here.lW t true w f.b = true →
    let a (l : Nat) : Nat := s.here.lsrcVal t l false f.sub.fmt f.fs es w f.a
    let b (l : Nat) : Nat := s.here.lsrcVal t l true f.sub.fmt f.fs es w f.b
    let on := s.lanesFor f.h.g
    let old := s.here.vpredOf f.pd.toNat
    ∀ v : W64, (∀ l, l < 64 → v.getLsbD l =
        if l ∈ on then
          let r := condOf f.sub.fmt f.fs f.sub.cond.toNat es (a l) (b l)
          if f.mode = 0 then r else if f.mode = 1 then old.getLsbD l && r else old.getLsbD l || r
        else old.getLsbD l) →
      Issues (.vcmp f) s (s.modHere fun k => ((k.hold1 t false w f.a on a).hold1 t true w f.b on b).setVpred f.pd.toNat v)) ∧
  (∀ (f : S3c) (s : State), Ready s (.vsel f) → veOk3 s.here s.cur.tag f = true → s.here.lslotOk s.cur.tag f.dst = true →
    let es := esBits f.es
    let t := s.cur.tag
    let on := s.lanesFor f.h.g
    Issues (.vsel f) s (s.afterLanes on f.dst 1 (fun k => k.chold2 t f f.dst.w on) fun l =>
      joinRes es ((List.range (4 * f.dst.w / es)).map fun e =>
        (if elemOf es (s.here.lslotVal t l (slotC f.c f.dst)) e ≠ 0 then elemOf es (s.here.ca t l f f.dst.w) e
         else elemOf es (s.here.cb' t l f f.dst.w) e, 0)))) ∧
  (∀ (f : S2r) (s : State), Ready s (.vmov f) → s.here.lsrcOk s.cur.tag false f.a = true → s.here.lW s.cur.tag false f.dst.w f.a = true →
    wholeEls (esBits f.es) f.dst.w = true → s.here.lslotOk s.cur.tag f.dst = true →
    let a (l : Nat) : Nat := s.here.lsrcVal s.cur.tag l false 0 f.fs (esBits f.es) f.dst.w f.a
    Issues (.vmov f) s (s.afterLanes (s.lanesFor f.h.g) f.dst 1 (fun k => k.hold1 s.cur.tag false f.dst.w f.a (s.lanesFor f.h.g) a) fun l => (a l, 0))) ∧
  (∀ (f : S2r) (s : State), Ready s (.viota f) → s.here.lsrcOk s.cur.tag false f.a = true → wholeEls (esBits f.es) f.dst.w = true →
    s.here.lslotOk s.cur.tag f.dst = true →
    let es := esBits f.es
    let n := 4 * f.dst.w / es
    let t := s.cur.tag
    let x (l : Nat) : Int := match f.a with
      | .imm v _ => if f.fs then v.toInt else v.toNat
      | a => extI f.fs (s.here.lsrcVal t l false 0 false 4 0 a) (4 * s.here.srcW t false 0 a)
    Issues (.viota f) s (s.afterLanes (s.lanesFor f.h.g) f.dst 1
      (fun k => k.hold1 t false f.dst.w f.a (s.lanesFor f.h.g) fun l => if f.a.isImm then wrapI (x l) (4 * f.dst.w) else s.here.lctl t l false f.a) fun l =>
        (joinElems es ((List.range n).map fun e => wrapI (x l + l * n + e) es), 0)))

/-- R184 and R185: VCVT converts between integers and floats of any two sizes with one element count; VPACK narrows two sources, VUNPK widens half
of one. -/
def Obligations.VectorConversions : Prop :=
  (∀ (f : VcvtF) (s : State), Ready s (.vcvt f) → s.here.lsrcOk s.cur.tag false f.a = true → s.here.lslotOk s.cur.tag f.dst = true →
    wholeEls (esBits f.es) f.dst.w = true →
    let t := s.cur.tag
    let ss := esBits f.se
    let sd := esBits f.es
    let n := 4 * f.dst.w / sd
    let wa := s.here.srcW t false (min 16 (n * ss / 4)) f.a
    f.a.isImm = true ∨ wholeEls ss wa = true ∧ 4 * wa / ss = n →
    let a (l : Nat) : Nat := s.here.lsrcVal t l false f.sf f.ss ss wa f.a
    let x (l e : Nat) : Nat := match f.a with
      | .imm v _ => immCode f.sf f.ss ss v % 2 ^ ss
      | _ => elemOf ss (a l) e
    let on := s.lanesFor f.h.g
    Issues (.vcvt f) s (s.afterLanes on f.dst 3 (fun k => k.holdLanes t false f.a on wa a) fun l =>
      joinRes sd ((List.range n).map fun e =>
        let md := s.veMode f.sub.xs.toNat f.sub.rm.toNat (s.here.startOf t f.dst) l e
        if f.sf = 0 ∧ f.sub.fmt = 0 then reduceI f.sub.sat f.fs (extI f.ss (x l e) ss) sd
        else if f.sf = 0 then rnd (fmtOf f.sub.fmt) md f.sub.sat (FVal.ofRat (extI f.ss (x l e) ss : Rat) false)
        else if f.sub.fmt = 0 then rndInt md f.fs sd (dec (fmtOf f.sf) (x l e))
        else rnd (fmtOf f.sub.fmt) md f.sub.sat (dec (fmtOf f.sf) (x l e))))) ∧
  (∀ (f : S3) (s : State), Ready s (.vpack f) → veOk2 s.here s.cur.tag f = true → 8 ≤ esBits f.es → s.here.lslotOk s.cur.tag f.dst = true →
    let es := esBits f.es
    let n := 4 * f.dst.w / es
    let on := s.lanesFor f.h.g
    Issues (.vpack f) s (s.afterLanes on f.dst 2 (fun k => k.vhold2 s.cur.tag f on) fun l =>
      joinRes (es / 2) ((((List.range n).map fun e => elemOf es (s.here.va s.cur.tag l f) e) ++
        (List.range n).map fun e => elemOf es (s.here.vb s.cur.tag l f) e).map fun x => reduceI f.sub.sat f.fs (extI f.fs x es) (es / 2)))) ∧
  (∀ (f : S3a) (s : State), Ready s (.vunpk f) → s.here.lsrcOk s.cur.tag false f.a = true → s.here.lW s.cur.tag false f.dst.w f.a = true →
    wholeEls (esBits f.es) f.dst.w = true → (4 * f.dst.w / esBits f.es) % 2 = 0 → s.here.lslotOk s.cur.tag f.dst = true →
    let es := esBits f.es
    let h := 4 * f.dst.w / es / 2
    let a (l : Nat) : Nat := s.here.lsrcVal s.cur.tag l false 0 f.fs es f.dst.w f.a
    let on := s.lanesFor f.h.g
    Issues (.vunpk f) s (s.afterLanes on f.dst 2 (fun k => k.hold1 s.cur.tag false f.dst.w f.a on a) fun l =>
      (joinElems (2 * es) ((List.range h).map fun e => wrapI (extI f.fs (elemOf es (a l) (e + f.sub.xs.toNat * h)) es) (2 * es)), 0)))

/-- R183 and R186 to R188: VBCAST, VPERM and VROT move values between lanes, whether the source lane is enabled or not; VSHUF moves elements within
a lane. -/
def Obligations.VectorLaneMoves : Prop :=
  (∀ (f : S3) (s : State), veOkCtl s.here s.cur.tag f = true → s.here.lslotOk s.cur.tag f.dst = true →
    let t := s.cur.tag
    let es := esBits f.es
    let n := 4 * f.dst.w / es
    let on := s.lanesFor f.h.g
    let a (l : Nat) : Nat := s.here.va t l f
    let b (l : Nat) : Nat := s.here.lctl t l true f.b
    let hold (k : Core) : Core := (k.hold1 t false f.dst.w f.a on a).hold1 t true f.dst.w f.b on b
    (Ready s (.vbcast f) → f.sub.xs = 0 → Issues (.vbcast f) s (s.afterLanes on f.dst 4 hold fun l => (a (b l % 64), 0))) ∧
    (Ready s (.vbcast f) → f.sub.xs ≠ 0 →
      Issues (.vbcast f) s (s.afterLanes on f.dst 1 hold fun l => (joinElems es (List.replicate n (elemOf es (a l) (b l % n))), 0))) ∧
    (Ready s (.vperm f) →
      Issues (.vperm f) s (s.afterLanes on f.dst 4 hold fun l => (if f.sub.xs = 1 ∧ 64 ≤ b l then 0 else a (b l % 64), 0))) ∧
    (Ready s (.vrot f) → ∀ v : Nat → Nat,
      (∀ l, v l = if f.sub.xs = 0 then a ((l + 64 - b l % 64) % 64) else if f.sub.xs = 1 then (if b l % 64 ≤ l then a (l - b l % 64) else 0)
        else if l + b l % 64 < 64 then a (l + b l % 64) else 0) →
      Issues (.vrot f) s (s.afterLanes on f.dst 4 hold fun l => (v l, 0)))) ∧
  (∀ (f : S3) (s : State), Ready s (.vshuf f) → veOk2 s.here s.cur.tag f = true → s.here.lslotOk s.cur.tag f.dst = true →
    let es := esBits f.es
    let n := 4 * f.dst.w / es
    let on := s.lanesFor f.h.g
    Issues (.vshuf f) s (s.afterLanes on f.dst 2 (fun k => k.vhold2 s.cur.tag f on) fun l =>
      (joinElems es ((List.range n).map fun e =>
        let j := elemOf es (s.here.vb s.cur.tag l f) e
        if f.sub.xs = 1 ∧ n ≤ j then 0 else elemOf es (s.here.va s.cur.tag l f) (j % n)), 0)))

/-- R189 to R192: VRED reduces along the tree and VSCAN in ascending order, disabled lanes entering as the identity; VDOT adds its products to
source C. -/
def Obligations.VectorReductions : Prop :=
  (∀ (f : S3) (s : State) (v : BitVec 14) (h : Bool), f.b = .imm v h → s.here.lsrcOk s.cur.tag false f.a = true → s.here.lslotOk s.cur.tag f.dst = true →
    let t := s.cur.tag
    let es := esBits f.es
    let op := v.toNat % 8
    let on := s.lanesFor f.h.g
    let a (w l : Nat) : Nat := s.here.lsrcVal t l false f.sub.fmt f.fs es w f.a
    let hold (w : Nat) (k : Core) : Core := (k.hold1 t false w f.a on (a w)).hold1 t true f.dst.w f.b on fun _ => v.toNat
    let col (w e : Nat) : List (Option Nat) := (List.range 64).map fun l => if l ∈ on then some (elemOf es (a w l) e) else none
    let els (w l : Nat) : List (Option Nat) := (List.range (4 * w / es)).map fun e => some (elemOf es (a w l) e)
    (Ready s (.vred f) → v.getLsbD 3 = false → s.here.lW t false f.dst.w f.a = true → wholeEls es f.dst.w = true →
      let r := joinRes es ((List.range (4 * f.dst.w / es)).map fun e => reduceEls f.sub.fmt f.fs f.sub.sat es op (col f.dst.w e))
      Issues (.vred f) s (s.afterLanes (if v.getLsbD 4 then on.filter fun l => decide (l = 0) else on) f.dst 12 (hold f.dst.w) fun _ => r)) ∧
    (Ready s (.vred f) → v.getLsbD 3 = true → f.dst.w = es / 4 →
      let w := s.here.srcW t false (es / 4) f.a
      wholeEls es w = true →
      Issues (.vred f) s (s.afterLanes on f.dst 6 (hold w) fun l => reduceEls f.sub.fmt f.fs f.sub.sat es op (els w l))) ∧
    (Ready s (.vscan f) → v.getLsbD 3 = true → s.here.lW t false f.dst.w f.a = true → wholeEls es f.dst.w = true →
      Issues (.vscan f) s (s.afterLanes on f.dst 16 (hold f.dst.w) fun l =>
        joinRes es (scanEls f.sub.fmt f.fs f.sub.sat (v.getLsbD 5) es op (els f.dst.w l)))) ∧
    (Ready s (.vscan f) → v.getLsbD 3 = false → s.here.lW t false f.dst.w f.a = true → wholeEls es f.dst.w = true →
      Issues (.vscan f) s ((s.afterLanes on f.dst 68 (hold f.dst.w) fun l => joinRes es ((List.range (4 * f.dst.w / es)).map fun e =>
        (scanEls f.sub.fmt f.fs f.sub.sat (v.getLsbD 5) es op (col f.dst.w e)).getD l (0, 0))).modHere fun k =>
          { k with busy := k.busy ++ [{ res := .unit 1, tick := s.now + 64 * s.d, op := none, hold := none, old := [], mask := [] }] }))) ∧
  (∀ (f : S3c) (s : State), Ready s (.vdot f) →
    let t := s.cur.tag
    let es := esBits f.es
    let w := if f.a.isImm then s.here.srcW t true 8 f.b else s.here.srcW t false 8 f.a
    s.here.lsrcOk t false f.a = true → s.here.lsrcOk t true f.b = true → s.here.lslotOk t (slotC f.c f.dst) = true → f.dst.w = 8 →
    s.here.lW t false w f.a = true → s.here.lW t true w f.b = true → wholeEls es w = true → s.here.lslotOk t f.dst = true →
    let on := s.lanesFor f.h.g
    let x (l e : Nat) : Nat := elemOf es (s.here.ca t l f w) e
    let y (l e : Nat) : Nat := elemOf es (s.here.cb' t l f w) e
    let c (l : Nat) : Nat := s.here.lslotVal t l (slotC f.c f.dst)
    let F := fmtOf f.c.fmt
    let es' := List.range (4 * w / es)
    Issues (.vdot f) s (s.afterLanes on f.dst 5 (fun k => k.chold2 t f w on) fun l =>
      if f.c.fmt = 0 then reduceI f.c.rms f.fs (extI f.fs (c l) 32 + (es'.map fun e => extI f.fs (x l e) es * extI f.fs (y l e) es).sum) 32
      else
        let ps := es'.map fun e => mulV (dec F (x l e)) (dec F (y l e))
        let r := sumV (dec .fp32 (c l) :: ps.map fun p => p.1)
        let z := rnd .fp32 .rne false r.1
        (z.1, z.2 ||| if r.2 || ps.any (fun p => p.2) then fNV else 0)))

/-- R193 to R197: VLD, VST, VLDX and VSTX reach the V-buffer at a base with a stride or an index for each lane, or fault outside it; a stall for the banks
comes before the issue.
R65 and R195: VLDC reads the entry at CONS of a circular buffer and VSTC writes the one at PROD, with the advance that XS asks for; what the buffer or the
width does not allow is a fault. -/
def Obligations.VectorAccesses : Prop :=
  (∀ p ∈ ([(.vld, false, true), (.vst, true, true), (.vldx, false, false), (.vstx, true, false)] : List ((S3 → Instr) × Bool × Bool)),
  ∀ (f : S3) (s : State), Ready s (p.1 f) → s.here.lsrcOk s.cur.tag false f.a = true → s.here.lsrcOk s.cur.tag true f.b = true →
    s.here.lslotOk s.cur.tag f.dst = true →
    let t := s.cur.tag
    let k := s.here
    let on := s.lanesFor f.h.g
    let A (l : Nat) : Int := if p.2.2 then k.lctl t l false f.a + l * k.lctlS t l true f.b else k.lctl t l false f.a + k.lctl t l true f.b * 2 ^ f.sub.xs.toNat
    let n : Int := sliceBytes f.dst.w
    let addrs := on.map fun l => (l, (A l).toNat)
    let spans := addrs.map fun x => (x.2, sliceBytes f.dst.w)
    let hold (c : Core) : Core := holdCtl2 f p.2.2 c t on
    ((∃ l ∈ on, A l < 0 ∨ 2 ^ 22 < A l + n) → Faults (p.1 f) s .bufferRange) ∧
    ((∀ l ∈ on, 0 ≤ A l ∧ A l + n ≤ 2 ^ 22) →
      (p.2.1 = true → s.vprot addrs f.dst.w = true → Faults (p.1 f) s .segmentLegality) ∧
      (p.2.1 = false ∨ s.vprot addrs f.dst.w = false →
        (s.banked 16 spans = none → StallsForBanks (p.1 f) s 16 spans) ∧
        (∀ x, s.banked 16 spans = some x → p.2.1 = false → Issues (p.1 f) s ((vloadGo x addrs (k.startOf t f.dst) f.dst.w).1.modHere hold)) ∧
        (∀ x, s.banked 16 spans = some x → p.2.1 = true →
          Issues (p.1 f) s ((vstoreGo x addrs f.dst.w fun l => k.lslotVal t l f.dst).modHere hold))))) ∧
  (∀ p ∈ ([(.vldc, false), (.vstc, true)] : List ((VcbF → Instr) × Bool)),
  ∀ (f : VcbF) (s : State), Ready s (p.1 f) → s.here.lsrcOk s.cur.tag true f.b = true → s.here.lslotOk s.cur.tag f.dst = true →
    (wholeEls (esBits f.es) f.dst.w = false → Faults (p.1 f) s .illegalOperand) ∧
    (wholeEls (esBits f.es) f.dst.w = true →
    let t := s.cur.tag
    let k := s.here
    let i := f.cb.toNat
    let b := k.cbOf i
    let attr := dataAttr f.sub.fmt f.es
    let on := s.lanesFor f.h.g
    let E (l : Nat) : Nat := f.off.toNat * 64 + l * k.lctl t l true f.b
    let addrs := on.map fun l => (l, b.base + (if p.2 then b.prod else b.cons).toNat % b.ents * b.size + E l)
    let spans := addrs.map fun x => (x.2, sliceBytes f.dst.w)
    let hold (c : Core) : Core := c.hold1 t true f.dst.w f.b on fun l => c.lctl t l true f.b
    (b.ents = 0 → Faults (p.1 f) s .illegalOperand) ∧
    (b.ents ≠ 0 → b.space ≠ 3 → Faults (p.1 f) s .bufferAccess) ∧
    (b.ents ≠ 0 → b.space = 3 → (attrBlock b.attr = true ∨ attrRaw b.attr = false ∧ b.attr ≠ attr) → Faults (p.1 f) s .format) ∧
    (b.ents ≠ 0 → b.space = 3 → attrBlock b.attr = false → (attrRaw b.attr = true ∨ b.attr = attr) →
      (p.2 = false → 1 ≤ b.occ) → (p.2 = true → 1 ≤ b.room s.now) →
      ((∃ l ∈ on, b.size < E l + sliceBytes f.dst.w) → Faults (p.1 f) s .bufferRange) ∧
      ((∀ l ∈ on, E l + sliceBytes f.dst.w ≤ b.size) →
        (p.2 = true → s.vprot addrs f.dst.w = true → Faults (p.1 f) s .segmentLegality) ∧
        (∀ x, p.2 = false → s.banked 16 spans = some x →
          let y := (vloadGo x addrs (k.startOf t f.dst) f.dst.w).1.modHere hold
          Issues (p.1 f) s (if f.sub.xs.getLsbD 0 then y.advanceAt (s.now + 8 * s.d) i (.cons s.cur.core i 1) else y)) ∧
        (∀ x, p.2 = true → s.vprot addrs f.dst.w = false → s.banked 16 spans = some x →
          let y := (vstoreGo x addrs f.dst.w fun l => k.lslotVal t l f.dst).modHere fun c => (hold c).modCb i fun z => z.takeAttr attr
          Issues (p.1 f) s (if f.sub.xs.getLsbD 0 then y.advanceAt (s.now + 2 * s.d) i (.prod s.cur.core i 1) else y)) ∧
        (s.banked 16 spans = none → (p.2 = true → s.vprot addrs f.dst.w = false) → StallsForBanks (p.1 f) s 16 spans)))))

/-! ### The normalise and quantise engines -/

/-- R201 and R202: the six element functions, each rounded once, element by element in every enabled lane.
R203 to R205: NMOM forms a sum and a sum of squares, of one lane or of all enabled ones; NNORM normalises; NSOFT advances the running maximum and
sum. -/
def Obligations.NormaliseEngine : Prop :=
  (∀ p ∈ ([(.nrsq, .rsq, 0, 6), (.nrcp, .rcp, 1, 6), (.nexp2, .exp2, 2, 8), (.nlog2, .log2, 3, 8), (.nsig, .sig, 4, 10), (.ntanh, .tanh, 5, 10)] :
      List ((S3a → Instr) × ElemFn × Nat × Nat)),
  ∀ (f : S3a) (s : State), Ready s (p.1 f) → s.here.lsrcOk s.cur.tag false f.a = true → s.here.lW s.cur.tag false f.dst.w f.a = true →
    wholeEls (esBits f.es) f.dst.w = true → s.here.lslotOk s.cur.tag f.dst = true →
    let es := esBits f.es
    let F := fmtOf f.sub.fmt
    let t := s.cur.tag
    let rm := if f.sub.rm = 6 then bitsN s.here.fpmode.toNat 0 3 else f.sub.rm.toNat
    let on := s.lanesFor f.h.g
    let a (l : Nat) : Nat := s.here.lsrcVal t l false f.sub.fmt f.fs es f.dst.w f.a
    Issues (p.1 f) s (s.afterLanes on f.dst p.2.2.2 (fun k => k.hold1 t false f.dst.w f.a on a) fun l =>
      joinRes es ((List.range (4 * f.dst.w / es)).map fun e =>
        let r := elemFn p.2.1 (dec F (elemOf es (a l) e))
        let md := modeOf rm 0 s.here.seed (s.laneCtr (0x20 + p.2.2.1) (s.here.startOf t f.dst) l e) ((l + 8 * e) % 64) false
        let c := rnd F md f.sub.sat r.1
        (c.1, c.2 ||| r.2)))) ∧
  ((∀ (f : S3a) (s : State),
    let t := s.cur.tag
    let es := esBits f.es
    let F := fmtOf f.sub.fmt
    let w := s.here.srcW t false 16 f.a
    let on := s.lanesFor f.h.g
    let a (l : Nat) : Nat := s.here.lsrcVal t l false f.sub.fmt f.fs es w f.a
    let xs (l : Nat) : List FVal := (List.range (4 * w / es)).map fun e => dec F (elemOf es (a l) e)
    let old (l : Nat) : Nat := s.here.lslotVal t l f.dst
    let hold (k : Core) : Core := k.hold1 t false w f.a on a
    s.here.lsrcOk t false f.a = true → wholeEls es w = true → f.dst.w = 16 → s.here.lslotOk t f.dst = true →
    (Ready s (.nmom f) → f.sub.xs.getLsbD 1 = true → Issues (.nmom f) s (s.afterLanes on f.dst 14 hold fun _ => moments none (on.flatMap xs))) ∧
    (Ready s (.nmom f) → f.sub.xs.getLsbD 1 = false → Issues (.nmom f) s
      (s.afterLanes on f.dst 6 hold fun l => moments (if f.sub.xs.getLsbD 0 then some (old l) else none) (xs l))) ∧
    (Ready s (.nsoft f) → Issues (.nsoft f) s (s.afterLanes on f.dst 12 hold fun l => softStep (old l) (xs l)))) ∧
  (∀ (f : S3) (s : State), Ready s (.nnorm f) →
    let t := s.cur.tag
    let es := esBits f.es
    let F := fmtOf f.sub.fmt
    let on := s.lanesFor f.h.g
    let a (l : Nat) : Nat := s.here.va t l f
    let b (l : Nat) : Nat := s.here.vb t l f
    let rm := if f.sub.rm = 6 then bitsN s.here.fpmode.toNat 0 3 else f.sub.rm.toNat
    s.here.lsrcOk t false f.a = true → s.here.lsrcOk t true f.b = true → s.here.lW t false f.dst.w f.a = true → s.here.srcW t true f.dst.w f.b = 16 →
    wholeEls es f.dst.w = true → s.here.lslotOk t f.dst = true →
    Issues (.nnorm f) s (s.afterLanes on f.dst 4 (fun k => (k.hold1 t false f.dst.w f.a on a).hold1 t true f.dst.w f.b on b) fun l =>
      joinRes es ((List.range (4 * f.dst.w / es)).map fun e =>
        let v := dec F (elemOf es (a l) e)
        let mu := dec .fp32 (b l % 2 ^ 32)
        let rho := dec .fp32 (b l / 2 ^ 32)
        let md := modeOf rm 0 s.here.seed (s.laneCtr 0x27 (s.here.startOf t f.dst) l e) ((l + 8 * e) % 64) false
        if v.isNan || mu.isNan || rho.isNan then (F.nan, 0)
        else
          let d := addV md.isDown v mu.negate
          let q := mulV d.1 rho
          let c := rnd F md f.sub.sat q.1
          (c.1, c.2 ||| if d.2 || q.2 then fNV else 0)))))

/-- R207, R208 and R213: QAMAX writes the largest magnitude of each block, QSCALE the scale code of each element, QSIGN inverts the signs that its
stream picks.
R209 to R212: QBLK and QDEQ fault on a buffer that does not hold such blocks, in the order of the checks; QDEQ puts the reading of its blocks into
progress; QBLK its codes and scales, and zeros in the padding between their areas (R41). -/
def Obligations.QuantiseEngine : Prop :=
  ((∀ (f : S3a) (s : State), Ready s (.qamax f) →
    let t := s.cur.tag
    let es := esBits f.es
    let on := s.lanesFor f.h.g
    let a (l : Nat) : Nat := s.here.lsrcVal t l false f.sub.fmt f.fs es f.dst.w f.a
    let bs := if f.sub.xs.getLsbD 0 then 32 else 64
    s.here.lsrcOk t false f.a = true → s.here.lW t false f.dst.w f.a = true → wholeEls es f.dst.w = true → s.here.lslotOk t f.dst = true →
    Issues (.qamax f) s (s.afterLanes on f.dst 4 (fun k => k.hold1 t false f.dst.w f.a on a) fun l =>
      (joinElems es ((List.range (4 * f.dst.w / es)).map fun e =>
        amaxCode (fmtOf f.sub.fmt) ((on.filter fun j => decide (j / bs = l / bs)).map fun j => elemOf es (a j) e)), 0))) ∧
  (∀ (f : QscaleF) (s : State), Ready s (.qscale f) →
    let t := s.cur.tag
    let es := esBits f.es
    let w := s.here.srcW t false (f.dst.w * es / 16) f.a
    let on := s.lanesFor f.h.g
    let a (l : Nat) : Nat := s.here.lsrcVal t l false f.sub.fmt f.fs es w f.a
    s.here.lsrcOk t false f.a = true → wholeEls es w = true → f.dst.w = 4 * (4 * w / es) → s.here.lslotOk t f.dst = true →
    Issues (.qscale f) s (s.afterLanes on f.dst 3 (fun k => k.hold1 t false w f.a on a) fun l =>
      joinRes 16 ((List.range (4 * w / es)).map fun e => chooseScale (f.bf.setWidth 5) [dec (fmtOf f.sub.fmt) (elemOf es (a l) e)]))) ∧
  (∀ (f : S3) (s : State), Ready s (.qsign f) →
    let t := s.cur.tag
    let es := esBits f.es
    let n := 4 * f.dst.w / es
    let on := s.lanesFor f.h.g
    let a (l : Nat) : Nat := s.here.va t l f
    let b (l : Nat) : Nat := s.here.lctl t l true f.b
    veOkCtl s.here t f = true → s.here.lslotOk t f.dst = true →
    Issues (.qsign f) s (s.afterLanes on f.dst 2 (fun k => (k.hold1 t false f.dst.w f.a on a).hold1 t true f.dst.w f.b on b) fun l =>
      joinRes es ((List.range n).map fun e =>
        let x := elemOf es (a l) e
        let i := (b l / 2 ^ 8 % 2 ^ 48 + l * n + e) % 2 ^ 48
        (if (ember s.here.seed (emberCtr 1 (b l % 256) (i / 32))).getLsbD (i % 32) then x ^^^ 2 ^ (es - 1) else x, 0))))) ∧
  ((∀ (f : QdeqF) (s : State), Ready s (.qdeq f) →
    let t := s.cur.tag
    let es := esBits f.es
    let b := s.here.cbOf f.cb.toNat
    let n := 4 * f.dst.w / es
    let nb := n * 64 / attrBs b.attr
    let kk := blocksPer b.attr b.size
    let ent := b.base + b.cons.toNat % b.ents * b.size
    let spans := (blockSpans b.attr kk f.blk.toNat nb (attrT b.attr)).map fun p => (ent + p.1, p.2)
    s.here.lslotOk t f.dst = true → wholeEls es f.dst.w = true →
    (b.ents = 0 → Faults (.qdeq f) s .illegalOperand) ∧
    (b.ents ≠ 0 → b.space ≠ 3 → Faults (.qdeq f) s .bufferAccess) ∧
    (b.ents ≠ 0 → b.space = 3 → 1 ≤ b.occ → attrBlock b.attr = false → Faults (.qdeq f) s .format) ∧
    (b.ents ≠ 0 → b.space = 3 → 1 ≤ b.occ → attrBlock b.attr = true → kk < f.blk.toNat + nb → Faults (.qdeq f) s .illegalOperand) ∧
    (b.ents ≠ 0 → b.space = 3 → attrBlock b.attr = true → f.blk.toNat + nb ≤ kk → 1 ≤ b.occ →
      (s.banked 16 spans = none → StallsForBanks (.qdeq f) s 16 spans) ∧
      ∀ x, s.banked 16 spans = some x → Issues (.qdeq f) s (x.launch (some (s.now + 2 * s.d)) false []
        (.qdeq (s.bufPa s.cur.core 3 ent) b.attr kk f.blk.toNat (s.lanesFor f.h.g) (s.here.startOf t f.dst) f.dst.w f.sub.fmt (s.rmOf f.sub.rm.toNat) f.sub.sat
          s.here.seed (s.laneCtr 0x33 (s.here.startOf t f.dst) 0 0) (s.now + 8 * s.d))).1)) ∧
  (∀ (f : QblkF) (s : State), Ready s (.qblk f) →
    let t := s.cur.tag
    let k := s.here
    let es := esBits f.es
    let F := fmtOf f.sub.fmt
    let sg := f.sub.xs.getLsbD 0
    let ts := f.sub.xs.getLsbD 1
    let w := k.srcW t false (es / 4) f.a
    let n := 4 * w / es
    let b := k.cbOf f.cb.toNat
    let bw := k.srcW t true (if sg then 4 * n else 8) f.b
    let bs := attrBs b.attr
    let kk := blocksPer b.attr b.size
    let va (l : Nat) : Nat := k.lsrcVal t l false f.sub.fmt f.fs es w f.a
    let vb (l : Nat) : Nat := match f.b with
      | .imm v _ => if ts then immFloat 32 v else immSpread 16 bw v.toNat
      | x => k.lsrcVal t l true 0 false 16 bw x
    k.lsrcOk t false f.a = true → (sg = false ∧ ts = false ∨ k.lsrcOk t true f.b = true) → wholeEls es w = true →
    (∀ c, qblkFault s b f.blk.toNat n bw sg ts = some c → Faults (.qblk f) s c) ∧
    (qblkFault s b f.blk.toNat n bw sg ts = none → 1 ≤ b.room s.now →
      let ent := b.base + b.prod.toNat % b.ents * b.size
      let spans := (blockSpans b.attr kk f.blk.toNat (n * 64 / bs) ts).map fun p => (ent + p.1, p.2)
      let pa := s.bufPa s.cur.core 3 ent
      let first (j : Nat) : Nat := if bs = 64 then 0 else 32 * (j % 2)
      let el (j : Nat) : Nat := if bs = 64 then j else j / 2
      let block (j : Nat) : List Nat × Nat × Flags := quantBlock b.attr (if ts then dec .fp32 (vb 0 % 2 ^ 32) else .num 1)
        (if sg then some (bitsN (vb (first j)) (16 * el j) 16) else none)
        (fun i => modeOf (s.rmOf f.sub.rm.toNat) 0 k.seed (emberCtr 0 0x32 (k.segno.toNat % 2 ^ 16 * 2 ^ 32 + b.prod.toNat % 2 ^ 16 * 2 ^ 16 +
          (f.blk.toNat + j) % 2 ^ 10 * 2 ^ 6 + i % 2 ^ 6)) i (decide (bs = 32)))
        ((List.range bs).map fun i => dec F (elemOf es (va (first j + i)) (el j)))
      let js := List.range (n * 64 / bs)
      let cells := js.flatMap fun j =>
        cellsAt (pa + (f.blk.toNat + j) * attrEb b.attr) (packElems (attrBits b.attr) (block j).1) ++
        cellsAt (pa + scaleOff b.attr kk + (f.blk.toNat + j) * attrSb b.attr) (leBytes (attrSb b.attr) (block j).2.1) ++
        if ts then cellsAt (pa + tileOff b.attr kk + 4 * ((f.blk.toNat + j) / (128 / bs))) (leBytes 4 (vb 0)) else []
      let endE := kk * attrEb b.attr
      let endS := scaleOff b.attr kk + kk * attrSb b.attr
      let pad := cellsAt (pa + endE) (List.replicate (scaleOff b.attr kk - endE) 0) ++
        if attrT b.attr then cellsAt (pa + endS) (List.replicate (tileOff b.attr kk - endS) 0) else []
      (s.banked 16 spans = none → StallsForBanks (.qblk f) s 16 spans) ∧
      ∀ x, s.banked 16 spans = some x → Issues (.qblk f) s (((x.launch (some (s.now + 2 * s.d)) false [] (.write (cells ++ pad) [])).1.modHere fun c =>
        let c := c.hold1 t false w f.a (List.range 64) va
        if sg || ts then c.hold1 t true bw f.b (List.range 64) vb else c).flag 2 (orFlags (js.map fun j => (block j).2.2))))))

/-! ### The matrix engines -/

/-- R217, R235 and R236: a load takes its bytes into the shadow plane from cycle 4 on, or faults by the first check that fails; a flip makes a FULL
shadow plane the active one and leaves the other EMPTY. -/
def Obligations.PlaneLoads : Prop :=
  (∀ (f : LdsF) (s : State), Ready s (.lds f) → s.here.srcOk s.cur.tag false f.a = true → s.here.loadWaits s.now = false →
    let k := s.here
    let off := 64 * k.ctlVal s.cur.tag false f.a
    let other := k.nestRun ≠ none ∧ k.actPlane.st ≠ 0 ∧ f.fmt ≠ k.actPlane.fmt
    (famOf f.fmt = 0 ∨ other → Faults (.lds f) s .format) ∧
    (famOf f.fmt ≠ 0 → ¬other → 4 * 2 ^ 20 < off + imageSize f.fmt → Faults (.lds f) s .illegalOperand) ∧
    (famOf f.fmt ≠ 0 → ¬other → off + imageSize f.fmt ≤ 4 * 2 ^ 20 → k.shPlane.st = 2 → Faults (.lds f) s .planeState) ∧
    (famOf f.fmt ≠ 0 → ¬other → off + imageSize f.fmt ≤ 4 * 2 ^ 20 → k.shPlane.st ≠ 2 →
      Issues (.lds f) s ((s.launch (some (s.now + 4 * s.d)) true []
        (.plane (!k.act) (s.bufPa s.cur.core 0 off) 0 (imageSize f.fmt) 0 [] [])).1.modHere fun c =>
          (c.holdLatch s.cur.tag false f.a (c.ctlVal s.cur.tag false f.a) (c.srcW s.cur.tag false 4 f.a)).setPlane (!c.act)
            { k.shPlane with st := 1, fmt := f.fmt }))) ∧
  (∀ p ∈ ([(.ldsc, false), (.ldscl, true)] : List ((LdscF → Instr) × Bool)), ∀ (f : LdscF) (s : State), Ready s (p.1 f) →
    let k := s.here
    let b := k.cbOf f.cb.toNat
    let lo := if p.2 then 32768 else 0
    let C := s.now + (4 + ceilDiv (imageSize b.attr - lo) 256) * s.d
    (b.ents = 0 → Faults (p.1 f) s .illegalOperand) ∧
    (b.ents ≠ 0 → 1 ≤ b.occ → (p.2 = true ∨ k.loadWaits s.now = false) →
      (b.space ≠ 0 → Faults (p.1 f) s .bufferAccess) ∧
      (∀ c, b.space = 0 → loadFault k b.attr p.2 (decide (imageSize b.attr ≤ b.size)) = some c → Faults (p.1 f) s c) ∧
      (b.space = 0 → loadFault k b.attr p.2 (decide (imageSize b.attr ≤ b.size)) = none →
        Issues (p.1 f) s ((s.launch (some (s.now + 4 * s.d)) true []
          (.plane (!k.act) (s.bufPa s.cur.core 0 (b.base + b.cons.toNat % b.ents * b.size)) lo (imageSize b.attr) lo (if p.2 then k.shPlane.img else [])
            (if f.adv then [.cons s.cur.core f.cb.toNat 1] else []))).1.modHere fun c =>
              (if f.adv then { c with busy := c.busy ++ [{ res := .cb f.cb.toNat, tick := C + 1, op := some s.nextId, hold := none, old := [], mask := [] }] }
               else c).setPlane (!c.act) { k.shPlane with st := 1, fmt := b.attr })))) ∧
  (∀ (f : F1) (s : State), Ready s (.lflip f) → s.here.nestRun = none →
    (s.here.shPlane.st ≠ 2 → Faults (.lflip f) s .planeState) ∧
    (s.here.shPlane.st = 2 → Issues (.lflip f) s (s.modHere fun k => { k with act := !k.act }.setPlane k.act { (k.planeAt k.act) with st := 0 })))

/-- R231, R233 and R237: MSIGN sets the sign generator; MMA starts the nest that the nest registers describe, or faults; MSTOP ends a nest that has nothing in
flight and stops any other; MWAIT goes on at once and leaves its completion beads to the end of the nest. -/
def Obligations.Nests : Prop :=
  (∀ (f : MsignF) (s : State), Ready s (.msign f) →
    let b := s.here.ctlVal s.cur.tag false f.b
    (f.en = false → Issues (.msign f) s (s.modHere fun k => { k with sign := .off })) ∧
    (f.en = true → s.here.srcOk s.cur.tag false f.b = false → Faults (.msign f) s .illegalOperand) ∧
    (f.en = true → s.here.srcOk s.cur.tag false f.b = true →
      Issues (.msign f) s (s.modHere fun k => { (k.holdLatch s.cur.tag false f.b b (k.srcW s.cur.tag false 4 f.b)) with
        sign := { en := true, qs := BitVec.ofNat 8 b, i0 := BitVec.ofNat 48 (b / 256) } }))) ∧
  (∀ (f : MmaF) (s : State), Ready s (.mma f) →
    let k := s.here
    let tab := k.nest
    let b := k.cbOf (nAcb tab)
    let aoff := k.ctlVal s.cur.tag false f.aoff
    let odd := (f.ua = true ∨ f.uw = true) ∧ famOf (nAfmt tab) ≠ 0 ∧ attrInt (nAfmt tab) = false
    (odd → Faults (.mma f) s .illegalInstruction) ∧
    (¬odd → k.srcOk s.cur.tag false f.aoff = true → nUsecb tab = true → b.ents = 0 → Faults (.mma f) s .illegalOperand) ∧
    (¬odd → k.srcOk s.cur.tag false f.aoff = true → (nUsecb tab = true → b.ents ≠ 0 ∧ nNeed tab ≤ b.occ) → k.nestRun = none → s.carryReads s.now = false →
      (∀ c, mmaFault s tab aoff = some c → Faults (.mma f) s c) ∧
      (mmaFault s tab aoff = none →
        let s1 := (s.launch (some (s.now + 2 * s.d)) true [] .nest).1.modHere fun c =>
          { (c.holdLatch s.cur.tag false f.aoff aoff (c.srcW s.cur.tag false 4 f.aoff)) with
            nestRun := some { regs := tab, aoff := aoff, ua := f.ua, uw := f.uw, sign := k.sign, cons0 := b.cons, entered := 0, total := nTotal tab,
                              stopAt := none, since := none, id := s.nextId, seed := k.seed }, passes := 0 }
        Issues (.mma f) s (if nUsecb tab = true ∧ nAdv tab ≠ 0 then s1.modHere fun c =>
          { c with busy := c.busy ++ [{ res := .cb (nAcb tab), tick := s1.now + 1, op := some s.nextId, hold := none, old := [], mask := [] }] } else s1)))) ∧
  (∀ (f : F1) (s : State), Ready s (.mstop f) →
    (s.here.nestRun = none → Issues (.mstop f) s s) ∧
    (∀ r, s.here.nestRun = some r →
      let quiet := (∀ x, s.flight r.id = some x → x.due ≠ s.now) ∧ s.passesLeft s.cur.core r.id = false
      (r.stopAt ≠ none → Issues (.mstop f) s s) ∧
      (r.stopAt = none → quiet → Issues (.mstop f) s (s.endNest s.cur.core r true)) ∧
      (r.stopAt = none → ¬quiet → Issues (.mstop f) s (s.modHere fun k => { k with nestRun := some { r with stopAt := some s.now } })))) ∧
  (∀ (f : F1) (s : State), Ready s (.mwait f) → ∃ t nx, exec (.mwait f) s = .next t ∧ Went s s t (s.pcAfter (.mwait f)) nx ∧
    ∀ r, s.here.nestRun = some r → ((t.core s.cur.core).engine s.cur.tag).hold =
      some { wp := false, wn := false, c := s.now + s.d, op := some r.id, sp := (beadsOf (.mwait f)).dp, sn := (beadsOf (.mwait f)).dn, fl := [], flags := 0,
             pc := s.hereE.pc })

/-- R226 to R228 and R238 to R240: ACC.CLR and ACC.CARRY start their 256 cycles, ACC.SWAP exchanges the banks, ACC.RD reads values and ACC.WR writes
them; the bank that the open segment has carried in is not written. -/
def Obligations.AccumulatorBanks : Prop :=
  (∀ (f : AccClrF) (s : State), Ready s (.accClr f) → s.here.nestRun = none → (f.vis = true → s.here.deRead < s.now + 256 * s.d) →
    (f.vis = false → s.carryReads (s.now + 256 * s.d) = false) →
    let b := s.here.wbank != f.vis
    (s.carryBank = some b ∨ s.accProt b 0 0x4_0000 = true → Faults (.accClr f) s .segmentLegality) ∧
    (s.carryBank ≠ some b → s.accProt b 0 0x4_0000 = false → Issues (.accClr f) s (s.launch (some (s.now + 256 * s.d)) true [] (.clear b)).1)) ∧
  (∀ (f : F1) (s : State), Ready s (.accCarry f) → s.here.nestRun = none → s.here.deRead < s.now + 256 * s.d →
    (s.carryBank = some (!s.here.wbank) ∨ s.accProt (!s.here.wbank) 0 0x4_0000 = true → Faults (.accCarry f) s .segmentLegality) ∧
    (s.carryBank ≠ some (!s.here.wbank) → s.accProt (!s.here.wbank) 0 0x4_0000 = false → Issues (.accCarry f) s (s.launch (some (s.now + 256 * s.d)) true [] .carry).1)) ∧
  (∀ (f : F1) (s : State), Ready s (.accSwap f) → s.here.nestRun = none → s.bankOps = false → s.here.deRead < s.now →
    Issues (.accSwap f) s (s.modHere fun k => { k with wbank := !k.wbank })) ∧
  (∀ (f : AccF) (s : State),
    let k := s.here
    let i := k.ctlVal s.cur.tag false f.i
    let b := k.wbank != f.vis
    let off := (if b then 0x40000 else 0) + 4 * i
    let n := f.d.w / 2
    (f.vis = true ∨ k.nestRun = none) →
    (i + f.d.w / 8 ≤ 65536 → (f.d.w = 8 ∨ f.d.w = 16) → k.slotOk s.cur.tag f.d = true → k.srcOk s.cur.tag false f.i = true →
      (Ready s (.accRd f) → s.issueRead 2 off n = (s, none) →
        Issues (.accRd f) s (s.modHere fun c => c.wrSlot s.cur.tag f.d (rdLe s.memAhead (s.bufPa s.cur.core 2 off) n))) ∧
      (Ready s (.accWr f) → (f.vis = true → k.deRead < s.now + 2 * s.d) → (f.vis = false → s.carryReads (s.now + 2 * s.d) = false) →
        (s.carryBank = some b ∨ s.accProt b (4 * i) n = true → Faults (.accWr f) s .segmentLegality) ∧
        (s.carryBank ≠ some b → s.accProt b (4 * i) n = false → Issues (.accWr f) s (s.launch (some (s.now + 2 * s.d)) false []
          (.write (cellsAt (s.bufPa s.cur.core 2 off) (leBytes n (k.slotVal s.cur.tag f.d))) [])).1))) ∧
    ((f.d.w ≠ 8 ∧ f.d.w ≠ 16 ∨ 65536 < i + f.d.w / 8) →
      (Ready s (.accRd f) → Faults (.accRd f) s .illegalOperand) ∧ (Ready s (.accWr f) → Faults (.accWr f) s .illegalOperand)))

/-- R241 to R243 and R245: DSCALE sets the multiplier and the tile scale; DRAIN puts one operation for each row into progress, from its second cycle on, or
faults; DAMAX one that reads two half-rows a cycle. -/
def Obligations.Drains : Prop :=
  (∀ (f : DscaleF) (s : State), Ready s (.dscale f) →
    let t := s.cur.tag
    let k := s.here
    (f.setm = true → k.srcOk t false f.a = true ∧ k.srcW t false 8 f.a = 8) → (f.sett = true → k.srcOk t true f.b = true ∧ k.srcW t true 8 f.b = 8) →
    Issues (.dscale f) s (s.modHere fun c =>
      let m := if f.setm then { (c.holdLatch t false f.a (scaleVal c t false f.a) 8) with mul := BitVec.ofNat 32 (scaleVal c t false f.a) } else c
      if f.sett then { (m.holdLatch t true f.b (scaleVal c t true f.b) 8) with tsc := BitVec.ofNat 32 (scaleVal c t true f.b) } else m)) ∧
  (∀ (f : DrainF) (s : State), Ready s (.drain f) → s.here.srcOk s.cur.tag false f.row = true → s.here.srcOk s.cur.tag true f.n = true →
    let k := s.here
    let t := s.cur.tag
    let i := f.cb.toNat
    let b := k.cbOf i
    let c := k.ctlVal t false f.row
    let n := k.ctlVal t true f.n
    let L := if f.half then 128 else 256
    (∀ e, drainFault s f b c n = some e → Faults (.drain f) s e) ∧
    (drainFault s f b c n = none → n ≤ b.room s.now →
      let r := (List.range n).foldl (fun (r : State × Nat) j =>
        let p := b.prod.toNat + j
        r.1.launch (some (s.now + (2 + j) * s.d)) true []
          (.rowRead s.now (c + (if f.half then j else 2 * j)) L (s.bufPa s.cur.core 1 (b.entry p)) b.attr b.size k.mul k.tsc f.fs f.sat (s.rmOf f.rm.toNat) k.seed
            (emberCtr 0 0x40 (k.segno.toNat % 2 ^ 16 * 2 ^ 32 + p % 2 ^ 16 * 2 ^ 16)) 0
            (if f.adv && decide (j + 1 = n) then [.prod s.cur.core i n] else []))) (s, 0)
      Issues (.drain f) s (r.1.modHere fun x =>
        let y := (x.holdLatch t false f.row c (x.srcW t false 4 f.row)).holdLatch t true f.n n (x.srcW t true 4 f.n)
        { y with deRead := max y.deRead (s.now + (1 + n) * s.d),
                 busy := if f.adv then y.busy ++ [{ res := .cb i, tick := s.now + (5 + n) * s.d + 1, op := some r.2, hold := none, old := [], mask := [] }]
                         else y.busy }))) ∧
  (∀ (f : DamaxF) (s : State), Ready s (.damax f) → s.here.slotOk s.cur.tag f.dst = true → s.here.srcOk s.cur.tag false f.row = true →
    s.here.srcOk s.cur.tag true f.n = true → f.dst.w = 8 →
    let c := s.here.ctlVal s.cur.tag false f.row
    let n := s.here.ctlVal s.cur.tag true f.n
    let tot := if f.half then n else 2 * n
    let rows := n ≠ 0 ∧ c + tot ≤ 512 ∧ (f.half = false → c % 2 = 0)
    (¬rows → Faults (.damax f) s .illegalOperand) ∧
    (rows → Issues (.damax f) s ((s.launch (some (s.now + 2 * s.d)) false [] (.damax c (c + tot - 1) 0 (s.here.startOf s.cur.tag f.dst))).1.modHere fun k =>
      { k with deRead := max k.deRead (s.now + (1 + ceilDiv tot 2) * s.d) })))

/-! ### The movement engines -/

/-- R246, R250 and R268: IGEN, IMAP and ICMP put one entry of indices into progress, with the entry of the source released at the same tick, or fault by
the first check that fails. -/
def Obligations.IndexEngine : Prop :=
  (∀ (f : IgenF) (s : State), Ready s (.igen f) → s.here.srcOk s.cur.tag false f.a = true → s.here.srcOk s.cur.tag true f.b = true →
    let i := f.dcb.toNat
    let d := s.here.cbOf i
    let w := if d.attr = 9 then 16 else 32
    let a := s.here.offVal s.cur.tag false f.a
    let b := s.here.offVal s.cur.tag true f.b
    (d.ents = 0 → Faults (.igen f) s .illegalOperand) ∧
    (d.ents ≠ 0 → d.space ≠ 5 → Faults (.igen f) s .bufferAccess) ∧
    (d.ents ≠ 0 → d.space = 5 → 1 ≤ d.room s.now → d.attr ≠ 9 → d.attr ≠ 10 → Faults (.igen f) s .format) ∧
    (d.ents ≠ 0 → d.space = 5 → 1 ≤ d.room s.now → (d.attr = 9 ∨ d.attr = 10) →
      (s.protAt s.cur.core 5 (d.entry d.slot) d.size = true → Faults (.igen f) s .segmentLegality) ∧
      (s.protAt s.cur.core 5 (d.entry d.slot) d.size = false →
        Issues (.igen f) s (s.producing (s.now + (2 + ceilDiv d.size 64) * s.d) i f.adv d.attr
          (packElems w ((List.range (d.size * 8 / w)).map fun (j : Nat) => wrapI (a + (j : Int) * b) w)) [] 0
          fun k => (k.holdInt s.cur.tag false f.a).holdInt s.cur.tag true f.b)))) ∧
  (∀ (i : Instr) (dcb scb : BitVec 4) (advs advd : Bool) (a b : Src) (op : Nat → Nat → Nat → List Nat → List Nat) (s : State),
    (∃ h dep, i = .imap { h := h, dep := dep, dcb := dcb, scb := scb, advs := advs, advd := advd, a := a, b := b } ∧
        op = fun w x m xs => xs.map fun y => if y = 2 ^ w - 1 then y
          else let z := (y * bitsN x 0 32 + bitsN x 32 32) % 2 ^ w; if m = 0 then z else z % m) ∨
      (∃ h dep inv, i = .icmp { h := h, dep := dep, inv := inv, dcb := dcb, scb := scb, advs := advs, advd := advd, a := a, b := b } ∧
        op = fun w lo hi xs =>
          let keep := xs.filter fun y => decide (y ≠ 2 ^ w - 1) && ((decide (lo ≤ y) && decide (y < hi)) != inv)
          keep ++ List.replicate (xs.length - keep.length) (2 ^ w - 1)) →
    Ready s i → s.here.srcOk s.cur.tag false a = true → s.here.srcOk s.cur.tag true b = true →
    let d := s.here.cbOf dcb.toNat
    let x := s.here.cbOf scb.toNat
    let w := if x.attr = 9 then 16 else 32
    (d.ents = 0 ∨ x.ents = 0 → Faults i s .illegalOperand) ∧
    (d.ents ≠ 0 → x.ents ≠ 0 → (d.space ≠ 5 ∨ x.space ≠ 5) → Faults i s .bufferAccess) ∧
    (d.ents ≠ 0 → x.ents ≠ 0 → d.space = 5 → x.space = 5 → 1 ≤ x.occ → 1 ≤ d.room s.now → d.size ≠ x.size → Faults i s .illegalOperand) ∧
    (d.ents ≠ 0 → x.ents ≠ 0 → d.space = 5 → x.space = 5 → 1 ≤ x.occ → 1 ≤ d.room s.now → d.size = x.size →
      (x.attr = 9 ∨ x.attr = 10) → (attrRaw d.attr = true ∨ d.attr = x.attr) → s.protAt s.cur.core 5 (d.entry d.slot) d.size = false → s.entryRead x = (s, none) →
      Issues i s (s.producing (s.now + (2 + ceilDiv d.size 64) * s.d) dcb.toNat advd x.attr
        (packElems w (op w (s.here.ctlVal s.cur.tag false a) (s.here.ctlVal s.cur.tag true b) (s.indices x))) (if advs then [scb.toNat] else []) 0
        fun k => (k.holdCtl s.cur.tag false a).holdCtl s.cur.tag true b)))

/-- R251: GATH and SCAT move one row of RB bytes for each index that is not null; the index entry is released with the last request, the destination's
reservation and the tag are held until the last byte.
R252 and R253: WIN puts the windows of an entry into progress, rows past its end as zero; GSEG the reduction of each segment's rows. -/
def Obligations.RowsAndWindows : Prop :=
  (∀ (f : GathF) (s : State) (g : Granted), s.here.srcOk s.cur.tag false f.a = true → s.here.srcOk s.cur.tag true f.rb = true →
    let k := s.here
    let t := s.cur.tag
    let c := s.cur.core
    let i := f.cb.toNat
    let d := k.cbOf i
    let x := k.cbOf f.icb.toNat
    let rb := k.ctlVal t true f.rb
    let tag := tagOf f.ten f.tag
    let w := if x.attr = 9 then 16 else 32
    let xs := s.indices x
    let rows := (xs.zipIdx.filter fun p => decide (p.1 ≠ 2 ^ w - 1)).map fun p => (p.2, (k.addr t false f.a + p.1 * rb) % 2 ^ 56)
    (∀ e, cbsFault [(d, 4), (x, 5)] = some e → (Ready s (.gath f) → Faults (.gath f) s e) ∧ (Ready s (.scat f) → Faults (.scat f) s e)) ∧
    (∀ e, cbsFault [(d, 4), (x, 5)] = none → 1 ≤ x.occ → rowFault d x rb = some e →
      (Ready s (.gath f) → 1 ≤ d.room s.now → Faults (.gath f) s e) ∧ (Ready s (.scat f) → 1 ≤ d.occ → Faults (.scat f) s e)) ∧
    (Ready s (.gath f) → cbsFault [(d, 4), (x, 5)] = none → rowFault d x rb = none → 1 ≤ x.occ → 1 ≤ d.room s.now → s.entryRead x = (s, none) →
      s.GrantsAll (rows.map fun p => (p.2, rb, useRead)) (fun as => (fmtsOf as).all (fun a => !attrBlock a) && intoCb d (fmtsOf as)) g →
      s.openFault g.lat = false → s.protAt c 4 (d.entry d.slot) d.size = false → s.tagBusy tag = false →
      let ent := d.entry d.slot
      let links := linksOf c g.runs false
      let f0 := if g.lat.isSome then s.firstBeat links else s.now
      let last := f0 + xs.length - 1
      let due := f0 + g.lat.getD 0 + rowTicks w rb xs
      let dst := (rows.map fun p => s.bufRun c 4 (ent + p.1 * rb) rb) ++
        ((xs.zipIdx.filter fun p => decide (p.1 = 2 ^ w - 1)).map fun p => s.bufRun c 4 (ent + p.2 * rb) rb) ++
        [s.bufRun c 4 (ent + xs.length * rb) (d.size - xs.length * rb)]
      let s1 := g.s.takeTag tag
      let r := ({ g with s := s1 } : Granted).launch due due true
        (.copy g.runs (List.replicate (d.size - rows.length * rb) 0) dst links (f0 + rowTicks w rb xs - 1) [] (.resv c i s1.nextId :: s1.tagFins tag))
      let s2 := (r.1.reserve c i r.2 f.advx (g.attrs.head?.elim d.attr awFmt)).modHere fun k => (k.holdSrc t false false 0 f.a).holdCtl t true f.rb
      Issues (.gath f) s (if f.advi then s2.advanceAt last f.icb.toNat (.cons c f.icb.toNat 1) else s2)) ∧
    (Ready s (.scat f) → cbsFault [(d, 4), (x, 5)] = none → rowFault d x rb = none → 1 ≤ x.occ → 1 ≤ d.occ → s.entryRead x = (s, none) → s.entryRead d = (s, none) →
      s.GrantsAll (rows.map fun p => (p.2, rb, { useWrite with stg := some false }))
        (fun as => (fmtsOf as).all fun a => attrRaw a || (!attrBlock a && decide (a = d.attr))) g →
      s.openFault g.lat = false → s.tagBusy tag = false →
      let src := s.entryBytes d
      let all := spreadBytes g.runs (rows.flatMap fun p => (src.drop (p.1 * rb)).take rb)
      let staged (p : Nat × Nat × Byte) : Bool := s.byteStaged (g.runs.zip g.attrs) p.1 p.2.1
      let st := all.filter staged
      let stage := stageAll k.egress (st.flatMap fun p => [(2 * p.2.1, p.2.2.extractLsb' 0 4), (2 * p.2.1 + 1, p.2.2.extractLsb' 4 4)])
      (st ≠ [] → k.stageRoom < stage.length → Faults (.scat f) s .segmentLegality) ∧
      ((st = [] ∨ stage.length ≤ k.stageRoom) →
        let links := linksOf c g.runs true
        let f0 := if g.lat.isSome then s.firstBeat links else s.now
        let last := f0 + xs.length - 1
        let due := f0 + g.lat.getD 0 + rowTicks w rb xs
        let out := all.filter fun p => !staged p
        let s1 := (g.s.takeTag tag).modHere fun k =>
          { ((k.holdSrc t false false 0 f.a).holdCtl t true f.rb) with egress := if st = [] then k.egress else stage }
        let r := ({ g with s := s1 } : Granted).launch due due true
          (.copy [] (out.map fun p => p.2.2) (out.map fun p => { va := p.1, pa := p.2.1, len := 1 }) links (f0 + rowTicks w rb xs - 1) [] (s1.tagFins tag))
        let s2 := if f.advi then r.1.advanceAt last f.icb.toNat (.cons c f.icb.toNat 1) else r.1
        Issues (.scat f) s (if f.advx then s2.advanceAt last i (.cons c i 1) else s2)))) ∧
  ((∀ (f : WinF) (s : State), Ready s (.win f) → s.here.srcOk s.cur.tag false f.a = true →
    let d := s.here.cbOf f.dcb.toNat
    let x := s.here.cbOf f.scb.toNat
    let a := s.here.ctlVal s.cur.tag false f.a
    let rb := bitsN a 0 16
    let wl := bitsN a 16 8 + 1
    let st := bitsN a 24 8 + 1
    (d.ents = 0 ∨ x.ents = 0 → Faults (.win f) s .illegalOperand) ∧
    (d.ents ≠ 0 → x.ents ≠ 0 → (d.space ≠ 4 ∨ x.space ≠ 4) → Faults (.win f) s .bufferAccess) ∧
    (d.ents ≠ 0 → x.ents ≠ 0 → d.space = 4 → x.space = 4 → 1 ≤ x.occ → 1 ≤ d.room s.now →
      (rb = 0 ∨ d.size < wl * rb → Faults (.win f) s .illegalOperand) ∧
      (rb ≠ 0 → wl * rb ≤ d.size → attrRaw d.attr = false → d.attr ≠ x.attr → Faults (.win f) s .format) ∧
      (rb ≠ 0 → wl * rb ≤ d.size → (attrRaw d.attr = true ∨ d.attr = x.attr) →
        (s.protAt s.cur.core 4 (d.entry d.slot) d.size = true → Faults (.win f) s .segmentLegality) ∧
        (s.protAt s.cur.core 4 (d.entry d.slot) d.size = false → s.entryRead x = (s, none) →
          Issues (.win f) s (s.producing (s.now + (4 + ceilDiv d.size 256) * s.d) f.dcb.toNat f.advd x.attr
            ((List.range (d.size / (wl * rb))).flatMap fun n => (List.range wl).flatMap fun i =>
              if n * st + i < x.size / rb then ((s.entryBytes x).drop ((n * st + i) * rb)).take rb else List.replicate rb 0)
            (if f.advs then [f.scb.toNat] else []) 0 fun k => k.holdCtl s.cur.tag false f.a))))) ∧
  (∀ (f : GsegF) (s : State), Ready s (.gseg f) → s.here.srcOk s.cur.tag false f.a = true → s.here.srcOk s.cur.tag true f.rb = true →
    let d := s.here.cbOf f.dcb.toNat
    let x := s.here.cbOf f.scb.toNat
    let ix := s.here.cbOf f.icb.toNat
    let rb := s.here.ctlVal s.cur.tag true f.rb
    let a := s.here.ctlVal s.cur.tag false f.a
    (d.ents = 0 ∨ x.ents = 0 ∨ ix.ents = 0 → Faults (.gseg f) s .illegalOperand) ∧
    (d.ents ≠ 0 → x.ents ≠ 0 → ix.ents ≠ 0 → (d.space ≠ 4 ∨ x.space ≠ 4 ∨ ix.space ≠ 5) → Faults (.gseg f) s .bufferAccess) ∧
    (d.ents ≠ 0 → x.ents ≠ 0 → ix.ents ≠ 0 → d.space = 4 → x.space = 4 → ix.space = 5 → 1 ≤ x.occ → 1 ≤ ix.occ → 1 ≤ d.room s.now →
      (rb = 0 ∨ rb % 4 ≠ 0 → Faults (.gseg f) s .illegalOperand) ∧
      (rb ≠ 0 → rb % 4 = 0 → (ix.attr = 9 ∨ ix.attr = 10) → idxCount ix * rb ≤ x.size → d.attr = x.attr → (d.attr = 6 ∨ d.attr = 10) →
        s.protAt s.cur.core 4 (d.entry d.slot) d.size = false →
        s.entryRead x = (s, none) → s.entryRead ix = (s, none) →
        let isF := decide (d.attr = 6)
        let D := d.size / rb
        let op := f.op.toNat
        let id := if isF then redFloatId .fp32 op else wrapI (redIntId op true 32) 32
        let xs := s.indices ix
        let r := xs.zipIdx.foldl (gsegStep isF op (idxBits ix.attr) a (rb / 4) D fun j => getElem 32 (s.entryBytes x) j) (List.replicate (D * (rb / 4)) id, 0)
        Issues (.gseg f) s (s.producing (s.now + (4 + xs.length + ceilDiv d.size 256) * s.d) f.dcb.toNat f.advd d.attr (packElems 32 r.1)
          ((if f.advs then [f.scb.toNat] else []) ++ if f.advi then [f.icb.toNat] else []) r.2
          fun k => (k.holdCtl s.cur.tag false f.a).holdCtl s.cur.tag true f.rb)))))

/-- R254: AST puts one atomic for each index into progress, or into the egress stage inside a segment; AWAIT waits until none is left, and with a barrier object
makes an arrival. -/
def Obligations.AtomicStreams : Prop :=
  (∀ (f : AstF) (s : State) (g : Granted), Ready s (.ast f) → s.here.srcOk s.cur.tag false f.a = true →
    let k := s.here
    let c := s.cur.core
    let v := k.cbOf f.vcb.toNat
    let x := k.cbOf f.icb.toNat
    let n := if f.sz then 8 else 4
    let a := k.addr s.cur.tag false f.a
    let xs := s.indices x
    let els := rowAddrs (idxBits x.attr) a n xs
    let val (i : Nat) : Nat := getElem (8 * n) (s.entryBytes v) i
    let staged (va : Nat) : Bool := k.inSeg && !k.inScratch va
    let parts := els.zip g.runs
    let st := (parts.filter fun p => staged p.1.2).map fun p => StageEnt.atomn p.2.pa f.aop.toNat f.sz (val p.1.1)
    let now := parts.filter fun p => !staged p.1.2
    let last := s.now + xs.length - 1
    let due := s.now + g.lat.getD 0 + xs.length
    v.ents ≠ 0 → x.ents ≠ 0 → v.space = 4 → x.space = 5 → (x.attr = 9 ∨ x.attr = 10) → idxCount x * n ≤ v.size → 1 ≤ x.occ → 1 ≤ v.occ →
    (a % n ≠ 0 → exec (.ast f) s = .next (s.raise .alignment (BitVec.ofNat 64 a) none)) ∧
    (a % n = 0 → s.entryRead x = (s, none) → s.entryRead v = (s, none) →
      s.accessMany (els.map fun p => (p.2, n, { useAtomic with stg := if staged p.2 then some true else none })) = .ok g → s.openFault g.lat = false →
      (st ≠ [] → k.stageRoom < k.egress.length + st.length → Faults (.ast f) s .segmentLegality) ∧
      ((st = [] ∨ k.egress.length + st.length ≤ k.stageRoom) →
        let s1 := g.s.modHere fun k => { (k.holdSrc s.cur.tag false false 0 f.a) with egress := k.egress ++ st }
        let r := now.foldl (fun (r : State × Nat) p =>
          r.1.launch (if g.lat.isSome then some due else none) true [p.2] (.atomic p.2.pa f.aop.toNat f.sz (val p.1.1) 0 0 0 false none)) (s1, 0)
        let s2 := if now = [] then r.1 else (r.1.bindRegs r.2).lateMark g.late due
        let s3 := if f.advi then s2.advanceAt last f.icb.toNat (.cons c f.icb.toNat 1) else s2
        Issues (.ast f) s (if f.advv then s3.advanceAt last f.vcb.toNat (.cons c f.vcb.toNat 1) else s3)))) ∧
  (∀ (f : AwaitF) (s : State), Ready s (.await f) → s.astLeft = false →
    (f.bar = false → Issues (.await f) s s) ∧
    (∀ g : Granted, f.bar = true → s.here.srcOk s.cur.tag true f.n = true → s.here.slotOk s.cur.tag f.a = true →
      let pa := (g.runs.headD { va := 0, pa := 0, len := 0 }).pa
      s.access (s.here.slotVal s.cur.tag f.a % 2 ^ 56) 16 { useWrite with rd := true } none = .ok g → g.runs.length = 1 → s.barrierPlace pa = true →
      s.stampOk pa = true →
      (s.here.inFixed = true → Faults (.await f) s .segmentLegality) ∧
      (s.here.inFixed = false → Issues (.await f) s ((g.s.launch (some (s.now + s.d)) false g.runs
        (.arrive pa (s.here.offVal s.cur.tag true f.n))).1.modHere fun k => k.holdInt s.cur.tag true f.n))))

/-- R256, R257 and R268: HLD and HST move a span, or an entry of a circular buffer in one span or in the planes of a block format; HPRE fills the die's
translation cache and nothing else; HZERO writes zeros. -/
def Obligations.BulkTransfers : Prop :=
  (∀ (f : HldF) (s : State) (g : Granted), s.here.srcOk s.cur.tag false f.a = true → s.here.srcOk s.cur.tag true f.b = true →
    let k := s.here
    let t := s.cur.tag
    let c := s.cur.core
    let a := k.addr t false f.a
    let b := k.ctlVal t true f.b
    let i := f.cb.toNat
    let d := k.cbOf i
    let tag := tagOf f.ten f.tag
    let hold := heHold f.a f.b t
    (f.cbm = false → k.slotOk t f.c = true →
      let n := k.slotVal t f.c
      ((n = 0 ∨ 32 * 2 ^ 20 < b + n) →
        (Ready s (.hld f) → Faults (.hld f) s .illegalOperand) ∧ (Ready s (.hst f) → Faults (.hst f) s .illegalOperand)) ∧
      (n ≠ 0 → b + n ≤ 32 * 2 ^ 20 → s.openFault g.lat = false → s.tagBusy tag = false →
        (Ready s (.hld f) → s.GrantsAll [(a, n, useRead)] (fun _ => true) g → k.hitsProt (winAddr c 6 b) n = false →
          Issues (.hld f) s (s.hldFrom g [s.bufRun c 6 b n] 0 tag none hold)) ∧
        (Ready s (.hst f) → s.issueRead 6 b n = (s, none) → s.GrantsAll [(a, n, useWrite)] (fun as => (fmtsOf as).all fun x => !attrBlock x) g →
          s.outFault g.runs g.attrs = false → Issues (.hst f) s (s.hstFrom g [s.bufRun c 6 b n] tag none hold)))) ∧
    (f.cbm = true →
      (d.ents = 0 → (Ready s (.hld f) → Faults (.hld f) s .illegalOperand) ∧ (Ready s (.hst f) → Faults (.hst f) s .illegalOperand)) ∧
      (d.ents ≠ 0 → d.space ≠ 6 → (Ready s (.hld f) → Faults (.hld f) s .bufferAccess) ∧ (Ready s (.hst f) → Faults (.hst f) s .bufferAccess)) ∧
      (d.ents ≠ 0 → d.space = 6 → s.blockRange a = none → s.openFault g.lat = false → s.tagBusy tag = false →
        (Ready s (.hld f) → 1 ≤ d.room s.now → s.GrantsAll [((a + b) % 2 ^ 56, d.size, useRead)] (fun as => intoCb d (fmtsOf as)) g →
          k.hitsProt (winAddr c 6 (d.entry d.slot)) d.size = false →
          Issues (.hld f) s (s.hldFrom g [s.bufRun c 6 (d.entry d.slot) d.size] 0 tag (some (i, f.adv, d.attr)) hold)) ∧
        (Ready s (.hst f) → 1 ≤ d.occ → s.issueRead 6 (d.entry d.cons.toNat) d.size = (s, none) →
          s.GrantsAll [((a + b) % 2 ^ 56, d.size, useWrite)] (fun as => (fmtsOf as).all fun x => attrRaw x || decide (x = d.attr)) g →
          s.outFault g.runs g.attrs = false →
          Issues (.hst f) s (s.hstFrom g [s.bufRun c 6 (d.entry d.cons.toNat) d.size] tag (if f.adv then some i else none) hold))) ∧
      (∀ r, d.ents ≠ 0 → d.space = 6 → s.blockRange a = some r →
        let fm := awFmt r.attr
        let kk := blocksPer fm d.size
        let b0 := bitsN b 0 40
        let parts := planeParts r fm kk b0 (bitsN b 40 24)
        (r.blocks fm < b0 + kk →
          (Ready s (.hld f) → 1 ≤ d.room s.now → Faults (.hld f) s .illegalOperand) ∧ (Ready s (.hst f) → 1 ≤ d.occ → Faults (.hst f) s .illegalOperand)) ∧
        (b0 + kk ≤ r.blocks fm → s.openFault g.lat = false → s.tagBusy tag = false →
          (Ready s (.hld f) → 1 ≤ d.room s.now →
            let ent := d.entry d.slot
            let gaps := gapsOf d.size 0 (parts.map fun p => (p.2.1, p.2.2))
            let dst := (parts.map fun p => s.bufRun c 6 (ent + p.2.1) p.2.2) ++ gaps.map fun p => s.bufRun c 6 (ent + p.1) p.2
            s.GrantsAll (parts.map fun p => (p.1, p.2.2, useRead)) (fun as => intoCb d (fmtsOf as)) g → (∀ x ∈ dst, k.hitsProt x.va x.len = false) →
            Issues (.hld f) s (s.hldFrom g dst (gaps.map fun p => p.2).sum tag (some (i, f.adv, d.attr)) hold)) ∧
          (Ready s (.hst f) → 1 ≤ d.occ →
            let ent := d.entry d.cons.toNat
            (∀ p ∈ parts, s.issueRead 6 (ent + p.2.1) p.2.2 = (s, none)) →
            s.GrantsAll (parts.map fun p => (p.1, p.2.2, useWrite)) (fun as => (fmtsOf as).all fun x => decide (x = d.attr)) g →
            s.outFault g.runs g.attrs = false →
            Issues (.hst f) s (s.hstFrom g (parts.map fun p => s.bufRun c 6 (ent + p.2.1) p.2.2) tag (if f.adv then some i else none) hold)))))) ∧
  (∀ (f : HpreF) (s : State) (g : Group), Ready s (.hpre f) → s.here.srcOk s.cur.tag false f.a = true → s.here.srcOk s.cur.tag true f.n = true →
    s.groupOf s.cur.core = some g →
    Issues (.hpre f) s ((s.cacheAll (slotOfCore s.cur.core) g.job g.num
      (preKeys (s.viewOf s.cur.core) (s.here.addr s.cur.tag false f.a) (s.here.ctlVal s.cur.tag true f.n))).modHere (heHold f.a f.n s.cur.tag))) ∧
  (∀ (f : HzeroF) (s : State) (g : Granted), Ready s (.hzero f) → s.here.srcOk s.cur.tag false f.a = true → s.here.srcOk s.cur.tag true f.n = true →
    let n := s.here.ctlVal s.cur.tag true f.n
    let tag := tagOf f.ten f.tag
    (n = 0 → Faults (.hzero f) s .illegalOperand) ∧
    (n ≠ 0 → s.GrantsAll [(s.here.addr s.cur.tag false f.a, n, useWrite)] (fun as => (fmtsOf as).all fun x => !attrBlock x) g →
      s.openFault g.lat = false → s.outFault g.runs g.attrs = false → s.tagBusy tag = false →
      let s1 := g.s.takeTag tag
      Issues (.hzero f) s (({ s := s1, lat := g.lat, late := g.late, n := n, links := linksOf s.cur.core g.runs true, src := [], img := List.replicate n 0,
                              dst := g.runs, leaves := none, fins := s1.tagFins tag } : Move).start.s.modHere (heHold f.a f.n s.cur.tag))))

/-- R258 and R259: TCOPY copies or transposes a tile of B SRAM whose source and destination do not overlap; TCVT converts an entry to the format of
another buffer. -/
def Obligations.Transforms : Prop :=
  (∀ (f : TcopyF) (s : State), Ready s (.tcopy f) → s.here.srcOk s.cur.tag false f.a = true → s.here.srcOk s.cur.tag true f.b = true →
    s.here.slotOk s.cur.tag f.c = true → f.c.w = 16 →
    let k := s.here
    let t := s.cur.tag
    let c := s.cur.core
    let es := esBits f.es
    let w := k.slotVal t f.c
    let rows := bitsN w 0 12 + 1
    let cols := bitsN w 12 12 + 1
    let drows := if f.tr then cols else rows
    let dcols := if f.tr then rows else cols
    let src : Tile := { base := k.ctlVal t false f.a, rows := rows, bytes := cols * es / 8, pitch := bitsN w 24 20 }
    let dst : Tile := { base := k.ctlVal t true f.b, rows := drows, bytes := dcols * es / 8, pitch := bitsN w 44 20 }
    let tag := tagOf f.ten f.tag
    let bad := cols * es % 8 ≠ 0 ∨ dcols * es % 8 ≠ 0 ∨ src.pitch < src.bytes ∨ dst.pitch < dst.bytes ∨ 32 * 2 ^ 20 < src.fin ∨ 32 * 2 ^ 20 < dst.fin
    let meets := src.base < dst.fin ∧ dst.base < src.fin
    (bad → Faults (.tcopy f) s .illegalOperand) ∧
    (¬bad → meets → Faults (.tcopy f) s .copyOverlap) ∧
    (¬bad → ¬meets → (∃ p ∈ dst.spans, s.protAt c 6 p.1 p.2 = true) → Faults (.tcopy f) s .segmentLegality) ∧
    (¬bad → ¬meets → (∀ p ∈ dst.spans, s.protAt c 6 p.1 p.2 = false) → s.tagBusy tag = true → Faults (.tcopy f) s .tagBusy) ∧
    (¬bad → ¬meets → (∀ p ∈ dst.spans, s.protAt c 6 p.1 p.2 = false) → s.tagBusy tag = false → (∀ p ∈ src.spans, s.issueRead 6 p.1 p.2 = (s, none)) →
      let el (i j : Nat) : Nat :=
        if es = 4 then (rdNib s.memAhead (2 * s.bufPa c 6 (src.base + i * src.pitch) + j)).toNat
        else rdLe s.memAhead (s.bufPa c 6 (src.base + i * src.pitch + j * es / 8)) (es / 8)
      let cells := (List.range drows).flatMap fun i =>
        cellsAt (s.bufPa c 6 (dst.base + i * dst.pitch)) (packElems es ((List.range dcols).map fun j => if f.tr then el j i else el i j))
      let s1 := s.takeTag tag
      Issues (.tcopy f) s ((s1.launch (some (s.now + (4 + (if f.tr then 2 else 1) * ceilDiv (rows * cols * es / 8) 512) * s.d)) true []
        (.write cells (s1.tagFins tag))).1.modHere fun k => (k.holdCtl t false f.a).holdCtl t true f.b))) ∧
  (∀ (f : TcvtF) (s : State), Ready s (.tcvt f) →
    let k := s.here
    let c := s.cur.core
    let d := k.cbOf f.dcb.toNat
    let x := k.cbOf f.scb.toNat
    let tag := tagOf f.ten f.tag
    let n := entryElems x.attr x.size
    (d.ents = 0 ∨ x.ents = 0 → Faults (.tcvt f) s .illegalOperand) ∧
    (d.ents ≠ 0 → x.ents ≠ 0 → (d.space ≠ 6 ∨ x.space ≠ 6) → Faults (.tcvt f) s .bufferAccess) ∧
    (d.ents ≠ 0 → x.ents ≠ 0 → d.space = 6 → x.space = 6 → 1 ≤ x.occ → 1 ≤ d.room s.now → (cvtAttr d.attr = false ∨ cvtAttr x.attr = false) →
      Faults (.tcvt f) s .format) ∧
    (d.ents ≠ 0 → x.ents ≠ 0 → d.space = 6 → x.space = 6 → 1 ≤ x.occ → 1 ≤ d.room s.now → cvtAttr d.attr = true → cvtAttr x.attr = true →
      entryElems d.attr d.size < n → Faults (.tcvt f) s .illegalOperand) ∧
    (d.ents ≠ 0 → x.ents ≠ 0 → d.space = 6 → x.space = 6 → 1 ≤ x.occ → 1 ≤ d.room s.now → cvtAttr d.attr = true → cvtAttr x.attr = true →
      n ≤ entryElems d.attr d.size → s.protAt c 6 (d.entry d.slot) d.size = false → s.tagBusy tag = false → s.entryRead x = (s, none) →
      let src := s.entryBytes x
      let both := attrT x.attr && attrT d.attr
      let mode (i p : Nat) (half : Bool) : RMode := modeOf (s.rmOf f.rm.toNat) 0 k.seed
        (emberCtr 0 0x50 (k.segno.toNat % 2 ^ 16 * 2 ^ 32 + d.slot % 2 ^ 12 * 2 ^ 20 + i % 2 ^ 20)) (p % 64) half
      let tiles := if both then (src.drop (tileOff x.attr (blocksPer x.attr x.size))).take 64 else (List.range 16).flatMap fun _ => leBytes 4 0x3F800000
      let img := cvtEntry d.attr d.size n (entryVal x.attr x.size src (!both)) mode tiles
      let C := s.now + (4 + ceilDiv (max x.size d.size) 256) * s.d
      let s1 := s.takeTag tag
      let r := s1.launch (some C) true [] (.write (cellsAt (s.bufPa c 6 (d.entry d.slot)) img.1)
        (Fin.resv c f.dcb.toNat s1.nextId :: ((if f.advs then [.cons c f.scb.toNat 1] else []) ++ s1.tagFins tag)))
      Issues (.tcvt f) s ((r.1.reserve c f.dcb.toNat r.2 f.advd d.attr).modHere fun k =>
        { (k.raise C img.2) with
          busy := if f.advs then k.busy ++ [{ res := .cb f.scb.toNat, tick := C + 1, op := none, hold := none, old := [], mask := [] }] else k.busy })))

/-- R260, R261 and R265 to R268: PUSH moves the entry at CONS into a reserved entry of a core of the group, PUSHB a span into the slot of one, with an arrival at
a barrier object; a timed push whose due tick is not that of its arrival traps. -/
def Obligations.Pushes : Prop :=
  (∀ (f : PushF) (s : State) (dc : Nat), Ready s (.push f) → s.here.srcOk s.cur.tag true f.due = true → s.groupCore f.dcore.toNat = some dc →
    let c := s.cur.core
    let i := f.scb.toNat
    let j := f.dcb.toNat
    let x := s.here.cbOf i
    let d := (s.core dc).cbOf j
    let due := s.here.ctlVal s.cur.tag true f.due
    let at' := s.segTick c + (coreLat c dc).getD 0
    let info : W64 := BitVec.ofNat 32 at' ++ 0#10 ++ BitVec.ofNat 14 due ++ BitVec.ofNat 8 f.dcore.toNat
    let bad := x.size ≠ d.size ∨ dueOk f.timed due f.due = false ∨ f.timed = true ∧ coreLat c dc = none
    (x.ents = 0 ∨ d.ents = 0 → Faults (.push f) s .illegalOperand) ∧
    (x.ents ≠ 0 → d.ents ≠ 0 → 1 ≤ x.occ → 1 ≤ d.room s.now → bad → Faults (.push f) s .illegalOperand) ∧
    (x.ents ≠ 0 → d.ents ≠ 0 → 1 ≤ x.occ → 1 ≤ d.room s.now → ¬bad → attrRaw d.attr = false → d.attr ≠ x.attr → Faults (.push f) s .format) ∧
    (x.ents ≠ 0 → d.ents ≠ 0 → 1 ≤ x.occ → 1 ≤ d.room s.now → ¬bad → (attrRaw d.attr = true ∨ d.attr = x.attr) →
      (f.timed ≠ s.here.inFixed → Faults (.push f) s .segmentLegality) ∧
      (f.timed = s.here.inFixed → s.protAt dc d.space (d.entry d.slot) d.size = true → Faults (.push f) s .segmentLegality) ∧
      (f.timed = s.here.inFixed → s.protAt dc d.space (d.entry d.slot) d.size = false →
        (∀ e, f.timed = true → (at' < due ∧ e = Cause.pushEarly ∨ due < at' ∧ e = Cause.pushLate) → s.here.inSeg = true →
          exec (.push f) s = .next (s.raise e info none)) ∧
        ((f.timed = true → at' = due) → s.entryRead x = (s, none) →
          let dst := s.bufRun dc d.space (d.entry d.slot) d.size
          let m : Move := { s := s, lat := if f.timed then coreLat c dc else none, late := none, n := x.size, links := linkOf c dst.pa true, src := [],
                            img := s.entryBytes x, dst := [dst], leaves := some (x.space, x.entry x.cons.toNat), cons := if f.advs then some i else none,
                            fins := [.resv dc j s.nextId] }
          Issues (.push f) s ((m.start.s.reserve dc j m.start.id true x.attr).modHere fun k => k.holdCtl s.cur.tag true f.due))))) ∧
  (∀ (f : PushbF) (s : State) (g : Granted), Ready s (.pushb f) → s.here.srcOk s.cur.tag false f.a = true → s.here.srcOk s.cur.tag true f.due = true →
    s.here.slotOk s.cur.tag f.dst = true → s.here.slotOk s.cur.tag f.c = true → f.c.w = 12 →
    let k := s.here
    let t := s.cur.tag
    let c := s.cur.core
    let w := k.slotVal t f.c
    let n := bitsN w 0 24 + 1
    let due := k.ctlVal t true f.due
    let sva := k.addr t false f.a
    let dva := k.slotVal t f.dst % 2 ^ 56
    let sp := s.peekPas sva n
    let dp := s.peekPas dva n
    let dc := (dp.head?.bind fun r => winCore r.pa).getD c
    let bpa := s.slotPa dc + bitsN w 24 24 * 16
    let bar : Run := { va := 0x0400_0000_0000 + dc * 0x1000_0000 + bitsN w 24 24 * 16, pa := bpa, len := 16 }
    let L := coreLat c dc
    let out := s.inSlots sp (fun d => decide (d = c)) = false ∨ s.inSlots dp (fun d => decide ((s.core d).grp = k.grp)) = false ∨ s.ownAcc (sp ++ dp) = true
    (out → Faults (.pushb f) s .bufferAccess) ∧
    (∀ e, ¬out → s.regionCheck [bar] false = some e → exec (.pushb f) s = .next (s.raise e.1 (faultInfo e.1 e.2) none)) ∧
    (¬out → s.regionCheck [bar] false = none → s.barrierPlace bpa = false → Faults (.pushb f) s .bufferAccess) ∧
    (¬out → s.regionCheck [bar] false = none → s.barrierPlace bpa = true → (dueOk f.timed due f.due = false ∨ f.timed = true ∧ L = none) →
      Faults (.pushb f) s .illegalOperand) ∧
    (¬out → s.regionCheck [bar] false = none → s.barrierPlace bpa = true → dueOk f.timed due f.due = true →
      (f.timed = true → L ≠ none ∧ s.segTick c + L.getD 0 = due) →
      s.GrantsAll [(sva, n, useRead), (dva, n, useWrite)] (fun as => match as with
        | [a, b] => copyPairs a b
        | _ => false) g → f.timed = s.here.inFixed → s.stampOk bpa = true → k.hitsProt bar.va 16 = false →
      let src := cutRuns g.runs 0 n
      let dst := cutRuns g.runs n n
      g.s.readOwn (if f.timed then src else []) (fun x => .stall x) = .stall g.s →
      let sd := g.s.srcSide f.timed src
      Issues (.pushb f) s (({ s := g.s, lat := if f.timed then L else none, late := g.late, n := n, links := linksOf c dst true, src := sd.1, img := sd.2.1,
                              dst := dst, leaves := sd.2.2, fins := [.barrier bpa n] } : Move).start.s.modHere fun k =>
        (k.holdSrc t false false 0 f.a).holdCtl t true f.due)))

/-- R262 to R264: COPY, COPYB and PULL put a copy into progress, COPYD inside a segment defers it to the end of the segment, and COLL sends a contribution made
of what its source holds. -/
def Obligations.CopiesAndCollectives : Prop :=
  (∀ (i : Instr) (dstS : Slot) (a nS : Src) (tag : Option Nat) (bar : Option Slot) (pull defer : Bool) (s : State) (g : Granted),
    ((∃ h dep ten tg, tag = tagOf ten tg ∧ bar = none ∧
        (i = .copy { h := h, dep := dep, ten := ten, tag := tg, dst := dstS, a := a, n := nS } ∧ pull = false ∧ defer = false ∨
          i = .copyd { h := h, dep := dep, ten := ten, tag := tg, dst := dstS, a := a, n := nS } ∧ pull = false ∧ defer = true ∨
          i = .pull { h := h, dep := dep, ten := ten, tag := tg, dst := dstS, a := a, n := nS } ∧ pull = true ∧ defer = false)) ∨
      (∃ h dep o, tag = none ∧ bar = some o ∧ i = .copyb { h := h, dep := dep, dst := dstS, a := a, n := nS, bar := o } ∧ pull = false ∧ defer = false)) →
    Ready s i → s.here.srcOk s.cur.tag false a = true → s.here.srcOk s.cur.tag true nS = true → s.here.slotOk s.cur.tag dstS = true →
    (∀ o, bar = some o → s.here.slotOk s.cur.tag o = true) →
    let k := s.here
    let t := s.cur.tag
    let c := s.cur.core
    let n := k.ctlVal t true nS
    let sva := k.addr t false a
    let dva := k.slotVal t dstS % 2 ^ 56
    let sp := s.peekPas sva n
    let dp := s.peekPas dva n
    let put := defer && k.inSeg
    let hold (k : Core) : Core := (k.holdSrc t false false 0 a).holdCtl t true nS
    let dUse : Use := { useWrite with stg := if put then some true else none }
    let spans : List (Nat × Nat × Use) := [(sva, n, useRead), (dva, n, dUse)] ++ match bar with
      | some o => [(k.slotVal t o % 2 ^ 56, 16, { useWrite with rd := true })]
      | none => []
    let far := if pull then s.inSlots dp (fun d => decide (d = c)) = false else ∃ r ∈ sp, r.pa / 2 ^ 44 ≠ s.modId
    (s.ownAcc (sp ++ dp) = true → Faults i s .bufferAccess) ∧
    (s.ownAcc (sp ++ dp) = false → (n = 0 ∨ 2 ^ 32 ≤ n ∨ far) → Faults i s .illegalOperand) ∧
    (s.ownAcc (sp ++ dp) = false → n ≠ 0 → n < 2 ^ 32 → ¬far →
      s.GrantsAll spans (fun as => match as with
        | x :: y :: _ => copyPairs x y
        | _ => false) g →
      let src := cutRuns g.runs 0 n
      let dst := cutRuns g.runs n n
      let bpa := (cutRuns g.runs (2 * n) 16).head?.map fun r => r.pa
      let fixed := g.lat.isSome && !pull
      let outs := !pull && (s.peek dva n dUse).elim false fun p => s.outFault p.1 p.2
      ((∃ x ∈ src, ∃ y ∈ dst, x.meets y = true) → Faults i s .copyOverlap) ∧
      ((∀ x ∈ src, ∀ y ∈ dst, x.meets y = false) → (∀ p, bpa = some p → s.barrierPlace p = true) →
        (put = true → k.deferred.length < 16 → s.tagBusy tag = false →
          Issues i s ((g.s.takeTag tag).modHere fun k =>
            { (hold k) with deferred := k.deferred ++ [{ src := src, dst := dst, tag := tag, pc := s.hereE.pc }] })) ∧
        (put = true → 16 ≤ k.deferred.length → Faults i s .segmentLegality) ∧
        (put = false → (outs = true ∨ fixed = false ∧ k.inFixed = true) → Faults i s .segmentLegality) ∧
        (put = false → outs = false → (fixed = true ∨ k.inFixed = false) → (∀ p, bpa = some p → s.stampOk p = true) → s.tagBusy tag = false →
          g.s.readOwn (if fixed && s.inSlots src (fun d => decide (d = c)) then src else []) (fun x => .stall x) = .stall g.s →
          let s1 := g.s.takeTag tag
          let sd := s1.srcSide fixed src
          let L := (g.s.runsLat c src).getD (hbmLat c) + (g.s.runsLat c dst).getD (hbmLat c) - 2
          Issues i s (({ s := s1, lat := if fixed then some L else none, late := g.late, n := n, links := (linksOf c src false ++ linksOf c dst true).eraseDups,
                         src := sd.1, img := sd.2.1, dst := dst, leaves := sd.2.2,
                         fins := (bpa.elim [] fun p => [Fin.barrier p n]) ++ s1.tagFins tag } : Move).start.s.modHere hold))))) ∧
  (∀ (f : CollF) (s s1 s2 : State) (bs ms : List Byte) (r0 r1 : List Run), Ready s (.coll f) →
    (s.here.srcOk s.cur.tag false f.a = false → Faults (.coll f) s .illegalOperand) ∧
    (s.here.srcOk s.cur.tag false f.a = true →
      let va := s.here.addr s.cur.tag false f.a
      let d := collDesc bs
      let op := f.op.toNat
      let c := s.cur.core
      let tag := tagOf f.ten f.tag
      let words := (List.range d.ncont).map fun i => getElem 32 ms i
      (∀ r ∈ s.peekPas va 64, r.pa / 2 ^ 44 = s.modId) → s.Reads va 64 (fun _ => true) s1 bs r0 → collFieldsOk op d = true →
      s1.Reads d.memb (4 * d.ncont) (fun _ => true) s2 ms r1 → (∀ w ∈ words, w < 2 ^ 16) →
      let sent (x : State) (g : Granted) (els scales tiles : List Byte) (runs : List Run) : Prop :=
        x.here.inFixed = false → x.tagBusy tag = false → x.queueWrites runs = false →
        ((x.colls.filter fun y => decide (y.xdie = x.xdieOf d.collid)).length < 1024 ∨
          ∃ y ∈ x.colls, ∃ p ∈ y.parts, p.collid = d.collid ∧ p.seq = d.seq) →
        let me : Contrib :=
          { collid := d.collid, seq := d.seq, ncont := d.ncont, rank := d.rank, count := d.count, op := op, sfmt := BitVec.ofNat 5 d.sfmt,
            dfmt := BitVec.ofNat 5 d.dfmt, eblk := d.eblk, root := d.root, members := words, src := els, scales := scales, tiles := tiles, core := some c,
            dst := d.dst, tag := tag, inseg := x.here.inSeg, live := true, pc := x.hereE.pc }
        let s4 := g.s.takeTag tag
        let r := ({ s4 with free := s4.free + 1 } : State).sendOff (x.time + s4.collTicks me) (.contrib me)
        Issues (.coll f) s (((r.1.bindRegs r.2).sendOff neverTick (.collDst d.collid d.seq g.runs)).1.modHere fun k =>
          k.holdSrc s.cur.tag false false 0 f.a)
      (op = 6 → ∀ g, s2.GrantsAll [] (fmtIs (BitVec.ofNat 5 d.dfmt)) g → sent s2 g [] [] [] []) ∧
      (op ≠ 6 → ∀ dst, s2.collDst (BitVec.ofNat 5 d.dfmt) d.dst (collOut op d.count d.ncont) = some dst → s2.dstAway dst = false →
        ((op = 2 ∨ op = 3) → BitVec.ofNat 5 d.sfmt = BitVec.ofNat 5 d.dfmt) →
        ∀ s3 els scales tiles runs, s2.ReadsSource (BitVec.ofNat 5 d.sfmt) d.src d.count s3 els scales tiles runs →
        ∀ g, s3.GrantsAll (dst.map fun p => (p.1, p.2, useWrite)) (fmtIs (BitVec.ofNat 5 d.dfmt)) g → sent s3 g els scales tiles runs)))

/-! ### Operations in progress -/

/-- R217, R222 to R233 and R245: the last cycle of a load makes its plane FULL; a pass enters, stalls for a plane or its rows, or ends a stopped nest; a pass that commits
adds its sums to the working bank; ACC.CLR, ACC.CARRY and the rows of a DRAIN take effect. -/
def Obligations.MatrixEvents : Prop :=
  (∀ (id : Nat) (s : State) (f : Flight) (pl : Bool) (pa lo size next : Nat) (img : List Byte) (fins : List Fin), s.flight id = some f →
    f.work = .plane pl pa lo size next img fins →
    exec (.planeLoadComplete id) s =
      .next (((s.dropFlight id).modCore f.core fun k =>
        let x := k.setPlane pl { (k.planeAt pl) with st := 2, img := img }
        if lo = 0 then { x with ecc := x.ecc.filter fun p => decide (p.1 ≠ .plane pl) } else x).signal fins)) ∧
  (∀ (c : Nat) (s : State) (r : NestRun) (fl : Flight), (s.core c).nestRun = some r → s.flight r.id = some fl →
    let T := s.reckOf c
    let k := s.core c
    let d := k.div 3
    let put (x : State) (t : Nat) : State := { x with flights := x.flights.map fun f => if f.id = r.id then { f with due := t } else f }
    let row := (nRow r.regs r.entered).toNat
    let flip := nFlipAt r.regs r.entered
    let stuck := flip = true ∧ k.shPlane.st ≠ 2 ∨ nRot r.regs = true ∧ s.rowsBusy c row = true
    let since := r.since.getD T
    let started (x : State) (vals : List (Nat × Flags)) : State :=
      ((put x (if r.entered + 1 = r.total then neverTick else T + d)).modCore c fun k => { k with nestRun := some { r with entered := r.entered + 1, since := none } }).addFlight
        { id := 0, core := c, tag := 3, grp := fl.grp, due := T + 516 * d, fixed := true, inseg := fl.inseg, async := true, pos := fl.pos, pc := fl.pc,
          work := .pass row (vals.map fun v => BitVec.ofNat 32 v.1) (BitVec.ofNat 32 (orFlags (vals.map fun v => v.2))) (nRot r.regs) }
    (∀ x, r.stopAt = some x → x < T →
      exec (.nestPassEntry c) s = .next (if s.passesLeft c r.id then put s neverTick else s.endNest c r true)) ∧
    ((∀ x, r.stopAt = some x → T ≤ x) → stuck → T < since + 65536 →
      exec (.nestPassEntry c) s = .next ((put s (T + d)).modCore c fun k => { k with nestRun := some { r with since := some since } })) ∧
    ((∀ x, r.stopAt = some x → T ≤ x) → stuck → since + 65536 ≤ T →
      exec (.nestPassEntry c) s = .next ((put s neverTick).charge { core := c, tag := 3, cause := .schedule, info := 0, pc := some fl.pc } none)) ∧
    ((∀ x, r.stopAt = some x → T ≤ x) → ¬stuck →
      let s1 := if flip then s.modCore c Core.flip else s
      (nRot r.regs = true → s1.consumeBuf c 3 2 fl.pc [((if k.wbank then 0x40000 else 0) + 512 * row, 1024)] = (s1, true) →
        exec (.nestPassEntry c) s = .next (started s1 (rotPass (nHsel r.regs)
          (fun i => nSgn r.regs && r.sign.en && sgnBit r.seed r.sign.qs.toNat ((r.sign.i0.toNat + i) % 2 ^ 48)) (s1.accVals c k.wbank (128 * row) 256).toArray))) ∧
      (nRot r.regs = false →
        let spans := recordSpans k r (nAddr r.regs r.aoff r.entered).toNat
        let s2 := s1.notePorts c 2 T 24 spans
        let act := (s2.core c).actPlane
        s2.consumeBuf c 2 1 fl.pc spans = (s2, true) → s2.consumePlane c fl.pc = (s2, true) →
        exec (.nestPassEntry c) s = .next (started s2 (passAll
          { attr := nAfmt r.regs, bytes := (s2.bufBytes c 1 spans).toArray, n := famK (famOf (nAfmt r.regs)) }
          { attr := act.fmt, bytes := act.img.toArray, n := famK (famOf act.fmt) * famN (famOf act.fmt) } r.ua r.uw))))) ∧
  (∀ (id : Nat) (s : State) (f : Flight) (c : Nat) (sums : List W32) (flags : W32) (rot : Bool) (r : NestRun), s.flight id = some f →
    f.work = .pass c sums flags rot → (s.core f.core).nestRun = some r →
    let k := s.core f.core
    let off := (if k.wbank then 0x40000 else 0) + 512 * c
    let s1 := s.dropFlight id
    let new := ((s.accVals f.core k.wbank (128 * c) sums.length).zip sums).map fun p => if rot then (p.2.toNat, 0) else addCode .fp32 p.1 p.2.toNat
    let s2 := (s1.store (s1.bufPa f.core 2 off) (new.flatMap fun v => leBytes 4 v.1)).modCore f.core fun k =>
      { k.raise (s.reckOf f.core) (flags.toNat ||| orFlags (new.map fun v => v.2)) with passes := k.passes + 1, carryok := false }
    s1.consumeBuf f.core 3 2 f.pc [(off, 4 * sums.length)] = (s1, true) →
    exec (.nestPassCommit id) s = .next (if (r.entered = r.total ∨ r.stopAt ≠ none) ∧ s2.passesLeft f.core id = false
      then s2.endNest f.core r r.stopAt.isSome else s2)) ∧
  (∀ (id : Nat) (s : State) (f : Flight), s.flight id = some f →
    let off (b : Bool) : Nat := if b then 0x40000 else 0
    let s1 := s.dropFlight id
    (∀ b, f.work = .clear b → exec (.accClrComplete id) s =
      .next ((s1.store (s1.bufPa f.core 2 (off b)) (List.replicate 0x40000 0)).modCore f.core fun k => { k with carryok := false })) ∧
    (∀ w, f.work = .carry → w = (s.core f.core).wbank → s1.consumeBuf f.core 3 2 f.pc [(off w, 0x40000)] = (s1, true) →
      exec (.accCarryComplete id) s = .next ((s1.store (s1.bufPa f.core 2 (off !w)) (rdBytes s.mem (s.bufPa f.core 2 (off w)) 0x40000)).modCore f.core
        fun k => { k with carryok := true })) ∧
    (∀ t0 ws flags fins, f.work = .row t0 ws flags fins →
      let T := s.reckOf f.core
      let spans := ws.map fun w => (w.1 - s.bufPa f.core 1 0, 1)
      let clash (b : Nat) : Prop := (∃ l ∈ spanLines spans, l % 24 = b) ∧ ∃ p ∈ (s.core f.core).ports, p.1 = T ∧ p.2.1 < 4 ∧ p.2.2 = b
      ((∀ b, b < 24 → ¬clash b) → exec (.drainRowCommit id) s =
        .next (((((s1.notePorts f.core 4 T 24 spans).storeCells ws).modCore f.core fun k => k.raise T flags.toNat)).signal fins)) ∧
      ((∃ b, b < 24 ∧ clash b) → f.tag = 4 → ∃ t, exec (.drainRowCommit id) s = .next t ∧ t.mem = s.mem ∧ t.flights.length = s.flights.length ∧
        t.flight id = some { f with due := f.due + (s.core f.core).div 4 })))

/-- R85, R144 to R156, R198, R274, R292 and R293: an operation in progress takes effect: a load writes its destination, a write its cells, an atomic exchanges its
word at the bank, a transfer moves its bytes and then signals; a late access pauses its group, and its end ends that pause.
R264, R275, R385 to R391 and R412: a beat that fails its CRC, or a flit that fails nine times in a row, ends its operation with no data moved and a detected error; a
contribution forms, joins or fails its collective; a result writes its destination as the collective's contributions stand. -/
def Obligations.OperationsTakeEffect : Prop :=
  ((∀ (e : Nat → Instr) (id : Nat) (s : State) (f : Flight), s.flight id = some f →
    (e = Instr.memoryEffectCommit ∧ s.roleLost f = false ∨ e = Instr.openTimeLanding ∧ s.staleByte f = none) →
    let s1 := s.endFlight f
    (∀ runs ovl start w fs sat n commit, f.work = .load runs ovl start w fs sat n commit → s1.consumeRuns f runs = (s1, true) →
      let v := intResult sat fs (extI fs (leNat (readRuns s1.mem ovl runs)) (8 * n)) (4 * w)
      exec (e id) s = .next (s1.modCore f.core fun k =>
        (k.landRegs id fun k => { k with scalar := wrSlices k.scalar start w v.1 }).raiseOp f.tag id (max commit (s1.tickOf f)) v.2)) ∧
    (∀ runs ovl start cnt, f.work = .fill runs ovl start cnt → s1.consumeRuns f runs = (s1, true) →
      exec (e id) s = .next (s1.modCore f.core fun k =>
        k.landRegs id fun k => { k with scalar := wrSlices k.scalar start cnt (leNat (readRuns s1.mem ovl runs)) })) ∧
    (∀ ns, f.work = .nibbles ns → exec (e id) s = .next ((s1.storeNibs ns).noteBanks (ns.map fun p => p.1 / 2))) ∧
    (∀ pa n, f.work = .arrive pa n → s1.consumeRuns f [{ va := 0, pa := pa, len := 16 }] = (s1, true) → exec (e id) s = .next (s1.arrive pa n)) ∧
    (f.work = .drained → exec (e id) s = .next (s.dropFlight id))) ∧
  (∀ (id : Nat) (s : State) (f : Flight), s.flight id = some f →
    (s.roleLost f = true → ∀ e, e = Instr.memoryEffectCommit ∨ e = Instr.bankAluAtomic → exec (e id) s = .next ((s.endFlight f).charge
      { core := f.core, tag := f.tag, cause := .bufferAccess, info := 0, pc := some f.pc } none)) ∧
    (∀ a, s.staleByte f = some a → exec (.openTimeLanding id) s = .next ((s.endFlight f).charge
      { core := f.core, tag := f.tag, cause := .remoteMap, info := BitVec.ofNat 64 a, pc := some f.pc } none))) ∧
  (∀ (id : Nat) (s : State) (f : Flight), s.flight id = some f → s.roleLost f = false →
    (∀ ws fins, f.work = .write ws fins → exec (.memoryEffectCommit id) s =
      .next ((((s.endFlight f).storeCells ws).noteBanks (ws.map fun w => w.1)).signal fins)) ∧
    (∀ lanes start w, f.work = .vload lanes start w →
      (s.endFlight f).consumeRuns f (lanes.map fun p => { va := 0, pa := p.2, len := sliceBytes w }) = (s.endFlight f, true) →
      exec (.memoryEffectCommit id) s = .next ((s.endFlight f).modCore f.core fun k => k.landRegs id fun k =>
        { k with lanes := lanes.foldl (fun m p => wrSlices m (laneBase p.1 + start) w (rdLe (s.endFlight f).mem p.2 (sliceBytes w))) k.lanes })) ∧
    (∀ busy, f.work = .late busy → exec (.memoryEffectCommit id) s = .next (s.lateStart f busy)) ∧
    (∀ op off n out fins, f.work = .beats op none off n out fins →
      exec (.memoryEffectCommit id) s = .next (((s.dropFlight id).signal fins).takeHolds f.core f.tag))) ∧
  (∀ (id : Nat) (s : State) (f : Flight) (pa aop : Nat) (s64 : Bool) (x ex start w : Nat) (fs : Bool) (pd : Option Nat), s.flight id = some f →
    f.work = .atomic pa aop s64 x ex start w fs pd →
    let n := if s64 then 8 else 4
    let s1 := s.endFlight f
    let m := rdLe s1.mem pa n
    let hit := decide (aop ≠ 13) || decide (m = ex)
    let s2 := if hit then (s1.store pa (leBytes n (atomNew aop (8 * n) m x))).noteBanks [pa] else s1
    s1.consumeRuns f [{ va := 0, pa := pa, len := n }] = (s1, true) →
    ∀ e : Nat → Instr, (e = Instr.bankAluAtomic ∧ s.roleLost f = false ∨ e = Instr.openTimeLanding ∧ s.staleByte f = none) →
    exec (e id) s = .next (s2.modCore f.core fun k => k.landRegs id fun k =>
      let k : Core := if w = 0 then k else { k with scalar := wrSlices k.scalar start w (wrapI (extI fs m (8 * n)) (4 * w)) }
      match pd with
      | some p => k.setPred p hit
      | none => k)) ∧
  (∀ (e : Nat → Instr) (id : Nat) (s : State) (f : Flight), s.flight id = some f →
    (e = Instr.transferCommit ∨ e = Instr.openTimeLanding ∧ s.staleByte f = none) →
    (∀ src img dst ls last hs fins, f.work = .copy src img dst ls last hs fins → s.consumeRuns f src = (s, true) →
      let bytes := (src.flatMap fun r => rdBytes s.mem r.pa r.len) ++ img
      let ws := (spreadBytes dst bytes).map fun p => (p.2.1, p.2.2)
      let t := ((s.storeCells ws).noteBanks (dst.map fun r => r.pa)).retime f.id f.due (.write [] fins)
      exec (e id) s = .next { t with agenda := .asyncCompletion f.id :: t.agenda }) ∧
    (∀ ws fins, f.work = .write ws fins →
      let t := ((s.storeCells ws).noteBanks (ws.map fun w => w.1)).retime id f.due (.write [] fins)
      exec (e id) s = .next { t with agenda := .asyncCompletion id :: t.agenda })) ∧
  (∀ (id : Nat) (s : State) (f : Flight), s.flight id = some f →
    exec (.asyncCompletion id) s = .next ((s.endFlight f).signal f.work.fins) ∧
    exec (.lateAccessComplete id) s = .next ((s.endFlight f).unclaimOne f.grp 5) ∧
    (∀ die keys, f.work = .walk die keys → exec (.translationCacheFill id) s =
      .next (((s.endFlight f).cacheAll die ((s.group f.grp).elim 0 fun g => g.job) f.grp keys).unclaimOne f.grp 6)))) ∧
  ((∀ (id x y : Nat) (s : State) (f : Flight), s.flight id = some f →
    exec (.linkCrcFailure id x y) s = .next (((s.countDie y).endFlight f).charge
      { core := f.core, tag := f.tag, cause := .linkCrc, info := BitVec.ofNat 64 (x % 256 + y % 256 * 256), pc := some f.pc } none) ∧
    (x < 9 → exec (.flitReplay id x y) s = .next s) ∧
    (9 ≤ x → exec (.flitReplay id x y) s = .next ((s.endFlight f).charge
      { core := f.core, tag := f.tag, cause := .fabricFlit, info := BitVec.ofNat 64 (y % 256), pc := some f.pc } none))) ∧
  (∀ (c : Contrib) (s : State),
    (∀ m, s.goneMember c = some m → exec (.collContributionArrival c) s =
      .next (({ s with colls := s.colls.filter fun y => !y.isOf c } : State).collError (((s.colls.find? fun x => x.isOf c).elim [] fun x => x.parts) ++ [c])
        .moduleDeparted (BitVec.ofNat 64 m))) ∧
    (s.goneMember c = none → (∀ x ∈ s.colls, x.isOf c = false) → c.ncont ≠ 1 → exec (.collContributionArrival c) s =
      .next { s with colls := s.colls ++ [{ xdie := s.xdieOf c.collid, parts := [c], formed := false, received := if c.core = none then [c.rank] else [] }] }) ∧
    (∀ x, s.goneMember c = none → s.colls.find? (fun y => y.isOf c) = some x →
      (∃ p ∈ x.parts, contribSame p c = false) → exec (.collContributionArrival c) s =
        .next (({ s with colls := s.colls.filter fun y => !y.isOf c } : State).collError (x.parts ++ [c]) .collMismatch (BitVec.ofNat 64 c.collid))) ∧
    (∀ x, s.goneMember c = none → s.colls.find? (fun y => y.isOf c) = some x → (∀ p ∈ x.parts, contribSame p c = true) → (∀ p ∈ x.parts, p.rank ≠ c.rank) →
      let received := if c.core = none then (c.rank :: x.received).eraseDups else x.received
      let s1 (full : Bool) : State := { s with colls := s.colls.map fun y => if y.isOf c then
        { x with parts := x.parts ++ [c], formed := full, received := received } else y }
      (x.parts.length + 1 ≠ c.ncont → exec (.collContributionArrival c) s = .next (s1 false).releaseColls) ∧
      (x.parts.length + 1 = c.ncont → x.formed = false →
        exec (.collContributionArrival c) s = .next ((x.parts ++ [c]).foldl State.deliver (s1 true)).releaseColls))) ∧
  (∀ (id : Nat) (s : State) (f : Flight) (me : Contrib) (x : Coll), s.flight id = some f → f.work = .deliver me →
    s.colls.find? (fun y => y.isOf me) = some x → attrBlock me.dfmt = false →
    let img := collResultFor x.parts me
    let n := collOut me.op me.count me.ncont
    let s1 := (s.dropFlight id).dropDst me
    let s2 := if me.op = 6 ∨ n = 0 then s1 else s1.storeVa f.core me.dst (img.els.take (ceilDiv (n * collBits me.dfmt) 8))
    let s3 : State := { s2 with colls := s2.colls.map fun y => if y.isOf me then y.settleRank me.rank (!me.inseg) else y }
    exec (.collResult id) s = .next (((s3.modCore f.core fun k => k.raise (s.reckOf f.core) img.flags).signal
      (me.tag.elim [] fun t => [.tag f.core t])).releaseColls)))

/-! ### Groups, pauses, power and time -/

/-- R74, R124, R155, R279, R282, R325 and R326: a complete barrier lets its cores issue at the same tick, eight after its last arrival; one that stays incomplete,
and a wait that lasts too long, are schedule faults; the end of a claim removes it; a re-entered segment opens again.
R24, R282, R384, R400, R401 and R440: the slots of scrub, refresh and banked cycles claim one tick of the groups they concern, a sag sixteen; TIME is slewed by
one; an estimate of the offset is taken; and a supply below its limit resets the module, fuses and the boot store apart. -/
def Obligations.GroupsAndPauses : Prop :=
  ((∀ (n : Nat) (s : State) (g : Group) (b : Gbar), s.group n = some g → g.bar = some b →
    (∃ t, exec (.gbarRelease n) s = .next t ∧ t.mem = s.mem ∧ t.flights = s.flights ∧ (∃ g', t.group n = some g' ∧ g'.bar = none ∧ g'.reck = g.reck) ∧
      (∀ c ∈ b.cores, ∀ u ∈ (s.core c).eng, ((t.core c).engine u.1).nextAt = max g.reck (b.last + 8)) ∧
      ∀ c, c ∉ b.cores → t.core c = s.core c) ∧
    exec (.gbarTimeout n) s = .next (b.cores.foldl (fun s c => s.charge { core := c, tag := 0, cause := .schedule, info := 0 } none)
      (s.modGroup n fun y => { y with bar := none }))) ∧
  (∀ (c t : Nat) (s : State), exec (.beadDeadlock c t) s = .next ((s.modEngine c t fun e => { e with since := none }).charge
    { core := c, tag := t, cause := .schedule, info := 0 } none)) ∧
  (∀ (c : Nat) (s : State), (s.overdue c = [] → exec (.waitLimitFault c) s = .next s) ∧
    (∀ t, s.overdue c = [t] → exec (.waitLimitFault c) s = .next ((s.modEngine c t fun e => { e with since := none }).charge
      { core := c, tag := t, cause := .schedule, info := 0 } none))) ∧
  (∀ (n : Nat) (s : State) (g : Group), s.group n = some g → g.leave = none → s.carryBad g = none →
    exec (.segmentReentry n) s = .next ((s.reopen g).modGroup n fun y =>
      { y with stopIn := (y.replayTo.map fun t => y.reck + max t 1).or y.stopIn, replayTo := none })) ∧
  (∀ (n src i : Nat) (s : State) (g : Group), s.group n = some g →
    (g.claims.findIdx? fun c => decide (c.src = src) && c.till.elim false fun t => decide (t ≤ s.time)) = some i →
    let t := s.modGroup n fun x => { x with claims := x.claims.eraseIdx i }
    exec (.pauseClaimExpiry n src) s = .next (if 3 ≤ src then t.trace 5 n 0xFF 0xFF src 0 else t))) ∧
  ((∀ s : State,
    exec .patrolScrubSlot s = .next (if s.stackIn 0 then (s.claimSlot 0 fun _ => true).scrub else s) ∧
    exec .refreshSlot s = .next (if s.stackIn 1 then s.claimSlot 1 fun _ => true else s) ∧
    exec .bankedSlot s = .next (s.claimSlot 2 fun g => decide (g.band = 2) || decide (s.thermal = 7)) ∧
    (∃ t, exec .patrolSweepStart s = .next t ∧ { t with therm := s.therm } = s ∧ t.therm.sweepPos = 2 ^ 22 ∧ t.therm.scrubAt = s.time) ∧
    ((420 ≤ s.env.input → s.env.meanPower ≤ s.powerLimit → s.env.railSag = [] → ∃ t, exec .sagCheck s = .next t ∧ t.groups = s.groups ∧ t.mem = s.mem) ∧
      (∀ g : Group, (s.env.input < 420 ∨ s.powerLimit < s.env.meanPower) → s.groups = [g] → (∀ c ∈ g.claims, c.src ≠ 4) → ∃ t, exec .sagCheck s = .next t ∧
        ∃ g', t.groups = [g'] ∧ g'.claims = g.claims ++ [{ src := 4, till := some (s.time + 16) }] ∧ g'.reck = g.reck)) ∧
    (∃ t, exec .supplyReset s = .next t ∧ t.mem = [] ∧ t.cores = [] ∧ t.groups = [] ∧ t.jobs = [] ∧ t.time = State.reset.time ∧ t.env = s.env ∧
      t.boot.store = s.boot.store ∧ t.cregOf 0x728 = s.cregOf 0x728) ∧
    (∃ t, exec .slewStep s = .next t ∧ t.mem = s.mem ∧ t.cores = s.cores ∧
      (s.slew < 0 → t.time = (s.time + 2) % 2 ^ 64 ∧ t.slew = s.slew + 1) ∧ (0 < s.slew → t.time = s.time ∧ t.again = true ∧ t.slew = s.slew - 1) ∧
      (s.slew = 0 → t.time = (s.time + 1) % 2 ^ 64 ∧ t.slew = 0)) ∧
    exec (.timeSyncExchange none) s = .next s ∧
    (∀ o : Int, ∃ t, exec (.timeSyncExchange (some o)) s = .next t ∧ { t with creg := s.creg, slew := s.slew } = s ∧
      t.slew = (if (s.cregOf 0x348).getLsbD 1 then 0 else o) ∧
      (t.cregOf 0x348).getLsbD 0 = decide (-4 ≤ o ∧ o ≤ 4) ∧ (t.cregOf 0x348).getLsbD 1 = (s.cregOf 0x348).getLsbD 1 ∧
      (t.cregOf 0x348).getLsbD 2 = ((s.cregOf 0x348).getLsbD 2 || decide (o < -4 ∨ 4 < o)) ∧ (t.cregOf 0x348).extractLsb' 16 16 = BitVec.ofInt 16 o)))

/-- R397, R399 and R402 to R406: the thermal controller. COOL, RUN, WARM and SELFTEST act in the states that the table of R403 lists for them, and set CMDERR and
change nothing else in any other. A sample reads every slot and moves the state as the table says; the holds of PURGE and SOAK end in COOLING and in QUENCHED,
the time limit of PURGE in WARM-OFF with PURGEERR; STOPPING ends in COOLING, or in WARMING where a warm-up is pending, and what still runs after WAIT ticks is
discarded and saved in a segment and killed in a seam. A change of HUMOK starts or stops the hold of PURGE. An entry to a state changes STATE, HOLD and the times
that the controller counts from, and nothing else. R439: a subscriber is sent the thermal report. -/
def Obligations.ThermalCommands : Prop :=
  ∀ s : State,
    let st := s.thermal
    let cmd (c : Nat) : State := s.putField 0x1A0 0 3 c
    let wrong (x : State) : State := x.putField 0x100 12 1 1
    let holdAt (x : State) (h : Option Nat) : State := ({ x with therm := { x.therm with holdFrom := h } } : State).putHold
    let warmOff (x : State) : State := if (x.cregOf 0x1A0).getLsbD 4 then x.enter 0 else (x.enter 0).putField 0x100 11 1 0
    let pending (x : State) : State := { x with therm := { x.therm with warmPending := true } }
    ((st = 0 → exec .cool s = .next (holdAt ((cmd 1).enter 1) (if s.humok then some s.time else none))) ∧
      (st = 8 → exec .cool s = .next ((cmd 1).enter 2)) ∧
      (st ≠ 0 → st ≠ 8 → exec .cool s = .next (wrong (cmd 1)))) ∧
    ((st = 4 → s.mband ≤ 1 → exec .run s = .next ((cmd 2).enter 5)) ∧
      (st = 4 → s.mband = 2 → exec .run s = .next ((cmd 2).enter 6)) ∧
      (st = 4 → 3 ≤ s.mband → exec .run s = .next ((cmd 2).enter 7).stopAll) ∧
      (st ≠ 4 → exec .run s = .next (wrong (cmd 2)))) ∧
    ((st = 1 → exec .warm s = .next (warmOff (cmd 3))) ∧
      ((st = 2 ∨ st = 3 ∨ st = 4) → exec .warm s = .next ((cmd 3).enter 8)) ∧
      ((st = 5 ∨ st = 6) → exec .warm s = .next (pending ((cmd 3).enter 7).stopAll)) ∧
      (st = 7 → exec .warm s = .next (pending (cmd 3))) ∧
      ((st = 0 ∨ 8 ≤ st) → exec .warm s = .next (wrong (cmd 3)))) ∧
    (∀ failed, (st = 0 → exec (.selftest failed) s = .next (failed.foldl (fun x d => x.changeStatus d 2) (cmd 4))) ∧
      (st ≠ 0 → exec (.selftest failed) s = .next (wrong (cmd 4)))) ∧
    ((st = 1 → exec .purgeComplete s = .next (s.enter 2)) ∧ (st ≠ 1 → exec .purgeComplete s = .next s)) ∧
    ((st = 1 → exec .purgeTimeout s = .next ((warmOff s).putField 0x100 9 1 1)) ∧ (st ≠ 1 → exec .purgeTimeout s = .next s)) ∧
    ((st = 3 → ∃ t, exec .soakComplete s = .next t ∧ (s.env.silent = [] → t.thermal = 4 ∧ t.cores = [] ∧ t.therm.sweepPos = 2 ^ 22 ∧ t.therm.scrubAt = s.time ∧
        t.hbmKept = true ∧ ∀ a, (winCore a).isSome ∧ a / 2 ^ 44 = s.modId ∨ s.hbmKept = false ∧ isHbm a ∧ a / 2 ^ 44 = s.modId → rdByte t.mem a = 0)) ∧
      (st ≠ 3 → exec .soakComplete s = .next s)) ∧
    ((st = 7 → exec .stoppingComplete s =
        .next (({ s with therm := { s.therm with warmPending := false } } : State).enter (if s.therm.warmPending then 8 else 2))) ∧
      (st ≠ 7 → exec .stoppingComplete s = .next s)) ∧
    ((s.groups = [] → exec .stopwaitExpiry s = .next s) ∧
      (∀ g : Group, s.groups = [g] → g.stopped = false → exec .stopwaitExpiry s = .next { s with groups :=
        [g.setPend (g.cores.headD 0) (if s.groupInSeg g then .checkpoint 0 none else .kill)] })) ∧
    (∀ ok, let x := s.putField 0x100 7 1 (if ok then 1 else 0)
      (st = 1 → ok = false → exec (.humokChange ok) s = .next (holdAt x none)) ∧
      (st = 1 → ok = true → s.humok = false → exec (.humokChange ok) s = .next (holdAt x (some s.time))) ∧
      (st = 1 → ok = true → s.humok = true → exec (.humokChange ok) s = .next (holdAt x (some (s.therm.holdFrom.getD s.time)))) ∧
      (st ≠ 1 → exec (.humokChange ok) s = .next x)) ∧
    (let x := if st = 2 ∧ s.env.hotFall = true ∨ st = 8 ∧ s.env.hotRise = true then s.sampleAll.putField 0x100 8 1 1 else s.sampleAll
      let bands (p : Nat → Prop) : Prop := ∀ d, 1 ≤ d → d ≤ 38 → p (x.bandOf d)
      ((st = 0 ∨ st = 1) → exec .thermalSample s = .next x.putHold) ∧
      (st = 2 → (∀ d, 1 ≤ d → d ≤ 38 → x.dieStatus d = 0 → x.bandOf d = 0) → exec .thermalSample s = .next (holdAt (x.enter 3) (some s.time)).putHold) ∧
      (st = 2 → (∃ d, 1 ≤ d ∧ d ≤ 38 ∧ x.dieStatus d = 0 ∧ x.bandOf d ≠ 0) → exec .thermalSample s = .next x.putHold) ∧
      (st = 3 → (∃ d, 1 ≤ d ∧ d ≤ 38 ∧ 2 ≤ x.bandOf d) → exec .thermalSample s = .next (x.enter 2).putHold) ∧
      (st = 3 → bands (fun b => b < 2) → ¬bands (fun b => b = 0) → exec .thermalSample s = .next (holdAt x (some s.time))) ∧
      (st = 3 → bands (fun b => b = 0) → exec .thermalSample s = .next x.putHold) ∧
      (st = 4 → x.mband < 3 → s.autorun = false → exec .thermalSample s = .next x.putHold) ∧
      (st = 4 → x.mband < 3 → s.autorun = true → exec .thermalSample s = .next (x.enter (if x.mband ≤ 1 then 5 else 6)).putHold) ∧
      (st = 5 → x.mband ≤ 1 → exec .thermalSample s = .next x.putHold) ∧
      (st = 5 → x.mband = 2 → exec .thermalSample s = .next (x.enter 6).putHold) ∧
      (st = 6 → x.mband = 2 → exec .thermalSample s = .next x.putHold) ∧
      (st = 6 → x.mband ≤ 1 → exec .thermalSample s = .next (x.enter 5).putHold) ∧
      ((st = 4 ∨ st = 5 ∨ st = 6) → 3 ≤ x.mband → exec .thermalSample s = .next (x.enter 7).stopAll.burnGroups.putHold) ∧
      (st = 7 → exec .thermalSample s = .next x.burnGroups.putHold) ∧
      (st = 8 → (∃ n, n < 39 ∧ ∃ r ∈ x.readings n, ∀ v, r = some v → v < 64 * 283) → exec .thermalSample s = .next x.putHold) ∧
      (9 ≤ st → exec .thermalSample s = .next x.putHold) ∧
      (st = 8 → (∀ n, n < 39 → ∀ r ∈ x.readings n, ∃ v, r = some v ∧ 64 * 283 ≤ v) → exec .thermalSample s = .next (warmOff x).putHold)) ∧
    ((s.portUp = true → s.boot.subscribed = true → exec .thermalReport s =
        .next { s with boot := { s.boot with out := s.boot.out ++ [{ typ := 2, seq := 0, body := s.thermBody }] } }) ∧
      ((s.portUp = false ∨ s.boot.subscribed = false) → exec .thermalReport s = .next s)) ∧
    ∀ n, n < 16 →
      (s.enter n).thermal = n ∧ (s.enter n).therm = { s.therm with since := s.time, holdFrom := none } ∧ bitsN ((s.enter n).cregOf 0x100).toNat 16 16 = 0 ∧
      (∀ b, 4 ≤ b → b < 64 → (b < 16 ∨ 32 ≤ b) → ((s.enter n).cregOf 0x100).getLsbD b = (s.cregOf 0x100).getLsbD b) ∧
      (∀ o, o ≠ 0x100 → (s.enter n).cregOf o = s.cregOf o) ∧ { s.enter n with creg := s.creg, therm := s.therm } = s

/-- R425 to R429: a debug command is noted in its group's control register; STOP, RUN, STEP and SNAP act on a group in the state that they need, and are errors
elsewhere; REVSTEP discards the open segment of a stopped group, to run again up to its engine's last issue. -/
def Obligations.DebugCommands : Prop :=
  ∀ (n : Nat) (s : State), n < 8 →
    let off := 0x600 + 8 * n
    let noted (t : State) (c : Nat) : Prop := t.mem = s.mem ∧ bitsN (t.cregOf off).toNat 1 3 = c
    let wrong (i : Instr) (c : Nat) : Prop := ∃ t, exec i s = .next t ∧ noted t c ∧ t.groups = s.groups ∧ t.cores = s.cores ∧ (t.cregOf off).getLsbD 5 = true
    ((∀ g, s.group n = some g → g.stopped = true) → wrong (.stop n) 1) ∧
    ((∀ g, s.group n = some g → g.stopped = false) →
      wrong (.debugRun n) 2 ∧ wrong (.step n) 3 ∧ wrong (.revstep n) 4 ∧ wrong (.snap n) 5) ∧
    (∀ g, s.group n = some g → g.stopped = false → ∃ t, exec (.stop n) s = .next t ∧ noted t 1 ∧ t.cores = s.cores ∧
      t.group n = some { g with stopIn := some (g.reck + 1) }) ∧
    (∀ g, s.group n = some g → g.num = n → g.stopped = true → (s.cregOf 0x650).getLsbD 0 = false →
      (∃ t g', exec (.debugRun n) s = .next t ∧ noted t 2 ∧ t.cores = s.cores ∧ t.group n = some g' ∧ g'.stopped = false ∧ g'.stopIn = none ∧ g'.reck = g.reck) ∧
      (∃ t g', exec (.step n) s = .next t ∧ noted t 3 ∧ t.cores = s.cores ∧ t.group n = some g' ∧ g'.stopped = false ∧ g'.stopIn = some (g.reck + 2) ∧
        g'.reck = g.reck) ∧
      (∀ p, (s.dbgCmd n 4).dbgTarget g = some p → s.groupInSeg g = true → g.pend = none → ∃ t g', exec (.revstep n) s = .next t ∧ noted t 4 ∧ t.cores = s.cores ∧
        t.group n = some g' ∧ g'.stopped = false ∧ g'.replayTo = some ((s.core p.1).lastTick p.2) ∧ g'.pend ≠ none) ∧
      (∀ p, (s.dbgCmd n 5).dbgTarget g = some p → exec (.snap n) s = .next ((s.dbgCmd n 5).storeCells
        (cellsAt (bitsN (s.cregOf 0x640).toNat 12 40 * 4096) ((s.dbgCmd n 5).snapImage p.1 (g.reck + 1))))))

/-! ### The host's channels -/

/-- R346 to R351, R353, R354 and R359: the doorbell has the submissions consumed in order; each is answered by one entry with its status; jobs, phases, graphs and launches are
entered, ended and cancelled as their conditions allow; the oldest entry that waits goes to the completion ring when it has room.
R328, R339 to R345, R352, R353, R357 and R441: a unit starts on the first shape of its launch for which a group can be formed, or resumes from its frame; a trace that cannot be
replayed ends its launch; a complete unit releases its group and counts; victims leave for a unit that needs their dies; a sample charges energy. -/
def Obligations.HostJobs : Prop :=
  ((∀ (v : W64) (s : State),
    let s1 := s.setCreg 0x308 v
    let h := s1.headerPa 0x300
    let f (o n : Nat) : Nat := rdLe s1.mem (h + o) n
    let head := f 0x20 8 % f 8 4
    let tail := f 0x18 8 % f 8 4
    let s2 := s1.putHeader h 0x38 s1.nextSub
    let pa := s2.ringPa (f 0 8 + 64 * head)
    let g (o n : Nat) : Nat := rdLe s2.mem (pa + o) n
    let e : Sbm := { seq := g 0 8, flags := g 0xA 2, handle := g 0x10 8, arg0 := g 0x18 8, arg1 := g 0x20 8, arg2 := g 0x28 8 }
    let s3 : State := { (s2.putHeader h 0x20 ((head + 1) % f 8 4)).putHeader h 0x38 (s2.nextSub + 1) with nextSub := s2.nextSub + 1 }
    (ringOk (f 8 4) = false → exec (.jcring v) s = .next s1) ∧
    (ringOk (f 8 4) = true → head = tail → exec (.jcring v) s = .next s2) ∧
    (ringOk (f 8 4) = true → head ≠ tail → e.seq ≠ s2.nextSub → exec (.jcring v) s = .next (s2.ack e 2)) ∧
    (ringOk (f 8 4) = true → head ≠ tail → e.seq = s2.nextSub →
      (∀ i, sbmInstr (g 8 2) e = some i → exec (.jcring v) s = .next { s3 with agenda := i :: .jcring v :: s3.agenda }) ∧
      (sbmInstr (g 8 2) e = none → exec (.jcring v) s = .next { s3.ack e 1 with agenda := .jcring v :: (s3.ack e 1).agenda }))) ∧
  (∀ (s : State) (e : CqEnt) (rest : List CqEnt), s.cqWait = e :: rest →
    let h := s.headerPa 0x300
    let f (o n : Nat) : Nat := rdLe s.mem (h + o) n
    let tail := f 0x28 8 % f 0xC 4
    let full := (tail + 1) % f 0xC 4 = f 0x30 8 % f 0xC 4
    (ringOk (f 0xC 4) = false ∨ full → exec .completionEntryPost s = .next s) ∧
    (ringOk (f 0xC 4) = true → ¬full → s.itemOf e.handle e.sub = none → exec .completionEntryPost s =
      .next ((({ s with cqWait := rest, cqSeq := s.cqSeq + 1 } : State).store (s.ringPa (f 0x10 8 + 64 * tail))
        (leBytes 8 (s.cqSeq + 1) ++ leBytes 8 e.ack ++ leBytes 2 e.kind ++ leBytes 2 e.status ++ leBytes 4 e.sub ++ leBytes 8 e.handle ++
          padTo 32 (e.data.take 32))).putHeader h 0x28 ((tail + 1) % f 0xC 4)))) ∧
  (∀ (e : Sbm) (s : State),
    (s.handleUsed e.handle = true → exec (.job e) s = .next (s.ack e 1)) ∧
    (s.handleUsed e.handle = false → ∃ j, j.handle = e.handle ∧ j.pool = e.arg0 ∧ j.poolLen = e.arg1 ∧ j.phases = [] ∧ j.ranges = [] ∧ j.leaves = [] ∧
      exec (.job e) s = .next ((({ s with jobs := s.jobs ++ [j] } : State).putCtr (.job e.handle) id).ack e 0)) ∧
    (s.job e.handle = none → exec (.phase e) s = .next (s.ack e 5) ∧ exec (.phaseEnd e) s = .next (s.ack e 5) ∧ exec (.jobEnd e) s = .next (s.ack e 5)) ∧
    (∀ j, s.job e.handle = some j →
      ((j.ended = true ∨ j.openPhase ≠ none ∨ s.counterOk j e.arg0 = false) → exec (.phase e) s = .next (s.ack e 1)) ∧
      (j.ended = false → j.openPhase = none → s.counterOk j e.arg0 = true →
        let p : Phase := { no := j.phases.length, ctr := Counter.new e.arg0 0, closed := false }
        exec (.phase e) s = .next (((s.modJob e.handle fun j => { j with phases := j.phases ++ [p] }).putCtr (.phase e.handle p.no) id).ack e 0 (p.no + 1))) ∧
      (j.openPhase = none → exec (.phaseEnd e) s = .next (s.ack e 1)) ∧
      (∀ p, j.openPhase = some p → j.ended = false →
        let r := (s.modJob e.handle fun j => j.modPhase p.no fun p => { p with closed := true }).setTotal (.phase e.handle p.no)
          (s.graphs.filter fun g => decide (g.job = e.handle ∧ g.phase = p.no)).length
        exec (.phaseEnd e) s = .next ((if r.2 then r.1.phaseDone e.handle else r.1).ack e 0 (p.no + 1))) ∧
      ((j.ended = true ∨ j.openPhase ≠ none) → exec (.jobEnd e) s = .next (s.ack e 1)) ∧
      (j.ended = false → j.openPhase = none → exec (.jobEnd e) s =
        .next (((s.modJob e.handle fun j => { j with closed := true }).setTotal (.job e.handle) j.phases.length).1.ack e 0)))) ∧
  (∀ (e : Sbm) (s : State),
    (∀ st, s.workPlace e = .error st → exec (.graph e) s = .next (s.ack e st) ∧ exec (.launch e) s = .next (s.ack e st)) ∧
    (∀ j ph, s.workPlace e = .ok (j, ph) →
      (∀ st, s.readLaunch j e.arg1 [] = .error st → exec (.launch e) s = .next (s.ack e st)) ∧
      (∀ n, s.readLaunch j e.arg1 [] = .ok n → exec (.launch e) s =
        .next (((s.holdLowered n).addGraph { handle := e.handle, single := true, job := j.handle, phase := ph, ctr := Counter.new 0 1, nodes := [n] }).ack e 0)) ∧
      (e.arg1 % 64 ≠ 0 → exec (.graph e) s = .next (s.ack e 1)) ∧
      (∀ d bs nodes, e.arg1 % 64 = 0 → s.jobRead j e.arg1 24 awR = some d →
        let n := fieldAt d 0 4
        n ≠ 0 → n ≤ 4096 → fieldAt d 4 4 = 0 → s.counterOk j (fieldAt d 0x10 8) = true → s.jobRead j (fieldAt d 8 8) (32 * n) awR = some bs →
        s.readNodes j ((List.range n).map fun i => (bs.drop (32 * i)).take 32) = .ok nodes → exec (.graph e) s =
        .next (((nodes.foldl State.holdLowered s).addGraph { handle := e.handle, single := false, job := j.handle, phase := ph, ctr := Counter.new (fieldAt d 0x10 8) n, nodes := nodes }).ack e 0)))) ∧
  (∀ (e : Sbm) (s : State),
    let lv := e.flags % 4
    let r (level arg : Nat) (destroy : Bool) : CancelRec := { id := s.cancelId, level := level, handle := e.handle, arg := arg, destroy := destroy }
    let cut (level arg : Nat) : State := (s.levelNodes level e.handle arg).foldl (fun s p => s.cancelNode p.1 p.2 (bitN e.flags 2)) s
    (s.cancelItem lv e.handle e.arg0 = none → exec (.cancel e) s = .next (s.ack e 5)) ∧
    (∀ i, s.cancelItem lv e.handle e.arg0 = some i →
      (s.itemOver i = true → exec (.cancel e) s = .next (s.ack e 3 (s.subOf i))) ∧
      (s.itemOver i = false →
        let t := cut lv e.arg0
        let t : State := { t with cancels := t.cancels ++ [r lv e.arg0 false], cancelId := t.cancelId + 1 }
        exec (.cancel e) s = .next (t.ack e 0 (t.subOf i)))) ∧
    (s.job e.handle = none → exec (.jobDestroy e) s = .next (s.ack e 5)) ∧
    (∀ j, s.job e.handle = some j → s.itemOver (.job e.handle) = true →
      let t := ({ s with cancels := s.cancels ++ [r 3 0 true], cancelId := s.cancelId + 1 } : State).modJob e.handle fun j => { j with destroyed := true }
      exec (.jobDestroy e) s = .next (t.ack e 3 (t.subOf (.job e.handle))))) ∧
  (∀ (n : Nat) (s : State) (r : CancelRec) (i : Item), s.cancels.find? (fun r => decide (r.id = n)) = some r →
    let s1 : State := { s with cancels := s.cancels.filter fun x => decide (x.id ≠ n) }
    s1.cancelItem r.level r.handle r.arg = some i → r.destroy = false →
    let s2 := s1.stampItems (s1.levelItems r.level r.handle r.arg) 3
    exec (.cancelComplete n) s = .next (if s1.itemOver i then s2 else s2.postItem i 2 0 (s2.energyData i))) ∧
  (∀ (e : Sbm) (s : State),
    (∀ st, s.namedNode e = .error st → exec (.resume e) s = .next (s.ack e st) ∧ exec (.quota e) s = .next (s.ack e st)) ∧
    (∀ g n x r, s.namedNode e = .ok (g, n) → s.node g n = some x → x.cancelled = false → x.units.find? (fun r => decide (r.u = e.arg0)) = some r →
      let done (t : State) : Prop := exec (.resume e) s = .next (t.ack e 0 (t.subOf (.node g n)))
      (r.st = .stoppedFrame → done (s.modUnit g n r.u fun r => { r with st := .ready })) ∧
      (∀ num y, r.st = .running num → s.group num = some y → y.held ≠ none → done (s.unhold y))) ∧
    (∀ g n, s.namedNode e = .ok (g, n) →
      let s1 := s.modNode g n fun x => { x with energyQ := if x.energyQ = 0 then 0 else x.energyQ + e.arg0 }
      let s2 := if (s1.ctrOf (.node g n)).elim false fun c => decide (c.st = 5) then s1.putCtr (.node g n) fun c => { c with st := 1 } else s1
      exec (.quota e) s = .next (s2.ack e 0 (s2.subOf (.node g n)))))) ∧
  ((∀ (gi ni u : Nat) (s : State) (n : Node), s.node gi ni = some n →
    (s.badTrace gi n = true → exec (.unitStart gi ni u) s = .next ((s.endLaunch gi ni).postItem (.node gi ni) 4 1 [])) ∧
    (∀ x sh t, s.badTrace gi n = false → (s.starts gi n).find? (fun x => decide (x.u = u)) = some x → s.shapeFor x.shapes = some sh →
      s.startUnit gi ni u sh = some t →
      exec (.unitStart gi ni u) s = .next (t.modNode gi ni fun m => { m with nextK := x.nextK, traced := if n.det = 2 then x.traced else m.traced }))) ∧
  (∀ (gi ni u : Nat) (s : State) (n : Node) (gr : Graph) (r : UnitRec), s.node gi ni = some n → s.graphs[gi]? = some gr →
    n.units.find? (fun r => decide (r.u = u)) = some r →
    (s.frameOf gi r = none → exec (.unitResume gi ni u) s = .next (s.endLaunch gi ni)) ∧
    (∀ f, s.frameOf gi r = some f →
      (ctxOk r f = false → exec (.unitResume gi ni u) s = .next (s.endLaunch gi ni)) ∧
      (∀ sh g, ctxOk r f = true → s.shapeFor (resumeShapes n r (some f)) = some sh → s.formGroup sh gi ni u gr.job = some g →
        exec (.unitResume gi ni u) s = .next (s.restoreUnit g n r f)))) ∧
  (∀ (n : Nat) (s : State) (g : Group), s.group n = some g →
    let s1 := s.sampleEnergy g.dies
    let s2 := (s1.coreset g).foldl (fun s p => s.snapshot p.1 1 0 (((s.core p.1).engine 0).pc - 1)) s1
    let s3 := s2.takeDigest g
    let s4 := s3.trace 11 n 0xFF 0xFF g.unit ((s3.graphs[g.graph]?).elim 0 fun gr => gr.handle)
    exec (.unitComplete n) s = .next (((((s4.freeGroup g).dropFrame g.graph g.node g.unit).modUnit g.graph g.node g.unit
      fun r => { r with st := .finished }).unitDone g.graph g.node).checkQuota g.graph g.node)) ∧
  (∀ (gi ni shape : Nat) (s : State), s.wishOf gi ni = some (.room shape) →
    let tokens := (s.node gi ni).elim 0 fun n => n.tokens
    exec (.preemption gi ni) s = .next (((s.victims tokens shape).getD []).foldl (fun s g => s.evict tokens g) s)) ∧
  (∀ s : State, let s1 := s.sampleEnergy (List.range 40)
    exec .energySample s = .next ((s1.nodesWhere fun _ _ => true).foldl (fun s p => s.checkQuota p.1 p.2) s1)))

/-- R361 to R379, R417, R418 and R447: requests of the memory processor: an unknown job is answered by NOHANDLE, one outside its limits by INVALID and no change, any other takes
effect and is answered once when every group has it; a notification goes to its ring when it has room. -/
def Obligations.MemoryRequests : Prop :=
  (∀ i ∈ ([.heap, .mapr, .mapp, .prot, .unmap, .migbegin, .migend, .cntrst, .query, .deny] : List (Req → Instr)), ∀ (r : Req) (s : State),
    s.job r.job = none → exec (i r) s = .next (s.respond r 5 0 none)) ∧
  (∀ (v : W64) (s : State),
    let s1 := s.setCreg 0x328 v
    let h := s1.headerPa 0x320
    let f (o n : Nat) : Nat := rdLe s1.mem (h + o) n
    let head := f 0x20 8 % f 8 4
    let tail := f 0x18 8 % f 8 4
    let s2 := s1.putHeader h 0x38 s1.nextReq
    let pa := s2.ringPa (f 0 8 + 64 * head)
    let g (o n : Nat) : Nat := rdLe s2.mem (pa + o) n
    let r : Req :=
      { seq := g 0 8, flags := g 0xA 2, job := g 0x10 8, va := g 0x18 8, len := g 0x20 8, arg0 := g 0x28 8, arg1 := g 0x30 8, arg2 := g 0x38 8 }
    let s3 : State := { (s2.putHeader h 0x20 ((head + 1) % f 8 4)).putHeader h 0x38 (s2.nextReq + 1) with nextReq := s2.nextReq + 1 }
    (ringOk (f 8 4) = false → exec (.mpring v) s = .next s1) ∧
    (ringOk (f 8 4) = true → head = tail → exec (.mpring v) s = .next s2) ∧
    (ringOk (f 8 4) = true → head ≠ tail → r.seq ≠ s2.nextReq →
      exec (.mpring v) s = .next (s2.postNq { kind := 0, size := 0, status := 2, count := r.seq % 2 ^ 32, job := r.job, va := r.va })) ∧
    (ringOk (f 8 4) = true → head ≠ tail → r.seq = s2.nextReq →
      (∀ i, reqInstr (g 8 2) r = some i → exec (.mpring v) s = .next { s3 with agenda := i :: .mpring v :: s3.agenda }) ∧
      (reqInstr (g 8 2) r = none → exec (.mpring v) s = .next { s3.respond r 1 0 none with agenda := .mpring v :: s3.agenda }))) ∧
  (∀ (s : State) (e : NqEnt) (rest : List NqEnt), s.nqWait = e :: rest →
    let h := s.headerPa 0x320
    let f (o n : Nat) : Nat := rdLe s.mem (h + o) n
    let tail := f 0x28 8 % f 0xC 4
    let full := (tail + 1) % f 0xC 4 = f 0x30 8 % f 0xC 4
    (ringOk (f 0xC 4) = false ∨ full → exec .notificationPost s = .next s) ∧
    (ringOk (f 0xC 4) = true → ¬full → exec .notificationPost s =
      .next ((({ s with nqWait := rest, nqSeq := s.nqSeq + 1 } : State).store (s.ringPa (f 0x10 8 + 32 * tail))
        (leBytes 8 (s.nqSeq + 1) ++ leBytes 1 e.kind ++ leBytes 1 e.size ++ leBytes 2 e.status ++ leBytes 4 e.count ++ leBytes 8 e.job ++
          leBytes 8 e.va)).putHeader h 0x28 ((tail + 1) % f 0xC 4)))) ∧
  (∀ (q : Nat) (s : State) (r : Resp), s.resps.find? (fun r => decide (r.seq = q)) = some r →
    (s.respReady r = true → exec (.requestResponse q) s = .next (({ s with resps := s.resps.filter fun x => decide (x.seq ≠ q) } : State).postNq r.ent)) ∧
    (s.respReady r = false → exec (.requestResponse q) s = .next s)) ∧
  (∀ (r : Req) (s : State) (j : Job), s.job r.job = some j →
    (r.va % 65536 ≠ 0 ∨ r.len % 65536 ≠ 0 → exec (.heap r) s = .next (s.respond r 1 0 none) ∧ exec (.mapr r) s = .next (s.respond r 1 0 none)) ∧
    (r.va % 65536 = 0 → r.len = 0 → r.arg0 % 65536 = 0 → r.va < 2 ^ 56 → r.arg1 < 2 ^ 16 →
      let a := BitVec.ofNat 16 r.arg1
      attrOk a false false (some ((r.va + r.arg0 % 2 ^ 56) % 2 ^ 56)) = true → awR a = true → awX a = false → awWb a = false → awCnt a = false → awHost a = false →
      attrBlock (awFmt a) = false → exec (.heap r) s = .next ((s.modJob r.job fun j =>
        { j with heapb := BitVec.ofNat 64 (r.va + a.toNat), heapl := BitVec.ofNat 64 r.len, heapo := BitVec.ofNat 64 (r.arg0 % 2 ^ 56) }).respond r 0 0 none)) ∧
    (r.va % 65536 = 0 → r.len % 65536 = 0 → r.len ≠ 0 → r.va + r.len ≤ 2 ^ 56 → r.arg0 % 2 ^ 56 = 0 → r.arg1 / 2 ^ 16 = 1 →
      j.hitsHeap r.va r.len = false → j.hitsRange r.va r.len = false → j.hitsLeaf r.va r.len = false →
      let a := BitVec.ofNat 16 r.arg1
      attrOk a false false none = true → planesOk (awFmt a) (r.arg2 % 2 ^ 32) (r.arg2 / 2 ^ 32) (r.len / 65536) = true →
      let x : Range := { base := r.va, limit := r.va + r.len, off := 0, attr := a, paged := true, revoking := false, esz := r.arg2 % 2 ^ 32, ssz := r.arg2 / 2 ^ 32 }
      exec (.mapr r) s = .next ((s.modJob r.job fun j => { j.unrevoke r.va r.len with ranges := j.ranges ++ [x] }).respond r 0 0 none)) ∧
    (r.flags = 4 → r.va % 65536 = 0 → r.va + 65536 ≤ 2 ^ 56 → r.arg0 < 2 ^ 52 → r.arg0 % 65536 = 0 → r.arg1 < 2 ^ 16 → attrOk (BitVec.ofNat 16 r.arg1) true false (some r.arg0) = true →
      j.hitsHeap r.va 65536 = false → j.hitsRange r.va 65536 = false → j.hitsLeaf r.va 65536 = false → j.pendingAt r.va 65536 = false →
      (awW (BitVec.ofNat 16 r.arg1) = true → s.wrBusy r.job r.va r.arg0 65536 = false) →
      s.mixedRights r.job (some r.va) r.arg0 65536 (awW (BitVec.ofNat 16 r.arg1)) = false →
      let s1 := s.modJob r.job fun j => j.unrevoke r.va 65536
      let l : Leaf :=
        { va := r.va, size := 65536, attr := BitVec.ofNat 16 r.arg1, pres := true, mig := false, revoking := false, pa := r.arg0, count := 0, noticed := false }
      exec (.mapp r) s = .next ((({ s1 with freef := s1.freef - 1 } : State).modJob r.job fun j => { j with leaves := j.leaves ++ [l] }).respond r 0 0 none)) ∧
    (j.cutSpan r.va r.len = none → exec (.prot r) s = .next (s.respond r 1 0 none) ∧ exec (.unmap r) s = .next (s.respond r 1 0 none)) ∧
    (∀ j', j.cutSpan r.va r.len = some j' →
      exec (.unmap r) s = .next (((s.modJob r.job fun _ => j').respond r 0 0 none).addChange r .unmap r.va r.len none) ∧
      (2 ^ 16 ≤ r.arg0 → exec (.prot r) s = .next (s.respond r 1 0 none)) ∧
      (r.arg0 < 2 ^ 16 → ∃ t, exec (.prot r) s = .next t ∧ t.mem = s.mem ∧ t.cores = s.cores ∧ t.groups = s.groups)) ∧
    (j.leafAt r.va = none → exec (.migbegin r) s = .next (s.respond r 1 0 none) ∧ exec (.migend r) s = .next (s.respond r 1 0 none)) ∧
    (∀ l, j.leafAt r.va = some l →
      (l.pres = true → l.mig = false → l.revoking = false → awPin (j.leafAttr l) = false → j.pendingAt l.va l.size = false → exec (.migbegin r) s =
        .next ((s.modJob r.job fun j =>
          { j with leaves := j.leaves.map fun x => if x.va = l.va then { x with mig := true, attr := x.attr ||| 0x40#16 } else x }).respond
            r 0 0 (some (l.pa, l.size)))) ∧
      (l.mig = true → j.pendingAt l.va l.size = false → r.arg0 % l.size = 0 → r.arg0 < 2 ^ 52 → (awW (j.leafAttr l) = true → s.wrBusy r.job l.va r.arg0 l.size = false) →
        s.mixedRights r.job (some l.va) r.arg0 l.size (awW (j.leafAttr l)) = false → exec (.migend r) s = .next ((s.respond r 0 0 none).addChange r (.migrate r.arg0) l.va l.size (some (s.time + bitsN (s.cregOf 0x338).toNat 0 32))))) ∧
    (let clear (l : Leaf) : Leaf := if laps l.va l.size r.va r.len then { l with count := 0, noticed := l.noticed && !l.pres } else l
     exec (.cntrst r) s = .next ((s.modJob r.job fun j => { j with leaves := j.leaves.map clear }).respond r 0 0 none)) ∧
    (lookup j.heapCore j.base r.va = none → exec (.query r) s = .next (s.respond r 1 0 none)) ∧
    (∀ h, lookup j.heapCore j.base r.va = some h →
      let size := h.leaf.elim 0 fun l => sizeCode l.size
      exec (.query r) s = .next (({ s with answers := s.answers ++ [{ seq := r.seq, pa := h.pa, attr := h.attr, size := size }] } : State).respond r 0 size none)) ∧
    (s.footWaiter r.job = none → exec (.deny r) s =
      .next ((s.respond r 0 0 none).failJob r.job 4 (.job r.job) (leBytes 16 0 ++ (leBytes 8 (Cause.code .footprint + 256) ++ leBytes 8 0))))) ∧
  (∀ (r : Req) (s : State),
    (∃ t, exec (.frames r) s = .next t ∧ t.freef = s.freef + (BitVec.ofNat 64 r.arg0).toInt ∧ t.resps.length = s.resps.length + 1 ∧ t.mem = s.mem ∧ t.jobs = s.jobs) ∧
    ((r.arg1 = 0 ∨ 1024 < r.arg0 + r.arg1 ∨ s.dropSt ≠ none) → exec (.drop r) s = .next (s.respond r 1 0 none)) ∧
    (r.arg1 ≠ 0 → r.arg0 + r.arg1 ≤ 1024 → s.dropSt = none → (∀ c, r.arg0 ≤ c → c < r.arg0 + r.arg1 → s.pcState c = 1 ∨ s.pcState c = 2) →
      s.reaches (((s.cregOf 0x210).toNat - r.arg1) * 2 ^ 30) ((s.cregOf 0x210).toNat * 2 ^ 30) = false →
      exec (.drop r) s = .next (({ s with dropSt := some { seq := r.seq, first := r.arg0, n := r.arg1, since := s.time, ends := none } } : State).stopAll.respond r 0 0 none)) ∧
    (r.seq = 0 → exec (.quar r) s = .next (s.changeStatus r.arg0 3)) ∧
    (r.seq ≠ 0 → (r.arg0 = 0 ∨ 38 < r.arg0) → exec (.quar r) s = .next (s.respond r 1 0 none)) ∧
    (r.seq ≠ 0 → r.arg0 ≠ 0 → r.arg0 ≤ 38 → exec (.quar r) s = .next ((s.changeStatus r.arg0 3).respond r 0 0 none))) ∧
  (∀ (q : Nat) (s : State) (j : Job) (c : Change), s.jobs = [j] → j.changes = [c] → c.seq = q →
    exec (.migwaitExpiry q) s = .next (c.waiting.foldl (fun s g => s.switchPage g c.va) s) ∧
    (c.kind = .unmap → ∃ t, exec (.revocationComplete q) s = .next t ∧ t.mem = s.mem ∧ t.cores = s.cores ∧ ∃ j', t.jobs = [j'] ∧ j'.changes = [] ∧
      j'.ranges = (j.ranges.filter fun r => !inSpan c.va c.len r.base (r.limit - r.base)) ∧ j'.leaves = j.leaves.filter fun l => !inSpan c.va c.len l.va l.size)) ∧
  (∀ (s : State) (d : DropSt), s.dropSt = some d → ∃ t, exec .dropRelocationComplete s = .next t ∧ t.dropSt = none ∧ t.cores = s.cores ∧
    t.cregOf 0x210 = BitVec.ofNat 64 ((s.cregOf 0x210).toNat - d.n) ∧
    ∀ a, (isHbm a = false ∨ a / 2 ^ 44 ≠ s.modId ∨ a < s.modId * 2 ^ 44 + ((s.cregOf 0x210).toNat - d.n) * 2 ^ 30) → rdByte t.mem a = rdByte s.mem a)

/-! ### The module: registers, boot, the management port, the domain -/

/-- R6 and R443: a write to a C-die register sets its writable bits, clears the write-one-to-clear bits that it names, and has the action of its register done next; a
register that is read only keeps its value.
R12 to R14, R381 to R383, R412 and R418: a die that fails keeps its place with STATUS 0b10; a domain is formed under its ID; a published map replaces the copy of its module;
a module that leaves is no longer a member. -/
def Obligations.RegistersAndDies : Prop :=
  ((∀ (off : Nat) (v : W64) (s : State), off % 8 ≠ 0 → exec (.registerWrite off v) s = .next s) ∧
  (∀ (off : Nat) (v : W64) (s : State), off % 8 = 0 → off ≠ 0x1A0 → ∃ t, exec (.registerWrite off v) s = .next t ∧ t.agenda = s.regAction off v ++ s.agenda ∧
    { t with creg := s.creg, agenda := s.agenda } = s ∧ (∀ o, o ≠ off → t.cregOf o = s.cregOf o) ∧
    ∀ b, b < 64 → (t.cregOf off).getLsbD b =
      if (regMask off).1.getLsbD b then v.getLsbD b else (s.cregOf off).getLsbD b && !(v.getLsbD b && (regMask off).2.getLsbD b)) ∧
  (∀ (v : W64) (s : State), ∃ t, exec (.registerWrite 0x1A0 v) s = .next t ∧ t.mem = s.mem ∧ t.cores = s.cores ∧
    (t.cregOf 0x1A0) = (s.cregOf 0x1A0 &&& ~~~0x1F#64) ||| (v &&& 0x1F#64) ∧
    t.agenda = (match bitsN v.toNat 0 3 with
      | 1 => [.cool] | 2 => [.run] | 3 => [.warm] | 4 => [.selftest s.env.silent] | _ => []) ++ s.agenda) ∧
  ((regMask 0x40).1 = 0 ∧ (regMask 0x210).1 = 0 ∧ (regMask 0x718).1 = 0 ∧ (regMask 0x800).1 = 0 ∧ (regMask 0x920).1 = 0 ∧ (regMask 0x310).1 = 0xFFFFFFFF#64)) ∧
  ((∀ (d : Nat) (s : State), exec (.dieFailed d) s = .next (s.changeStatus d 2)) ∧
  (∀ (d : Nat) (s : State), d < 37 → 8 < d → s.dieStatus d = 0 → s.groups = [] → ∃ t, exec (.dieFailed d) s = .next t ∧ t.dieStatus d = 2 ∧ t.mem = s.mem ∧ t.cores = s.cores ∧
    (∀ x, x < 40 → x ≠ d → t.dieStatus x = s.dieStatus x) ∧ t.nqWait = s.nqWait ++ [{ kind := 6, size := 0, status := 0, count := 256 * d + 2, job := 0, va := 0 }]) ∧
  (∀ (m : Nat) (ms : List Nat) (s : State),
    (256 ≤ m → exec (.domain m ms) s = .next s) ∧
    (m < 256 → ∃ t, exec (.domain m ms) s = .next t ∧ t.modId = m ∧ (t.cregOf 0x340).getLsbD 17 = true ∧ t.slew = 0 ∧ t.cores = s.cores ∧
      (s.modId = m → t.mem = s.mem) ∧ (∀ x ∈ t.members, x.gone = false ∧ (x.id = m ∨ x.id ∈ ms)) ∧
      (ms = [] → t.inDomain m = true ∧ (∀ x, x < 256 → x ≠ m → t.inDomain x = false)))) ∧
  (∀ (m cap : Nat) (mix : List Nat) (s : State),
    (m = s.modId → exec (.mapPublication m cap mix) s = .next s) ∧
    (m ≠ s.modId → (s.cregOf 0x340).getLsbD 17 = false → exec (.mapPublication m cap mix) s = .next
      { s with stale := s.stale.filter fun r => decide (r.base / 2 ^ 44 ≠ m),
               members := (s.members.filter fun x => decide (x.id ≠ m)) ++ [{ id := m, hbmcap := cap, mix := mix, gone := false }] })) ∧
  (∀ (m : Nat) (s : State),
    ((m = s.modId ∨ s.inDomain m = false) → exec (.moduleDeparture m) s = .next s) ∧
    (m ≠ s.modId → m < 256 → s.inDomain m = true → s.flights = [] → s.colls = [] → ∃ t, exec (.moduleDeparture m) s = .next t ∧ t.mem = s.mem ∧ t.cores = s.cores ∧
      t.groups = s.groups ∧ t.inDomain m = false ∧ (t.cregOf 0x340).getLsbD 18 = true ∧ (∀ x ∈ t.members, x.id = m → x.gone = true))))

/-- R433 to R442: power-on runs the boot stages up to PORT, or stops with an error; READY completes them; the fuse floor only rises; a measurement extends its register; the
management port answers HEALTH, THERMAL and ATTEST when it links, passes COMMAND to firmware, and assembles FWIMAGE. -/
def Obligations.BootAndManagement : Prop :=
  (∀ s : State,
    (s.env.silent = [] → s.boot.store = [] → ∃ t, exec .powerOn s = .next t ∧ { t with creg := s.creg } = s ∧ bitsN (t.cregOf 0x700).toNat 0 3 = 1 ∧
      bitsN (t.cregOf 0x700).toNat 8 4 = 5) ∧
    (s.env.silent = [] → s.boot.store ≠ [] → ∃ t, exec .powerOn s = .next t ∧
      let e := imageErr s.boot.store (bitsN (s.cregOf 0x728).toNat 0 32)
      (e ≠ 0 → t.mem = s.mem ∧ t.boot = s.boot ∧ bitsN (t.cregOf 0x700).toNat 0 3 = 2 ∧ bitsN (t.cregOf 0x700).toNat 8 4 = e) ∧
      (e = 0 → t.boot.svn = fieldAt s.boot.store 4 4 ∧ (s.env.hostBad = true → bitsN (t.cregOf 0x700).toNat 0 3 = 3 ∧ bitsN (t.cregOf 0x700).toNat 8 4 = 4) ∧
        (s.env.hostBad = false → bitsN (t.cregOf 0x700).toNat 0 3 = 5 ∧ bitsN (t.cregOf 0x700).toNat 8 4 = 0))) ∧
    (∃ t, exec .bootstReady s = .next t ∧ { t with creg := s.creg } = s ∧
      (bitsN (s.cregOf 0x700).toNat 0 3 = 5 → bitsN (s.cregOf 0x700).toNat 8 4 = 0 → bitsN (t.cregOf 0x700).toNat 0 3 = 6) ∧
      (bitsN (s.cregOf 0x700).toNat 0 3 ≠ 5 ∨ bitsN (s.cregOf 0x700).toNat 8 4 ≠ 0 → t = s)) ∧
    (∀ v : W64, ∃ t, exec (.svnfuse v) s = .next t ∧ { t with creg := s.creg } = s ∧
      (v.toNat % 2 ^ 32 ≤ (s.cregOf 0x728).toNat % 2 ^ 32 → t = s) ∧ ((s.cregOf 0x728).toNat % 2 ^ 32 < v.toNat % 2 ^ 32 → (t.cregOf 0x728).toNat = v.toNat % 2 ^ 32)) ∧
    (∃ t, exec .measExtend s = .next t ∧ { t with creg := s.creg } = s ∧ (t.cregOf 0x900).getLsbD 3 = false ∧
      (bitsN (s.cregOf 0x900).toNat 0 3 = 0 → (t.cregOf 0x900).getLsbD 4 = true ∧ ∀ o, o ≠ 0x900 → t.cregOf o = s.cregOf o) ∧
      (∀ i, bitsN (s.cregOf 0x900).toNat 0 3 = i → i ≠ 0 →
        t.regBytes (0x800 + 32 * i) 4 = shake256 (s.regBytes (0x800 + 32 * i) 4 ++ s.regBytes 0x940 4) 32)) ∧
    exec .errorWindowClear s = .next { s with pcErr := [], dieErr := [], errFrom := s.time }) ∧
  (∀ (m : Msg) (s : State),
    (s.portUp = false → s.bootFailed = false → exec (.health m) s = .next s ∧ exec (.fwimage m) s = .next s) ∧
    (s.portUp = false → exec (.thermal m) s = .next s ∧ exec (.attest m) s = .next s ∧ exec (.command m) s = .next s) ∧
    ((s.portUp = true ∨ s.bootFailed = true) → ∃ t body, exec (.health m) s = .next t ∧ { t with boot := s.boot } = s ∧
      t.boot.out = s.boot.out ++ [{ typ := 1, seq := m.seq, body := body }] ∧ body.take 8 = leBytes 8 (s.cregOf 0x700).toNat) ∧
    (s.portUp = true →
      (∃ t, exec (.thermal m) s = .next t ∧ { t with boot := s.boot } = s ∧ t.boot.out = s.boot.out ++ [{ typ := 2, seq := m.seq, body := s.thermBody }] ∧
        t.boot.subscribed = bitN m.flags 0) ∧
      (∃ t body, exec (.attest m) s = .next t ∧ { t with boot := s.boot } = s ∧ t.boot.out = s.boot.out ++ [{ typ := 3, seq := m.seq, body := body }] ∧
        body = s.reportBody m.body ++ padTo 17088 ((Config.slhSign s.idSeed (ascii "EVJ77-AT") (s.reportBody m.body)).take 17088)) ∧
      (s.bootFailed = false → ∃ t, exec (.command m) s = .next t ∧ { t with boot := s.boot } = s ∧ t.boot.firmware = s.boot.firmware ++ [(6, m)] ∧ t.boot.out = s.boot.out)) ∧
    (s.portUp = true → s.bootFailed = false → (s.boot.frags ++ m.body.take 1024).length < 64 → ∃ t, exec (.fwimage m) s = .next t ∧ { t with boot := s.boot } = s ∧
      t.boot.frags = s.boot.frags ++ m.body.take 1024 ∧ t.boot.store = s.boot.store))
end

