-- ==== Sys2Proof/Laws/SMap.lean ====
section
/-! SUPPORT. Sparse maps: what is read after a write, and that writes keep the canonical form. -/

namespace Sys2Proof.Machine.SMap

variable {α : Type}

@[simp] theorem find_put_same (m : SMap α) (k : Nat) (x : α) : find (put m k x) k = some x := by
  induction m with
  | nil => simp [put, find]
  | cons p r ih =>
    obtain ⟨j, v⟩ := p
    simp only [put]
    split
    · simp [find]
    · split
      · simp [find]
      · rename_i h1 h2
        simp [find, h2, ih]

theorem find_put_other (m : SMap α) {k j : Nat} (x : α) (h : j ≠ k) : find (put m k x) j = find m j := by
  induction m with
  | nil => simp [put, find, h]
  | cons p r ih =>
    obtain ⟨i, v⟩ := p
    simp only [put]
    split
    · simp [find, h]
    · split
      · rename_i h1 h2
        subst h2
        simp [find, h]
      · simp only [find, ih]

@[simp] theorem find_erase_same (m : SMap α) (k : Nat) : find (erase m k) k = none := by
  induction m with
  | nil => rfl
  | cons p r ih =>
    obtain ⟨i, v⟩ := p
    simp only [erase]
    split
    · exact ih
    · rename_i h
      simp [find, h, ih]

theorem find_erase_other (m : SMap α) {k j : Nat} (h : j ≠ k) : find (erase m k) j = find m j := by
  induction m with
  | nil => rfl
  | cons p r ih =>
    obtain ⟨i, v⟩ := p
    simp only [erase]
    split
    · rename_i h1
      subst h1
      simp [find, h, ih]
    · simp only [find, ih]

theorem get_eq_find (d : α) (m : SMap α) (k : Nat) : get d m k = (find m k).getD d := by
  induction m with
  | nil => rfl
  | cons p r ih =>
    obtain ⟨i, v⟩ := p
    simp only [get, find]
    split <;> simp [ih]



@[simp] theorem get_set_same [DecidableEq α] (d : α) (m : SMap α) (k : Nat) (x : α) : get d (set d m k x) k = x := by
  rw [get_eq_find, set]
  split
  · rename_i h
    simp [h]
  · simp

theorem get_set_other [DecidableEq α] (d : α) (m : SMap α) {k j : Nat} (x : α) (h : j ≠ k) : get d (set d m k x) j = get d m j := by
  rw [get_eq_find, get_eq_find, set]
  split
  · rw [find_erase_other m h]
  · rw [find_put_other m x h]

/-- Every key of a list lies above a bound. -/
def above (b : Nat) (m : SMap α) : Prop := ∀ p ∈ m, b < p.1

theorem wf_cons [DecidableEq α] (d : α) (k : Nat) (v : α) (r : SMap α) : wf d ((k, v) :: r) = true ↔ v ≠ d ∧ above k r ∧ wf d r = true := by
  induction r generalizing k v with
  | nil => simp [wf, above]
  | cons p r ih =>
    obtain ⟨j, x⟩ := p
    rw [show wf d ((k, v) :: (j, x) :: r) = (decide (k < j) && decide (v ≠ d) && wf d ((j, x) :: r)) from rfl]
    simp only [Bool.and_eq_true, decide_eq_true_eq]
    constructor
    · rintro ⟨⟨h1, h2⟩, h3⟩
      refine ⟨h2, ?_, h3⟩
      have h4 := ((ih j x).1 h3).2.1
      intro p hp
      rcases List.mem_cons.1 hp with h | h
      · exact h ▸ h1
      · exact Nat.lt_trans h1 (h4 p h)
    · rintro ⟨h1, h2, h3⟩
      exact ⟨⟨h2 (j, x) (by simp), h1⟩, h3⟩

theorem above_erase {b : Nat} {m : SMap α} (h : above b m) (k : Nat) : above b (erase m k) := by
  induction m with
  | nil => exact h
  | cons p r ih =>
    obtain ⟨i, v⟩ := p
    have hr : above b r := fun q hq => h q (by simp [hq])
    simp only [erase]
    split
    · exact ih hr
    · intro q hq
      rcases List.mem_cons.1 hq with e | e
      · exact e ▸ h (i, v) (by simp)
      · exact ih hr q e

theorem wf_erase [DecidableEq α] {d : α} {m : SMap α} (h : wf d m = true) (k : Nat) : wf d (erase m k) = true := by
  induction m with
  | nil => exact h
  | cons p r ih =>
    obtain ⟨i, v⟩ := p
    obtain ⟨h1, h2, h3⟩ := (wf_cons d i v r).1 h
    simp only [erase]
    split
    · exact ih h3
    · exact (wf_cons d i v _).2 ⟨h1, above_erase h2 k, ih h3⟩

theorem above_put {b k : Nat} {m : SMap α} (h : above b m) (hk : b < k) (x : α) : above b (put m k x) := by
  induction m with
  | nil =>
    intro q hq
    simp only [put, List.mem_singleton] at hq
    exact hq ▸ hk
  | cons p r ih =>
    obtain ⟨i, v⟩ := p
    have hr : above b r := fun q hq => h q (by simp [hq])
    simp only [put]
    split
    · intro q hq
      rcases List.mem_cons.1 hq with e | e
      · exact e ▸ hk
      · exact h q e
    · split
      · intro q hq
        rcases List.mem_cons.1 hq with e | e
        · exact e ▸ hk
        · exact hr q e
      · intro q hq
        rcases List.mem_cons.1 hq with e | e
        · exact e ▸ h (i, v) (by simp)
        · exact ih hr q e

theorem wf_put [DecidableEq α] {d : α} {m : SMap α} (h : wf d m = true) (k : Nat) {x : α} (hx : x ≠ d) : wf d (put m k x) = true := by
  induction m with
  | nil => simp [put, wf, hx]
  | cons p r ih =>
    obtain ⟨i, v⟩ := p
    obtain ⟨h1, h2, h3⟩ := (wf_cons d i v r).1 h
    simp only [put]
    split
    · rename_i hlt
      refine (wf_cons d k x _).2 ⟨hx, ?_, h⟩
      intro q hq
      rcases List.mem_cons.1 hq with e | e
      · exact e ▸ hlt
      · exact Nat.lt_trans hlt (h2 q e)
    · split
      · rename_i h4 h5
        subst h5
        exact (wf_cons d _ x _).2 ⟨hx, h2, h3⟩
      · rename_i h4 h5
        exact (wf_cons d i v _).2 ⟨h1, above_put h2 (by omega) x, ih h3⟩

/-- A write in canonical form keeps the canonical form. -/
theorem wf_set [DecidableEq α] {d : α} {m : SMap α} (h : wf d m = true) (k : Nat) (x : α) : wf d (set d m k x) = true := by
  rw [set]
  split
  · exact wf_erase h k
  · exact wf_put h k (by assumption)

end Sys2Proof.Machine.SMap
end

