-- ==== Sys2Proof/Laws/State.lean ====
section
/-! SUPPORT. What the updates of the state leave and change, field by field. -/

namespace Sys2Proof.Machine

open Sys2Proof

/-! ### A core is written: every module-wide field stays -/

@[simp] theorem State.setCore_time (s : State) (c : Nat) (k : Core) : (s.setCore c k).time = s.time := rfl
@[simp] theorem State.setCore_again (s : State) (c : Nat) (k : Core) : (s.setCore c k).again = s.again := rfl
@[simp] theorem State.setCore_half (s : State) (c : Nat) (k : Core) : (s.setCore c k).half = s.half := rfl
@[simp] theorem State.setCore_agenda (s : State) (c : Nat) (k : Core) : (s.setCore c k).agenda = s.agenda := rfl
@[simp] theorem State.setCore_inputs (s : State) (c : Nat) (k : Core) : (s.setCore c k).inputs = s.inputs := rfl
@[simp] theorem State.setCore_env (s : State) (c : Nat) (k : Core) : (s.setCore c k).env = s.env := rfl
@[simp] theorem State.setCore_free (s : State) (c : Nat) (k : Core) : (s.setCore c k).free = s.free := rfl
@[simp] theorem State.setCore_cur (s : State) (c : Nat) (k : Core) : (s.setCore c k).cur = s.cur := rfl
@[simp] theorem State.setCore_mem (s : State) (c : Nat) (k : Core) : (s.setCore c k).mem = s.mem := rfl
@[simp] theorem State.setCore_ecc (s : State) (c : Nat) (k : Core) : (s.setCore c k).ecc = s.ecc := rfl
@[simp] theorem State.setCore_race (s : State) (c : Nat) (k : Core) : (s.setCore c k).race = s.race := rfl
@[simp] theorem State.setCore_owner (s : State) (c : Nat) (k : Core) : (s.setCore c k).owner = s.owner := rfl
@[simp] theorem State.setCore_recErr (s : State) (c : Nat) (k : Core) : (s.setCore c k).recErr = s.recErr := rfl
@[simp] theorem State.setCore_tcache (s : State) (c : Nat) (k : Core) : (s.setCore c k).tcache = s.tcache := rfl
@[simp] theorem State.setCore_nextId (s : State) (c : Nat) (k : Core) : (s.setCore c k).nextId = s.nextId := rfl
@[simp] theorem State.setCore_flights (s : State) (c : Nat) (k : Core) : (s.setCore c k).flights = s.flights := rfl
@[simp] theorem State.setCore_groups (s : State) (c : Nat) (k : Core) : (s.setCore c k).groups = s.groups := rfl
@[simp] theorem State.setCore_jobs (s : State) (c : Nat) (k : Core) : (s.setCore c k).jobs = s.jobs := rfl
@[simp] theorem State.setCore_graphs (s : State) (c : Nat) (k : Core) : (s.setCore c k).graphs = s.graphs := rfl
@[simp] theorem State.setCore_creg (s : State) (c : Nat) (k : Core) : (s.setCore c k).creg = s.creg := rfl
@[simp] theorem State.setCore_nextSub (s : State) (c : Nat) (k : Core) : (s.setCore c k).nextSub = s.nextSub := rfl
@[simp] theorem State.setCore_cqSeq (s : State) (c : Nat) (k : Core) : (s.setCore c k).cqSeq = s.cqSeq := rfl
@[simp] theorem State.setCore_cqWait (s : State) (c : Nat) (k : Core) : (s.setCore c k).cqWait = s.cqWait := rfl
@[simp] theorem State.setCore_nextReq (s : State) (c : Nat) (k : Core) : (s.setCore c k).nextReq = s.nextReq := rfl
@[simp] theorem State.setCore_nqSeq (s : State) (c : Nat) (k : Core) : (s.setCore c k).nqSeq = s.nqSeq := rfl
@[simp] theorem State.setCore_nqWait (s : State) (c : Nat) (k : Core) : (s.setCore c k).nqWait = s.nqWait := rfl
@[simp] theorem State.setCore_resps (s : State) (c : Nat) (k : Core) : (s.setCore c k).resps = s.resps := rfl
@[simp] theorem State.setCore_answers (s : State) (c : Nat) (k : Core) : (s.setCore c k).answers = s.answers := rfl
@[simp] theorem State.setCore_freef (s : State) (c : Nat) (k : Core) : (s.setCore c k).freef = s.freef := rfl
@[simp] theorem State.setCore_cancels (s : State) (c : Nat) (k : Core) : (s.setCore c k).cancels = s.cancels := rfl
@[simp] theorem State.setCore_cancelId (s : State) (c : Nat) (k : Core) : (s.setCore c k).cancelId = s.cancelId := rfl
@[simp] theorem State.setCore_colls (s : State) (c : Nat) (k : Core) : (s.setCore c k).colls = s.colls := rfl
@[simp] theorem State.setCore_members (s : State) (c : Nat) (k : Core) : (s.setCore c k).members = s.members := rfl
@[simp] theorem State.setCore_slew (s : State) (c : Nat) (k : Core) : (s.setCore c k).slew = s.slew := rfl
@[simp] theorem State.setCore_pcErr (s : State) (c : Nat) (k : Core) : (s.setCore c k).pcErr = s.pcErr := rfl
@[simp] theorem State.setCore_dieErr (s : State) (c : Nat) (k : Core) : (s.setCore c k).dieErr = s.dieErr := rfl
@[simp] theorem State.setCore_errFrom (s : State) (c : Nat) (k : Core) : (s.setCore c k).errFrom = s.errFrom := rfl
@[simp] theorem State.setCore_therm (s : State) (c : Nat) (k : Core) : (s.setCore c k).therm = s.therm := rfl
@[simp] theorem State.setCore_dropSt (s : State) (c : Nat) (k : Core) : (s.setCore c k).dropSt = s.dropSt := rfl
@[simp] theorem State.setCore_boot (s : State) (c : Nat) (k : Core) : (s.setCore c k).boot = s.boot := rfl
@[simp] theorem State.setCore_stale (s : State) (c : Nat) (k : Core) : (s.setCore c k).stale = s.stale := rfl
@[simp] theorem State.setCore_lowered (s : State) (c : Nat) (k : Core) : (s.setCore c k).lowered = s.lowered := rfl

/-- All that a write of a core leaves. -/
theorem State.setCore_rest (s : State) (c : Nat) (k : Core) : { s.setCore c k with cores := s.cores } = s := rfl

@[simp] theorem State.modCore_time (s : State) (c : Nat) (f : Core → Core) : (s.modCore c f).time = s.time := rfl
@[simp] theorem State.modCore_again (s : State) (c : Nat) (f : Core → Core) : (s.modCore c f).again = s.again := rfl
@[simp] theorem State.modCore_half (s : State) (c : Nat) (f : Core → Core) : (s.modCore c f).half = s.half := rfl
@[simp] theorem State.modCore_agenda (s : State) (c : Nat) (f : Core → Core) : (s.modCore c f).agenda = s.agenda := rfl
@[simp] theorem State.modCore_inputs (s : State) (c : Nat) (f : Core → Core) : (s.modCore c f).inputs = s.inputs := rfl
@[simp] theorem State.modCore_env (s : State) (c : Nat) (f : Core → Core) : (s.modCore c f).env = s.env := rfl
@[simp] theorem State.modCore_free (s : State) (c : Nat) (f : Core → Core) : (s.modCore c f).free = s.free := rfl
@[simp] theorem State.modCore_cur (s : State) (c : Nat) (f : Core → Core) : (s.modCore c f).cur = s.cur := rfl
@[simp] theorem State.modCore_mem (s : State) (c : Nat) (f : Core → Core) : (s.modCore c f).mem = s.mem := rfl
@[simp] theorem State.modCore_ecc (s : State) (c : Nat) (f : Core → Core) : (s.modCore c f).ecc = s.ecc := rfl
@[simp] theorem State.modCore_race (s : State) (c : Nat) (f : Core → Core) : (s.modCore c f).race = s.race := rfl
@[simp] theorem State.modCore_owner (s : State) (c : Nat) (f : Core → Core) : (s.modCore c f).owner = s.owner := rfl
@[simp] theorem State.modCore_recErr (s : State) (c : Nat) (f : Core → Core) : (s.modCore c f).recErr = s.recErr := rfl
@[simp] theorem State.modCore_tcache (s : State) (c : Nat) (f : Core → Core) : (s.modCore c f).tcache = s.tcache := rfl
@[simp] theorem State.modCore_nextId (s : State) (c : Nat) (f : Core → Core) : (s.modCore c f).nextId = s.nextId := rfl
@[simp] theorem State.modCore_flights (s : State) (c : Nat) (f : Core → Core) : (s.modCore c f).flights = s.flights := rfl
@[simp] theorem State.modCore_groups (s : State) (c : Nat) (f : Core → Core) : (s.modCore c f).groups = s.groups := rfl
@[simp] theorem State.modCore_jobs (s : State) (c : Nat) (f : Core → Core) : (s.modCore c f).jobs = s.jobs := rfl
@[simp] theorem State.modCore_graphs (s : State) (c : Nat) (f : Core → Core) : (s.modCore c f).graphs = s.graphs := rfl
@[simp] theorem State.modCore_creg (s : State) (c : Nat) (f : Core → Core) : (s.modCore c f).creg = s.creg := rfl
@[simp] theorem State.modCore_nextSub (s : State) (c : Nat) (f : Core → Core) : (s.modCore c f).nextSub = s.nextSub := rfl
@[simp] theorem State.modCore_cqSeq (s : State) (c : Nat) (f : Core → Core) : (s.modCore c f).cqSeq = s.cqSeq := rfl
@[simp] theorem State.modCore_cqWait (s : State) (c : Nat) (f : Core → Core) : (s.modCore c f).cqWait = s.cqWait := rfl
@[simp] theorem State.modCore_nextReq (s : State) (c : Nat) (f : Core → Core) : (s.modCore c f).nextReq = s.nextReq := rfl
@[simp] theorem State.modCore_nqSeq (s : State) (c : Nat) (f : Core → Core) : (s.modCore c f).nqSeq = s.nqSeq := rfl
@[simp] theorem State.modCore_nqWait (s : State) (c : Nat) (f : Core → Core) : (s.modCore c f).nqWait = s.nqWait := rfl
@[simp] theorem State.modCore_resps (s : State) (c : Nat) (f : Core → Core) : (s.modCore c f).resps = s.resps := rfl
@[simp] theorem State.modCore_answers (s : State) (c : Nat) (f : Core → Core) : (s.modCore c f).answers = s.answers := rfl
@[simp] theorem State.modCore_freef (s : State) (c : Nat) (f : Core → Core) : (s.modCore c f).freef = s.freef := rfl
@[simp] theorem State.modCore_cancels (s : State) (c : Nat) (f : Core → Core) : (s.modCore c f).cancels = s.cancels := rfl
@[simp] theorem State.modCore_cancelId (s : State) (c : Nat) (f : Core → Core) : (s.modCore c f).cancelId = s.cancelId := rfl
@[simp] theorem State.modCore_colls (s : State) (c : Nat) (f : Core → Core) : (s.modCore c f).colls = s.colls := rfl
@[simp] theorem State.modCore_members (s : State) (c : Nat) (f : Core → Core) : (s.modCore c f).members = s.members := rfl
@[simp] theorem State.modCore_slew (s : State) (c : Nat) (f : Core → Core) : (s.modCore c f).slew = s.slew := rfl
@[simp] theorem State.modCore_pcErr (s : State) (c : Nat) (f : Core → Core) : (s.modCore c f).pcErr = s.pcErr := rfl
@[simp] theorem State.modCore_dieErr (s : State) (c : Nat) (f : Core → Core) : (s.modCore c f).dieErr = s.dieErr := rfl
@[simp] theorem State.modCore_errFrom (s : State) (c : Nat) (f : Core → Core) : (s.modCore c f).errFrom = s.errFrom := rfl
@[simp] theorem State.modCore_therm (s : State) (c : Nat) (f : Core → Core) : (s.modCore c f).therm = s.therm := rfl
@[simp] theorem State.modCore_dropSt (s : State) (c : Nat) (f : Core → Core) : (s.modCore c f).dropSt = s.dropSt := rfl
@[simp] theorem State.modCore_boot (s : State) (c : Nat) (f : Core → Core) : (s.modCore c f).boot = s.boot := rfl
@[simp] theorem State.modCore_stale (s : State) (c : Nat) (f : Core → Core) : (s.modCore c f).stale = s.stale := rfl
@[simp] theorem State.modCore_lowered (s : State) (c : Nat) (f : Core → Core) : (s.modCore c f).lowered = s.lowered := rfl

theorem State.modCore_rest (s : State) (c : Nat) (f : Core → Core) : { s.modCore c f with cores := s.cores } = s := rfl

/-! ### Cores and engines -/

@[simp] theorem State.core_setCore (s : State) (c : Nat) (k : Core) : (s.setCore c k).core c = k := by
  simp [State.core, State.setCore]

theorem State.core_setCore_other (s : State) {c d : Nat} (k : Core) (h : d ≠ c) : (s.setCore c k).core d = s.core d := by
  simp [State.core, State.setCore, SMap.find_put_other _ _ h]

@[simp] theorem State.core_modCore (s : State) (c : Nat) (f : Core → Core) : (s.modCore c f).core c = f (s.core c) := by
  simp [State.modCore]

theorem State.core_modCore_other (s : State) {c d : Nat} (f : Core → Core) (h : d ≠ c) : (s.modCore c f).core d = s.core d :=
  State.core_setCore_other s _ h

@[simp] theorem Core.engine_setEngine (k : Core) (t : Nat) (e : Engine) : (k.setEngine t e).engine t = e := by
  simp [Core.engine, Core.setEngine]

theorem Core.engine_setEngine_other (k : Core) {t u : Nat} (e : Engine) (h : u ≠ t) : (k.setEngine t e).engine u = k.engine u := by
  simp [Core.engine, Core.setEngine, SMap.find_put_other _ _ h]

@[simp] theorem Core.engine_modEngine (k : Core) (t : Nat) (f : Engine → Engine) : (k.modEngine t f).engine t = f (k.engine t) := by
  simp [Core.modEngine]

theorem Core.engine_modEngine_other (k : Core) {t u : Nat} (f : Engine → Engine) (h : u ≠ t) : (k.modEngine t f).engine u = k.engine u :=
  Core.engine_setEngine_other k _ h

/-- All that a write of an engine leaves. -/
theorem Core.setEngine_rest (k : Core) (t : Nat) (e : Engine) : { k.setEngine t e with eng := k.eng } = k := rfl

theorem Core.modEngine_rest (k : Core) (t : Nat) (f : Engine → Engine) : { k.modEngine t f with eng := k.eng } = k := rfl

end Sys2Proof.Machine
end

