-- ==== Sys2Proof/Laws/Access.lean ====
section
/-! SUPPORT. What a granted access leaves of the state: every core, the cursor, TIME, and all that is no registration, count, cache, notification
or operation in progress. -/

namespace Sys2Proof.Machine

open Sys2Proof

/-- A state less what an access may change beside its own effect. -/
def State.rim (s : State) : State :=
  { s with mem := [], ecc := [], race := [], owner := [], tcache := [], nextId := 0, flights := [], groups := [], jobs := [], creg := [],
           nqWait := [], agenda := [], free := 0 }

theorem State.rim_cores {s s' : State} (h : s'.rim = s.rim) : s'.cores = s.cores := by
  have e := congrArg State.cores h
  exact e
theorem State.rim_cur {s s' : State} (h : s'.rim = s.rim) : s'.cur = s.cur := by
  have e := congrArg State.cur h
  exact e
theorem State.rim_time {s s' : State} (h : s'.rim = s.rim) : s'.time = s.time := by
  have e := congrArg State.time h
  exact e

@[simp] theorem State.modGroup_rim (s : State) (g : Nat) (f : Group → Group) : (s.modGroup g f).rim = s.rim := rfl
@[simp] theorem State.addFlight_rim (s : State) (f : Flight) : (s.addFlight f).rim = s.rim := rfl
@[simp] theorem State.setCreg_rim (s : State) (o : Nat) (v : W64) : (s.setCreg o v).rim = s.rim := rfl
@[simp] theorem State.postNq_rim (s : State) (e : NqEnt) : (s.postNq e).rim = s.rim := by
  simp only [State.postNq, State.rim]
@[simp] theorem State.cacheFill_rim (s : State) (d j g : Nat) (k : Bool × Nat) : (s.cacheFill d j g k).rim = s.rim := rfl

theorem State.rim_mem (s : State) (m : List Host.Cell) (e : SMap EccMark) : ({ s with mem := m, ecc := e } : State).rim = s.rim := rfl

@[simp] theorem State.store_rim (s : State) (a : Nat) (bs : List Byte) : (s.store a bs).rim = s.rim := by
  unfold State.store
  split
  · rfl
  · exact State.rim_mem ..

@[simp] theorem State.trace_rim (s : State) (a b c d e f : Nat) : (s.trace a b c d e f).rim = s.rim := by
  unfold State.trace
  dsimp only
  split
  · split
    · exact State.setCreg_rim ..
    · exact (State.setCreg_rim ..).trans (State.store_rim ..)
  · rfl

@[simp] theorem State.claim_rim (s : State) (g src : Nat) (till : Option Nat) : (s.claim g src till).rim = s.rim := by
  unfold State.claim
  dsimp only
  split
  · rfl
  · split <;> simp

@[simp] theorem State.ownFrames_rim (s : State) (g : Nat) (a : BitVec 16) (r : Run) : (s.ownFrames g a r).rim = s.rim := by
  unfold State.ownFrames
  split <;> rfl

@[simp] theorem State.countPage_rim (s : State) (j va n : Nat) : (s.countPage j va n).rim = s.rim := by
  unfold State.countPage
  split
  · rfl
  · split
    · rfl
    · dsimp only
      split <;> rfl

theorem State.raceLine_rim {s s' : State} {g l : Nat} {k : RaceKind} {fl : Option Nat} (h : s.raceLine g l k fl = some s') : s'.rim = s.rim := by
  unfold State.raceLine at h
  split at h
  · cases h
    rfl
  · simp only [Option.map_eq_some_iff] at h
    obtain ⟨r, -, h⟩ := h
    rw [← h]
    rfl

@[simp] theorem State.stageLine_rim (s : State) (g l : Nat) : (s.stageLine g l).rim = s.rim := rfl

theorem State.raceLines_rim {g : Nat} {k : RaceKind} {fl : Option Nat} : ∀ {ls : List Nat} {s s' : State}, s.raceLines g k fl ls = some s' → s'.rim = s.rim
  | [], s, s', h => by
    cases h
    rfl
  | l :: r, s, s', h => by
    unfold State.raceLines at h
    split at h
    · rename_i s1 h1
      exact (State.raceLines_rim h).trans (State.raceLine_rim h1)
    · cases h

theorem foldl_rim {α : Type} (f : State → α → State) (h : ∀ s a, (f s a).rim = s.rim) : ∀ (l : List α) (s : State), (l.foldl f s).rim = s.rim
  | [], _ => rfl
  | a :: l, s => (foldl_rim f h l (f s a)).trans (h s a)

theorem State.rim_free (s : State) (n : Nat) : ({ s with free := n } : State).rim = s.rim := rfl

@[simp] theorem State.cacheAll_rim (s : State) (d j g : Nat) (ks : List (Bool × Nat)) : (s.cacheAll d j g ks).rim = s.rim :=
  foldl_rim (fun (s : State) k => s.cacheFill d j g k) (fun s k => State.cacheFill_rim s d j g k) ks s

@[simp] theorem State.useCache_rim (s : State) (c j g : Nat) (fixed inseg : Bool) (ks : List (Bool × Nat)) :
    (s.useCache c j g fixed inseg ks).rim = s.rim := by
  unfold State.useCache
  dsimp only
  split
  · refine (State.rim_free _ _).trans ?_
    rw [State.addFlight_rim, State.claim_rim, State.cacheAll_rim]
  · exact State.cacheAll_rim ..

theorem State.bump_rim {c : Prop} [Decidable c] (s : State) (n : Nat) : (if c then { s with free := n } else s).rim = s.rim := by
  split <;> rfl

theorem Got.of_ite {c : Prop} [Decidable c] {a b : Got} {g : Granted} (h : (if c then a else b) = .ok g) (ha : a ≠ .ok g) : b = .ok g := by
  split at h
  · exact absurd h ha
  · exact h

/-- A granted access. -/
theorem State.access_rim {s : State} {va len : Nat} {u : Use} {fl : Option Nat} {g : Granted} (h : s.access va len u fl = .ok g) : g.s.rim = s.rim := by
  unfold State.access at h
  dsimp only at h
  split at h
  · cases h
  · rename_i gr hg
    split at h
    · split at h
      · split at h <;> cases h
      · cases h
    · split at h
      · cases h
      · split at h
        · cases h
        · split at h
          · cases h
          · split at h
            · cases h
            · split at h
              · cases h
              · split at h
                · cases h
                · replace h := Got.of_ite h nofun
                  split at h
                  · cases h
                  · rename_i s1 hs1
                    cases h
                    dsimp only
                    refine (foldl_rim _ ?_ _ _).trans ((foldl_rim _ ?_ _ _).trans ((State.bump_rim _ _).trans ((foldl_rim _ ?_ _ _).trans
                      ((State.raceLines_rim hs1).trans ?_))))
                    · intro s a
                      split
                      · split
                        · split
                          · exact State.countPage_rim ..
                          · rfl
                        · rfl
                      · rfl
                    · intro s a
                      exact State.ownFrames_rim ..
                    · intro s a
                      exact State.stageLine_rim ..
                    · exact State.useCache_rim ..

end Sys2Proof.Machine
end

