-- ==== Sys2Proof/Laws/Ecc.lean ====
section
/-! SUPPORT. Reads of memory in which ECC finds nothing leave the state as it is (R408 to R410). -/

namespace Sys2Proof.Machine

open Sys2Proof

/-- ECC finds nothing in a span. -/
abbrev State.soundAt (s : State) (pa n : Nat) : Prop := s.eccScan pa n = (none, [])

theorem consume_sound {s : State} {pa n : Nat} (h : s.soundAt pa n) (c t : Nat) (fixed : Bool) (pc : Option Nat) :
    s.consume c t pa n fixed pc = (s, true) := by
  simp only [State.consume, h]

theorem consumeRuns_sound {s : State} (f : Flight) : ∀ {rs : List Run}, (∀ r ∈ rs, s.soundAt r.pa r.len) → s.consumeRuns f rs = (s, true)
  | [], _ => rfl
  | r :: rs, h => by
    have hn : (rs.any fun x => (s.eccScan x.pa x.len).1.isSome) = false := List.any_eq_false.2 fun x hx => by
      rw [h x (List.mem_cons_of_mem _ hx)]
      simp
    rw [State.consumeRuns, consume_sound (h r List.mem_cons_self), hn, Bool.and_false]
    exact consumeRuns_sound f fun x hx => h x (List.mem_cons_of_mem _ hx)

theorem consumeBuf_sound {s : State} (c t space pc : Nat) :
    ∀ {ps : List (Nat × Nat)}, (∀ p ∈ ps, s.soundAt (s.bufPa c space p.1) p.2) → s.consumeBuf c t space pc ps = (s, true)
  | [], _ => rfl
  | p :: ps, h => by
    have hn : (ps.any fun x => (s.eccScan (s.bufPa c space x.1) x.2).1.isSome) = false := List.any_eq_false.2 fun x hx => by
      rw [h x (List.mem_cons_of_mem _ hx)]
      simp
    rw [State.consumeBuf, consume_sound (h p List.mem_cons_self), hn, Bool.and_false]
    exact consumeBuf_sound c t space pc fun x hx => h x (List.mem_cons_of_mem _ hx)

theorem issueRead_sound {s : State} {space off n : Nat} (h : s.soundAt (s.bufPa s.cur.core space off) n) : s.issueRead space off n = (s, none) := by
  simp only [State.issueRead, h]

/-- With no unit marked and no pseudo-channel lost there, ECC finds nothing. -/
theorem soundAt_of_nil {s : State} {pa n : Nat} (h : s.ecc = []) (hp : s.lostIn pa n = none) : s.soundAt pa n := by
  simp [State.soundAt, State.eccScan, h, hp]

end Sys2Proof.Machine
end

