-- ==== Sys2Proof/Laws/Issue.lean ====
section
/-! SUPPORT. What the issue of an instruction does: an engine that nothing holds back passes the gate as it is, and what follows is the
instruction's own effect with what every issue does. -/

namespace Sys2Proof.Machine

open Sys2Proof

/-! ### The gate -/

theorem consumeRes_clean {s : State} (h : s.here.ecc = []) (rs : List Res) : s.consumeRes rs = (s, none) := by
  simp [State.consumeRes, h]

/-- Nothing holds the engine back: it passes, and nothing has changed. -/
theorem gate_clear {s : State} {i : Instr} (h : Clear s i) : gate s i = .pass s := by
  have h1 := h.done
  have hseam : (!s.here.inSeg && decide (256 ≤ s.hereE.seam)) = false := by
    rcases h.seam with h | h
    · simp [h]
    · simp; omega
  have hb := h.beads
  have hk := h.banks
  simp only [gate, h1.1, h1.2, h.legal, hseam, h.slip, h.pace, h.room, consumeRes_clean h.clean]
  have hr := h.reads
  have hl := h.lag
  simp only [State.usesOf] at hr hl hk
  simp only [hr, hl]
  rcases hb with hb | hb
  · rcases hk with hk | hk
    · simp [hb, Nat.not_lt.2 hk]
    · simp [hk]
  · rcases hk with hk | hk
    · simp [hb.1, hb.2, Nat.not_lt.2 hk]
    · simp [hb.1, hb.2, hk]

/-- An issue that nothing holds back follows its plan. -/
theorem issueIf_clear {s : State} {i : Instr} (h : Clear s i) (plan : State → Bool → Plan) :
    issueIf s i plan = .next (settle s i fun x => plan x (s.enabled (guardOf i))) := by
  simp [issueIf, h.runs, gate_clear h]

/-- The same of an instruction that its guard disables as a whole. -/
theorem issue_clear {s : State} {i : Instr} (h : Clear s i) (plan : State → Plan) :
    issue s i plan = .next (settle s i fun x => guarded plan x (s.enabled (guardOf i))) :=
  issueIf_clear h _

/-- A plan that issues, with nothing to wait for. -/
theorem settle_go {s : State} {i : Instr} {plan : State → Plan} {g : Go} (h : Clear s i) (hp : plan s = .go g) :
    settle s i plan = finish s i (s.usesOf i) g (writeMask s g.s plan) := by
  have hw : ∀ C, s.writesWait s.cur.core C (s.usesOf i) = false := by
    intro C
    have := h.writes
    simp only [List.any_eq_false, State.here] at this
    simp only [State.writesWait, List.any_eq_false]
    intro b hb
    have hn := this b hb
    simp only [Bool.not_eq_true] at hn
    rw [hn]
    simp
  have hc : ∀ s', s.heldBy s' = false := by
    intro s'
    simp [State.heldBy, h.copies]
  simp only [State.usesOf] at hw
  simp [settle, hp, hw, hc, State.usesOf]

/-! ### Leaving the word -/

theorem Core.trimPath_bare (k : Core) (ct : CoreType) : (k.trimPath ct).bare = k.bare := by
  simp only [Core.trimPath]
  split <;> rfl

theorem Core.trimPath_engine (k : Core) (ct : CoreType) (u : Nat) :
    ∃ n, (k.trimPath ct).engine u = { k.engine u with idx := n } := by
  simp only [Core.trimPath]
  split
  · exact ⟨_, rfl⟩
  · have : ∀ (m : SMap Engine) (n : Nat), SMap.find (m.map fun p => (p.1, { p.2 with idx := p.2.idx - n })) u =
        (SMap.find m u).map fun e => { e with idx := e.idx - n } := by
      intro m n
      induction m with
      | nil => rfl
      | cons p r ih =>
        simp only [List.map_cons, SMap.find]
        split <;> simp [ih]
    simp only [Core.engine, this]
    cases h : SMap.find k.eng u with
    | none => exact ⟨0, rfl⟩
    | some e => exact ⟨_, rfl⟩

/-- The core as the engine `t` leaves the word at its pc, of `n` words, for the word at `pc`. -/
def Core.passed (k : Core) (ct : CoreType) (t n pc : Nat) : Core :=
  (({ k with path := if (k.engine t).idx = k.path.length then k.path ++ [(k.engine t).pc] else k.path } : Core).setEngine t
    { k.engine t with idx := (k.engine t).idx + 1, pos := (k.engine t).pos + n, pc := pc }).trimPath ct

/-- An engine that no loop sends back goes on to `jump`, or to the next word. -/
theorem leave_mid (s : State) (c t n : Nat) (jump : Option Nat)
    (h : jump ≠ none ∨ (match ((s.core c).engine t).loops with
      | [] => true
      | l :: _ => !(decide (((s.core c).engine t).pc ≤ l.last) && decide (l.last < ((s.core c).engine t).pc + n))) = true) :
    s.leave c t n jump = s.setCore c ((s.core c).passed (coreType c) t n (jump.getD (((s.core c).engine t).pc + n))) := by
  unfold State.leave
  dsimp only
  split
  · rename_i l ls hl
    rcases h with h | h
    · exact absurd rfl h
    · simp only [hl] at h
      have : ¬ (((s.core c).engine t).pc ≤ l.last ∧ l.last < ((s.core c).engine t).pc + n) := by
        rintro ⟨h1, h2⟩
        simp [h1, h2] at h
      rw [if_neg this]
      rfl
  · rfl

/-! ### What every issue does -/

/-- Two cores that differ in no engine but for incoming beads and places in the path, and otherwise in path, interlocks and ECC marks. -/
def Core.near (k k' : Core) : Prop := k'.bare = k.bare ∧ ∀ u, (k'.engine u).apart = (k.engine u).apart

theorem Core.near_refl (k : Core) : k.near k := ⟨rfl, fun _ => rfl⟩

theorem Core.near_trans {a b c : Core} (h : a.near b) (g : b.near c) : a.near c :=
  ⟨g.1.trans h.1, fun u => (g.2 u).trans (h.2 u)⟩

theorem Core.near_modEngine (k : Core) (t : Nat) (f : Engine → Engine) (h : (f (k.engine t)).apart = (k.engine t).apart) :
    k.near (k.modEngine t f) := by
  refine ⟨rfl, fun u => ?_⟩
  by_cases hu : u = t
  · subst hu
    rw [Core.engine_modEngine]
    exact h
  · rw [Core.engine_modEngine_other k f hu]

theorem Core.near_ite (k : Core) (b : Bool) (t : Nat) (f : Engine → Engine) (h : (f (k.engine t)).apart = (k.engine t).apart) :
    k.near (if b then k.modEngine t f else k) := by
  cases b
  · exact Core.near_refl k
  · exact Core.near_modEngine k t f h

theorem Core.near_beadAdd (k : Core) (ct : CoreType) (t T : Nat) (a b : Bool) : k.near (k.beadAdd ct t T a b) := by
  unfold Core.beadAdd
  exact Core.near_trans (Core.near_ite k a _ (fun e => { e with inNext := e.inNext.add (k.engine t).epoch T }) rfl)
    (Core.near_ite _ b _ (fun e => { e with inPrev := e.inPrev.add (k.engine t).epoch T }) rfl)

theorem Core.near_trimPath (k : Core) (ct : CoreType) : k.near (k.trimPath ct) := by
  refine ⟨Core.trimPath_bare k ct, fun u => ?_⟩
  obtain ⟨n, h⟩ := Core.trimPath_engine k ct u
  rw [h]
  rfl

/-- What the beads of an issue change. -/
theorem takeBeads_near (x : State) (i : Instr) :
    { x.takeBeads i with cores := x.cores } = x ∧ (∀ c, c ≠ x.cur.core → (x.takeBeads i).core c = x.core c) ∧
      (x.core x.cur.core).near ((x.takeBeads i).core x.cur.core) := by
  unfold State.takeBeads
  split
  · exact ⟨rfl, fun _ _ => rfl, Core.near_refl _⟩
  · refine ⟨rfl, fun c hc => ?_, ?_⟩
    · exact State.core_modCore_other _ _ hc
    · simp only [State.modHereE, State.modEngine, State.core_modCore]
      exact Core.near_modEngine _ _ _ rfl

/-- What `passed` leaves and moves. -/
theorem Core.passed_bare (k : Core) (ct : CoreType) (t n pc : Nat) : (k.passed ct t n pc).bare = k.bare := by
  unfold Core.passed
  rw [Core.trimPath_bare]
  rfl

theorem Core.passed_other (k : Core) (ct : CoreType) {t u : Nat} (n pc : Nat) (h : u ≠ t) :
    ((k.passed ct t n pc).engine u).apart = (k.engine u).apart := by
  unfold Core.passed
  obtain ⟨m, hm⟩ := Core.trimPath_engine _ ct u
  rw [hm, Core.engine_setEngine_other _ _ h]
  rfl

theorem Core.passed_same (k : Core) (ct : CoreType) (t n pc : Nat) :
    ∃ m, (k.passed ct t n pc).engine t = { k.engine t with idx := m, pos := (k.engine t).pos + n, pc := pc } := by
  unfold Core.passed
  obtain ⟨m, hm⟩ := Core.trimPath_engine _ ct t
  refine ⟨m, ?_⟩
  rw [hm, Core.engine_setEngine]

/-- The beads at completion touch the engine's beads only. -/
theorem Engine.completion_rest (e : Engine) (T C : Nat) (b : Beads) (g : Go) (fl : List Nat) (fg : BitVec 32) :
    { e.completion T C b g fl fg with inPrev := e.inPrev, inNext := e.inNext, hold := e.hold, owed := e.owed } = e := by
  unfold Engine.completion Engine.tookAt
  repeat' split
  all_goals rfl

section
variable (e : Engine) (head : W32) (inseg join : Bool) (st T C d cyc : Nat) (b : Beads) (g : Go) (fl : List Nat) (fg : BitVec 32)

theorem Engine.completion_kept : (e.completion T C b g fl fg).kept = e.kept := by
  have h := congrArg Engine.kept (Engine.completion_rest e T C b g fl fg)
  exact h
theorem Engine.completion_loops : (e.completion T C b g fl fg).loops = e.loops := by
  have h := congrArg Engine.loops (Engine.completion_rest e T C b g fl fg)
  exact h
theorem Engine.completion_pc : (e.completion T C b g fl fg).pc = e.pc := by
  have h := congrArg Engine.pc (Engine.completion_rest e T C b g fl fg)
  exact h

theorem Engine.issued_kept : (e.issued head inseg join st T C d cyc b g fl fg).kept = e.kept :=
  Engine.completion_kept ..
theorem Engine.issued_loops : (e.issued head inseg join st T C d cyc b g fl fg).loops = e.loops :=
  Engine.completion_loops ..
theorem Engine.issued_pc : (e.issued head inseg join st T C d cyc b g fl fg).pc = e.pc :=
  Engine.completion_pc ..
theorem Engine.issued_lastAt : (e.issued head inseg join st T C d cyc b g fl fg).lastAt = some T :=
  congrArg Engine.lastAt (Engine.completion_rest _ T C b g fl fg)
theorem Engine.issued_dyn : (e.issued head inseg join st T C d cyc b g fl fg).dyn = (e.dyn + 1) % 2 ^ 32 :=
  congrArg Engine.dyn (Engine.completion_rest _ T C b g fl fg)
theorem Engine.issued_nextAt : (e.issued head inseg join st T C d cyc b g fl fg).nextAt = T + cyc * d :=
  congrArg Engine.nextAt (Engine.completion_rest _ T C b g fl fg)

end

/-- An instruction that nothing holds back and whose meaning issues, waits for nothing and goes on: it makes its own effects and those that
every issue has. -/
theorem went_core {s s' x : State} {F : Engine → Engine} {bz : List Busy} {P : Res × Bool → Bool} {a b : Bool} {n : Nat} {jump : Option Nat}
    (hm : { x with cores := s'.cores } = s') (ho : ∀ c, c ≠ s.cur.core → x.core c = s'.core c)
    (hn : (s'.core s.cur.core).near (x.core s.cur.core))
    (hk : ∀ e, (F e).kept = e.kept) (hl : ∀ e, (F e).loops = e.loops) (hp : ∀ e, (F e).pc = e.pc)
    (ha : ∀ e, (F e).lastAt = some s.now) (hd : ∀ e, (F e).dyn = (e.dyn + 1) % 2 ^ 32) {nx : Nat} (hx : ∀ e, (F e).nextAt = nx)
    (hj : jump ≠ none ∨ (match ((s'.core s.cur.core).engine s.cur.tag).loops with
      | [] => true
      | l :: _ => !(decide (((s'.core s.cur.core).engine s.cur.tag).pc ≤ l.last) &&
          decide (l.last < ((s'.core s.cur.core).engine s.cur.tag).pc + n))) = true) :
    Went s s' ((x.modCore s.cur.core fun k =>
      let k := k.beadAdd s.ct s.cur.tag s.now a b
      let k := k.modEngine s.cur.tag F
      { k with busy := k.busy ++ bz, ecc := k.ecc.filter P }).leave s.cur.core s.cur.tag n jump)
      (jump.getD (((s'.core s.cur.core).engine s.cur.tag).pc + n)) nx := by
  generalize hb : (x.core s.cur.core).beadAdd s.ct s.cur.tag s.now a b = k2
  have hn2 : (s'.core s.cur.core).near k2 := Core.near_trans hn (hb ▸ Core.near_beadAdd _ _ _ _ _ _)
  have hap := hn2.2 s.cur.tag
  have e0 : (k2.engine s.cur.tag).kept = ((s'.core s.cur.core).engine s.cur.tag).kept := by
    have h := congrArg Engine.kept hap
    exact h
  have e1 : (k2.engine s.cur.tag).loops = ((s'.core s.cur.core).engine s.cur.tag).loops :=
    (congrArg Engine.loops hap : (k2.engine s.cur.tag).apart.loops = _)
  have e2 : (k2.engine s.cur.tag).pc = ((s'.core s.cur.core).engine s.cur.tag).pc :=
    (congrArg Engine.pc hap : (k2.engine s.cur.tag).apart.pc = _)
  have e3 : (k2.engine s.cur.tag).dyn = ((s'.core s.cur.core).engine s.cur.tag).dyn :=
    (congrArg Engine.dyn hap : (k2.engine s.cur.tag).apart.dyn = _)
  have he : ∀ bz' ecc', ({ k2.modEngine s.cur.tag F with busy := bz', ecc := ecc' } : Core).engine s.cur.tag = F (k2.engine s.cur.tag) :=
    fun _ _ => Core.engine_modEngine _ _ _
  rw [leave_mid]
  · dsimp only [State.core_setCore]
    simp only [State.core_modCore, hb, he, hp, e2]
    obtain ⟨m, hpass⟩ := Core.passed_same { k2.modEngine s.cur.tag F with
      busy := (k2.modEngine s.cur.tag F).busy ++ bz, ecc := (k2.modEngine s.cur.tag F).ecc.filter P } (coreType s.cur.core) s.cur.tag n
      (jump.getD (((s'.core s.cur.core).engine s.cur.tag).pc + n))
    rw [he] at hpass
    refine ⟨hm, ?_, ?_, ?_, ?_, ?_, ?_, ?_, ?_⟩
    · intro c h
      rw [State.core_setCore_other _ _ h, State.core_modCore_other _ _ h]
      exact ho c h
    · rw [State.core_setCore, Core.passed_bare]
      exact hn2.1
    · intro u hu
      rw [State.core_setCore, Core.passed_other _ _ _ _ hu]
      have : ∀ (k : Core) bz' ecc', ({ k with busy := bz', ecc := ecc' } : Core).engine u = k.engine u := fun _ _ _ => rfl
      rw [this, Core.engine_modEngine_other _ _ hu]
      exact hn2.2 u
    · rw [State.core_setCore, hpass]
      exact (hk _).trans e0
    · rw [State.core_setCore, hpass]
    · rw [State.core_setCore, hpass]
      exact ha _
    · rw [State.core_setCore, hpass]
      exact hx _
    · rw [State.core_setCore, hpass]
      exact (hd _).trans (by rw [e3])
  · rcases hj with hj | hj
    · exact Or.inl hj
    · right
      simp only [State.core_modCore, hb, he, hl, hp, e1, e2]
      exact hj

/-- An instruction that nothing holds back and whose meaning issues, waits for nothing and goes on: it makes its own effects and those that
every issue has. -/
theorem went_finish {s : State} {i : Instr} {g : Go} {mask : Res → List Nat} (hcur : g.s.cur = s.cur) (hw : g.s.hereE.waits = none)
    (hj : g.jump ≠ none ∨ g.s.midLoop (encode i).length = true) :
    Went s g.s (finish s i (s.usesOf i) g mask) (g.jump.getD (g.s.hereE.pc + (encode i).length))
      (s.now + g.cyc * s.d) := by
  have hun : g.s.unpause = g.s := by simp [State.unpause, hw]
  obtain ⟨hm, ho, hn⟩ := takeBeads_near g.s i
  simp only [State.midLoop] at hj
  simp only [State.hereE, State.here, hcur] at ho hn hj
  simp only [finish, hun, State.hereE, State.here, hcur]
  exact went_core hm ho hn (fun _ => Engine.issued_kept ..) (fun _ => Engine.issued_loops ..) (fun _ => Engine.issued_pc ..)
    (fun _ => Engine.issued_lastAt ..) (fun _ => Engine.issued_dyn ..) (fun _ => Engine.issued_nextAt ..) hj

/-- A meaning that issues, of an instruction that nothing holds back. -/
theorem issueIf_go {s : State} {i : Instr} {plan : State → Bool → Plan} {g : Go} (h : Clear s i)
    (hp : plan s (s.enabled (guardOf i)) = .go g) (hcur : g.s.cur = s.cur) (hw : g.s.hereE.waits = none)
    (hj : g.jump ≠ none ∨ g.s.midLoop (encode i).length = true) :
    ∃ t, issueIf s i plan = .next t ∧ Went s g.s t (g.jump.getD (g.s.hereE.pc + (encode i).length)) (s.now + g.cyc * s.d) := by
  rw [issueIf_clear h, settle_go (plan := fun x => plan x (s.enabled (guardOf i))) h hp]
  exact ⟨_, rfl, went_finish hcur hw hj⟩

/-- Where an engine stands: its pause, its loops, its pc. -/
def Engine.walk (e : Engine) : Option (Nat × Nat) × List LoopSt × Nat := (e.waits, e.loops, e.pc)

/-- A meaning that issues and leaves the engine where it stands: it makes its own effects and goes on. -/
theorem issueIf_ready {s : State} {i : Instr} {plan : State → Bool → Plan} {g : Go} (h : Ready s i) (hp : plan s true = .go g)
    (hcur : g.s.cur = s.cur) (hwk : g.s.hereE.walk = s.hereE.walk) (hj : g.jump = none) :
    ∃ t, issueIf s i plan = .next t ∧ Went s g.s t (s.pcAfter i) (s.now + g.cyc * s.d) := by
  simp only [Engine.walk, Prod.mk.injEq] at hwk
  obtain ⟨hw, hl, hpc⟩ := hwk
  have h1 := issueIf_go (plan := plan) h.clear (by rw [h.on]; exact hp) hcur (hw.trans h.clear.unpaused) (by
    right
    have := h.mid
    simp only [State.midLoop, hl, hpc] at this ⊢
    exact this)
  simpa [hj, hpc, State.pcAfter] using h1

/-- The same of an instruction whose guard disables the whole of it. -/
theorem issue_ready {s : State} {i : Instr} {plan : State → Plan} {g : Go} (h : Ready s i) (hp : plan s = .go g)
    (hcur : g.s.cur = s.cur) (hwk : g.s.hereE.walk = s.hereE.walk) (hj : g.jump = none) :
    ∃ t, issue s i plan = .next t ∧ Went s g.s t (s.pcAfter i) (s.now + g.cyc * s.d) :=
  issueIf_ready (plan := guarded plan) h hp hcur hwk hj

end Sys2Proof.Machine
end

