-- ==== Sys2Proof/Laws/Memory.lean ====
section
/-! SUPPORT. Memory: what a byte or a nibble reads as after a write, that other addresses read as before, and that every write keeps the canonical form. -/

namespace Sys2Proof.Machine

open Sys2Proof

/-! ### One byte, one nibble -/

@[simp] theorem rdByte_wrByte_same (m : List Host.Cell) (a : Nat) (b : Byte) : rdByte (wrByte m a b) a = b :=
  SMap.get_set_same 0 m a b

theorem rdByte_wrByte_other (m : List Host.Cell) {a x : Nat} (b : Byte) (h : x ≠ a) : rdByte (wrByte m a b) x = rdByte m x :=
  SMap.get_set_other 0 m b h

theorem memWf_wrByte {m : List Host.Cell} (h : memWf m = true) (a : Nat) (b : Byte) : memWf (wrByte m a b) = true := SMap.wf_set h a b

theorem rdNib_wrNib_same (m : List Host.Cell) (a : Nat) (v : Slice) : rdNib (wrNib m a v) a = v := by
  unfold rdNib wrNib
  simp only [rdByte_wrByte_same]
  split
  · apply BitVec.eq_of_getLsbD_eq
    intro i hi
    rw [BitVec.getLsbD_extractLsb', BitVec.getLsbD_append]
    simp [hi]
  · apply BitVec.eq_of_getLsbD_eq
    intro i hi
    rw [BitVec.getLsbD_extractLsb', BitVec.getLsbD_append]
    simp [hi]

theorem rdNib_wrNib_other (m : List Host.Cell) {a x : Nat} (v : Slice) (h : x ≠ a) : rdNib (wrNib m a v) x = rdNib m x := by
  by_cases hx : x / 2 = a / 2
  · unfold rdNib wrNib
    simp only [hx, rdByte_wrByte_same]
    have h2 : x % 2 ≠ a % 2 := by omega
    by_cases ha : a % 2 = 0
    · have hx0 : ¬ x % 2 = 0 := by omega
      simp only [ha, hx0, if_true, if_false]
      apply BitVec.eq_of_getLsbD_eq
      intro i hi
      rw [BitVec.getLsbD_extractLsb', BitVec.getLsbD_append, BitVec.getLsbD_extractLsb', BitVec.getLsbD_extractLsb']
      simp [hi]
    · have hx0 : x % 2 = 0 := by omega
      simp only [ha, hx0, if_true, if_false]
      apply BitVec.eq_of_getLsbD_eq
      intro i hi
      rw [BitVec.getLsbD_extractLsb', BitVec.getLsbD_append, BitVec.getLsbD_extractLsb', BitVec.getLsbD_extractLsb']
      simp [hi]
  · unfold rdNib wrNib
    simp only [rdByte_wrByte_other _ _ hx]

/-! ### Many -/

theorem rdByte_wrBytes_other (bs : List Byte) (m : List Host.Cell) {a x : Nat} (h : x < a ∨ a + bs.length ≤ x) :
    rdByte (wrBytes m a bs) x = rdByte m x := by
  induction bs generalizing m a with
  | nil => rfl
  | cons b r ih =>
    simp only [List.length_cons] at h
    rw [wrBytes, ih _ (by omega), rdByte_wrByte_other _ _ (by omega)]

theorem rdByte_wrBytes (bs : List Byte) (m : List Host.Cell) (a i : Nat) (h : i < bs.length) : rdByte (wrBytes m a bs) (a + i) = bs[i] := by
  induction bs generalizing m a i with
  | nil => simp at h
  | cons b r ih =>
    rw [wrBytes]
    cases i with
    | zero => rw [rdByte_wrBytes_other r _ (by omega)]; simp
    | succ n =>
      have e := ih (wrByte m a b) (a + 1) n (by simpa using h)
      rw [show a + (n + 1) = a + 1 + n by omega, e]
      rfl

theorem memWf_wrBytes {m : List Host.Cell} (h : memWf m = true) (a : Nat) (bs : List Byte) : memWf (wrBytes m a bs) = true := by
  induction bs generalizing m a with
  | nil => exact h
  | cons b r ih => exact ih (memWf_wrByte h a b) (a + 1)

/-- A byte reads as the last cell written to it. -/
theorem rdByte_wrCells (ws m : List Host.Cell) (x : Nat) :
    rdByte (wrCells m ws) x = (ws.reverse.find? fun w => decide (w.1 = x)).elim (rdByte m x) fun w => w.2 := by
  induction ws generalizing m with
  | nil => rfl
  | cons w r ih =>
    obtain ⟨a, b⟩ := w
    rw [wrCells, ih, List.reverse_cons, List.find?_append]
    cases hf : r.reverse.find? fun w => decide (w.1 = x) with
    | some w => rfl
    | none =>
      by_cases ha : a = x
      · subst ha
        simp
      · simp [ha, rdByte_wrByte_other m b (Ne.symm ha)]

theorem memWf_wrCells {m : List Host.Cell} (h : memWf m = true) (ws : List Host.Cell) : memWf (wrCells m ws) = true := by
  induction ws generalizing m with
  | nil => exact h
  | cons w r ih => exact ih (memWf_wrByte h w.1 w.2)

/-- A nibble reads as the last value written to it. -/
theorem rdNib_wrNibs (ns : List (Nat × Slice)) (m : List Host.Cell) (x : Nat) :
    rdNib (wrNibs m ns) x = (ns.reverse.find? fun w => decide (w.1 = x)).elim (rdNib m x) fun w => w.2 := by
  induction ns generalizing m with
  | nil => rfl
  | cons w r ih =>
    obtain ⟨a, b⟩ := w
    rw [wrNibs, ih, List.reverse_cons, List.find?_append]
    cases hf : r.reverse.find? fun w => decide (w.1 = x) with
    | some w => rfl
    | none =>
      by_cases ha : a = x
      · subst ha
        simp [rdNib_wrNib_same]
      · simp [ha, rdNib_wrNib_other m b (Ne.symm ha)]

theorem memWf_wrNibs {m : List Host.Cell} (h : memWf m = true) (ns : List (Nat × Slice)) : memWf (wrNibs m ns) = true := by
  induction ns generalizing m with
  | nil => exact h
  | cons w r ih => exact ih (memWf_wrByte h (w.1 / 2) _)

/-! ### Filters -/

theorem above_filter {b : Nat} {m : List Host.Cell} (h : SMap.above b m) (f : Host.Cell → Bool) : SMap.above b (m.filter f) :=
  fun p hp => h p (List.mem_of_mem_filter hp)

/-- Cells left out leave a canonical memory canonical. -/
theorem memWf_filter {m : List Host.Cell} (h : memWf m = true) (f : Host.Cell → Bool) : memWf (m.filter f) = true := by
  induction m with
  | nil => rfl
  | cons p r ih =>
    obtain ⟨h1, h2, h3⟩ := (SMap.wf_cons 0 p.1 p.2 r).1 h
    by_cases hf : f p = true
    · rw [List.filter_cons_of_pos hf]
      exact (SMap.wf_cons 0 p.1 p.2 _).2 ⟨h1, above_filter h2 f, ih h3⟩
    · rw [List.filter_cons_of_neg hf]
      exact ih h3

/-! ### Stores of a state -/

theorem store_memWf {s : State} (h : memWf s.mem = true) (a : Nat) (bs : List Byte) : memWf (s.store a bs).mem = true := by
  unfold State.store
  split
  · exact h
  · exact memWf_wrBytes h a bs

theorem storeCells_memWf {s : State} (h : memWf s.mem = true) (ws : List Host.Cell) : memWf (s.storeCells ws).mem = true := by
  unfold State.storeCells
  exact memWf_wrCells h _

theorem storeNibs_memWf {s : State} (h : memWf s.mem = true) (ns : List (Nat × Slice)) : memWf (s.storeNibs ns).mem = true := by
  unfold State.storeNibs
  exact memWf_wrNibs h _

theorem setCreg_memWf {s : State} (h : memWf s.mem = true) (o : Nat) (v : W64) : memWf (s.setCreg o v).mem = true := h

/-- A trace record keeps the canonical form. -/
theorem trace_memWf {s : State} (h : memWf s.mem = true) (a b c d e f : Nat) : memWf (s.trace a b c d e f).mem = true := by
  unfold State.trace
  dsimp only
  split
  · split
    · exact setCreg_memWf h ..
    · exact setCreg_memWf (store_memWf h ..) ..
  · exact h

end Sys2Proof.Machine
end

