-- ==== Sys2Proof/Laws/Operands.lean ====
section
/-! SUPPORT. What the operations on operands leave of the engines. -/

namespace Sys2Proof.Machine

open Sys2Proof

@[simp] theorem Core.wrSlot_engine (k : Core) (t u : Nat) (o : Slot) (v : Nat) : (k.wrSlot t o v).engine u = k.engine u := rfl

@[simp] theorem Core.wrLane_engine (k : Core) (t l u : Nat) (o : Slot) (v : Nat) : (k.wrLane t l o v).engine u = k.engine u := rfl

@[simp] theorem Core.raise_engine (k : Core) (u T : Nat) (f : Flags) : (k.raise T f).engine u = k.engine u := by
  unfold Core.raise
  split <;> rfl

theorem Core.walk_modEngine (k : Core) (t u : Nat) (f : Engine → Engine) (h : ∀ e, (f e).walk = e.walk) :
    ((k.modEngine t f).engine u).walk = (k.engine u).walk := by
  by_cases hu : u = t
  · subst hu
    rw [Core.engine_modEngine, h]
  · rw [Core.engine_modEngine_other _ _ hu]

@[simp] theorem Core.holdLatch_walk (k : Core) (t : Nat) (b : Bool) (x : Src) (v w u : Nat) :
    ((k.holdLatch t b x v w).engine u).walk = (k.engine u).walk := by
  unfold Core.holdLatch
  split
  · rfl
  · split
    · refine Core.walk_modEngine k t u _ fun e => ?_
      cases b <;> rfl
    · rfl

@[simp] theorem Core.holdSrc_walk (k : Core) (t : Nat) (b fs : Bool) (dw : Nat) (x : Src) (u : Nat) :
    ((k.holdSrc t b fs dw x).engine u).walk = (k.engine u).walk := Core.holdLatch_walk ..

@[simp] theorem Core.holdLanes_walk (k : Core) (t : Nat) (b : Bool) (x : Src) (ls : List Nat) (w : Nat) (v : Nat → Nat) (u : Nat) :
    ((k.holdLanes t b x ls w v).engine u).walk = (k.engine u).walk := by
  unfold Core.holdLanes
  split
  · rfl
  · split
    · refine Core.walk_modEngine k t u _ fun e => ?_
      cases b <;> rfl
    · rfl

/-- An update of the core at the cursor that leaves its engines where they stand. -/
theorem State.modHere_walk (s : State) (f : Core → Core) (h : ((f s.here).engine s.cur.tag).walk = (s.here.engine s.cur.tag).walk) :
    (s.modHere f).hereE.walk = s.hereE.walk := by
  simp only [State.modHere, State.hereE, State.here, State.modCore_cur, State.core_modCore]
  exact h

theorem State.flag_walk (s : State) (lat : Nat) (f : Flags) : (s.flag lat f).hereE.walk = s.hereE.walk := by
  unfold State.flag
  exact State.modHere_walk _ _ (by simp)

end Sys2Proof.Machine
end

