-- ==== Sys2Proof/Tests/Slice0.lean ====
section
/-! SUPPORT. Tests: words of the spec's encodings, refused terms, single steps, and for every statement with hypotheses a state that meets them. -/

namespace Sys2Proof.Tests

open Sys2Proof Sys2Proof.Machine

set_option maxRecDepth 20000

/-! ### Small states -/

/-- A group of four cores, one of each type, at reckoner tick 1,000. -/
def group0 : Group := { placedGroup with cores := [0, 128, 192, 224] }

/-- The engine at tag `t` of core `c` is at the cursor, with an idle stream of NOP words; `f` sets the core up. -/
def at' (c t : Nat) (f : Core → Core) : State :=
  { State.reset with half := .work, agenda := [], cur := { core := c, tag := t }, groups := [group0],
                     cores := [(c, f { Core.reset c with grp := some 0, stream := List.replicate 16 0x0E000000#32 })] }

/-- A slice operand of window 0. -/
def sl (off w : Nat) : Slot := { win := 0, off := BitVec.ofNat 8 off, wm1 := BitVec.ofNat 4 (w - 1) }

def fi (off w : Nat) : Src := .file (sl off w) false

def im (v : Nat) : Src := .imm (BitVec.ofNat 14 v) false

/-- No guard, no beads. -/
def h0 : Head := { dep := 0, g := { gd := false, p := 0, s := false } }

/-- A guard on p0 that disables. -/
def hOff : Head := { dep := 0, g := { gd := true, p := 0, s := false } }

def sub0 : Sub := { rm := 0, sat := false, cond := 0, fmt := 0, xs := 0 }

/-- The core's scalar file with a value of `w` slices at `off`. -/
def putS (off w v : Nat) (k : Core) : Core := { k with scalar := wrSlices k.scalar off w v }

/-- The lane files with a value of `w` slices at `off`, lane by lane. -/
def putL (off w : Nat) (v : Nat → Nat) (k : Core) : Core :=
  { k with lanes := (List.range 64).foldl (fun m l => wrSlices m (laneBase l + off) w (v l)) k.lanes }

/-- Every engine of the core has arrived at its join word. -/
def arrivedAll (c : Nat) (k : Core) : Core := { k with eng := (tagsOf (coreType c)).map fun u => (u, { Engine.reset with arrived := some 999 }) }

/-! ### Checkers of the hypotheses -/

def clearB (s : State) (i : Instr) : Bool :=
  s.runs && s.hereE.owed.isEmpty && s.hereE.hold.isNone && decide (s.issueFault i = none) && (s.here.inSeg || decide (s.hereE.seam < 256)) &&
  !s.here.slips s.ct s.cur.tag s.now && !s.here.paced s.cur.tag s.now && !s.readsWait s.cur.core s.now (s.usesOf i) &&
  !s.here.lagsBehind s.cur.core s.cur.tag (s.usesOf i) && !(s.here.busy.any fun b => (s.usesOf i).wr.contains b.res) &&
  (s.hereE.primed || s.hereE.asked || s.hereE.beadReady s.now (beadsOf i).tp (beadsOf i).tn && s.hereE.beadEpoch (beadsOf i).tp (beadsOf i).tn) &&
  s.here.beadRoom s.ct s.cur.tag s.now (beadsOf i).ap (beadsOf i).an && (decide ((readCycles (s.usesOf i).src).1 ≤ 1) || s.hereE.primed) &&
  s.here.ecc.isEmpty && s.hereE.waits.isNone && s.heldRuns.isEmpty

theorem clear {s : State} {i : Instr} (h : clearB s i = true) : Clear s i := by
  simp only [clearB, Bool.and_eq_true, Bool.or_eq_true, List.isEmpty_iff, Option.isNone_iff_eq_none, decide_eq_true_eq, Bool.not_eq_true'] at h
  obtain ⟨⟨⟨⟨⟨⟨⟨⟨⟨⟨⟨⟨⟨⟨⟨h1, h2⟩, h3⟩, h4⟩, h5⟩, h6⟩, h7⟩, h8⟩, h9⟩, h10⟩, h11⟩, h12⟩, h13⟩, h14⟩, h15⟩, h16⟩ := h
  exact { runs := h1, done := ⟨h2, h3⟩, legal := h4, seam := h5, slip := h6, pace := h7, reads := h8, lag := h9, writes := h10,
          beads := h11.imp (fun h => by simpa using h) id, room := h12, banks := h13, clean := h14, unpaused := h15, copies := h16 }

def readyB (s : State) (i : Instr) : Bool := clearB s i && s.midLoop (encode i).length && s.enabled (guardOf i)

theorem ready {s : State} {i : Instr} (h : readyB s i = true) : Ready s i := by
  simp only [readyB, Bool.and_eq_true] at h
  exact { clear := clear h.1.1, mid := h.1.2, on := h.2 }

def atJoinB (s : State) (i : Instr) : Bool :=
  s.runs && decide (s.cur.tag = 0) && decide (staticFault i = none) && (s.here.inSeg || decide (s.hereE.seam < 256)) && s.hereE.arrived.isSome &&
  (s.here.joined s.ct).elim false fun j => decide (j < s.now)

theorem atJoin {s : State} {i : Instr} (h : atJoinB s i = true) : AtJoin s i := by
  simp only [atJoinB, Bool.and_eq_true, Bool.or_eq_true, decide_eq_true_eq] at h
  obtain ⟨⟨⟨⟨⟨h1, h2⟩, h3⟩, h4⟩, h5⟩, h6⟩ := h
  refine { runs := h1, ce := h2, legal := h3, seam := h4, here := by intro e; simp [e] at h5, all := ?_ }
  cases hj : s.here.joined s.ct with
  | none => simp [hj] at h6
  | some j => exact ⟨j, rfl, by simpa [hj] using h6⟩

/-- A granted access that meets a condition. -/
theorem granted {r : Got} {P : Granted → Prop} [DecidablePred P]
    (h : (match r with | .ok g => decide (P g) | _ => false) = true) : ∃ g, r = .ok g ∧ P g := by
  cases r with
  | ok g => exact ⟨g, rfl, by simpa using h⟩
  | bad _ _ _ => simp at h
  | wait _ _ => simp at h

/-- Spans granted as one, with a condition that the grant meets. -/
theorem grantsAll {s : State} {spans : List (Nat × Nat × Use)} {pair : List (List Run × List (BitVec 16)) → Bool} {P : Granted → Prop} [DecidablePred P]
    (h : (spans.all (fun p => (s.peek p.1 p.2.1 p.2.2).isSome) && pair (spans.filterMap fun p => s.peek p.1 p.2.1 p.2.2) &&
      (match s.accessMany spans with | .ok g => decide (P g) | _ => false)) = true) : ∃ g, s.GrantsAll spans pair g ∧ P g := by
  simp only [Bool.and_eq_true, List.all_eq_true] at h
  obtain ⟨⟨h1, h2⟩, h3⟩ := h
  cases hr : s.accessMany spans with
  | ok g => exact ⟨g, ⟨fun p hp => Option.isSome_iff_exists.mp (h1 p hp), h2, hr⟩, by simpa [hr] using h3⟩
  | bad _ _ _ => simp [hr] at h3
  | wait _ _ => simp [hr] at h3

/-- A plan that is no fault of the issue, and one that is (R77). -/
theorem laterFault {p : Plan} (h : (match p with | .bad _ c _ _ => !c.atIssue | _ => true) = true) :
    ∀ x c n page, p = .bad x c n page → c.atIssue = false := by
  intro x c n page e
  subst e
  simpa using h

theorem issueFaults {p : Plan} (h : (match p with | .bad _ c _ _ => c.atIssue | _ => false) = true) :
    ∃ x c n page, p = .bad x c n page ∧ c.atIssue = true := by
  cases p with
  | bad x c n page => exact ⟨x, c, n, page, rfl, h⟩
  | wait _ _ _ => simp at h
  | hold _ _ => simp at h
  | go _ => simp at h

/-- What a step leaves, read by `f`. -/
def seen {α : Type} (o : Out) (f : State → α) : Option α :=
  match o with
  | .next t => some (f t)
  | _ => none

/-! ### The control engine -/

def add0 : S3 := { h := h0, dep := 0, es := 0, fs := true, dst := sl 32 8, a := fi 0 8, b := fi 16 8, sub := sub0 }

/-- Operands 7 and 5. -/
def ce0 : State := at' 0 0 fun k => putS 0 8 7 (putS 16 8 5 k)

theorem witness_ceTwoSources : (Ready ce0 (.add add0) ∧ ce0.here.ce2Ok ce0.cur.tag add0.dst add0.a add0.b = true) ∧
    (Ready ce0 (.rot add0) ∧ ce0.here.ce2Ok ce0.cur.tag add0.dst add0.a add0.b = true) :=
  ⟨⟨ready (by decide), by decide⟩, ready (by decide), by decide⟩

theorem witness_ceDivision : ce0.here.ce2Ok ce0.cur.tag add0.dst add0.a add0.b = true ∧ Ready ce0 (.divi add0) ∧ Ready ce0 (.remi add0) :=
  ⟨by decide, ready (by decide), ready (by decide)⟩

def lea0 : S3 := { add0 with sub := { sub0 with xs := 3 } }

theorem witness_ceLea : Ready ce0 (.lea lea0) ∧ ce0.here.ce2Ok ce0.cur.tag lea0.dst lea0.a lea0.b = true ∧
    (lea0.sub.xs, 6) ∈ ([(0, 0), (1, 2), (2, 3), (3, 6)] : List (BitVec 2 × Nat)) :=
  ⟨ready (by decide), by decide, by decide⟩

def mov0 : S2r := { h := h0, dep := 0, es := 0, fs := false, dst := sl 32 8, a := fi 0 8 }

def movi0 : MoviF := { h := h0, dep := 0, fs := false, dst := sl 32 6, imm := 5 }

/-- 7 has 29 leading zeros in 32 bits; MOVI.hi reaches a destination of 24 bits, and none of 20. -/
theorem witness_ceMoves :
    (ce0.here.slotOk ce0.cur.tag mov0.dst = true ∧ ce0.here.srcOk ce0.cur.tag false mov0.a = true ∧ Ready ce0 (.clz mov0) ∧ Ready ce0 (.popc mov0) ∧
      Ready ce0 (.mov mov0) ∧
      let a := ce0.here.srcVal ce0.cur.tag false mov0.fs mov0.dst.w mov0.a
      let wa := 4 * ce0.here.srcW ce0.cur.tag false mov0.dst.w mov0.a
      29 ≤ wa ∧ a % 2 ^ wa < 2 ^ (wa - 29) ∧ (29 < wa → 2 ^ (wa - 29 - 1) ≤ a % 2 ^ wa)) ∧
    (ce0.here.slotOk ce0.cur.tag movi0.dst = true ∧ Ready ce0 (.movi movi0) ∧ Ready ce0 (.moviHi movi0) ∧ 22 < movi0.dst.bits) ∧
    (Ready ce0 (.moviHi { movi0 with dst := sl 32 5 }) ∧ (sl 32 5).bits ≤ 22) := by
  refine ⟨⟨by decide, by decide, ready (by decide), ready (by decide), ready (by decide), by decide⟩,
    ⟨by decide, ready (by decide), ready (by decide), by decide⟩, ready (by decide), by decide⟩

/-- Bits 3 to 4 of 7, and 7 put into bits 3 to 4. -/
def fld0 : S3 := { add0 with fs := false, b := im 67 }

theorem witness_ceFields : (Ready ce0 (.ext fld0) ∧ ce0.here.ce2Ok ce0.cur.tag fld0.dst fld0.a fld0.b = true) ∧
    (Ready ce0 (.ins fld0) ∧ ce0.here.ce2Ok ce0.cur.tag fld0.dst fld0.a fld0.b = true ∧
      let b := ce0.here.ctlVal ce0.cur.tag true fld0.b
      let a := ce0.here.srcVal ce0.cur.tag false false fld0.dst.w fld0.a
      let old := ce0.here.slotVal ce0.cur.tag fld0.dst
      24 < 2 ^ fld0.dst.bits ∧
      ∀ i, i < fld0.dst.bits → (24 : Nat).testBit i = if b % 64 ≤ i ∧ i < b % 64 + (b / 64 % 64 + 1) then a.testBit (i - b % 64) else old.testBit i) :=
  ⟨⟨ready (by decide), by decide⟩, ready (by decide), by decide, by decide⟩

def sel0 : S3c := { h := h0, dep := 0, es := 0, fs := false, dst := sl 32 8, a := fi 0 8, b := fi 16 8, c := { win := 0, off := 48, fmt := 0, rms := false } }

theorem witness_ceSelect :
    (let s := at' 0 0 (putS 48 8 1)
     Ready s (.sel sel0) ∧ s.here.ce2Ok s.cur.tag sel0.dst sel0.a sel0.b = true ∧ s.here.slotOk s.cur.tag (slotC sel0.c sel0.dst) = true ∧
       s.here.slotVal s.cur.tag (slotC sel0.c sel0.dst) ≠ 0) ∧
    (Ready ce0 (.sel sel0) ∧ ce0.here.ce2Ok ce0.cur.tag sel0.dst sel0.a sel0.b = true ∧ ce0.here.slotOk ce0.cur.tag (slotC sel0.c sel0.dst) = true ∧
      ce0.here.slotVal ce0.cur.tag (slotC sel0.c sel0.dst) = 0) :=
  ⟨⟨ready (by decide), by decide, by decide, by decide⟩, ready (by decide), by decide, by decide, by decide⟩

def cmp0 : S3cmp := { h := h0, dep := 0, es := 0, fs := true, pd := 3, mode := 0, a := fi 0 8, b := fi 16 8, sub := { sub0 with cond := 4 } }

def cmpF : S3cmp := { cmp0 with es := 3, sub := { sub0 with cond := 7, fmt := 6 } }

def plog0 : PlogF := { h := h0, dep := 0, pd := 1, pa := 2, pb := 3, lut := 6 }

def pmov0 : PmovF := { h := h0, dep := 0, dir := 0, k := 0, s := sl 0 2, f := 8 }

theorem witness_cePredicates :
    (Ready ce0 (.cmp cmp0) ∧ ce0.here.srcOk ce0.cur.tag false cmp0.a = true ∧ ce0.here.srcOk ce0.cur.tag true cmp0.b = true ∧ cmp0.sub.fmt = 0) ∧
    (Ready ce0 (.cmp cmpF) ∧ cmpF.sub.fmt ≠ 0 ∧ (cmpSrc ce0.here ce0.cur.tag cmpF false).2 = fmtBits cmpF.sub.fmt ∧
      (cmpSrc ce0.here ce0.cur.tag cmpF true).2 = fmtBits cmpF.sub.fmt) ∧
    Ready ce0 (.plog plog0) ∧
    (Ready ce0 (.pmov pmov0) ∧ ce0.here.slotOk ce0.cur.tag pmov0.s = true ∧ pmov0.dir = 0 ∧ pmov0.f.toNat + 4 * pmov0.s.w = 16) ∧
    (let f : PmovF := { pmov0 with dir := 1 }
     Ready ce0 (.pmov f) ∧ f.dir = 1 ∧ f.f.toNat + 4 * f.s.w ≤ 16 ∧ 0 < 2 ^ (4 * f.s.w) ∧
       ∀ i, i < 4 * f.s.w → (0 : Nat).testBit i = ce0.here.predBit (f.f.toNat + i)) ∧
    (let f : PmovF := { pmov0 with f := 9 }
     Ready ce0 (.pmov f) ∧ ce0.here.slotOk ce0.cur.tag f.s = true ∧ f.dir = 0 ∧ 16 < f.f.toNat + 4 * f.s.w) ∧
    (let f : PmovF := { pmov0 with dir := 3, s := sl 0 16, f := 0 }
     let s := at' 128 0 id
     Ready s (.pmov f) ∧ s.here.slotOk s.cur.tag f.s = true ∧ f.dir = 3 ∧ s.ct = .v ∧ f.s.w = 16) ∧
    (let f : PmovF := { pmov0 with dir := 2, s := sl 0 16, f := 0 }
     Ready ce0 (.pmov f) ∧ f.dir = 2 ∧ ce0.ct ≠ .v) := by
  refine ⟨⟨ready (by decide), by decide, by decide, by decide⟩, ⟨ready (by decide), by decide, by decide, by decide⟩, ready (by decide),
    ⟨ready (by decide), by decide, by decide, by decide⟩, ⟨ready (by decide), by decide, by decide, by decide, by decide⟩,
    ⟨ready (by decide), by decide, by decide, by decide⟩, ⟨ready (by decide), by decide, by decide, by decide, by decide⟩,
    ready (by decide), by decide, by decide⟩

def setw0 : SetwF := { h := h0, dep := 0, t := 1, w := 2, add := false, arg := .slot (sl 0 4) }

def cbset0 : CbsetF := { h := h0, dep := 0, space := 1, fmt := 6, base := 0, cb := 2, ents := 3, size := 16 }

def cbadv0 : CbadvF := { h := h0, dep := 0, cb := 2, cons := false, cnt := .imm 4 }

/-- A circular buffer of four entries of 1,024 bytes in a space. -/
def buf (space attr : Nat) : Cb := { space := space, base := 0, ents := 4, size := 1024, attr := BitVec.ofNat 5 attr, prod := 0, cons := 0, resv := [] }

/-- The windows at their largest value and one beyond; a buffer advanced to its last entry and one beyond. -/
theorem witness_ceWindowsAndBuffers :
    (let s := at' 0 0 (putS 0 4 (2 ^ 15 - 1))
     Ready s (.setw setw0) ∧ hasTag s.ct setw0.t.toNat = true ∧ setw0.t ≠ 5 ∧ setw0.t ≠ 7 ∧ s.here.slotOk s.cur.tag (sl 0 4) = true ∧ (sl 0 4).w ≤ 4 ∧
       setw0.add = false ∧ s.here.slotVal s.cur.tag (sl 0 4) < 2 ^ 15) ∧
    (let s := at' 0 0 (putS 0 4 (2 ^ 15))
     Ready s (.setw setw0) ∧ 2 ^ 15 ≤ s.here.slotVal s.cur.tag (sl 0 4)) ∧
    (let f : GetwF := { h := h0, dep := 0, t := 1, w := 2, dst := sl 0 4 }
     Ready ce0 (.getw f) ∧ hasTag ce0.ct f.t.toNat = true ∧ f.t ≠ 5 ∧ f.t ≠ 7 ∧ ce0.here.slotOk ce0.cur.tag f.dst = true) ∧
    (Ready ce0 (.setw { setw0 with t := 5 }) ∧ Ready ce0 (.getw { h := h0, dep := 0, t := 7, w := 2, dst := sl 0 4 })) ∧
    (Ready ce0 (.cbset cbset0) ∧ cbsetFault ce0 cbset0 = none) ∧
    (Ready ce0 (.cbset { cbset0 with base := 0x7FFFF }) ∧ cbsetFault ce0 { cbset0 with base := 0x7FFFF } = some .illegalOperand) ∧
    (let s := at' 0 0 fun k => k.setCb 2 (buf 1 6)
     let b := s.here.cbOf cbadv0.cb.toNat
     Ready s (.cbadv cbadv0) ∧ b.configured = true ∧ 4 ≤ b.ents ∧ 4 ≤ (if cbadv0.cons then b.occ else b.room s.now)) ∧
    (let s := at' 0 0 fun k => k.setCb 2 (buf 1 6)
     Ready s (.cbadv { cbadv0 with cnt := .imm 5 }) ∧ (s.here.cbOf 2).ents < 5) := by
  refine ⟨⟨ready (by decide), by decide, by decide, by decide, by decide, by decide, by decide, by decide⟩, ⟨ready (by decide), by decide⟩,
    ⟨ready (by decide), by decide, by decide, by decide, by decide⟩, ⟨ready (by decide), ready (by decide)⟩, ⟨ready (by decide), by decide⟩,
    ⟨ready (by decide), by decide⟩, ⟨ready (by decide), by decide, by decide, by decide⟩, ready (by decide), by decide⟩

theorem test_add : seen (exec (.add add0) ce0) (fun t => (t.here.slotVal 0 (sl 32 8), (t.here.engine 0).pc)) = some (12, 3) := by decide
theorem test_sub_wraps : seen (exec (.sub { add0 with a := fi 16 8, b := fi 0 8 }) ce0) (fun t => t.here.slotVal 0 (sl 32 8)) = some 0xFFFFFFFE := by decide
/-! ### Memory accesses of the control engine -/

/-- A heap that maps every address below 2^45 onto itself, readable and writable. -/
def heap (k : Core) : Core := { k with heapb := 0x180, heapl := 0x200000000000, heapo := 0 }

/-- The address of the A-buffer of core 0 in slices 0 to 13, and 5 in slices 16 to 23. -/
def mem0 : State := at' 0 0 fun k => putS 0 14 (winAddr 0 1 0) (putS 16 8 5 (heap k))

def seg0 (openKind : Bool) : Desc :=
  { openKind := openKind, eqp := false, segno := 0, ticks := 4000, estim := 4000, sig := 0, egress := 8, shlines := 8, foot := 0, livein := 0, carry := 0, prot := [], scr := [] }

/-- Core `c` inside a segment. -/
def inSeg (c : Nat) (openKind : Bool) (k : Core) : Core := k.openSeg (coreType c) 0 (seg0 openKind) 900 (k.snapshotAt (coreType c)) false false

/-- Core 0 in an OPEN segment, with a shared heap and the address of a byte of the module's HBM. -/
def mem1 : State := at' 0 0 fun k => { inSeg 0 true (putS 0 14 0x10000 (putS 16 8 5 (heap k))) with heapb := 0x1A0 }

def ld0 : S3 := { h := h0, dep := 0, es := 0, fs := false, dst := sl 32 8, a := fi 0 14, b := im 0, sub := { sub0 with xs := 2 } }

def spill0 : SpillF := { h := h0, dep := 0, win := 0, off := 32, a := fi 0 14, b := im 0, cnt := 7 }

theorem witness_ceLoads :
    (Ready mem0 (.ld ld0) ∧ mem0.here.ce2Ok mem0.cur.tag ld0.dst ld0.a ld0.b = true ∧
      ∃ g, mem0.access (mem0.here.effAddr mem0.cur.tag ld0.a ld0.b) (2 ^ ld0.sub.xs.toNat) useRead none = .ok g ∧ (g.lat = none → mem0.here.inFixed = false)) ∧
    (Ready mem0 (.fill spill0) ∧ mem0.here.srcOk mem0.cur.tag false spill0.a = true ∧ mem0.here.srcOk mem0.cur.tag true spill0.b = true ∧
      spillStart mem0.here mem0.cur.tag spill0 + (spill0.cnt.toNat + 1) ≤ 8192 ∧
      ∃ g, mem0.access (mem0.here.effAddr mem0.cur.tag spill0.a spill0.b) ((spill0.cnt.toNat + 1 + 1) / 2) useRead none = .ok g ∧
        (g.lat = none → mem0.here.inFixed = false)) :=
  ⟨⟨ready (by decide), by decide, granted (by decide)⟩, ready (by decide), by decide, by decide, by decide, granted (by decide)⟩

/-- In a seam, and inside a segment with the store staged. -/
theorem witness_ceStores :
    (∀ s ∈ [mem0, mem1], Ready s (.st ld0) ∧ s.here.ce2Ok s.cur.tag ld0.dst ld0.a ld0.b = true) ∧
    (∃ g, mem0.access (mem0.here.effAddr mem0.cur.tag ld0.a ld0.b) 4 { useWrite with stg := some false } none = .ok g ∧
      mem0.here.inSeg = false ∧ spreadNibs g.runs 8 (fun _ => 0) ≠ []) ∧
    (∃ g, mem1.access (mem1.here.effAddr mem1.cur.tag ld0.a ld0.b) 4 { useWrite with stg := some false } none = .ok g ∧
      let ns := spreadNibs g.runs 8 fun _ => (0 : Slice)
      (∀ p ∈ ns, mem1.nibStaged (g.runs.zip g.attrs) p.1 p.2.1 = true) ∧ ns ≠ [] ∧ (stageAll mem1.here.egress (ns.map fun p => p.2)).length ≤ mem1.here.stageRoom) ∧
    (∀ s ∈ [mem0, mem1], Ready s (.spill spill0) ∧ s.here.srcOk s.cur.tag false spill0.a = true ∧ s.here.srcOk s.cur.tag true spill0.b = true ∧
      spillStart s.here s.cur.tag spill0 + (spill0.cnt.toNat + 1) ≤ 8192) ∧
    (∃ g, mem0.access (mem0.here.effAddr mem0.cur.tag spill0.a spill0.b) 4 { useWrite with stg := some false } none = .ok g ∧
      mem0.here.inSeg = false ∧ g.lat.isSome = true ∧ spreadNibs g.runs 8 (fun _ => 0) ≠ []) := by
  refine ⟨?_, granted (by decide), granted (by decide), ?_, granted (by decide)⟩
  · intro s hs
    simp only [List.mem_cons, List.not_mem_nil, or_false] at hs
    rcases hs with h | h <;> subst h <;> exact ⟨ready (by decide), by decide⟩
  · intro s hs
    simp only [List.mem_cons, List.not_mem_nil, or_false] at hs
    rcases hs with h | h <;> subst h <;> exact ⟨ready (by decide), by decide, by decide, by decide⟩

def atom0 : AtomF := { h := h0, dep := 0, fs := false, dst := sl 32 8, a := fi 0 14, x := fi 16 8, aop := 0, sz := false }

def atomn0 : AtomnF := { h := h0, dep := 0, fs := false, a := fi 0 14, x := fi 16 8, aop := 0, sz := false }

def cas0 : CasF := { h := h0, dep := 0, fs := false, dst := sl 32 8, a := fi 0 14, x := fi 16 8, pd := 0, sz := false, pe := false }

/-- Core 0 of a seam whose atomics reach HBM. -/
def mem2 : State := at' 0 0 fun k => putS 0 14 0x10000 (putS 16 8 5 (heap k))

theorem witness_ceAtomics :
    (∀ s ∈ [mem1, mem2], (Ready s (.atom atom0) ∧ s.here.slotOk s.cur.tag atom0.dst = true ∧ s.here.srcOk s.cur.tag false atom0.a = true ∧
        atomValOk s.here s.cur.tag true atom0.aop.toNat atom0.x = true) ∧
      (Ready s (.atomn atomn0) ∧ s.here.srcOk s.cur.tag false atomn0.a = true ∧ atomValOk s.here s.cur.tag true atomn0.aop.toNat atomn0.x = true) ∧
      (Ready s (.cas cas0) ∧ s.here.slotOk s.cur.tag cas0.dst = true ∧ s.here.srcOk s.cur.tag false cas0.a = true ∧ s.here.srcOk s.cur.tag true cas0.x = true) ∧
      s.here.addr s.cur.tag false atom0.a % 4 = 0) ∧
    mem1.here.inSeg = true ∧
    (∃ g, mem2.access (mem2.here.addr mem2.cur.tag false atom0.a) 4 useAtomic none = .ok g ∧ mem2.here.inSeg = false) ∧
    (mem1.here.inScratch (mem1.here.addr mem1.cur.tag false atom0.a) = false ∧
      ∃ g, mem1.access (mem1.here.addr mem1.cur.tag false atom0.a) 4 { useAtomic with stg := some true } none = .ok g ∧
        mem1.here.egress.length + 1 ≤ mem1.here.stageRoom) := by
  refine ⟨?_, by decide, granted (by decide), by decide, granted (by decide)⟩
  intro s hs
  simp only [List.mem_cons, List.not_mem_nil, or_false] at hs
  rcases hs with h | h <;> subst h <;>
    exact ⟨⟨ready (by decide), by decide, by decide, by decide⟩, ⟨ready (by decide), by decide, by decide⟩,
      ⟨ready (by decide), by decide, by decide, by decide⟩, by decide⟩

def fence0 (k c : Nat) : FenceF := { h := h0, k := BitVec.ofNat 2 k, c := BitVec.ofNat 3 c }

/-- Core 0 in a FIXED segment. -/
def mem3 : State := at' 0 0 fun k => inSeg 0 false (putS 0 14 (winAddr 0 1 0) (heap k))

theorem witness_ceFences :
    (Ready mem0 (.fence (fence0 1 1)) ∧ (fence0 1 1).c.toNat < 2) ∧
    (Ready mem3 (.fence (fence0 1 2)) ∧ 2 ≤ (fence0 1 2).c.toNat ∧ (fence0 1 2).k.getLsbD 0 = true ∧ mem3.here.inFixed = true) ∧
    (Ready mem0 (.fence (fence0 3 2)) ∧ 2 ≤ (fence0 3 2).c.toNat ∧ (mem0.here.inFixed = false ∧ mem0.hereE.readAt ≤ mem0.now ∧ ∀ x ∈ mem0.ceFlights, x.work.isLoad = false) ∧
      ∀ x ∈ mem0.ceFlights, x.work.isWrite = false) ∧
    (let f : QfenceF := { h := h0, m := 0x40 }
     Ready mem0 (.qfence f) ∧ ∀ t, t < 7 → f.m.getLsbD t = true → hasTag mem0.ct t = true ∧ mem0.engineDone t = true) ∧
    (let f : QfenceF := { h := h0, m := 0x10 }
     let s := at' 192 0 id
     Ready s (.qfence f) ∧ ∃ t, t < 7 ∧ f.m.getLsbD t = true ∧ hasTag s.ct t = false) := by
  refine ⟨⟨ready (by decide), by decide⟩, ⟨ready (by decide), by decide, by decide, by decide⟩,
    ⟨ready (by decide), by decide, ⟨by decide, by decide, by decide⟩, by decide⟩, ⟨ready (by decide), by decide⟩, ready (by decide), ⟨4, by decide⟩⟩

/-! ### Barriers, tags, traps, system registers -/

def bar0 : BarF := { h := h0, dep := 0, a := fi 0 14, e := im 1 }

def bwait0 : BwaitF := { h := h0, dep := 0, p := true, psrc := none, a := sl 0 14 }

theorem witness_ceBarrierObjects :
    (Ready mem0 (.bari bar0) ∧ mem0.here.srcOk mem0.cur.tag false bar0.a = true ∧ mem0.here.srcOk mem0.cur.tag true bar0.e = true ∧
      0 < mem0.here.ctlVal mem0.cur.tag true bar0.e ∧ mem0.here.ctlVal mem0.cur.tag true bar0.e < 2 ^ 32 ∧
      ∃ g, mem0.access (mem0.here.addr mem0.cur.tag false bar0.a) 16 useWrite none = .ok g ∧ g.runs.length = 1 ∧
        mem0.barrierPlace (g.runs.headD { va := 0, pa := 0, len := 0 }).pa = true) ∧
    (Ready mem0 (.barx bar0) ∧ ∃ g, mem0.access (mem0.here.addr mem0.cur.tag false bar0.a) 16 { useWrite with rd := true } none = .ok g ∧ g.runs.length = 1 ∧
      mem0.barrierPlace (g.runs.headD { va := 0, pa := 0, len := 0 }).pa = true ∧ mem0.stampOk (g.runs.headD { va := 0, pa := 0, len := 0 }).pa = true) ∧
    (let s := at' 0 0 fun k => { inSeg 0 false (putS 0 14 (winAddr 0 1 0) (heap k)) with openings := 1 }
     let s : State := { s with groups := [{ group0 with openings := 1 }] }
     Ready s (.barx bar0) ∧ ∃ g, s.access (s.here.addr s.cur.tag false bar0.a) 16 { useWrite with rd := true } none = .ok g ∧ g.runs.length = 1 ∧
      s.barrierPlace (g.runs.headD { va := 0, pa := 0, len := 0 }).pa = true ∧ s.stampOk (g.runs.headD { va := 0, pa := 0, len := 0 }).pa = false) ∧
    (Ready mem0 (.bwait bwait0) ∧ mem0.here.slotOk mem0.cur.tag bwait0.a = true ∧
      ∃ g, mem0.access (mem0.here.slotVal mem0.cur.tag bwait0.a % 2 ^ 56) 16 useRead none = .ok g ∧ g.runs.length = 1 ∧
        let pa := (g.runs.headD { va := 0, pa := 0, len := 0 }).pa
        mem0.barrierPlace pa = true ∧ mem0.stampOk pa = true ∧ (g.lat = none → mem0.here.inFixed = false) ∧ mem0.bariPending pa = false ∧
        (rdLe mem0.memAhead (pa + 8) 1).testBit 0 ≠ true) := by
  refine ⟨⟨ready (by decide), by decide, by decide, by decide, by decide, granted (by decide)⟩, ⟨ready (by decide), granted (by decide)⟩,
    ⟨ready (by decide), granted (by decide)⟩, ready (by decide), by decide, granted (by decide)⟩

/-- Tags 0 and 5 are set. -/
def tag0 : State := at' 0 0 fun k => putS 16 16 0x21 { k with tags := 0x21 }

def twait0 : TwaitF := { h := h0, dep := 0, all := true, clr := true, m := .slot (sl 16 16) }

def tffr0 : TffrF := { h := h0, dep := 0, wait := false, clr := false, dst := sl 32 2, k := sl 16 16 }

def trapf0 : F1 := { h := h0 }

/-- Flag DZ is raised and masked in. -/
def trap1 (seg : Bool) : State := at' 0 0 fun k => { (if seg then inSeg 0 true k else k) with flags := 2, fmask := 2 }

theorem witness_ceTagsAndTraps :
    (Ready tag0 (.twait twait0) ∧ maskOk tag0.here tag0.cur.tag twait0.m = true ∧ maskVal tag0.here tag0.cur.tag twait0.m ≠ 0 ∧
      tag0.here.tags.toNat &&& maskVal tag0.here tag0.cur.tag twait0.m = maskVal tag0.here tag0.cur.tag twait0.m) ∧
    (Ready ce0 (.twait { twait0 with m := .slot (sl 48 16) }) ∧ maskVal ce0.here ce0.cur.tag (.slot (sl 48 16)) = 0) ∧
    (Ready tag0 (.tffr tffr0) ∧ tag0.here.slotOk tag0.cur.tag tffr0.dst = true ∧ tag0.here.slotOk tag0.cur.tag tffr0.k = true ∧ 2 ≤ tffr0.dst.w ∧
      let got := tag0.here.tags.toNat &&& tag0.here.slotVal tag0.cur.tag tffr0.k
      got ≠ 0 ∧ got.testBit 0 = true ∧ ∀ j, j < 0 → got.testBit j = false) ∧
    (Ready ce0 (.tffr tffr0) ∧ tffr0.wait = false ∧ ce0.here.tags.toNat &&& ce0.here.slotVal ce0.cur.tag tffr0.k = 0) ∧
    (Ready ce0 (.tffr { tffr0 with wait := true, k := sl 48 16 }) ∧ ce0.here.slotVal ce0.cur.tag (sl 48 16) = 0) ∧
    (Ready tag0 (.tclr { h := h0, dep := 0, m := .one 5 }) ∧ maskOk tag0.here tag0.cur.tag (.one 5) = true) ∧
    (Ready ce0 (.trapf trapf0) ∧ ce0.flagsDone = true ∧ ce0.here.flagsAt ce0.now &&& ce0.here.fmask = 0) ∧
    (Ready (trap1 true) (.trapf trapf0) ∧ (trap1 true).flagsDone = true ∧ (trap1 true).here.flagsAt (trap1 true).now &&& (trap1 true).here.fmask ≠ 0 ∧
      (trap1 true).here.inSeg = true) ∧
    (Ready (trap1 false) (.trapf trapf0) ∧ (trap1 false).flagsDone = true ∧ (trap1 false).here.flagsAt (trap1 false).now &&& (trap1 false).here.fmask ≠ 0 ∧
      (trap1 false).here.inSeg = false ∧ (trap1 false).allDone = true) ∧
    (Ready (trap1 true) (.trap { h := h0, c := 9 }) ∧ (trap1 true).here.inSeg = true) ∧
    (Ready ce0 (.trap { h := h0, c := 9 }) ∧ ce0.here.inSeg = false ∧ ce0.allDone = true) ∧
    (({ tag0.here with sysq := [(5, 0x10, 1)] } : Core).sysq = [(5, 0x10, 1)] ∧ 5 ≤ (5 : Nat) ∧ (4 : Nat) < 5) := by
  refine ⟨⟨ready (by decide), by decide, by decide, by decide⟩, ⟨ready (by decide), by decide⟩,
    ⟨ready (by decide), by decide, by decide, by decide, by decide⟩, ⟨ready (by decide), by decide, by decide⟩, ⟨ready (by decide), by decide⟩,
    ⟨ready (by decide), by decide⟩, ⟨ready (by decide), by decide, by decide⟩, ⟨ready (by decide), by decide, by decide, by decide⟩,
    ⟨ready (by decide), by decide, by decide, by decide, by decide⟩, ⟨ready (by decide), by decide⟩,
    ⟨ready (by decide), by decide, by decide⟩, by decide⟩

def mfsr0 (n : Nat) : MfsrF := { h := h0, dep := 0, dst := sl 32 16, num := BitVec.ofNat 10 n }

def mtsr0 (n : Nat) : MtsrF := { h := h0, dep := 0, src := fi 0 8, num := BitVec.ofNat 10 n }

def rand0 : RandF := { h := h0, dep := 0, dst := sl 32 16, c := im 1, q := im 2 }

/-- Registers at the ends of their ranges, and numbers just beyond them. -/
theorem witness_ceSystemRegisters :
    (Ready ce0 (.segst { h := h0, dep := 0, sel := 7, dst := sl 32 8 }) ∧ ce0.here.slotOk ce0.cur.tag (sl 32 8) = true) ∧
    (Ready ce0 (.mfsr (mfsr0 0x7F)) ∧ ce0.here.slotOk ce0.cur.tag (sl 32 16) = true ∧ sysOk ce0.ct (mfsr0 0x7F).num.toNat = true) ∧
    (Ready ce0 (.mfsr (mfsr0 0xC0)) ∧ sysOk ce0.ct (mfsr0 0xC0).num.toNat = false) ∧
    (Ready ce0 (.rdtime { h := h0, dep := 0, dst := sl 32 16 }) ∧ Ready ce0 (.rdreck { h := h0, dep := 0, dst := sl 32 16 })) ∧
    (Ready ce0 (.rand rand0) ∧ ce0.here.srcOk ce0.cur.tag false rand0.c = true ∧ ce0.here.srcOk ce0.cur.tag true rand0.q = true) ∧
    (Ready ce0 (.cbqry { h := h0, dep := 0, cb := 2, sel := 7, dst := sl 32 16 }) ∧ ce0.here.slotOk ce0.cur.tag (sl 32 16) = true) ∧
    (Ready ce0 (.mtsr (mtsr0 5)) ∧ sysOk ce0.ct (mtsr0 5).num.toNat = false) ∧
    (Ready ce0 (.mtsr (mtsr0 4)) ∧ sysOk ce0.ct (mtsr0 4).num.toNat = true ∧ ce0.here.srcOk ce0.cur.tag false (mtsr0 4).src = true ∧ ce0.here.inSeg = false) ∧
    (Ready mem3 (.mtsr (mtsr0 0x12)) ∧ sysOk mem3.ct (mtsr0 0x12).num.toNat = true ∧ mem3.here.srcOk mem3.cur.tag false (mtsr0 0x12).src = true ∧
      mem3.here.inSeg = true ∧ seamOnly (mtsr0 0x12).num.toNat = true) ∧
    (Ready ce0 (.pace { h := h0, dep := 0, t := 6, arg := .imm 255 }) ∧ hasTag ce0.ct 6 = true ∧ ce0.here.inSeg = false) ∧
    (Ready ce0 (.pace { h := h0, dep := 0, t := 5, arg := .imm 255 })) ∧
    (Ready mem3 (.pace { h := h0, dep := 0, t := 6, arg := .imm 255 }) ∧ mem3.here.inSeg = true) ∧
    (Ready ce0 (.pace { h := h0, dep := 0, t := 6, arg := .slot (sl 0 2) }) ∧ ce0.here.slotOk ce0.cur.tag (sl 0 2) = true ∧ (sl 0 2).w ≤ 2) ∧
    Ready ce0 (.hint { h := h0, hint := 3 }) := by
  refine ⟨⟨ready (by decide), by decide⟩, ⟨ready (by decide), by decide, by decide⟩, ⟨ready (by decide), by decide⟩,
    ⟨ready (by decide), ready (by decide)⟩, ⟨ready (by decide), by decide, by decide⟩, ⟨ready (by decide), by decide⟩, ⟨ready (by decide), by decide⟩,
    ⟨ready (by decide), by decide, by decide, by decide⟩, ⟨ready (by decide), by decide, by decide, by decide, by decide⟩,
    ⟨ready (by decide), by decide, by decide⟩, ready (by decide), ⟨ready (by decide), by decide⟩, ⟨ready (by decide), by decide, by decide⟩, ready (by decide)⟩

theorem witness_ceGuardedOff :
    (let f := { add0 with h := hOff }
     Clear ce0 (.add f) ∧ ce0.midLoop (encode (.add f)).length = true ∧ ce0.enabled (guardOf (.add f)) = false ∧
       ce0.here.ce2Ok ce0.cur.tag f.dst f.a f.b = true) ∧
    (let f := { mov0 with h := hOff }
     Clear ce0 (.mov f) ∧ ce0.midLoop (encode (.mov f)).length = true ∧ ce0.enabled (guardOf (.mov f)) = false ∧ ce0.here.slotOk ce0.cur.tag f.dst = true ∧
       ce0.here.srcOk ce0.cur.tag false f.a = true) ∧
    (let f := { ld0 with h := hOff }
     Clear mem0 (.ld f) ∧ mem0.midLoop (encode (.ld f)).length = true ∧ mem0.enabled (guardOf (.ld f)) = false ∧
       ∀ x c n page, planLd f (mem0.modHereE fun e => { e with asked := true, ask := [] }) = .bad x c n page → c.atIssue = false) ∧
    (let f := { twait0 with h := hOff, m := .slot (sl 48 16) }
     (∀ x, exec (.twait f) x = issue x (.twait f) (planTwait f)) ∧ isAll (.twait f) = false ∧ Clear ce0 (.twait f) ∧
       ce0.midLoop (encode (.twait f)).length = true ∧ ce0.enabled (guardOf (.twait f)) = false ∧
       ∃ x c n page, planTwait f (ce0.modHereE fun e => { e with asked := true, ask := [] }) = .bad x c n page ∧ c.atIssue = true) ∧
    (let f := { twait0 with h := hOff }
     (∀ x, exec (.twait f) x = issue x (.twait f) (planTwait f)) ∧ Clear ce0 (.twait f) ∧ ce0.enabled (guardOf (.twait f)) = false ∧
       ∀ x c n page, planTwait f (ce0.modHereE fun e => { e with asked := true, ask := [] }) = .bad x c n page → c.atIssue = false) := by
  refine ⟨⟨clear (by decide), by decide, by decide, by decide⟩, ⟨clear (by decide), by decide, by decide, by decide, by decide⟩,
    ⟨clear (by decide), by decide, by decide, laterFault (by decide)⟩,
    ⟨fun _ => rfl, by decide, clear (by decide), by decide, by decide, issueFaults (by decide)⟩,
    fun _ => rfl, clear (by decide), by decide, laterFault (by decide)⟩

/-! ### Words of the ALL class -/

/-- A core whose branch target k holds `t`, with the loops `ls` in every engine of its own. -/
def all0 (c tag t : Nat) (ls : List LoopSt) : State :=
  at' c tag fun k => { k with bt := [(1, BitVec.ofNat 32 t)], eng := (tagsOf (coreType c)).map fun u => (u, { Engine.reset with loops := ls }) }

/-- The same with an outcome of the CE at the engine. -/
def all1 (c tag t : Nat) (ls : List LoopSt) (taken : Bool) : State :=
  at' c tag fun k => { k with bt := [(1, BitVec.ofNat 32 t)], eng := (tagsOf (coreType c)).map fun u =>
    (u, { Engine.reset with loops := ls, outq := [{ tick := 900, taken := taken, count := 4 }] }) }

def gOn : Guard := { gd := true, p := 0, s := true }

def gOff : Guard := { gd := true, p := 0, s := false }

def gNo : Guard := { gd := false, p := 0, s := false }

theorem witness_targetsAndBranches :
    (Clear ce0 (.nop 511) ∧ ce0.midLoop (encode (.nop 511)).length = true) ∧
    (Ready ce0 (.pbr { k := 1, rel := true, target := 15 }) ∧ ((ce0.hereE.pc + (15#28).toInt) % 2 ^ 28).toNat = 15 ∧ 15 < ce0.here.stream.length) ∧
    (Ready ce0 (.pbr { k := 1, rel := false, target := 16 }) ∧ ce0.cur.tag = 0 ∧ ce0.here.stream.length ≤ (16#28).toNat) ∧
    (let s := all0 0 0 16 []
     Clear s (.br { g := gNo, k := 1 }) ∧ s.midLoop 1 = true ∧ s.cur.tag = 0 ∧ s.enabled gNo = true ∧ s.here.stream.length ≤ (s.here.btOf 1).toNat) ∧
    (let s := all0 0 3 16 []
     Clear s (.br { g := gNo, k := 1 }) ∧ s.midLoop 1 = true ∧ s.cur.tag ≠ 0 ∧ gNo.gd = false ∧ s.here.stream.length ≤ (s.here.btOf 1).toNat) ∧
    (let s := ((all0 0 3 16 []).modHereE fun e => { e with links := [15] }).modHere fun k => k.modEngine 0 fun e => { e with idx := 1 }
     Clear s (.brl { g := gNo, l := 1, k := 1 }) ∧ s.midLoop 1 = true ∧ s.here.handed s.cur.tag 1 1 = true ∧ gNo.gd = false ∧ s.enabled gNo = true ∧
       s.hereE.links.headD 0 < s.here.stream.length) ∧
    (let s := all0 0 0 15 []
     Clear s (.brl { g := gNo, l := 2, k := 1 }) ∧ s.midLoop 1 = true ∧ gNo.gd = false ∧ s.enabled gNo = true ∧ (s.here.btOf 1).toNat < s.here.stream.length) ∧
    (let s := all0 0 0 15 []
     Clear s (.br { g := gOn, k := 1 }) ∧ gOn.gd = true ∧ s.cur.tag = 0 ∧ s.enabled gOn = true ∧ (s.here.btOf 1).toNat < s.here.stream.length ∧
       s.here.outFull s.ct = false) ∧
    (let s := all0 0 0 15 []
     Clear s (.br { g := gOff, k := 1 }) ∧ gOff.gd = true ∧ s.cur.tag = 0 ∧ s.enabled gOff = false ∧ s.here.outFull s.ct = false) ∧
    (∀ b ∈ [true, false], let s := all1 0 3 15 [] b
     Clear s (.br { g := gOn, k := 1 }) ∧ s.midLoop 1 = true ∧ gOn.gd = true ∧ s.cur.tag ≠ 0 ∧ s.hereE.outcome s.now = some { tick := 900, taken := b, count := 4 }) := by
  refine ⟨⟨clear (by decide), by decide⟩, ⟨ready (by decide), by decide, by decide⟩, ⟨ready (by decide), by decide, by decide⟩,
    ⟨clear (by decide), by decide, by decide, by decide, by decide⟩, ⟨clear (by decide), by decide, by decide, by decide, by decide⟩,
    ⟨clear (by decide), by decide, by decide, by decide, by decide, by decide⟩, ⟨clear (by decide), by decide, by decide, by decide, by decide⟩,
    ⟨clear (by decide), by decide, by decide, by decide, by decide, by decide⟩, ⟨clear (by decide), by decide, by decide, by decide, by decide⟩, ?_⟩
  intro b hb
  simp only [List.mem_cons, List.not_mem_nil, or_false] at hb
  rcases hb with h | h <;> subst h <;> exact ⟨clear (by decide), by decide, by decide, by decide, by decide⟩

def loop0 : LoopF := { n := 0, csrc := false, count := 4, last := 15 }

def ls1 : LoopSt := { n := 0, cnt := 3, first := 0, last := 9 }

/-- A loop that ends at the last word of the stream, and one beyond. -/
theorem witness_loopsBeginAndBreak :
    (Ready ce0 (.loop loop0) ∧ ¬(loop0.last.toNat < 2 ∨ ce0.here.stream.length ≤ ce0.hereE.pc + loop0.last.toNat) ∧
      ¬(4 ≤ ce0.hereE.loops.length ∨ (∃ l ∈ ce0.hereE.loops, l.n = 0) ∨ ∃ l ∈ ce0.hereE.loops, l.last ≤ 15) ∧ loop0.csrc = false) ∧
    (Ready ce0 (.loop { loop0 with last := 16 }) ∧ ce0.cur.tag = 0 ∧ ce0.here.stream.length ≤ ce0.hereE.pc + (16#14).toNat) ∧
    (let s := all0 0 0 0 [ls1]
     Ready s (.loop { loop0 with last := 4 }) ∧ ∃ l ∈ s.hereE.loops, l.n = 0) ∧
    (let f := { loop0 with csrc := true }
     Ready ce0 (.loop f) ∧ f.csrc = true ∧ ce0.here.slotOk 0 (countSlot f) = true ∧ (countSlot f).w ≤ 8 ∧ ce0.here.outFull ce0.ct = false) ∧
    (let f := { loop0 with csrc := true }
     let s := all1 0 3 0 [] false
     Ready s (.loop f) ∧ s.cur.tag ≠ 0 ∧ s.hereE.outcome s.now = some { tick := 900, taken := false, count := 4 }) ∧
    (Clear ce0 (.lbrk { g := gNo, n := 1 }) ∧ ce0.midLoop 1 = true ∧ ce0.cur.tag = 0 ∧ ∀ l ∈ ce0.hereE.loops, l.n ≠ 1) ∧
    (let s := all0 0 0 0 [ls1]
     (∀ g ∈ [gNo, gOn, gOff], Clear s (.lbrk { g := g, n := 0 })) ∧ s.midLoop 1 = true ∧ s.hereE.loops[0]? = some ls1 ∧ ls1.n = (0#2).toNat ∧
       s.here.outFull s.ct = false ∧ s.enabled gNo = true ∧ s.enabled gOn = true ∧ s.enabled gOff = false) ∧
    (∀ b ∈ [true, false], let s := all1 0 3 0 [ls1] b
     Clear s (.lbrk { g := gOn, n := 0 }) ∧ s.midLoop 1 = true ∧ s.cur.tag ≠ 0 ∧ s.hereE.outcome s.now = some { tick := 900, taken := b, count := 4 }) := by
  refine ⟨⟨ready (by decide), by decide, by decide, by decide⟩, ⟨ready (by decide), by decide, by decide⟩, ⟨ready (by decide), by decide⟩,
    ⟨ready (by decide), by decide, by decide, by decide, by decide⟩, ⟨ready (by decide), by decide, by decide⟩,
    ⟨clear (by decide), by decide, by decide, by decide⟩, ⟨?_, by decide, by decide, by decide, by decide, by decide, by decide, by decide⟩, ?_⟩
  · intro g hg
    simp only [List.mem_cons, List.not_mem_nil, or_false] at hg
    rcases hg with h | h | h <;> subst h <;> exact clear (by decide)
  · intro b hb
    simp only [List.mem_cons, List.not_mem_nil, or_false] at hb
    rcases hb with h | h <;> subst h <;> exact ⟨clear (by decide), by decide, by decide, by decide⟩

/-- A loop whose last word is the engine's own word, with iterations left and at its last. -/
theorem witness_loopEnds :
    (((all0 0 0 0 [{ ls1 with last := 0 }]).core 0).engine 0).loops = [{ ls1 with last := 0 }] ∧
    (((all0 0 0 0 [{ ls1 with last := 0 }]).core 0).engine 0).pc ≤ 0 ∧ 0 < (((all0 0 0 0 [{ ls1 with last := 0 }]).core 0).engine 0).pc + 1 ∧
    ({ ls1 with last := 0 } : LoopSt).cnt ≠ 1 ∧ (((all0 0 0 0 [{ ls1 with last := 0, cnt := 1 }]).core 0).engine 0).loops = [{ ls1 with last := 0, cnt := 1 }] := by
  decide

/-! ### Join words and segments -/

/-- Every engine of core `c` has arrived at the join word. -/
def join0 (c : Nat) (f : Core → Core) : State := at' c 0 fun k => f (arrivedAll c k)

theorem witness_joins :
    ((join0 0 id).hereE.waits = none ∧ ∀ t ∈ tagsOf (join0 0 id).ct, ((join0 0 id).here.engine t).loops = []) ∧
    (AtJoin (join0 0 id) (.gbar 1) ∧ (join0 0 id).groupOf (join0 0 id).cur.core = some group0 ∧ (join0 0 id).here.joined (join0 0 id).ct = some 999 ∧ group0.bar = none) ∧
    (∀ b ∈ [(1#4), 2#4], let g : Group := { group0 with bar := some { id := b, first := 998, last := 998, cores := [128] } }
     let s : State := { join0 0 id with groups := [g] }
     AtJoin s (.gbar 1) ∧ s.groupOf s.cur.core = some g) ∧
    (AtJoin (join0 0 id) (.ckdiv 0x8) ∧ ∀ t, t < 7 → bitsN (0x8#28).toNat (4 * t) 4 ≤ 8 ∧ (bitsN (0x8#28).toNat (4 * t) 4 ≠ 0 → hasTag (join0 0 id).ct t = true)) ∧
    (AtJoin (join0 0 id) (.ckdiv 0x9) ∧ ∃ t, t < 7 ∧ 8 < bitsN (0x9#28).toNat (4 * t) 4) ∧
    AtJoin (join0 0 id) .slipw ∧
    (ce0.brkEnabled = false ∧ Clear ce0 (.brk 7) ∧ ce0.midLoop 1 = true) ∧
    (∀ p ∈ [true, false], let s : State := { join0 0 fun k => k.modEngine 0 fun e => { e with primed := p } with creg := [(0x600, 1)] }
     s.brkEnabled = true ∧ AtJoin s (.brk 7) ∧ s.hereE.primed = p) := by
  refine ⟨⟨by decide, by decide⟩, ⟨atJoin (by decide), by decide, by decide, by decide⟩, ?_, ⟨atJoin (by decide), by decide⟩, ⟨atJoin (by decide), ⟨0, by decide⟩⟩,
    atJoin (by decide), ⟨by decide, clear (by decide), by decide⟩, ?_⟩
  · intro b hb
    simp only [List.mem_cons, List.not_mem_nil, or_false] at hb
    rcases hb with h | h <;> subst h <;> exact ⟨atJoin (by decide), by decide⟩
  · intro b hb
    simp only [List.mem_cons, List.not_mem_nil, or_false] at hb
    rcases hb with h | h <;> subst h <;> exact ⟨by decide, atJoin (by decide), by decide⟩

/-- A launch of one unit, whose shape has a FIXED and an OPEN segment. -/
def node0 : Node :=
  { preds := [], image := { exact := false, portable := false, seed := 0, shapes := [{ shape := 3, streams := [], descs := [seg0 false, seg0 true] }], eqps := [], tmpl := [] },
    imgBytes := [], shapes := 8, trav := 0, swz := 0, det := 0, kill := 0, gx := 1, gy := 1, gz := 1, tokens := 1, args := 0, seed := 0, energyQ := 0, trace := 0,
    tracelen := 0, traced := 0, digest := 0, outs := [], ctr := { va := 0, done := 0, total := 1, st := 0, cseq := 0, failed := false }, energy := 0, requeues := 0,
    nextK := 1, units := [], cancelled := false }

def graph0 : Graph := { handle := 1, single := true, job := 0, phase := 0, ctr := { va := 0, done := 0, total := 1, st := 0, cseq := 0, failed := false }, nodes := [node0] }

def seam0 : State := { join0 0 id with graphs := [graph0] }

/-- A stream that begins with SEG.OPEN 1. -/
def wordsOpen : List W32 := encode (.segOpen 1) ++ List.replicate 15 0x0E000000#32

/-- A core of the group that runs a stream. -/
def runs0 (c : Nat) : Core := { Core.reset c with grp := some 0, stream := List.replicate 16 0x0E000000#32 }

/-- Core 0 at the join of its segment, with the loops `ls` in every engine, and other cores. -/
def closing0 (openKind : Bool) (ls : List LoopSt) (more : List (Nat × Core)) : State :=
  let s := at' 0 0 fun k => let k := arrivedAll 0 (inSeg 0 openKind k)
    { k with eng := k.eng.map fun p => (p.1, { p.2 with loops := ls }) }
  { s with cores := s.cores ++ more }

def segm0 : State := { join0 0 (inSeg 0 true) with graphs := [graph0] }

theorem witness_segmentMarkers :
    (AtJoin segm0 (.segOpen 0) ∧ segm0.groupOf segm0.cur.core = some group0 ∧ segm0.here.inSeg = true) ∧
    (AtJoin seam0 (.segOpen 1) ∧ seam0.groupOf seam0.cur.core = some group0 ∧ seam0.here.inSeg = false ∧ group0.pend = none ∧ seam0.asyncFixed 0 = false ∧
      seam0.asyncOpen 0 = false ∧ group0.leave = none ∧ openFaultOf seam0 group0 (1#28).toNat = none ∧ (seam0.descsOf group0)[(1#28).toNat]? = some (seg0 true) ∧
      (seg0 true).foot = 0) ∧
    (let g : Group := { group0 with leave := some .vanish }
     let s : State := { join0 0 (fun k => { k with stream := wordsOpen }) with graphs := [graph0], groups := [g] }
     AtJoin s (.segOpen 1) ∧ s.groupOf s.cur.core = some g ∧ s.here.inSeg = false ∧ g.pend = none ∧ s.asyncFixed 0 = false ∧ s.asyncOpen 0 = false ∧
      g.leave = some .vanish ∧ ∀ x ∈ g.cores, (s.core x).active = true → (s.core x).atOpen x = true) ∧
    (AtJoin seam0 .segClose ∧ seam0.here.seg = none) ∧
    (let s := closing0 true [] []
     AtJoin s .segClose ∧ s.groupOf s.cur.core = some group0 ∧ ∃ sg, s.here.seg = some sg ∧
       (∀ t ∈ tagsOf s.ct, ∀ l ∈ (s.here.engine t).loops, l.fresh = false) ∧ s.here.ownBeads s.ct = false ∧ group0.pend = none ∧
       s.segDone group0 = true ∧ s.closeCheck group0 sg = none ∧ s.othersClosed group0 = true ∧ s.stageBad group0 = none ∧ s.commitBlocked group0 = []) ∧
    (let s := closing0 true [{ ls1 with fresh := true }] []
     AtJoin s .segClose ∧ ∃ sg, s.here.seg = some sg ∧ ¬(∀ t ∈ tagsOf s.ct, ∀ l ∈ (s.here.engine t).loops, l.fresh = false)) ∧
    (let s := closing0 false [] []
     AtJoin s .segClose ∧ ∃ sg, s.here.seg = some sg ∧ s.segDone group0 = true ∧ s.closeCheck group0 sg ≠ none) ∧
    (let s := closing0 true [] [(128, arrivedAll 128 (inSeg 128 true (runs0 128)))]
     AtJoin s .segClose ∧ s.groupOf s.cur.core = some group0 ∧ ∃ sg, s.here.seg = some sg ∧ s.segDone group0 = true ∧ s.closeCheck group0 sg = none ∧
       s.othersClosed group0 = false) ∧
    (AtJoin segm0 .halt ∧ segm0.here.inSeg = true) ∧
    (AtJoin seam0 .halt ∧ seam0.groupOf seam0.cur.core = some group0 ∧ seam0.here.inSeg = false ∧ seam0.asyncFixed seam0.cur.core = false ∧
      seam0.asyncOpen seam0.cur.core = false ∧ group0.leave ≠ some .vanish) := by
  refine ⟨⟨atJoin (by decide), by decide, by decide⟩,
    ⟨atJoin (by decide), by decide, by decide, by decide, by decide, by decide, by decide, by decide, by decide, by decide⟩, ⟨atJoin (by decide), by decide, by decide, by decide, by decide, by decide, by decide, by decide⟩,
    ⟨atJoin (by decide), by decide⟩,
    ⟨atJoin (by decide), by decide, _, rfl, by decide, by decide, by decide, by decide, by decide, by decide, by decide, by decide⟩,
    ⟨atJoin (by decide), _, rfl, by decide⟩, ⟨atJoin (by decide), _, rfl, by decide, by decide⟩,
    ⟨atJoin (by decide), by decide, _, rfl, by decide, by decide, by decide⟩,
    ⟨atJoin (by decide), by decide⟩, atJoin (by decide), by decide, by decide, by decide, by decide, by decide⟩

/-! ### The vector engine -/

/-- The VE of core 128. -/
def ve0 : State := at' 128 1 id

def sub6 : Sub := { sub0 with fmt := 6 }

/-- 32-bit elements, two in each operand. -/
def v0 : S3 := { h := h0, dep := 0, es := 3, fs := true, dst := sl 32 16, a := fi 0 16, b := fi 16 16, sub := sub0 }

def va0 : S3a := { h := h0, dep := 0, es := 3, fs := true, dst := sl 32 16, a := fi 0 16, sub := sub0 }

theorem witness_vectorIntegers :
    ((Ready ve0 (.vadd v0) ∧ Ready ve0 (.vmul v0)) ∧ v0.sub.fmt = 0 ∧ veOk2 ve0.here ve0.cur.tag v0 = true ∧ ve0.here.lslotOk ve0.cur.tag v0.dst = true) ∧
    Ready ve0 (.vand v0) ∧ Ready ve0 (.vshl v0) ∧
    (Ready ve0 (.vabs va0) ∧ va0.sub.fmt = 0 ∧ ve0.here.lsrcOk ve0.cur.tag false va0.a = true ∧ ve0.here.lW ve0.cur.tag false va0.dst.w va0.a = true ∧
      wholeEls (esBits va0.es) va0.dst.w = true ∧ ve0.here.lslotOk ve0.cur.tag va0.dst = true) := by
  refine ⟨⟨⟨ready (by decide), ready (by decide)⟩, by decide, by decide, by decide⟩, ready (by decide), ready (by decide),
    ready (by decide), by decide, by decide, by decide, by decide, by decide⟩

def vf0 : S3 := { v0 with sub := sub6 }

def vc0 (fmt : Nat) : S3c :=
  { h := h0, dep := 0, es := 3, fs := true, dst := sl 32 16, a := fi 0 16, b := fi 16 16, c := { win := 0, off := 48, fmt := BitVec.ofNat 3 fmt, rms := false } }

theorem witness_vectorFloats :
    (Ready ve0 (.vadd vf0) ∧ vf0.sub.fmt ≠ 0 ∧ veOk2 ve0.here ve0.cur.tag vf0 = true ∧ ve0.here.lslotOk ve0.cur.tag vf0.dst = true) ∧ Ready ve0 (.vmin vf0) ∧
    (Ready ve0 (.vneg { va0 with sub := sub6 }) ∧ ve0.here.lsrcOk ve0.cur.tag false va0.a = true ∧ ve0.here.lW ve0.cur.tag false va0.dst.w va0.a = true ∧
      wholeEls (esBits va0.es) va0.dst.w = true) ∧
    (Ready ve0 (.vfma (vc0 6)) ∧ Ready ve0 (.vfms (vc0 0)) ∧ veOk3 ve0.here ve0.cur.tag (vc0 6) = true ∧ veOk3 ve0.here ve0.cur.tag (vc0 0) = true ∧
      ve0.here.lslotOk ve0.cur.tag (vc0 6).dst = true) := by
  refine ⟨⟨ready (by decide), by decide, by decide, by decide⟩, ready (by decide), ⟨ready (by decide), by decide, by decide, by decide⟩,
    ready (by decide), ready (by decide), by decide, by decide, by decide⟩

def vcmp0 : S3cmp := { h := h0, dep := 0, es := 3, fs := true, pd := 3, mode := 0, a := fi 0 8, b := fi 16 8, sub := sub0 }

def vmov0 : S2r := { h := h0, dep := 0, es := 3, fs := false, dst := sl 32 16, a := fi 0 16 }

theorem witness_vectorCompareAndMove :
    (Ready ve0 (.vcmp vcmp0) ∧ ve0.here.lsrcOk ve0.cur.tag false vcmp0.a = true ∧ ve0.here.lsrcOk ve0.cur.tag true vcmp0.b = true ∧
      ve0.here.lW ve0.cur.tag false (esBits vcmp0.es / 4) vcmp0.a = true ∧ ve0.here.lW ve0.cur.tag true (esBits vcmp0.es / 4) vcmp0.b = true ∧
      ∀ l, l < 64 → (0xFFFFFFFFFFFFFFFF#64).getLsbD l =
        if l ∈ ve0.lanesFor vcmp0.h.g then
          condOf vcmp0.sub.fmt vcmp0.fs vcmp0.sub.cond.toNat 32 (ve0.here.lsrcVal 1 l false vcmp0.sub.fmt vcmp0.fs 32 8 vcmp0.a)
            (ve0.here.lsrcVal 1 l true vcmp0.sub.fmt vcmp0.fs 32 8 vcmp0.b)
        else (ve0.here.vpredOf vcmp0.pd.toNat).getLsbD l) ∧
    (Ready ve0 (.vsel (vc0 0)) ∧ veOk3 ve0.here ve0.cur.tag (vc0 0) = true ∧ ve0.here.lslotOk ve0.cur.tag (vc0 0).dst = true) ∧
    (Ready ve0 (.vmov vmov0) ∧ ve0.here.lsrcOk ve0.cur.tag false vmov0.a = true ∧ ve0.here.lW ve0.cur.tag false vmov0.dst.w vmov0.a = true ∧
      wholeEls (esBits vmov0.es) vmov0.dst.w = true ∧ ve0.here.lslotOk ve0.cur.tag vmov0.dst = true) ∧
    Ready ve0 (.viota { vmov0 with a := im 3 }) := by
  refine ⟨⟨ready (by decide), by decide, by decide, by decide, by decide, by decide⟩, ⟨ready (by decide), by decide, by decide⟩,
    ⟨ready (by decide), by decide, by decide, by decide, by decide⟩, ready (by decide)⟩

/-- From FP32 to S16, two elements. -/
def vcvt0 : VcvtF := { h := h0, dep := 0, es := 2, fs := true, dst := sl 32 8, a := fi 0 16, sf := 6, ss := false, se := 3, sub := sub0 }

theorem witness_vectorConversions :
    (Ready ve0 (.vcvt vcvt0) ∧ ve0.here.lsrcOk ve0.cur.tag false vcvt0.a = true ∧ ve0.here.lslotOk ve0.cur.tag vcvt0.dst = true ∧
      wholeEls (esBits vcvt0.es) vcvt0.dst.w = true ∧ wholeEls 32 (ve0.here.srcW ve0.cur.tag false 16 vcvt0.a) = true ∧
      4 * ve0.here.srcW ve0.cur.tag false 16 vcvt0.a / 32 = 4 * vcvt0.dst.w / 16) ∧
    (Ready ve0 (.vpack v0) ∧ veOk2 ve0.here ve0.cur.tag v0 = true ∧ 8 ≤ esBits v0.es ∧ ve0.here.lslotOk ve0.cur.tag v0.dst = true) ∧
    (let f := { va0 with es := 1 }
     Ready ve0 (.vunpk f) ∧ ve0.here.lsrcOk ve0.cur.tag false f.a = true ∧ ve0.here.lW ve0.cur.tag false f.dst.w f.a = true ∧
      wholeEls (esBits f.es) f.dst.w = true ∧ 4 * f.dst.w / esBits f.es % 2 = 0) := by
  refine ⟨⟨ready (by decide), by decide, by decide, by decide, by decide, by decide⟩, ⟨ready (by decide), by decide, by decide, by decide⟩,
    ready (by decide), by decide, by decide, by decide, by decide⟩

def vb0 (xs : Nat) : S3 := { v0 with b := im 65, sub := { sub0 with xs := BitVec.ofNat 2 xs } }

theorem witness_vectorLaneMoves :
    (veOkCtl ve0.here ve0.cur.tag (vb0 0) = true ∧ ve0.here.lslotOk ve0.cur.tag (vb0 0).dst = true ∧ Ready ve0 (.vbcast (vb0 0)) ∧ (vb0 0).sub.xs = 0) ∧
    (veOkCtl ve0.here ve0.cur.tag (vb0 1) = true ∧ Ready ve0 (.vbcast (vb0 1)) ∧ (vb0 1).sub.xs ≠ 0) ∧ Ready ve0 (.vperm (vb0 1)) ∧
    (∀ x ∈ [0, 1, 2], veOkCtl ve0.here ve0.cur.tag (vb0 x) = true ∧ Ready ve0 (.vrot (vb0 x))) ∧
    (Ready ve0 (.vshuf v0) ∧ veOk2 ve0.here ve0.cur.tag v0 = true) := by
  refine ⟨⟨by decide, by decide, ready (by decide), by decide⟩, ⟨by decide, ready (by decide), by decide⟩, ready (by decide), ?_, ready (by decide), by decide⟩
  intro x hx
  simp only [List.mem_cons, List.not_mem_nil, or_false] at hx
  rcases hx with h | h | h <;> subst h <;> exact ⟨by decide, ready (by decide)⟩

/-- A reduction with the control word `v`. -/
def vr0 (v w : Nat) : S3 := { v0 with b := im v, dst := sl 32 w }

def vdot0 : S3c := { (vc0 0) with es := 1, dst := sl 32 8, c := { win := 0, off := 48, fmt := 0, rms := false } }

theorem witness_vectorReductions :
    (ve0.here.lsrcOk ve0.cur.tag false (vr0 0 16).a = true ∧ ve0.here.lslotOk ve0.cur.tag (vr0 0 16).dst = true ∧ Ready ve0 (.vred (vr0 0 16)) ∧
      (BitVec.ofNat 14 0).getLsbD 3 = false ∧ ve0.here.lW ve0.cur.tag false 16 (vr0 0 16).a = true ∧ wholeEls 32 16 = true) ∧
    (Ready ve0 (.vred (vr0 8 8)) ∧ (BitVec.ofNat 14 8).getLsbD 3 = true ∧ (vr0 8 8).dst.w = esBits (vr0 8 8).es / 4 ∧
      wholeEls 32 (ve0.here.srcW ve0.cur.tag false 8 (vr0 8 8).a) = true) ∧
    (Ready ve0 (.vscan (vr0 8 16)) ∧ (BitVec.ofNat 14 8).getLsbD 3 = true) ∧ (Ready ve0 (.vscan (vr0 0 16)) ∧ (BitVec.ofNat 14 0).getLsbD 3 = false) ∧
    (Ready ve0 (.vdot vdot0) ∧ ve0.here.lsrcOk 1 false vdot0.a = true ∧ ve0.here.lsrcOk 1 true vdot0.b = true ∧
      ve0.here.lslotOk 1 (slotC vdot0.c vdot0.dst) = true ∧ ve0.here.lslotOk 1 vdot0.dst = true ∧ vdot0.dst.w = 8 ∧
      ve0.here.lW 1 false (ve0.here.srcW 1 false 8 vdot0.a) vdot0.a = true ∧ ve0.here.lW 1 true (ve0.here.srcW 1 false 8 vdot0.a) vdot0.b = true ∧
      wholeEls (esBits vdot0.es) (ve0.here.srcW 1 false 8 vdot0.a) = true) := by
  refine ⟨⟨by decide, by decide, ready (by decide), by decide, by decide, by decide⟩, ⟨ready (by decide), by decide, by decide, by decide⟩,
    ⟨ready (by decide), by decide⟩, ⟨ready (by decide), by decide⟩, ready (by decide), by decide, by decide, by decide, by decide, by decide, by decide, by decide, by decide⟩

/-- Base in scalar slices 0 to 5, stride `n`; 4 bytes in each lane. -/
def vld0 (n : Nat) : S3 := { h := h0, dep := 0, es := 0, fs := false, dst := sl 32 8, a := .scalar (sl 0 6) false, b := im n, sub := sub0 }

def vbase (b : Nat) : State := at' 128 1 (putS 0 6 b)

def inBuf (s : State) (f : S3) : Bool :=
  (s.lanesFor f.h.g).all fun l => decide (0 ≤ s.here.lctl 1 l false f.a + l * s.here.lctlS 1 l true f.b) &&
    decide (s.here.lctl 1 l false f.a + l * s.here.lctlS 1 l true f.b + (sliceBytes f.dst.w : Int) ≤ 2 ^ 22)

def spansOf (s : State) (f : S3) : List (Nat × Nat) :=
  (s.lanesFor f.h.g).map fun l => ((s.here.lctl 1 l false f.a + l * s.here.lctlS 1 l true f.b).toNat, sliceBytes f.dst.w)

/-- The last address that the buffer holds, and one beyond; lines of distinct banks, and of one. -/
theorem witness_vectorAccesses :
    (Ready (vbase (2 ^ 22 - 4)) (.vld (vld0 0)) ∧ inBuf (vbase (2 ^ 22 - 4)) (vld0 0) = true ∧ (vbase (2 ^ 22 - 4)).banked 16 (spansOf (vbase (2 ^ 22 - 4)) (vld0 0)) ≠ none) ∧
    (Ready (vbase (2 ^ 22 - 3)) (.vst (vld0 0)) ∧ inBuf (vbase (2 ^ 22 - 3)) (vld0 0) = false) ∧
    (Ready (vbase 0) (.vst (vld0 1024)) ∧ inBuf (vbase 0) (vld0 1024) = true ∧ (vbase 0).vprot (spansOf (vbase 0) (vld0 1024)) 8 = false ∧
      (vbase 0).banked 16 (spansOf (vbase 0) (vld0 1024)) = none) ∧
    (Ready (vbase 0) (.vldx { vld0 0 with sub := { sub0 with xs := 3 } }) ∧ (vbase 0).here.lsrcOk 1 false (vld0 0).a = true ∧
      (vbase 0).here.lsrcOk 1 true (vld0 0).b = true ∧ (vbase 0).here.lslotOk 1 (vld0 0).dst = true) ∧
    (let s := at' 128 1 fun k => let k := inSeg 128 true k
      { k with seg := k.seg.map fun g => { g with desc := { g.desc with prot := [{ base := winAddr 128 3 0, len := 64 }] } } }
     Ready s (.vst (vld0 0)) ∧ s.vprot [(0, 0)] 8 = true) := by
  refine ⟨⟨ready (by decide), by decide, by decide⟩, ⟨ready (by decide), by decide⟩, ⟨ready (by decide), by decide, by decide, by decide⟩,
    ⟨ready (by decide), by decide, by decide, by decide⟩, ready (by decide), by decide⟩

def vldc0 : VcbF := { h := h0, dep := 0, es := 3, fs := true, dst := sl 32 8, cb := 2, off := 0, b := im 4, sub := { sub6 with xs := 1 } }

def vbuf (b : Cb) : State := at' 128 1 fun k => k.setCb 2 b

theorem witness_vectorBuffers :
    (Ready ve0 (.vldc { vldc0 with dst := sl 32 3 }) ∧ ve0.here.lslotOk 1 (sl 32 3) = true ∧ wholeEls (esBits vldc0.es) 3 = false) ∧
    (Ready ve0 (.vldc vldc0) ∧ (ve0.here.cbOf vldc0.cb.toNat).ents = 0) ∧
    (let s := vbuf (buf 1 6)
     Ready s (.vldc vldc0) ∧ (s.here.cbOf 2).ents ≠ 0 ∧ (s.here.cbOf 2).space ≠ 3) ∧
    (let s := vbuf (buf 3 5)
     Ready s (.vstc vldc0) ∧ (s.here.cbOf 2).space = 3 ∧ attrRaw (s.here.cbOf 2).attr = false ∧ (s.here.cbOf 2).attr ≠ dataAttr vldc0.sub.fmt vldc0.es) ∧
    (let s := vbuf { (buf 3 6) with prod := 1 }
     Ready s (.vldc vldc0) ∧ s.here.lsrcOk s.cur.tag true vldc0.b = true ∧ s.here.lslotOk s.cur.tag vldc0.dst = true ∧ (s.here.cbOf 2).attr = dataAttr vldc0.sub.fmt vldc0.es ∧
      attrBlock (s.here.cbOf 2).attr = false ∧ (∀ l ∈ s.lanesFor vldc0.h.g, vldc0.off.toNat * 64 + l * s.here.lctl 1 l true vldc0.b + sliceBytes 8 ≤ (s.here.cbOf 2).size) ∧
      1 ≤ (s.here.cbOf 2).occ ∧ s.banked 16 ((s.lanesFor vldc0.h.g).map fun l => (l * 4, 4)) ≠ none) ∧
    (let s := vbuf (buf 3 6)
     Ready s (.vstc vldc0) ∧ s.vprot [(0, 0)] 8 = false ∧ 1 ≤ (s.here.cbOf 2).room s.now) ∧
    (let s := vbuf { (buf 3 6) with prod := 1 }
     let f := { vldc0 with off := 15 }
     Ready s (.vldc f) ∧ ∃ l ∈ s.lanesFor f.h.g, (s.here.cbOf 2).size < f.off.toNat * 64 + l * s.here.lctl 1 l true f.b + sliceBytes 8) := by
  refine ⟨⟨ready (by decide), by decide, by decide⟩, ⟨ready (by decide), by decide⟩, ⟨ready (by decide), by decide, by decide⟩,
    ⟨ready (by decide), by decide, by decide, by decide⟩,
    ⟨ready (by decide), by decide, by decide, by decide, by decide, by decide, by decide, by decide⟩, ⟨ready (by decide), by decide, by decide⟩,
    ready (by decide), ⟨63, by decide, by decide⟩⟩

/-! ### The normalise and quantise engines -/

/-- The NE and the QE of core 128. -/
def ne0 : State := at' 128 2 id

def qe0 : State := at' 128 3 id

/-- FP32, two elements. -/
def na0 : S3a := { va0 with sub := sub6 }

def nm0 (xs : Nat) : S3a := { va0 with sub := { sub6 with xs := BitVec.ofNat 2 xs } }

def nn0 : S3 := { v0 with b := fi 64 16, sub := sub6 }

theorem witness_normaliseEngine :
    (Ready ne0 (.nrsq na0) ∧ Ready ne0 (.ntanh na0) ∧ ne0.here.lsrcOk ne0.cur.tag false na0.a = true ∧ ne0.here.lW ne0.cur.tag false na0.dst.w na0.a = true ∧
      wholeEls (esBits na0.es) na0.dst.w = true ∧ ne0.here.lslotOk ne0.cur.tag na0.dst = true) ∧
    (Ready ne0 (.nmom (nm0 2)) ∧ (nm0 2).sub.xs.getLsbD 1 = true ∧ Ready ne0 (.nmom (nm0 1)) ∧ (nm0 1).sub.xs.getLsbD 1 = false ∧ Ready ne0 (.nsoft (nm0 0)) ∧
      wholeEls (esBits (nm0 0).es) (ne0.here.srcW 2 false 8 (nm0 0).a) = true ∧ (nm0 0).dst.w = 16) ∧
    (Ready ne0 (.nnorm nn0) ∧ ne0.here.lsrcOk 2 false nn0.a = true ∧ ne0.here.lsrcOk 2 true nn0.b = true ∧ ne0.here.lW 2 false nn0.dst.w nn0.a = true ∧
      ne0.here.srcW 2 true nn0.dst.w nn0.b = 16 ∧ wholeEls (esBits nn0.es) nn0.dst.w = true ∧ ne0.here.lslotOk 2 nn0.dst = true) := by
  refine ⟨⟨ready (by decide), ready (by decide), by decide, by decide, by decide, by decide⟩,
    ⟨ready (by decide), by decide, ready (by decide), by decide, ready (by decide), by decide, by decide⟩,
    ready (by decide), by decide, by decide, by decide, by decide, by decide, by decide⟩

def qs0 : QscaleF := { h := h0, dep := 0, es := 3, fs := true, dst := sl 32 8, a := fi 0 16, bf := 0xE, sub := sub6 }

/-- Q8 blocks of 64 elements, one of them in each entry of 128 bytes. -/
def blk (space attr prod : Nat) : Cb := { space := space, base := 0, ents := 4, size := 128, attr := BitVec.ofNat 5 attr, prod := BitVec.ofNat 32 prod, cons := 0, resv := [] }

def qbuf (b : Cb) : State := at' 128 3 fun k => k.setCb 2 b

def qd0 (n : Nat) : QdeqF := { h := h0, dep := 0, es := 3, fs := true, dst := sl 32 8, cb := 2, blk := BitVec.ofNat 10 n, sub := sub6 }

def qb0 (n : Nat) : QblkF := { h := h0, dep := 0, es := 3, fs := true, cb := 2, blk := BitVec.ofNat 10 n, a := fi 0 8, b := fi 0 1, sub := sub6 }

/-- The one block of an entry, and the block beyond it. -/
theorem witness_quantiseEngine :
    (Ready qe0 (.qamax na0) ∧ qe0.here.lsrcOk 3 false na0.a = true ∧ qe0.here.lW 3 false na0.dst.w na0.a = true ∧ wholeEls 32 na0.dst.w = true ∧
      qe0.here.lslotOk 3 na0.dst = true) ∧
    (Ready qe0 (.qscale qs0) ∧ qe0.here.lsrcOk 3 false qs0.a = true ∧ wholeEls 32 (qe0.here.srcW 3 false 16 qs0.a) = true ∧
      qs0.dst.w = 4 * (4 * qe0.here.srcW 3 false 16 qs0.a / 32)) ∧
    (Ready qe0 (.qsign { vf0 with b := im 65 }) ∧ veOkCtl qe0.here 3 { vf0 with b := im 65 } = true ∧ qe0.here.lslotOk 3 vf0.dst = true) ∧
    (Ready qe0 (.qdeq (qd0 0)) ∧ qe0.here.lslotOk 3 (qd0 0).dst = true ∧ wholeEls 32 (qd0 0).dst.w = true ∧ (qe0.here.cbOf 2).ents = 0) ∧
    (Ready (qbuf (blk 1 0xF 1)) (.qdeq (qd0 0)) ∧ ((qbuf (blk 1 0xF 1)).here.cbOf 2).space ≠ 3) ∧
    (Ready (qbuf (blk 3 6 1)) (.qdeq (qd0 0)) ∧ attrBlock ((qbuf (blk 3 6 1)).here.cbOf 2).attr = false) ∧
    (let s := qbuf (blk 3 0xF 1)
     Ready s (.qdeq (qd0 0)) ∧ attrBlock (s.here.cbOf 2).attr = true ∧ 0 + 1 ≤ blocksPer (s.here.cbOf 2).attr (s.here.cbOf 2).size ∧ 1 ≤ (s.here.cbOf 2).occ ∧
       s.banked 16 [(0, 64), (64, 2)] ≠ none ∧ Ready s (.qdeq (qd0 1)) ∧ blocksPer (s.here.cbOf 2).attr (s.here.cbOf 2).size < 1 + 1) ∧
    (Ready qe0 (.qblk (qb0 0)) ∧ qblkFault qe0 (qe0.here.cbOf 2) 0 1 8 false false = some .illegalOperand) ∧
    (let s := qbuf (blk 3 0xF 0)
     Ready s (.qblk (qb0 0)) ∧ s.here.lsrcOk 3 false (qb0 0).a = true ∧ wholeEls 32 (s.here.srcW 3 false 8 (qb0 0).a) = true ∧
       qblkFault s (s.here.cbOf 2) 0 1 8 false false = none ∧ 1 ≤ (s.here.cbOf 2).room s.now ∧ s.banked 16 [(0, 64), (64, 2)] ≠ none ∧
       qblkFault s (s.here.cbOf 2) 1 1 8 false false = some .illegalOperand) := by
  refine ⟨⟨ready (by decide), by decide, by decide, by decide, by decide⟩, ⟨ready (by decide), by decide, by decide, by decide⟩,
    ⟨ready (by decide), by decide, by decide⟩, ⟨ready (by decide), by decide, by decide, by decide⟩, ⟨ready (by decide), by decide⟩,
    ⟨ready (by decide), by decide⟩, ⟨ready (by decide), by decide, by decide, by decide, by decide, ready (by decide), by decide⟩, ⟨ready (by decide), by decide⟩,
    ready (by decide), by decide, by decide, by decide, by decide, by decide, by decide⟩

/-! ### The matrix engines -/

/-- The LE of core 0; the shadow plane in state `st`, and a running nest or none. -/
def le0 (f : Core → Core) : State := at' 0 1 f

/-- An image of FP16 takes 32 KiB: the last place for it in the W-buffer, and one beyond. -/
def lds0 (fmt a : Nat) : LdsF := { h := h0, dep := 0, fmt := BitVec.ofNat 5 fmt, a := im a }

def full (f : Nat) : Plane := { st := 2, fmt := BitVec.ofNat 5 f, img := [] }

/-- A nest of one pass, of FP16 records. -/
def tab0 : SMap W64 := [(13, BitVec.ofNat 64 (1 + 5 * 64))]

def run0 : NestRun :=
  { regs := tab0, aoff := 0, ua := false, uw := false, sign := .off, cons0 := 0, entered := 0, total := 1, stopAt := none, since := none, id := 0 }

def lbuf (space attr : Nat) : Cb := { space := space, base := 0, ents := 2, size := 0x10000, attr := BitVec.ofNat 5 attr, prod := 1, cons := 0, resv := [] }

def ldsc0 : LdscF := { h := h0, dep := 0, cb := 2, adv := true }

theorem witness_planeLoads :
    (Ready (le0 id) (.lds (lds0 0 0)) ∧ famOf 0 = 0) ∧ (Ready (le0 id) (.lds (lds0 5 65024)) ∧ (le0 id).here.loadWaits (le0 id).now = false ∧ famOf 5 ≠ 0 ∧
      (le0 id).here.srcOk 1 false (im 0) = true) ∧
    (let s := le0 fun k => { k with nestRun := some run0 }.setPlane k.act (full 6)
     Ready s (.lds (lds0 5 0)) ∧ s.here.loadWaits s.now = false ∧ s.here.nestRun ≠ none ∧ s.here.actPlane.st ≠ 0 ∧ (5#5) ≠ s.here.actPlane.fmt) ∧
    (∀ v ∈ [65024, 65025], let s := le0 (putS 0 4 v)
     Ready s (.lds { lds0 5 0 with a := fi 0 4 }) ∧ s.here.nestRun = none ∧ s.here.shPlane.st ≠ 2 ∧ s.here.ctlVal 1 false (fi 0 4) = v ∧ imageSize 5 = 32768) ∧
    (let s := le0 fun k => k.setPlane (!k.act) (full 5)
     Ready s (.lds (lds0 5 0)) ∧ s.here.loadWaits s.now = false ∧ s.here.shPlane.st = 2) ∧
    (Ready (le0 id) (.ldsc ldsc0) ∧ ((le0 id).here.cbOf 2).ents = 0) ∧
    (let s := le0 fun k => k.setCb 2 (lbuf 1 5)
     Ready s (.ldsc ldsc0) ∧ 1 ≤ (s.here.cbOf 2).occ ∧ (s.here.cbOf 2).space ≠ 0 ∧ s.here.loadWaits s.now = false) ∧
    (let s := le0 fun k => k.setCb 2 (lbuf 0 5)
     Ready s (.ldsc ldsc0) ∧ 1 ≤ (s.here.cbOf 2).occ ∧ s.here.loadWaits s.now = false ∧ loadFault s.here 5 false (decide (imageSize 5 ≤ 0x10000)) = none ∧
       Ready s (.ldscl ldsc0) ∧ loadFault s.here 5 true (decide (imageSize 5 ≤ 0x10000)) = some .format) ∧
    (let s := le0 fun k => (k.setCb 2 (lbuf 0 0xF)).setPlane (!k.act) (full 0xF)
     Ready s (.ldscl ldsc0) ∧ 1 ≤ (s.here.cbOf 2).occ ∧ loadFault s.here 0xF true (decide (imageSize 0xF ≤ 0x10000)) = none) ∧
    (Ready (le0 id) (.lflip { h := h0 }) ∧ (le0 id).here.nestRun = none ∧ (le0 id).here.shPlane.st ≠ 2) ∧
    (let s := le0 fun k => k.setPlane (!k.act) (full 5)
     Ready s (.lflip { h := h0 }) ∧ s.here.nestRun = none ∧ s.here.shPlane.st = 2) := by
  refine ⟨⟨ready (by decide), by decide⟩, ⟨ready (by decide), by decide, by decide, by decide⟩, ⟨ready (by decide), by decide, by decide, by decide, by decide⟩,
    ?_, ⟨ready (by decide), by decide, by decide⟩, ⟨ready (by decide), by decide⟩, ⟨ready (by decide), by decide, by decide, by decide⟩,
    ⟨ready (by decide), by decide, by decide, by decide, ready (by decide), by decide⟩, ⟨ready (by decide), by decide, by decide⟩,
    ⟨ready (by decide), by decide, by decide⟩, ready (by decide), by decide, by decide⟩
  intro v hv
  simp only [List.mem_cons, List.not_mem_nil, or_false] at hv
  rcases hv with h | h <;> subst h <;> exact ⟨ready (by decide), by decide, by decide, by decide, by decide⟩

/-- The XE of core 0 with a FULL active plane of FP16 and the nest registers `tab`. -/
def xe0 (tab : SMap W64) (f : Core → Core) : State := at' 0 3 fun k => f ({ k with nest := tab }.setPlane k.act (full 5))

def mma0 : MmaF := { h := h0, dep := 0, ua := false, uw := false, aoff := im 0 }

/-- Activations of FP16 from a buffer of one entry needed, which the nest releases. -/
def tabCb : SMap W64 := [(13, BitVec.ofNat 64 (1 + 5 * 64 + 2 ^ 11 + 2 * 2 ^ 12 + 2 ^ 16 + 2 ^ 28))]

def msign0 (en : Bool) (b : Src) : MsignF := { h := h0, dep := 0, en := en, b := b }

/-- A nest whose only pass is in flight, and one whose last pass has left. -/
def nestFl (due : Nat) : Flight :=
  { id := 0, core := 0, tag := 3, grp := 0, due := due, fixed := true, inseg := false, async := false, pos := 0, pc := 0, work := .nest }

def nestAt (stop : Option Nat) (busy : Bool) : State :=
  let s := at' 0 2 fun k => { k with nestRun := some { run0 with stopAt := stop } }
  { s with flights := [nestFl (if busy then 1000 else 2000)] }

theorem witness_nests :
    ((Ready (at' 0 2 id) (.msign (msign0 false (fi 0 1)))) ∧ Ready (at' 0 2 id) (.msign (msign0 true (fi 0 14))) ∧ (at' 0 2 id).here.srcOk 2 false (fi 0 14) = true ∧
      Ready (at' 0 2 id) (.msign (msign0 true (.latch false))) ∧ (at' 0 2 id).here.srcOk 2 false (.latch false) = false) ∧
    (let s := xe0 [(13, 8#64 * 8 + 64)] id
     let f := { mma0 with ua := true }
     Ready (xe0 tab0 id) (.mma f) ∧ famOf (nAfmt (xe0 tab0 id).here.nest) ≠ 0 ∧ attrInt (nAfmt (xe0 tab0 id).here.nest) = false ∧ s.here.nestRun = none) ∧
    (Ready (xe0 tabCb id) (.mma mma0) ∧ nUsecb (xe0 tabCb id).here.nest = true ∧ ((xe0 tabCb id).here.cbOf 2).ents = 0 ∧ (xe0 tabCb id).here.srcOk 3 false mma0.aoff = true) ∧
    (Ready (xe0 [] id) (.mma mma0) ∧ (xe0 [] id).here.nestRun = none ∧ nUsecb (xe0 [] id).here.nest = false ∧
      mmaFault (xe0 [] id) (xe0 [] id).here.nest 0 = some .illegalOperand) ∧
    (Ready (xe0 tab0 id) (.mma mma0) ∧ (xe0 tab0 id).here.nestRun = none ∧ nUsecb (xe0 tab0 id).here.nest = false ∧
      (xe0 tab0 id).carryReads (xe0 tab0 id).now = false ∧ mmaFault (xe0 tab0 id) (xe0 tab0 id).here.nest 0 = none) ∧
    (let s := xe0 tabCb fun k => k.setCb 2 (lbuf 1 5)
     Ready s (.mma mma0) ∧ s.here.nestRun = none ∧ (s.here.cbOf 2).ents ≠ 0 ∧ nNeed s.here.nest ≤ (s.here.cbOf 2).occ ∧ nAdv s.here.nest ≠ 0 ∧
       s.carryReads s.now = false ∧ mmaFault s s.here.nest 0 = none) ∧
    (Ready (at' 0 2 id) (.mstop { h := h0 }) ∧ (at' 0 2 id).here.nestRun = none) ∧
    (Ready (nestAt (some 900) true) (.mstop { h := h0 }) ∧ (nestAt (some 900) true).here.nestRun = some { run0 with stopAt := some 900 }) ∧
    (Ready (nestAt none false) (.mstop { h := h0 }) ∧ (nestAt none false).here.nestRun = some run0 ∧
      ((∀ x, (nestAt none false).flight run0.id = some x → x.due ≠ (nestAt none false).now) ∧ (nestAt none false).passesLeft 0 run0.id = false)) ∧
    (Ready (nestAt none true) (.mstop { h := h0 }) ∧ (nestAt none true).here.nestRun = some run0 ∧ ∃ x, (nestAt none true).flight run0.id = some x ∧ x.due = (nestAt none true).now) ∧
    (let s := xe0 tab0 fun k => { k with nestRun := some run0 }
     Ready s (.mwait { h := h0 }) ∧ s.here.nestRun = some run0) := by
  refine ⟨⟨ready (by decide), ready (by decide), by decide, ready (by decide), by decide⟩, ⟨ready (by decide), by decide, by decide, by decide⟩,
    ⟨ready (by decide), by decide, by decide, by decide⟩, ⟨ready (by decide), by decide, by decide, by decide⟩, ⟨ready (by decide), by decide, by decide, by decide, by decide⟩,
    ⟨ready (by decide), by decide, by decide, by decide, by decide, by decide, by decide⟩, ⟨ready (by decide), by decide⟩, ⟨ready (by decide), by decide⟩,
    ⟨ready (by decide), by decide, ?_, by decide⟩, ⟨ready (by decide), by decide, _, rfl, by decide⟩, ready (by decide), by decide⟩
  intro x hx e
  rw [show (nestAt none false).flight run0.id = some (nestFl 2000) from rfl] at hx
  injection hx with hx
  subst hx
  exact absurd e (by decide)

def carry (k : Core) : Core := { k with seg := k.seg.map fun g => { g with carry := some true } }

/-- Both banks of core 0 protected. -/
def accProt0 (k : Core) : Core :=
  let k := inSeg 0 true k
  { k with seg := k.seg.map fun g => { g with desc := { g.desc with prot := [{ base := winAddr 0 2 0, len := 0x80000 }] } } }

def acc0 (w i : Nat) : AccF := { h := h0, dep := 0, d := sl 32 w, i := im i, vis := true }

/-- The last values of a bank, and one beyond it. -/
theorem witness_accumulatorBanks :
    (let s := at' 0 3 id
     Ready s (.accClr { h := h0, vis := true }) ∧ s.here.nestRun = none ∧ s.here.deRead < s.now + 256 * s.d ∧ s.carryBank ≠ some (s.here.wbank != true) ∧ s.accProt true 0 0x40000 = false ∧
       Ready s (.accCarry { h := h0 }) ∧ Ready s (.accSwap { h := h0 }) ∧ s.bankOps = false ∧ s.here.deRead < s.now) ∧
    (let s := at' 0 3 fun k => carry (inSeg 0 true k)
     Ready s (.accClr { h := h0, vis := true }) ∧ s.here.nestRun = none ∧ s.here.deRead < s.now + 256 * s.d ∧ s.carryBank = some (s.here.wbank != true) ∧
       Ready s (.accCarry { h := h0 }) ∧ s.carryBank = some (!s.here.wbank) ∧ Ready s (.accWr (acc0 8 0))) ∧
    (let s := at' 0 3 (putS 0 5 65535)
     let f := { acc0 8 0 with i := fi 0 5 }
     Ready s (.accRd f) ∧ s.issueRead 2 ((if s.here.wbank != true then 0x40000 else 0) + 4 * 65535) 4 = (s, none) ∧ s.here.ctlVal 3 false f.i = 65535 ∧
       s.here.slotOk 3 f.d = true ∧ s.here.srcOk 3 false f.i = true ∧ Ready s (.accWr f) ∧ s.here.deRead < s.now + 2 * s.d ∧ s.carryBank = none ∧ s.accProt true (4 * 65535) 4 = false) ∧
    (let s := at' 0 3 accProt0
     let off (f : AccF) : AccF := { f with vis := false }
     (Ready s (.accClr { h := h0, vis := false }) ∧ s.accProt false 0 0x40000 = true ∧ s.carryReads (s.now + 256 * s.d) = false) ∧
     (Ready s (.accCarry { h := h0 }) ∧ s.accProt true 0 0x40000 = true) ∧
     Ready s (.accWr (off (acc0 8 0))) ∧ s.here.nestRun = none ∧ s.carryReads (s.now + 2 * s.d) = false ∧ s.accProt false 0 4 = true) ∧
    (let s := at' 0 3 (putS 0 5 65535)
     let f := { acc0 16 0 with i := fi 0 5 }
     Ready s (.accRd f) ∧ Ready s (.accWr f) ∧ 65536 < s.here.ctlVal 3 false f.i + 16 / 8) ∧
    (Ready (at' 0 3 id) (.accRd (acc0 7 0))) := by
  refine ⟨⟨ready (by decide), by decide, by decide, by decide, by decide, ready (by decide), ready (by decide), by decide, by decide⟩,
    ⟨ready (by decide), by decide, by decide, by decide, ready (by decide), by decide, ready (by decide)⟩,
    ⟨ready (by decide), by rfl, by decide, by decide, by decide, ready (by decide), by decide, by decide, by decide⟩,
    ⟨⟨ready (by decide), by decide, by decide⟩, ⟨ready (by decide), by decide⟩, ready (by decide), by decide, by decide, by decide⟩, ⟨ready (by decide), ready (by decide), by decide⟩, ready (by decide)⟩

def dscale0 : DscaleF := { h := h0, dep := 0, a := fi 0 8, b := fi 8 8, setm := true, sett := true }

/-- Half-rows of FP32: 128 values of 4 bytes in an entry of 512. -/
def drain0 (row : Nat) : DrainF := { h := h0, dep := 0, fs := false, cb := 2, row := im row, n := im 1, rm := 0, sat := false, half := true, adv := true }

def abuf (space attr : Nat) : Cb := { space := space, base := 0, ents := 4, size := 512, attr := BitVec.ofNat 5 attr, prod := 0, cons := 0, resv := [] }

def de0 (b : Cb) : State := at' 0 4 fun k => k.setCb 2 b

def damax0 (row n : Nat) : DamaxF := { h := h0, dep := 0, dst := sl 32 8, row := im row, n := im n, half := true }

/-- The last half-row, and one beyond it. -/
theorem witness_drains :
    (let s := at' 0 4 id
     Ready s (.dscale dscale0) ∧ s.here.srcOk 4 false dscale0.a = true ∧ s.here.srcW 4 false 8 dscale0.a = 8 ∧ s.here.srcOk 4 true dscale0.b = true ∧
       s.here.srcW 4 true 8 dscale0.b = 8) ∧
    (let s := de0 (abuf 1 6)
     Ready s (.drain (drain0 511)) ∧ s.here.srcOk 4 false (drain0 0).row = true ∧ s.here.srcOk 4 true (drain0 0).n = true ∧
       drainFault s (drain0 511) (s.here.cbOf 2) 511 1 = none ∧ 1 ≤ (s.here.cbOf 2).room s.now ∧ Ready s (.drain (drain0 512)) ∧
       drainFault s (drain0 512) (s.here.cbOf 2) 512 1 = some .illegalOperand) ∧
    (let s := de0 (abuf 1 0)
     Ready s (.drain (drain0 0)) ∧ drainFault s (drain0 0) (s.here.cbOf 2) 0 1 = some .format) ∧
    (let s := at' 0 4 id
     Ready s (.damax (damax0 511 1)) ∧ s.here.slotOk 4 (sl 32 8) = true ∧ s.here.srcOk 4 false (im 511) = true ∧ s.here.ctlVal 4 false (im 511) = 511 ∧
       Ready s (.damax (damax0 512 1)) ∧ s.here.ctlVal 4 false (im 512) = 512 ∧ Ready s (.damax (damax0 0 0)) ∧ s.here.ctlVal 4 true (im 0) = 0) := by
  refine ⟨⟨ready (by decide), by decide, by decide, by decide, by decide⟩,
    ⟨ready (by decide), by decide, by decide, by decide, by decide, ready (by decide), by decide⟩, ⟨ready (by decide), by decide⟩,
    ready (by decide), by decide, by decide, by decide, ready (by decide), by decide, ready (by decide), by decide⟩

/-! ### The movement engines -/

/-- An engine of core 192 with buffer 2 as `d`, buffer 3 as `x` and buffer 4 as `y`; slices 0 to 13 hold the address of a byte of the module's HBM. -/
def ge0 (t : Nat) (d x y : Cb) (f : Core → Core) : State :=
  at' 192 t fun k => f ((((putS 0 14 0x10000 (heap k)).setCb 2 d).setCb 3 x).setCb 4 y)

/-- Entries of 64 bytes. -/
def mb (space attr prod : Nat) : Cb :=
  { space := space, base := 0, ents := 4, size := 64, attr := BitVec.ofNat 5 attr, prod := BitVec.ofNat 32 prod, cons := 0, resv := [] }

/-- A buffer that is not configured. -/
def nob : Cb := { space := 0, base := 0, ents := 0, size := 0, attr := 0, prod := 0, cons := 0, resv := [] }

def prot0 (c space : Nat) (k : Core) : Core :=
  let k := inSeg c true k
  { k with seg := k.seg.map fun g => { g with desc := { g.desc with prot := [{ base := winAddr c space 0, len := 64 }] } } }

def igen0 : IgenF := { h := h0, dep := 0, dcb := 2, adv := true, a := im 5, b := im 1 }

def imap0 : ImapF := { h := h0, dep := 0, dcb := 2, scb := 3, advs := true, advd := true, a := fi 16 16, b := im 7 }

def icmp0 : IcmpF := { h := h0, dep := 0, inv := false, dcb := 2, scb := 3, advs := true, advd := true, a := im 0, b := im 9 }

theorem witness_indexEngine :
    (let s := ge0 1 nob nob nob id
     Ready s (.igen igen0) ∧ s.here.srcOk 1 false igen0.a = true ∧ s.here.srcOk 1 true igen0.b = true ∧ (s.here.cbOf 2).ents = 0 ∧ Ready s (.imap imap0)) ∧
    (let s := ge0 1 (mb 4 10 0) (mb 5 10 1) nob id
     Ready s (.igen igen0) ∧ (s.here.cbOf 2).ents ≠ 0 ∧ (s.here.cbOf 2).space ≠ 5 ∧ Ready s (.imap imap0) ∧ Ready s (.icmp icmp0)) ∧
    (let s := ge0 1 (mb 5 6 0) nob nob id
     Ready s (.igen igen0) ∧ (s.here.cbOf 2).space = 5 ∧ 1 ≤ (s.here.cbOf 2).room s.now ∧ (s.here.cbOf 2).attr ≠ 9 ∧ (s.here.cbOf 2).attr ≠ 10) ∧
    (let s := ge0 1 (mb 5 9 0) nob nob (prot0 192 5)
     Ready s (.igen igen0) ∧ 1 ≤ (s.here.cbOf 2).room s.now ∧ s.protAt 192 5 ((s.here.cbOf 2).entry (s.here.cbOf 2).slot) 64 = true) ∧
    (let s := ge0 1 (mb 5 10 0) (mb 5 10 1) nob id
     Ready s (.igen igen0) ∧ Ready s (.imap imap0) ∧ Ready s (.icmp icmp0) ∧ s.here.srcOk 1 false imap0.a = true ∧ s.here.srcOk 1 true imap0.b = true ∧
       1 ≤ (s.here.cbOf 3).occ ∧ 1 ≤ (s.here.cbOf 2).room s.now ∧ s.protAt 192 5 ((s.here.cbOf 2).entry (s.here.cbOf 2).slot) 64 = false ∧
       s.entryRead (s.here.cbOf 3) = (s, none)) ∧
    (let s := ge0 1 { mb 5 10 0 with size := 128 } (mb 5 10 1) nob id
     Ready s (.imap imap0) ∧ 1 ≤ (s.here.cbOf 3).occ ∧ 1 ≤ (s.here.cbOf 2).room s.now ∧ (s.here.cbOf 2).size ≠ (s.here.cbOf 3).size) := by
  refine ⟨⟨ready (by decide), by decide, by decide, by decide, ready (by decide)⟩, ⟨ready (by decide), by decide, by decide, ready (by decide), ready (by decide)⟩,
    ⟨ready (by decide), by decide, by decide, by decide, by decide⟩, ⟨ready (by decide), by decide, by decide⟩,
    ⟨ready (by decide), ready (by decide), ready (by decide), by decide, by decide, by decide, by decide, by decide, by rfl⟩, ready (by decide), by decide, by decide, by decide⟩

def gath0 (rb : Nat) : GathF :=
  { h := h0, dep := 0, ten := true, tag := 3, cb := 2, icb := 3, advi := true, advx := true, a := fi 0 14, rb := im rb }

/-- Sixteen indices, all 0; rows of 4 bytes fill an entry, rows of 5 do not fit. -/
def gRows (prod : Nat) : State := ge0 2 (mb 4 0 prod) (mb 5 10 1) nob id

def gAddrs (s : State) : List (Nat × Nat) :=
  ((s.indices (s.here.cbOf 3)).zipIdx.filter fun p => decide (p.1 ≠ 2 ^ 32 - 1)).map fun p => (p.2, (s.here.addr 2 false (fi 0 14) + p.1 * 4) % 2 ^ 56)

/-- The same in an OPEN segment with a shared heap and an egress stage of `e` entries. -/
def gStage (e : Nat) : State :=
  ge0 2 (mb 4 0 1) (mb 5 10 1) nob fun k =>
    let k := inSeg 192 true k
    { k with heapb := 0x1A0, seg := k.seg.map fun g => { g with desc := { g.desc with egress := e } } }

theorem witness_gathers :
    (∀ rb ∈ [0, 5], Ready (gRows 0) (.gath (gath0 rb)) ∧ Ready (gRows 1) (.scat (gath0 rb)) ∧
      cbsFault [((gRows 0).here.cbOf 2, 4), ((gRows 0).here.cbOf 3, 5)] = none ∧ 1 ≤ ((gRows 0).here.cbOf 3).occ ∧ 1 ≤ ((gRows 0).here.cbOf 2).room (gRows 0).now ∧
      1 ≤ ((gRows 1).here.cbOf 2).occ ∧ rowFault ((gRows 0).here.cbOf 2) ((gRows 0).here.cbOf 3) rb = some .illegalOperand) ∧
    (let s := ge0 2 nob (mb 5 10 1) nob id
     Ready s (.gath (gath0 4)) ∧ Ready s (.scat (gath0 4)) ∧ cbsFault [(s.here.cbOf 2, 4), (s.here.cbOf 3, 5)] = some .illegalOperand) ∧
    (∀ e ∈ [0, 8], let s := gStage e
     Ready s (.scat (gath0 4)) ∧ 1 ≤ (s.here.cbOf 3).occ ∧ 1 ≤ (s.here.cbOf 2).occ ∧ s.entryRead (s.here.cbOf 3) = (s, none) ∧ s.entryRead (s.here.cbOf 2) = (s, none) ∧
      ∃ g, s.GrantsAll ((gAddrs s).map fun p => (p.2, 4, { useWrite with stg := some false }))
        (fun as => (fmtsOf as).all fun a => attrRaw a || (!attrBlock a && decide (a = (s.here.cbOf 2).attr))) g ∧ s.openFault g.lat = false ∧
          (let st := (spreadBytes g.runs (List.replicate 64 0)).filter fun p => s.byteStaged (g.runs.zip g.attrs) p.1 p.2.1
           let stage := stageAll s.here.egress (st.flatMap fun p => [(2 * p.2.1, p.2.2.extractLsb' 0 4), (2 * p.2.1 + 1, p.2.2.extractLsb' 4 4)])
           st ≠ [] ∧ (if e = 0 then s.here.stageRoom < stage.length else stage.length ≤ s.here.stageRoom))) ∧
    (Ready (gRows 0) (.gath (gath0 4)) ∧ rowFault ((gRows 0).here.cbOf 2) ((gRows 0).here.cbOf 3) 4 = none ∧ 1 ≤ ((gRows 0).here.cbOf 3).occ ∧
      1 ≤ ((gRows 0).here.cbOf 2).room (gRows 0).now ∧ (gRows 0).entryRead ((gRows 0).here.cbOf 3) = (gRows 0, none) ∧
      (∃ g, (gRows 0).GrantsAll ((gAddrs (gRows 0)).map fun p => (p.2, 4, useRead)) (fun as => (fmtsOf as).all (fun a => !attrBlock a) &&
        intoCb ((gRows 0).here.cbOf 2) (fmtsOf as)) g ∧ (gRows 0).openFault g.lat = false) ∧
      (gRows 0).protAt 192 4 0 64 = false ∧ (gRows 0).tagBusy (some 3) = false) ∧
    (Ready (gRows 1) (.scat (gath0 4)) ∧ 1 ≤ ((gRows 1).here.cbOf 2).occ ∧ (gRows 1).entryRead ((gRows 1).here.cbOf 2) = (gRows 1, none) ∧
      ∃ g, (gRows 1).GrantsAll ((gAddrs (gRows 1)).map fun p => (p.2, 4, { useWrite with stg := some false }))
        (fun as => (fmtsOf as).all fun a => attrRaw a || (!attrBlock a && decide (a = ((gRows 1).here.cbOf 2).attr))) g ∧
        (gRows 1).openFault g.lat = false ∧
          (spreadBytes g.runs (List.replicate 64 0)).filter (fun p => (gRows 1).byteStaged (g.runs.zip g.attrs) p.1 p.2.1) = []) := by
  refine ⟨?_, ⟨ready (by decide), ready (by decide), by decide⟩, ?_, ⟨ready (by decide), by decide, by decide, by decide, by rfl, grantsAll (by decide), by decide, by decide⟩,
    ready (by decide), by decide, by rfl, grantsAll (by decide)⟩ <;> intro rb hrb <;> simp only [List.mem_cons, List.not_mem_nil, or_false] at hrb <;>
    rcases hrb with h | h <;> subst h
  · exact ⟨ready (by decide), ready (by decide), by decide, by decide, by decide, by decide, by decide⟩
  · exact ⟨ready (by decide), ready (by decide), by decide, by decide, by decide, by decide, by decide⟩
  · exact ⟨ready (by decide), by decide, by decide, by rfl, by rfl, grantsAll (by decide)⟩
  · exact ⟨ready (by decide), by decide, by decide, by rfl, by rfl, grantsAll (by decide)⟩

/-- Windows of two rows of 16 bytes, one row apart. -/
def win0 (v : Nat) : WinF := { h := h0, dep := 0, dcb := 2, scb := 3, advs := true, advd := true, a := fi v 8 }

def wRows (d : Cb) (v : Nat) : State := ge0 2 d (mb 4 6 1) nob (putS 16 8 v)

def gseg0 (rb : Nat) : GsegF :=
  { h := h0, dep := 0, op := 0, dcb := 2, scb := 3, advs := true, advd := true, a := im 0, rb := im rb, icb := 4, advi := true }

theorem witness_windows :
    (Ready (wRows nob 0) (.win (win0 16)) ∧ (wRows nob 0).here.srcOk 2 false (fi 16 8) = true ∧ ((wRows nob 0).here.cbOf 2).ents = 0) ∧
    (Ready (wRows (mb 5 6 0) 0) (.win (win0 16)) ∧ ((wRows (mb 5 6 0) 0).here.cbOf 2).space ≠ 4) ∧
    (Ready (wRows (mb 4 6 0) 0) (.win (win0 16)) ∧ 1 ≤ ((wRows (mb 4 6 0) 0).here.cbOf 3).occ ∧
      1 ≤ ((wRows (mb 4 6 0) 0).here.cbOf 2).room 1000 ∧ bitsN ((wRows (mb 4 6 0) 0).here.ctlVal 2 false (fi 16 8)) 0 16 = 0) ∧
    (Ready (wRows (mb 4 5 0) 0x10010) (.win (win0 16)) ∧ ((wRows (mb 4 5 0) 0).here.cbOf 2).attr ≠ ((wRows (mb 4 5 0) 0).here.cbOf 3).attr) ∧
    (let s := wRows (mb 4 6 0) 0x10010
     Ready s (.win (win0 16)) ∧ bitsN (s.here.ctlVal 2 false (fi 16 8)) 0 16 = 16 ∧ (1 + 1) * 16 ≤ (s.here.cbOf 2).size ∧ 1 ≤ (s.here.cbOf 3).occ ∧
       1 ≤ (s.here.cbOf 2).room s.now ∧ s.protAt 192 4 ((s.here.cbOf 2).entry (s.here.cbOf 2).slot) 64 = false ∧ s.entryRead (s.here.cbOf 3) = (s, none)) ∧
    (let s := ge0 2 (mb 4 6 0) (mb 4 6 1) (mb 5 10 1) id
     Ready s (.gseg (gseg0 4)) ∧ idxCount (s.here.cbOf 4) * 4 ≤ (s.here.cbOf 3).size ∧ 1 ≤ (s.here.cbOf 3).occ ∧ 1 ≤ (s.here.cbOf 4).occ ∧
       1 ≤ (s.here.cbOf 2).room s.now ∧ s.entryRead (s.here.cbOf 3) = (s, none) ∧ s.entryRead (s.here.cbOf 4) = (s, none) ∧
       s.protAt 192 4 ((s.here.cbOf 2).entry (s.here.cbOf 2).slot) 64 = false ∧ Ready s (.gseg (gseg0 0)) ∧ Ready s (.gseg (gseg0 6))) ∧
    (Ready (ge0 2 (mb 4 6 0) nob (mb 5 10 1) id) (.gseg (gseg0 4)) ∧ Ready (ge0 2 (mb 4 6 0) (mb 4 6 1) (mb 4 10 1) id) (.gseg (gseg0 4))) := by
  refine ⟨⟨ready (by decide), by decide, by decide⟩, ⟨ready (by decide), by decide⟩, ⟨ready (by decide), by decide, by decide, by decide⟩, ⟨ready (by decide), by decide⟩,
    ⟨ready (by decide), by decide, by decide, by decide, by decide, by decide, by rfl⟩,
    ⟨ready (by decide), by decide, by decide, by decide, by decide, by rfl, by rfl, by decide, ready (by decide), ready (by decide)⟩, ready (by decide), ready (by decide)⟩

def ast0 (b : Bool) : AstF :=
  { h := h0, dep := 0, vcb := 2, icb := 3, advv := true, advi := true, a := if b then fi 0 14 else fi 48 8, aop := 0, sz := false }

/-- In a seam, and inside a segment with the operations staged; with an operand that is not aligned. -/
def aRows (b : Bool) : State := ge0 3 (mb 4 8 1) (mb 5 10 1) nob fun k => putS 48 8 2 (if b then inSeg 192 true k else k)

def await0 (b : Bool) : AwaitF := { h := h0, dep := 0, bar := b, n := if b then im 4 else fi 0 1, a := if b then sl 0 14 else sl 0 1 }

def abar (b : Bool) : State := at' 192 3 fun k => putS 0 14 (winAddr 192 4 0) (if b then inSeg 192 false (heap k) else heap k)

theorem witness_atomicStreams :
    (∀ b ∈ [true, false], Ready (aRows b) (.ast (ast0 true)) ∧ Ready (aRows b) (.ast (ast0 false)) ∧ (aRows b).here.srcOk 3 false (fi 0 14) = true ∧
      1 ≤ ((aRows b).here.cbOf 3).occ ∧ 1 ≤ ((aRows b).here.cbOf 2).occ ∧ (aRows b).here.addr 3 false (fi 48 8) % 4 ≠ 0 ∧
      (aRows b).here.addr 3 false (fi 0 14) % 4 = 0) ∧
    ((aRows false).entryRead ((aRows false).here.cbOf 3) = (aRows false, none) ∧ (aRows false).entryRead ((aRows false).here.cbOf 2) = (aRows false, none) ∧
      (∃ g, (aRows false).accessMany ((rowAddrs 32 ((aRows false).here.addr 3 false (fi 0 14)) 4 ((aRows false).indices ((aRows false).here.cbOf 3))).map fun p =>
        (p.2, 4, useAtomic)) = .ok g ∧ (aRows false).openFault g.lat = false) ∧ (aRows false).here.inSeg = false) ∧
    (Ready (abar false) (.await (await0 false)) ∧ (abar false).astLeft = false) ∧
    (∀ b ∈ [true, false], Ready (abar b) (.await (await0 true)) ∧ (abar b).astLeft = false ∧ (abar b).here.srcOk 3 true (await0 true).n = true ∧
      (abar b).here.slotOk 3 (await0 true).a = true ∧ (abar b).here.inFixed = b ∧
      ∃ g, (abar b).access ((abar b).here.slotVal 3 (await0 true).a % 2 ^ 56) 16 { useWrite with rd := true } none = .ok g ∧ g.runs.length = 1 ∧
        (abar b).barrierPlace (g.runs.headD { va := 0, pa := 0, len := 0 }).pa = true ∧
        (abar b).stampOk (g.runs.headD { va := 0, pa := 0, len := 0 }).pa = true) := by
  refine ⟨?_, ⟨by rfl, by rfl, granted (by decide), by decide⟩, ⟨ready (by decide), by decide⟩, ?_⟩ <;> intro b hb <;>
    simp only [List.mem_cons, List.not_mem_nil, or_false] at hb <;> rcases hb with h | h <;> subst h
  · exact ⟨ready (by decide), ready (by decide), by decide, by decide, by decide, by decide, by decide⟩
  · exact ⟨ready (by decide), ready (by decide), by decide, by decide, by decide, by decide, by decide⟩
  · exact ⟨ready (by decide), by decide, by decide, by decide, by decide, granted (by decide)⟩
  · exact ⟨ready (by decide), by decide, by decide, by decide, by decide, granted (by decide)⟩

/-! ### Transfers -/

/-- Core 224, with an address of HBM in slices 0 to 13 and a length in slices 16 to 23. -/
def he0 (t n : Nat) (f : Core → Core) : State := at' 224 t fun k => f (putS 0 14 0x10000 (putS 16 8 n (heap k)))

/-- Offset 2^25 - 4 of B SRAM in slices 24 to 31. -/
def hld0 (cbm : Bool) (b : Src) : HldF :=
  { h := h0, dep := 0, ten := true, tag := 3, cb := if cbm then 2 else 0, adv := cbm, cbm := cbm, a := fi 0 14, b := b, c := if cbm then sl 0 1 else sl 16 8 }

def blkRange : Range := { base := 0x10000, limit := 0x30000, off := 0, attr := 0x18F, paged := false, revoking := false, esz := 1, ssz := 1 }

/-- A job whose range of Q8 blocks has one element plane of 64 KiB. -/
def blkJob : Job :=
  { handle := 0, pool := 0, poolLen := 0, frames := [], ctr := { va := 0, done := 0, total := 0, st := 0, cseq := 0, failed := false }, phases := [], closed := false,
    heapb := 0, heapl := 0, heapo := 0,
    ranges := [blkRange], leaves := [], revoked := [],
    changes := [], destroyed := false }

def he1 (prod : Nat) : State :=
  { at' 224 1 fun k => (putS 0 14 0x10000 k).setCb 2 (blk 6 0xF prod) with jobs := [blkJob] }

theorem witness_bulkTransfers :
    (∀ n ∈ [0, 5], let s := he0 1 n (putS 24 8 (2 ^ 25 - 4))
     Ready s (.hld (hld0 false (fi 24 8))) ∧ Ready s (.hst (hld0 false (fi 24 8))) ∧ s.here.slotOk 1 (sl 16 8) = true ∧ s.here.slotVal 1 (sl 16 8) = n) ∧
    (let s := he0 1 4 (putS 24 8 (2 ^ 25 - 4))
     Ready s (.hld (hld0 false (fi 24 8))) ∧ Ready s (.hst (hld0 false (fi 24 8))) ∧ s.here.srcOk 1 false (fi 0 14) = true ∧ s.here.srcOk 1 true (fi 24 8) = true ∧
       s.here.hitsProt (winAddr 224 6 (2 ^ 25 - 4)) 4 = false ∧ s.issueRead 6 (2 ^ 25 - 4) 4 = (s, none) ∧ s.tagBusy (some 3) = false ∧
       (∃ g, s.GrantsAll [(0x10000, 4, useRead)] (fun _ => true) g ∧ s.openFault g.lat = false) ∧
       ∃ g, s.GrantsAll [(0x10000, 4, useWrite)] (fun as => (fmtsOf as).all fun x => !attrBlock x) g ∧ s.openFault g.lat = false ∧ s.outFault g.runs g.attrs = false) ∧
    (Ready (he0 1 4 id) (.hld (hld0 true (im 0))) ∧ ((he0 1 4 id).here.cbOf 2).ents = 0) ∧
    (let s := he0 1 4 fun k => k.setCb 2 (mb 3 6 0)
     Ready s (.hst (hld0 true (im 0))) ∧ (s.here.cbOf 2).space ≠ 6) ∧
    (let s := he0 1 4 fun k => k.setCb 2 (mb 6 0 0)
     Ready s (.hld (hld0 true (im 0))) ∧ 1 ≤ (s.here.cbOf 2).room s.now ∧ s.blockRange 0x10000 = none ∧
       ∃ g, s.GrantsAll [(0x10000, 64, useRead)] (fun as => intoCb (s.here.cbOf 2) (fmtsOf as)) g ∧ s.openFault g.lat = false) ∧
    (let s := he0 1 4 fun k => k.setCb 2 (mb 6 6 1)
     Ready s (.hst (hld0 true (im 0))) ∧ 1 ≤ (s.here.cbOf 2).occ ∧ s.blockRange 0x10000 = none ∧ s.issueRead 6 ((s.here.cbOf 2).entry (s.here.cbOf 2).cons.toNat) 64 = (s, none) ∧
       ∃ g, s.GrantsAll [(0x10000, 64, useWrite)] (fun as => (fmtsOf as).all fun x => attrRaw x || decide (x = (s.here.cbOf 2).attr)) g ∧
         s.openFault g.lat = false ∧ s.outFault g.runs g.attrs = false) ∧
    (∀ p ∈ [0, 1], (Ready (he1 p) (.hst (hld0 true (im 1023))) ∧ Ready (he1 p) (.hld (hld0 true (im 1023))) ∧ Ready (he1 p) (.hld (hld0 true (im 1024)))) ∧
      1 ≤ ((he1 p).here.cbOf 2).room 1000 ∧ (p = 1 → 1 ≤ ((he1 p).here.cbOf 2).occ) ∧
      ∃ r, (he1 p).blockRange 0x10000 = some r ∧ awFmt r.attr = 0xF ∧ 1023 + blocksPer 0xF ((he1 p).here.cbOf 2).size ≤ r.blocks 0xF ∧
        r.blocks 0xF < 1024 + blocksPer 0xF ((he1 p).here.cbOf 2).size) ∧
    (1 ≤ ((he1 0).here.cbOf 2).room 1000 ∧
      ∃ g, (he1 0).GrantsAll [(0x1FFC0, 64, useRead), (0x207FE, 2, useRead)] (fun as => intoCb ((he1 0).here.cbOf 2) (fmtsOf as)) g ∧ (he1 0).openFault g.lat = false) ∧
    (let s := he0 1 4 id
     Ready s (.hpre { h := h0, dep := 0, a := fi 0 14, n := fi 16 8 }) ∧ (s.groupOf 224).isSome = true ∧
       Ready s (.hzero { h := h0, dep := 0, ten := true, tag := 3, a := fi 0 14, n := fi 16 8 }) ∧ s.here.ctlVal 1 true (fi 16 8) = 4 ∧
       ∃ g, s.GrantsAll [(0x10000, 4, useWrite)] (fun as => (fmtsOf as).all fun x => !attrBlock x) g ∧ s.openFault g.lat = false ∧ s.outFault g.runs g.attrs = false) ∧
    Ready (he0 1 0 id) (.hzero { h := h0, dep := 0, ten := true, tag := 3, a := fi 0 14, n := fi 16 8 }) := by
  refine ⟨?_, ⟨ready (by decide), ready (by decide), by decide, by decide, by decide, by rfl, by decide, grantsAll (by decide), grantsAll (by decide)⟩,
    ⟨ready (by decide), by decide⟩, ⟨ready (by decide), by decide⟩, ⟨ready (by decide), by decide, by decide, grantsAll (by decide)⟩,
    ⟨ready (by decide), by decide, by decide, by rfl, grantsAll (by decide)⟩, ?_, ⟨by decide, grantsAll (by decide)⟩,
    ⟨ready (by decide), by decide, ready (by decide), by decide, grantsAll (by decide)⟩, ready (by decide)⟩ <;> intro b hb <;>
    simp only [List.mem_cons, List.not_mem_nil, or_false] at hb <;> rcases hb with h | h <;> subst h
  · exact ⟨ready (by decide), ready (by decide), by decide, by decide⟩
  · exact ⟨ready (by decide), ready (by decide), by decide, by decide⟩
  · exact ⟨⟨ready (by decide), ready (by decide), ready (by decide)⟩, by decide, by decide, blkRange, by decide, by decide, by decide, by decide⟩
  · exact ⟨⟨ready (by decide), ready (by decide), ready (by decide)⟩, by decide, by decide, blkRange, by decide, by decide, by decide, by decide⟩

/-- Tiles of one row of four 8-bit elements: pitches of 64 bytes. -/
def tdim : Nat := 3 * 2 ^ 12 + 64 * 2 ^ 24 + 64 * 2 ^ 44

def tc0 (b : Nat) (tr : Bool) : TcopyF :=
  { h := h0, dep := 0, es := 1, ten := true, tag := 3, tr := tr, a := im 0, b := im b, c := sl 48 16 }

def te0 (dim : Nat) (f : Core → Core) : State := he0 2 4 fun k => f (putS 48 16 dim k)

def tcvt0 : TcvtF := { h := h0, dep := 0, rm := 0, ten := true, tag := 3, scb := 3, dcb := 2, advs := true, advd := true }

def tbuf (d x : Cb) : State := he0 2 4 fun k => (k.setCb 2 d).setCb 3 x

/-- The source's last byte is byte 3. -/
theorem witness_transforms :
    (let s := te0 0 id
     Ready s (.tcopy (tc0 64 false)) ∧ s.here.slotVal 2 (sl 48 16) = 0 ∧ (sl 48 16).w = 16) ∧
    (∀ b ∈ [3, 4], let s := te0 tdim id
     Ready s (.tcopy (tc0 b false)) ∧ s.here.slotVal 2 (sl 48 16) = tdim ∧ s.here.ctlVal 2 true (tc0 b false).b = b) ∧
    (let s := te0 tdim (prot0 224 6)
     Ready s (.tcopy (tc0 16 true)) ∧ s.protAt 224 6 16 4 = true) ∧
    (let s := te0 tdim fun k => { k with tagOps := [3] }
     Ready s (.tcopy (tc0 64 true)) ∧ s.tagBusy (some 3) = true ∧ s.protAt 224 6 64 4 = false) ∧
    (let s := te0 tdim id
     Ready s (.tcopy (tc0 64 true)) ∧ s.tagBusy (some 3) = false ∧ s.issueRead 6 0 4 = (s, none)) ∧
    (Ready (tbuf nob nob) (.tcvt tcvt0)) ∧ Ready (tbuf (mb 3 6 0) (mb 6 6 1)) (.tcvt tcvt0) ∧
    (let s := tbuf (mb 6 0 0) (mb 6 6 1)
     Ready s (.tcvt tcvt0) ∧ 1 ≤ (s.here.cbOf 3).occ ∧ 1 ≤ (s.here.cbOf 2).room s.now ∧ cvtAttr (s.here.cbOf 2).attr = false) ∧
    (let s := tbuf (mb 6 6 0) (mb 6 5 1)
     Ready s (.tcvt tcvt0) ∧ cvtAttr 6 = true ∧ cvtAttr 5 = true ∧ entryElems 6 64 < entryElems 5 64) ∧
    (let s := tbuf (mb 6 5 0) (mb 6 6 1)
     Ready s (.tcvt tcvt0) ∧ entryElems 6 64 ≤ entryElems 5 64 ∧ 1 ≤ (s.here.cbOf 3).occ ∧ 1 ≤ (s.here.cbOf 2).room s.now ∧ s.entryRead (s.here.cbOf 3) = (s, none) ∧
       s.protAt 224 6 ((s.here.cbOf 2).entry (s.here.cbOf 2).slot) 64 = false ∧ s.tagBusy (some 3) = false) := by
  refine ⟨⟨ready (by decide), by decide, by decide⟩, ?_, ⟨ready (by decide), by decide⟩, ⟨ready (by decide), by decide, by decide⟩,
    ⟨ready (by decide), by decide, by rfl⟩, ready (by decide), ready (by decide), ⟨ready (by decide), by decide, by decide, by decide⟩,
    ⟨ready (by decide), by decide, by decide, by decide⟩, ready (by decide), by decide, by decide, by decide, by rfl,
    by decide, by decide⟩
  intro b hb
  simp only [List.mem_cons, List.not_mem_nil, or_false] at hb
  rcases hb with h | h <;> subst h <;> exact ⟨ready (by decide), by decide, by decide⟩

def push0 (timed : Bool) (due : Nat) : PushF := { h := h0, dep := 0, timed := timed, dcore := 1, dcb := 2, scb := 3, advs := true, due := if timed then im due else fi 0 1 }

/-- The PE of core 0, which pushes its buffer 3 into buffer 2 of core 128, the second of the group; `seg` puts core 0 into a FIXED segment, 100 ticks old. -/
def pe0 (d x : Cb) (fixed : Bool) : State :=
  let s := at' 0 6 fun k => (putS 0 14 (winAddr 0 1 0) (heap (if fixed then inSeg 0 false k else k))).setCb 3 x
  { s with cores := SMap.put s.cores 128 (({ Core.reset 128 with grp := some 0, stream := List.replicate 16 0x0E000000#32 }).setCb 2 d) }

/-- Due at the tick of arrival, one tick later and one earlier. -/
def dueAt (n : Nat) : Nat := (pe0 nob nob true).segTick 0 + (coreLat 0 128).getD 0 + n

def pushb0 (timed : Bool) (due : Nat) : PushbF :=
  { h := h0, dep := 0, timed := timed, dst := sl 16 14, a := fi 0 14, due := if timed then im due else fi 0 1, c := sl 32 12 }

/-- Four bytes of the A-buffer of core 0 to that of core 128, and its barrier object at offset `o` of its window slot. -/
def pe1 (fixed : Bool) (dst o : Nat) : State :=
  let s := pe0 nob nob fixed
  s.modCore 0 fun k => putS 16 14 dst (putS 32 12 (3 + o / 16 * 2 ^ 24) k)

theorem witness_pushes :
    (dueOk false 0 (fi 0 1) = true ∧ dueOk false 1 (fi 16 1) = false ∧ dueOk true 1 (fi 16 1) = true) ∧
    (Ready (pe0 nob nob false) (.push (push0 false 0)) ∧ (pe0 nob nob false).groupCore 1 = some 128) ∧
    (Ready (pe0 (mb 3 5 0) (mb 1 6 1) false) (.push (push0 false 0)) ∧ (5#5) ≠ 6#5) ∧
    (let s := pe0 (mb 3 6 0) (mb 1 6 1) true
     Ready s (.push (push0 false 0)) ∧ s.here.inFixed = true ∧ 1 ≤ (s.here.cbOf 3).occ ∧ 1 ≤ ((s.core 128).cbOf 2).room s.now) ∧
    (let s := pe0 (mb 3 6 0) (mb 1 6 1) false
     Ready s (.push (push0 false 0)) ∧ s.here.inFixed = false ∧ 1 ≤ (s.here.cbOf 3).occ ∧ 1 ≤ ((s.core 128).cbOf 2).room s.now ∧
       s.protAt 128 3 (((s.core 128).cbOf 2).entry ((s.core 128).cbOf 2).slot) 64 = false ∧ s.entryRead (s.here.cbOf 3) = (s, none)) ∧
    (let s := pe0 (mb 3 6 0) (mb 1 6 1) true
     (Ready s (.push (push0 true (dueAt 0 - 1))) ∧ Ready s (.push (push0 true (dueAt 0))) ∧ Ready s (.push (push0 true (dueAt 1)))) ∧
       s.segTick 0 + (coreLat 0 128).getD 0 = dueAt 0 ∧ s.here.ctlVal 6 true (push0 true (dueAt 0)).due = dueAt 0 ∧
       s.here.ctlVal 6 true (push0 true (dueAt 1)).due = dueAt 0 + 1 ∧ s.here.ctlVal 6 true (push0 true (dueAt 0 - 1)).due < dueAt 0 ∧ s.here.inSeg = true ∧
       s.here.inFixed = true ∧ s.entryRead (s.here.cbOf 3) = (s, none)) ∧
    (let s := pe1 false 0x10000 0
     Ready s (.pushb (pushb0 false 0)) ∧ s.inSlots (s.peekPas 0x10000 4) (fun d => decide ((s.core d).grp = s.here.grp)) = false) ∧
    (let s := pe1 false (winAddr 128 3 0) 0x800000
     let bar : Run := { va := winAddr 128 3 0x800000, pa := s.slotPa 128 + 0x800000, len := 16 }
     Ready s (.pushb (pushb0 false 0)) ∧ (s.regionCheck [bar] false).isSome = true) ∧
    (let s := pe1 false (winAddr 128 3 0) 0x1000
     Ready s (.pushb (pushb0 false 0)) ∧ s.here.slotOk 6 (sl 16 14) = true ∧ s.here.slotOk 6 (sl 32 12) = true ∧
       (s.inSlots (s.peekPas (winAddr 0 1 0) 4) (fun d => decide (d = 0)) = true ∧
        s.inSlots (s.peekPas (winAddr 128 3 0) 4) (fun d => decide ((s.core d).grp = s.here.grp)) = true ∧
        s.ownAcc (s.peekPas (winAddr 0 1 0) 4 ++ s.peekPas (winAddr 128 3 0) 4) = false ∧ s.barrierPlace (s.slotPa 128 + 0x1000) = true ∧
        s.regionCheck [{ va := winAddr 128 3 0x1000, pa := s.slotPa 128 + 0x1000, len := 16 }] false = none ∧ dueOk false (s.here.ctlVal 6 true (pushb0 false 0).due) (pushb0 false 0).due = true ∧
        s.here.hitsProt (winAddr 128 3 0x1000) 16 = false) ∧
       s.stampOk (s.slotPa 128 + 0x1000) = true ∧ s.here.inFixed = false ∧
       ∃ g, s.GrantsAll [(winAddr 0 1 0, 4, useRead), (winAddr 128 3 0, 4, useWrite)] (fun as => match as with
         | [a, b] => copyPairs a b
         | _ => false) g ∧ g.runs.length = 2) ∧
    (let s := pe1 true (winAddr 128 3 0) 0x1000
     Ready s (.pushb (pushb0 true (dueAt 0))) ∧ s.segTick 0 + (coreLat 0 128).getD 0 = s.here.ctlVal 6 true (pushb0 true (dueAt 0)).due ∧
       coreLat 0 128 ≠ none ∧ s.here.inFixed = true) := by
  refine ⟨by decide, ⟨ready (by decide), by decide⟩, ⟨ready (by decide), by decide⟩, ⟨ready (by decide), by decide, by decide, by decide⟩,
    ⟨ready (by decide), by decide, by decide, by decide, by decide, by rfl⟩,
    ⟨⟨ready (by decide), ready (by decide), ready (by decide)⟩, by decide, by decide, by decide, by decide, by decide, by decide, by rfl⟩,
    ⟨ready (by decide), by decide⟩, ⟨ready (by decide), by decide⟩,
    ⟨ready (by decide), by decide, by decide, ⟨by decide, by decide, by decide, by decide, by decide, by decide, by decide⟩, by decide, by decide, grantsAll (by decide)⟩,
    ready (by decide), by decide, by decide, by decide⟩

/-! ### Copies and collectives -/

/-- The PE of core 0: source address in slices 0 to 13, destination in 16 to 29, length in 32 to 39. -/
def pc0 (kind : Option Bool) (src dst n : Nat) : State :=
  at' 0 6 fun k => putS 0 14 src (putS 16 14 dst (putS 32 8 n (heap (match kind with
    | some o => inSeg 0 o k
    | none => k))))

def copy0 : CopyF := { h := h0, dep := 0, ten := true, tag := 3, dst := sl 16 14, a := fi 0 14, n := fi 32 8 }

def copyb0 : CopybF := { h := h0, dep := 0, dst := sl 16 14, a := fi 0 14, n := fi 32 8, bar := sl 48 14 }

def copyOk (s : State) (n : Nat) : Prop :=
  s.here.srcOk 6 false copy0.a = true ∧ s.here.srcOk 6 true copy0.n = true ∧ s.here.slotOk 6 copy0.dst = true ∧ s.here.ctlVal 6 true copy0.n = n

def pairUp (as : List (List Run × List (BitVec 16))) : Bool :=
  match as with
  | x :: y :: _ => copyPairs x y
  | _ => false

/-- From HBM into the A-buffer of core 0, with a length of 0 and of 4; within HBM onto itself; with a barrier object in the buffer. -/
theorem witness_copies :
    (let s := pc0 none 0x10000 (winAddr 0 1 0) 0
     Ready s (.copy copy0) ∧ copyOk s 0 ∧ s.ownAcc (s.peekPas 0x10000 0 ++ s.peekPas (winAddr 0 1 0) 0) = false) ∧
    (let s := pc0 none 0x10000 (winAddr 0 2 0) 4
     Ready s (.copy copy0) ∧ copyOk s 4 ∧ s.ownAcc (s.peekPas 0x10000 4 ++ s.peekPas (winAddr 0 2 0) 4) = true) ∧
    (let s := pc0 none 0x10000 0x20000 4
     (Ready s (.pull copy0) ∧ s.inSlots (s.peekPas 0x20000 4) (fun d => decide (d = 0)) = false) ∧
     (Ready s (.copy copy0) ∧ Ready s (.copyd copy0) ∧ copyOk s 4 ∧ s.ownAcc (s.peekPas 0x10000 4 ++ s.peekPas 0x20000 4) = false ∧
      (∀ r ∈ s.peekPas 0x10000 4, r.pa / 2 ^ 44 = s.modId) ∧ s.tagBusy (some 3) = false ∧ s.here.inSeg = false ∧
      ∃ g, s.GrantsAll [(0x10000, 4, useRead), (0x20000, 4, useWrite)] pairUp g ∧
        (∀ x ∈ cutRuns g.runs 0 4, ∀ y ∈ cutRuns g.runs 4 4, x.meets y = false) ∧ g.lat.isSome = true)) ∧
    (let s := pc0 none 0x10000 (winAddr 0 1 0) 4
     Ready s (.pull copy0) ∧ copyOk s 4 ∧ s.inSlots (s.peekPas (winAddr 0 1 0) 4) (fun d => decide (d = 0)) = true ∧ s.here.inFixed = false ∧
      ∃ g, s.GrantsAll [(0x10000, 4, useRead), (winAddr 0 1 0, 4, useWrite)] pairUp g ∧ ∀ x ∈ cutRuns g.runs 0 4, ∀ y ∈ cutRuns g.runs 4 4, x.meets y = false) ∧
    (let s := pc0 (some false) 0x10000 (winAddr 0 1 0) 4
     Ready s (.pull copy0) ∧ copyOk s 4 ∧ s.here.inFixed = true ∧ ∃ g, s.GrantsAll [(0x10000, 4, useRead), (winAddr 0 1 0, 4, useWrite)] pairUp g ∧
       ∀ x ∈ cutRuns g.runs 0 4, ∀ y ∈ cutRuns g.runs 4 4, x.meets y = false) ∧
    (let s := pc0 none 0x10000 0x10002 4
     Ready s (.copy copy0) ∧ copyOk s 4 ∧ ∃ g, s.GrantsAll [(0x10000, 4, useRead), (0x10002, 4, useWrite)] pairUp g ∧
       ∃ x ∈ cutRuns g.runs 0 4, ∃ y ∈ cutRuns g.runs 4 4, x.meets y = true) ∧
    (∀ q ∈ [15, 16], let s := pc0 (some true) 0x10000 0x20000 4
     let s := s.modHere fun k => { k with heapb := 0x1A0, deferred := List.replicate q { src := [], dst := [], tag := none, pc := 0 } }
     Ready s (.copyd copy0) ∧ copyOk s 4 ∧ s.here.inSeg = true ∧ s.here.deferred.length = q ∧ s.tagBusy (some 3) = false ∧
       ∃ g, s.GrantsAll [(0x10000, 4, useRead), (0x20000, 4, { useWrite with stg := some true })] pairUp g ∧
         ∀ x ∈ cutRuns g.runs 0 4, ∀ y ∈ cutRuns g.runs 4 4, x.meets y = false) ∧
    (let s := (pc0 none 0x10000 0x20000 4).modHere (putS 48 14 (winAddr 0 1 0))
     Ready s (.copyb copyb0) ∧ copyOk s 4 ∧ s.here.slotOk 6 copyb0.bar = true ∧ s.here.inFixed = false ∧
       ∃ g, s.GrantsAll [(0x10000, 4, useRead), (0x20000, 4, useWrite), (winAddr 0 1 0, 16, { useWrite with rd := true })] pairUp g ∧
         (∀ x ∈ cutRuns g.runs 0 4, ∀ y ∈ cutRuns g.runs 4 4, x.meets y = false) ∧
         ∀ r ∈ cutRuns g.runs (2 * 4) 16, s.barrierPlace r.pa = true ∧ s.stampOk r.pa = true) := by
  refine ⟨⟨ready (by decide), by unfold copyOk; decide, by decide⟩, ⟨ready (by decide), by unfold copyOk; decide, by decide⟩,
    ⟨⟨ready (by decide), by decide⟩, ready (by decide), ready (by decide), by unfold copyOk; decide, by decide, by decide, by decide, by decide, grantsAll (by decide)⟩,
    ⟨ready (by decide), by unfold copyOk; decide, by decide, by decide, grantsAll (by decide)⟩,
    ⟨ready (by decide), by unfold copyOk; decide, by decide, grantsAll (by decide)⟩,
    ⟨ready (by decide), by unfold copyOk; decide, grantsAll (by decide)⟩, ?_, ready (by decide), by unfold copyOk; decide, by decide, by decide, grantsAll (by decide)⟩
  intro q hq
  simp only [List.mem_cons, List.not_mem_nil, or_false] at hq
  rcases hq with h | h <;> subst h <;> exact ⟨ready (by decide), by unfold copyOk; decide, by decide, by decide, by decide, grantsAll (by decide)⟩

/-- The state after a read at issue, its bytes and its runs. -/
def readOf (s : State) (va n : Nat) : State × List Byte × List Run :=
  match s.accessMany [(va, n, useRead)] with
  | .ok g => let s' := (g.s.readAtIssue g.lat.isSome g.runs).1
    (s', g.runs.flatMap fun r => rdBytes s'.memAhead r.pa r.len, g.runs)
  | _ => (s, [], [])

def readB (s : State) (va n : Nat) (pair : List (List Run × List (BitVec 16)) → Bool) : Bool :=
  decide (n ≠ 0) && ([(va, n, useRead)].all (fun p => (s.peek p.1 p.2.1 p.2.2).isSome) &&
    pair ([(va, n, useRead)].filterMap fun p => s.peek p.1 p.2.1 p.2.2) && (match s.accessMany [(va, n, useRead)] with
      | .ok g => decide ((g.s.readAtIssue g.lat.isSome g.runs).2 = none)
      | _ => false))

theorem reads {s : State} {va n : Nat} {pair : List (List Run × List (BitVec 16)) → Bool} (h : readB s va n pair = true) :
    s.Reads va n pair (readOf s va n).1 (readOf s va n).2.1 (readOf s va n).2.2 := by
  rw [readB, Bool.and_eq_true, decide_eq_true_eq] at h
  obtain ⟨h0, h⟩ := h
  obtain ⟨g, hg, h1⟩ := grantsAll (P := fun g => (g.s.readAtIssue g.lat.isSome g.runs).2 = none) h
  refine .inr ⟨h0, g, hg, ?_, ?_, ?_⟩ <;> simp only [readOf, hg.2.2]
  exact Prod.ext rfl h1

/-- A barrier collective of one rank, whose descriptor at 0x10000 is all zeros; and an ALLREDUCE of one FP32 element. -/
def coll0 (cells : List Host.Cell) : State := { pc0 none 0x10000 0x20000 4 with mem := cells }

def collCells : List Host.Cell :=
  [(0x10012, 2), (0x1001A, 3), (0x10020, 1), (0x10024, 6), (0x10025, 6), (0x10026, 32)]

def collF (op : Nat) : CollF := { h := h0, dep := 0, ten := true, op := BitVec.ofNat 4 op, tag := 3, a := fi 0 14 }

theorem witness_collectives :
    (Ready (coll0 []) (.coll { collF 6 with a := .latch false }) ∧ (coll0 []).here.srcOk 6 false (.latch false) = false) ∧
    (let s := coll0 []
     let s1 := (readOf s 0x10000 64).1
     let s2 := (readOf s1 0 4).1
     let d := collDesc (readOf s 0x10000 64).2.1
     Ready s (.coll (collF 6)) ∧ s.here.srcOk 6 false (fi 0 14) = true ∧ (∀ r ∈ s.peekPas 0x10000 64, r.pa / 2 ^ 44 = s.modId) ∧
       s.Reads 0x10000 64 (fun _ => true) s1 (readOf s 0x10000 64).2.1 (readOf s 0x10000 64).2.2 ∧ collFieldsOk 6 d = true ∧
       d.memb = 0 ∧ d.ncont = 1 ∧ s1.Reads 0 4 (fun _ => true) s2 (readOf s1 0 4).2.1 (readOf s1 0 4).2.2 ∧ getElem 32 (readOf s1 0 4).2.1 0 < 2 ^ 16 ∧
       d.dfmt = 0 ∧ (∃ g, s2.GrantsAll [] (fmtIs 0) g) ∧ s2.here.inFixed = false ∧ s2.tagBusy (some 3) = false ∧ s2.queueWrites [] = false ∧
       s2.colls.length < 1024) ∧
    (let s := coll0 collCells
     let s1 := (readOf s 0x10000 64).1
     let s2 := (readOf s1 0 4).1
     let d := collDesc (readOf s 0x10000 64).2.1
     let s3 := (readOf s2 0x20000 4).1
     Ready s (.coll (collF 0)) ∧ collFieldsOk 0 d = true ∧ d.memb = 0 ∧ d.ncont = 1 ∧ s1.Reads 0 4 (fun _ => true) s2 (readOf s1 0 4).2.1 (readOf s1 0 4).2.2 ∧
       (d.sfmt, d.dfmt) = (6, 6) ∧ s2.collDst 6 0x30000 (collOut 0 1 1) = some [(0x30000, 4)] ∧
       s2.dstAway [(0x30000, 4)] = false ∧
       (d.src, d.dst, d.count) = (0x20000, 0x30000, 1) ∧ attrBlock 6 = false ∧ ceilDiv (1 * collBits 6) 8 = 4 ∧
       s2.Reads 0x20000 4 (fmtIs 6) s3 (readOf s2 0x20000 4).2.1 (readOf s2 0x20000 4).2.2 ∧
       (∃ g, s3.GrantsAll [(0x30000, 4, useWrite)] (fmtIs 6) g) ∧ s3.here.inFixed = false ∧ s3.colls.length < 1024) := by
  refine ⟨⟨ready (by decide), by decide⟩,
    ⟨ready (by decide), by decide, by decide, reads (by decide), by decide, by decide, by decide, reads (by decide), by decide, by decide, ?_, by decide, by decide, by decide, by decide⟩,
    ready (by decide), by decide, by decide, by decide, reads (by decide), by decide, by decide, by decide, by decide, by decide, by decide, reads (by decide), ?_, by decide, by decide⟩
  · obtain ⟨g, h, -⟩ := grantsAll (s := (readOf (readOf (coll0 []) 0x10000 64).1 0 4).1) (spans := []) (pair := fmtIs 0) (P := fun _ => True) (by decide)
    exact ⟨g, h⟩
  · obtain ⟨g, h, -⟩ := grantsAll (s := (readOf (readOf (readOf (coll0 collCells) 0x10000 64).1 0 4).1 0x20000 4).1) (spans := [(0x30000, 4, useWrite)])
      (pair := fmtIs 6) (P := fun _ => True) (by decide)
    exact ⟨g, h⟩

/-! ### Operations in progress -/

/-- Core `c` with one operation in progress, due at this tick. -/
def fly (c t : Nat) (f : Core → Core) (w : Work) : State :=
  let s := at' c t f
  { s with flights := [{ id := 0, core := c, tag := t, grp := 0, due := 1000, fixed := true, inseg := false, async := true, pos := 0, pc := 0, work := w }] }

def flW (c t : Nat) (w : Work) : Flight :=
  { id := 0, core := c, tag := t, grp := 0, due := 1000, fixed := true, inseg := false, async := true, pos := 0, pc := 0, work := w }

def pass0 (rot : Bool) : Work := .pass 0 (List.replicate (if rot then 256 else 128) 0x3F800000) 0 rot

/-- Core 0 with a nest whose next pass is due, with the planes in states `a` and `b`, after a first pass where the planes flip; it stops at `stop`, and has waited since `since`. -/
def entry (tab : SMap W64) (a b : Nat) (stop since : Option Nat) (reck : Nat) : State :=
  let s := at' 0 3 fun k => ({ k with nestRun := some { run0 with regs := tab, stopAt := stop, since := since, entered := if nFlip tab 0 then 1 else 0, total := nTotal tab } }.setPlane k.act { full 5 with st := a }).setPlane (!k.act)
    { full 5 with st := b }
  { s with flights := [nestFl 1000], groups := [{ group0 with reck := reck }] }

/-- A nest of two passes with a flip between them. -/
def tabFlip : SMap W64 := [(0, BitVec.ofNat 64 (2 ^ 24 + 1)), (13, BitVec.ofNat 64 (1 + 5 * 64))]

/-- A rotation. -/
def tabRot : SMap W64 := [(13, BitVec.ofNat 64 (1 + 8))]

theorem witness_matrixEvents :
    (fly 0 1 id (.plane true 0x1000 0 32768 32768 [] [])).flight 0 = some (flW 0 1 (.plane true 0x1000 0 32768 32768 [] [])) ∧
    (∀ since stop, ((entry tab0 2 0 stop since 1000).core 0).nestRun = some { run0 with regs := tab0, stopAt := stop, since := since } ∧
      (entry tab0 2 0 stop since 1000).flight 0 = some (nestFl 1000)) ∧
    ((entry tab0 2 0 (some 999) none 1000).reckOf 0 = 1000 ∧ (entry tab0 2 0 (some 1000) none 1000).reckOf 0 = 1000) ∧
    (let s := entry tabFlip 2 1 none (some 1000) 66535
     nFlipAt tabFlip 1 = true ∧ ((s.core 0).nestRun.elim 0 fun r => r.entered) = 1 ∧ (s.core 0).shPlane.st ≠ 2 ∧ s.reckOf 0 < 1000 + 65536 ∧ (entry tabFlip 2 1 none (some 1000) 66536).reckOf 0 = 1000 + 65536) ∧
    (let s := entry tab0 2 0 none none 1000
     ¬(nFlipAt tab0 0 = true ∧ (s.core 0).shPlane.st ≠ 2 ∨ nRot tab0 = true ∧ s.rowsBusy 0 (nRow tab0 0).toNat = true) ∧ nRot tab0 = false ∧
       s.consumePlane 0 0 = (s, true) ∧ ∀ p ∈ recordSpans (s.core 0) run0 (nAddr tab0 0 0).toNat, s.soundAt (s.bufPa 0 1 p.1) p.2) ∧
    (let s := entry tabRot 2 0 none none 1000
     ¬(nFlipAt tabRot 0 = true ∧ (s.core 0).shPlane.st ≠ 2 ∨ nRot tabRot = true ∧ s.rowsBusy 0 (nRow tabRot 0).toNat = true) ∧ nRot tabRot = true ∧
       s.consumeBuf 0 3 2 0 [((if (s.core 0).wbank then 0x40000 else 0) + 512 * (nRow tabRot 0).toNat, 1024)] = (s, true)) ∧
    (∀ b ∈ [true, false], let s := fly 0 3 (fun k => { k with nestRun := some run0 }) (pass0 b)
     s.flight 0 = some (flW 0 3 (pass0 b)) ∧ (s.core 0).nestRun = some run0 ∧
       (s.dropFlight 0).consumeBuf 0 3 2 0 [((if (s.core 0).wbank then 0x40000 else 0), if b then 1024 else 512)] = (s.dropFlight 0, true)) ∧
    ((fly 0 3 id (.clear true)).flight 0 = some (flW 0 3 (.clear true)) ∧ (fly 0 3 id .carry).flight 0 = some (flW 0 3 .carry) ∧
      ((fly 0 3 id .carry).dropFlight 0).consumeBuf 0 3 2 0 [((if ((fly 0 3 id .carry).core 0).wbank then 0x40000 else 0), 0x40000)] =
        ((fly 0 3 id .carry).dropFlight 0, true)) ∧
    (let w : Work := .row 990 [((fly 0 4 id .carry).bufPa 0 1 0, 7)] 0 []
     (fly 0 4 id w).flight 0 = some (flW 0 4 w) ∧ ((fly 0 4 id w).core 0).ports = [] ∧ (fly 0 4 id w).reckOf 0 = 1000 ∧
       (0 ∈ (spanLines [(0, 1)]).map fun l => l % 24) ∧
       (1000, 3, 0) ∈ ((fly 0 4 (fun k => { k with ports := [(1000, 3, 0)] }) w).core 0).ports) := by
  refine ⟨by rfl, fun _ _ => ⟨by rfl, by rfl⟩, by decide, by decide, ⟨by decide, by decide, by rfl, by decide⟩,
    ⟨by decide, by decide, consumeBuf_sound 0 3 2 0 (by decide)⟩, ?_, ⟨by rfl, by rfl, consumeBuf_sound 0 3 2 0 (by decide)⟩, by rfl, by decide, by decide, by decide, by decide⟩
  intro b hb
  simp only [List.mem_cons, List.not_mem_nil, or_false] at hb
  rcases hb with h | h <;> subst h <;> exact ⟨by rfl, by rfl, consumeBuf_sound 0 3 2 0 (by decide)⟩

def contrib0 (rank ncont : Nat) : Contrib :=
  { collid := 8, seq := 1, ncont := ncont, rank := rank, count := 1, op := 0, sfmt := 6, dfmt := 6, eblk := 32, root := 0, members := [0, 0], src := [0, 0, 128, 63],
    scales := [], tiles := [], core := some 0, dst := 0x10000, tag := some 3, inseg := false, live := true, pc := 0 }

def coll1 : Coll := { xdie := 0, parts := [contrib0 0 2], formed := false, received := [] }

def run1 (n : Nat) : Run := { va := 0x10000, pa := 0x10000, len := n }

/-- Operations of core 0 that land, with nothing in memory marked. -/
theorem witness_operationsTakeEffect :
    (∀ w ∈ ([.load [run1 4] [] 32 8 false false 4 0, .fill [run1 4] [] 32 8, .nibbles [(0x20000, 5)], .arrive 0x10000 1, .write [(0x10000, 5)] [],
        .vload [(0, 0x10000)] 32 8, .late true, .atomic 0x10000 0 false 1 0 32 8 false none, .copy [run1 4] [] [run1 4] [] 999 [] [], .walk 0 [(false, 0)],
        .deliver (contrib0 0 2), .drained, .beats 7 none 0 64 true []] : List Work),
      (fly 0 0 id w).flight 0 = some (flW 0 0 w) ∧ (fly 0 0 id w).roleLost (flW 0 0 w) = false ∧ (fly 0 0 id w).staleByte (flW 0 0 w) = none ∧ ∀ n, n ∈ [4, 16] → ((fly 0 0 id w).endFlight (flW 0 0 w)).soundAt 0x10000 n ∧ (fly 0 0 id w).soundAt 0x10000 n) ∧
    (let w : Work := .nibbles [(2 * (ce0.bufPa 0 2 0), 5)]
     let v : Work := .load [{ va := 0, pa := 2 ^ 44 + 0x10000, len := 4 }] [] 32 8 false false 4 0
     (fly 0 0 id w).roleLost (flW 0 0 w) = true ∧
       ({ fly 0 0 id v with stale := [{ base := 2 ^ 44 + 0x10002, len := 64 }] } : State).staleByte (flW 0 0 v) = some (2 ^ 44 + 0x10002)) ∧
    (∀ x ∈ ce0.colls, x.isOf (contrib0 0 2) = false) ∧ (contrib0 0 2).ncont ≠ 1 ∧ ce0.goneMember (contrib0 0 2) = none ∧
    ({ ce0 with members := [{ id := 5, hbmcap := 0, mix := [], gone := true }] } : State).goneMember { contrib0 0 2 with members := [5] } = some 5 ∧
    (let s : State := { ce0 with colls := [coll1] }
     s.colls.find? (fun y => y.isOf (contrib0 1 2)) = some coll1 ∧ (∀ p ∈ coll1.parts, contribSame p (contrib0 1 2) = true) ∧ (∀ p ∈ coll1.parts, p.rank ≠ 1) ∧
       coll1.parts.length + 1 = (contrib0 1 2).ncont ∧ coll1.formed = false ∧
       s.colls.find? (fun y => y.isOf (contrib0 1 3)) = some coll1 ∧ (∃ p ∈ coll1.parts, contribSame p (contrib0 1 3) = false)) ∧
    (let s : State := { ce0 with colls := [{ coll1 with parts := [contrib0 0 3] }] }
     s.colls.find? (fun y => y.isOf (contrib0 1 3)) = some { coll1 with parts := [contrib0 0 3] } ∧ 1 + 1 ≠ (contrib0 1 3).ncont) ∧
    (let s : State := { fly 0 6 id (.deliver (contrib0 0 2)) with colls := [coll1] }
     s.flight 0 = some (flW 0 6 (.deliver (contrib0 0 2))) ∧ s.colls.find? (fun y => y.isOf (contrib0 0 2)) = some coll1 ∧ attrBlock (contrib0 0 2).dfmt = false) := by
  refine ⟨?_, by decide, by decide, by decide, by decide, by decide, by decide, by decide, by rfl, by decide, by decide⟩
  intro w hw
  simp only [List.mem_cons, List.not_mem_nil, or_false] at hw
  rcases hw with h | h | h | h | h | h | h | h | h | h | h | h | h <;> subst h <;> exact ⟨by rfl, by decide, by decide, by decide⟩

/-- An owner field with an uncorrectable error is reset (R408). -/
theorem test_lost_owner : let s := ({ ce0 with recErr := [(true, 1), (false, 64)], owner := [(1, 9#4)] } : State).loseRecord (true, 1)
    s.owner = [] ∧ s.recErr = [(false, 64)] := by decide

/-! ### Groups, power, debug -/

def gbar1 : Gbar := { id := 1, first := 990, last := 998, cores := [0, 128] }

/-- Group 0 with `f` applied. -/
def grp (f : Group → Group) : State := { ce0 with groups := [f group0] }

theorem witness_groupsAndPauses :
    ((grp fun g => { g with bar := some gbar1 }).group 0 = some { group0 with bar := some gbar1 }) ∧
    (let s := at' 0 0 fun k => k.modEngine 0 fun e => { e with openWait := true, since := some 0 }
     ce0.overdue 0 = [] ∧ ({ s with groups := [{ group0 with reck := 16777215 }] } : State).overdue 0 = [] ∧
       ({ s with groups := [{ group0 with reck := 16777216 }] } : State).overdue 0 = [0]) ∧
    (let s := at' 0 0 (inSeg 0 true)
     s.group 0 = some group0 ∧ group0.leave = none ∧ s.carryBad group0 = none) ∧
    (let s : State := { grp (fun g => { g with claims := [{ src := 3, till := some 5 }] }) with time := 5 }
     ∃ g, s.group 0 = some g ∧ (g.claims.findIdx? fun c => decide (c.src = 3) && c.till.elim false fun t => decide (t ≤ s.time)) = some 0) ∧
    (let s : State := { ce0 with env := { ce0.env with input := 420, meanPower := ce0.powerLimit, railSag := [] } }
     420 ≤ s.env.input ∧ s.env.meanPower ≤ s.powerLimit ∧ s.env.railSag = []) ∧
    (let s : State := { ce0 with env := { ce0.env with input := 419 } }
     s.env.input < 420 ∧ s.groups = [group0] ∧ ∀ c ∈ group0.claims, c.src ≠ 4) ∧
    (({ ce0 with slew := -1 } : State).slew < 0 ∧ 0 < ({ ce0 with slew := 1 } : State).slew ∧ ce0.slew = 0) := by
  refine ⟨by rfl, by decide, ⟨by rfl, by decide, by decide⟩, ⟨_, rfl, by decide⟩, by decide, ⟨by decide, by rfl, by decide⟩, by decide⟩

/-- A boot stage and an error code. -/
def bootAt (stage err : Nat) : State := { ce0 with creg := [(0x700, BitVec.ofNat 64 (stage + 256 * err))] }

/-- Every sensor reads `v` 64ths of a kelvin. -/
def sens (v : Nat) : List Sensor := (List.range 39).map fun i => { slot := i, die := some v, stack0 := some v, stack1 := some v }

/-- State `st` of the thermal controller, with AUTORUN where `auto` is 8, and its sensors. -/
def therm0 (st auto : Nat) (xs : List Sensor) : State :=
  let s : State := { ce0 with creg := [(0x100, BitVec.ofNat 64 st), (0x1A0, BitVec.ofNat 64 auto)] }
  { s with env := { s.env with sensors := xs } }

/-- At 77 K every band is 0 and the module's too, at 90 K they are 1, at 100 K 2, at 140 K 3; one hot die alone is enough. -/
theorem witness_thermalSamples :
    (let x := (therm0 2 0 []).sampleAll
     (∀ d, d < 39 → 1 ≤ d → x.bandOf d = 0) ∧ x.mband = 0) ∧
    (let x := (therm0 2 0 [{ slot := 38, die := some 5800, stack0 := none, stack1 := none }]).sampleAll
     x.dieStatus 38 = 0 ∧ x.bandOf 38 ≠ 0 ∧ x.mband = 1) ∧
    (let x := (therm0 3 0 [{ slot := 1, die := some 4928, stack0 := some 6400, stack1 := some 4928 }]).sampleAll
     x.bandOf 1 = 2 ∧ x.mband = 2) ∧
    (let x := (therm0 4 8 [{ slot := 9, die := some 8960, stack0 := none, stack1 := none }]).sampleAll
     x.mband = 3 ∧ (therm0 4 8 []).autorun = true ∧ (therm0 4 0 []).autorun = false) ∧
    (∀ n, n < 39 → ∀ r ∈ (therm0 8 0 (sens 18112)).readings n, r = some (64 * 283)) ∧
    (∃ r ∈ (therm0 8 0 []).readings 0, ∀ v, r = some v → v < 64 * 283) := by
  refine ⟨by decide, by decide, by decide, by decide, by decide, some 4928, by decide, ?_⟩
  intro v h
  injection h with h
  omega

/-- Every state of the thermal controller with every band. -/
theorem witness_thermalCommands :
    (∀ n, n < 10 → ∀ b, b < 5 → ∀ h, h < 2 → let s : State := { ce0 with creg := [(0x100, BitVec.ofNat 64 (n + 16 * b + 128 * h))] }
      s.thermal = n ∧ s.mband = b ∧ s.humok = decide (h = 1)) ∧
    ce0.env.silent = [] ∧ State.reset.groups = [] ∧ ce0.boot.subscribed = false ∧ ce0.groups = [group0] ∧ group0.stopped = false ∧
    (let s : State := { bootAt 5 0 with boot := { ce0.boot with subscribed := true } }
     s.portUp = true ∧ s.boot.subscribed = true) := by decide

def stopped0 : State := grp fun g => { g with stopped := true }

theorem witness_debugCommands :
    (ce0.group 0 = some group0 ∧ group0.stopped = false ∧ stopped0.group 0 = some { group0 with stopped := true } ∧ (stopped0.cregOf 0x650).getLsbD 0 = false) ∧
    (∀ g, ce0.group 7 = some g → g.stopped = true) ∧
    (let s : State := { at' 0 0 (fun k => (inSeg 0 true k).modEngine 0 fun e => { e with lastAt := some 950 }) with groups := [{ group0 with stopped := true }] }
     ((s.dbgCmd 0 4).dbgTarget { group0 with stopped := true }).isSome = true ∧ ((s.dbgCmd 0 5).dbgTarget { group0 with stopped := true }).isSome = true ∧
       s.groupInSeg { group0 with stopped := true } = true ∧ group0.pend = none) := by
  refine ⟨⟨by rfl, by decide, by rfl, by decide⟩, ?_, by decide, by decide, by decide, by decide⟩
  intro g h
  exact absurd h (by rw [show ce0.group 7 = none from rfl]; simp)

/-! ### The host's channels -/

/-- A channel header at 0 with rings of 16 entries, the first submission (of number `seq` and operation `op`) at 0x1000, and TAIL at `tail`. -/
def chan (seq op tail : Nat) : State :=
  { ce0 with mem := [(0x1, 0x10), (0x8, 16), (0xC, 16), (0x18, BitVec.ofNat 8 tail), (0x1000, BitVec.ofNat 8 seq), (0x1008, BitVec.ofNat 8 op)] }

def chanAt (s : State) (o n : Nat) : Nat := rdLe (s.setCreg 0x308 0).mem ((s.setCreg 0x308 0).headerPa 0x300 + o) n

def mpAt (s : State) (o n : Nat) : Nat := rdLe (s.setCreg 0x328 0).mem ((s.setCreg 0x328 0).headerPa 0x320 + o) n

def ent0 : CqEnt := { ack := 1, kind := 0, status := 0, sub := 0, handle := 77, data := [] }

/-- An entry that waits while the ring of 16 holds `n`. -/
def waitCq (n : Nat) : State := { ce0 with mem := [(0xC, 16), (0x28, BitVec.ofNat 8 n)], cqWait := [ent0], nqWait := [{ kind := 1, size := 0, status := 0, count := 0, job := 1, va := 0 }] }

def sbm0 (h a0 a1 : Nat) : Sbm := { seq := 1, flags := 0, handle := h, arg0 := a0, arg1 := a1, arg2 := 0 }

/-- Job 1 with a heap of its own memory and an image range that it may execute. -/
def job1 (phases : List Phase) (closed : Bool) : Job :=
  { blkJob with handle := 1, poolLen := 0x100000000, heapb := 0x180, heapl := 0x40000, closed := closed, phases := phases,
                ranges := [{ base := 0x40000, limit := 0x50000, off := 0, attr := 0x280, paged := false, revoking := false, esz := 0, ssz := 0 }] }

def ph0 : Phase := { no := 0, ctr := Counter.new 0 0, closed := false }

/-- A descriptor of a graph of one node at 0x800, its record at 0x900, a parameter block at 0x1000, and an image of shape 0 at 0x40000. -/
def work0 (j : Job) : State :=
  { ce0 with jobs := [j], mem :=
    [(0x800, 1), (0x809, 9), (0x901, 0x10), (0x1002, 4), (0x1008, 1), (0x1010, 1), (0x1014, 1), (0x1018, 1), (0x40000, 0x45), (0x40001, 0x4A), (0x40002, 0x37),
     (0x40003, 0x37), (0x40004, 1), (0x40008, 1), (0x40010, 64), (0x40020, 96)] }

def okOf {α : Type} (r : Except Nat α) : Bool :=
  match r with
  | .ok _ => true
  | .error _ => false

def errOf {α : Type} (r : Except Nat α) : Option Nat :=
  match r with
  | .ok _ => none
  | .error n => some n

/-- Job 1 with the graph of one launch, whose one unit stands as `st`; its frame is at 0. -/
def units0 (st : Option UnitSt) (det : Nat) (g : Group) : State :=
  { work0 (job1 [ph0] false) with
    groups := [g]
    graphs := [{ graph0 with job := 1, nodes := [{ node0 with nextK := 0, det := det, units := st.toList.map fun x => { u := 0, st := x, frame := some 0, flen := 256, starts := 1, shape := 3 } }] }] }

theorem witness_hostChannels :
    (ringOk (chanAt ce0 8 4) = false ∧ ringOk (chanAt (chan 1 1 0) 8 4) = true ∧ chanAt (chan 1 1 0) 0x20 8 = chanAt (chan 1 1 0) 0x18 8 ∧
      chanAt (chan 1 1 1) 0x20 8 ≠ chanAt (chan 1 1 1) 0x18 8 ∧
      ∀ q ∈ [1, 2], let s := chan q 1 1
        let s1 := s.setCreg 0x308 0
        let s2 := s1.putHeader (s1.headerPa 0x300) 0x38 s1.nextSub
        rdLe s2.mem (s2.ringPa (chanAt s 0 8 + 64 * (chanAt s 0x20 8 % chanAt s 8 4))) 8 = q ∧ s2.nextSub = 1) ∧
    ((sbmInstr 10 (sbm0 1 0 0)).isSome = true ∧ sbmInstr 11 (sbm0 1 0 0) = none ∧ sbmInstr 0 (sbm0 1 0 0) = none) ∧
    (∀ n ∈ [14, 15], let s := waitCq n
     let f (o n : Nat) : Nat := rdLe s.mem (s.headerPa 0x300 + o) n
     s.cqWait = ent0 :: [] ∧ ringOk (f 0xC 4) = true ∧ ((f 0x28 8 % f 0xC 4 + 1) % f 0xC 4 = f 0x30 8 % f 0xC 4 ↔ n = 15) ∧
       s.itemOf ent0.handle ent0.sub = none) := by
  decide

theorem witness_jobsAndGraphs :
    (let s := work0 (job1 [] false)
     s.handleUsed 1 = true ∧ s.handleUsed 2 = false ∧ s.job 2 = none ∧ s.job 1 = some (job1 [] false) ∧ (job1 [] false).ended = false ∧
       (job1 [] false).openPhase = none ∧ s.counterOk (job1 [] false) 0 = true ∧ s.counterOk (job1 [] false) 0x40000 = false ∧ (job1 [] true).ended = true ∧
       (job1 [ph0] false).openPhase = some ph0) ∧
    (errOf ((work0 (job1 [] false)).workPlace (sbm0 5 1 0)) = some 1 ∧ errOf ((work0 (job1 [] false)).workPlace (sbm0 5 2 0)) = some 5) ∧
    (let j := job1 [ph0] false
     let s := work0 j
     okOf (s.workPlace (sbm0 5 1 0x1000)) = true ∧ okOf (s.readLaunch j 0x1000 []) = true ∧ errOf (s.readLaunch j 0x1001 []) = some 1 ∧
       ∃ d bs, s.jobRead j 0x800 24 awR = some d ∧ fieldAt d 0 4 = 1 ∧ fieldAt d 4 4 = 0 ∧ s.counterOk j (fieldAt d 0x10 8) = true ∧
         s.jobRead j (fieldAt d 8 8) (32 * fieldAt d 0 4) awR = some bs ∧ okOf (s.readNodes j [bs.take 32]) = true) := by
  refine ⟨by decide, by decide, by decide, by decide, by decide, ((work0 (job1 [ph0] false)).jobRead (job1 [ph0] false) 0x800 24 awR).getD [],
    ((work0 (job1 [ph0] false)).jobRead (job1 [ph0] false) 0x900 32 awR).getD [], by decide, by decide, by decide, by decide, by decide, by decide⟩

theorem witness_cancels :
    ((units0 (some .ready) 0 group0).cancelItem 0 1 0 ≠ none ∧ (units0 (some .ready) 0 group0).itemOver (.node 0 0) = false ∧ ce0.cancelItem 0 1 0 = none) ∧
    (let s := (units0 (some .ready) 0 group0).modNode 0 0 fun n => { n with ctr := { n.ctr with st := 2 } }
     s.cancelItem 0 1 0 = some (.node 0 0) ∧ s.itemOver (.node 0 0) = true) ∧
    (let s := work0 { job1 [] true with ctr := { (job1 [] true).ctr with st := 2 } }
     (s.job 1).isSome = true ∧ s.itemOver (.job 1) = true ∧ s.cancelItem 3 1 0 = some (.job 1)) ∧
    (let s : State := { work0 (job1 [] false) with cancels := [{ id := 4, level := 3, handle := 1, arg := 0, destroy := false }] }
     (s.cancels.find? fun r => decide (r.id = 4)).isSome = true ∧ s.cancelItem 3 1 0 = some (.job 1)) ∧
    (errOf (ce0.namedNode (sbm0 1 0 0)) = some 5 ∧ okOf ((units0 (some .stoppedFrame) 0 group0).namedNode (sbm0 1 0 0)) = true ∧
      (units0 (some .stoppedFrame) 0 group0).node 0 0 ≠ none ∧
      (units0 (some (.running 0)) 0 { group0 with held := some { core := 0, tag := 0, cause := .page, tick := 1 } }).group 0 ≠ none) := by
  decide

/-- A group of every die. -/
def group8 : Group := { group0 with shape := 0, dies := List.range 37 }

theorem witness_units :
    (let s := units0 none 2 group0
     (s.node 0 0).isSome = true ∧ (s.node 0 0).elim false (fun n => s.badTrace 0 n) = false) ∧
    (let s := (units0 none 2 group0).modNode 0 0 fun n => { n with trace := 0x800, tracelen := 1, gx := 1 }
     (s.node 0 0).elim false (fun n => s.badTrace 0 n) = true) ∧
    (let s : State := { units0 none 0 group0 with groups := [] }
     (s.node 0 0).elim false (fun n => !s.badTrace 0 n && ((s.starts 0 n).find? fun x => decide (x.u = 0)).isSome && decide (s.shapeFor [3] = some 3)) = true ∧
       (s.startUnit 0 0 0 3).isSome = true) ∧
    (let s : State := { units0 (some .ready) 0 group0 with groups := [], mem := [] }
     let r : UnitRec := { u := 0, st := .ready, frame := some 0, flen := 256, starts := 1, shape := 3 }
     (s.node 0 0).elim false (fun n => decide (n.units.find? (fun r => decide (r.u = 0)) = some r)) = true ∧ s.frameOf 0 { r with frame := none } = none ∧
       (s.frameOf 0 r).elim false (fun f => !ctxOk r f) = true) ∧
    (let s : State := { units0 (some .ready) 0 group0 with groups := [], mem := [(0, 0x37), (1, 0x37), (2, 0x46), (3, 0x43), (4, 1), (6, 3)] }
     let r : UnitRec := { u := 0, st := .ready, frame := some 0, flen := 256, starts := 1, shape := 3 }
     (s.frameOf 0 r).elim false (fun f => ctxOk r f && decide (s.shapeFor (resumeShapes node0 r (some f)) = some 3)) = true ∧ (s.formGroup 3 0 0 0 1).isSome = true) ∧
    ((units0 (some (.running 0)) 0 group0).group 0 = some group0) ∧
    ((units0 none 0 group8).wishOf 0 0 = some (.room 3)) := by
  decide

/-! ### The memory processor, the module, boot -/

def req0 (va len a0 a1 a2 : Nat) : Req := { seq := 1, flags := 4, job := 1, va := va, len := len, arg0 := a0, arg1 := a1, arg2 := a2 }

def leaf0 (pres mig : Bool) : Leaf :=
  { va := 0x50000, size := 65536, attr := 0x180, pres := pres, mig := mig, revoking := false, pa := 0x10000, count := 0, noticed := false }

/-- Job 1 with a page at 0x50000. -/
def pages (l : Leaf) : State := { ce0 with jobs := [{ job1 [] false with leaves := [l] }] }

/-- The request ring empty, and with a request of the next number or another, and of an operation that is known or not. -/
theorem witness_requestRing :
    (∀ n ∈ [14, 15], let s := waitCq n
     let f (o n : Nat) : Nat := rdLe s.mem (s.headerPa 0x320 + o) n
     s.nqWait.length = 1 ∧ ringOk (f 0xC 4) = true ∧ ((f 0x28 8 % f 0xC 4 + 1) % f 0xC 4 = f 0x30 8 % f 0xC 4 ↔ n = 15)) ∧
    (ringOk (mpAt ce0 8 4) = false ∧ ringOk (mpAt (chan 1 1 0) 8 4) = true ∧ mpAt (chan 1 1 0) 0x20 8 = mpAt (chan 1 1 0) 0x18 8 ∧
      mpAt (chan 1 1 1) 0x20 8 ≠ mpAt (chan 1 1 1) 0x18 8 ∧
      ∀ q ∈ [1, 2], ∀ op ∈ [1, 99], let s := chan q op 1
        let s1 := s.setCreg 0x328 0
        let s2 := s1.putHeader (s1.headerPa 0x320) 0x38 s1.nextReq
        let pa := s2.ringPa (mpAt s 0 8 + 64 * (mpAt s 0x20 8 % mpAt s 8 4))
        rdLe s2.mem pa 8 = q ∧ s2.nextReq = 1 ∧ (reqInstr (rdLe s2.mem (pa + 8) 2) (req0 0 0 0 0 0)).isSome = decide (op = 1)) := by
  decide

theorem witness_memoryRequests :
    (ce0.job 1 = none ∧ (work0 (job1 [] false)).job 1 = some (job1 [] false)) ∧
    (let s : State := { chan 1 1 0 with resps := [{ seq := 9, ent := { kind := 1, size := 0, status := 0, count := 0, job := 1, va := 0 }, page := none }] }
     ringOk (rdLe (s.setCreg 0x328 0).mem ((s.setCreg 0x328 0).headerPa 0x320 + 8) 4) = true ∧ (s.resps.find? fun r => decide (r.seq = 9)).isSome = true ∧
       (s.resps.all fun r => s.respReady r) = true ∧
       (s.resps.all fun r => ({ s with dropSt := some { seq := 9, first := 0, n := 1, since := 0, ends := none } } : State).respReady r) = false) ∧
    (let a : BitVec 16 := BitVec.ofNat 16 0x180
     attrOk a false false (some 0) = true ∧ awR a = true ∧ awX a = false ∧ awWb a = false ∧ awCnt a = false ∧ awHost a = false ∧ attrBlock (awFmt a) = false) ∧
    (let r := req0 0x100000 0x20000 0 0x1018F (1 + 2 ^ 32)
     let j := job1 [] false
     r.va % 65536 = 0 ∧ r.arg1 / 2 ^ 16 = 1 ∧ j.hitsHeap r.va r.len = false ∧ j.hitsRange r.va r.len = false ∧ j.hitsLeaf r.va r.len = false ∧
       attrOk (BitVec.ofNat 16 r.arg1) false false none = true ∧
       planesOk (awFmt (BitVec.ofNat 16 r.arg1)) (r.arg2 % 2 ^ 32) (r.arg2 / 2 ^ 32) (r.len / 65536) = true) ∧
    (let r := req0 0x50000 0 0x20000 0x180 0
     let j := job1 [] false
     r.flags = 4 ∧ attrOk (BitVec.ofNat 16 r.arg1) true false (some r.arg0) = true ∧ j.hitsHeap r.va 65536 = false ∧ j.hitsRange r.va 65536 = false ∧
       j.hitsLeaf r.va 65536 = false ∧ j.pendingAt r.va 65536 = false ∧ awW (BitVec.ofNat 16 r.arg1) = true ∧ (work0 j).wrBusy 1 r.va r.arg0 65536 = false ∧
       (work0 j).mixedRights 1 (some r.va) r.arg0 65536 true = false) ∧
    ((job1 [] false).cutSpan 0 65536 = none ∧ ((job1 [] false).cutSpan 0x40000 65536).isSome = true ∧ (job1 [] false).leafAt 0x50000 = none) ∧
    (∀ b ∈ [true, false], let s := pages (leaf0 true b)
     let j : Job := { job1 [] false with leaves := [leaf0 true b] }
     s.job 1 = some j ∧ j.leafAt 0x50000 = some (leaf0 true b) ∧ (leaf0 true b).mig = b ∧ (leaf0 true b).revoking = false ∧
       awPin (j.leafAttr (leaf0 true b)) = false ∧ j.pendingAt 0x50000 65536 = false ∧ s.wrBusy 1 0x50000 0x20000 65536 = false ∧
       s.mixedRights 1 (some 0x50000) 0x20000 65536 (awW (j.leafAttr (leaf0 true b))) = false) ∧
    (lookup (job1 [] false).heapCore (job1 [] false).base 0x60000 = none ∧ (lookup (job1 [] false).heapCore (job1 [] false).base 0).isSome = true) ∧
    (work0 (job1 [] false)).footWaiter 1 = none ∧
    (let s : State := { ce0 with creg := [(0x210, 1024), (0x400, 1)] }
     s.dropSt = none ∧ 1024 < 1024 + 1 ∧ s.pcState 0 = 1 ∧ s.reaches ((1024 - 1) * 2 ^ 30) (1024 * 2 ^ 30) = false) ∧
    (let c : Change := { seq := 9, kind := .unmap, va := 0x40000, len := 65536, waiting := [0], deadline := none }
     let s : State := { ce0 with jobs := [{ job1 [] false with changes := [c] }] }
     s.jobs = [{ job1 [] false with changes := [c] }] ∧ c.kind = .unmap) := by
  refine ⟨by decide, by decide, by decide, by decide, by decide, by decide, by decide, by decide, by decide, by decide, by decide⟩

theorem witness_registersAndDies :
    (∀ d, d < 37 → 8 < d → State.reset.dieStatus d = 0) ∧ State.reset.groups = [] ∧ (0x108 % 8 = 0 ∧ 0x109 % 8 ≠ 0 ∧ 0x108 ≠ 0x1A0) ∧
    (State.reset.cregOf 0x340).getLsbD 17 = false ∧ (5 ≠ State.reset.modId) ∧ State.reset.inDomain 5 = false ∧
    (let s : State := { State.reset with creg := (0x360, BitVec.ofNat 64 32) :: State.reset.creg }
     s.flights = [] ∧ s.colls = []) := by
  decide

/-- An accepted image has no witness: whether the root accepts one rests on the signature check, which nothing here evaluates. -/
theorem witness_bootAndManagement :
    (State.reset.env.silent = [] ∧ State.reset.boot.store = []) ∧
    (let s : State := { ce0 with boot := { ce0.boot with store := [1] } }
     s.env.silent = [] ∧ s.boot.store ≠ [] ∧ imageErr s.boot.store 0 = 1) ∧
    (bitsN ((bootAt 5 0).cregOf 0x700).toNat 0 3 = 5 ∧ bitsN ((bootAt 5 0).cregOf 0x700).toNat 8 4 = 0 ∧ (bootAt 5 0).portUp = true ∧ (bootAt 5 0).bootFailed = false ∧
      (bootAt 4 0).portUp = false ∧ (bootAt 4 0).bootFailed = false ∧ (bootAt 2 1).bootFailed = true) ∧
    (bitsN (({ ce0 with creg := [(0x900, 9)] } : State).cregOf 0x900).toNat 0 3 = 1 ∧ bitsN (ce0.cregOf 0x900).toNat 0 3 = 0) ∧
    (ce0.boot.frags ++ ([] : List Byte).take 1024).length < 64 := by
  decide

/-! ### Words, steps, memory, faults -/

theorem witness_decodeEncode : WellFormed (.add add0) ∧ classOf (.add add0) = some .ce ∧ hasCls .m .ce ∧ WellFormed (.vadd v0) ∧ classOf (.vadd v0) = some .ve ∧
    hasCls .v .ve := by
  refine ⟨show staticFault _ = none by decide, rfl, .inr rfl, show staticFault _ = none by decide, rfl, .inr rfl⟩

theorem witness_wordsHaveOneMeaning : decode .m [0x02000400#32] = .instr (.lflip { h := h0 }) 1 1 := by decide

/-- The first engine that can issue is that of core 0; its stream holds `ws`. -/
def fetch0 (t : Nat) (ws : List W32) : State :=
  { ce0 with cores := [(0, { Core.reset 0 with grp := some 0, stream := ws, eng := (tagsOf .m).map fun u => (u, { Engine.reset with nextAt := if u = t then 1000 else 2000 }) })] }

theorem witness_stepRunsDecoded :
    ({ ce0 with agenda := [.nop 0] } : State).agenda = .nop 0 :: [] ∧
    (∀ p ∈ ([(0, 0x0E000000#32), (0, 0x02000400#32), (0, 0x00000000#32), (1, 0x00000000#32), (0, 0x0F000000#32)] : List (Nat × W32)),
      let s := fetch0 p.1 [p.2]
      s.agenda = [] ∧ s.half = .work ∧ s.firstIssue = some (0, p.1)) ∧
    decode .m [0x0E000000#32] = .instr (.nop 0) 1 7 ∧ isAll (.nop 0) = true ∧ decode .m [0x02000400#32] = .instr (.lflip { h := h0 }) 1 1 ∧
    isAll (.lflip { h := h0 }) = false ∧ decode .m [0x0F000000#32] = .bad .illegalEncoding 0 := by
  decide

/-- A step runs the word at the pc: the CE issues the NOP, steps over the LE's word, and faults on what decodes to nothing. -/
theorem test_step_fetches :
    seen (step (fetch0 0 [0x0E000000#32])) (fun t => ((t.core 0).engine 0).pc) = some 1 ∧
    seen (step (fetch0 0 [0x02000400#32])) (fun t => (((t.core 0).engine 0).pc, (t.core 0).act)) = some (1, false) ∧
    seen (step (fetch0 0 [0x0F000000#32])) (fun t => (SMap.get 0 (t.core 0).frec 0).toNat % 2 ^ 8) = some (Cause.code .illegalEncoding) := by
  decide

theorem witness_storedIsRead : ce0.anyLost = false ∧ (let s : State := { ce0 with creg := [(0x400, 2)] }
    s.anyLost = true ∧ s.lostPa 0 = true ∧ s.lostPa 4096 = false) := by decide

theorem witness_memoryStaysCanonical : ce0.MemWf ∧ (chan 1 1 1).MemWf := by unfold State.MemWf; decide

theorem witness_heldBack :
    (({ ce0 with groups := [] } : State).runs = false) ∧
    (ce0.runs = true ∧ ce0.hereE.owed = [] ∧ ce0.hereE.hold = none ∧ ce0.issueFault (.add add0) = none ∧ ce0.issueFault (.add { add0 with es := 1 }) = some .illegalEncoding) ∧
    (let s := at' 0 0 fun k => k.modEngine 0 fun e => { e with seam := 256 }
     s.runs = true ∧ s.here.inSeg = false ∧ 256 ≤ s.hereE.seam) ∧
    (let s := at' 0 0 fun k => { k with busy := [{ res := .sg 0, tick := 1001, op := none, hold := none, old := [], mask := [] }] }
     s.runs = true ∧ s.hereE.seam < 256 ∧ s.readsWait s.cur.core s.now (s.usesOf (.add add0)) = true) := by
  decide

theorem witness_takingFaults :
    (∀ s ∈ [ce0, segm0], (s.core 0).frecAt ≠ some s.time ∧ s.groupOf 0 = some group0) ∧ (ce0.core 0).seg = none ∧ (segm0.core 0).seg.isSome = true ∧
    group0.pend = none ∧ group0.held = none ∧ group0.leave ≠ some .vanish ∧ Cause.cls .illegalOperand ≠ 3 ∧
    (let g : Group := { group0 with leave := some .vanish }
     ({ ce0 with groups := [g] } : State).groupOf 0 = some g ∧ g.held = none ∧ g.pend = none) := by
  refine ⟨?_, by decide, by decide, by decide, by decide, by decide, by decide, by decide⟩
  intro s hs
  simp only [List.mem_cons, List.not_mem_nil, or_false] at hs
  rcases hs with h | h <;> subst h <;> exact ⟨by decide, by decide⟩

/-- A trap in a seam names its cause, its class and its engine. -/
theorem test_trap : seen (exec (.trap { h := h0, c := 9 }) ce0) (fun t => ((t.core 0).seg.isSome, (t.group 0).elim false fun g => g.held.isSome)) = some (false, true) := by
  decide

/-! ### Words written out from the encodings of R82 to R98, R200, R234 and R249 -/

theorem test_decode_ce :
    decode .m [0x01004A60#32, 0x00000007#32, 0x00004000#32] = .instr (.atomn { atomn0 with a := fi 0 8, x := im 1 }) 3 0 ∧
    decode .b [0x00807433#32, 0x10000008#32] = .instr (.cbadv { h := h0, dep := 1, cb := 3, cons := true, cnt := .imm 8 }) 2 0 ∧
    decode .m [0x0E440A00#32] = .instr (.lbrk { g := { gd := true, p := 1, s := false }, n := 0 }) 1 7 := by decide

theorem test_decode_v :
    decode .v [0x03003067#32, 0x0021C007#32, 0x00000018#32] =
      .instr (.vred { h := h0, dep := 0, es := 3, fs := true, dst := sl 8 8, a := fi 0 8, b := im 0, sub := sub6 }) 3 1 ∧
    decode .v [0x05000407#32, 0x0083C00F#32, 0x00000018#32] = .instr (.nexp2 { va0 with dst := sl 32 16, sub := sub6 }) 3 2 ∧
    decode .v [0x07000007#32, 0x0083C00F#32, 0x00000019#32] = .instr (.qamax { va0 with dst := sl 32 16, sub := { sub6 with xs := 1 } }) 3 3 := by decide

theorem test_decode_m :
    decode .m [0x05000000#32, 0x00000000#32, 0x00000000#32] = .instr (.msign (msign0 false (fi 0 1))) 3 2 ∧
    decode .m [0x04000200#32] = .instr (.mstop { h := h0 }) 1 2 ∧
    decode .m [0x07000780#32, 0x0081C005#32, 0x00000001#32] = .instr (.accRd (acc0 8 5)) 3 3 ∧
    decode .m [0x090001E0#32, 0x05000000#32, 0x0000A802#32] =
      .instr (.drain { h := h0, dep := 0, fs := false, cb := 5, row := im 0, n := im 2, rm := 5, sat := false, half := false, adv := true }) 3 4 := by decide

theorem test_decode_movers :
    decode .g [0x030001E0#32, 0x02800005#32, 0x00004000#32] = .instr (.igen igen0) 3 1 ∧
    decode .g [0x05000061#32, 0x023C000D#32, 0x00010300#32] = .instr (.gath (gath0 4)) 3 2 ∧
    decode .g [0x07000000#32, 0x023C000D#32, 0x00000000#32] = .instr (.ast (ast0 true)) 3 3 ∧
    decode .b [0x03000601#32, 0x0000000D#32, 0x0041C300#32] = .instr (.hzero { h := h0, dep := 0, ten := true, tag := 3, a := fi 0 14, n := fi 16 8 }) 3 1 ∧
    decode .b [0x05000201#32, 0x032C3000#32, 0x00000000#32] = .instr (.tcvt tcvt0) 3 2 ∧
    decode .b [0x0D000C01#32, 0x000C000D#32, 0x00000000#32] = .instr (.coll (collF 0)) 3 6 := by decide

/-! ### Ill-formed terms (R89, R93, R94, R96, R100) -/

/-- Each breaks one check of R100, order 4. -/
theorem smoke_illegalEncoding :
    ∀ i ∈ ([.add { add0 with h := { h0 with g := { gd := false, p := 1, s := false } } }, .add { add0 with h := { h0 with g := { gd := false, p := 0, s := true } } },
      .pmov { pmov0 with k := 1 }, .pmov { pmov0 with dir := 2 }, .accRd { acc0 8 0 with i := .imm 0 true }, .damax { damax0 0 1 with n := .imm 1 true },
      .add { add0 with es := 1 }, .add { add0 with sub := { sub0 with rm := 1 } }, .add { add0 with sub := { sub0 with cond := 1 } },
      .add { add0 with sub := { sub0 with fmt := 6 } }, .add { add0 with sub := { sub0 with xs := 1 } }, .add { add0 with dst := sl 32 1, a := im 8 },
      .add { add0 with fs := false, dst := sl 32 1, b := im 16 }, .rot { add0 with sub := { sub0 with sat := true } }, .ins add0, .clz { mov0 with fs := true },
      .mov { mov0 with es := 1 }, .sel { sel0 with c := { sel0.c with rms := true } }, .sel { sel0 with c := { sel0.c with fmt := 6 } },
      .cmp { cmp0 with a := im 0, b := im 0 }, .cmp { cmp0 with sub := { cmp0.sub with cond := 8 } }, .cmp { cmp0 with sub := { cmp0.sub with cond := 7 } },
      .ld { ld0 with a := im 0 }, .ld { ld0 with sub := { sub0 with fmt := 6 } }, .spill { spill0 with a := im 0 }, .atom { atom0 with a := im 0 },
      .atomn { atomn0 with a := im 0 }, .cas { cas0 with pd := 1 }, .qfence { h := h0, m := 0 }, .qfence { h := h0, m := 0x20 }, .bari { bar0 with a := im 0 },
      .vadd { v0 with sub := { sub0 with rm := 1 } }, .vadd { v0 with es := 2, sub := sub6 }, .vadd { v0 with fs := false, sub := sub6 },
      .vadd { v0 with sub := { sub0 with fmt := 7 } }, .vmin { vf0 with sub := { sub6 with sat := true } }, .vand { v0 with sub := { sub0 with sat := true } },
      .vadd { v0 with es := 0, b := im 8 }, .vadd { v0 with es := 1, sub := { sub0 with fmt := 2 }, b := im 256 }, .vfma { (vc0 6) with es := 2 },
      .vsel (vc0 6), .vcmp { vcmp0 with sub := { sub0 with cond := 6 } }, .vcvt { vcvt0 with sf := 7 }, .vcvt { vcvt0 with ss := true }, .vcvt { vcvt0 with se := 2 },
      .vbcast { (vb0 0) with b := fi 0 8 }, .vred { (vr0 0 16) with b := fi 0 8 }, .vdot { vdot0 with c := { vdot0.c with fmt := 3, rms := true } },
      .vld { vld0 0 with es := 1 }, .vldc { vldc0 with sub := { sub6 with rm := 1 } }, .nrsq { na0 with sub := { sub6 with cond := 1 } },
      .qscale { qs0 with sub := { sub6 with cond := 1 } }, .qblk { qb0 0 with b := fi 1 1 }, .qdeq { qd0 0 with fs := false }, .msign (msign0 false (im 1)),
      .gath { gath0 4 with ten := false }, .gath { gath0 4 with a := im 0 }, .ast { ast0 true with a := im 0 }, .await { await0 false with n := im 1 },
      .hld { hld0 true (im 0) with c := sl 1 1 }, .moviHi { movi0 with fs := true }, .hpre { h := h0, dep := 0, a := im 0, n := im 0 },
      .hzero { h := h0, dep := 0, ten := false, tag := 3, a := fi 0 14, n := im 1 }, .tcopy { tc0 0 false with ten := false }, .tcvt { tcvt0 with ten := false },
      .copy { copy0 with a := im 0 }, .copyd { copy0 with ten := false },
      .copyb { copyb0 with a := im 0 }, .coll { collF 0 with a := im 0 }] : List Instr), staticFault i = some .illegalEncoding := by decide

/-- An IMM that the width of a latch cannot hold (R93): 8 in a latch of one slice, signed. -/
theorem smoke_latchImm :
    (at' 0 0 fun k => k.modEngine 0 fun e => { e with latA := { width := 1, val := [(0, 1)] } }).issueFault (.cmp { cmp0 with a := .latch false, b := im 8 }) =
      some .illegalEncoding := by decide

/-- Each breaks one check of R100, order 5. -/
theorem smoke_illegalInstruction :
    ∀ i ∈ ([.cmp { cmp0 with mode := 3 }, .cmp { cmp0 with es := 1, sub := { cmp0.sub with fmt := 2 } }, .atom { atom0 with aop := 13 },
      .atom { atom0 with aop := 9, sz := true }, .atomn { atomn0 with aop := 14 }, .ast { ast0 true with aop := 15 }, .fence (fence0 0 0), .fence (fence0 1 5),
      .cbset { cbset0 with space := 7 }, .vadd { v0 with es := 1, sub := { sub0 with fmt := 2 } }, .vadd { v0 with sub := { sub0 with xs := 1 } },
      .vadd { vf0 with sub := { sub6 with rm := 7 } }, .vmul { v0 with sub := { sub0 with xs := 2 } }, .vmul { vf0 with sub := { sub6 with xs := 1 } },
      .vfma { (vc0 2) with es := 1 }, .vmin { vf0 with sub := { sub6 with xs := 2 } }, .vabs { va0 with sub := { sub0 with xs := 1 } },
      .vand { v0 with sub := sub6 }, .vcmp { vcmp0 with mode := 3 }, .vcvt { vcvt0 with sub := { sub0 with rm := 7 } }, .vperm (vb0 2), .vrot (vb0 3),
      .vunpk { va0 with sub := { sub0 with xs := 2 } }, .vred (vr0 64 16), .vred { vf0 with b := im 3 }, .vscan (vr0 16 16), .vdot { vdot0 with es := 3, c := { vdot0.c with fmt := 6 } },
      .vld { vld0 0 with sub := { sub0 with xs := 1 } }, .vldc { vldc0 with sub := { sub6 with xs := 2 } }, .nrsq va0, .nrsq { na0 with sub := { sub6 with rm := 7 } },
      .nmom (nm0 3), .nmom { nm0 0 with sub := { sub6 with sat := true } }, .nnorm { nn0 with sub := { sub6 with xs := 1 } }, .nsoft (nm0 1), .qamax va0,
      .qamax (nm0 2), .qscale { qs0 with bf := 0xA }, .qblk { qb0 0 with h := hOff }, .qblk { qb0 0 with sub := { sub6 with xs := 3 } },
      .qdeq { qd0 0 with sub := { sub6 with rm := 7 } }, .qsign v0, .drain { drain0 0 with rm := 7 }, .dscale { dscale0 with setm := false, sett := false },
      .gseg { gseg0 4 with op := 3 }, .tcvt { tcvt0 with rm := 7 }, .coll { collF 0 with op := 7 }] : List Instr), staticFault i = some .illegalInstruction := by decide

/-! ### Single steps, with results worked out by hand from the rules -/

/-- The scalar at 32 to 39 after an instruction of the CE on 7 and 5 (R131, R132, R140). -/
def ceSees (i : Instr) : Option Nat := seen (exec i ce0) fun t => t.here.slotVal 0 (sl 32 8)

theorem test_mul : ceSees (.mul add0) = some 35 := by decide
theorem test_divi_zero : ceSees (.divi { add0 with b := fi 48 8 }) = some 0xFFFFFFFF := by decide
theorem test_remi_negative : ceSees (.remi { add0 with a := fi 0 8, b := im (2 ^ 14 - 4) }) = some 3 := by decide
theorem test_shr_far : ceSees (.shr { add0 with b := im 200 }) = some 0 := by decide
theorem test_rot : ceSees (.rot { add0 with b := im 30 }) = some 0xC0000001 := by decide
theorem test_clz : ceSees (.clz mov0) = some 29 := by decide
theorem test_lea : ceSees (.lea { add0 with sub := { sub0 with xs := 3 } }) = some 327 := by decide
theorem test_mulh : ceSees (.mulh { add0 with a := im (2 ^ 14 - 1), b := fi 16 8 }) = some 0xFFFFFFFF := by decide

/-- Element 0 of lane 1 after an instruction of the VE, which p1 enables in that lane alone and whose sources hold `a` and `b` there (R175 to R177). -/
def veSees (i : Instr) (a b : Nat) : Option Nat :=
  seen (exec i (at' 128 1 fun k => { k with lanes := wrSlices (wrSlices k.lanes (laneBase 1) 8 a) (laneBase 1 + 16) 8 b, vpred := [(1, 2)] })) fun t =>
    t.here.lslotVal 1 1 (sl 32 8)

def v8 (sub : Sub) : S3 := { v0 with h := { h0 with g := { gd := true, p := 1, s := false } }, dst := sl 32 8, a := fi 0 8, b := fi 16 8, sub := sub }

theorem test_vadd_wraps : veSees (.vadd (v8 sub0)) 0x7FFFFFFF 1 = some 0x80000000 := by decide
theorem test_vadd_saturates : veSees (.vadd (v8 { sub0 with sat := true })) 0x7FFFFFFF 1 = some 0x7FFFFFFF := by decide
theorem test_vmin_signed : veSees (.vmin (v8 sub0)) 0xFFFFFFFF 1 = some 0xFFFFFFFF := by decide
theorem test_vmul_float : veSees (.vmul (v8 sub6)) 0x40000000 0x40400000 = some 0x40C00000 := by decide +kernel
theorem test_vsub_float : veSees (.vsub (v8 sub6)) 0x3F800000 0x40000000 = some 0xBF800000 := by decide +kernel

end Sys2Proof.Tests
end

section
/-! What is read of C-die registers and of their fields after a write; then writes of registers, die failure, the domain and its maps (O59). -/

namespace Sys2Proof.Machine

open Sys2Proof

/-! ### Fields of words -/

/-- A bit of a field is the bit of the word that the field puts there. -/
theorem testBit_bitsN (w lo n i : Nat) : (bitsN w lo n).testBit i = (decide (i < n) && w.testBit (i + lo)) := by
  rw [bitsN, Nat.testBit_mod_two_pow, Nat.testBit_div_two_pow]

theorem bitN_eq_testBit (v i : Nat) : bitN v i = v.testBit i := Nat.testBit_eq_decide_div_mod_eq.symm

theorem bitN_toNat (w : W64) (i : Nat) : bitN w.toNat i = w.getLsbD i := bitN_eq_testBit ..

/-- A word cut at a field: what lies above it, the field, and what lies below it. -/
theorem eq_above_field_below (w lo n : Nat) : w = 2 ^ lo * (2 ^ n * (w / 2 ^ lo / 2 ^ n) + bitsN w lo n) + w % 2 ^ lo := by
  rw [bitsN, Nat.div_add_mod, Nat.div_add_mod]

theorem putBits_eq (w lo n v : Nat) : putBits w lo n v = 2 ^ lo * (2 ^ n * (w / 2 ^ lo / 2 ^ n) + v % 2 ^ n) + w % 2 ^ lo := by
  have hw := eq_above_field_below w lo n
  rw [Nat.mul_add] at hw ⊢
  rw [putBits, Nat.mul_comm (bitsN w lo n), Nat.mul_comm (v % 2 ^ n)]
  omega

theorem testBit_putBits (w lo n v i : Nat) :
    (putBits w lo n v).testBit i = if lo ≤ i ∧ i < lo + n then v.testBit (i - lo) else w.testBit i := by
  have hlow : w % 2 ^ lo < 2 ^ lo := Nat.mod_lt _ (Nat.two_pow_pos lo)
  have hv : v % 2 ^ n < 2 ^ n := Nat.mod_lt _ (Nat.two_pow_pos n)
  rw [putBits_eq, Nat.testBit_two_pow_mul_add _ hlow]
  by_cases hi : i < lo
  · simp [hi, Nat.testBit_mod_two_pow]
  · rw [if_neg hi, Nat.testBit_two_pow_mul_add _ hv]
    by_cases hn : i - lo < n
    · rw [if_pos hn, if_pos (by omega), Nat.testBit_mod_two_pow]
      simp [hn]
    · rw [if_neg hn, if_neg (by omega), Nat.testBit_div_two_pow, Nat.testBit_div_two_pow]
      congr 1
      omega

theorem bitsN_putBits_same (w lo n v : Nat) : bitsN (putBits w lo n v) lo n = v % 2 ^ n :=
  Nat.eq_of_testBit_eq fun i => by
    rw [testBit_bitsN, testBit_putBits, Nat.testBit_mod_two_pow]
    by_cases hi : i < n
    · rw [if_pos (by omega), Nat.add_sub_cancel]
    · simp [hi]

/-- A field that shares no bit with the one replaced. -/
theorem bitsN_putBits_other (w v : Nat) {lo n lo' n' : Nat} (h : lo' + n' ≤ lo ∨ lo + n ≤ lo') :
    bitsN (putBits w lo n v) lo' n' = bitsN w lo' n' :=
  Nat.eq_of_testBit_eq fun i => by
    rw [testBit_bitsN, testBit_bitsN, testBit_putBits]
    by_cases hi : i < n'
    · rw [if_neg (by omega)]
    · simp [hi]

/-- A field that lies in 64 bits is kept when the word is made a register. -/
theorem bitsN_ofNat64 (x : Nat) {lo n : Nat} (h : lo + n ≤ 64) : bitsN (BitVec.ofNat 64 x).toNat lo n = bitsN x lo n :=
  Nat.eq_of_testBit_eq fun i => by
    rw [testBit_bitsN, testBit_bitsN, BitVec.testBit_toNat, BitVec.getLsbD_ofNat]
    by_cases hi : i < n
    · rw [decide_eq_true (show i + lo < 64 by omega), Bool.true_and]
    · simp [hi]

/-! ### C-die registers -/

@[simp] theorem State.cregOf_setCreg_same (s : State) (o : Nat) (v : W64) : (s.setCreg o v).cregOf o = v := SMap.get_set_same ..

theorem State.cregOf_setCreg_other (s : State) {o p : Nat} (v : W64) (h : p ≠ o) : (s.setCreg o v).cregOf p = s.cregOf p := by
  simp only [State.cregOf, State.setCreg, SMap.get_eq_find, SMap.set]
  split
  · rw [SMap.find_erase_other _ h]
  · rw [SMap.find_put_other _ _ h]

@[simp] theorem State.setCreg_cores (s : State) (o : Nat) (v : W64) : (s.setCreg o v).cores = s.cores := rfl
@[simp] theorem State.setCreg_mem (s : State) (o : Nat) (v : W64) : (s.setCreg o v).mem = s.mem := rfl

@[simp] theorem State.cregOf_postNq (s : State) (e : NqEnt) (o : Nat) : (s.postNq e).cregOf o = s.cregOf o := rfl

/-! ### Writes of C-die registers (R6, R443) -/

/-- What a register that held `old` holds after `v` is written to it: RW bits take `v`, and W1Z bits clear where `v` has a 1. -/
def regMerge (off : Nat) (old v : W64) : W64 := (old &&& ~~~(regMask off).1 &&& ~~~(v &&& (regMask off).2)) ||| (v &&& (regMask off).1)

theorem getLsbD_regMerge (off : Nat) (old v : W64) {b : Nat} (hb : b < 64) :
    (regMerge off old v).getLsbD b =
      if (regMask off).1.getLsbD b then v.getLsbD b else old.getLsbD b && !(v.getLsbD b && (regMask off).2.getLsbD b) := by
  simp only [regMerge, BitVec.getLsbD_or, BitVec.getLsbD_and, BitVec.getLsbD_not, decide_eq_true hb, Bool.true_and]
  cases (regMask off).1.getLsbD b <;> simp

theorem exec_registerWrite_unaligned (off : Nat) (v : W64) (s : State) (h : off % 8 ≠ 0) : exec (.registerWrite off v) s = .next s :=
  if_pos h

/-- THCTL alone has an effect that comes before its action: HBM that is off and not kept loses its power. -/
theorem exec_registerWrite (off : Nat) (v : W64) (s : State) (h8 : off % 8 = 0) (hth : off ≠ 0x1A0) :
    exec (.registerWrite off v) s = .next { s.setCreg off (regMerge off (s.cregOf off) v) with agenda := s.regAction off v ++ s.agenda } := by
  change execRegisterWrite off v s = _
  rw [execRegisterWrite, if_neg (not_not_intro h8)]
  simp only [hth, false_and, if_false]
  rfl

theorem registerWrite_sets_bits (off : Nat) (v : W64) (s : State) (h8 : off % 8 = 0) (hth : off ≠ 0x1A0) :
    ∃ t, exec (.registerWrite off v) s = .next t ∧ t.agenda = s.regAction off v ++ s.agenda ∧
      { t with creg := s.creg, agenda := s.agenda } = s ∧ (∀ o, o ≠ off → t.cregOf o = s.cregOf o) ∧
      ∀ b, b < 64 → (t.cregOf off).getLsbD b =
        if (regMask off).1.getLsbD b then v.getLsbD b else (s.cregOf off).getLsbD b && !(v.getLsbD b && (regMask off).2.getLsbD b) := by
  refine ⟨_, exec_registerWrite off v s h8 hth, rfl, rfl, fun o ho => State.cregOf_setCreg_other s _ ho, fun b hb => ?_⟩
  have hreg : ({ s.setCreg off (regMerge off (s.cregOf off) v) with agenda := s.regAction off v ++ s.agenda } : State).cregOf off
      = regMerge off (s.cregOf off) v := State.cregOf_setCreg_same ..
  rw [hreg, getLsbD_regMerge off _ v hb]

/-- HBM without power shows in another register than THCTL and touches no memory and no core. -/
theorem dropHbm_keeps (s : State) :
    s.dropHbm.mem = s.mem ∧ s.dropHbm.cores = s.cores ∧ s.dropHbm.agenda = s.agenda ∧ s.dropHbm.cregOf 0x1A0 = s.cregOf 0x1A0 :=
  ⟨rfl, rfl, rfl, State.cregOf_setCreg_other s _ (by decide)⟩

theorem registerWrite_thctl (v : W64) (s : State) :
    ∃ t, exec (.registerWrite 0x1A0 v) s = .next t ∧ t.mem = s.mem ∧ t.cores = s.cores ∧ t.cregOf 0x1A0 = regMerge 0x1A0 (s.cregOf 0x1A0) v ∧
      t.agenda = s.regAction 0x1A0 v ++ s.agenda := by
  let s1 := s.setCreg 0x1A0 (regMerge 0x1A0 (s.cregOf 0x1A0) v)
  let s2 := if s1.thermal = 0 ∧ s1.hbmKeep = false then s1.dropHbm else s1
  have hexec : exec (.registerWrite 0x1A0 v) s = .next { s2 with agenda := s.regAction 0x1A0 v ++ s2.agenda } := by
    change execRegisterWrite 0x1A0 v s = _
    rw [execRegisterWrite, if_neg (by decide)]
    simp only [true_and]
    rfl
  have hkeep : s2.mem = s1.mem ∧ s2.cores = s1.cores ∧ s2.agenda = s1.agenda ∧ s2.cregOf 0x1A0 = s1.cregOf 0x1A0 := by
    by_cases hoff : s1.thermal = 0 ∧ s1.hbmKeep = false
    · rw [show s2 = s1.dropHbm from if_pos hoff]
      exact dropHbm_keeps s1
    · rw [show s2 = s1 from if_neg hoff]
      exact ⟨rfl, rfl, rfl, rfl⟩
  obtain ⟨hmem, hcores, hagenda, hreg⟩ := hkeep
  exact ⟨_, hexec, hmem, hcores, hreg.trans (State.cregOf_setCreg_same ..), congrArg (s.regAction 0x1A0 v ++ ·) hagenda⟩

theorem regMerge_thctl (old v : W64) : regMerge 0x1A0 old v = (old &&& ~~~0x1F#64) ||| (v &&& 0x1F#64) := by
  change ((old &&& ~~~0x1F#64 &&& ~~~(v &&& 0#64)) ||| (v &&& 0x1F#64)) = _
  rw [BitVec.and_zero, BitVec.not_zero, BitVec.and_allOnes]

/-! ### Dies that fail (R12 to R14, R418) -/

theorem State.putStatus_eq (s : State) (slot : Nat) {v : Nat} (hv : v < 4) : s.putStatus slot v = s.putField (0x40 + 8 * (slot / 8)) (8 * (slot % 8) + 3) 2 v := by
  have hmod : v % 2 ^ 2 = v := Nat.mod_eq_of_lt hv
  simp only [State.putStatus, State.putField, putBits, hmod]

theorem State.dieStatus_putStatus_same (s : State) (slot : Nat) {v : Nat} (hv : v < 4) : (s.putStatus slot v).dieStatus slot = v := by
  rw [State.putStatus_eq s slot hv, State.dieStatus, State.putField, State.cregOf_setCreg_same, bitsN_ofNat64 _ (by omega), bitsN_putBits_same]
  exact Nat.mod_eq_of_lt hv

/-- Another die has its STATUS in another register, or in other bits of the same one. -/
theorem State.dieStatus_putStatus_other (s : State) {slot x v : Nat} (hv : v < 4) (hx : x ≠ slot) :
    (s.putStatus slot v).dieStatus x = s.dieStatus x := by
  rw [State.putStatus_eq s slot hv, State.dieStatus, State.dieStatus, State.putField]
  by_cases hreg : x / 8 = slot / 8
  · rw [hreg, State.cregOf_setCreg_same, bitsN_ofNat64 _ (by omega), bitsN_putBits_other _ _ (by omega)]
  · rw [State.cregOf_setCreg_other s _ (by omega)]

/-- A die in service that holds no pseudo-channels and no collectives fails where no group runs: its STATUS changes and an entry says so. -/
theorem State.changeStatus_fails {d : Nat} {s : State} (hd : d < 37) (hb : 8 < d) (hok : s.dieStatus d = 0) (hg : s.groups = []) :
    s.changeStatus d 2 = (s.putStatus d 2).postNq { kind := 6, size := 0, status := 0, count := 256 * d + 2, job := 0, va := 0 } := by
  have hgroups : ∀ e, ((s.putStatus d 2).postNq e).groups = [] := fun _ => hg
  have hserved : ¬(d = 0 ∨ 39 ≤ d) := by omega
  have hnotB : ¬d ≤ 8 := by omega
  have hnotX : ¬(d = 37 ∨ d = 38) := by omega
  rw [State.changeStatus]
  refine (if_neg ?_).trans ?_
  · rw [hok, ← or_assoc]
    simp [hserved]
  · simp only [hgroups, List.filter_nil, List.foldl_nil]
    rw [if_neg hnotX, if_neg (by simp [hnotB])]

theorem dieFailed_keeps_place {d : Nat} {s : State} (hd : d < 37) (hb : 8 < d) (hok : s.dieStatus d = 0) (hg : s.groups = []) :
    ∃ t, exec (.dieFailed d) s = .next t ∧ t.dieStatus d = 2 ∧ t.mem = s.mem ∧ t.cores = s.cores ∧
      (∀ x, x < 40 → x ≠ d → t.dieStatus x = s.dieStatus x) ∧
      t.nqWait = s.nqWait ++ [{ kind := 6, size := 0, status := 0, count := 256 * d + 2, job := 0, va := 0 }] :=
  ⟨_, congrArg Host.Outcome.next (State.changeStatus_fails hd hb hok hg), State.dieStatus_putStatus_same s d (by decide), rfl, rfl,
    fun _ _ hx => State.dieStatus_putStatus_other s (by decide) hx, rfl⟩

/-! ### A domain is formed (R381, R382) -/

theorem nodup_eraseDups {α : Type} [BEq α] [LawfulBEq α] : ∀ l : List α, l.eraseDups.Nodup
  | [] => by simp
  | a :: l => by
    rw [List.eraseDups_cons, List.nodup_cons]
    exact ⟨by simp [List.mem_eraseDups], nodup_eraseDups (l.filter fun b => !b == a)⟩
termination_by l => l.length
decreasing_by exact Nat.lt_succ_of_le (List.length_filter_le ..)

/-- The members of a domain that `m` forms with `ms`; numbers past 255 are no module's. -/
def domainIds (m : Nat) (ms : List Nat) : List Nat := (m :: ms).eraseDups.filter fun x => decide (x < 256)

theorem mem_domainIds {m x : Nat} {ms : List Nat} : x ∈ domainIds m ms ↔ (x = m ∨ x ∈ ms) ∧ x < 256 := by
  simp [domainIds, List.mem_eraseDups]

theorem length_domainIds_le (m : Nat) (ms : List Nat) : (domainIds m ms).length ≤ 256 := by
  have hnodup : (domainIds m ms).Nodup := (nodup_eraseDups _).filter _
  have hsub : domainIds m ms ⊆ List.range 256 := fun _ hx => List.mem_range.2 (mem_domainIds.1 hx).2
  simpa using (hnodup.subperm hsub).length_le

theorem domainIds_alone {m : Nat} (h : m < 256) : domainIds m [] = [m] := by
  simp [domainIds, List.eraseDups_cons, h]

/-- DOMCTL of a domain of `n` members in which the module has the ID `m`; DEPART stays as it is in `old`. -/
def domctl (old : W64) (m n : Nat) : W64 := (old &&& 0x4_0000#64) ||| BitVec.ofNat 64 (m + n * 256 + 2 ^ 17)

/-- Word `w` of DOMMAP for the modules `ms`: those from 64 w to 64 w + 63. -/
def dommapWord (ms : List Nat) (w : Nat) : W64 := BitVec.ofNat 64 ((ms.filter fun m => decide (m / 64 = w)).foldl (fun a m => a + 2 ^ (m % 64)) 0)

/-- Writes the four words of DOMMAP. -/
def State.putDommap (s : State) (f : Nat → W64) : State := (List.range 4).foldl (fun s w => s.setCreg (0x350 + 8 * w) (f w)) s

theorem State.putDommap_eq (s : State) (f : Nat → W64) :
    s.putDommap f = (((s.setCreg 0x350 (f 0)).setCreg 0x358 (f 1)).setCreg 0x360 (f 2)).setCreg 0x368 (f 3) := rfl

@[simp] theorem State.putDommap_cores (s : State) (f : Nat → W64) : (s.putDommap f).cores = s.cores := by simp [State.putDommap_eq]
@[simp] theorem State.putDommap_mem (s : State) (f : Nat → W64) : (s.putDommap f).mem = s.mem := by simp [State.putDommap_eq]

theorem State.cregOf_putDommap_domctl (s : State) (f : Nat → W64) : (s.putDommap f).cregOf 0x340 = s.cregOf 0x340 := by
  rw [State.putDommap_eq]
  iterate 4 rw [State.cregOf_setCreg_other _ _ (by decide)]

theorem State.cregOf_putDommap (s : State) (f : Nat → W64) {w : Nat} (hw : w < 4) : (s.putDommap f).cregOf (0x350 + 8 * w) = f w := by
  rw [State.putDommap_eq]
  obtain rfl | rfl | rfl | rfl : w = 0 ∨ w = 1 ∨ w = 2 ∨ w = 3 := by omega
  · iterate 3 rw [State.cregOf_setCreg_other _ _ (by decide)]
    exact State.cregOf_setCreg_same ..
  · iterate 2 rw [State.cregOf_setCreg_other _ _ (by decide)]
    exact State.cregOf_setCreg_same ..
  · rw [State.cregOf_setCreg_other _ _ (by decide)]
    exact State.cregOf_setCreg_same ..
  · exact State.cregOf_setCreg_same ..

/-- TSYNC when a domain is formed: SLIPT where LOCK or SLIPT was set, REF where the module has the lowest ID. -/
def State.tsyncFormed (s : State) (m : Nat) (ms : List Nat) : W64 :=
  (if (s.cregOf 0x348).getLsbD 0 || (s.cregOf 0x348).getLsbD 2 then 4#64 else 0#64) ||| (if (domainIds m ms).all fun x => decide (m ≤ x) then 2#64 else 0#64)

/-- DOMCTL, DOMMAP and TSYNC written as the module `m` of a domain that it forms with `ms`. -/
def State.domainRegs (s : State) (m : Nat) (ms : List Nat) : State :=
  let s1 := (s.setCreg 0x340 (domctl (s.cregOf 0x340) m (domainIds m ms).length)).putDommap (dommapWord (domainIds m ms))
  s1.setCreg 0x348 (s1.tsyncFormed m ms)

@[simp] theorem State.domainRegs_cores (s : State) (m : Nat) (ms : List Nat) : (s.domainRegs m ms).cores = s.cores := by simp [State.domainRegs]
@[simp] theorem State.domainRegs_mem (s : State) (m : Nat) (ms : List Nat) : (s.domainRegs m ms).mem = s.mem := by simp [State.domainRegs]

/-- The state after a domain is formed. -/
def State.formed (s : State) (m : Nat) (ms : List Nat) : State :=
  let s1 := (s.rename m).domainRegs m ms
  { s1 with slew := 0, members := (s1.members.filter fun x => (domainIds m ms).contains x.id).map fun x => { x with gone := false } }

theorem State.rename_cores (s : State) (m : Nat) : (s.rename m).cores = s.cores := by
  unfold State.rename
  dsimp only
  split <;> rfl

theorem State.rename_self (s : State) : s.rename s.modId = s := if_pos rfl

theorem exec_domain {m : Nat} (ms : List Nat) (s : State) (h : m < 256) : exec (.domain m ms) s = .next (s.formed m ms) := by
  change execDomain m ms s = _
  rw [execDomain, if_neg (by omega)]
  simp only [State.formed, State.domainRegs, State.putDommap, State.tsyncFormed, domctl, dommapWord, domainIds]
  rfl

theorem State.formed_cores (s : State) (m : Nat) (ms : List Nat) : (s.formed m ms).cores = s.cores := by
  simp [State.formed, State.rename_cores]

theorem State.formed_mem (s : State) (m : Nat) (ms : List Nat) : (s.formed m ms).mem = (s.rename m).mem := by
  simp [State.formed]

theorem State.cregOf_formed (s : State) (m : Nat) (ms : List Nat) (o : Nat) : (s.formed m ms).cregOf o = ((s.rename m).domainRegs m ms).cregOf o := by
  simp only [State.formed, State.cregOf]

theorem State.cregOf_formed_domctl (s : State) (m : Nat) (ms : List Nat) :
    (s.formed m ms).cregOf 0x340 = domctl ((s.rename m).cregOf 0x340) m (domainIds m ms).length := by
  rw [State.cregOf_formed, State.domainRegs, State.cregOf_setCreg_other _ _ (by decide), State.cregOf_putDommap_domctl, State.cregOf_setCreg_same]

theorem State.inDomain_formed (s : State) (m : Nat) (ms : List Nat) {x : Nat} (hx : x < 256) :
    (s.formed m ms).inDomain x = (dommapWord (domainIds m ms) (x / 64)).getLsbD (x % 64) := by
  rw [State.inDomain, State.cregOf_formed, State.domainRegs, State.cregOf_setCreg_other _ _ (by omega), State.cregOf_putDommap _ _ (by omega), bitN_toNat]

/-- Below DEPART, DOMCTL holds nothing of what it held before. -/
theorem getLsbD_domctl (old : W64) (m n : Nat) {i : Nat} (hi : i < 18) : (domctl old m n).getLsbD i = (m + n * 256 + 2 ^ 17).testBit i := by
  have hdepart : (0x4_0000#64).getLsbD i = decide (18 = i) := by
    rw [show (0x4_0000#64) = BitVec.ofNat 64 (2 ^ 18) from rfl, BitVec.getLsbD_ofNat, Nat.testBit_two_pow, decide_eq_true (by omega : i < 64),
      Bool.true_and]
  rw [domctl, BitVec.getLsbD_or, BitVec.getLsbD_and, hdepart, BitVec.getLsbD_ofNat, decide_eq_false (by omega : ¬18 = i),
    decide_eq_true (by omega : i < 64), Bool.and_false, Bool.false_or, Bool.true_and]

theorem bitsN_domctl_id (old : W64) {m : Nat} (n : Nat) (hm : m < 2 ^ 8) : bitsN (domctl old m n).toNat 0 8 = m := by
  have hsplit : m + n * 256 + 2 ^ 17 = 2 ^ 8 * (n + 2 ^ 9) + m := by omega
  refine Nat.eq_of_testBit_eq fun i => ?_
  rw [testBit_bitsN, BitVec.testBit_toNat, Nat.add_zero]
  by_cases hi : i < 8
  · rw [getLsbD_domctl old m n (by omega), hsplit, Nat.testBit_two_pow_mul_add _ hm, if_pos hi, decide_eq_true hi, Bool.true_and]
  · rw [decide_eq_false hi, Bool.false_and, Nat.testBit_lt_two_pow (hm.trans_le (Nat.pow_le_pow_right (by decide) (by omega)))]

theorem getLsbD_domctl_formed (old : W64) {m n : Nat} (hm : m < 256) (hn : n ≤ 256) : (domctl old m n).getLsbD 17 = true := by
  have hsplit : m + n * 256 + 2 ^ 17 = 2 ^ 17 * 1 + (m + n * 256) := by omega
  have hlow : m + n * 256 < 2 ^ 17 := by omega
  rw [getLsbD_domctl old m n (by decide), hsplit, Nat.testBit_two_pow_mul_add _ hlow]
  rfl

theorem dommapWord_alone (m w : Nat) : dommapWord [m] w = if m / 64 = w then BitVec.ofNat 64 (2 ^ (m % 64)) else 0#64 := by
  by_cases h : m / 64 = w <;> simp [dommapWord, h]

theorem getLsbD_dommapWord_alone (m x : Nat) : (dommapWord [m] (x / 64)).getLsbD (x % 64) = decide (x = m) := by
  rw [dommapWord_alone]
  by_cases h : m / 64 = x / 64
  · rw [if_pos h, BitVec.getLsbD_ofNat, Nat.testBit_two_pow, decide_eq_true (by omega : x % 64 < 64), Bool.true_and]
    exact decide_eq_decide.2 (by omega)
  · rw [if_neg h, BitVec.getLsbD_zero]
    exact (decide_eq_false (by omega)).symm

theorem domain_forms {m : Nat} (ms : List Nat) (s : State) (hm : m < 256) :
    ∃ t, exec (.domain m ms) s = .next t ∧ t.modId = m ∧ (t.cregOf 0x340).getLsbD 17 = true ∧ t.slew = 0 ∧ t.cores = s.cores ∧
      (s.modId = m → t.mem = s.mem) ∧ (∀ x ∈ t.members, x.gone = false ∧ (x.id = m ∨ x.id ∈ ms)) ∧
      (ms = [] → t.inDomain m = true ∧ (∀ x, x < 256 → x ≠ m → t.inDomain x = false)) := by
  have halone : ms = [] → ∀ x, x < 256 → (s.formed m ms).inDomain x = decide (x = m) := by
    rintro rfl x hx
    rw [State.inDomain_formed s m [] hx, domainIds_alone hm, getLsbD_dommapWord_alone]
  refine ⟨_, exec_domain ms s hm, ?_, ?_, rfl, State.formed_cores s m ms, ?_, ?_, ?_⟩
  · rw [State.modId, State.cregOf_formed_domctl, bitsN_domctl_id _ _ hm]
  · rw [State.cregOf_formed_domctl, getLsbD_domctl_formed _ hm (length_domainIds_le m ms)]
  · rintro rfl
    rw [State.formed_mem, State.rename_self]
  · intro x hx
    obtain ⟨y, hy, rfl⟩ := List.mem_map.1 hx
    have hid : y.id ∈ domainIds m ms := List.contains_iff_mem.1 (List.mem_filter.1 hy).2
    exact ⟨rfl, (mem_domainIds.1 hid).1⟩
  · intro hms
    exact ⟨by rw [halone hms m hm, decide_eq_true rfl], fun x hx hne => by rw [halone hms x hx, decide_eq_false hne]⟩

/-! ### Maps of other modules, and modules that leave (R382, R383) -/

theorem exec_mapPublication_own (cap : Nat) (mix : List Nat) (s : State) : exec (.mapPublication s.modId cap mix) s = .next s :=
  if_pos (.inl rfl)

theorem exec_mapPublication_unformed {m : Nat} (cap : Nat) (mix : List Nat) {s : State} (hm : m ≠ s.modId) (hf : (s.cregOf 0x340).getLsbD 17 = false) :
    exec (.mapPublication m cap mix) s = .next
      { s with stale := s.stale.filter fun r => decide (r.base / 2 ^ 44 ≠ m),
               members := (s.members.filter fun x => decide (x.id ≠ m)) ++ [{ id := m, hbmcap := cap, mix := mix, gone := false }] } := by
  refine if_neg ?_
  rintro (h | ⟨h, -⟩)
  · exact hm h
  · rw [hf] at h
    cases h

/-- The state after module `m` leaves where nothing is in progress: DEPART is set, and neither DOMMAP nor the members hold it. -/
def State.departed (s : State) (m : Nat) : State :=
  let off := 0x350 + 8 * (m / 64)
  { (s.setCreg 0x340 (s.cregOf 0x340 ||| 0x4_0000#64)).setCreg off (s.cregOf off &&& ~~~BitVec.ofNat 64 (2 ^ (m % 64))) with
    members := s.members.map fun x => if x.id = m then { x with gone := true } else x }

theorem exec_moduleDeparture_unheard {m : Nat} {s : State} (h : m = s.modId ∨ s.inDomain m = false) : exec (.moduleDeparture m) s = .next s :=
  if_pos h

theorem exec_moduleDeparture_idle {m : Nat} {s : State} (hm : m ≠ s.modId) (hin : s.inDomain m = true) (hf : s.flights = []) (hc : s.colls = []) :
    exec (.moduleDeparture m) s = .next (s.departed m) := by
  have hheard : ¬(m = s.modId ∨ s.inDomain m = false) := by simp [hm, hin]
  change execModuleDeparture m s = _
  rw [execModuleDeparture, if_neg hheard]
  simp only [hf, hc, List.filter_nil, List.foldl_nil, State.departed, State.setCreg]

theorem State.inDomain_departed (s : State) (m : Nat) : (s.departed m).inDomain m = false := by
  have hreg : (s.departed m).cregOf (0x350 + 8 * (m / 64)) = s.cregOf (0x350 + 8 * (m / 64)) &&& ~~~BitVec.ofNat 64 (2 ^ (m % 64)) :=
    State.cregOf_setCreg_same ..
  have hlt : m % 64 < 64 := Nat.mod_lt _ (by decide)
  rw [State.inDomain, hreg, bitN_toNat, BitVec.getLsbD_and, BitVec.getLsbD_not, BitVec.getLsbD_ofNat, Nat.testBit_two_pow_self]
  simp [hlt]

theorem State.depart_departed (s : State) (m : Nat) : ((s.departed m).cregOf 0x340).getLsbD 18 = true := by
  have hreg : (s.departed m).cregOf 0x340 = s.cregOf 0x340 ||| 0x4_0000#64 :=
    (State.cregOf_setCreg_other _ _ (by omega)).trans (State.cregOf_setCreg_same ..)
  rw [hreg, BitVec.getLsbD_or]
  exact Bool.or_eq_true_iff.2 (.inr rfl)

theorem State.gone_departed {s : State} {m : Nat} {x : Member} (hx : x ∈ (s.departed m).members) (hid : x.id = m) : x.gone = true := by
  obtain ⟨y, -, rfl⟩ := List.mem_map.1 hx
  by_cases hy : y.id = m
  · rw [if_pos hy]
  · rw [if_neg hy] at hid
    exact absurd hid hy

/-! ### The statement -/

/-- Settles O59: each event has one equation for the state it leaves, and the registers of that state are read by the rules for C-die registers. -/
theorem registersAndDies : Obligations.RegistersAndDies := by
  refine ⟨⟨exec_registerWrite_unaligned, registerWrite_sets_bits, fun v s => ?_, by decide⟩,
    fun _ _ => rfl, fun _ _ => dieFailed_keeps_place, fun m ms s => ⟨fun h => if_pos h, domain_forms ms s⟩,
    fun m cap mix s => ⟨?_, exec_mapPublication_unformed cap mix⟩, fun m s => ⟨exec_moduleDeparture_unheard, fun hm _ hin hf hc => ?_⟩⟩
  · obtain ⟨t, hexec, hmem, hcores, hreg, hagenda⟩ := registerWrite_thctl v s
    exact ⟨t, hexec, hmem, hcores, hreg.trans (regMerge_thctl ..), hagenda⟩
  · rintro rfl
    exact exec_mapPublication_own cap mix s
  · exact ⟨_, exec_moduleDeparture_idle hm hin hf hc, rfl, rfl, rfl, s.inDomain_departed m, s.depart_departed m, fun _ => State.gone_departed⟩

end Sys2Proof.Machine
end

section
/-! What the registers read as after reset (O5). -/

namespace Sys2Proof.Machine

open Sys2Proof

/-! ### Cores after reset -/

@[simp] theorem State.core_reset (c : Nat) : State.reset.core c = Core.reset c := rfl

theorem State.reckOf_reset (c : Nat) : State.reset.reckOf c = 0 := rfl

/-- An engine that is present stands at word 0 of no stream, and one that is absent reads 0. -/
theorem Core.qpos_reset (c : Nat) (ct : CoreType) (t : Nat) : (Core.reset c).qpos ct t = 0 := by
  have hidle : (!(Core.reset c).stream.isEmpty && !(Core.reset c).halted) = false := rfl
  have hengine : (Core.reset c).engine t = Engine.reset := rfl
  rw [Core.qpos, hidle, hengine]
  cases hasTag ct t <;> decide

/-- The nest is not active, its planes are empty and no pass has entered. -/
theorem Core.nstat_reset (c : Nat) : (Core.reset c).nstat = 0 := by
  simp [Core.nstat, Core.reset, Plane.empty, bitN]

/-- The dividers of R23, by the ranges of core numbers of R11. -/
theorem ckdReset_eq (c : Nat) :
    (ckdReset c).setWidth 64 = if c < 128 then 0x02022222#64 else if c < 192 then 0x02002222#64 else if c < 224 then 0x03003333#64 else 0x02000222#64 := by
  rw [ckdReset, coreType]
  split_ifs <;> rfl

/-! ### System registers after reset (R81) -/

theorem State.sysRead_reset_ckd (c : Nat) : State.reset.sysRead c 0x13 =
    if c < 128 then 0x02022222 else if c < 192 then 0x02002222 else if c < 224 then 0x03003333 else 0x02000222 :=
  ckdReset_eq c

/-- CORE, SEGLIM, SLIP and CKD alone have a reset value that is not 0. -/
theorem State.sysRead_reset_zero (c : Nat) {n : Nat} (hcore : n ≠ 0) (hseglim : n ≠ 4) (hslip : n ≠ 0x11) (hckd : n ≠ 0x13) :
    State.reset.sysRead c n = 0 := by
  have hnest : ∀ i, (Core.reset c).nestOf i = 0 := fun _ => rfl
  have hwin : ∀ t w, (Core.reset c).window t w = 0 := fun _ _ => rfl
  have hlc : ∀ i, (Core.reset c).lcOf i = 0 := fun _ => rfl
  have hbt : ∀ i, (Core.reset c).btOf i = 0 := fun _ => rfl
  have hvpred : ∀ i, (Core.reset c).vpredOf i = 0 := fun _ => rfl
  have hflags : ∀ r, (Core.reset c).flagsAt r = 0 := fun _ => rfl
  simp only [State.sysRead, State.core_reset, State.reckOf_reset, Core.qpos_reset, Core.nstat_reset, if_neg hcore, if_neg hseglim, if_neg hslip,
    if_neg hckd, hnest, hwin, hlc, hbt, hvpred, hflags]
  simp [Core.reset, State.reset, SMap.get]

theorem State.sysRead_reset (c n : Nat) : State.reset.sysRead c n =
    if n = 0 then BitVec.ofNat 64 c else if n = 4 then 3 else if n = 0x11 then 256
    else if n = 0x13 then (if c < 128 then 0x02022222 else if c < 192 then 0x02002222 else if c < 224 then 0x03003333 else 0x02000222) else 0 := by
  by_cases hcore : n = 0
  · rw [hcore]; rfl
  by_cases hseglim : n = 4
  · rw [hseglim]; rfl
  by_cases hslip : n = 0x11
  · rw [hslip]; rfl
  rw [if_neg hcore, if_neg hseglim, if_neg hslip]
  by_cases hckd : n = 0x13
  · rw [if_pos hckd, hckd]
    exact State.sysRead_reset_ckd c
  · rw [if_neg hckd]
    exact State.sysRead_reset_zero c hcore hseglim hslip hckd

theorem Cb.occ_none : Cb.none.occ = 0 := by decide

/-- Settles O5: the system registers by the table above; predicates, windows, targets and counters are maps with no entry, and an engine or a circular
buffer that no entry holds is one that is reset. -/
theorem resetRegisters : Obligations.ResetRegisters := by
  intro c _
  refine ⟨State.sysRead_reset c, fun i => ?_⟩
  have hengine : (State.reset.core c).engine i = Engine.reset := rfl
  have hcb : (State.reset.core c).cbOf i = Cb.none := rfl
  rw [hengine, hcb]
  exact ⟨BitVec.getLsbD_zero, rfl, rfl, rfl, fun _ => rfl, rfl, rfl, rfl, rfl, Cb.occ_none⟩

end Sys2Proof.Machine
end

section
/-! What groups, pauses, slots, TIME and a reset by the supply do to the state (O54). -/

namespace Sys2Proof.Machine

open Sys2Proof

/-! ### Groups and claims -/

/-- An update that keeps the number of a group is seen where that group is looked up. -/
theorem State.group_modGroup (s : State) (n : Nat) {f : Group → Group} (hnum : ∀ x, (f x).num = x.num) :
    (s.modGroup n f).group n = (s.group n).map f := by
  have hsame : ((fun x : Group => decide (x.num = n)) ∘ fun x => if x.num = n then f x else x) = fun x => decide (x.num = n) := by
    funext x
    by_cases hx : x.num = n <;> simp [hx, hnum]
  rw [State.group, State.modGroup, List.find?_map, hsame, ← State.group]
  cases hg : s.group n with
  | none => rfl
  | some x =>
    have hx : x.num = n := by simpa using List.find?_some (p := fun y : Group => decide (y.num = n)) hg
    exact congrArg some (if_pos hx)

@[simp] theorem State.setCreg_groups (s : State) (o : Nat) (v : W64) : (s.setCreg o v).groups = s.groups := rfl

@[simp] theorem State.store_groups (s : State) (a : Nat) (bs : List Byte) : (s.store a bs).groups = s.groups := by
  rw [State.store]
  split <;> rfl

@[simp] theorem State.trace_groups (s : State) (kind g core tag a b : Nat) : (s.trace kind g core tag a b).groups = s.groups := by
  unfold State.trace
  dsimp only
  split
  · split
    · exact State.setCreg_groups ..
    · exact (State.setCreg_groups ..).trans (State.store_groups ..)
  · rfl

/-- A claim that the group does not hold yet is added behind those that it holds. -/
theorem State.claim_groups {s : State} {g src t : Nat} (hnew : ∀ x, s.group g = some x → ∀ c ∈ x.claims, c.src ≠ src) :
    (s.claim g src (some t)).groups = (s.modGroup g fun x => { x with claims := x.claims ++ [{ src := src, till := some t }] }).groups := by
  have hfresh : ((s.group g).elim false fun x => x.claims.contains { src := src, till := some t }) = false := by
    cases hx : s.group g with
    | none => rfl
    | some x => exact Bool.eq_false_iff.2 fun hmem => hnew x hx _ (List.contains_iff_mem.1 hmem) rfl
  rw [State.claim, hfresh]
  simp only [Bool.and_false, Bool.false_eq_true, if_false]
  split_ifs
  · exact State.trace_groups ..
  · rfl

theorem State.modGroup_groups_alone {s : State} {g : Group} (f : Group → Group) (hg : s.groups = [g]) : (s.modGroup g.num f).groups = [f g] := by
  simp [State.modGroup, hg]

/-! ### Cores that a barrier releases (R124) -/

/-- A list of cores, each given the same update, where a second update of a core changes nothing more. -/
theorem State.core_foldl_modCore {f : Core → Core} (hf : ∀ k, f (f k) = f k) (c : Nat) :
    ∀ (cs : List Nat) (s : State), (cs.foldl (fun s c => s.modCore c f) s).core c = if c ∈ cs then f (s.core c) else s.core c
  | [], _ => rfl
  | d :: ds, s => by
    rw [List.foldl_cons, State.core_foldl_modCore hf c ds]
    by_cases hd : c = d
    · subst hd
      simp [hf]
    · simp [hd, State.core_modCore_other s f hd]

/-- Updates of cores change no other part of the state. -/
theorem State.foldl_modCore_rest (f : Core → Core) (cs : List Nat) (s : State) :
    ∃ m, cs.foldl (fun s c => s.modCore c f) s = { s with cores := m } := by
  refine List.foldlRecOn cs _ (motive := fun t : State => ∃ m, t = { s with cores := m }) ⟨s.cores, rfl⟩ ?_
  rintro _ ⟨m, rfl⟩ c _
  exact ⟨_, rfl⟩

/-- Every engine that the core has used issues its next word at tick `T`. -/
def Core.issueAt (T : Nat) (k : Core) : Core := { k with eng := k.eng.map fun p => (p.1, { p.2 with nextAt := T }) }

theorem Core.issueAt_issueAt (T : Nat) (k : Core) : Core.issueAt T (Core.issueAt T k) = Core.issueAt T k := by
  simp [Core.issueAt]

theorem SMap.find_map {α : Type} (f : α → α) (k : Nat) : ∀ m : SMap α, SMap.find (m.map fun p => (p.1, f p.2)) k = (SMap.find m k).map f
  | [] => rfl
  | (j, v) :: r => by
    simp only [List.map_cons, SMap.find]
    split_ifs
    · rfl
    · exact SMap.find_map f k r

theorem SMap.find_of_mem {α : Type} {p : Nat × α} : ∀ {m : SMap α}, p ∈ m → ∃ v, SMap.find m p.1 = some v
  | (j, v) :: r, hp => by
    by_cases hj : p.1 = j
    · exact ⟨v, if_pos hj⟩
    · obtain rfl | hr := List.mem_cons.1 hp
      · exact absurd rfl hj
      · obtain ⟨w, hw⟩ := SMap.find_of_mem hr
        exact ⟨w, (if_neg hj).trans hw⟩

theorem Core.nextAt_issueAt {k : Core} {T : Nat} {u : Nat × Engine} (hu : u ∈ k.eng) : ((Core.issueAt T k).engine u.1).nextAt = T := by
  obtain ⟨e, he⟩ := SMap.find_of_mem hu
  have hfind : SMap.find (Core.issueAt T k).eng u.1 = some { e with nextAt := T } := by
    change SMap.find (k.eng.map fun p => (p.1, { p.2 with nextAt := T })) u.1 = _
    rw [SMap.find_map (fun e : Engine => { e with nextAt := T }), he]
    rfl
  rw [Core.engine, hfind]
  rfl

/-- The state after the barrier `b` of group `n`, whose reckoner is at `reck`, is released. -/
def State.released (s : State) (n reck : Nat) (b : Gbar) : State :=
  (b.cores.foldl (fun s c => s.modCore c (Core.issueAt (max reck (b.last + 8)))) s).modGroup n fun y => { y with bar := none }

theorem exec_gbarRelease {n : Nat} {s : State} {g : Group} {b : Gbar} (hg : s.group n = some g) (hb : g.bar = some b) :
    exec (.gbarRelease n) s = .next (s.released n g.reck b) := by
  change execGbarRelease n s = _
  rw [execGbarRelease, hg]
  simp only [hb]
  rfl

theorem State.released_keeps (s : State) (n reck : Nat) (b : Gbar) :
    (s.released n reck b).mem = s.mem ∧ (s.released n reck b).flights = s.flights ∧
      (s.released n reck b).group n = (s.group n).map fun y => { y with bar := none } := by
  obtain ⟨m, hrest⟩ := State.foldl_modCore_rest (Core.issueAt (max reck (b.last + 8))) b.cores s
  rw [State.released, hrest]
  exact ⟨rfl, rfl, State.group_modGroup _ n fun _ => rfl⟩

theorem State.core_released (s : State) (n reck : Nat) (b : Gbar) (c : Nat) :
    (s.released n reck b).core c = if c ∈ b.cores then Core.issueAt (max reck (b.last + 8)) (s.core c) else s.core c :=
  State.core_foldl_modCore (Core.issueAt_issueAt _) c b.cores s

theorem gbarRelease_releases {n : Nat} {s : State} {g : Group} {b : Gbar} (hg : s.group n = some g) (hb : g.bar = some b) :
    ∃ t, exec (.gbarRelease n) s = .next t ∧ t.mem = s.mem ∧ t.flights = s.flights ∧ (∃ g', t.group n = some g' ∧ g'.bar = none ∧ g'.reck = g.reck) ∧
      (∀ c ∈ b.cores, ∀ u ∈ (s.core c).eng, ((t.core c).engine u.1).nextAt = max g.reck (b.last + 8)) ∧
      ∀ c, c ∉ b.cores → t.core c = s.core c := by
  obtain ⟨hmem, hflights, hgroup⟩ := s.released_keeps n g.reck b
  rw [hg] at hgroup
  refine ⟨_, exec_gbarRelease hg hb, hmem, hflights, ⟨_, hgroup, rfl, rfl⟩, fun c hc u hu => ?_, fun c hc => ?_⟩
  · rw [State.core_released, if_pos hc]
    exact Core.nextAt_issueAt hu
  · rw [State.core_released, if_neg hc]

/-! ### Waits that last too long, re-entry, the end of a claim (R74, R155, R279, R282, R325, R326) -/

theorem exec_gbarTimeout {n : Nat} {s : State} {g : Group} {b : Gbar} (hg : s.group n = some g) (hb : g.bar = some b) :
    exec (.gbarTimeout n) s = .next (b.cores.foldl (fun s c => s.charge { core := c, tag := 0, cause := .schedule, info := 0 } none)
      (s.modGroup n fun y => { y with bar := none })) := by
  change execGbarTimeout n s = _
  rw [execGbarTimeout, hg]
  simp only [hb]

/-- Each engine that is overdue is charged, in ring order. -/
theorem exec_waitLimitFault {c : Nat} {s : State} {ts : List Nat} (h : s.overdue c = ts) :
    exec (.waitLimitFault c) s = .next (ts.foldl (fun s t => (s.modEngine c t fun e => { e with since := none }).charge
      { core := c, tag := t, cause := .schedule, info := 0 } none) s) := by
  rw [← h]
  rfl

theorem exec_segmentReentry {n : Nat} {s : State} {g : Group} (hg : s.group n = some g) (hleave : g.leave = none) (hcarry : s.carryBad g = none) :
    exec (.segmentReentry n) s = .next ((s.reopen g).modGroup n fun y =>
      { y with stopIn := (y.replayTo.map fun t => y.reck + max t 1).or y.stopIn, replayTo := none }) := by
  change execSegmentReentry n s = _
  rw [execSegmentReentry, hg]
  simp only [hleave, hcarry]

theorem exec_pauseClaimExpiry {n src i : Nat} {s : State} {g : Group} (hg : s.group n = some g)
    (hi : (g.claims.findIdx? fun c => decide (c.src = src) && c.till.elim false fun t => decide (t ≤ s.time)) = some i) :
    let t := s.modGroup n fun x => { x with claims := x.claims.eraseIdx i }
    exec (.pauseClaimExpiry n src) s = .next (if 3 ≤ src then t.trace 5 n 0xFF 0xFF src 0 else t) := by
  change execPauseClaimExpiry n src s = _
  rw [execPauseClaimExpiry, hg, Option.bind_some, hi]

/-! ### Sags and resets of the supply (R440) -/

/-- The groups that a sag check finds sagging: all of them when the input or the mean power is out of range, else those of a die that sags. -/
def State.sagging (s : State) : List Group :=
  s.groups.filter fun g => (decide (s.env.input < 420) || decide (s.powerLimit < s.env.meanPower)) || g.dies.any fun d => s.env.railSag.contains d

def State.claimSags (s : State) : State := s.sagging.foldl (fun s g => s.claim g.num 4 (some (s.time + 16))) s

theorem exec_sagCheck (s : State) : ∃ n p, exec .sagCheck s = .next ((s.claimSags.setCreg 0x720 n).setCreg 0x718 p) := ⟨_, _, rfl⟩

theorem sagCheck_calm {s : State} (hin : 420 ≤ s.env.input) (hpower : s.env.meanPower ≤ s.powerLimit) (hrail : s.env.railSag = []) :
    ∃ t, exec .sagCheck s = .next t ∧ t.groups = s.groups ∧ t.mem = s.mem := by
  have hnone : s.sagging = [] := by
    simp [State.sagging, hrail, Nat.not_lt.2 hin, Nat.not_lt.2 hpower]
  have hclaims : s.claimSags = s := by rw [State.claimSags, hnone, List.foldl_nil]
  obtain ⟨n, p, hexec⟩ := exec_sagCheck s
  rw [hclaims] at hexec
  exact ⟨_, hexec, rfl, rfl⟩

theorem sagCheck_claims {s : State} {g : Group} (hsag : s.env.input < 420 ∨ s.powerLimit < s.env.meanPower) (hg : s.groups = [g])
    (hnew : ∀ c ∈ g.claims, c.src ≠ 4) :
    ∃ t, exec .sagCheck s = .next t ∧ ∃ g', t.groups = [g'] ∧ g'.claims = g.claims ++ [{ src := 4, till := some (s.time + 16) }] ∧ g'.reck = g.reck := by
  have hall : (decide (s.env.input < 420) || decide (s.powerLimit < s.env.meanPower)) = true := by simpa using hsag
  have hone : s.sagging = [g] := by simp [State.sagging, hg, hall]
  have hclaims : s.claimSags = s.claim g.num 4 (some (s.time + 16)) := by rw [State.claimSags, hone]; rfl
  have hself : s.group g.num = some g := by simp [State.group, hg]
  have hfresh : ∀ x, s.group g.num = some x → ∀ c ∈ x.claims, c.src ≠ 4 := by
    intro x hx
    rw [hself] at hx
    rwa [← Option.some.inj hx]
  obtain ⟨n, p, hexec⟩ := exec_sagCheck s
  have hgroups : s.claimSags.groups = [{ g with claims := g.claims ++ [{ src := 4, till := some (s.time + 16) }] }] := by
    rw [hclaims, State.claim_groups hfresh, State.modGroup_groups_alone _ hg]
  exact ⟨_, hexec, _, hgroups, rfl, rfl⟩

/-- Dies that do not answer change STATUS, which stands in MIX alone (R13, R14). -/
theorem State.silentDies_rest (s : State) :
    ∃ m, s.silentDies = { s with creg := m } ∧ ({ s with creg := m } : State).cregOf 0x728 = s.cregOf 0x728 := by
  refine List.foldlRecOn _ _ (motive := fun t : State => ∃ m, t = { s with creg := m } ∧ ({ s with creg := m } : State).cregOf 0x728 = s.cregOf 0x728)
    ⟨s.creg, rfl, rfl⟩ ?_
  rintro _ ⟨m, rfl, hreg⟩ d hd
  have hmix : d ≤ 38 := (of_decide_eq_true (List.mem_filter.1 hd).2).2
  exact ⟨_, rfl, (State.cregOf_setCreg_other _ _ (by omega)).trans hreg⟩

/-- The state after a reset by the supply, before the dies that do not answer are marked. -/
def State.resetKeeping (s : State) : State :=
  { State.reset with
    inputs := s.inputs.map fun p => (p.1 - s.time, p.2), env := s.env, free := s.free,
    creg := SMap.set 0 State.reset.creg 0x728 (s.cregOf 0x728),
    boot := { State.reset.boot with store := s.boot.store, svn := s.boot.svn } }

theorem exec_supplyReset (s : State) : exec .supplyReset s = .next s.resetKeeping.silentDies := rfl

theorem State.cregOf_resetKeeping_fuses (s : State) : s.resetKeeping.cregOf 0x728 = s.cregOf 0x728 := SMap.get_set_same ..

theorem supplyReset_keeps (s : State) :
    ∃ t, exec .supplyReset s = .next t ∧ t.mem = [] ∧ t.cores = [] ∧ t.groups = [] ∧ t.jobs = [] ∧ t.time = State.reset.time ∧ t.env = s.env ∧
      t.boot.store = s.boot.store ∧ t.cregOf 0x728 = s.cregOf 0x728 := by
  obtain ⟨m, hrest, hreg⟩ := s.resetKeeping.silentDies_rest
  refine ⟨_, exec_supplyReset s, ?_⟩
  rw [hrest]
  exact ⟨rfl, rfl, rfl, rfl, rfl, rfl, rfl, hreg.trans s.cregOf_resetKeeping_fuses⟩

/-! ### TIME across modules (R24, R384) -/

theorem slewStep_slews (s : State) :
    ∃ t, exec .slewStep s = .next t ∧ t.mem = s.mem ∧ t.cores = s.cores ∧
      (s.slew < 0 → t.time = (s.time + 2) % 2 ^ 64 ∧ t.slew = s.slew + 1) ∧ (0 < s.slew → t.time = s.time ∧ t.again = true ∧ t.slew = s.slew - 1) ∧
      (s.slew = 0 → t.time = (s.time + 1) % 2 ^ 64 ∧ t.slew = 0) := by
  refine ⟨_, rfl, ?_⟩
  by_cases hbehind : s.slew < 0
  · rw [if_pos hbehind]
    exact ⟨rfl, rfl, fun _ => ⟨rfl, rfl⟩, fun h => by omega, fun h => by omega⟩
  by_cases hahead : 0 < s.slew
  · rw [if_neg hbehind, if_pos hahead]
    exact ⟨rfl, rfl, fun h => absurd h hbehind, fun _ => ⟨rfl, rfl, rfl⟩, fun h => by omega⟩
  · rw [if_neg hbehind, if_neg hahead]
    exact ⟨rfl, rfl, fun h => absurd h hbehind, fun h => absurd h hahead, fun h => ⟨rfl, h⟩⟩

/-- The bits 0 to 2 of TSYNC. -/
def tsyncFlags (ok ref slip : Bool) : Nat := (if ok then 1 else 0) + (if ref then 2 else 0) + (if slip then 4 else 0)

theorem tsyncFlags_lt (ok ref slip : Bool) : tsyncFlags ok ref slip < 8 := by
  revert ok ref slip
  decide

theorem testBit_tsyncFlags (ok ref slip : Bool) :
    (tsyncFlags ok ref slip).testBit 0 = ok ∧ (tsyncFlags ok ref slip).testBit 1 = ref ∧ (tsyncFlags ok ref slip).testBit 2 = slip := by
  revert ok ref slip
  decide

theorem tsyncAfter_eq (w : W64) (o : Int) :
    tsyncAfter w o = BitVec.ofNat 64 (2 ^ 16 * wrapI o 16 +
      tsyncFlags (decide (-4 ≤ o ∧ o ≤ 4)) (w.getLsbD 1) (w.getLsbD 2 || decide (o < -4 ∨ 4 < o))) := by
  have hslip : (!(decide (-4 ≤ o) && decide (o ≤ 4))) = decide (o < -4 ∨ 4 < o) := by
    rw [← Bool.decide_and, ← decide_not]
    exact decide_eq_decide.2 (by omega)
  rw [tsyncAfter, hslip, bitN_toNat, bitN_toNat, ← Bool.decide_and, Nat.add_comm, Nat.mul_comm]
  rfl

theorem getLsbD_tsyncAfter (w : W64) (o : Int) {i : Nat} (hi : i < 16) :
    (tsyncAfter w o).getLsbD i = (tsyncFlags (decide (-4 ≤ o ∧ o ≤ 4)) (w.getLsbD 1) (w.getLsbD 2 || decide (o < -4 ∨ 4 < o))).testBit i := by
  have hlow := (tsyncFlags_lt (decide (-4 ≤ o ∧ o ≤ 4)) (w.getLsbD 1) (w.getLsbD 2 || decide (o < -4 ∨ 4 < o))).trans (by decide : 8 < 2 ^ 16)
  rw [tsyncAfter_eq, BitVec.getLsbD_ofNat, Nat.testBit_two_pow_mul_add _ hlow, if_pos hi, decide_eq_true (by omega : i < 64), Bool.true_and]

/-- The offset stands in bits 31 to 16. -/
theorem extractLsb_tsyncAfter (w : W64) (o : Int) : (tsyncAfter w o).extractLsb' 16 16 = BitVec.ofInt 16 o := by
  have hflags := tsyncFlags_lt (decide (-4 ≤ o ∧ o ≤ 4)) (w.getLsbD 1) (w.getLsbD 2 || decide (o < -4 ∨ 4 < o))
  have hoffset : wrapI o 16 < 2 ^ 16 := by
    rw [wrapI]
    omega
  apply BitVec.eq_of_toNat_eq
  rw [tsyncAfter_eq, BitVec.extractLsb'_toNat, BitVec.toNat_ofNat, BitVec.toNat_ofInt, ← wrapI, Nat.shiftRight_eq_div_pow]
  omega

theorem timeSyncExchange_estimates (s : State) (o : Int) :
    ∃ t, exec (.timeSyncExchange (some o)) s = .next t ∧ { t with creg := s.creg, slew := s.slew } = s ∧
      t.slew = (if (s.cregOf 0x348).getLsbD 1 then 0 else o) ∧
      (t.cregOf 0x348).getLsbD 0 = decide (-4 ≤ o ∧ o ≤ 4) ∧ (t.cregOf 0x348).getLsbD 1 = (s.cregOf 0x348).getLsbD 1 ∧
      (t.cregOf 0x348).getLsbD 2 = ((s.cregOf 0x348).getLsbD 2 || decide (o < -4 ∨ 4 < o)) ∧ (t.cregOf 0x348).extractLsb' 16 16 = BitVec.ofInt 16 o := by
  let w := s.cregOf 0x348
  let t : State := { s.setCreg 0x348 (tsyncAfter w o) with slew := if bitN w.toNat 1 then 0 else o }
  have hreg : t.cregOf 0x348 = tsyncAfter w o := State.cregOf_setCreg_same ..
  have hslew : t.slew = if w.getLsbD 1 then 0 else o := by rw [← bitN_toNat]
  obtain ⟨hok, href, hslip⟩ := testBit_tsyncFlags (decide (-4 ≤ o ∧ o ≤ 4)) (w.getLsbD 1) (w.getLsbD 2 || decide (o < -4 ∨ 4 < o))
  rw [← getLsbD_tsyncAfter w o (by decide), ← hreg] at hok href hslip
  exact ⟨t, rfl, rfl, hslew, hok, href, hslip, hreg ▸ extractLsb_tsyncAfter w o⟩

/-! ### The statement -/

/-- Settles O54: each event has its rule above, but for the slots, the start of a sweep and a bead deadlock, which are as they are defined. -/
theorem groupsAndPauses : Obligations.GroupsAndPauses := by
  refine ⟨⟨fun n s g b hg hb => ⟨gbarRelease_releases hg hb, exec_gbarTimeout hg hb⟩, fun _ _ _ => rfl, fun c s => ?_,
    fun n s g => exec_segmentReentry, fun n src i s g => exec_pauseClaimExpiry⟩, fun s => ?_⟩
  · exact ⟨exec_waitLimitFault, fun t => exec_waitLimitFault⟩
  · have hsweep : ∃ t, exec .patrolSweepStart s = .next t ∧ { t with therm := s.therm } = s ∧ t.therm.sweepPos = 2 ^ 22 ∧ t.therm.scrubAt = s.time :=
      ⟨s.startSweep, rfl, rfl, rfl, rfl⟩
    exact ⟨rfl, rfl, rfl, hsweep, ⟨sagCheck_calm, fun g => sagCheck_claims⟩, supplyReset_keeps s, slewStep_slews s, rfl, timeSyncExchange_estimates s⟩

end Sys2Proof.Machine
end

section
/-! What the gate answers to an instruction that may not issue, and that a stall touches its engine alone (O9). -/

namespace Sys2Proof.Machine

open Sys2Proof

/-! ### The gate of an engine that owes nothing (R85), check by check in the order of R100 -/

section
variable {s : State} {i : Instr}

/-- The legality of the word comes first. -/
theorem gate_of_issueFault {c : Cause} (howed : s.hereE.owed = []) (hhold : s.hereE.hold = none) (hfault : s.issueFault i = some c) :
    gate s i = .stop (s.wordFault i c 0 none) := by
  simp [gate, howed, hhold, hfault]

/-- Then the length of the seam (R316). -/
theorem gate_of_longSeam (howed : s.hereE.owed = []) (hhold : s.hereE.hold = none) (hlegal : s.issueFault i = none)
    (hout : s.here.inSeg = false) (hlong : 256 ≤ s.hereE.seam) : gate s i = .stop (s.unpause.raise .segmentLegality 0 none) := by
  simp [gate, howed, hhold, hlegal, hout, hlong]

/-- Then slip (R280), pacing (R272) and the interlocks (R72). -/
theorem gate_of_heldBack (howed : s.hereE.owed = []) (hhold : s.hereE.hold = none) (hlegal : s.issueFault i = none)
    (hseam : s.here.inSeg = true ∨ s.hereE.seam < 256)
    (hheld : s.here.slips s.ct s.cur.tag s.now = true ∨ s.here.paced s.cur.tag s.now = true ∨
      s.readsWait s.cur.core s.now (s.usesOf i) = true ∨ s.here.lagsBehind s.cur.core s.cur.tag (s.usesOf i) = true) :
    ∃ opn, gate s i = .stop (s.stall opn) := by
  have hshort : (!s.here.inSeg && decide (256 ≤ s.hereE.seam)) = false := by
    rcases hseam with h | h
    · simp [h]
    · simp [Nat.not_le.2 h]
  simp only [gate, howed, hhold, hlegal, hshort, List.any_nil, Option.isSome_none, Bool.or_self, Bool.false_eq_true, if_false]
  by_cases hrate : (s.here.slips s.ct s.cur.tag s.now || s.here.paced s.cur.tag s.now) = true
  · exact ⟨_, if_pos hrate⟩
  · have hlock : (s.readsWait s.cur.core s.now (s.usesOf i) || s.here.lagsBehind s.cur.core s.cur.tag (s.usesOf i)) = true := by
      rw [Bool.or_eq_true] at hrate ⊢
      tauto
    exact ⟨_, (if_neg hrate).trans (if_pos hlock)⟩

end

/-- The engine at the cursor as it stalls to its next issue opportunity. -/
def State.stalledE (s : State) (opn : Bool) : Engine :=
  { s.hereE with nextAt := s.now + s.d, since := some (s.hereE.since.getD s.now), openWait := opn }

theorem State.stall_eq (s : State) (opn : Bool) : s.stall opn = s.modHereE fun _ => s.stalledE opn := rfl

/-- A word of one engine faults there (R99). -/
theorem State.wordFault_own {i : Instr} (hown : isAll i = false) (s : State) (c : Cause) (info : W64) (page : Option Nat) :
    s.wordFault i c info page = s.unpause.raise c info page := by
  simp [State.wordFault, hown]

/-! ### Instructions that issue through the gate -/

theorem issue_idle {s : State} (hidle : s.runs = false) (i : Instr) (plan : State → Plan) : issue s i plan = .fault .engineIdle := by
  simp [issue, issueIf, hidle]

theorem issue_stop {s s' : State} {i : Instr} (hruns : s.runs = true) (hstop : gate s i = .stop s') (plan : State → Plan) :
    issue s i plan = .next s' := by
  simp [issue, issueIf, hruns, hstop]

/-- The meaning of `mk` is an issue through the gate, and its word is that of one engine (R99). -/
def Gated (mk : S3 → Instr) : Prop := ∀ (f : S3) (s : State), isAll (mk f) = false ∧ ∃ plan, exec (mk f) s = issue s (mk f) plan

theorem gated_s3 : ∀ mk ∈ ([.add, .sub, .mul, .mulh, .divi, .remi, .and, .or, .xor, .andn, .shl, .shr, .rot, .min, .max, .ext, .ins, .lea, .ld, .st,
    .vadd, .vsub, .vmul, .vmin, .vmax, .vand, .vor, .vxor, .vshl, .vshr, .nnorm, .qsign] : List (S3 → Instr)), Gated mk := by
  simp only [List.forall_mem_cons, List.not_mem_nil, IsEmpty.forall_iff, implies_true, and_true]
  and_intros <;> exact fun _ _ => ⟨rfl, _, rfl⟩

/-! ### The statement -/

/-- Settles O9: the gate makes its checks in the order of R100 and stops at the first that fails, before anything of the instruction's own is done. -/
theorem heldBack : Obligations.HeldBack := by
  intro mk hmk f s
  obtain ⟨hown, plan, hexec⟩ := gated_s3 mk hmk f s
  dsimp only
  rw [hexec]
  refine ⟨fun hidle => issue_idle hidle _ _, fun hruns howed hhold => ⟨fun c hfault => ?_, fun hlegal hout hlong => ?_, fun hlegal hseam hheld => ?_⟩⟩
  · rw [issue_stop hruns (gate_of_issueFault howed hhold hfault), State.wordFault_own hown]
  · exact issue_stop hruns (gate_of_longSeam howed hhold hlegal hout hlong) plan
  · obtain ⟨opn, hstall⟩ := gate_of_heldBack howed hhold hlegal hseam hheld
    exact ⟨_, s.stalledE opn, issue_stop hruns hstall plan, s.stall_eq opn, rfl, rfl, rfl, rfl⟩

end Sys2Proof.Machine
end

section
/-! The two-source instructions of the control engine: once nothing holds one back it issues, with the effects of `State.after2` (O11). -/

namespace Sys2Proof.Machine

open Sys2Proof

/-! ### The plan of a two-source instruction (R66, R131) -/

/-- Source B as the exact operation takes it: a control operand (R130), or extended under FS (R66). -/
def Core.ce2B (k : Core) (t : Nat) (f : S3) (ctl : Bool) : Int :=
  if ctl then (k.ctlVal t true f.b : Nat) else k.srcInt t true f.fs f.dst.w f.b

theorem planCe2_go {f : S3} {s : State} (lat : Nat) (ctl : Bool) (v : Int → Int → Nat → Int × Flags)
    (hok : s.here.ce2Ok s.cur.tag f.dst f.a f.b = true) :
    planCe2 f lat ctl v s =
      let r := v (s.here.srcInt s.cur.tag false f.fs f.dst.w f.a) (s.here.ce2B s.cur.tag f ctl) f.dst.bits
      .go { s := s.after2 f ctl lat r.1 r.2, lat := lat } := by
  rw [planCe2, if_neg (by simp [hok])]
  rfl

theorem State.after2_walk (s : State) (f : S3) (ctl : Bool) (lat : Nat) (v : Int) (fl : Flags) :
    (s.after2 f ctl lat v fl).hereE.walk = s.hereE.walk := by
  rw [State.after2, State.flag_walk]
  exact State.modHere_walk _ _ (by simp)

/-- An instruction whose meaning is a two-source plan issues with the plan's effects. -/
theorem issues_after2 {i : Instr} {s : State} {f : S3} {lat : Nat} {ctl : Bool} {v : Int → Int → Nat → Int × Flags} {x : Int} {fl : Flags}
    (hexec : exec i s = issue s i (planCe2 f lat ctl v)) (hready : Ready s i) (hok : s.here.ce2Ok s.cur.tag f.dst f.a f.b = true)
    (hv : v (s.here.srcInt s.cur.tag false f.fs f.dst.w f.a) (s.here.ce2B s.cur.tag f ctl) f.dst.bits = (x, fl)) :
    Issues i s (s.after2 f ctl lat x fl) := by
  have hplan := planCe2_go lat ctl v hok
  rw [hv] at hplan
  obtain ⟨t, ht, hwent⟩ := issue_ready hready hplan rfl (State.after2_walk ..) rfl
  exact ⟨_, t, hexec.trans ht, hwent⟩

/-! ### Operations that raise no flag of their own -/

/-- `mk` is the instruction of the exact operation `op`, with latency `lat`; `ctl`: source B is a control operand. -/
def Computes (mk : S3 → Instr) (lat : Nat) (ctl : Bool) (op : Int → Int → Nat → Int) : Prop :=
  ∀ (f : S3) (s : State), exec (mk f) s = issue s (mk f) (planCe2 f lat ctl fun a b wd => (op a b wd, 0))

theorem Computes.issues {mk : S3 → Instr} {lat : Nat} {ctl : Bool} {op : Int → Int → Nat → Int} (h : Computes mk lat ctl op) {f : S3} {s : State}
    (hready : Ready s (mk f)) (hok : s.here.ce2Ok s.cur.tag f.dst f.a f.b = true) :
    Issues (mk f) s (s.after2 f ctl lat
      (op (s.here.srcInt s.cur.tag false f.fs f.dst.w f.a) (s.here.ce2B s.cur.tag f ctl) f.dst.bits) 0) :=
  issues_after2 (h f s) hready hok rfl

theorem computes_add : Computes .add 1 false fun a b _ => a + b := fun _ _ => rfl
theorem computes_sub : Computes .sub 1 false fun a b _ => a - b := fun _ _ => rfl
theorem computes_mul : Computes .mul 3 false fun a b _ => a * b := fun _ _ => rfl
theorem computes_and : Computes .and 1 false fun a b _ => bitOp (· &&& ·) a b := fun _ _ => rfl
theorem computes_or : Computes .or 1 false fun a b _ => bitOp (· ||| ·) a b := fun _ _ => rfl
theorem computes_xor : Computes .xor 1 false fun a b _ => bitOp (· ^^^ ·) a b := fun _ _ => rfl
theorem computes_andn : Computes .andn 1 false fun a b _ => bitOp (fun x y => x &&& ~~~y) a b := fun _ _ => rfl

/-- The high half is the exact product divided by 2 to the width of the destination, rounded down. -/
theorem computes_mulh : Computes .mulh 3 false fun a b wd => a * b / 2 ^ wd := by
  intro f s
  simp only [← Nat.cast_ofNat (R := Int), ← Nat.cast_pow]
  rfl

theorem computes_min : Computes .min 1 false fun a b _ => min a b := by
  intro f s
  have hmin : ∀ a b : Int, min a b = if b < a then b else a := fun a b => by rw [min_comm, min_def_lt]
  simp only [hmin]
  rfl

theorem computes_max : Computes .max 1 false fun a b _ => max a b := by
  intro f s
  simp only [max_def_lt]
  rfl

/-! ### Shifts and the rotation: source B is a count (R130) -/

theorem two_pow_shAmt (b : Int) : ((2 ^ shAmt b : Nat) : Int) = 2 ^ min b.toNat 127 := by
  rw [shAmt, Nat.cast_pow, Nat.cast_ofNat]

theorem computes_shl : Computes .shl 1 true fun a b _ => a * 2 ^ min b.toNat 127 := by
  intro f s
  simp only [← two_pow_shAmt]
  rfl

theorem computes_shr : Computes .shr 1 true fun a b _ => a / 2 ^ min b.toNat 127 := by
  intro f s
  simp only [← two_pow_shAmt]
  rfl

/-- What is shifted out at the top fits below what is shifted in place, so that to put the two together is to add them. -/
theorem shiftLeft_or_shiftRight_eq_add {x w m : Nat} (hx : x < 2 ^ w) (hm : m ≤ w) :
    x <<< m % 2 ^ w ||| x >>> (w - m) = x * 2 ^ m % 2 ^ w + x / 2 ^ (w - m) := by
  have hw : 2 ^ w = 2 ^ (w - m) * 2 ^ m := by rw [← Nat.pow_add, Nat.sub_add_cancel hm]
  have hlow : x / 2 ^ (w - m) < 2 ^ m := Nat.div_lt_of_lt_mul (hw ▸ hx)
  have hhigh : x * 2 ^ m % 2 ^ w = (x % 2 ^ (w - m)) <<< m := by rw [hw, Nat.mul_mod_mul_right, Nat.shiftLeft_eq]
  rw [Nat.shiftLeft_eq, Nat.shiftRight_eq_div_pow, hhigh, Nat.shiftLeft_add_eq_or_of_lt hlow]

theorem rotL_eq_rotateLeft (a b : Int) : ∀ wd, rotL a b wd = ((BitVec.ofInt wd a).rotateLeft b.toNat).toNat
  | 0 => by simp [rotL, wrapI]
  | wd + 1 => by
    have hx : wrapI a (wd + 1) = (BitVec.ofInt (wd + 1) a).toNat := (BitVec.toNat_ofInt ..).symm
    rw [BitVec.toNat_rotateLeft, rotL, hx, shiftLeft_or_shiftRight_eq_add (BitVec.isLt _) (Nat.mod_lt _ wd.succ_pos).le]

theorem computes_rot : Computes .rot 1 true fun a b wd => ((BitVec.ofInt wd a).rotateLeft b.toNat).toNat := by
  intro f s
  simp only [← rotL_eq_rotateLeft]
  rfl

/-! ### The statement -/

/-- Settles O11: each instruction is a two-source plan of its exact operation, and such a plan issues with its result. -/
theorem ceTwoSources : Obligations.CeTwoSources := by
  refine ⟨?_, ?_⟩
  · simp only [List.forall_mem_cons]
    exact ⟨fun _ _ => computes_add.issues, fun _ _ => computes_sub.issues, fun _ _ => computes_mul.issues, fun _ _ => computes_mulh.issues,
      fun _ _ => computes_and.issues, fun _ _ => computes_or.issues, fun _ _ => computes_xor.issues, fun _ _ => computes_andn.issues,
      fun _ _ => computes_min.issues, fun _ _ => computes_max.issues, List.forall_mem_nil _⟩
  · simp only [List.forall_mem_cons]
    exact ⟨fun _ _ => computes_shl.issues, fun _ _ => computes_shr.issues, fun _ _ => computes_rot.issues, List.forall_mem_nil _⟩

end Sys2Proof.Machine
end

section
/-! Words and fields: what the encoder writes is what the decoder reads, and words are made of their fields (O2, O3). -/

namespace Sys2Proof

open Sys2Proof.Machine

/-! ### Parts of a bit vector -/

/-- Two parts make up a bit vector if each is its field. -/
theorem append_eq_iff {m n : Nat} {x : BitVec m} {y : BitVec n} {v : BitVec (m + n)} :
    @Eq (no_index (BitVec (m + n))) (x ++ y) v ↔ x = v.extractLsb' n m ∧ y = v.extractLsb' 0 n := by
  constructor
  · rintro rfl
    exact ⟨BitVec.extractLsb'_append_eq_left.symm, BitVec.extractLsb'_append_eq_right.symm⟩
  · rintro ⟨rfl, rfl⟩
    rw [BitVec.extractLsb'_append_extractLsb'_eq_extractLsb' (Nat.zero_add n).symm, BitVec.extractLsb'_eq_self]

theorem extractLsb'_fld (w : W32) (a : Nat) {m b n : Nat} (h : b + n ≤ m) : (fld w a m).extractLsb' b n = fld w (a + b) n := by
  apply BitVec.eq_of_getLsbD_eq
  intro i hi
  have hbi : b + i < m := by omega
  simp [fld, hi, hbi, Nat.add_assoc]

theorem extractLsb'_eq_fld (w : W32) (a n : Nat) : w.extractLsb' a n = fld w a n := rfl

theorem bit_eq_fld_iff {w : W32} {i : Nat} {b : Bool} : bit b = fld w i 1 ↔ b = w.getLsbD i := by
  rw [bit, BitVec.getLsbD_eq_extractLsb', fld]
  generalize w.extractLsb' i 1 = x
  revert x b
  decide

theorem getLsbD_bit (b : Bool) : (bit b).getLsbD 0 = b := by
  cases b <;> rfl

/-! ### Masks -/

theorem inMask_iff {n mask : Nat} {v : BitVec n} : inMask v mask = true ↔ ∀ i < n, v.getLsbD i = true → mask.testBit i = true := by
  simp only [inMask, decide_eq_true_eq, BitVec.eq_of_getLsbD_eq_iff]
  refine forall₂_congr fun i hi => ?_
  rw [BitVec.getLsbD_and, BitVec.getLsbD_not, BitVec.getLsbD_ofNat, show (0 : BitVec n).getLsbD i = false from BitVec.getLsbD_zero]
  cases v.getLsbD i <;> simp [hi]

/-- All bits of a bit vector of two parts lie in a mask if those of each part lie in its part of the mask. -/
theorem inMask_append {m n : Nat} (x : BitVec m) (y : BitVec n) (mask : Nat) :
    inMask (x ++ y) mask = (inMask x (mask >>> n) && inMask y mask) := by
  rw [Bool.eq_iff_iff, Bool.and_eq_true, inMask_iff, inMask_iff, inMask_iff]
  simp only [BitVec.getLsbD_append, Nat.testBit_shiftRight]
  constructor
  · refine fun h => ⟨fun i hi hx => ?_, fun i hi hy => ?_⟩
    · exact h (n + i) (by omega) (by simpa using hx)
    · exact h i (by omega) (by simpa [hi] using hy)
  · rintro ⟨hx, hy⟩ i hi h
    split_ifs at h with hn
    · exact hy i hn h
    · simpa [Nat.add_sub_cancel' (Nat.le_of_not_lt hn)] using hx (i - n) (by omega) h

theorem inMask_zero (n mask : Nat) : inMask (0#n) mask = true := by
  simp [inMask]

theorem inMask_all {n mask : Nat} (v : BitVec n) (h : BitVec.ofNat n mask = BitVec.allOnes n) : inMask v mask = true := by
  simp [inMask, h]

/-- The bits of a word below `m` lie in a mask if those of the word lie in the mask with all bits from `m` up. -/
theorem inMask_fld (w : W32) {m mask : Nat} (hm : m ≤ 32) : inMask (fld w 0 m) mask = inMask w (mask % 2 ^ m + (2 ^ 32 - 2 ^ m)) := by
  have hup : 2 ^ 32 - 2 ^ m = 2 ^ m * (2 ^ (32 - m) - 1) := by
    rw [Nat.mul_sub, ← Nat.pow_add, Nat.add_sub_cancel' hm, Nat.mul_one]
  rw [Bool.eq_iff_iff, inMask_iff, inMask_iff, hup, Nat.add_comm]
  simp only [Nat.testBit_two_pow_mul_add _ (Nat.mod_lt mask (Nat.two_pow_pos m)), Nat.testBit_mod_two_pow, Nat.testBit_two_pow_sub_one]
  constructor
  · intro h i hi hw
    split_ifs with him
    · simpa [him] using h i him (by simpa [fld, him] using hw)
    · simpa using by omega
  · intro h i hi hw
    simpa [hi] using h i (by omega) (by simpa [fld, hi] using hw)

/-- A field that the mask leaves out is 0. -/
theorem fld_of_inMask {p : Prop} {w : W32} {m mask a n : Nat} (hw : p → inMask (fld w 0 m) mask = true) (hp : p) (ha : a + n ≤ m)
    (hz : (BitVec.ofNat m mask).extractLsb' a n = 0#n) : fld w a n = 0#n := by
  apply BitVec.eq_of_getLsbD_eq
  intro i hi
  have hai : a + i < m := by omega
  have hbit : mask.testBit (a + i) = false := by
    have hget := congrArg (fun v => v.getLsbD i) hz
    rwa [BitVec.getLsbD_extractLsb', BitVec.getLsbD_ofNat, decide_eq_true hi, decide_eq_true hai, BitVec.getLsbD_zero] at hget
  have hin := inMask_iff.1 (hw hp) (a + i) hai
  rw [hbit, fld, BitVec.getLsbD_extractLsb', Nat.zero_add, decide_eq_true hai, Bool.true_and] at hin
  simpa [fld, hi] using hin

theorem getLsbD_of_inMask {p : Prop} {w : W32} {m mask i : Nat} (hw : p → inMask (fld w 0 m) mask = true) (hp : p) (hi : i < m) (hz : mask.testBit i = false)
    :
    w.getLsbD i = false := by
  have hin := inMask_iff.1 (hw hp) i hi
  rw [hz, fld, BitVec.getLsbD_extractLsb', Nat.zero_add, decide_eq_true hi, Bool.true_and] at hin
  simpa using hin

/-! ### Fields of a word -/

section
variable {w : W32}

theorem tailV_eq_iff {d : BitVec 4} {hi lo : BitVec 14} : tailV d hi lo = w ↔ d = fld w 28 4 ∧ hi = fld w 14 14 ∧ lo = fld w 0 14 := by
  simp (disch := decide) only [tailV, append_eq_iff, extractLsb'_eq_fld, extractLsb'_fld, and_assoc]

theorem eq_guardBits_iff {g : Guard} : g = guardBits w ↔ g.gd = w.getLsbD 22 ∧ g.p = fld w 18 4 ∧ g.s = w.getLsbD 17 := by
  cases g
  simp only [guardBits, Guard.mk.injEq]

theorem wordV_eq_iff {dep : BitVec 4} {tag len opc : Nat} {g : Guard} {mod : BitVec 9} : wordV dep tag len g opc mod = w ↔
    dep = fld w 28 4 ∧ BitVec.ofNat 3 tag = fld w 25 3 ∧ BitVec.ofNat 2 len = fld w 23 2 ∧ g = guardBits w ∧ BitVec.ofNat 8 opc = fld w 9 8 ∧
      mod = fld w 0 9 := by
  simp (disch := decide) only [wordV, append_eq_iff, extractLsb'_eq_fld, extractLsb'_fld, bit_eq_fld_iff, and_assoc, eq_guardBits_iff]

theorem headV_eq_iff {tag len opc : Nat} {h : Head} {mod : BitVec 9} : headV tag len opc h mod = w ↔
    BitVec.ofNat 3 tag = fld w 25 3 ∧ BitVec.ofNat 2 len = fld w 23 2 ∧ h = headOf w ∧ BitVec.ofNat 8 opc = fld w 9 8 ∧ mod = fld w 0 9 := by
  obtain ⟨d, g⟩ := h
  simp only [headV, wordV_eq_iff, headOf, Head.mk.injEq]
  tauto

theorem modV_eq_iff {ka kb : BitVec 2} {ha hb : Bool} {es : BitVec 2} {fs : Bool} : modV ka kb ha hb es fs = fld w 0 9 ↔
    ka = fld w 7 2 ∧ kb = fld w 5 2 ∧ ha = w.getLsbD 4 ∧ hb = w.getLsbD 3 ∧ es = fld w 1 2 ∧ fs = w.getLsbD 0 := by
  simp (disch := decide) only [modV, append_eq_iff, extractLsb'_fld, bit_eq_fld_iff, and_assoc]

theorem slotV_eq_iff {o : Slot} {v : BitVec 14} : slotV o = v ↔ o = slotOf v := by
  obtain ⟨_, _, _⟩ := o
  constructor
  · rintro rfl
    simp (disch := decide) only [slotV, slotOf, BitVec.extractLsb'_append_eq_of_le, BitVec.extractLsb'_append_eq_of_add_le, BitVec.extractLsb'_eq_self,
      Nat.reduceSub]
  · intro h
    cases h
    simp (disch := decide) only [slotV, BitVec.extractLsb'_append_extractLsb'_eq_extractLsb', BitVec.extractLsb'_eq_self]

theorem slotOf_slotV (o : Slot) : slotOf (slotV o) = o := (slotV_eq_iff.1 rfl).symm

theorem subV_eq_iff {s : Sub} : subV s = fld w 0 14 ↔ s = subOf w := by
  cases s
  simp (disch := decide) only [subV, subOf, append_eq_iff, extractLsb'_fld, bit_eq_fld_iff, and_assoc, Sub.mk.injEq]

theorem srcCV_eq_iff {c : SrcC} : srcCV c = fld w 0 14 ↔ c = srcCOf w := by
  cases c
  simp (disch := decide) only [srcCV, srcCOf, append_eq_iff, extractLsb'_fld, bit_eq_fld_iff, and_assoc, SrcC.mk.injEq]

end

/-- A source is its kind, its field and its hold bit (R91, R92). -/
theorem srcOf_eq_some {k : BitVec 2} {v : BitVec 14} {h : Bool} {a : Src} :
    srcOf k v h = some a ↔ kindV a = k ∧ fieldV a = v ∧ a.hold = h := by
  constructor
  · intro ha
    unfold srcOf at ha
    split_ifs at ha with h0 h1 hv h2 <;> cases ha
    · exact ⟨h0.symm, slotV_eq_iff.2 rfl, rfl⟩
    · exact ⟨h1.symm, hv.symm, rfl⟩
    · exact ⟨h2.symm, slotV_eq_iff.2 rfl, rfl⟩
    · have h3 : ∀ k : BitVec 2, k ≠ 0 → k ≠ 1 → k ≠ 2 → 3 = k := by decide
      exact ⟨h3 k h0 h1 h2, rfl, rfl⟩
  · rintro ⟨rfl, rfl, rfl⟩
    cases a <;> simp [srcOf, kindV, fieldV, Src.hold, slotOf_slotV]

theorem srcOf_parts (a : Src) : srcOf (kindV a) (fieldV a) a.hold = some a := srcOf_eq_some.2 ⟨rfl, rfl, rfl⟩

/-! ### What is read of a word that is written -/

theorem getLsbD_append_low {m n i : Nat} (x : BitVec m) (y : BitVec n) (hi : i < n) : (x ++ y).getLsbD i = y.getLsbD i := by
  rw [BitVec.getLsbD_append, if_pos hi]

theorem getLsbD_append_high {m n i : Nat} (x : BitVec m) (y : BitVec n) (hi : n ≤ i) : (x ++ y).getLsbD i = x.getLsbD (i - n) := by
  rw [BitVec.getLsbD_append, if_neg (Nat.not_lt.2 hi)]

theorem wordV_fields (dep : BitVec 4) (tag len : Nat) (g : Guard) (opc : Nat) (mod : BitVec 9) :
    fld (wordV dep tag len g opc mod) 28 4 = dep ∧ fld (wordV dep tag len g opc mod) 25 3 = BitVec.ofNat 3 tag ∧
      fld (wordV dep tag len g opc mod) 23 2 = BitVec.ofNat 2 len ∧ guardBits (wordV dep tag len g opc mod) = g ∧
      fld (wordV dep tag len g opc mod) 9 8 = BitVec.ofNat 8 opc ∧ fld (wordV dep tag len g opc mod) 0 9 = mod := by
  obtain ⟨hdep, htag, hlen, hg, hopc, hmod⟩ := wordV_eq_iff.1 (rfl : wordV dep tag len g opc mod = _)
  exact ⟨hdep.symm, htag.symm, hlen.symm, hg.symm, hopc.symm, hmod.symm⟩

theorem headV_fields (tag len opc : Nat) (h : Head) (mod : BitVec 9) :
    fld (headV tag len opc h mod) 25 3 = BitVec.ofNat 3 tag ∧ fld (headV tag len opc h mod) 23 2 = BitVec.ofNat 2 len ∧
      headOf (headV tag len opc h mod) = h ∧ fld (headV tag len opc h mod) 9 8 = BitVec.ofNat 8 opc ∧ fld (headV tag len opc h mod) 0 9 = mod := by
  obtain ⟨htag, hlen, hhead, hopc, hmod⟩ := headV_eq_iff.1 (rfl : headV tag len opc h mod = _)
  exact ⟨htag.symm, hlen.symm, hhead.symm, hopc.symm, hmod.symm⟩

theorem tailV_fields (d : BitVec 4) (hi lo : BitVec 14) :
    fld (tailV d hi lo) 28 4 = d ∧ depOf (tailV d hi lo) = d ∧ slotHi (tailV d hi lo) = slotOf hi ∧ slotLo (tailV d hi lo) = slotOf lo := by
  obtain ⟨hd, hhi, hlo⟩ := tailV_eq_iff.1 (rfl : tailV d hi lo = _)
  exact ⟨hd.symm, hd.symm, congrArg slotOf hhi.symm, congrArg slotOf hlo.symm⟩

theorem subOf_tailV (d : BitVec 4) (hi : BitVec 14) (s : Sub) : subOf (tailV d hi (subV s)) = s := by
  obtain ⟨-, -, hlo⟩ := tailV_eq_iff.1 (rfl : tailV d hi (subV s) = _)
  exact (subV_eq_iff.1 hlo).symm

theorem srcCOf_tailV (d : BitVec 4) (hi : BitVec 14) (c : SrcC) : srcCOf (tailV d hi (srcCV c)) = c := by
  obtain ⟨-, -, hlo⟩ := tailV_eq_iff.1 (rfl : tailV d hi (srcCV c) = _)
  exact (srcCV_eq_iff.1 hlo).symm

/-- The fields of MOD (R91), and its bits 2 to 0. -/
theorem modV_fields (ka kb : BitVec 2) (ha hb : Bool) (es : BitVec 2) (fs : Bool) :
    (modV ka kb ha hb es fs).extractLsb' 7 2 = ka ∧ (modV ka kb ha hb es fs).extractLsb' 5 2 = kb ∧ (modV ka kb ha hb es fs).getLsbD 4 = ha ∧
      (modV ka kb ha hb es fs).getLsbD 3 = hb ∧ (modV ka kb ha hb es fs).extractLsb' 1 2 = es ∧ (modV ka kb ha hb es fs).getLsbD 2 = es.getLsbD 1 ∧
      (modV ka kb ha hb es fs).getLsbD 1 = es.getLsbD 0 ∧ (modV ka kb ha hb es fs).getLsbD 0 = fs := by
  simp (disch := decide) only [modV, BitVec.extractLsb'_append_eq_of_le, BitVec.extractLsb'_append_eq_of_add_le, BitVec.extractLsb'_eq_self,
    getLsbD_append_low, getLsbD_append_high, getLsbD_bit, Nat.reduceSub, and_self]

section
variable (tag len opc : Nat) (h : Head) (mod : BitVec 9) (d : BitVec 4) (hi lo : BitVec 14) {a n i : Nat}

theorem fld_headV_mod (ha : a + n ≤ 9) : fld (headV tag len opc h mod) a n = mod.extractLsb' a n := by
  simp only [fld, headV, wordV]
  exact BitVec.extractLsb'_append_eq_of_add_le ha

theorem getLsbD_headV_mod (hi : i < 9) : (headV tag len opc h mod).getLsbD i = mod.getLsbD i := by
  simp only [headV, wordV]
  exact getLsbD_append_low _ _ hi

theorem fld_tailV_low (ha : a + n ≤ 14) : fld (tailV d hi lo) a n = lo.extractLsb' a n := by
  simp only [fld, tailV]
  exact BitVec.extractLsb'_append_eq_of_add_le ha

theorem fld_tailV_high (ha : 14 ≤ a) (hn : a - 14 + n ≤ 14) : fld (tailV d hi lo) a n = hi.extractLsb' (a - 14) n := by
  simp only [fld, tailV]
  rw [BitVec.extractLsb'_append_eq_of_le ha, BitVec.extractLsb'_append_eq_of_add_le hn]

theorem getLsbD_tailV_low (hi14 : i < 14) : (tailV d hi lo).getLsbD i = lo.getLsbD i := by
  simp only [tailV]
  exact getLsbD_append_low _ _ hi14

theorem getLsbD_tailV_high (hi14 : 14 ≤ i) (hi28 : i - 14 < 14) : (tailV d hi lo).getLsbD i = hi.getLsbD (i - 14) := by
  simp only [tailV]
  rw [getLsbD_append_high _ _ hi14, getLsbD_append_low _ _ hi28]

end

/-! ### Rows of the opcode map

A row spells an instruction if what it builds has the words it was built from; it reads an instruction if it builds it from that instruction's words. A
shape's two directions turn on one comparison: its words are equal to the encoder's if they agree field by field, and a field that the encoder leaves 0
is one that the row's masks leave out. -/

/-- The words have the tag and the opcode of a row, and no bit that the row leaves out. -/
structure Row.Admits (r : Row) (tag opc : Nat) (w0 w1 w2 : W32) : Prop where
  tag : BitVec.ofNat 3 tag = fld w0 25 3
  len : BitVec.ofNat 2 (r.len - 1) = fld w0 23 2
  opc : BitVec.ofNat 8 opc = fld w0 9 8
  dep : r.len = 3 → fld w1 28 4 = 0#4
  mod : inMask (fld w0 0 9) r.modMask = true
  one : 2 ≤ r.len → inMask (fld w1 0 28) r.mask1 = true
  two : 3 ≤ r.len → inMask (fld w2 0 28) r.mask2 = true

/-- What the row builds from words has these words. -/
def Row.Spells (r : Row) (tag opc : Nat) : Prop :=
  ∀ w0 w1 w2 i, r.Admits tag opc w0 w1 w2 → r.build w0 w1 w2 = some i → encode i = [w0, w1, w2].take r.len

/-- The row builds the instruction from its words. -/
def Row.Reads (r : Row) (tag opc : Nat) (i : Instr) : Prop :=
  (encode i).length = r.len ∧ ∀ w0 w1 w2, encode i = [w0, w1, w2].take r.len → r.Admits tag opc w0 w1 w2 ∧ r.build w0 w1 w2 = some i

/-- The shape `d` of the decoder, in rows of `len` words with these masks, and the shape `e` of the encoder are inverse to each other. -/
@[reducible] def Codes {α : Type} (d : (α → Instr) → Build) (e : Nat → Nat → α → List W32) (len m m1 m2 : Nat) : Prop :=
  ∀ (mk : α → Instr) (tag opc : Nat), (∀ f, encode (mk f) = e tag opc f) →
    Row.Spells ⟨len, m, m1, m2, d mk⟩ tag opc ∧ ∀ f, Row.Reads ⟨len, m, m1, m2, d mk⟩ tag opc (mk f)

theorem inMask_bit_false (mask : Nat) : inMask (bit false) mask = true := inMask_zero 1 mask

/-- The shapes with two sources (R91, R92). -/
theorem codes_twoSources :
    Codes dS3 eS3 3 0x1FF 0xFFFFFFF 0xFFFFFFF ∧
    Codes dS3c eS3c 3 0x1FF 0xFFFFFFF 0xFFFFFFF ∧
    Codes dS3cmp eS3cmp 3 0x1FF 0x00FFFFF 0xFFFFFFF ∧
    Codes dSpill eSpill 3 0x1F8 0xFFC3FFF 0xFFFCFFF ∧
    Codes dAtom eAtom 3 0x1F9 0xFFFFFFF 0xFFFFE00 ∧
    Codes dAtomn eAtomn 3 0x1F9 0x3FFF 0xFFFFE00 ∧
    Codes dCas eCas 3 0x1F9 0xFFFFFFF 0xFFFFF00 ∧
    Codes dBar eBar 3 0x1F8 0x3FFF 0xFFFC000 ∧
    Codes dRand eRand 3 0x1F8 0xFFFFFFF 0xFFFC000 ∧
    Codes dQblk eQblk 3 0x1FF 0xFFFFFFF 0xFFFFFFF ∧
    Codes dDrain eDrain 3 0x1F9 0xF003FFF 0xFFFFC03 ∧
    Codes dIgen eIgen 3 0x1F8 0xF803FFF 0xFFFC000 ∧
    Codes dImap eImap 3 0x1F8 0xFFC3FFF 0xFFFC000 ∧
    Codes dIcmp eIcmp 3 0x1F9 0xFFC3FFF 0xFFFC000 ∧
    Codes dGath eGath 3 0x1F9 0xFFC3FFF 0xFFFFF00 ∧
    Codes dGseg eGseg 3 0x1FE 0xFFC3FFF 0xFFFFE00 ∧
    Codes dHld eHld 3 0x1F9 0xFFF3FFF 0xFFFFFFF ∧
    Codes dHpre eHpre 3 0x1F8 0x3FFF 0xFFFC000 ∧
    Codes dHzero eHzero 3 0x1F9 0x3FFF 0xFFFFF00 ∧
    Codes dTcopy eTcopy 3 0x1FF 0xFE03FFF 0xFFFFFFF ∧
    Codes dPushb ePushb 3 0x1FC 0xFFFFFFF 0xFFFFFFF ∧
    Codes dCopy eCopy 3 0x1F9 0xFFFFFFF 0xFFFFF00 ∧
    Codes dCopyb eCopyb 3 0x1F8 0xFFFFFFF 0xFFFFFFF := by
  and_intros
  all_goals
    refine fun mk tag opc he => ⟨?_, fun f => ⟨congrArg List.length (he f), fun w0 w1 w2 hw => ?_⟩⟩
    · rintro w0 w1 w2 i ⟨htag, hlen, hopc, hdep, hmod, hone, htwo⟩ hd
      simp only [dS3, dS3c, dS3cmp, dSpill, dAtom, dAtomn, dCas, dBar, dRand, dQblk, dDrain, dIgen, dImap, dIcmp, dGath, dGseg, dHld, dHpre, dHzero,
        dTcopy, dPushb, dCopy, dCopyb, srcA, srcB, Option.bind_eq_bind, Option.bind_eq_some_iff, srcOf_eq_some, Option.some.injEq] at hd
      obtain ⟨a, ⟨ka, va, ha⟩, b, ⟨kb, vb, hb⟩, rfl⟩ := hd
      dsimp only at hlen hdep hmod hone htwo
      replace hmod := fun _ : True => hmod
      simp (disch := decide) only [he, List.take, List.cons.injEq, eS3, eS3c, eS3cmp, eSpill, eAtom, eAtomn, eCas, eBar, eRand, eQblk, eDrain, eIgen,
        eImap, eIcmp, eGath, eGseg, eHld, eHpre, eHzero, eTcopy, ePushb, eCopy, eCopyb, mod2, headV_eq_iff, tailV_eq_iff, modV_eq_iff, slotV_eq_iff,
        subV_eq_iff, srcCV_eq_iff, append_eq_iff, extractLsb'_fld, bit_eq_fld_iff]
      simp (disch := decide) only [htag, hlen, hopc, ka, va, ha, kb, vb, hb, fld_of_inMask hmod, getLsbD_of_inMask hmod, fld_of_inMask hone,
        fld_of_inMask htwo, hdep, depOf, slotHi, slotLo, Nat.reduceAdd, and_self, BitVec.ofNat_eq_ofNat]
    · cases (he f).symm.trans hw
      constructor
      · constructor
        case dep => simp only [tailV_fields, BitVec.ofNat_eq_ofNat, implies_true]
        all_goals simp (disch := decide) only [headV_fields, tailV, implies_true, Nat.reduceLeDiff, mod2, modV, inMask_fld, inMask_append, inMask_zero,
          inMask_all, inMask_bit_false, BitVec.ofNat_eq_ofNat, Bool.and_self, Nat.reduceSub]
      · simp (disch := decide) only [dS3, dS3c, dS3cmp, dSpill, dAtom, dAtomn, dCas, dBar, dRand, dQblk, dDrain, dIgen, dImap, dIcmp, dGath, dGseg, dHld,
          dHpre, dHzero, dTcopy, dPushb, dCopy, dCopyb, srcA, srcB, headV_fields, tailV_fields, fld_headV_mod, getLsbD_headV_mod, fld_tailV_low,
          fld_tailV_high, getLsbD_tailV_low, getLsbD_tailV_high, mod2, modV_fields, BitVec.extractLsb'_append_eq_of_le,
          BitVec.extractLsb'_append_eq_of_add_le, BitVec.extractLsb'_eq_self, Nat.reduceSub, getLsbD_append_low, getLsbD_append_high, getLsbD_bit,
          subOf_tailV, srcCOf_tailV, srcOf_parts, slotOf_slotV, Option.bind_eq_bind, Option.bind_some]

/-- The shapes with one source. -/
theorem codes_oneSource :
    Codes dS3a eS3a 3 0x197 0xFFFFFFF 0x3FFF ∧
    Codes dS2r eS2r 2 0x197 0xFFFFFFF 0 ∧
    Codes dMtsr eMtsr 2 0x190 0xFFFC3FF 0 ∧
    Codes dVcvt eVcvt 3 0x197 0xFFFFFFF 0xFC03FFF ∧
    Codes dVcb eVcb 3 0x06F 0xFFFFFFF 0xFFFFFFF ∧
    Codes dQscale eQscale 3 0x197 0xFFFFFFF 0xF003FFF ∧
    Codes dLds eLds 3 0x190 0xF803FFF 0 ∧
    Codes dMsign eMsign 3 0x191 0x3FFF 0 ∧
    Codes dMma eMma 2 0x196 0x3FFF 0 ∧
    Codes dWin eWin 3 0x190 0xFFC3FFF 0 ∧
    Codes dAst eAst 3 0x190 0xFFC3FFF 0x0003E00 ∧
    Codes dAwait eAwait 2 0x069 0xFFFFFFF 0 := by
  and_intros
  all_goals
    refine fun mk tag opc he => ⟨?_, fun f => ⟨congrArg List.length (he f), fun w0 w1 w2 hw => ?_⟩⟩
    · rintro w0 w1 w2 i ⟨htag, hlen, hopc, hdep, hmod, hone, htwo⟩ hd
      simp only [dS3a, dS2r, dMtsr, dVcvt, dVcb, dQscale, dLds, dMsign, dMma, dWin, dAst, dAwait, srcA, srcB, Option.bind_eq_bind, Option.bind_eq_some_iff,
        srcOf_eq_some, Option.some.injEq] at hd
      obtain ⟨a, ⟨ka, va, ha⟩, rfl⟩ := hd
      dsimp only at hlen hdep hmod hone htwo
      replace hmod := fun _ : True => hmod
      simp (disch := decide) only [he, List.take, List.cons.injEq, eS3a, eS2r, eMtsr, eVcvt, eVcb, eQscale, eLds, eMsign, eMma, eWin, eAst, eAwait, mod1,
        modB, headV_eq_iff, tailV_eq_iff, modV_eq_iff, slotV_eq_iff, subV_eq_iff, append_eq_iff, extractLsb'_fld, bit_eq_fld_iff]
      simp (disch := decide) only [htag, hlen, hopc, ka, va, ha, fld_of_inMask hmod, getLsbD_of_inMask hmod, fld_of_inMask hone, fld_of_inMask htwo, hdep,
        depOf, slotHi, slotLo, Nat.reduceAdd, and_self, BitVec.ofNat_eq_ofNat]
    · cases (he f).symm.trans hw
      constructor
      · constructor
        case dep => simp only [tailV_fields, BitVec.ofNat_eq_ofNat, implies_true, false_implies, Nat.reduceEqDiff]
        all_goals simp (disch := decide) only [headV_fields, tailV, implies_true, false_implies, Nat.reduceLeDiff, mod1, modB, modV, inMask_fld,
          inMask_append, inMask_zero, inMask_all, inMask_bit_false, BitVec.ofNat_eq_ofNat, Bool.and_self, Nat.reduceSub]
      · simp (disch := decide) only [dS3a, dS2r, dMtsr, dVcvt, dVcb, dQscale, dLds, dMsign, dMma, dWin, dAst, dAwait, srcA, srcB, headV_fields,
          tailV_fields, fld_headV_mod, getLsbD_headV_mod, fld_tailV_low, fld_tailV_high, getLsbD_tailV_low, getLsbD_tailV_high, mod1, modB, modV_fields,
          BitVec.extractLsb'_append_eq_of_le, BitVec.extractLsb'_append_eq_of_add_le, BitVec.extractLsb'_eq_self, Nat.reduceSub, getLsbD_append_low,
          getLsbD_append_high, getLsbD_bit, subOf_tailV, srcOf_parts, slotOf_slotV, Option.bind_eq_bind, Option.bind_some]

/-- The shapes without a source. -/
theorem codes_noSource :
    Codes dF1 eF1 1 0 0 0 ∧
    Codes dPmov ePmov 2 0x03F 0xFFFFC00 0 ∧
    Codes dGetw eGetw 2 0x01F 0xFFFC000 0 ∧
    Codes dFence eFence 1 0x01F 0 0 ∧
    Codes dQfence eQfence 1 0x07F 0 0 ∧
    Codes dTffr eTffr 2 0x003 0xFFFFFFF 0 ∧
    Codes dTrap eTrap 1 0x0FF 0 0 ∧
    Codes dSegst eSegst 2 0x007 0xFFFC000 0 ∧
    Codes dMfsr eMfsr 2 0 0xFFFC3FF 0 ∧
    Codes dRd eRd 2 0 0xFFFC000 0 ∧
    Codes dHint eHint 1 0x003 0 0 ∧
    Codes dCbqry eCbqry 2 0x07F 0xFFFC000 0 ∧
    Codes dQdeq eQdeq 3 0x007 0xFFFFFFF 0x3FFF ∧
    Codes dLdsc eLdsc 3 0 0xF800000 0 ∧
    Codes dAccClr eAccClr 1 0x001 0 0 := by
  and_intros
  all_goals
    refine fun mk tag opc he => ⟨?_, fun f => ⟨congrArg List.length (he f), fun w0 w1 w2 hw => ?_⟩⟩
    · rintro w0 w1 w2 i ⟨htag, hlen, hopc, hdep, hmod, hone, htwo⟩ hd
      simp only [dF1, dPmov, dGetw, dFence, dQfence, dTffr, dTrap, dSegst, dMfsr, dRd, dHint, dCbqry, dQdeq, dLdsc, dAccClr, Option.some.injEq] at hd
      obtain rfl := hd
      dsimp only at hlen hdep hmod hone htwo
      replace hmod := fun _ : True => hmod
      simp (disch := decide) only [he, List.take, List.cons.injEq, eF1, ePmov, eGetw, eFence, eQfence, eTffr, eTrap, eSegst, eMfsr, eRd, eHint, eCbqry,
        eQdeq, eLdsc, eAccClr, headV_eq_iff, tailV_eq_iff, modV_eq_iff, slotV_eq_iff, subV_eq_iff, append_eq_iff, extractLsb'_fld, bit_eq_fld_iff]
      simp (disch := decide) only [htag, hlen, hopc, fld_of_inMask hmod, getLsbD_of_inMask hmod, fld_of_inMask hone, fld_of_inMask htwo, hdep, depOf,
        slotHi, slotLo, Nat.reduceAdd, and_self, BitVec.ofNat_eq_ofNat]
    · cases (he f).symm.trans hw
      constructor
      · constructor
        case dep => simp only [tailV_fields, BitVec.ofNat_eq_ofNat, implies_true, false_implies, Nat.reduceEqDiff]
        all_goals simp (disch := decide) only [headV_fields, tailV, implies_true, false_implies, Nat.reduceLeDiff, modV, inMask_fld, inMask_append,
          inMask_zero, inMask_all, inMask_bit_false, BitVec.ofNat_eq_ofNat, Bool.and_self, Nat.reduceSub]
      · simp (disch := decide) only [dF1, dPmov, dGetw, dFence, dQfence, dTffr, dTrap, dSegst, dMfsr, dRd, dHint, dCbqry, dQdeq, dLdsc, dAccClr,
          headV_fields, tailV_fields, fld_headV_mod, getLsbD_headV_mod, fld_tailV_low, fld_tailV_high, getLsbD_tailV_high, modV_fields,
          BitVec.extractLsb'_append_eq_of_le, BitVec.extractLsb'_append_eq_of_add_le, BitVec.extractLsb'_eq_self, Nat.reduceSub, getLsbD_append_low,
          getLsbD_append_high, getLsbD_bit, subOf_tailV, slotOf_slotV]

/-- CBSET, TCVT and PLOG, whose payloads are not two fields of 14 bits. -/
theorem codes_packed :
    Codes dCbset eCbset 3 0 0xFF7FFFF 0xFFFFFFF ∧
    Codes dTcvt eTcvt 3 0x00F 0xFFFF000 0 ∧
    Codes dPlog ePlog 2 0x00F 0xFFF0000 0 := by
  and_intros
  all_goals
    refine fun mk tag opc he => ⟨?_, fun f => ⟨congrArg List.length (he f), fun w0 w1 w2 hw => ?_⟩⟩
    · rintro w0 w1 w2 i ⟨htag, hlen, hopc, hdep, hmod, hone, htwo⟩ hd
      simp only [dCbset, dTcvt, dPlog, Option.some.injEq] at hd
      obtain rfl := hd
      dsimp only at hlen hdep hmod hone htwo
      replace hmod := fun _ : True => hmod
      simp (disch := decide) only [he, List.take, List.cons.injEq, eCbset, eTcvt, ePlog, headV_eq_iff, tailV_eq_iff, append_eq_iff, extractLsb'_eq_fld,
        extractLsb'_fld, bit_eq_fld_iff]
      simp (disch := decide) only [htag, hlen, hopc, fld_of_inMask hmod, fld_of_inMask hone, fld_of_inMask htwo, hdep, depOf, Nat.reduceAdd, and_self,
        BitVec.ofNat_eq_ofNat]
    · cases (he f).symm.trans hw
      constructor
      · constructor
        case dep => simp (disch := decide) only [fld, BitVec.extractLsb'_append_eq_of_le, BitVec.extractLsb'_eq_self, Nat.reduceSub, implies_true,
          false_implies, Nat.reduceEqDiff]
        all_goals simp (disch := decide) only [headV_fields, tailV, implies_true, false_implies, Nat.reduceLeDiff, inMask_fld, inMask_append, inMask_zero,
          inMask_all, BitVec.ofNat_eq_ofNat, Bool.and_self, Nat.reduceSub]
      · simp (disch := decide) only [dCbset, dTcvt, dPlog, headV_fields, depOf, tailV_fields, fld_headV_mod, getLsbD_headV_mod, getLsbD_append_low,
          getLsbD_append_high, getLsbD_bit, Nat.reduceSub]
        simp (disch := decide) only [fld, BitVec.extractLsb'_append_eq_of_le, BitVec.extractLsb'_append_eq_of_add_le, BitVec.extractLsb'_eq_self,
          Nat.reduceSub]

/-- PUSH and COLL, with one source and a payload of their own. -/
theorem codes_packedSource :
    Codes dPush ePush 3 0x06C 0xFFFF800 0xFFFC000 ∧
    Codes dColl eColl 3 0x191 0xFFC3FFF 0 := by
  and_intros
  all_goals
    refine fun mk tag opc he => ⟨?_, fun f => ⟨congrArg List.length (he f), fun w0 w1 w2 hw => ?_⟩⟩
    · rintro w0 w1 w2 i ⟨htag, hlen, hopc, hdep, hmod, hone, htwo⟩ hd
      simp only [dPush, dColl, srcA, srcB, Option.bind_eq_bind, Option.bind_eq_some_iff, srcOf_eq_some, Option.some.injEq] at hd
      obtain ⟨a, ⟨ka, va, ha⟩, rfl⟩ := hd
      dsimp only at hlen hdep hmod hone htwo
      replace hmod := fun _ : True => hmod
      simp (disch := decide) only [he, List.take, List.cons.injEq, ePush, eColl, mod1, modB, headV_eq_iff, tailV_eq_iff, modV_eq_iff, append_eq_iff,
        extractLsb'_eq_fld, extractLsb'_fld, bit_eq_fld_iff]
      simp (disch := decide) only [htag, hlen, hopc, ka, va, ha, fld_of_inMask hmod, getLsbD_of_inMask hmod, fld_of_inMask hone, fld_of_inMask htwo, hdep,
        depOf, Nat.reduceAdd, and_self, BitVec.ofNat_eq_ofNat]
    · cases (he f).symm.trans hw
      constructor
      · constructor
        case dep => simp (disch := decide) only [fld, BitVec.extractLsb'_append_eq_of_le, BitVec.extractLsb'_eq_self, Nat.reduceSub, implies_true]
        all_goals simp (disch := decide) only [headV_fields, tailV, implies_true, Nat.reduceLeDiff, mod1, modB, modV, inMask_fld, inMask_append,
          inMask_zero, inMask_all, inMask_bit_false, BitVec.ofNat_eq_ofNat, Bool.and_self, Nat.reduceSub]
      · simp (disch := decide) only [dPush, dColl, srcA, srcB, headV_fields, tailV_fields, fld_headV_mod, getLsbD_headV_mod, fld_tailV_high, mod1, modB,
          modV_fields, BitVec.extractLsb'_eq_self, Nat.reduceSub, getLsbD_append_low, getLsbD_append_high, getLsbD_bit]
        simp (disch := decide) only [fld, BitVec.extractLsb'_append_eq_of_le, BitVec.extractLsb'_append_eq_of_add_le, BitVec.extractLsb'_eq_self,
          Nat.reduceSub, srcOf_parts, Option.bind_eq_bind, Option.bind_some]

/-- A clear bit may be left out of the mask. -/
theorem inMask_of_clear {p : Prop} {w : W32} {m mask : Nat} (hw : p → inMask (fld w 0 m) mask = true) {i : Nat} (hi : w.getLsbD i = false) (mask' : Nat)
    (hm : ∀ j < m, mask.testBit j = true → j ≠ i → mask'.testBit j = true) (hp : p) : inMask (fld w 0 m) mask' = true := by
  rw [inMask_iff]
  intro j hj hv
  refine hm j hj (inMask_iff.1 (hw hp) j hj hv) ?_
  rintro rfl
  simp [fld, hi] at hv

theorem fld_one_eq {w : W32} {i : Nat} {b : Bool} (h : w.getLsbD i = b) : fld w i 1 = bit b := (bit_eq_fld_iff.2 h.symm).symm

theorem getLsbD_of_fld {w : W32} {a n : Nat} {v : BitVec n} (h : fld w a n = v) (i : Nat) (hi : i < n) : w.getLsbD (a + i) = v.getLsbD i := by
  rw [← h, fld, BitVec.getLsbD_extractLsb', decide_eq_true hi, Bool.true_and]

theorem maskArg_eq_some {o : Bool} {w : W32} {m : MaskArg} : maskArg o w = some m ↔ isOne m = o ∧ eMaskArg m = fld w 0 14 := by
  cases o <;> cases m
  case false.one => simp [maskArg, isOne]
  case false.slot o => simp [maskArg, isOne, eMaskArg, slotV_eq_iff, slotLo, @eq_comm _ o]
  case true.one t =>
    have hparts : 0#8 ++ t = fld w 0 14 ↔ 0#8 = fld w 6 8 ∧ t = fld w 0 6 := by
      simp (disch := decide) only [append_eq_iff, extractLsb'_fld, Nat.zero_add]
    simp [maskArg, isOne, eMaskArg, hparts, @eq_comm _ t, @eq_comm _ (0#8)]
  case true.slot => simp [maskArg, isOne]

theorem maskArg_parts (m : MaskArg) (d : BitVec 4) (hi : BitVec 14) : maskArg (isOne m) (tailV d hi (eMaskArg m)) = some m := by
  obtain ⟨-, -, hlo⟩ := tailV_eq_iff.1 (rfl : tailV d hi (eMaskArg m) = _)
  exact maskArg_eq_some.2 ⟨rfl, hlo⟩

/-- TWAIT and TCLR, with a tag mask. -/
theorem codes_maskArg :
    Codes dTwait eTwait 2 7 0x3FFF 0 ∧
    Codes dTclr eTclr 2 4 0x3FFF 0 := by
  and_intros
  all_goals
    refine fun mk tag opc he => ⟨?_, fun f => ⟨congrArg List.length (he f), fun w0 w1 w2 hw => ?_⟩⟩
    · rintro w0 w1 w2 i ⟨htag, hlen, hopc, -, hmod, hone, -⟩ hd
      simp only [dTwait, dTclr, Option.bind_eq_bind, Option.bind_eq_some_iff, maskArg_eq_some, Option.some.injEq] at hd
      obtain ⟨a, ⟨ha, va⟩, rfl⟩ := hd
      dsimp only at hlen hmod hone
      replace hmod := fun _ : True => hmod
      simp (disch := decide) only [he, List.take, List.cons.injEq, eTwait, eTclr, headV_eq_iff, tailV_eq_iff, append_eq_iff, extractLsb'_fld,
        bit_eq_fld_iff]
      simp (disch := decide) only [htag, hlen, hopc, ha, va, fld_of_inMask hmod, fld_of_inMask hone, depOf, Nat.reduceAdd, and_self, BitVec.ofNat_eq_ofNat]
    · cases (he f).symm.trans hw
      constructor
      · constructor
        case dep => simp only [Nat.reduceEqDiff, false_implies]
        all_goals simp (disch := decide) only [headV_fields, tailV, implies_true, false_implies, Nat.reduceLeDiff, inMask_fld, inMask_append, inMask_zero,
          inMask_all, BitVec.ofNat_eq_ofNat, Bool.and_self, Nat.reduceSub]
      · simp (disch := decide) only [dTwait, dTclr, headV_fields, tailV_fields, getLsbD_headV_mod, maskArg_parts, Nat.reduceSub, getLsbD_append_low,
          getLsbD_append_high, getLsbD_bit, Option.bind_eq_bind, Option.bind_some]

theorem setwImm_fields (d : BitVec 4) (v : BitVec 15) : depOf (d ++ 0#13 ++ v) = d ∧ fld (d ++ 0#13 ++ v) 0 15 = v := by
  simp (disch := decide) only [depOf, fld, BitVec.extractLsb'_append_eq_of_le, BitVec.extractLsb'_append_eq_of_add_le, BitVec.extractLsb'_eq_self,
    Nat.reduceSub, and_self]

theorem codes_setw : Codes dSetw eSetw 2 0x07F 0x0007FFF 0 := by
  refine fun mk tag opc he => ⟨?_, fun f => ⟨?_, fun w0 w1 w2 hw => ?_⟩⟩
  · rintro w0 w1 w2 i ⟨htag, hlen, hopc, -, hmod, hone, -⟩ hd
    dsimp only at hlen hmod hone
    replace hmod := fun _ : True => hmod
    simp only [dSetw] at hd
    split_ifs at hd with h5 h14 <;> cases hd
    · replace hone := inMask_of_clear hone (getLsbD_of_fld h14 0 (by decide)) 0x3FFF (by decide)
      simp (disch := decide) only [eSetw, he, List.take, List.cons.injEq, headV_eq_iff, tailV_eq_iff, append_eq_iff, extractLsb'_fld, bit_eq_fld_iff,
        slotV_eq_iff]
      simp (disch := decide) only [fld_one_eq h5, bit, BitVec.ofBool_true, htag, hlen, hopc, fld_of_inMask hmod, fld_of_inMask hone, depOf, slotLo,
        Nat.reduceAdd, and_self, BitVec.ofNat_eq_ofNat]
    · rw [Bool.not_eq_true] at h5
      simp (disch := decide) only [eSetw, he, List.take, List.cons.injEq, headV_eq_iff, append_eq_iff, extractLsb'_eq_fld, extractLsb'_fld, bit_eq_fld_iff]
      simp (disch := decide) only [fld_one_eq h5, bit, BitVec.ofBool_false, htag, hlen, hopc, fld_of_inMask hmod, fld_of_inMask hone, depOf, Nat.reduceAdd,
        and_self, BitVec.ofNat_eq_ofNat]
  · rw [he, eSetw]
    split <;> rfl
  · rw [he, eSetw] at hw
    obtain ⟨h, dep, t, w, add, _ | _⟩ := f
    all_goals
      dsimp only at hw
      cases hw
      constructor
      · constructor
        case dep => simp only [Nat.reduceEqDiff, false_implies]
        all_goals simp (disch := decide) only [headV_fields, tailV, implies_true, false_implies, Nat.reduceLeDiff, inMask_fld, inMask_append, inMask_zero,
          inMask_all, BitVec.ofNat_eq_ofNat, Bool.and_self, Nat.reduceSub]
      · simp (disch := decide) only [dSetw, setwImm_fields, headV_fields, tailV_fields, fld_headV_mod, getLsbD_headV_mod, fld_tailV_high, slotOf_slotV,
          Nat.reduceSub, getLsbD_append_low, getLsbD_append_high, getLsbD_bit, BitVec.extractLsb'_append_eq_of_le, BitVec.extractLsb'_append_eq_of_add_le,
          BitVec.extractLsb'_eq_self]
        rfl

theorem codes_pace : Codes dPace ePace 2 0xF 0x3FFF 0 := by
  refine fun mk tag opc he => ⟨?_, fun f => ⟨?_, fun w0 w1 w2 hw => ?_⟩⟩
  · rintro w0 w1 w2 i ⟨htag, hlen, hopc, -, hmod, hone, -⟩ hd
    dsimp only at hlen hmod hone
    replace hmod := fun _ : True => hmod
    simp only [dPace] at hd
    split_ifs at hd with h3 h8 <;> cases hd
    · simp (disch := decide) only [ePace, he, List.take, List.cons.injEq, headV_eq_iff, tailV_eq_iff, append_eq_iff, extractLsb'_fld, slotV_eq_iff]
      simp (disch := decide) only [fld_one_eq h3, bit, BitVec.ofBool_true, htag, hlen, hopc, fld_of_inMask hmod, fld_of_inMask hone, depOf, slotLo,
        Nat.reduceAdd, and_self, BitVec.ofNat_eq_ofNat]
    · replace hmod := inMask_of_clear hmod (Bool.eq_false_of_not_eq_true h3) 7 (by decide)
      simp (disch := decide) only [ePace, he, List.take, List.cons.injEq, headV_eq_iff, tailV_eq_iff, append_eq_iff, extractLsb'_fld]
      simp (disch := decide) only [h8, htag, hlen, hopc, fld_of_inMask hmod, fld_of_inMask hone, depOf, Nat.reduceAdd, and_self, BitVec.ofNat_eq_ofNat]
  · rw [he, ePace]
    split <;> rfl
  · rw [he, ePace] at hw
    obtain ⟨h, dep, t, _ | _⟩ := f
    all_goals
      dsimp only at hw
      cases hw
      constructor
      · constructor
        case dep => simp only [Nat.reduceEqDiff, false_implies]
        all_goals simp (disch := decide) only [headV_fields, tailV, implies_true, false_implies, Nat.reduceLeDiff, inMask_fld, inMask_append, inMask_zero,
          inMask_all, BitVec.ofNat_eq_ofNat, Bool.and_self, Nat.reduceSub]
      · simp (disch := decide) only [dPace, headV_fields, tailV_fields, fld_headV_mod, getLsbD_headV_mod, fld_tailV_low, slotOf_slotV, Nat.reduceSub,
          getLsbD_append_low, getLsbD_append_high, BitVec.extractLsb'_append_eq_of_le, BitVec.extractLsb'_append_eq_of_add_le, BitVec.extractLsb'_eq_self]
        rfl

theorem codes_cbadv : Codes dCbadv eCbadv 2 0x3F 0x3FFF 0 := by
  refine fun mk tag opc he => ⟨?_, fun f => ⟨?_, fun w0 w1 w2 hw => ?_⟩⟩
  · rintro w0 w1 w2 i ⟨htag, hlen, hopc, -, hmod, hone, -⟩ hd
    dsimp only at hlen hmod hone
    replace hmod := fun _ : True => hmod
    simp only [dCbadv] at hd
    split_ifs at hd with h5 h12 <;> cases hd
    · simp (disch := decide) only [eCbadv, he, List.take, List.cons.injEq, headV_eq_iff, tailV_eq_iff, append_eq_iff, extractLsb'_fld, bit_eq_fld_iff]
      simp (disch := decide) only [fld_one_eq h5, h12, bit, BitVec.ofBool_true, htag, hlen, hopc, fld_of_inMask hmod, fld_of_inMask hone, depOf,
        Nat.reduceAdd, and_self, BitVec.ofNat_eq_ofNat]
    · replace hmod := inMask_of_clear hmod (Bool.eq_false_of_not_eq_true h5) 0x1F (by decide)
      simp (disch := decide) only [eCbadv, he, List.take, List.cons.injEq, headV_eq_iff, tailV_eq_iff, append_eq_iff, extractLsb'_fld, bit_eq_fld_iff,
        slotV_eq_iff]
      simp (disch := decide) only [htag, hlen, hopc, fld_of_inMask hmod, fld_of_inMask hone, depOf, slotLo, Nat.reduceAdd, and_self, BitVec.ofNat_eq_ofNat]
  · rw [he, eCbadv]
    split <;> rfl
  · rw [he, eCbadv] at hw
    obtain ⟨h, dep, cb, cons, _ | _⟩ := f
    all_goals
      dsimp only at hw
      cases hw
      constructor
      · constructor
        case dep => simp only [Nat.reduceEqDiff, false_implies]
        all_goals simp (disch := decide) only [headV_fields, tailV, implies_true, false_implies, Nat.reduceLeDiff, inMask_fld, inMask_append, inMask_zero,
          inMask_all, BitVec.ofNat_eq_ofNat, Bool.and_self, Nat.reduceSub]
      · simp (disch := decide) only [dCbadv, headV_fields, tailV_fields, fld_headV_mod, getLsbD_headV_mod, fld_tailV_low, slotOf_slotV, Nat.reduceSub,
          getLsbD_append_low, getLsbD_append_high, getLsbD_bit, BitVec.extractLsb'_append_eq_of_le, BitVec.extractLsb'_append_eq_of_add_le,
          BitVec.extractLsb'_eq_self]
        rfl

theorem codes_bwait : Codes dBwait eBwait 2 3 0xFFFFFFF 0 := by
  refine fun mk tag opc he => ⟨?_, fun f => ⟨?_, fun w0 w1 w2 hw => ?_⟩⟩
  · rintro w0 w1 w2 i ⟨htag, hlen, hopc, -, hmod, hone, -⟩ hd
    dsimp only at hlen hmod hone
    replace hmod := fun _ : True => hmod
    simp only [dBwait] at hd
    split_ifs at hd with h1 h14 <;> cases hd
    · simp (disch := decide) only [eBwait, he, List.take, List.cons.injEq, headV_eq_iff, tailV_eq_iff, append_eq_iff, extractLsb'_fld, bit_eq_fld_iff,
        slotV_eq_iff]
      simp (disch := decide) only [fld_one_eq h1, bit, BitVec.ofBool_true, htag, hlen, hopc, fld_of_inMask hmod, depOf, slotLo, slotHi, Nat.reduceAdd,
        and_self, BitVec.ofNat_eq_ofNat]
    · replace hmod := inMask_of_clear hmod (Bool.eq_false_of_not_eq_true h1) 1 (by decide)
      simp (disch := decide) only [eBwait, he, List.take, List.cons.injEq, headV_eq_iff, tailV_eq_iff, append_eq_iff, extractLsb'_fld, bit_eq_fld_iff,
        slotV_eq_iff]
      simp (disch := decide) only [h14, htag, hlen, hopc, fld_of_inMask hmod, depOf, slotLo, Nat.reduceAdd, and_self, BitVec.ofNat_eq_ofNat]
  · rw [he, eBwait]
    split <;> rfl
  · rw [he, eBwait] at hw
    obtain ⟨h, dep, p, _ | _, a⟩ := f
    all_goals
      dsimp only at hw
      cases hw
      constructor
      · constructor
        case dep => simp only [Nat.reduceEqDiff, false_implies]
        all_goals simp (disch := decide) only [headV_fields, tailV, implies_true, false_implies, Nat.reduceLeDiff, inMask_fld, inMask_append, inMask_zero,
          inMask_all, BitVec.ofNat_eq_ofNat, Bool.and_self, Nat.reduceSub]
      · simp (disch := decide) only [dBwait, headV_fields, tailV_fields, getLsbD_headV_mod, fld_tailV_high, slotOf_slotV, Nat.reduceSub,
          getLsbD_append_low, getLsbD_append_high, getLsbD_bit, BitVec.extractLsb'_eq_self]
        rfl

theorem ones_fields {w : W32} (h : fld w 0 3 = 7) : fld w 1 2 = 3 ∧ w.getLsbD 0 = true := by
  constructor
  · rw [← Nat.zero_add 1, ← extractLsb'_fld w 0 (by decide : 1 + 2 ≤ 3), h]
    rfl
  · exact getLsbD_of_fld h 0 (by decide)

theorem fp32Fixed_iff {w0 w2 : W32} : fp32Fixed w0 w2 = true ↔ fld w0 0 3 = 7 ∧ fld w2 2 3 = 6 := by
  simp [fp32Fixed]

theorem modV_fixed (ka kb : BitVec 2) (ha hb : Bool) : (modV ka kb ha hb 3 true).extractLsb' 0 3 = 7 := by
  revert ka kb ha hb
  decide

theorem codes_dscale : Codes dDscale eDscale 3 0x1FF 0x3FFF 0xFFFC01B := by
  refine fun mk tag opc he => ⟨?_, fun f => ⟨congrArg List.length (he f), fun w0 w1 w2 hw => ?_⟩⟩
  · rintro w0 w1 w2 i ⟨htag, hlen, hopc, hdep, hmod, hone, htwo⟩ hd
    simp only [dDscale, srcA, srcB, Option.bind_eq_bind, Option.bind_eq_some_iff, srcOf_eq_some, fp32Fixed_iff] at hd
    obtain ⟨a, ⟨ka, va, ha⟩, b, ⟨kb, vb, hb⟩, hd⟩ := hd
    split_ifs at hd with hfix
    cases hd
    obtain ⟨hes, hfs⟩ := ones_fields hfix.1
    obtain ⟨-, hfmt⟩ := hfix
    dsimp only at hlen hdep hmod hone htwo
    simp (disch := decide) only [he, List.take, List.cons.injEq, eDscale, mod2, headV_eq_iff, tailV_eq_iff, modV_eq_iff, append_eq_iff, extractLsb'_fld,
      bit_eq_fld_iff]
    simp (disch := decide) only [htag, hlen, hopc, ka, va, ha, kb, vb, hb, hes, hfs, hfmt, fld_of_inMask hone, fld_of_inMask htwo, hdep, depOf,
      Nat.reduceAdd, and_self, BitVec.ofNat_eq_ofNat]
  · cases (he f).symm.trans hw
    constructor
    · constructor
      case dep => simp only [tailV_fields, BitVec.ofNat_eq_ofNat, implies_true]
      all_goals simp (disch := decide) only [headV_fields, tailV, implies_true, Nat.reduceLeDiff, inMask_fld, inMask_append, inMask_zero, inMask_all,
        BitVec.ofNat_eq_ofNat, Bool.and_self, Nat.reduceSub]
      case two => decide
    · simp (disch := decide) only [dDscale, srcA, srcB, headV_fields, tailV_fields, fld_headV_mod, getLsbD_headV_mod, fld_tailV_low, fld_tailV_high,
        getLsbD_tailV_low, mod2, modV_fields, BitVec.extractLsb'_append_eq_of_le, BitVec.extractLsb'_append_eq_of_add_le, BitVec.extractLsb'_eq_self,
        Nat.reduceSub, getLsbD_append_low, getLsbD_append_high, getLsbD_bit, srcOf_parts, Option.bind_eq_bind, Option.bind_some, fp32Fixed_iff, modV_fixed]
      rfl

/-- DAMAX: its sources hold nothing (R100). -/
theorem codes_damax (mk : DamaxF → Instr) (tag opc : Nat) (he : ∀ f, encode (mk f) = eDamax tag opc f) :
    Row.Spells ⟨3, 0x1E7, 0xFFFFFFF, 0xFFFC019, dDamax mk⟩ tag opc ∧
      ∀ f, f.row.hold = false → f.n.hold = false → Row.Reads ⟨3, 0x1E7, 0xFFFFFFF, 0xFFFC019, dDamax mk⟩ tag opc (mk f) := by
  refine ⟨?_, fun f hrow hn => ⟨congrArg List.length (he f), fun w0 w1 w2 hw => ?_⟩⟩
  · rintro w0 w1 w2 i ⟨htag, hlen, hopc, hdep, hmod, hone, htwo⟩ hd
    simp only [dDamax, srcA, srcB, Option.bind_eq_bind, Option.bind_eq_some_iff, srcOf_eq_some, fp32Fixed_iff] at hd
    obtain ⟨a, ⟨ka, va, ha⟩, b, ⟨kb, vb, hb⟩, hd⟩ := hd
    split_ifs at hd with hfix
    cases hd
    obtain ⟨hes, hfs⟩ := ones_fields hfix.1
    obtain ⟨-, hfmt⟩ := hfix
    dsimp only at hlen hdep hmod hone htwo
    simp (disch := decide) only [he, List.take, List.cons.injEq, eDamax, mod2, headV_eq_iff, tailV_eq_iff, modV_eq_iff, append_eq_iff, extractLsb'_fld,
      bit_eq_fld_iff, slotV_eq_iff]
    simp (disch := decide) only [htag, hlen, hopc, ka, va, ha, kb, vb, hb, hes, hfs, hfmt, fld_of_inMask htwo, slotHi, hdep, depOf, Nat.reduceAdd,
      and_self, BitVec.ofNat_eq_ofNat]
  · cases (he f).symm.trans hw
    constructor
    · constructor
      case dep => simp only [tailV_fields, BitVec.ofNat_eq_ofNat, implies_true]
      case mod =>
        simp (disch := decide) only [headV_fields, mod2, modV, hrow, hn, inMask_append, inMask_all, inMask_bit_false, Bool.and_self]
      case two =>
        simp (disch := decide) only [tailV, Nat.reduceLeDiff, inMask_fld, inMask_append, inMask_zero, inMask_all]
        decide
      all_goals simp (disch := decide) only [headV_fields, tailV, implies_true, Nat.reduceLeDiff, inMask_all, BitVec.ofNat_eq_ofNat, Nat.reduceSub]
    · simp (disch := decide) only [dDamax, srcA, srcB, headV_fields, tailV_fields, fld_headV_mod, getLsbD_headV_mod, fld_tailV_low, fld_tailV_high,
        getLsbD_tailV_low, mod2, modV_fields, BitVec.extractLsb'_append_eq_of_le, BitVec.extractLsb'_append_eq_of_add_le, BitVec.extractLsb'_eq_self,
        Nat.reduceSub, getLsbD_append_low, getLsbD_bit, srcOf_parts, slotOf_slotV, Option.bind_eq_bind, Option.bind_some, fp32Fixed_iff, modV_fixed]
      rfl

/-- ACCRD and ACCWR: the index holds nothing (R100). -/
theorem codes_acc (mk : AccF → Instr) (tag opc : Nat) (he : ∀ f, encode (mk f) = eAcc tag opc f) :
    Row.Spells ⟨3, 0x180, 0xFFFFFFF, 1, dAcc mk⟩ tag opc ∧ ∀ f, f.i.hold = false → Row.Reads ⟨3, 0x180, 0xFFFFFFF, 1, dAcc mk⟩ tag opc (mk f) := by
  refine ⟨?_, fun f hi => ⟨congrArg List.length (he f), fun w0 w1 w2 hw => ?_⟩⟩
  · rintro w0 w1 w2 i ⟨htag, hlen, hopc, hdep, hmod, hone, htwo⟩ hd
    simp only [dAcc, srcA, Option.bind_eq_bind, Option.bind_eq_some_iff, srcOf_eq_some, Option.some.injEq] at hd
    obtain ⟨a, ⟨ka, va, ha⟩, rfl⟩ := hd
    dsimp only at hlen hdep hmod hone htwo
    replace hmod := fun _ : True => hmod
    simp (disch := decide) only [he, List.take, List.cons.injEq, eAcc, mod1, headV_eq_iff, tailV_eq_iff, modV_eq_iff, append_eq_iff, extractLsb'_fld,
      bit_eq_fld_iff, slotV_eq_iff]
    simp (disch := decide) only [htag, hlen, hopc, ka, va, ha, fld_of_inMask hmod, getLsbD_of_inMask hmod, fld_of_inMask htwo, slotHi, hdep, depOf,
      Nat.reduceAdd, and_self, BitVec.ofNat_eq_ofNat]
  · cases (he f).symm.trans hw
    constructor
    · constructor
      case dep => simp only [tailV_fields, BitVec.ofNat_eq_ofNat, implies_true]
      all_goals simp (disch := decide) only [headV_fields, tailV, mod1, modV, hi, inMask_bit_false, implies_true, Nat.reduceLeDiff, inMask_fld,
        inMask_append, inMask_zero, inMask_all, BitVec.ofNat_eq_ofNat, Bool.and_self, Nat.reduceSub]
    · simp (disch := decide) only [dAcc, srcA, headV_fields, tailV_fields, fld_headV_mod, getLsbD_headV_mod, fld_tailV_low, getLsbD_tailV_low, mod1,
        modV_fields, BitVec.extractLsb'_eq_self, getLsbD_append_low, getLsbD_bit, srcOf_parts, slotOf_slotV, Option.bind_eq_bind, Option.bind_some]

theorem movi_es {w : W32} {hi : Bool} (h : fld w 1 2 = 0#1 ++ bit hi) : 0#1 = fld w 2 1 ∧ hi = w.getLsbD 1 := by
  have h2 := getLsbD_of_fld h 1 (by decide)
  have h1 := getLsbD_of_fld h 0 (by decide)
  rw [getLsbD_append_high _ _ (by decide)] at h2
  rw [getLsbD_append_low _ _ (by decide), getLsbD_bit] at h1
  exact ⟨(fld_one_eq h2).symm, h1.symm⟩

theorem eMovi_of_admits {w0 w1 w2 : W32} {hi : Bool} {b : Build} (h : Row.Admits ⟨3, 0x187, 0xFFFFFFF, 0xFFFFFFF, b⟩ 0 20 w0 w1 w2) (hk : fld w0 7 2 = 3)
    (hes : fld w0 1 2 = 0#1 ++ bit hi) :
    eMovi hi { h := headOf w0, dep := depOf w2, fs := w0.getLsbD 0, dst := slotHi w1, imm := fld w1 0 14 ++ fld w2 0 28 } = [w0, w1, w2] := by
  obtain ⟨htag, hlen, hopc, hdep, hmod, -, -⟩ := h
  dsimp only at hlen hdep hmod
  replace hmod := fun _ : True => hmod
  obtain ⟨h2, h1⟩ := movi_es hes
  simp (disch := decide) only [eMovi, List.cons.injEq, headV_eq_iff, tailV_eq_iff, modV_eq_iff, append_eq_iff, extractLsb'_eq_fld, extractLsb'_fld,
    bit_eq_fld_iff, slotV_eq_iff, BitVec.extractLsb'_append_eq_of_le, BitVec.extractLsb'_append_eq_of_add_le]
  simp (disch := decide) only [htag, hlen, hopc, hk, h2.symm, h1.symm, fld_of_inMask hmod, getLsbD_of_inMask hmod, slotHi, hdep, depOf, Nat.reduceAdd,
    and_self, BitVec.ofNat_eq_ofNat]

/-- MOVI and MOVI.hi share an opcode; KA is that of an immediate, and ES says which it is (R134). -/
theorem spells_movi : Row.Spells ⟨3, 0x187, 0xFFFFFFF, 0xFFFFFFF, dMovi⟩ 0 20 := by
  intro w0 w1 w2 i h hd
  simp only [dMovi] at hd
  split_ifs at hd with hk hlo hhi <;> cases hd
  · exact eMovi_of_admits (hi := false) h hk hlo
  · exact eMovi_of_admits (hi := true) h hk hhi

/-- The instruction of the two that share the opcode of MOVI. -/
def moviOf (hi : Bool) (f : MoviF) : Instr := if hi then .moviHi f else .movi f

theorem encode_moviOf (hi : Bool) (f : MoviF) : encode (moviOf hi f) = eMovi hi f := by
  cases hi <;> rfl

theorem moviTail_fields (d : BitVec 4) (v : BitVec 42) : depOf (d ++ v.extractLsb' 0 28) = d ∧
    (v.extractLsb' 28 14).extractLsb' 0 14 ++ fld (d ++ v.extractLsb' 0 28) 0 28 = v := by
  constructor
  · simp (disch := decide) only [depOf, fld, BitVec.extractLsb'_append_eq_of_le, BitVec.extractLsb'_eq_self, Nat.reduceSub]
  · rw [BitVec.extractLsb'_eq_self, fld, BitVec.extractLsb'_append_eq_right]
    exact append_eq_iff.2 ⟨rfl, rfl⟩

theorem reads_movi (hi : Bool) (f : MoviF) : Row.Reads ⟨3, 0x187, 0xFFFFFFF, 0xFFFFFFF, dMovi⟩ 0 20 (moviOf hi f) := by
  refine ⟨congrArg List.length (encode_moviOf hi f), fun w0 w1 w2 hw => ?_⟩
  cases (encode_moviOf hi f).symm.trans hw
  constructor
  · constructor
    case dep => simp only [tailV_fields, BitVec.ofNat_eq_ofNat, implies_true]
    all_goals simp (disch := decide) only [headV_fields, tailV, modV, implies_true, Nat.reduceLeDiff, inMask_append, inMask_zero, inMask_all,
      inMask_bit_false, BitVec.ofNat_eq_ofNat, Bool.and_self, Nat.reduceSub]
  · simp (disch := decide) only [dMovi, moviTail_fields, headV_fields, tailV_fields, fld_headV_mod, getLsbD_headV_mod, fld_tailV_low, modV_fields,
      slotOf_slotV]
    cases hi <;> rfl

/-! ### The class ALL -/

theorem guardBits_eq_zero_iff {w : W32} : fld w 17 6 = 0#6 ↔ guardBits w = ⟨false, 0, false⟩ := by
  have hparts : fld w 17 6 = bit (w.getLsbD 22) ++ fld w 18 4 ++ bit (w.getLsbD 17) := by
    symm
    simp (disch := decide) only [append_eq_iff, extractLsb'_fld, bit_eq_fld_iff, and_self]
  have hzero : (0#6 : BitVec 6) = bit false ++ 0#4 ++ bit false := rfl
  rw [hparts, hzero, guardBits, Guard.mk.injEq]
  generalize w.getLsbD 22 = a, fld w 18 4 = b, w.getLsbD 17 = c
  revert a b c
  decide

theorem allOk_iff {opc : Nat} {w0 w1 : W32} : allOk opc w0 w1 = true ↔
    depOf w0 = 0 ∧ (fld w0 23 2 = 0 ∨ depOf w1 = 0) ∧ (guardBits w0 = ⟨false, 0, false⟩ ∨ opc = 2 ∨ opc = 3 ∨ opc = 5) := by
  rw [allOk, ← guardBits_eq_zero_iff]
  simp only [Bool.and_eq_true, Bool.or_eq_true, decide_eq_true_eq, and_assoc]
  rfl

theorem allW_eq_iff {w : W32} {len opc : Nat} {g : Guard} {mod : BitVec 9} : allW len opc g mod = w ↔
    0#4 = fld w 28 4 ∧ 7#3 = fld w 25 3 ∧ BitVec.ofNat 2 len = fld w 23 2 ∧ g = guardBits w ∧ BitVec.ofNat 8 opc = fld w 9 8 ∧ mod = fld w 0 9 :=
  wordV_eq_iff

theorem spells_all {opc : Nat} {r : Row} (h : rowAll opc = some r) {w0 w1 w2 : W32} {i : Instr} (hadm : r.Admits 7 opc w0 w1 w2)
    (hok : allOk opc w0 w1 = true) (hb : r.build w0 w1 w2 = some i) : encode i = [w0, w1, w2].take r.len := by
  obtain ⟨hdep0, hdep1, hguard⟩ := allOk_iff.1 hok
  unfold rowAll at h
  split at h <;> cases h
  all_goals
    obtain ⟨htag, hlen, hopc, -, hmod, hone, -⟩ := hadm
    dsimp only at hlen hmod hone
    replace hmod := fun _ : True => hmod
    simp only [Nat.reduceEqDiff, or_false, or_true] at hguard
    simp only [← hlen, BitVec.ofNat_eq_ofNat, Nat.reduceSub, BitVec.reduceEq, false_or] at hdep1
    cases hb
    unfold encode
    simp (disch := decide) only [List.take, List.cons.injEq, allW_eq_iff, append_eq_iff, extractLsb'_eq_fld, extractLsb'_fld, bit_eq_fld_iff]
    simp only [depOf] at hdep0 hdep1
    simp (disch := decide) only [htag, hlen, hopc, hguard, hdep0, hdep1, fld_of_inMask hmod, Nat.reduceAdd, and_self, BitVec.ofNat_eq_ofNat]

theorem allW_fields (len opc : Nat) (g : Guard) (mod : BitVec 9) :
    depOf (allW len opc g mod) = 0#4 ∧ fld (allW len opc g mod) 25 3 = 7#3 ∧ fld (allW len opc g mod) 23 2 = BitVec.ofNat 2 len ∧
      guardBits (allW len opc g mod) = g ∧ fld (allW len opc g mod) 9 8 = BitVec.ofNat 8 opc ∧ fld (allW len opc g mod) 0 9 = mod :=
  wordV_fields 0 7 len g opc mod

theorem fld_allW_mod (len opc : Nat) (g : Guard) (mod : BitVec 9) {a n : Nat} (h : a + n ≤ 9) : fld (allW len opc g mod) a n = mod.extractLsb' a n := by
  simp only [fld, allW, wordV]
  exact BitVec.extractLsb'_append_eq_of_add_le h

theorem getLsbD_allW_mod (len opc : Nat) (g : Guard) (mod : BitVec 9) {i : Nat} (h : i < 9) : (allW len opc g mod).getLsbD i = mod.getLsbD i := by
  simp only [allW, wordV]
  exact getLsbD_append_low _ _ h

theorem depOf_payload : (∀ x : BitVec 28, depOf (0#4 ++ x) = 0#4) ∧ ∀ x y : BitVec 14, depOf (0#4 ++ x ++ y) = 0#4 := by
  simp (disch := decide) only [depOf, fld, BitVec.extractLsb'_append_eq_of_le, BitVec.extractLsb'_eq_self, Nat.reduceSub, implies_true, and_self]

theorem fld_payload : (∀ x : BitVec 28, fld (0#4 ++ x) 0 28 = x) ∧
    ∀ x y : BitVec 14, fld (0#4 ++ x ++ y) 14 14 = x ∧ fld (0#4 ++ x ++ y) 0 14 = y := by
  simp (disch := decide) only [fld, BitVec.extractLsb'_append_eq_of_le, BitVec.extractLsb'_append_eq_of_add_le, BitVec.extractLsb'_eq_self, Nat.reduceSub,
    implies_true, and_self]

/-- The row builds the instruction of the class ALL from its words, and they are legal ones of that class. -/
def Row.ReadsAll (r : Row) (opc : Nat) (i : Instr) : Prop :=
  r.Reads 7 opc i ∧ ∀ w0 w1 w2, encode i = [w0, w1, w2].take r.len → allOk opc w0 w1 = true

theorem readsAll_rows :
    (∀ n, Row.ReadsAll ⟨1, 0x1FF, 0, 0, dNop⟩ 0 (.nop n)) ∧
    (∀ f, Row.ReadsAll ⟨2, 0x00F, 0xFFFFFFF, 0, dPbr⟩ 1 (.pbr f)) ∧
    (∀ f, Row.ReadsAll ⟨1, 0x007, 0, 0, dBr⟩ 2 (.br f)) ∧
    (∀ f, Row.ReadsAll ⟨1, 0x03F, 0, 0, dBrl⟩ 3 (.brl f)) ∧
    (∀ f, Row.ReadsAll ⟨2, 0x103, 0xFFFFFFF, 0, dLoop⟩ 4 (.loop f)) ∧
    (∀ f, Row.ReadsAll ⟨1, 0x003, 0, 0, dLbrk⟩ 5 (.lbrk f)) ∧
    (∀ d, Row.ReadsAll ⟨2, 0, 0xFFFFFFF, 0, dSegOpen⟩ 6 (.segOpen d)) ∧
    Row.ReadsAll ⟨1, 0, 0, 0, dSegClose⟩ 7 .segClose ∧
    (∀ n, Row.ReadsAll ⟨1, 0x00F, 0, 0, dGbar⟩ 8 (.gbar n)) ∧
    Row.ReadsAll ⟨1, 0, 0, 0, dHalt⟩ 9 .halt ∧
    (∀ d, Row.ReadsAll ⟨2, 0, 0xFFFFFFF, 0, dCkdiv⟩ 10 (.ckdiv d)) ∧
    Row.ReadsAll ⟨1, 0, 0, 0, dSlipw⟩ 11 .slipw ∧
    (∀ c, Row.ReadsAll ⟨1, 0x0FF, 0, 0, dBrk⟩ 12 (.brk c)) := by
  refine ⟨?_, ?_, ?_, ?_, ?_, ?_, ?_, ?_, ?_, ?_, ?_, ?_, ?_⟩
  all_goals
    intros
    refine ⟨⟨rfl, fun w0 w1 w2 hw => ?_⟩, fun w0 w1 w2 hw => ?_⟩
    · unfold encode at hw
      cases hw
      constructor
      · constructor
        case dep => simp only [Nat.reduceEqDiff, false_implies]
        all_goals simp (disch := decide) only [allW_fields, implies_true, false_implies, Nat.reduceLeDiff, inMask_fld, inMask_append, inMask_zero,
          inMask_all, BitVec.ofNat_eq_ofNat, Bool.and_self, Nat.reduceSub]
      · simp (disch := decide) only [dNop, dPbr, dBr, dBrl, dLoop, dLbrk, dSegOpen, dSegClose, dGbar, dHalt, dCkdiv, dSlipw, dBrk, allW_fields,
          fld_allW_mod, getLsbD_allW_mod, getLsbD_bit, getLsbD_append_high, getLsbD_append_low, fld_payload, BitVec.extractLsb'_append_eq_of_le,
          BitVec.extractLsb'_append_eq_of_add_le, BitVec.extractLsb'_eq_self, Nat.reduceSub]
    · unfold encode at hw
      cases hw
      simp [allOk_iff, allW_fields, depOf_payload]

/-! ### The opcode map, read from the rows and from the instructions -/

theorem rowOf_bounds {c : Cls} {opc : Nat} {r : Row} (h : rowOf c opc = some r) : opc < 256 ∧ 1 ≤ r.len ∧ r.len ≤ 3 := by
  cases c
  all_goals
    dsimp only [rowOf] at h
    delta rowCe rowPe rowAll rowLe rowSe rowXe rowDe rowVe rowNe rowQe rowIe rowGe rowAe rowHe rowTe at h
    split at h <;> cases h <;> decide

theorem rowOf_spells {c : Cls} {opc : Nat} {r : Row} (h : rowOf c opc = some r) (hc : c ≠ .all) : r.Spells (tagOfCls c) opc := by
  have htwo := codes_twoSources
  have hone := codes_oneSource
  have hno := codes_noSource
  have hpacked := codes_packed
  have hpackedSource := codes_packedSource
  have hmask := codes_maskArg
  have hchoice := And.intro codes_setw (And.intro codes_pace (And.intro codes_cbadv (And.intro codes_bwait codes_dscale)))
  dsimp only [Codes] at htwo hone hno hpacked hpackedSource hmask hchoice
  cases c
  case all => exact absurd rfl hc
  all_goals
    dsimp only [rowOf] at h
    delta rowCe rowPe rowLe rowSe rowXe rowDe rowVe rowNe rowQe rowIe rowGe rowAe rowHe rowTe at h
    split at h <;> cases h
    all_goals simp (disch := (intro; unfold encode; rfl)) only [tagOfCls, htwo, hone, hno, hpacked, hpackedSource, hmask, hchoice, codes_damax, codes_acc,
      spells_movi]

/-- A row of the class builds the instruction from its words, legal ones if they are tagged 7. -/
def HasRow (c : Cls) (i : Instr) : Prop :=
  ∃ opc r, rowOf c opc = some r ∧ r.Reads (tagOfCls c) opc i ∧
    (c = .all → ∀ w0 w1 w2, encode i = [w0, w1, w2].take r.len → allOk opc w0 w1 = true)

theorem hasRow_of_codes {c : Cls} {opc : Nat} {r : Row} {i : Instr} (hi : classOf i = some c) (hr : r.Reads (tagOfCls c) opc i) (ho : rowOf c opc = some r)
    (hc : c ≠ .all) : ∀ c', classOf i = some c' → HasRow c' i := by
  intro c' hc'
  cases hi.symm.trans hc'
  exact ⟨opc, r, ho, hr, fun hall => absurd hall hc⟩

theorem hasRow_of_readsAll {opc : Nat} {r : Row} {i : Instr} (hi : classOf i = some .all) (hr : r.ReadsAll opc i) (ho : rowAll opc = some r) :
    ∀ c, classOf i = some c → HasRow c i := by
  intro c hc
  cases hi.symm.trans hc
  exact ⟨opc, r, ho, hr.1, fun _ => hr.2⟩

/-- The opcode map read from the instructions (R98): each has a row of its class that builds it from its words. -/
theorem hasRow (i : Instr) (hok : fieldsOk4 i = true) : ∀ c, classOf i = some c → HasRow c i := by
  obtain ⟨hS3, hS3c, hS3cmp, hSpill, hAtom, hAtomn, hCas, hBar, hRand, hQblk, hDrain, hIgen, hImap, hIcmp, hGath, hGseg, hHld, hHpre, hHzero, hTcopy,
    hPushb, hCopy, hCopyb⟩ :=
    codes_twoSources
  obtain ⟨hS3a, hS2r, hMtsr, hVcvt, hVcb, hQscale, hLds, hMsign, hMma, hWin, hAst, hAwait⟩ := codes_oneSource
  obtain ⟨hF1, hPmov, hGetw, hFence, hQfence, hTffr, hTrap, hSegst, hMfsr, hRd, hHint, hCbqry, hQdeq, hLdsc, hAccClr⟩ :=
    codes_noSource
  obtain ⟨hCbset, hTcvt, hPlog⟩ := codes_packed
  obtain ⟨hPush, hColl⟩ := codes_packedSource
  obtain ⟨hTwait, hTclr⟩ := codes_maskArg
  obtain ⟨hnop, hpbr, hbr, hbrl, hloop, hlbrk, hsegOpen, hsegClose, hgbar, hhalt, hckdiv, hslipw, hbrk⟩ := readsAll_rows
  cases i
  case nop f => exact hasRow_of_readsAll rfl (hnop f) rfl
  case pbr f => exact hasRow_of_readsAll rfl (hpbr f) rfl
  case br f => exact hasRow_of_readsAll rfl (hbr f) rfl
  case brl f => exact hasRow_of_readsAll rfl (hbrl f) rfl
  case loop f => exact hasRow_of_readsAll rfl (hloop f) rfl
  case lbrk f => exact hasRow_of_readsAll rfl (hlbrk f) rfl
  case segOpen f => exact hasRow_of_readsAll rfl (hsegOpen f) rfl
  case segClose => exact hasRow_of_readsAll rfl hsegClose rfl
  case gbar f => exact hasRow_of_readsAll rfl (hgbar f) rfl
  case halt => exact hasRow_of_readsAll rfl hhalt rfl
  case ckdiv f => exact hasRow_of_readsAll rfl (hckdiv f) rfl
  case slipw => exact hasRow_of_readsAll rfl hslipw rfl
  case brk f => exact hasRow_of_readsAll rfl (hbrk f) rfl
  case movi f => exact hasRow_of_codes rfl (reads_movi false f) rfl nofun
  case moviHi f => exact hasRow_of_codes rfl (reads_movi true f) rfl nofun
  case add f | sub f | mul f | mulh f | divi f | remi f | and f | or f | xor f | andn f | shl f | shr f | rot f | min f | max f | ext f | ins f | lea f |
  ld f | st f | vadd f | vsub f | vmul f | vmin f | vmax f | vand f | vor f | vxor f | vshl f | vshr f | vbcast f | vperm f | vrot f | vshuf f |
  vpack f | vred f | vscan f | vld f | vst f | vldx f | vstx f | nnorm f | qsign f => exact hasRow_of_codes rfl ((hS3 _ _ _ fun _ => rfl).2 f) rfl nofun
  case clz f | popc f | mov f | vmov f | viota f => exact hasRow_of_codes rfl ((hS2r _ _ _ fun _ => rfl).2 f) rfl nofun
  case sel f | vfma f | vfms f | vsel f | vdot f => exact hasRow_of_codes rfl ((hS3c _ _ _ fun _ => rfl).2 f) rfl nofun
  case cmp f | vcmp f => exact hasRow_of_codes rfl ((hS3cmp _ _ _ fun _ => rfl).2 f) rfl nofun
  case plog f => exact hasRow_of_codes rfl ((hPlog _ _ _ fun _ => rfl).2 f) rfl nofun
  case pmov f => exact hasRow_of_codes rfl ((hPmov _ _ _ fun _ => rfl).2 f) rfl nofun
  case setw f => exact hasRow_of_codes rfl ((codes_setw _ _ _ fun _ => rfl).2 f) rfl nofun
  case getw f => exact hasRow_of_codes rfl ((hGetw _ _ _ fun _ => rfl).2 f) rfl nofun
  case spill f | fill f => exact hasRow_of_codes rfl ((hSpill _ _ _ fun _ => rfl).2 f) rfl nofun
  case atom f => exact hasRow_of_codes rfl ((hAtom _ _ _ fun _ => rfl).2 f) rfl nofun
  case atomn f => exact hasRow_of_codes rfl ((hAtomn _ _ _ fun _ => rfl).2 f) rfl nofun
  case cas f => exact hasRow_of_codes rfl ((hCas _ _ _ fun _ => rfl).2 f) rfl nofun
  case fence f => exact hasRow_of_codes rfl ((hFence _ _ _ fun _ => rfl).2 f) rfl nofun
  case qfence f => exact hasRow_of_codes rfl ((hQfence _ _ _ fun _ => rfl).2 f) rfl nofun
  case twait f => exact hasRow_of_codes rfl ((hTwait _ _ _ fun _ => rfl).2 f) rfl nofun
  case tffr f => exact hasRow_of_codes rfl ((hTffr _ _ _ fun _ => rfl).2 f) rfl nofun
  case tclr f => exact hasRow_of_codes rfl ((hTclr _ _ _ fun _ => rfl).2 f) rfl nofun
  case bari f | barx f => exact hasRow_of_codes rfl ((hBar _ _ _ fun _ => rfl).2 f) rfl nofun
  case bwait f => exact hasRow_of_codes rfl ((codes_bwait _ _ _ fun _ => rfl).2 f) rfl nofun
  case trapf f | lflip f | mstop f | accSwap f | accCarry f | mwait f => exact hasRow_of_codes rfl ((hF1 _ _ _ fun _ => rfl).2 f) rfl nofun
  case segst f => exact hasRow_of_codes rfl ((hSegst _ _ _ fun _ => rfl).2 f) rfl nofun
  case mfsr f => exact hasRow_of_codes rfl ((hMfsr _ _ _ fun _ => rfl).2 f) rfl nofun
  case mtsr f => exact hasRow_of_codes rfl ((hMtsr _ _ _ fun _ => rfl).2 f) rfl nofun
  case rdtime f | rdreck f => exact hasRow_of_codes rfl ((hRd _ _ _ fun _ => rfl).2 f) rfl nofun
  case rand f => exact hasRow_of_codes rfl ((hRand _ _ _ fun _ => rfl).2 f) rfl nofun
  case pace f => exact hasRow_of_codes rfl ((codes_pace _ _ _ fun _ => rfl).2 f) rfl nofun
  case hint f => exact hasRow_of_codes rfl ((hHint _ _ _ fun _ => rfl).2 f) rfl nofun
  case trap f => exact hasRow_of_codes rfl ((hTrap _ _ _ fun _ => rfl).2 f) rfl nofun
  case cbset f => exact hasRow_of_codes rfl ((hCbset _ _ _ fun _ => rfl).2 f) rfl nofun
  case cbadv f => exact hasRow_of_codes rfl ((codes_cbadv _ _ _ fun _ => rfl).2 f) rfl nofun
  case cbqry f => exact hasRow_of_codes rfl ((hCbqry _ _ _ fun _ => rfl).2 f) rfl nofun
  case vabs f | vneg f | vunpk f | nrsq f | nrcp f | nexp2 f | nlog2 f | nsig f | ntanh f | nmom f | nsoft f | qamax f =>
    exact hasRow_of_codes rfl ((hS3a _ _ _ fun _ => rfl).2 f) rfl nofun
  case vcvt f => exact hasRow_of_codes rfl ((hVcvt _ _ _ fun _ => rfl).2 f) rfl nofun
  case vldc f | vstc f => exact hasRow_of_codes rfl ((hVcb _ _ _ fun _ => rfl).2 f) rfl nofun
  case qscale f => exact hasRow_of_codes rfl ((hQscale _ _ _ fun _ => rfl).2 f) rfl nofun
  case qblk f => exact hasRow_of_codes rfl ((hQblk _ _ _ fun _ => rfl).2 f) rfl nofun
  case qdeq f => exact hasRow_of_codes rfl ((hQdeq _ _ _ fun _ => rfl).2 f) rfl nofun
  case lds f => exact hasRow_of_codes rfl ((hLds _ _ _ fun _ => rfl).2 f) rfl nofun
  case ldsc f | ldscl f => exact hasRow_of_codes rfl ((hLdsc _ _ _ fun _ => rfl).2 f) rfl nofun
  case msign f => exact hasRow_of_codes rfl ((hMsign _ _ _ fun _ => rfl).2 f) rfl nofun
  case mma f => exact hasRow_of_codes rfl ((hMma _ _ _ fun _ => rfl).2 f) rfl nofun
  case accClr f => exact hasRow_of_codes rfl ((hAccClr _ _ _ fun _ => rfl).2 f) rfl nofun
  case accRd f | accWr f => exact hasRow_of_codes rfl ((codes_acc _ _ _ fun _ => rfl).2 f (by simpa using (show (!f.i.hold) = true from hok))) rfl nofun
  case drain f => exact hasRow_of_codes rfl ((hDrain _ _ _ fun _ => rfl).2 f) rfl nofun
  case dscale f => exact hasRow_of_codes rfl ((codes_dscale _ _ _ fun _ => rfl).2 f) rfl nofun
  case damax f =>
    obtain ⟨hrow, hn⟩ := Bool.and_eq_true_iff.1 (show (!f.row.hold && !f.n.hold) = true from hok)
    exact hasRow_of_codes rfl ((codes_damax _ _ _ fun _ => rfl).2 f (by simpa using hrow) (by simpa using hn)) rfl nofun
  case igen f => exact hasRow_of_codes rfl ((hIgen _ _ _ fun _ => rfl).2 f) rfl nofun
  case imap f => exact hasRow_of_codes rfl ((hImap _ _ _ fun _ => rfl).2 f) rfl nofun
  case icmp f => exact hasRow_of_codes rfl ((hIcmp _ _ _ fun _ => rfl).2 f) rfl nofun
  case gath f | scat f => exact hasRow_of_codes rfl ((hGath _ _ _ fun _ => rfl).2 f) rfl nofun
  case win f => exact hasRow_of_codes rfl ((hWin _ _ _ fun _ => rfl).2 f) rfl nofun
  case gseg f => exact hasRow_of_codes rfl ((hGseg _ _ _ fun _ => rfl).2 f) rfl nofun
  case ast f => exact hasRow_of_codes rfl ((hAst _ _ _ fun _ => rfl).2 f) rfl nofun
  case await f => exact hasRow_of_codes rfl ((hAwait _ _ _ fun _ => rfl).2 f) rfl nofun
  case hld f | hst f => exact hasRow_of_codes rfl ((hHld _ _ _ fun _ => rfl).2 f) rfl nofun
  case hpre f => exact hasRow_of_codes rfl ((hHpre _ _ _ fun _ => rfl).2 f) rfl nofun
  case hzero f => exact hasRow_of_codes rfl ((hHzero _ _ _ fun _ => rfl).2 f) rfl nofun
  case tcopy f => exact hasRow_of_codes rfl ((hTcopy _ _ _ fun _ => rfl).2 f) rfl nofun
  case tcvt f => exact hasRow_of_codes rfl ((hTcvt _ _ _ fun _ => rfl).2 f) rfl nofun
  case push f => exact hasRow_of_codes rfl ((hPush _ _ _ fun _ => rfl).2 f) rfl nofun
  case pushb f => exact hasRow_of_codes rfl ((hPushb _ _ _ fun _ => rfl).2 f) rfl nofun
  case copy f | copyd f | pull f => exact hasRow_of_codes rfl ((hCopy _ _ _ fun _ => rfl).2 f) rfl nofun
  case copyb f => exact hasRow_of_codes rfl ((hCopyb _ _ _ fun _ => rfl).2 f) rfl nofun
  case coll f => exact hasRow_of_codes rfl ((hColl _ _ _ fun _ => rfl).2 f) rfl nofun
  all_goals nofun

/-! ### The decoder's checks -/

theorem clsOf_eq_some {ct : CoreType} {tag : Nat} {c : Cls} (h : clsOf ct tag = some c) : tag = tagOfCls c ∧ c ≠ .all := by
  unfold clsOf at h
  split at h <;> cases h <;> exact ⟨rfl, nofun⟩

theorem tagOfCls_lt (c : Cls) : tagOfCls c < 8 := by
  cases c <;> decide

theorem tagOfCls_eq_seven_iff {c : Cls} : tagOfCls c = 7 ↔ c = .all := by
  cases c <;> decide

/-- The class that a word's tag names is one that the core type has (R16, R99). -/
theorem tag_class_iff {ct : CoreType} {tag : Nat} {c : Cls} :
    (if tag = 7 then some Cls.all else clsOf ct tag) = some c ↔ hasCls ct c ∧ tag = tagOfCls c := by
  constructor
  · intro h
    split_ifs at h with ht
    · cases h
      exact ⟨.inl rfl, ht⟩
    · obtain ⟨rfl, -⟩ := clsOf_eq_some h
      exact ⟨.inr h, rfl⟩
  · rintro ⟨rfl | hc, rfl⟩
    · rfl
    · rw [if_neg (mt tagOfCls_eq_seven_iff.1 (clsOf_eq_some hc).2), hc]

theorem ofNat_eq_fld_iff {w : W32} {a n k : Nat} (hk : k < 2 ^ n) : BitVec.ofNat n k = fld w a n ↔ (fld w a n).toNat = k := by
  rw [← BitVec.toNat_inj, BitVec.toNat_ofNat, Nat.mod_eq_of_lt hk, eq_comm]

/-- The checks that a row makes of its words, with the tag and the opcode that led to it. -/
theorem admits_iff {r : Row} {tag opc : Nat} {w0 w1 w2 : W32} (htag : tag < 8) (hopc : opc < 256) (hlen : 1 ≤ r.len ∧ r.len ≤ 3) :
    r.Admits tag opc w0 w1 w2 ↔ (fld w0 25 3).toNat = tag ∧ (fld w0 9 8).toNat = opc ∧
      ((fld w0 23 2).toNat + 1 = r.len ∧ (r.len ≠ 3 ∨ depOf w1 = 0) ∧ inMask (fld w0 0 9) r.modMask ∧
        (r.len < 2 ∨ inMask (fld w1 0 28) r.mask1) ∧ (r.len < 3 ∨ inMask (fld w2 0 28) r.mask2)) := by
  have hl : BitVec.ofNat 2 (r.len - 1) = fld w0 23 2 ↔ (fld w0 23 2).toNat + 1 = r.len := by
    rw [ofNat_eq_fld_iff (by omega)]
    omega
  constructor
  · rintro ⟨htag', hlen', hopc', hdep, hmod, hone, htwo⟩
    refine ⟨(ofNat_eq_fld_iff htag).1 htag', (ofNat_eq_fld_iff hopc).1 hopc', hl.1 hlen', ?_, hmod, ?_, ?_⟩
    · exact or_iff_not_imp_left.2 fun h => hdep (not_not.1 h)
    · exact or_iff_not_imp_left.2 fun h => hone (by omega)
    · exact or_iff_not_imp_left.2 fun h => htwo (by omega)
  · rintro ⟨htag', hopc', hlen', hdep, hmod, hone, htwo⟩
    refine ⟨(ofNat_eq_fld_iff htag).2 htag', hl.2 hlen', (ofNat_eq_fld_iff hopc).2 hopc', fun h => ?_, hmod, fun h => ?_, fun h => ?_⟩
    · exact hdep.resolve_left (not_not.2 h)
    · exact hone.resolve_left (by omega)
    · exact htwo.resolve_left (by omega)

/-- What it takes to decode to an instruction: a class that the core has, a row of it, and words that the row admits and builds it from. -/
theorem decode_cons_eq_instr_iff {ct : CoreType} {w0 : W32} {ws : List W32} {i : Instr} {n t : Nat} :
    decode ct (w0 :: ws) = .instr i n t ↔ ∃ c opc r, hasCls ct c ∧ rowOf c opc = some r ∧ r.Admits (tagOfCls c) opc w0 (ws.getD 0 0) (ws.getD 1 0) ∧
      (c = .all → allOk opc w0 (ws.getD 0 0) = true) ∧ r.build w0 (ws.getD 0 0) (ws.getD 1 0) = some i ∧ r.len ≤ ws.length + 1 ∧
      r.len = n ∧ tagOfCls c = t := by
  constructor
  · intro h
    rw [decode] at h
    by_cases hwords : (fld w0 23 2).toNat + 1 = 4 ∨ ws.length + 1 < (fld w0 23 2).toNat + 1
    · rw [if_pos hwords] at h
      cases h
    rw [if_neg hwords] at h
    split at h
    case h_1 => cases h
    case h_2 c hc =>
      obtain ⟨hcls, htag⟩ := tag_class_iff.1 hc
      split at h
      case h_1 => cases h
      case h_2 r hr =>
        split_ifs at h with hall
        split at h
        case h_2 => cases h
        case h_1 hrow =>
          cases h
          rw [decodeRow] at hrow
          split_ifs at hrow with hchk
          split at hrow <;> cases hrow
          have hb := rowOf_bounds hr
          refine ⟨c, _, r, hcls, hr, (admits_iff (tagOfCls_lt c) hb.1 hb.2).2 ⟨htag, rfl, hchk⟩, fun hc => ?_, ‹_›, by omega, rfl, htag.symm⟩
          rw [htag, tagOfCls_eq_seven_iff] at hall
          simpa [hc] using hall
  · rintro ⟨c, opc, r, hcls, hr, hadm, hall, hb, hlen, rfl, rfl⟩
    obtain ⟨hopc, hbounds⟩ := rowOf_bounds hr
    obtain ⟨htag, rfl, hchk⟩ := (admits_iff (tagOfCls_lt c) hopc hbounds).1 hadm
    have hwords : ¬((fld w0 23 2).toNat + 1 = 4 ∨ ws.length + 1 < (fld w0 23 2).toNat + 1) := by omega
    have hok : ¬(tagOfCls c = 7 ∧ !allOk (fld w0 9 8).toNat w0 (ws.getD 0 0)) := by
      rw [tagOfCls_eq_seven_iff]
      rintro ⟨hc, hno⟩
      rw [hall hc] at hno
      cases hno
    rw [decode, if_neg hwords, tag_class_iff.2 ⟨hcls, htag⟩]
    dsimp only
    rw [hr]
    dsimp only
    rw [htag, if_neg hok, decodeRow, if_pos hchk, hb]

theorem fieldsOk4_of_wellFormed {i : Instr} (h : WellFormed i) : fieldsOk4 i = true := by
  rw [WellFormed, staticFault] at h
  split_ifs at h with h4 h5
  rw [Bool.not_eq_true', Bool.not_eq_false, ok4, Bool.and_eq_true] at h4
  exact h4.2

theorem take_words {w0 : W32} {ws : List W32} {n : Nat} (hn : n ≤ 3) (hlen : n ≤ ws.length + 1) :
    [w0, ws.getD 0 0, ws.getD 1 0].take n = (w0 :: ws).take n := by
  match n, ws with
  | 0, _ => rfl
  | 1, _ => rfl
  | 2, [] => simp at hlen
  | 2, _ :: _ => rfl
  | 3, [] => simp at hlen
  | 3, [_] => simp at hlen
  | 3, _ :: _ :: _ => rfl

/-- Settles O3: the words that a row admits and builds an instruction from are the words of that instruction (`rowOf_spells`). -/
theorem wordsHaveOneMeaning : Obligations.WordsHaveOneMeaning := by
  unfold Obligations.WordsHaveOneMeaning
  intro ct ws i n t h
  cases ws with
  | nil => cases h
  | cons w0 ws =>
    obtain ⟨c, opc, r, -, hr, hadm, hall, hb, hlen, rfl, rfl⟩ := decode_cons_eq_instr_iff.1 h
    obtain ⟨-, -, hr3⟩ := rowOf_bounds hr
    have henc : encode i = (w0 :: ws).take r.len := by
      rw [← take_words hr3 hlen]
      by_cases hc : c = .all
      · subst hc
        exact spells_all hr hadm (hall rfl) hb
      · exact rowOf_spells hr hc _ _ _ _ hadm hb
    refine ⟨henc, ?_⟩
    rw [henc, List.length_take_of_le (by simpa using hlen)]

/-- Settles O2: every well-formed instruction has a row that builds it from its words (`hasRow`). -/
theorem decodeEncode : Obligations.DecodeEncode := by
  unfold Obligations.DecodeEncode
  intro ct i c rest hwf hi hcls
  obtain ⟨opc, r, hr, ⟨hlen, hreads⟩, hall⟩ := hasRow i (fieldsOk4_of_wellFormed hwf) c hi
  obtain ⟨-, hr1, hr3⟩ := rowOf_bounds hr
  obtain ⟨w0, ws, hws⟩ := List.exists_cons_of_length_pos (l := encode i ++ rest) (by rw [List.length_append]; omega)
  have hle : r.len ≤ ws.length + 1 := by
    have := congrArg List.length hws
    rw [List.length_append, List.length_cons] at this
    omega
  have henc : encode i = [w0, ws.getD 0 0, ws.getD 1 0].take r.len := by
    rw [take_words hr3 hle, ← hws, ← hlen, List.take_left]
  obtain ⟨hadm, hb⟩ := hreads _ _ _ henc
  rw [hws]
  exact decode_cons_eq_instr_iff.2 ⟨c, opc, r, hcls, hr, hadm, fun hc => hall hc _ _ _ henc, hb, hle, hlen.symm, rfl⟩

end Sys2Proof
end

section
/-! Words of the spec decode (O1). -/

namespace Sys2Proof

/-- Settles O1, by evaluating the decoder on the fifteen lists of words. That no words at all are an illegal encoding is the model's choice (log 16); which words
are refused, and by what fault, is R100. -/
theorem decodeSpecWords : Obligations.DecodeSpecWords := by
  unfold Obligations.DecodeSpecWords
  decide

end Sys2Proof
end

section
/-! What a step runs: the agenda, and the words at the pc (O4). -/

namespace Sys2Proof.Machine

open Sys2Proof

/-- What a step makes of what happens next. -/
def Act.outcome : Act → Host.Outcome State Fault Refusal
  | .exec i s => Sys2Proof.Machine.exec i s
  | .quiet s => .next s

theorem step_eq_outcome (s : State) : step s = s.act.outcome := by
  rw [step]
  cases s.act <;> rfl

theorem step_of_agenda {s : State} {i : Instr} {r : List Instr} (h : s.agenda = i :: r) : step s = exec i { s with agenda := r } := by
  have hact : s.act = .exec i { s with agenda := r } := by
    rw [State.act, h]
  rw [step_eq_outcome, hact]
  rfl

/-- In the part of a tick that issues, the engine whose turn it is meets the word at its pc. -/
theorem step_of_firstIssue {s : State} {c t : Nat} (ha : s.agenda = []) (hh : s.half = .work) (hf : s.firstIssue = some (c, t)) :
    step s = ({ s with cur := { core := c, tag := t } } : State).fetch.outcome := by
  have hact : s.act = s.actWork := by
    rw [State.act, ha, hh]
  rw [step_eq_outcome, hact, State.actWork, hf]

section
variable {s : State} {ws : List W32} {i : Instr} {n u : Nat} {e : Cause}

theorem fetch_of_instr (hws : s.here.stream.drop s.hereE.pc = ws) (h : decode (coreType s.cur.core) ws = .instr i n u) :
    s.fetch = if u = s.cur.tag ∨ isAll i = true then .exec i s else .quiet (s.leave s.cur.core s.cur.tag n none) := by
  subst hws
  simp only [State.fetch, h]

theorem fetch_of_bad (hws : s.here.stream.drop s.hereE.pc = ws) (h : decode (coreType s.cur.core) ws = .bad e u) :
    s.fetch = if u = s.cur.tag then .quiet (s.unpause.raise e 0 none)
      else if barsAll ws = true then .quiet (s.stall false)
      else .quiet (s.leave s.cur.core s.cur.tag (((ws.headD 0).extractLsb' 23 2).toNat + 1) none) := by
  subst hws
  simp only [State.fetch, h]

end

/-- Settles O4: a step runs the head of the agenda, or else what the engine that is next makes of the words at its pc (`fetch_of_instr`, `fetch_of_bad`). What
an engine owns, and that it steps over words of others, is the model's reading of R83, R99 and R100 (log 16, 17). -/
theorem stepRunsDecoded : Obligations.StepRunsDecoded := by
  unfold Obligations.StepRunsDecoded
  refine ⟨fun s i r h => step_of_agenda h, fun s c t ha hh hf => ?_⟩
  have hws : ({ s with cur := { core := c, tag := t } } : State).here.stream.drop ({ s with cur := { core := c, tag := t } } : State).hereE.pc =
      (s.core c).stream.drop ((s.core c).engine t).pc := rfl
  have hcore : ({ s with cur := { core := c, tag := t } } : State).cur.core = c := rfl
  have htag : ({ s with cur := { core := c, tag := t } } : State).cur.tag = t := rfl
  dsimp only
  rw [step_of_firstIssue ha hh hf]
  generalize (s.core c).stream.drop ((s.core c).engine t).pc = ws at hws ⊢
  generalize ({ s with cur := { core := c, tag := t } } : State) = s1 at hws hcore htag ⊢
  subst hcore htag
  refine ⟨fun i n u hd hu => ?_, fun i n u hd hu hall => ?_, fun e hd => ?_, fun e u hd hu hbar => ?_, fun e u hd hu hbar => ?_⟩
  · rw [fetch_of_instr hws hd, if_pos hu]
    rfl
  · rw [fetch_of_instr hws hd, if_neg (not_or.2 ⟨hu, ne_true_of_eq_false hall⟩)]
    rfl
  · rw [fetch_of_bad hws hd, if_pos rfl]
    rfl
  · rw [fetch_of_bad hws hd, if_neg hu, if_pos hbar]
    rfl
  · rw [fetch_of_bad hws hd, if_neg hu, if_neg (ne_true_of_eq_false hbar)]
    rfl

end Sys2Proof.Machine
end

section
/-! CMP, PLOG and PMOV: the predicates that they write, and where PMOV traps (O17). -/

namespace Sys2Proof.Machine

open Sys2Proof

/-! ### Plans that change registers, and plans that fault -/

theorem State.modHere_congr {s : State} {f g : Core → Core} (h : f s.here = g s.here) : s.modHere f = s.modHere g :=
  congrArg (s.setCore s.cur.core) h

section
variable {i : Instr} {plan : State → Plan} {s : State} (hexec : exec i s = issue s i plan) (hready : Ready s i)
include hexec hready

theorem issues_of_regs {lat : Nat} {f g : Core → Core} (hplan : plan s = .regs s lat f) (hfg : f s.here = g s.here)
    (hwalk : ((g s.here).engine s.cur.tag).walk = (s.here.engine s.cur.tag).walk) : Issues i s (s.modHere g) := by
  rw [Plan.regs, State.modHere_congr hfg] at hplan
  obtain ⟨t, ht, hwent⟩ := issue_ready hready hplan rfl (State.modHere_walk s g hwalk) rfl
  exact ⟨_, t, hexec.trans ht, hwent⟩

theorem faults_of_plan {c : Cause} (hown : isAll i = false) (hc : c.cls ≠ 2) (hplan : plan s = .fault s c) : Faults i s c := by
  have hbad : guarded plan s (s.enabled (guardOf i)) = .bad s c 0 none := by
    rw [hready.on]
    exact hplan
  have hwaits : s.unpause = s := by
    simp [State.unpause, hready.clear.unpaused]
  rw [Faults, hexec, issue_clear hready.clear]
  simp [settle, hbad, hown, hwaits, hc]

end

/-! ### Predicates -/

@[simp] theorem Core.setPred_engine (k : Core) (j : Nat) (b : Bool) (u : Nat) : (k.setPred j b).engine u = k.engine u := rfl

theorem Core.foldl_setPred_engine (p : Nat → Nat) (b : Nat → Bool) (u : Nat) (is : List Nat) (k : Core) :
    (is.foldl (fun k i => k.setPred (p i) (b i)) k).engine u = k.engine u := by
  induction is generalizing k with
  | nil => rfl
  | cons i is ih => rw [List.foldl_cons, ih, Core.setPred_engine]

theorem Core.setPreds_eq (k : Core) (p n v : Nat) : k.setPreds p n v = (List.range n).foldl (fun k i => k.setPred (p + i) (v.testBit i)) k := by
  simp only [Core.setPreds, bitN_eq_testBit]

/-- The predicates from `p` on make up the number whose bits they are. -/
theorem Core.getPreds_eq_mod (k : Core) (p x : Nat) : ∀ n, (∀ i < n, x.testBit i = k.predBit (p + i)) → k.getPreds p n = x % 2 ^ n
  | 0, _ => by rw [Nat.pow_zero, Nat.mod_one]; rfl
  | n + 1, h => by
    have ih := Core.getPreds_eq_mod k p x n fun i hi => h i (by omega)
    rw [Core.getPreds] at ih ⊢
    have hbit : x / 2 ^ n % 2 = if k.predBit (p + n) then 1 else 0 := by
      rw [← h n n.lt_succ_self, Nat.testBit_eq_decide_div_mod_eq]
      rcases Nat.mod_two_eq_zero_or_one (x / 2 ^ n) with h0 | h0 <;> simp [h0]
    rw [List.range_succ, List.foldl_append, ih, Nat.mod_pow_succ, hbit]
    cases hp : k.predBit (p + n) <;> simp [hp]

/-! ### Conditions (R96) -/

theorem condInt_of_mem {c : BitVec 5} {a b : Int} {r : Bool} (h : (c, r) ∈ ([(0, decide (a = b)), (1, decide (a ≠ b)), (2, decide (a < b)),
    (3, decide (a ≤ b)), (4, decide (a > b)), (5, decide (a ≥ b))] : List (BitVec 5 × Bool))) : condInt c.toNat a b = r := by
  simp only [List.mem_cons, List.not_mem_nil, or_false, Prod.mk.injEq] at h
  rcases h with ⟨rfl, rfl⟩ | ⟨rfl, rfl⟩ | ⟨rfl, rfl⟩ | ⟨rfl, rfl⟩ | ⟨rfl, rfl⟩ | ⟨rfl, rfl⟩ <;> rfl

theorem condFloat_of_mem {c : BitVec 5} {a b : FVal} {un r : Bool} (hun : un = (a.isNan || b.isNan))
    (h : (c, r) ∈ ([(0, !un && eqV a b), (1, un || !eqV a b), (2, !un && ltV a b), (3, !un && (ltV a b || eqV a b)), (4, !un && ltV b a),
      (5, !un && (ltV b a || eqV a b)), (6, un), (7, !un)] : List (BitVec 5 × Bool))) : condFloat c.toNat a b = r := by
  subst hun
  simp only [List.mem_cons, List.not_mem_nil, or_false, Prod.mk.injEq] at h
  rcases h with ⟨rfl, rfl⟩ | ⟨rfl, rfl⟩ | ⟨rfl, rfl⟩ | ⟨rfl, rfl⟩ | ⟨rfl, rfl⟩ | ⟨rfl, rfl⟩ | ⟨rfl, rfl⟩ | ⟨rfl, rfl⟩ <;> rfl

/-! ### CMP (R137) -/

/-- What CMP does to the core once its condition is `r`. -/
def Core.cmpWrite (k : Core) (t : Nat) (f : S3cmp) (r : Bool) : Core :=
  ((k.holdLatch t false f.a (cmpSrc k t f false).1 ((cmpSrc k t f false).2 / 4)).holdLatch t true f.b
    (cmpSrc k t f true).1 ((cmpSrc k t f true).2 / 4)).setPred f.pd.toNat (predMode f.mode (k.predBit f.pd.toNat) r)

theorem Core.cmpWrite_walk (k : Core) (t : Nat) (f : S3cmp) (r : Bool) (u : Nat) : ((k.cmpWrite t f r).engine u).walk = (k.engine u).walk := by
  simp [Core.cmpWrite]

/-- The comparison that CMP makes, of integers or of floats. -/
def Core.cmpCond (k : Core) (t : Nat) (f : S3cmp) : Bool :=
  if f.sub.fmt = 0 then
    condInt f.sub.cond.toNat (extI f.fs (cmpSrc k t f false).1 (cmpSrc k t f false).2) (extI f.fs (cmpSrc k t f true).1 (cmpSrc k t f true).2)
  else condFloat f.sub.cond.toNat (dec (fmtOf f.sub.fmt) (cmpSrc k t f false).1) (dec (fmtOf f.sub.fmt) (cmpSrc k t f true).1)

theorem planCmp_regs {f : S3cmp} {s : State} (ha : s.here.srcOk s.cur.tag false f.a = true) (hb : s.here.srcOk s.cur.tag true f.b = true)
    (hw : f.sub.fmt = 0 ∨ (cmpSrc s.here s.cur.tag f false).2 = fmtBits f.sub.fmt ∧ (cmpSrc s.here s.cur.tag f true).2 = fmtBits f.sub.fmt) :
    ∃ F : Core → Core, planCmp f s = .regs s 1 F ∧ F s.here = s.here.cmpWrite s.cur.tag f (s.here.cmpCond s.cur.tag f) := by
  have hwidths : ¬(f.sub.fmt ≠ 0 ∧ ((cmpSrc s.here s.cur.tag f false).2 ≠ fmtBits f.sub.fmt ∨ (cmpSrc s.here s.cur.tag f true).2 ≠ fmtBits f.sub.fmt)) := by
    tauto
  rw [planCmp, if_neg (by simp [ha, hb]), if_neg hwidths]
  exact ⟨_, rfl, rfl⟩

/-- A source of an integer comparison, extended under FS. -/
theorem extI_cmpSrc (k : Core) (t : Nat) {f : S3cmp} (hf : f.sub.fmt = 0) (b : Bool) :
    extI f.fs (cmpSrc k t f b).1 (cmpSrc k t f b).2 = k.srcInt t b f.fs (k.srcW t (!b) 0 (if b then f.a else f.b)) (if b then f.b else f.a) := by
  simp only [cmpSrc, cmpImmW, hf, if_true]
  generalize (if b then f.b else f.a) = x
  cases x <;> rfl

theorem issues_cmp {f : S3cmp} {s : State} (hready : Ready s (.cmp f)) (ha : s.here.srcOk s.cur.tag false f.a = true)
    (hb : s.here.srcOk s.cur.tag true f.b = true)
    (hw : f.sub.fmt = 0 ∨ (cmpSrc s.here s.cur.tag f false).2 = fmtBits f.sub.fmt ∧ (cmpSrc s.here s.cur.tag f true).2 = fmtBits f.sub.fmt) {r : Bool}
    (hr : s.here.cmpCond s.cur.tag f = r) : Issues (.cmp f) s (s.modHere fun k => k.cmpWrite s.cur.tag f r) := by
  subst hr
  obtain ⟨F, hplan, hF⟩ := planCmp_regs ha hb hw
  exact issues_of_regs rfl hready hplan hF (Core.cmpWrite_walk ..)

/-! ### PMOV (R139) -/

section
variable {f : PmovF} {s : State}

theorem planPmov_regs (hok : s.here.slotOk s.cur.tag f.s = true)
    (hdir : f.dir.toNat < 2 ∧ f.f.toNat + f.s.bits ≤ 16 ∨ 2 ≤ f.dir.toNat ∧ s.ct = .v ∧ f.s.w = 16) :
    planPmov f s = .regs s 1 fun k =>
      match f.dir.toNat with
      | 0 => k.setPreds f.f.toNat f.s.bits (k.slotVal s.cur.tag f.s)
      | 1 => k.wrSlot s.cur.tag f.s (k.getPreds f.f.toNat f.s.bits)
      | 2 => k.setVpred f.k.toNat (BitVec.ofNat 64 (k.slotVal s.cur.tag f.s))
      | _ => k.wrSlot s.cur.tag f.s (k.vpredOf f.k.toNat).toNat := by
  have hct : ¬(2 ≤ f.dir.toNat ∧ s.ct ≠ .v) := by
    rintro ⟨hd, hv⟩
    rcases hdir with ⟨hlt, -⟩ | ⟨-, hct, -⟩
    · omega
    · exact hv hct
  have hfit : ¬(f.dir.toNat < 2 ∧ 16 < f.f.toNat + f.s.bits) := by omega
  have hwide : ¬(2 ≤ f.dir.toNat ∧ f.s.w ≠ 16) := by omega
  unfold planPmov
  exact (if_neg hct).trans ((if_neg (by simp [hok])).trans ((if_neg hfit).trans (if_neg hwide)))

theorem planPmov_noFit (hok : s.here.slotOk s.cur.tag f.s = true) (hdir : f.dir.toNat < 2) (hfit : 16 < f.f.toNat + f.s.bits) :
    planPmov f s = .fault s .illegalOperand := by
  rw [planPmov]
  rw [if_neg (by omega), if_neg (by simp [hok]), if_pos ⟨hdir, hfit⟩]

theorem planPmov_noLanes (hdir : 2 ≤ f.dir.toNat) (hct : s.ct ≠ .v) : planPmov f s = .fault s .illegalInstruction := by
  rw [planPmov]
  rw [if_pos ⟨hdir, hct⟩]

end

theorem pmov_issues {f : PmovF} {s : State} (hready : Ready s (.pmov f)) (hok : s.here.slotOk s.cur.tag f.s = true) {g : Core → Core}
    (hdir : f.dir.toNat < 2 ∧ f.f.toNat + f.s.bits ≤ 16 ∨ 2 ≤ f.dir.toNat ∧ s.ct = .v ∧ f.s.w = 16)
    (hg : (match f.dir.toNat with
      | 0 => s.here.setPreds f.f.toNat f.s.bits (s.here.slotVal s.cur.tag f.s)
      | 1 => s.here.wrSlot s.cur.tag f.s (s.here.getPreds f.f.toNat f.s.bits)
      | 2 => s.here.setVpred f.k.toNat (BitVec.ofNat 64 (s.here.slotVal s.cur.tag f.s))
      | _ => s.here.wrSlot s.cur.tag f.s (s.here.vpredOf f.k.toNat).toNat) = g s.here)
    (hwalk : ((g s.here).engine s.cur.tag).walk = (s.here.engine s.cur.tag).walk) : Issues (.pmov f) s (s.modHere g) :=
  issues_of_regs rfl hready (planPmov_regs hok hdir) hg hwalk

/-! ### The statement -/

/-- Settles O17: once nothing holds them back, CMP, PLOG and PMOV issue with the register effects of their plans, and PMOV faults where its plan does. -/
theorem cePredicates : Obligations.CePredicates := by
  unfold Obligations.CePredicates
  refine ⟨fun f s hready ha hb => ?_, fun f s hready => ?_, fun f s hready hok => ?_⟩
  · refine ⟨fun hfmt => ?_, fun hfmt hwa hwb => ?_⟩
    · intro a b r hr
      refine issues_cmp hready ha hb (.inl hfmt) ?_
      rw [Core.cmpCond, if_pos hfmt, extI_cmpSrc _ _ hfmt, extI_cmpSrc _ _ hfmt]
      exact condInt_of_mem hr
    · intro a b un r hr
      refine issues_cmp hready ha hb (.inr ⟨hwa, hwb⟩) ?_
      rw [Core.cmpCond, if_neg hfmt]
      exact condFloat_of_mem rfl hr
  · refine issues_of_regs (plan := fun s => .regs s 1 _) rfl hready rfl ?_ rfl
    cases s.here.predBit f.pa.toNat <;> rfl
  · refine ⟨fun hd hfit => ?_, fun hd hfit x hx hbits => ?_, fun hd hct hw => ?_, fun hd hct hw => ?_, fun hd hfit => ?_, fun hd hct => ?_⟩
    · refine pmov_issues hready hok (.inl ⟨by rw [hd]; decide, hfit⟩) ?_ (congrArg Engine.walk (Core.foldl_setPred_engine ..))
      rw [hd]
      exact Core.setPreds_eq ..
    · refine pmov_issues hready hok (.inl ⟨by rw [hd]; decide, hfit⟩) ?_ rfl
      rw [hd]
      exact congrArg (s.here.wrSlot s.cur.tag f.s) ((Core.getPreds_eq_mod _ _ x _ hbits).trans (Nat.mod_eq_of_lt hx))
    · refine pmov_issues hready hok (.inr ⟨by rw [hd]; decide, hct, hw⟩) ?_ rfl
      rw [hd]
      rfl
    · refine pmov_issues hready hok (.inr ⟨by rw [hd]; decide, hct, hw⟩) ?_ rfl
      rw [hd]
      rfl
    · refine faults_of_plan rfl hready rfl (by decide) (planPmov_noFit hok ?_ hfit)
      rcases hd with hd | hd <;> rw [hd] <;> decide
    · refine faults_of_plan rfl hready rfl (by decide) (planPmov_noLanes ?_ hct)
      rcases hd with hd | hd <;> rw [hd] <;> decide

end Sys2Proof.Machine
end

section
/-! An instruction of the CE that its guard disables: its checks stay, and nothing else of it does (O26). -/

namespace Sys2Proof.Machine

open Sys2Proof

/-! ### What a disabled instruction is -/

/-- The state in which a disabled instruction is planned: it asks no bank of a buffer. -/
def State.unasking (s : State) : State := s.modHereE fun e => { e with asked := true, ask := [] }

/-- A plan whose checks of issue pass leaves a disabled instruction with its slot alone. -/
theorem Plan.disabled_go {p : Plan} (hp : ∀ x c n page, p = .bad x c n page → c.atIssue = false) (s : State) :
    ∃ g, p.disabled s = .go g ∧ g.s = s ∧ g.jump = none := by
  cases p with
  | bad x c n page => exact ⟨{ s := s }, by rw [Plan.disabled, hp x c n page rfl]; rfl, rfl, rfl⟩
  | wait x src opn => exact ⟨{ s := s }, rfl, rfl, rfl⟩
  | hold x n => exact ⟨{ s := s }, rfl, rfl, rfl⟩
  | go g => exact ⟨_, rfl, rfl, rfl⟩

/-- The checks that a disabled instruction makes are no traps (R100, R159). -/
theorem Cause.cls_ne_two_of_atIssue {c : Cause} (h : c.atIssue = true) : c.cls ≠ 2 := by
  revert h
  cases c <;> decide

section
variable {i : Instr} {plan : State → Plan} {s : State} (hexec : exec i s = issue s i plan) (hclear : Clear s i) (hoff : s.enabled (guardOf i) = false)
include hexec hclear hoff

theorem issues_disabled (hmid : s.midLoop (encode i).length = true) (hplan : ∀ x c n page, plan s.unasking = .bad x c n page → c.atIssue = false) :
    Issues i s s := by
  obtain ⟨g, hg, hs, hj⟩ := Plan.disabled_go hplan s
  have hgo : guarded plan s (s.enabled (guardOf i)) = .go g := by
    rw [hoff]
    exact hg
  obtain ⟨t, ht, hwent⟩ := issueIf_go hclear hgo (by rw [hs]) (by rw [hs]; exact hclear.unpaused) (.inr (by rw [hs]; exact hmid))
  rw [hs, hj] at hwent
  exact ⟨_, t, hexec.trans ht, hwent⟩

theorem raise_of_disabled (hown : isAll i = false) {x : State} {c : Cause} {n : W64} {page : Option Nat} (hplan : plan s.unasking = .bad x c n page)
    (hc : c.atIssue = true) : exec i s = .next (s.raise c n page) := by
  have hbad : guarded plan s (s.enabled (guardOf i)) = .bad s c n page := by
    rw [hoff]
    change Plan.disabled (plan s.unasking) s = _
    rw [hplan, Plan.disabled, if_pos hc]
  have hwaits : s.unpause = s := by
    simp [State.unpause, hclear.unpaused]
  rw [hexec, issue_clear hclear]
  simp [settle, hbad, hown, hwaits, Cause.cls_ne_two_of_atIssue hc]

end

/-! ### The operands of a disabled instruction are those of the instruction -/

theorem Core.srcOk_modEngine {k : Core} {t : Nat} {f : Engine → Engine} (hA : ∀ e, (f e).latA = e.latA) (hB : ∀ e, (f e).latB = e.latB) (b : Bool) (x : Src) :
    (k.modEngine t f).srcOk t b x = k.srcOk t b x := by
  cases x with
  | latch _ => simp only [Core.srcOk, Core.engine_modEngine, hA, hB]
  | _ => rfl

theorem State.unasking_here (s : State) : s.unasking.here = s.here.modEngine s.cur.tag fun e => { e with asked := true, ask := [] } :=
  State.core_modCore ..

theorem State.unasking_srcOk (s : State) (b : Bool) (x : Src) : s.unasking.here.srcOk s.cur.tag b x = s.here.srcOk s.cur.tag b x := by
  rw [State.unasking_here, Core.srcOk_modEngine] <;> exact fun _ => rfl

theorem State.unasking_slotOk (s : State) (o : Slot) : s.unasking.here.slotOk s.cur.tag o = s.here.slotOk s.cur.tag o := by
  rw [State.unasking_here]
  rfl

theorem State.unasking_ce2Ok (s : State) (d : Slot) (a b : Src) : s.unasking.here.ce2Ok s.cur.tag d a b = s.here.ce2Ok s.cur.tag d a b := by
  rw [Core.ce2Ok, Core.ce2Ok, State.unasking_slotOk, State.unasking_srcOk, State.unasking_srcOk]

/-! ### Plans that answer nothing but an issue once their operands are in range -/

/-- `mk` issues through a plan that goes once the operands of two sources and a destination are in range. -/
def GoesCe2 (mk : S3 → Instr) : Prop :=
  ∀ f, ∃ plan : State → Plan, (∀ s, exec (mk f) s = issue s (mk f) plan) ∧ ∀ s, s.here.ce2Ok s.cur.tag f.dst f.a f.b = true → ∃ g, plan s = .go g

theorem goesCe2_of_planCe2 {mk : S3 → Instr} {lat : Nat} {ctl : Bool} {v : S3 → Int → Int → Nat → Int × Flags}
    (h : ∀ f s, exec (mk f) s = issue s (mk f) (planCe2 f lat ctl (v f))) : GoesCe2 mk :=
  fun f => ⟨_, h f, fun _ hok => ⟨_, planCe2_go lat ctl (v f) hok⟩⟩

theorem goesCe2_ins : GoesCe2 .ins := by
  refine fun f => ⟨planIns f, fun _ => rfl, fun s hok => ?_⟩
  rw [planIns, if_neg (by simp [hok])]
  exact ⟨_, rfl⟩

theorem goesCe2_s3 : ∀ p ∈ ([.add, .sub, .mul, .mulh, .divi, .remi, .and, .or, .xor, .andn, .shl, .shr, .rot, .min, .max, .ext, .ins, .lea] :
    List (S3 → Instr)), GoesCe2 p := by
  simp only [List.forall_mem_cons, List.not_mem_nil, IsEmpty.forall_iff, implies_true, and_true]
  refine ⟨?_, ?_, ?_, ?_, ?_, ?_, ?_, ?_, ?_, ?_, ?_, ?_, ?_, ?_, ?_, ?_, goesCe2_ins, ?_⟩
  all_goals exact goesCe2_of_planCe2 fun _ _ => rfl

theorem planCe1_go {f : S2r} {v : Nat → Nat → Int} {s : State} (hdst : s.here.slotOk s.cur.tag f.dst = true)
    (ha : s.here.srcOk s.cur.tag false f.a = true) : ∃ g, planCe1 f v s = .go g := by
  rw [planCe1, if_neg (by simp [hdst, ha])]
  exact ⟨_, rfl⟩

theorem plansCe1 : ∀ p ∈ ([.clz, .popc, .mov] : List (S2r → Instr)), ∀ f, ∃ v, ∀ s, exec (p f) s = issue s (p f) (planCe1 f v) := by
  simp only [List.forall_mem_cons, List.not_mem_nil, IsEmpty.forall_iff, implies_true, and_true]
  and_intros <;> exact fun _ => ⟨_, fun _ => rfl⟩

theorem Plan.ne_bad_of_go {p : Plan} (h : ∃ g, p = .go g) (x : State) (c : Cause) (n : W64) (page : Option Nat) (hbad : p = .bad x c n page) :
    c.atIssue = false := by
  obtain ⟨g, hg⟩ := h
  rw [hg] at hbad
  cases hbad

/-- Settles O26: a disabled instruction raises the faults of its issue (`raise_of_disabled`) and otherwise issues with no effects of its own
(`issues_disabled`); that its waits and its other faults fall away with it is the model's choice (log 18). -/
theorem ceGuardedOff : Obligations.CeGuardedOff := by
  unfold Obligations.CeGuardedOff
  refine ⟨fun p hp f s hclear hmid hoff hok => ?_, fun p hp f s hclear hmid hoff hdst ha => ?_, fun p hp f s hclear hmid hoff hplan => ?_,
    fun i plan s hexec hown hclear hmid hoff => ⟨fun x c n page hplan hc => ?_, fun hplan => ?_⟩⟩
  · obtain ⟨plan, hexec, hgo⟩ := goesCe2_s3 p hp f
    exact issues_disabled (hexec s) hclear hoff hmid (Plan.ne_bad_of_go (hgo _ ((State.unasking_ce2Ok ..).trans hok)))
  · obtain ⟨v, hexec⟩ := plansCe1 p hp f
    exact issues_disabled (hexec s) hclear hoff hmid
      (Plan.ne_bad_of_go (planCe1_go ((State.unasking_slotOk ..).trans hdst) ((State.unasking_srcOk ..).trans ha)))
  · have hexec : exec (p.1 f) s = issue s (p.1 f) (p.2 f) := by
      simp only [List.mem_cons, List.not_mem_nil, or_false] at hp
      rcases hp with rfl | rfl <;> rfl
    exact issues_disabled hexec hclear hoff hmid hplan
  · exact raise_of_disabled (hexec s) hclear hoff hown hplan hc
  · exact issues_disabled (hexec s) hclear hoff hmid hplan

end Sys2Proof.Machine
end

section
/-! What operations in progress do as they take effect, and how contributions and results of collectives arrive (O53). -/

namespace Sys2Proof.Machine

open Sys2Proof

theorem State.id_of_flight {s : State} {id : Nat} {f : Flight} (h : s.flight id = some f) : f.id = id :=
  of_decide_eq_true (List.find?_some (p := fun f : Flight => decide (f.id = id)) h)

/-! ### What an operation does once it reads nothing uncorrectable -/

section
variable {s s1 : State} {f : Flight} {runs : List Run}

theorem State.landLoad_sound {n : Nat} (h : (s.endFlight f).consumeRuns f runs = (s1, true)) (ovl : List (Nat × Slice)) (start w : Nat) (fs sat : Bool)
    (commit : Nat) :
    s.landLoad f runs ovl start w fs sat n commit = s1.modCore f.core fun k =>
      (k.landRegs f.id fun k => { k with scalar := wrSlices k.scalar start w (intResult sat fs (extI fs (leNat (readRuns s1.mem ovl runs)) (8 * n)) (4 * w)).1 }).raiseOp
        f.tag f.id (max commit (s1.tickOf f)) (intResult sat fs (extI fs (leNat (readRuns s1.mem ovl runs)) (8 * n)) (4 * w)).2 := by
  simp only [State.landLoad, h]

theorem State.landFill_sound (h : (s.endFlight f).consumeRuns f runs = (s1, true)) (ovl : List (Nat × Slice)) (start cnt : Nat) :
    s.landFill f runs ovl start cnt = s1.modCore f.core fun k =>
      k.landRegs f.id fun k => { k with scalar := wrSlices k.scalar start cnt (leNat (readRuns s1.mem ovl runs)) } := by
  simp only [State.landFill, h]

theorem State.landVload_sound {lanes : List (Nat × Nat)} {w : Nat}
    (h : (s.endFlight f).consumeRuns f (lanes.map fun p => { va := 0, pa := p.2, len := sliceBytes w }) = (s1, true)) (start : Nat) :
    s.landVload f lanes start w = s1.modCore f.core fun k => k.landRegs f.id fun k =>
      { k with lanes := lanes.foldl (fun m p => wrSlices m (laneBase p.1 + start) w (rdLe s1.mem p.2 (sliceBytes w))) k.lanes } := by
  simp only [State.landVload, h]

theorem State.landTransfer_sound (h : s.consumeRuns f runs = (s1, true)) (img : List Byte) (dst : List Run) (fins : List Fin) :
    s.landTransfer f runs img dst fins =
      let t := ((s1.storeCells ((spreadBytes dst (transferBytes s1.mem runs img)).map fun p => (p.2.1, p.2.2))).noteBanks (dst.map fun r => r.pa)).retime
        f.id f.due (.write [] fins)
      { t with agenda := .asyncCompletion f.id :: t.agenda } := by
  simp only [State.landTransfer, h]

/-- An atomic at its bank (R150, R151): the old value goes to the destination. -/
theorem State.landAtomic_sound {pa : Nat} {s64 : Bool} (h : (s.endFlight f).consumeRuns f [{ va := 0, pa := pa, len := szBits s64 / 8 }] = (s1, true))
    (aop x ex start w : Nat) (fs : Bool) (pd : Option Nat) :
    s.landAtomic f pa aop s64 x ex start w fs pd =
      let m := rdLe s1.mem pa (szBits s64 / 8)
      let hit := decide (aop ≠ 13) || decide (m = ex)
      (if hit then (s1.store pa (leBytes (szBits s64 / 8) (atomNew aop (szBits s64) m x))).noteBanks [pa] else s1).modCore f.core fun k =>
        k.landRegs f.id fun k =>
          let k : Core := if w = 0 then k else { k with scalar := wrSlices k.scalar start w (wrapI (extI fs m (szBits s64)) (4 * w)) }
          match pd with
          | some p => k.setPred p hit
          | none => k := by
  cases pd <;> simp only [State.landAtomic, h]

end

/-! ### The events by which operations take effect -/

section
variable {s : State} {id : Nat} {f : Flight} (hf : s.flight id = some f)
include hf

theorem exec_of_roleLost (h : s.roleLost f = true) :
    exec (.memoryEffectCommit id) s = .next (s.failFlight f .bufferAccess 0) ∧ exec (.bankAluAtomic id) s = .next (s.failFlight f .bufferAccess 0) := by
  constructor
  · change execMemoryEffectCommit id s = _
    simp only [execMemoryEffectCommit, hf, h, if_true]
  · change execBankAluAtomic id s = _
    simp only [execBankAluAtomic, hf, h, if_true]

theorem exec_of_staleByte {a : Nat} (h : s.staleByte f = some a) : exec (.openTimeLanding id) s = .next (s.failFlight f .remoteMap (BitVec.ofNat 64 a)) := by
  change execOpenTimeLanding id s = _
  simp only [execOpenTimeLanding, hf, h]

/-- What takes effect alike at a fixed tick and at an open one. -/
theorem exec_landing {e : Nat → Instr}
    (he : e = Instr.memoryEffectCommit ∧ s.roleLost f = false ∨ e = Instr.openTimeLanding ∧ s.staleByte f = none) :
    (∀ runs ovl start w fs sat n commit, f.work = .load runs ovl start w fs sat n commit →
      exec (e id) s = .next (s.landLoad f runs ovl start w fs sat n commit)) ∧
    (∀ runs ovl start cnt, f.work = .fill runs ovl start cnt → exec (e id) s = .next (s.landFill f runs ovl start cnt)) ∧
    (∀ ns, f.work = .nibbles ns → exec (e id) s = .next (((s.endFlight f).storeNibs ns).noteBanks (ns.map fun p => p.1 / 2))) ∧
    (∀ pa n s1, f.work = .arrive pa n → (s.endFlight f).consumeRuns f [{ va := 0, pa := pa, len := 16 }] = (s1, true) →
      exec (e id) s = .next (s1.arrive pa n)) ∧
    (f.work = .drained → exec (e id) s = .next (s.dropFlight id)) := by
  rcases he with ⟨rfl, h⟩ | ⟨rfl, h⟩
  · change (∀ runs ovl start w fs sat n commit, _ → execMemoryEffectCommit id s = _) ∧ (∀ runs ovl start cnt, _ → execMemoryEffectCommit id s = _) ∧
      (∀ ns, _ → execMemoryEffectCommit id s = _) ∧ (∀ pa n s1, _ → _ → execMemoryEffectCommit id s = _) ∧ (_ → execMemoryEffectCommit id s = _)
    simp +contextual only [execMemoryEffectCommit, hf, h, Bool.false_eq_true, if_false, implies_true, and_self]
  · change (∀ runs ovl start w fs sat n commit, _ → execOpenTimeLanding id s = _) ∧ (∀ runs ovl start cnt, _ → execOpenTimeLanding id s = _) ∧
      (∀ ns, _ → execOpenTimeLanding id s = _) ∧ (∀ pa n s1, _ → _ → execOpenTimeLanding id s = _) ∧ (_ → execOpenTimeLanding id s = _)
    simp +contextual only [execOpenTimeLanding, hf, h, implies_true, and_self]

/-- What takes effect at a fixed tick alone. -/
theorem exec_memoryEffectCommit (h : s.roleLost f = false) :
    (∀ ws fins, f.work = .write ws fins → exec (.memoryEffectCommit id) s = .next (s.landCells f ws fins)) ∧
    (∀ lanes start w, f.work = .vload lanes start w → exec (.memoryEffectCommit id) s = .next (s.landVload f lanes start w)) ∧
    (∀ busy, f.work = .late busy → exec (.memoryEffectCommit id) s = .next (s.lateStart f busy)) ∧
    (∀ op off n out fins, f.work = .beats op none off n out fins → exec (.memoryEffectCommit id) s = .next (s.endBeats f fins)) := by
  change (∀ ws fins, _ → execMemoryEffectCommit id s = _) ∧ (∀ lanes start w, _ → execMemoryEffectCommit id s = _) ∧
    (∀ busy, _ → execMemoryEffectCommit id s = _) ∧ (∀ op off n out fins, _ → execMemoryEffectCommit id s = _)
  simp +contextual only [execMemoryEffectCommit, hf, h, Bool.false_eq_true, if_false, implies_true, and_self, State.landBeats]

theorem exec_atomic {e : Nat → Instr} (he : e = Instr.bankAluAtomic ∧ s.roleLost f = false ∨ e = Instr.openTimeLanding ∧ s.staleByte f = none)
    {pa aop x ex start w : Nat} {s64 fs : Bool} {pd : Option Nat} (hw : f.work = .atomic pa aop s64 x ex start w fs pd) :
    exec (e id) s = .next (s.landAtomic f pa aop s64 x ex start w fs pd) := by
  rcases he with ⟨rfl, h⟩ | ⟨rfl, h⟩
  · change execBankAluAtomic id s = _
    simp only [execBankAluAtomic, hf, h, hw, Bool.false_eq_true, if_false]
  · change execOpenTimeLanding id s = _
    simp only [execOpenTimeLanding, hf, h, hw]

theorem exec_transfer {e : Nat → Instr} (he : e = Instr.transferCommit ∨ e = Instr.openTimeLanding ∧ s.staleByte f = none) :
    (∀ src img dst ls last hs fins, f.work = .copy src img dst ls last hs fins → exec (e id) s = .next (s.landTransfer f src img dst fins)) ∧
    (∀ ws fins, f.work = .write ws fins →
      let t := ((s.storeCells ws).noteBanks (ws.map fun w => w.1)).retime id f.due (.write [] fins)
      exec (e id) s = .next { t with agenda := .asyncCompletion id :: t.agenda }) := by
  rcases he with rfl | ⟨rfl, h⟩
  · change (∀ src img dst ls last hs fins, _ → execTransferCommit id s = _) ∧ (∀ ws fins, _ → execTransferCommit id s = _)
    simp +contextual only [execTransferCommit, hf, implies_true, and_self]
  · change (∀ src img dst ls last hs fins, _ → execOpenTimeLanding id s = _) ∧ (∀ ws fins, _ → execOpenTimeLanding id s = _)
    simp +contextual only [execOpenTimeLanding, hf, h, implies_true, and_self]

theorem exec_asyncCompletion : exec (.asyncCompletion id) s = .next ((s.endFlight f).signal f.work.fins) := by
  change execAsyncCompletion id s = _
  simp only [execAsyncCompletion, hf]

theorem exec_lateAccessComplete : exec (.lateAccessComplete id) s = .next ((s.endFlight f).unclaimOne f.grp 5) := by
  change execLateAccessComplete id s = _
  simp only [execLateAccessComplete, hf]

theorem exec_translationCacheFill {die : Nat} {keys : List (Bool × Nat)} (hw : f.work = .walk die keys) : exec (.translationCacheFill id) s =
    .next (((s.endFlight f).cacheAll die ((s.group f.grp).elim 0 fun g => g.job) f.grp keys).unclaimOne f.grp 6) := by
  change execTranslationCacheFill id s = _
  simp only [execTranslationCacheFill, hf, hw]

theorem exec_linkCrcFailure (x y : Nat) : exec (.linkCrcFailure id x y) s =
    .next ((s.countDie y).failFlight f .linkCrc (BitVec.ofNat 64 (x % 256 + y % 256 * 256))) := by
  change execLinkCrcFailure id x y s = _
  simp only [execLinkCrcFailure, hf]

theorem exec_flitReplay (x y : Nat) : exec (.flitReplay id x y) s = if x < 9 then .next s else .next (s.failFlight f .fabricFlit (BitVec.ofNat 64 (y % 256))) := by
  change execFlitReplay id x y s = _
  simp only [execFlitReplay, hf]

end

/-! ### Contributions and results (R264, R385 to R391) -/

section
variable {s : State} {c : Contrib}

theorem exec_contribution_gone {m : Nat} (h : s.goneMember c = some m) : exec (.collContributionArrival c) s =
    .next (({ s with colls := s.colls.filter fun y => !y.isOf c } : State).collError (((s.colls.find? fun x => x.isOf c).elim [] fun x => x.parts) ++ [c])
      .moduleDeparted (BitVec.ofNat 64 m)) := by
  change execCollContributionArrival c s = _
  simp only [execCollContributionArrival, h]

variable (hgone : s.goneMember c = none)
include hgone

/-- The first of several contributions forms a collective. -/
theorem exec_contribution_first (hnew : ∀ x ∈ s.colls, x.isOf c = false) (hn : c.ncont ≠ 1) : exec (.collContributionArrival c) s =
    .next { s with colls := s.colls ++ [{ xdie := s.xdieOf c.collid, parts := [c], formed := false, received := if c.core = none then [c.rank] else [] }] } := by
  have hfind : (s.colls.find? fun x => x.isOf c) = none := by
    simpa using hnew
  change execCollContributionArrival c s = _
  simp [execCollContributionArrival, hgone, hfind, hn]

variable {x : Coll} (hx : (s.colls.find? fun y => y.isOf c) = some x)
include hx

theorem exec_contribution_differs (hdiff : ∃ p ∈ x.parts, contribSame p c = false) : exec (.collContributionArrival c) s =
    .next (({ s with colls := s.colls.filter fun y => !y.isOf c } : State).collError (x.parts ++ [c]) .collMismatch (BitVec.ofNat 64 c.collid)) := by
  have hany : (x.parts.any fun p => !contribSame p c) = true := by
    simpa using hdiff
  change execCollContributionArrival c s = _
  simp only [execCollContributionArrival, hgone, hx, hany, Bool.true_or, if_true]

/-- A contribution of a rank that has none yet joins the collective. -/
theorem exec_contribution_joins (hsame : ∀ p ∈ x.parts, contribSame p c = true) (hrank : ∀ p ∈ x.parts, p.rank ≠ c.rank) :
    exec (.collContributionArrival c) s =
      let full := decide (x.parts.length + 1 = c.ncont)
      let s1 : State := { s with colls := s.colls.map fun y => if y.isOf c then
        { x with parts := x.parts ++ [c], formed := full, received := if c.core = none then (c.rank :: x.received).eraseDups else x.received } else y }
      .next ((if !full then s1 else if x.formed then s1.deliver c else (x.parts ++ [c]).foldl State.deliver s1).releaseColls) := by
  have hany : (x.parts.any fun p => !contribSame p c) = false := by
    simpa using hsame
  have hold : (x.parts.find? fun p => decide (p.rank = c.rank)) = none := by
    simpa using hrank
  change execCollContributionArrival c s = _
  simp only [execCollContributionArrival, hgone, hx, hany, hold, Option.elim_none, Bool.or_self, Bool.false_eq_true, if_false, if_true,
    List.length_append, List.length_singleton, Option.isNone_iff_eq_none]

end

/-! ### A result reaches its contributor (R264, R388, R390, R391) -/

/-- What a result writes at its destination, of a format without blocks. -/
def State.storeResult (s : State) (core : Nat) (me : Contrib) (els : List Byte) : State :=
  if me.op = 6 ∨ collOut me.op me.count me.ncont = 0 then s
  else s.storeVa core me.dst (els.take (ceilDiv (collOut me.op me.count me.ncont * collBits me.dfmt) 8))

theorem exec_collResult {s : State} {id : Nat} {f : Flight} {me : Contrib} {x : Coll} (hf : s.flight id = some f) (hw : f.work = .deliver me)
    (hx : (s.colls.find? fun y => y.isOf me) = some x) (hfmt : attrBlock me.dfmt = false) :
    exec (.collResult id) s =
      let s2 := ((s.dropFlight id).dropDst me).storeResult f.core me (collResultFor x.parts me).els
      let s3 : State := { s2 with colls := s2.colls.map fun y => if y.isOf me then y.settleRank me.rank (!me.inseg) else y }
      .next (((s3.modCore f.core fun k => k.raise (s.reckOf f.core) (collResultFor x.parts me).flags).signal
        (me.tag.elim [] fun t => [.tag f.core t])).releaseColls) := by
  have hcolls : (((s.dropFlight id).dropDst me).colls.find? fun y => y.isOf me) = some x := hx
  change execCollResult id s = _
  by_cases hn : me.op = 6 ∨ collOut me.op me.count me.ncont = 0
  · simp only [execCollResult, hf, hw, hcolls, hfmt, Bool.false_eq_true, if_false, State.storeResult, if_pos hn]
    rfl
  · simp only [execCollResult, hf, hw, hcolls, hfmt, Bool.false_eq_true, if_false, State.storeResult, if_neg hn]
    rfl

/-! ### The statement -/

/-- Settles O53: each event looks its operation up and lands it; what it lands are the equations above. -/
theorem operationsTakeEffect : Obligations.OperationsTakeEffect := by
  unfold Obligations.OperationsTakeEffect
  refine ⟨⟨?_, ?_, ?_, ?_, ?_, ?_⟩, ?_, ?_, ?_⟩
  · intro e id s f hf he
    obtain ⟨hload, hfill, hnibbles, harrive, hdrained⟩ := exec_landing hf he
    obtain rfl := State.id_of_flight hf
    refine ⟨fun runs ovl start w fs sat n commit hw hsound => ?_, fun runs ovl start cnt hw hsound => ?_, hnibbles,
      fun pa n hw hsound => harrive pa n _ hw hsound, hdrained⟩
    · rw [hload _ _ _ _ _ _ _ _ hw, State.landLoad_sound hsound]
    · rw [hfill _ _ _ _ hw, State.landFill_sound hsound]
  · intro id s f hf
    obtain hlost := exec_of_roleLost hf
    refine ⟨fun h e he => ?_, fun a h => exec_of_staleByte hf h⟩
    rcases he with rfl | rfl
    · exact (hlost h).1
    · exact (hlost h).2
  · intro id s f hf hrole
    obtain ⟨hwrite, hvload, hlate, hbeats⟩ := exec_memoryEffectCommit hf hrole
    obtain rfl := State.id_of_flight hf
    refine ⟨hwrite, fun lanes start w hw hsound => ?_, hlate, hbeats⟩
    rw [hvload _ _ _ hw, State.landVload_sound hsound]
  · intro id s f pa aop s64 x ex start w fs pd hf hw
    obtain rfl := State.id_of_flight hf
    have hbytes : (if s64 then 8 else 4) = szBits s64 / 8 := by
      cases s64 <;> rfl
    have hbits : 8 * (szBits s64 / 8) = szBits s64 := by
      cases s64 <;> rfl
    simp only [hbytes, hbits]
    intro hsound e he
    have hland := exec_atomic hf he hw
    rw [State.landAtomic_sound hsound] at hland
    exact hland
  · intro e id s f hf he
    obtain ⟨hcopy, hwrite⟩ := exec_transfer hf he
    refine ⟨fun src img dst ls last hs fins hw hsound => ?_, hwrite⟩
    have hland := hcopy _ _ _ _ _ _ _ hw
    rw [State.landTransfer_sound hsound] at hland
    exact hland
  · exact fun id s f hf => ⟨exec_asyncCompletion hf, exec_lateAccessComplete hf, fun die keys hw => exec_translationCacheFill hf hw⟩
  · refine fun id x y s f hf => ⟨exec_linkCrcFailure hf x y, fun h => ?_, fun h => ?_⟩
    · exact (exec_flitReplay hf x y).trans (if_pos h)
    · exact (exec_flitReplay hf x y).trans (if_neg (Nat.not_lt.2 h))
  · refine fun c s => ⟨fun m h => exec_contribution_gone h, fun hgone hnew hn => exec_contribution_first hgone hnew hn,
      fun x hgone hx hdiff => exec_contribution_differs hgone hx hdiff, fun x hgone hx hsame hrank => ⟨fun hn => ?_, fun hn hformed => ?_⟩⟩
    · rw [exec_contribution_joins hgone hx hsame hrank]
      simp [hn]
    · rw [exec_contribution_joins hgone hx hsame hrank]
      simp [hn, hformed]
  · exact fun id s f me x hf hw hx hfmt => exec_collResult hf hw hx hfmt

end Sys2Proof.Machine
end

section
/-! The control engine's arithmetic beyond the exact two-source operations: DIVI and REMI, LEA, CLZ, POPC, the moves, EXT and INS, SEL (O12 to O16). -/

namespace Sys2Proof.Machine

open Sys2Proof

/-! ### DIVI and REMI (R132) -/

theorem divRem_eq (rem : Bool) (a b : Int) :
    divRem rem a b = (if rem then (if b = 0 then a else a - b * a.tdiv b) else (if b = 0 then -1 else a.tdiv b), if b = 0 then fDZ else 0) := by
  unfold divRem
  by_cases hb : b = 0
  · simp only [if_pos hb]
  · simp only [if_neg hb]

/-- Settles O12: DIVI and REMI are two-source plans of `divRem`, whose flag is that of a zero divisor. -/
theorem ceDivision : Obligations.CeDivision := by
  refine fun f s hok => ⟨fun hready => ?_, fun hready => ?_⟩
  · exact issues_after2 rfl hready hok (divRem_eq false _ _)
  · exact issues_after2 rfl hready hok (divRem_eq true _ _)

/-! ### LEA (R140) -/

theorem leaShift_of_mem {xs : BitVec 2} {sh : Nat} (h : (xs, sh) ∈ ([(0, 0), (1, 2), (2, 3), (3, 6)] : List (BitVec 2 × Nat))) : leaShift xs = sh := by
  simp only [List.mem_cons, List.not_mem_nil, or_false, Prod.mk.injEq] at h
  rcases h with ⟨rfl, rfl⟩ | ⟨rfl, rfl⟩ | ⟨rfl, rfl⟩ | ⟨rfl, rfl⟩ <;> rfl

/-- Settles O13: LEA is a two-source plan whose scale is that of its XS field. -/
theorem ceLea : Obligations.CeLea := by
  intro f s hready hok sh hsh
  refine issues_after2 rfl hready hok ?_
  rw [leaShift_of_mem hsh, Nat.cast_pow, Nat.cast_ofNat]
  rfl

/-! ### CLZ, POPC, MOV, MOVI and MOVI.hi (R133, R134) -/

theorem wrapI_lt (v : Int) (w : Nat) : wrapI v w < 2 ^ w := by
  have hpos : (0 : Int) < ((2 ^ w : Nat) : Int) := by exact_mod_cast Nat.two_pow_pos w
  rw [wrapI, Int.toNat_lt (Int.emod_nonneg _ hpos.ne')]
  exact Int.emod_lt_of_pos _ hpos

theorem wrapI_mod (v : Int) (w : Nat) : wrapI v w % 2 ^ w = wrapI v w := Nat.mod_eq_of_lt (wrapI_lt v w)

/-- A number of leading zeros within `w` bits is the model's count. -/
theorem clzOf_eq {a w z : Nat} (hz : z ≤ w) (hlt : a % 2 ^ w < 2 ^ (w - z)) (hge : z < w → 2 ^ (w - z - 1) ≤ a % 2 ^ w) : clzOf a w = z := by
  unfold clzOf
  by_cases h0 : a % 2 ^ w = 0
  · have hzw : ¬z < w := fun h => (Nat.two_pow_pos (w - z - 1)).not_ge (h0 ▸ hge h)
    rw [if_pos h0]
    omega
  · have hzw : z < w := hz.lt_of_ne fun h => h0 (by simpa [h] using hlt)
    have hlog : Nat.log2 (a % 2 ^ w) = w - z - 1 := by
      rw [Nat.log2_eq_iff h0, Nat.sub_add_cancel (Nat.sub_pos_of_lt hzw)]
      exact ⟨hge hzw, hlt⟩
    rw [if_neg h0, hlog]
    omega

/-- A one-source instruction issues with the result of its operation. -/
theorem issues_after1 {i : Instr} {s : State} {f : S2r} {v : Nat → Nat → Int} {x : Int} (hexec : exec i s = issue s i (planCe1 f v)) (hready : Ready s i)
    (hdst : s.here.slotOk s.cur.tag f.dst = true) (ha : s.here.srcOk s.cur.tag false f.a = true)
    (hv : v (s.here.srcVal s.cur.tag false f.fs f.dst.w f.a) (4 * s.here.srcW s.cur.tag false f.dst.w f.a) = x) : Issues i s (s.after1 f x) := by
  have hplan : ∃ g, planCe1 f v s = .regs s 1 g ∧ g s.here = (s.here.holdSrc s.cur.tag false f.fs f.dst.w f.a).wrSlot s.cur.tag f.dst (wrapI x f.dst.bits) := by
    rw [planCe1, if_neg (by simp [hdst, ha]), ← hv]
    exact ⟨_, rfl, rfl⟩
  obtain ⟨g, hg, hx⟩ := hplan
  exact issues_of_regs hexec hready hg hx (by simp)

/-- An instruction that writes a value of its destination's width issues. -/
theorem issues_planWr {i : Instr} {plan : State → Plan} {s : State} {dst : Slot} {lat : Nat} {v : State → Nat} (hexec : exec i s = issue s i plan)
    (hready : Ready s i) (hdst : s.here.slotOk s.cur.tag dst = true) (hplan : plan s = planWr dst lat v s) :
    Issues i s (s.modHere fun k => k.wrSlot s.cur.tag dst (v s % 2 ^ dst.bits)) := by
  rw [planWr, if_neg (by simp [hdst])] at hplan
  exact issues_of_regs hexec hready hplan rfl rfl

theorem planMoviHi_regs {f : MoviF} {s : State} (hdst : s.here.slotOk s.cur.tag f.dst = true) (hwide : 22 < f.dst.bits) :
    planMoviHi f s = .regs s 1 fun k =>
      k.wrSlot s.cur.tag f.dst (f.imm.toNat % 2 ^ (f.dst.bits - 22) * 2 ^ 22 + k.slotVal s.cur.tag f.dst % 2 ^ 22) := by
  rw [planMoviHi, if_neg (by simp [hdst, hwide])]

/-- Settles O14: the one-source plans of CLZ, POPC and MOV issue with their operation's result, MOVI with its immediate, and MOVI.hi above the 22 bits that
it leaves, or faults where there are none. -/
theorem ceMoves : Obligations.CeMoves := by
  refine ⟨fun f s hdst ha => ⟨fun hready z hz hbounds => ?_, fun hready => ?_, fun hready => ?_⟩,
    fun f s hdst => ⟨fun hready => ?_, fun hready hwide => ?_, fun hready hnarrow => ?_⟩⟩
  · exact issues_after1 rfl hready hdst ha (congrArg Nat.cast (clzOf_eq hz hbounds.1 hbounds.2))
  · refine issues_after1 rfl hready hdst ha ?_
    simp only [popcOf, bitN_eq_testBit]
  · exact issues_after1 rfl hready hdst ha rfl
  · have hissues := issues_planWr (i := .movi f) rfl hready hdst rfl
    simpa only [wrapI_mod] using hissues
  · exact issues_of_regs rfl hready (planMoviHi_regs hdst hwide) rfl rfl
  · refine faults_of_plan (plan := planMoviHi f) rfl hready rfl (by decide) ?_
    rw [planMoviHi, if_pos (by simp [hnarrow])]

/-! ### EXT and INS (R135) -/

/-- A field above `p` bits of an integer reduced to more bits than the field reaches. -/
theorem emod_ediv_emod (y p q r : Int) (hp : p ≠ 0) : y % (p * (q * r)) / p % q = y / p % q := by
  have hcut : y % (p * (q * r)) = y + p * (q * (r * -(y / (p * (q * r))))) := by
    rw [Int.emod_def]
    ring
  rw [hcut, Int.add_mul_ediv_left _ _ hp, Int.add_mul_emod_self_left]

/-- A field of a word that its sign continues upward. -/
theorem toNat_extractLsb_signExtend (x : BitVec 64) {pos len : Nat} (h : pos + len ≤ 128) :
    ((x.signExtend 128).extractLsb' pos len).toNat = wrapI (x.toInt / ((2 ^ pos : Nat) : Int)) len := by
  have hpow : (2 ^ 128 : Nat) = 2 ^ pos * (2 ^ len * 2 ^ (128 - pos - len)) := by
    rw [← Nat.pow_add, ← Nat.pow_add]
    congr 1
    omega
  have hpos : ((2 ^ pos : Nat) : Int) ≠ 0 := by exact_mod_cast (Nat.two_pow_pos pos).ne'
  have hx : ((x.signExtend 128).toNat : Int) = x.toInt % ((2 ^ 128 : Nat) : Int) := by
    rw [BitVec.signExtend, BitVec.toNat_ofInt]
    exact Int.toNat_of_nonneg (Int.emod_nonneg _ (by norm_num))
  rw [BitVec.extractLsb'_toNat, Nat.shiftRight_eq_div_pow, wrapI, ← emod_ediv_emod x.toInt _ _ ((2 ^ (128 - pos - len) : Nat) : Int) hpos,
    ← Nat.cast_mul, ← Nat.cast_mul, ← hpow, ← hx, ← Int.natCast_ediv, ← Int.natCast_emod, Int.toNat_natCast]

theorem sext_toNat {w : Nat} (x : BitVec w) : sext x.toNat w = x.toInt := by
  rw [BitVec.toInt_eq_toNat_cond, sext, Nat.mod_eq_of_lt x.isLt]
  cases w with
  | zero => simp [BitVec.eq_nil x]
  | succ w =>
    have hhalf : 2 * x.toNat < 2 ^ (w + 1) ↔ x.toNat < 2 ^ (w + 1 - 1) := by
      rw [Nat.pow_succ, Nat.add_sub_cancel]
      omega
    rw [if_neg w.succ_ne_zero]
    simp only [hhalf]

/-- EXT takes its field as a bit vector does. -/
theorem extField_eq (fs : Bool) (a : Int) (b : Nat) :
    extField fs a b =
      let e := ((BitVec.ofInt 64 a).signExtend 128).extractLsb' (b % 64) (b / 64 % 64 + 1)
      if fs then e.toInt else e.toNat := by
  have hfield := toNat_extractLsb_signExtend (BitVec.ofInt 64 a) (show b % 64 + (b / 64 % 64 + 1) ≤ 128 by omega)
  simp only [extField, ← hfield, extI, sext_toNat, zext, Nat.mod_eq_of_lt (BitVec.isLt _)]

/-- Bit by bit, INS takes the field from source A and the rest from the destination. -/
theorem testBit_insField (old a b wd i : Nat) :
    (insField old a b wd).testBit i =
      (decide (i < wd) && if b % 64 ≤ i ∧ i < b % 64 + (b / 64 % 64 + 1) then a.testBit (i - b % 64) else old.testBit i) := by
  rw [insField, Nat.testBit_mod_two_pow, ← testBit_putBits]
  rfl

theorem eq_insField {old a b wd v : Nat} (hv : v < 2 ^ wd)
    (h : ∀ i, i < wd → v.testBit i = if b % 64 ≤ i ∧ i < b % 64 + (b / 64 % 64 + 1) then a.testBit (i - b % 64) else old.testBit i) :
    insField old a b wd = v :=
  Nat.eq_of_testBit_eq fun i => by
    rw [testBit_insField]
    by_cases hi : i < wd
    · rw [decide_eq_true hi, Bool.true_and, h i hi]
    · rw [decide_eq_false hi, Bool.false_and, Nat.testBit_lt_two_pow (hv.trans_le (Nat.pow_le_pow_right (by decide) (Nat.not_lt.1 hi)))]

theorem planIns_regs {f : S3} {s : State} (hok : s.here.ce2Ok s.cur.tag f.dst f.a f.b = true) :
    ∃ g, planIns f s = .regs s 1 g ∧ g s.here = ((s.here.holdSrc s.cur.tag false false f.dst.w f.a).holdLatch s.cur.tag true f.b (s.here.ctlVal s.cur.tag true f.b)
      (s.here.srcW s.cur.tag true f.dst.w f.b)).wrSlot s.cur.tag f.dst
        (insField (s.here.slotVal s.cur.tag f.dst) (s.here.srcVal s.cur.tag false false f.dst.w f.a) (s.here.ctlVal s.cur.tag true f.b) f.dst.bits) := by
  rw [planIns, if_neg (by simp [hok])]
  exact ⟨_, rfl, rfl⟩

/-- Settles O15: EXT is a two-source plan of its field, INS writes the number that has the stated bits, and its checks at issue exclude FS and SAT. -/
theorem ceFields : Obligations.CeFields := by
  refine ⟨fun f s hready hok => ?_, fun f s hready hok => ?_, fun f hf => ?_⟩
  · exact issues_after2 (ctl := true) rfl hready hok (congrArg (·, 0) (extField_eq ..))
  · intro b a old v hv hbits
    obtain ⟨g, hg, hx⟩ := planIns_regs hok
    rw [eq_insField hv hbits] at hx
    exact issues_of_regs rfl hready hg hx (by simp)
  · have hfields := fieldsOk4_of_wellFormed hf
    simp only [fieldsOk4, ceOk4, subUse, Bool.false_or, Bool.and_eq_true, Bool.not_eq_true'] at hfields
    tauto

/-! ### SEL (R136) -/

/-- What SEL does to the core once it has chosen `v`. -/
def Core.selWrite (k : Core) (t : Nat) (f : S3c) (v : Int) : Core :=
  ((k.holdSrc t false f.fs f.dst.w f.a).holdSrc t true f.fs f.dst.w f.b).wrSlot t f.dst (wrapI v f.dst.bits)

theorem issues_sel {f : S3c} {s : State} (hready : Ready s (.sel f)) (hok : s.here.ce2Ok s.cur.tag f.dst f.a f.b = true)
    (hc : s.here.slotOk s.cur.tag (slotC f.c f.dst) = true) {v : Int}
    (hv : (if s.here.slotVal s.cur.tag (slotC f.c f.dst) ≠ 0 then s.here.srcInt s.cur.tag false f.fs f.dst.w f.a
      else s.here.srcInt s.cur.tag true f.fs f.dst.w f.b) = v) : Issues (.sel f) s (s.modHere fun k => k.selWrite s.cur.tag f v) := by
  have hplan : ∃ g, planSel f s = .regs s 1 g ∧ g s.here = s.here.selWrite s.cur.tag f v := by
    rw [planSel, if_neg (by simp [hok, hc]), ← hv]
    exact ⟨_, rfl, rfl⟩
  obtain ⟨g, hg, hx⟩ := hplan
  exact issues_of_regs rfl hready hg hx (by simp [Core.selWrite])

/-- Settles O16: SEL writes the source that source C, which has the destination's width, selects. -/
theorem ceSelect : Obligations.CeSelect := by
  refine ⟨fun f s hready hok hc => ⟨fun h => ?_, fun h => ?_⟩, fun f => ⟨rfl, fun hf => ?_⟩⟩
  · exact issues_sel hready hok hc (if_pos h)
  · exact issues_sel hready hok hc (if_neg (not_not.2 h))
  · have hfields := fieldsOk4_of_wellFormed hf
    simp only [fieldsOk4, Bool.and_eq_true, Bool.not_eq_true', decide_eq_true_eq] at hfields
    tauto

end Sys2Proof.Machine
end

section
/-! Windows and circular buffers from the control engine: SETW, GETW, CBSET and CBADV (O18). -/

namespace Sys2Proof.Machine

open Sys2Proof

/-! ### Plans whose effects are more than register writes -/

/-- An access, and an operation put into flight, leave the engine at the cursor where it stands; so does an update of its core that keeps its walk. -/
theorem State.modHere_walk_of_rim {s s' : State} (hrim : s'.rim = s.rim) {f : Core → Core}
    (hf : ((f s.here).engine s.cur.tag).walk = (s.here.engine s.cur.tag).walk) : (s'.modHere f).hereE.walk = s.hereE.walk := by
  have hhere : s'.here = s.here := by
    rw [State.here, State.here, State.core, State.core, State.rim_cores hrim, State.rim_cur hrim]
  have htag : s'.cur.tag = s.cur.tag := by rw [State.rim_cur hrim]
  rw [State.modHere_walk s' f (by rw [hhere, htag]; exact hf), State.hereE, State.hereE, hhere, htag]

/-- An instruction that puts operations into flight and then writes the core at the cursor issues with these effects. -/
theorem issues_of_go {i : Instr} {plan : State → Plan} {s s' : State} {f : Core → Core} {g : Go} (hexec : exec i s = issue s i plan)
    (hready : Ready s i) (hplan : plan s = .go g) (hgo : g.s = s'.modHere f) (hrim : s'.rim = s.rim)
    (hf : ((f s.here).engine s.cur.tag).walk = (s.here.engine s.cur.tag).walk) (hj : g.jump = none) : Issues i s (s'.modHere f) := by
  have hcur : g.s.cur = s.cur := by
    rw [hgo]
    exact (State.rim_cur hrim : s'.cur = s.cur)
  obtain ⟨t, ht, hwent⟩ := issue_ready hready hplan hcur (hgo ▸ State.modHere_walk_of_rim hrim hf) hj
  exact ⟨_, t, hexec.trans ht, hgo ▸ hwent⟩

@[simp] theorem State.launch_rim (s : State) (fixedAt : Option Nat) (async : Bool) (runs : List Run) (w : Work) :
    (s.launch fixedAt async runs w).1.rim = s.rim := by
  cases fixedAt <;> rfl

/-! ### Windows (R141) -/

theorem tagOk_eq_true {ct : CoreType} {t : BitVec 3} (htag : hasTag ct t.toNat = true) (h5 : t ≠ 5) (h7 : t ≠ 7) : tagOk ct t.toNat = true := by
  have hne : ∀ v : BitVec 3, t ≠ v → t.toNat ≠ v.toNat := fun v h e => h (BitVec.eq_of_toNat_eq e)
  simp [tagOk, htag, show t.toNat ≠ 5 from hne 5 h5, show t.toNat ≠ 7 from hne 7 h7]

theorem tagOk_eq_false {ct : CoreType} {t : BitVec 3} (h : hasTag ct t.toNat = false ∨ t = 5 ∨ t = 7) : tagOk ct t.toNat = false := by
  rcases h with h | rfl | rfl
  · simp [tagOk, h]
  · simp [tagOk]
  · simp [tagOk]

theorem ofNat_wrapI (v : Int) (w : Nat) : BitVec.ofNat w (wrapI v w) = BitVec.ofInt w v := by
  apply BitVec.eq_of_toNat_eq
  rw [BitVec.toNat_ofNat, wrapI_mod, BitVec.toNat_ofInt, wrapI]

theorem window_add_imm (old : Nat) (v : BitVec 15) : BitVec.ofNat 15 old + v = BitVec.ofNat 15 ((old + v.toNat) % 2 ^ 15) := by
  apply BitVec.eq_of_toNat_eq
  simp

theorem window_add_slot (old : Nat) (x : Int) : BitVec.ofNat 15 old + BitVec.ofInt 15 x = BitVec.ofNat 15 (wrapI (old + x) 15) := by
  rw [ofNat_wrapI, BitVec.ofInt_add, BitVec.ofInt_natCast]

section
variable {f : SetwF} {s : State}

theorem planSetw_noTag (htag : tagOk s.ct f.t.toNat = false) : planSetw f s = .fault s .illegalInstruction := by
  rw [planSetw, if_pos (by simp [htag])]

theorem planSetw_imm (htag : tagOk s.ct f.t.toNat = true) {v : BitVec 15} (hv : f.arg = .imm v) :
    planSetw f s = .regs s 1 fun k => k.setWindow f.t.toNat f.w.toNat (if f.add then BitVec.ofNat 15 (k.window f.t.toNat f.w.toNat) + v else v) := by
  rw [planSetw, if_neg (by simp [htag]), hv]

theorem planSetw_slot (htag : tagOk s.ct f.t.toNat = true) {o : Slot} (ho : f.arg = .slot o) (hok : s.here.slotOk s.cur.tag o = true) (hw : o.w ≤ 4) :
    planSetw f s = if f.add = false ∧ 2 ^ 15 ≤ s.here.slotVal s.cur.tag o then .fault s .illegalOperand
      else .regs s 1 fun k => k.setWindow f.t.toNat f.w.toNat
        (if f.add then BitVec.ofNat 15 (k.window f.t.toNat f.w.toNat) + BitVec.ofInt 15 (sext (s.here.slotVal s.cur.tag o) o.bits)
         else BitVec.ofNat 15 (s.here.slotVal s.cur.tag o)) := by
  rw [planSetw, if_neg (by simp [htag]), ho]
  simp [hok, hw]

end

theorem planGetw_eq {f : GetwF} {s : State} (htag : tagOk s.ct f.t.toNat = true) :
    planGetw f s = planWr f.dst 1 (fun s => s.here.window f.t.toNat f.w.toNat) s := by
  rw [planGetw, if_neg (by simp [htag])]

/-- What SETW writes of an immediate. -/
theorem setw_imm_value (add : Bool) (old : Nat) (v : BitVec 15) :
    (if add then BitVec.ofNat 15 old + v else v) = BitVec.ofNat 15 (if add then (old + v.toNat) % 2 ^ 15 else v.toNat) := by
  cases add
  · simp
  · exact window_add_imm ..

/-! ### CBSET and CBADV (R167, R168) -/

/-- The faults of CBSET are no traps. -/
theorem cls_of_cbsetFault {f : CbsetF} {s : State} {c : Cause} (h : cbsetFault s f = some c) : c.cls ≠ 2 := by
  unfold cbsetFault at h
  split at h
  · cases h
    decide
  · dsimp only at h
    split_ifs at h <;> cases h <;> decide

theorem planCbset_regs {f : CbsetF} {s : State} (h : cbsetFault s f = none) :
    planCbset f s = .regs s 2 fun k => k.setCb f.cb.toNat
      { space := f.space.toNat, base := f.base.toNat * 64, ents := f.ents.toNat + 1, size := f.size.toNat * 64, attr := f.fmt, prod := 0, cons := 0,
        resv := [] } := by
  rw [planCbset, h]

/-- The number of entries that CBADV's operand names, where it is in range. -/
def State.AdvNames (s : State) (f : CbadvF) (n : Nat) : Prop :=
  match f.cnt with
  | .imm v => n = v.toNat
  | .slot o => s.here.slotOk s.cur.tag o = true ∧ o.w ≤ 3 ∧ n = s.here.slotVal s.cur.tag o

/-- The state in which CBADV has put its advance into progress. -/
def State.advancing (s : State) (f : CbadvF) (n : Nat) : State :=
  (s.launch (some s.now) false [] (.write [] [if f.cons then .cons s.cur.core f.cb.toNat n else .prod s.cur.core f.cb.toNat n])).1

/-- CBADV with its operand in range: the checks of its buffer, its wait, and its advance. -/
theorem planCbadv_eq {f : CbadvF} {s : State} {n : Nat} (hn : s.AdvNames f n) :
    planCbadv f s =
      let b := s.here.cbOf f.cb.toNat
      if !b.configured ∨ b.ents < n then .fault s .illegalOperand
      else if f.cons ∧ b.occ < n then .wait s none (s.cbOpen s.cur.core f.cb.toNat)
      else if !f.cons ∧ b.room s.now < n then .wait s none (s.cbOpen s.cur.core f.cb.toNat)
      else .go { s := (s.advancing f n).modHere fun k =>
                   { k with busy := k.busy ++ [{ res := .cb f.cb.toNat, tick := s.now + 1, op := none, hold := none, old := [], mask := [] }] },
                 commit := some s.now } := by
  unfold State.AdvNames at hn
  unfold planCbadv State.advancing
  cases hcnt : f.cnt with
  | imm v =>
    rw [hcnt] at hn
    simp only [hn]
    rfl
  | slot o =>
    rw [hcnt] at hn
    obtain ⟨hok, hw, hn⟩ := hn
    simp only [hok, hw, hn]
    rfl

theorem planCbadv_fault {f : CbadvF} {s : State} {n : Nat} (hn : s.AdvNames f n)
    (hbad : (s.here.cbOf f.cb.toNat).configured = false ∨ (s.here.cbOf f.cb.toNat).ents < n) : planCbadv f s = .fault s .illegalOperand := by
  rw [planCbadv_eq hn]
  exact if_pos (by simpa using hbad)

theorem planCbadv_go {f : CbadvF} {s : State} {n : Nat} (hn : s.AdvNames f n) (hcb : (s.here.cbOf f.cb.toNat).configured = true)
    (hents : n ≤ (s.here.cbOf f.cb.toNat).ents) (hroom : n ≤ if f.cons then (s.here.cbOf f.cb.toNat).occ else (s.here.cbOf f.cb.toNat).room s.now) :
    planCbadv f s = .go { s := (s.advancing f n).modHere fun k =>
                            { k with busy := k.busy ++ [{ res := .cb f.cb.toNat, tick := s.now + 1, op := none, hold := none, old := [], mask := [] }] },
                          commit := some s.now } := by
  rw [planCbadv_eq hn]
  have hok : ¬((!(s.here.cbOf f.cb.toNat).configured) = true ∨ (s.here.cbOf f.cb.toNat).ents < n) := by simp [hcb, hents]
  refine (if_neg hok).trans ?_
  cases hc : f.cons
  · rw [hc] at hroom
    exact (if_neg (by simp)).trans (if_neg (by simpa using hroom))
  · rw [hc] at hroom
    exact (if_neg (by simpa using hroom)).trans (if_neg (by simp))

/-! ### The statement -/

/-- Settles O18: the plans of SETW, GETW, CBSET and CBADV, case by case; that CBADV's advance is made at its issue tick is the model's choice (log 21). -/
theorem ceWindowsAndBuffers : Obligations.CeWindowsAndBuffers := by
  unfold Obligations.CeWindowsAndBuffers
  refine ⟨⟨fun f s hready htag h5 h7 => ?_, fun f s hready htag h5 h7 hdst => ?_, fun f s hready hno => ?_, fun f s hready hno => ?_⟩,
    fun f s hready => ⟨fun c hc => ?_, fun hc => ?_⟩, fun f s n hready hn => ⟨fun hbad => ?_, fun hcb hents hroom => ?_⟩⟩
  · have htagOk := tagOk_eq_true htag h5 h7
    refine ⟨fun v hv => ?_, fun o ho hok hw => ⟨fun hadd hlt => ?_, fun hadd hge => ?_, fun hadd => ?_⟩⟩
    · exact issues_of_regs rfl hready (planSetw_imm htagOk hv) (congrArg (s.here.setWindow f.t.toNat f.w.toNat) (setw_imm_value ..)) rfl
    · have hplan := planSetw_slot htagOk ho hok hw
      rw [if_neg (by omega), hadd] at hplan
      exact issues_of_regs rfl hready hplan rfl rfl
    · have hplan := planSetw_slot htagOk ho hok hw
      rw [if_pos ⟨hadd, hge⟩] at hplan
      exact faults_of_plan rfl hready rfl (by decide) hplan
    · have hplan := planSetw_slot htagOk ho hok hw
      rw [if_neg (by simp [hadd]), hadd] at hplan
      exact issues_of_regs rfl hready hplan (congrArg (s.here.setWindow f.t.toNat f.w.toNat) (window_add_slot ..)) rfl
  · exact issues_planWr rfl hready hdst (planGetw_eq (tagOk_eq_true htag h5 h7))
  · exact faults_of_plan rfl hready rfl (by decide) (planSetw_noTag (tagOk_eq_false hno))
  · refine faults_of_plan (plan := planGetw f) rfl hready rfl (by decide) ?_
    rw [planGetw, if_pos (by simp [tagOk_eq_false hno])]
  · have hplan : planCbset f s = .fault s c := by rw [planCbset, hc]
    exact faults_of_plan rfl hready rfl (cls_of_cbsetFault hc) hplan
  · exact issues_of_regs rfl hready (planCbset_regs hc) rfl rfl
  · exact faults_of_plan rfl hready rfl (by decide) (planCbadv_fault hn hbad)
  · exact issues_of_go rfl hready (planCbadv_go hn hcb hents hroom) rfl (State.launch_rim ..) rfl rfl

end Sys2Proof.Machine
end

section
/-! LD and FILL: the reads that they put into progress (O19). -/

namespace Sys2Proof.Machine

open Sys2Proof

/-! ### Operations of a granted access leave the cores and the cursor -/

@[simp] theorem State.bindRegs_rim (s : State) (id : Nat) : (s.bindRegs id).rim = s.rim := by
  unfold State.bindRegs
  split
  · rfl
  · exact State.modGroup_rim ..

@[simp] theorem State.lateMark_rim (s : State) (late : Option Bool) (C : Nat) : (s.lateMark late C).rim = s.rim := by
  cases late with
  | none => rfl
  | some busy => exact State.launch_rim ..

theorem Granted.launch_rim (g : Granted) (tick C : Nat) (async : Bool) (w : Work) : (g.launch tick C async w).1.rim = g.s.rim := by
  simp [Granted.launch]

/-- Operations put into flight one after the other. -/
theorem foldl_launch_rim (ws : List (Nat × Work)) (r : State × List Nat) :
    (ws.foldl (fun (r : State × List Nat) w =>
      let x := r.1.launch (some w.1) false [] w.2
      (x.1, r.2 ++ [x.2])) r).1.rim = r.1.rim := by
  induction ws generalizing r with
  | nil => rfl
  | cons w ws ih => exact (ih _).trans (State.launch_rim r.1 (some w.1) false [] w.2)

theorem Granted.launchAll_rim (g : Granted) (C : Nat) (ws : List (Nat × Work)) : (g.launchAll C ws).1.rim = g.s.rim := by
  refine (State.lateMark_rim ..).trans (Eq.trans ?_ (foldl_launch_rim ws (g.s, [])))
  dsimp only
  generalize ws.foldl _ (g.s, []) = r
  cases r.2.getLast? with
  | none => rfl
  | some id => exact State.bindRegs_rim ..

/-! ### Plans -/

/-- A granted access that is in place: not an open-time one inside a FIXED segment (R144). -/
theorem openFault_eq_false {s : State} {lat : Option Nat} (h : lat = none → s.here.inFixed = false) : s.openFault lat = false := by
  cases lat with
  | none => simp [State.openFault, h rfl]
  | some L => rfl

/-- What LD and FILL do to the latches: source A is an address (R143), source B an offset, whose immediate has width `w`. -/
def Core.holdAddr (k : Core) (t w : Nat) (a b : Src) : Core := (k.holdSrc t false false 0 a).holdSrc t true true w b

@[simp] theorem Core.holdAddr_walk (k : Core) (t w : Nat) (a b : Src) (u : Nat) : ((k.holdAddr t w a b).engine u).walk = (k.engine u).walk := by
  simp [Core.holdAddr]

/-- The read of LD in progress, over a granted access. -/
def State.loading (s : State) (f : S3) (g : Granted) : State :=
  let due := s.now + ceilDiv (2 * g.lat.getD 0 + 8) s.d * s.d
  (g.launch (s.now + g.lat.getD 0 + 4) due false (.load g.runs (s.here.overlay g.runs) (s.here.startOf s.cur.tag f.dst) f.dst.w f.fs f.sub.sat
    (2 ^ f.sub.xs.toNat) (if g.lat.isSome then due else 0))).1

theorem planLd_go {f : S3} {s : State} {g : Granted} (hok : s.here.ce2Ok s.cur.tag f.dst f.a f.b = true)
    (hg : s.access (s.here.effAddr s.cur.tag f.a f.b) (2 ^ f.sub.xs.toNat) useRead none = .ok g) (hopen : g.lat = none → s.here.inFixed = false) :
    ∃ x : Go, planLd f s = .go x ∧ x.s = (s.loading f g).modHere (fun k => k.holdAddr s.cur.tag f.dst.w f.a f.b) ∧ x.jump = none := by
  rw [planLd, if_neg (by simp [hok]), hg]
  simp only [Got.plan, openFault_eq_false hopen, Bool.false_eq_true, if_false]
  exact ⟨_, rfl, rfl, rfl⟩

/-- The chunks of FILL at fixed times, of 64 bytes a tick, over a granted access of latency `L` (R290). -/
def State.filling (s : State) (f : SpillF) (g : Granted) (L : Nat) : State :=
  let cnt := f.cnt.toNat + 1
  let bytes := (cnt + 1) / 2
  let b := ceilDiv bytes 64
  (g.launchAll (s.now + (ceilDiv (2 * L + 8) s.d + b) * s.d) ((List.range b).map fun j =>
    let runs := cutRuns g.runs (64 * j) (min 64 (bytes - 64 * j))
    (s.now + L + 4 + j, .fill runs (s.here.overlay runs) (spillStart s.here s.cur.tag f + 128 * j) (min 128 (cnt - 128 * j))))).1

/-- The one read of FILL at open times. -/
def State.fillingOpen (s : State) (f : SpillF) (g : Granted) : State :=
  (g.launch 0 0 false (.fill g.runs (s.here.overlay g.runs) (spillStart s.here s.cur.tag f) (f.cnt.toNat + 1))).1

/-- Order 6 of R100 passes for SPILL and FILL. -/
theorem spill_inRange {f : SpillF} {s : State} (ha : s.here.srcOk s.cur.tag false f.a = true) (hb : s.here.srcOk s.cur.tag true f.b = true)
    (hfit : spillStart s.here s.cur.tag f + (f.cnt.toNat + 1) ≤ 8192) :
    ¬(!(s.here.srcOk s.cur.tag false f.a && s.here.srcOk s.cur.tag true f.b) ||
      decide (8192 < spillStart s.here s.cur.tag f + (f.cnt.toNat + 1))) = true := by
  simp [ha, hb, hfit]

section
variable {f : SpillF} {s : State} {g : Granted} (ha : s.here.srcOk s.cur.tag false f.a = true) (hb : s.here.srcOk s.cur.tag true f.b = true)
  (hfit : spillStart s.here s.cur.tag f + (f.cnt.toNat + 1) ≤ 8192)
  (hg : s.access (s.here.effAddr s.cur.tag f.a f.b) ((f.cnt.toNat + 1 + 1) / 2) useRead none = .ok g)
include ha hb hfit hg

theorem planFill_fixed {L : Nat} (hL : g.lat = some L) :
    ∃ x : Go, planFill f s = .go x ∧ x.s = (s.filling f g L).modHere (fun k => k.holdAddr s.cur.tag 4 f.a f.b) ∧ x.jump = none := by
  unfold planFill
  dsimp only
  rw [if_neg (spill_inRange ha hb hfit), hg]
  simp only [Got.plan, hL, State.openFault, Option.isNone_some, Bool.false_and, Bool.false_eq_true, if_false]
  exact ⟨_, rfl, rfl, rfl⟩

theorem planFill_open (hL : g.lat = none) (hopen : s.here.inFixed = false) :
    ∃ x : Go, planFill f s = .go x ∧ x.s = (s.fillingOpen f g).modHere (fun k => k.holdAddr s.cur.tag 4 f.a f.b) ∧ x.jump = none := by
  unfold planFill
  dsimp only
  rw [if_neg (spill_inRange ha hb hfit), hg]
  simp only [Got.plan, hL, State.openFault, hopen, Bool.and_false, Bool.false_eq_true, if_false]
  exact ⟨_, rfl, rfl, rfl⟩

end

/-! ### The statement -/

/-- Settles O19: over a granted access LD and FILL put their reads into progress and load their latches; that a held offset of FILL has 4 slices is the
model's choice (log 102). -/
theorem ceLoads : Obligations.CeLoads := by
  refine ⟨fun f s g hready hok hg hopen => ?_, fun f s g hready ha hb hfit hg => ⟨fun L hL => ?_, fun hL hopen => ?_⟩⟩
  · obtain ⟨x, hx, hs, hj⟩ := planLd_go hok hg hopen
    exact issues_of_go rfl hready hx hs ((Granted.launch_rim ..).trans (State.access_rim hg)) (Core.holdAddr_walk ..) hj
  · obtain ⟨x, hx, hs, hj⟩ := planFill_fixed ha hb hfit hg hL
    exact issues_of_go rfl hready hx hs ((Granted.launchAll_rim ..).trans (State.access_rim hg)) (Core.holdAddr_walk ..) hj
  · obtain ⟨x, hx, hs, hj⟩ := planFill_open ha hb hfit hg hL hopen
    exact issues_of_go rfl hready hx hs ((Granted.launch_rim ..).trans (State.access_rim hg)) (Core.holdAddr_walk ..) hj

end Sys2Proof.Machine
end

section
/-! What an engine does at the last word of its innermost loop (O29). -/

namespace Sys2Proof.Machine

open Sys2Proof

/-! ### The snapshot of a loop ending touches the bank-conflict counts alone (R432) -/

@[simp] theorem State.store_cores (s : State) (a : Nat) (bs : List Byte) : (s.store a bs).cores = s.cores := by
  unfold State.store
  split <;> rfl

@[simp] theorem State.store_cur (s : State) (a : Nat) (bs : List Byte) : (s.store a bs).cur = s.cur := by
  unfold State.store
  split <;> rfl

theorem State.core_of_cores {s s' : State} (h : s'.cores = s.cores) (c : Nat) : s'.core c = s.core c := by
  rw [State.core, State.core, h]

/-- Core `c` with its bank-conflict counts cleared. -/
def State.clearBcm (s : State) (c : Nat) : State := s.modCore c fun k => { k with bcm := [] }

theorem State.core_clearBcm (s : State) (c d : Nat) : ∃ m, (s.clearBcm c).core d = { s.core d with bcm := m } := by
  by_cases hd : d = c
  · subst hd
    exact ⟨[], State.core_modCore ..⟩
  · exact ⟨(s.core d).bcm, State.core_modCore_other _ _ hd⟩

theorem State.writeRecord_keeps (s : State) (a : Nat) (bs : List Byte) (o : Nat) (v : W64) :
    ((s.store a bs).setCreg o v).cur = s.cur ∧ ((s.store a bs).setCreg o v).cores = s.cores :=
  ⟨State.store_cur .., State.store_cores ..⟩

/-- A snapshot has no room for its record, or writes it where it is wanted and clears the counts. -/
theorem State.snapshot_cases {P : State → Prop} {s : State} {c : Nat} (kind n word : Nat) (hfull : P s)
    (hclear : ∀ x : State, x.cur = s.cur → x.cores = s.cores → P (x.clearBcm c)) : P (s.snapshot c kind n word) := by
  unfold State.snapshot
  dsimp only
  split
  · split
    · exact hfull
    · exact hclear _ (State.writeRecord_keeps ..).1 (State.writeRecord_keeps ..).2
  · exact hclear s rfl rfl

theorem State.snapshot_cur (s : State) (c kind n word : Nat) : (s.snapshot c kind n word).cur = s.cur :=
  State.snapshot_cases (P := fun x => x.cur = s.cur) kind n word rfl fun _ hcur _ => hcur

theorem State.core_snapshot (s : State) (c kind n word d : Nat) : ∃ m, (s.snapshot c kind n word).core d = { s.core d with bcm := m } := by
  refine State.snapshot_cases (P := fun x => ∃ m, x.core d = { s.core d with bcm := m }) kind n word ⟨_, rfl⟩ fun x _ hcores => ?_
  rw [← State.core_of_cores hcores d]
  exact x.core_clearBcm c d

/-! ### The end of a loop (R120) -/

theorem State.loopEnd_cur (s : State) (c t : Nat) (l : LoopSt) (v : Nat) : (s.loopEnd c t l v).cur = s.cur := by
  unfold State.loopEnd
  split
  · exact State.snapshot_cur ..
  · rfl

/-- Core `c` with the counter of a loop written. -/
def State.putLc (s : State) (c n v : Nat) : State := s.modCore c fun k => { k with lc := SMap.set 0 k.lc n (BitVec.ofNat 32 v) }

theorem State.putLc_lcOf (s : State) (c n v : Nat) : ((s.putLc c n v).core c).lcOf n = BitVec.ofNat 32 v := by
  rw [State.putLc, State.core_modCore]
  exact SMap.get_set_same ..

theorem State.putLc_engine (s : State) (c n v d u : Nat) : ((s.putLc c n v).core d).engine u = (s.core d).engine u := by
  by_cases hd : d = c
  · subst hd
    rw [State.putLc, State.core_modCore]
    rfl
  · rw [State.putLc, State.core_modCore_other _ _ hd]

theorem State.loopEnd_eq (s : State) (c t : Nat) (l : LoopSt) (v : Nat) :
    s.loopEnd c t l v = if t = 0 then (s.putLc c l.n v).snapshot c 0 l.n l.last else s := rfl

theorem State.loopEnd_engine (s : State) (c t : Nat) (l : LoopSt) (v d u : Nat) : ((s.loopEnd c t l v).core d).engine u = (s.core d).engine u := by
  rw [State.loopEnd_eq]
  split
  · obtain ⟨m, hm⟩ := (s.putLc c l.n v).core_snapshot c 0 l.n l.last d
    rw [hm, ← s.putLc_engine c l.n v d u]
    rfl
  · rfl

/-- The CE's copy of the counter is the register (R120). -/
theorem State.loopEnd_lcOf (s : State) (c : Nat) (l : LoopSt) (v : Nat) : ((s.loopEnd c 0 l v).core c).lcOf l.n = BitVec.ofNat 32 v := by
  obtain ⟨m, hm⟩ := (s.putLc c l.n v).core_snapshot c 0 l.n l.last c
  rw [State.loopEnd_eq, if_pos rfl, hm, ← s.putLc_lcOf c l.n v]
  rfl

/-! ### The last word of the innermost loop (R119) -/

/-- The core as engine `t` leaves the last word of its innermost loop, of `n` words, for `pc`, with the loops `ls`. -/
def Core.lapped (k : Core) (ct : CoreType) (t n pc : Nat) (ls : List LoopSt) : Core :=
  (({ k with path := if (k.engine t).idx = k.path.length then k.path ++ [(k.engine t).pc] else k.path } : Core).setEngine t
    { k.engine t with idx := (k.engine t).idx + 1, pos := (k.engine t).pos + n, pc := pc, loops := ls }).trimPath ct

theorem Core.lapped_engine (k : Core) (ct : CoreType) (t n pc : Nat) (ls : List LoopSt) :
    ((k.lapped ct t n pc ls).engine t).pc = pc ∧ ((k.lapped ct t n pc ls).engine t).loops = ls := by
  obtain ⟨m, hm⟩ := Core.trimPath_engine (({ k with path := if (k.engine t).idx = k.path.length then k.path ++ [(k.engine t).pc] else k.path } : Core).setEngine t
    { k.engine t with idx := (k.engine t).idx + 1, pos := (k.engine t).pos + n, pc := pc, loops := ls }) ct t
  rw [Core.engine_setEngine] at hm
  rw [Core.lapped, hm]
  exact ⟨rfl, rfl⟩

/-- An engine leaves the last word of its innermost loop. -/
theorem leave_last {s : State} {c t n : Nat} {l : LoopSt} {ls : List LoopSt} (hloops : ((s.core c).engine t).loops = l :: ls)
    (hin : ((s.core c).engine t).pc ≤ l.last) (hout : l.last < ((s.core c).engine t).pc + n) :
    s.leave c t n none =
      if l.cnt = 1 then (s.setCore c ((s.core c).lapped (coreType c) t n (((s.core c).engine t).pc + n) ls)).loopEnd c t l 0
      else
        let x := s.setCore c ((s.core c).lapped (coreType c) t n l.first ({ l with cnt := l.cnt - 1 } :: ls))
        if t = 0 then x.putLc c l.n (l.cnt - 1) else x := by
  unfold State.leave
  dsimp only
  rw [hloops]
  dsimp only
  rw [if_pos (And.intro hin hout)]
  rfl

/-- Settles O29: at the last word of its innermost loop an engine ends the loop with its last iteration, and goes back to the first word before. -/
theorem loopEnds : Obligations.LoopEnds := by
  intro s c t n l ls hloops hin hout
  have hleave := leave_last hloops hin hout
  refine ⟨fun hcnt => ?_, fun hcnt => ?_⟩
  · obtain ⟨hpc, hls⟩ := (s.core c).lapped_engine (coreType c) t n l.first ({ l with cnt := l.cnt - 1 } :: ls)
    rw [hleave, if_neg hcnt]
    dsimp only
    split_ifs with ht
    · rw [State.putLc_engine, State.core_setCore]
      exact ⟨hpc, hls, fun _ => State.putLc_lcOf ..⟩
    · rw [State.core_setCore]
      exact ⟨hpc, hls, fun h => absurd h ht⟩
  · obtain ⟨hpc, hls⟩ := (s.core c).lapped_engine (coreType c) t n (((s.core c).engine t).pc + n) ls
    rw [hleave, if_pos hcnt, State.loopEnd_engine, State.core_setCore]
    refine ⟨hpc, hls, fun ht => ?_⟩
    subst ht
    exact State.loopEnd_lcOf ..

end Sys2Proof.Machine
end

section
/-! Words of the ALL class that one engine issues, and what their updates leave of the engines. -/

namespace Sys2Proof.Machine

open Sys2Proof

/-! ### Issue, faults and stalls of a word whose plan its guard does not disable as a whole -/

section
variable {i : Instr} {plan : State → Bool → Plan} {s : State} (hexec : exec i s = issueIf s i plan) (hclear : Clear s i)
include hexec hclear

theorem issuesTo_of_go {g : Go} (hplan : plan s (s.enabled (guardOf i)) = .go g) (hcur : g.s.cur = s.cur) (hwaits : g.s.hereE.waits = s.hereE.waits)
    (hj : g.jump ≠ none ∨ g.s.midLoop (encode i).length = true) :
    IssuesTo i s g.s (g.jump.getD (g.s.hereE.pc + (encode i).length)) (s.now + g.cyc * s.d) := by
  obtain ⟨t, ht, hwent⟩ := issueIf_go hclear hplan hcur (hwaits.trans hclear.unpaused) hj
  exact ⟨t, hexec.trans ht, hwent⟩

/-- The engine goes on to the next word. -/
theorem issuesTo_next {g : Go} (hplan : plan s (s.enabled (guardOf i)) = .go g) (hcur : g.s.cur = s.cur) (hwalk : g.s.hereE.walk = s.hereE.walk)
    (hj : g.jump = none) (hmid : s.midLoop (encode i).length = true) : IssuesTo i s g.s (s.pcAfter i) (s.now + g.cyc * s.d) := by
  simp only [Engine.walk, Prod.mk.injEq] at hwalk
  obtain ⟨hwaits, hloops, hpc⟩ := hwalk
  have hissues := issuesTo_of_go hexec hclear hplan hcur hwaits (.inr (by simpa only [State.midLoop, hloops, hpc] using hmid))
  rwa [hj, hpc] at hissues

/-- The CE raises the faults of a word; every engine those of its own words (R99). -/
theorem faults_of_planIf {c : Cause} (hown : isAll i = false ∨ s.cur.tag = 0) (hc : c.cls ≠ 2) (hplan : plan s (s.enabled (guardOf i)) = .fault s c) :
    Faults i s c := by
  have hce : (isAll i && decide (s.cur.tag ≠ 0)) = false := by
    rcases hown with h | h <;> simp [h]
  have hwaits : s.unpause = s := by
    simp [State.unpause, hclear.unpaused]
  rw [Faults, hexec, issueIf_clear hclear]
  simp only [settle, hplan, Plan.fault, hce, hwaits, hc, false_and, if_false, Bool.false_eq_true]

theorem stalls_of_planIf (hplan : plan s (s.enabled (guardOf i)) = .stall s) : exec i s = .next (s.stall false) := by
  have hwaits : s.unpause = s := by
    simp [State.unpause, hclear.unpaused]
  rw [hexec, issueIf_clear hclear]
  simp only [settle, hplan, Plan.stall, hwaits]

end

/-! ### Updates that leave a part of every engine -/

section
variable {α : Type} {p : Engine → α}

theorem Core.modEngine_part (k : Core) (t : Nat) {f : Engine → Engine} (hf : ∀ e, p (f e) = p e) (u : Nat) :
    p ((k.modEngine t f).engine u) = p (k.engine u) := by
  by_cases hu : u = t
  · subst hu
    rw [Core.engine_modEngine, hf]
  · rw [Core.engine_modEngine_other _ _ hu]

theorem Core.foldl_part {g : Core → Nat → Core} (hg : ∀ k t u, p ((g k t).engine u) = p (k.engine u)) (u : Nat) (ts : List Nat) (k : Core) :
    p ((ts.foldl g k).engine u) = p (k.engine u) := by
  induction ts generalizing k with
  | nil => rfl
  | cons t ts ih => exact (ih _).trans (hg ..)

/-- The cursor stands as it did, and every engine of its core keeps the part `p`. -/
def State.Keeps (p : Engine → α) (s s' : State) : Prop := s'.cur = s.cur ∧ ∀ u, p (s'.here.engine u) = p (s.here.engine u)

theorem State.Keeps.refl (s : State) : s.Keeps p s := ⟨rfl, fun _ => rfl⟩

theorem State.Keeps.trans {s s' s'' : State} (h : s.Keeps p s') (h' : s'.Keeps p s'') : s.Keeps p s'' :=
  ⟨h'.1.trans h.1, fun u => (h'.2 u).trans (h.2 u)⟩

theorem State.Keeps.hereE {s s' : State} (h : s.Keeps p s') : p s'.hereE = p s.hereE := by
  rw [State.hereE, State.hereE, h.1]
  exact h.2 _

theorem State.here_modHere (s : State) (f : Core → Core) : (s.modHere f).here = f s.here := State.core_modCore ..

theorem State.keeps_modHere {s : State} {f : Core → Core} (hf : ∀ u, p ((f s.here).engine u) = p (s.here.engine u)) : s.Keeps p (s.modHere f) :=
  ⟨rfl, fun u => by rw [State.here_modHere, hf]⟩

theorem State.keeps_modHereE (s : State) {f : Engine → Engine} (hf : ∀ e, p (f e) = p e) : s.Keeps p (s.modHereE f) :=
  State.keeps_modHere (f := fun k => k.modEngine s.cur.tag f) (Core.modEngine_part _ _ hf)

theorem State.keeps_loopEnd (s : State) (c t : Nat) (l : LoopSt) (v : Nat) : s.Keeps p (s.loopEnd c t l v) :=
  ⟨State.loopEnd_cur .., fun u => by rw [State.here, State.here, State.loopEnd_cur, State.loopEnd_engine]⟩

/-- The ends of loops touch the loops alone. -/
theorem State.keeps_endLoops (s : State) (n : Nat) (hp : ∀ (e : Engine) (ls : List LoopSt), p { e with loops := ls } = p e) : s.Keeps p (s.endLoops n) := by
  unfold State.endLoops
  dsimp only
  refine List.foldlRecOn _ _ (motive := fun x => s.Keeps p x) (State.keeps_modHereE s fun e => hp e _) fun x hx l _ => ?_
  exact hx.trans (State.keeps_loopEnd ..)

end

/-! ### Outcomes (R116) -/

/-- A core in which nothing but engines may differ. -/
def Core.SameRegs (k k' : Core) : Prop := ∃ m, k' = { k with eng := m }

theorem Core.sameRegs_foldl {g : Core → Nat → Core} (hg : ∀ (k : Core) t, k.SameRegs (g k t)) (ts : List Nat) (k : Core) : k.SameRegs (ts.foldl g k) := by
  refine List.foldlRecOn ts _ (motive := fun x => k.SameRegs x) ⟨k.eng, rfl⟩ ?_
  rintro _ ⟨m, rfl⟩ t _
  obtain ⟨m', h'⟩ := hg { k with eng := m } t
  exact ⟨m', h'⟩

/-- The tick and the divisor of the engine at the cursor follow from the core's group and its divisors. -/
theorem State.clock_modHere {s : State} {f : Core → Core} (hgrp : (f s.here).grp = s.here.grp) (hckd : (f s.here).ckd = s.here.ckd) :
    (s.modHere f).now = s.now ∧ (s.modHere f).d = s.d := by
  constructor
  · have hcore : ((s.modHere f).core s.cur.core).grp = (s.core s.cur.core).grp := by
      change (s.modHere f).here.grp = s.here.grp
      rw [State.here_modHere, hgrp]
    change State.reckOf (s.modHere f) s.cur.core = s.reckOf s.cur.core
    rw [State.reckOf, State.reckOf, State.groupOf, State.groupOf, hcore]
    rfl
  · change Core.div (s.modHere f).here s.cur.tag = s.here.div s.cur.tag
    rw [State.here_modHere, Core.div, Core.div, hckd]

theorem State.clock_of_sameRegs {s : State} {f : Core → Core} (h : s.here.SameRegs (f s.here)) : (s.modHere f).now = s.now ∧ (s.modHere f).d = s.d := by
  obtain ⟨m, hm⟩ := h
  exact State.clock_modHere (by rw [hm]) (by rw [hm])

/-- `x` is `s` but for outcome queues of the engines of the core at the cursor. -/
structure State.SameBut (s x : State) : Prop where
  keeps : ∀ {α : Type} {p : Engine → α}, (∀ (e : Engine) (q : List OutEnt), p { e with outq := q } = p e) → s.Keeps p x
  clock : x.now = s.now ∧ x.d = s.d

theorem State.SameBut.refl (s : State) : s.SameBut s := ⟨fun _ => State.Keeps.refl s, rfl, rfl⟩

theorem State.sameBut_post (s : State) (taken : Bool) (count : Nat) : s.SameBut (s.post taken count) where
  keeps hp := State.keeps_modHere fun u => Core.foldl_part (fun k t v => Core.modEngine_part k t (fun e => hp e _) v) u _ _
  clock := State.clock_of_sameRegs (Core.sameRegs_foldl (fun _ _ => ⟨_, rfl⟩) _ _)

theorem State.sameBut_takeOutcome (s : State) : s.SameBut s.takeOutcome where
  keeps hp := State.keeps_modHereE s fun e => hp e _
  clock := State.clock_of_sameRegs (f := fun k => k.modEngine s.cur.tag fun e => { e with outq := e.outq.drop 1 }) ⟨_, rfl⟩

end Sys2Proof.Machine
end

section
/-! NOP, PBR, BR and BRL (O27). -/

namespace Sys2Proof.Machine

open Sys2Proof

/-! ### PBR (R115) -/

theorem pbrTarget_eq (f : PbrF) (pc : Nat) :
    pbrTarget f pc = if f.rel then (((pc : Int) + f.target.toInt) % 2 ^ 28).toNat else f.target.toNat := by
  rw [pbrTarget, Nat.cast_pow, Nat.cast_ofNat]

/-- What PBR to `g` does at the engine at the cursor. -/
def State.preparing (s : State) (f : PbrF) (g : Nat) : State :=
  let s1 := s.modHereE fun e => { e with pbrAt := SMap.put e.pbrAt f.k.toNat s.now }
  if s.cur.tag = 0 then s1.modHere fun k => { k with bt := SMap.set 0 k.bt f.k.toNat (BitVec.ofNat 32 g) } else s1

theorem planPbr_eq (f : PbrF) (s : State) (on : Bool) :
    planPbr f s on = if s.here.nword ≤ pbrTarget f s.hereE.pc then .fault s .illegalOperand else .go { s := s.preparing f (pbrTarget f s.hereE.pc) } := rfl

theorem State.keeps_preparing {α : Type} {p : Engine → α} (s : State) (f : PbrF) (g : Nat) (hp : ∀ (e : Engine) m, p { e with pbrAt := m } = p e) :
    s.Keeps p (s.preparing f g) := by
  have hnoted : s.Keeps p (s.modHereE fun e => { e with pbrAt := SMap.put e.pbrAt f.k.toNat s.now }) := State.keeps_modHereE s fun e => hp e _
  unfold State.preparing
  dsimp only
  split
  · exact hnoted.trans (State.keeps_modHere fun _ => rfl)
  · exact hnoted

/-! ### Targets and links (R117) -/

theorem Core.handed_of_same {k k' : Core} (h : ∀ u, ((k'.engine u).idx, (k'.engine u).links) = ((k.engine u).idx, (k.engine u).links)) (t a b : Nat) :
    k'.handed t a b = k.handed t a b := by
  simp only [Prod.mk.injEq] at h
  simp only [Core.handed, Core.ceAhead, (h _).1, (h _).2]

/-- The CE hands the old target of a register named twice on to an engine that has still to issue the word (R117). -/
def Core.handOn (t : Nat) (c : Core) (u : Nat) : Core :=
  if (c.engine u).idx ≤ (c.engine 0).idx then c.modEngine u fun e => { e with links := e.links ++ [t] } else c

theorem Core.handOn_part {α : Type} {p : Engine → α} (hp : ∀ (e : Engine) ls, p { e with links := ls } = p e) (t : Nat) (c : Core) (u v : Nat) :
    p ((c.handOn t u).engine v) = p (c.engine v) := by
  unfold Core.handOn
  split
  · exact Core.modEngine_part c u (fun e => hp e _) v
  · rfl

theorem Core.handOn_sameRegs (t : Nat) (c : Core) (u : Nat) : c.SameRegs (c.handOn t u) := by
  unfold Core.handOn
  split <;> exact ⟨_, rfl⟩

/-- What BRL does to the registers, with what it finds of the engine at the cursor and of its core: its tag, whether the CE has handed it the old target. -/
def State.linkedFrom (x : State) (tag : Nat) (ct : CoreType) (hand : Bool) (k l : BitVec 3) (t pc : Nat) : State :=
  let x := x.modHereE fun y => { y with pbrAt := SMap.erase y.pbrAt l.toNat, links := if hand then y.links.drop 1 else y.links }
  if tag ≠ 0 then x
  else (if k = l then x.modHere fun c => (otherTags ct).foldl (Core.handOn t) c else x).modHere fun c =>
    { c with bt := SMap.set 0 c.bt l.toNat (BitVec.ofNat 32 (pc + 1)) }

/-- A branch that has posted or taken its outcome finds the engines as it found them before. -/
theorem linkTo_eq {s x : State} (hx : s.SameBut x) (k l : BitVec 3) (t pc : Nat) :
    x.linkTo k.toNat l.toNat t pc = x.linkedFrom s.cur.tag s.ct (s.here.handed s.cur.tag k.toNat l.toNat) k l t pc := by
  obtain ⟨hcur, hsame⟩ := hx.keeps (p := fun e => (e.idx, e.links)) fun _ _ => rfl
  rw [← Core.handed_of_same hsame, State.ct, ← hcur]
  unfold State.linkTo State.linkedFrom
  simp only [BitVec.toNat_inj]
  rfl

/-- The link of a taken BRL at `pc`; BR has none. -/
def State.linked (x : State) (k : Nat) (link : Option Nat) (t pc : Nat) : State :=
  match link with
  | none => x
  | some l => x.linkTo k l t pc

/-- What a taken branch does beside going to its target `t`: the link, and the end of the loops that do not hold the target. -/
def State.branched (s x : State) (k : Nat) (link : Option Nat) (t : Nat) : State :=
  (x.linked k link t s.hereE.pc).endLoops (loopsLeft s.hereE.loops t)

theorem State.keeps_linkTo {α : Type} {p : Engine → α} (x : State) (k l t pc : Nat)
    (hp : ∀ (e : Engine) m ls, p { e with pbrAt := m, links := ls } = p e) : x.Keeps p (x.linkTo k l t pc) := by
  unfold State.linkTo
  dsimp only
  generalize hy : x.modHereE _ = y
  have hlinks : x.Keeps p y := hy ▸ State.keeps_modHereE x fun e => hp e _ _
  split_ifs
  · exact hlinks
  · exact (hlinks.trans (State.keeps_modHere fun u => Core.foldl_part (Core.handOn_part (fun e => hp e e.pbrAt) t) u _ _)).trans (State.keeps_modHere fun _ => rfl)
  · exact hlinks.trans (State.keeps_modHere fun _ => rfl)

theorem State.clock_linkTo (x : State) (k l t pc : Nat) : (x.linkTo k l t pc).now = x.now ∧ (x.linkTo k l t pc).d = x.d := by
  unfold State.linkTo
  dsimp only
  generalize hy : x.modHereE _ = y
  have hlinks : y.now = x.now ∧ y.d = x.d := hy ▸ State.clock_of_sameRegs (f := fun c => c.modEngine x.cur.tag _) ⟨_, rfl⟩
  have hhand := State.clock_of_sameRegs (s := y) (f := fun c => (otherTags (coreType y.cur.core)).foldl (Core.handOn t) c)
    (Core.sameRegs_foldl (Core.handOn_sameRegs t) _ _)
  rw [← hlinks.1, ← hlinks.2]
  split_ifs
  · exact ⟨rfl, rfl⟩
  · rw [← hhand.1, ← hhand.2]
    exact State.clock_modHere rfl rfl
  · exact State.clock_modHere rfl rfl

theorem State.clock_linked (x : State) (k : Nat) (link : Option Nat) (t pc : Nat) : (x.linked k link t pc).now = x.now ∧ (x.linked k link t pc).d = x.d := by
  cases link with
  | none => exact ⟨rfl, rfl⟩
  | some l => exact State.clock_linkTo ..

theorem State.keeps_branched {α : Type} {p : Engine → α} (s x : State) (k : Nat) (link : Option Nat) (t : Nat)
    (hp : ∀ (e : Engine) m ls, p { e with pbrAt := m, links := ls } = p e) (hl : ∀ (e : Engine) (ls : List LoopSt), p { e with loops := ls } = p e) :
    x.Keeps p (s.branched x k link t) := by
  refine State.Keeps.trans ?_ (State.keeps_endLoops _ _ hl)
  cases link with
  | none => exact State.Keeps.refl x
  | some l => exact State.keeps_linkTo x k l t _ hp

theorem branchCost_eq (e : Engine) (k T d : Nat) : branchCost e k T d = (SMap.find e.pbrAt k).elim 4 fun a => 4 - (T - a) / d := by
  unfold branchCost
  cases SMap.find e.pbrAt k <;> rfl

/-! ### Outcomes and plans of a branch (R116, R117) -/

section
variable {g : Guard} {k : Nat} {link : Option Nat} {s : State} {on : Bool}

theorem planBranch_faults (htag : s.cur.tag = 0) (hon : on = true) (hfar : s.here.nword ≤ s.branchTarget k link) :
    planBranch g k link s on = .fault s .illegalOperand := by
  rw [planBranch, if_pos ⟨htag, hon, hfar⟩]

theorem planBranch_stalls (htag : s.cur.tag ≠ 0) (hg : g.gd = false) (hfar : s.here.nword ≤ s.branchTarget k link) :
    planBranch g k link s on = .stall s := by
  rw [planBranch, if_neg fun h => htag h.1, if_pos ⟨htag, hg, hfar⟩]

/-- The checks of a branch pass: its target lies in the stream, or the CE does not take it, or another engine goes by the outcome posted. -/
theorem planBranch_passes (hin : s.branchTarget k link < s.here.nword ∨ (if s.cur.tag = 0 then on = false else g.gd = true)) :
    ¬(s.cur.tag = 0 ∧ on = true ∧ s.here.nword ≤ s.branchTarget k link) ∧
      ¬(s.cur.tag ≠ 0 ∧ g.gd = false ∧ s.here.nword ≤ s.branchTarget k link) := by
  refine ⟨fun ⟨htag, hon, hfar⟩ => ?_, fun ⟨htag, hoff, hfar⟩ => ?_⟩
  · rw [if_pos htag] at hin
    rcases hin with hlt | hoff
    · omega
    · exact absurd hon (ne_true_of_eq_false hoff)
  · rw [if_neg htag] at hin
    rcases hin with hlt | hg
    · omega
    · exact absurd hg (ne_true_of_eq_false hoff)

theorem planBranch_taken {x : State} (hout : s.branchOutcome g on = some (x, true))
    (hin : s.branchTarget k link < s.here.nword ∨ (if s.cur.tag = 0 then on = false else g.gd = true)) :
    planBranch g k link s on = .go { s := s.branched x k link (s.branchTarget k link), jump := some (s.branchTarget k link),
                                     cyc := 1 + branchCost s.hereE k x.now x.d } := by
  obtain ⟨hnow, hd⟩ := State.clock_linked x k link (s.branchTarget k link) s.hereE.pc
  obtain ⟨hce, hrest⟩ := planBranch_passes hin
  rw [planBranch, if_neg hce, if_neg hrest, hout, ← hnow, ← hd]
  rfl

theorem planBranch_untaken {x : State} (hout : s.branchOutcome g on = some (x, false)) (hin : if s.cur.tag = 0 then on = false else g.gd = true) :
    planBranch g k link s on = .go { s := x } := by
  obtain ⟨hce, hrest⟩ := planBranch_passes (k := k) (link := link) (.inr hin)
  rw [planBranch, if_neg hce, if_neg hrest, hout]

theorem branchOutcome_unguarded (hg : g.gd = false) : s.branchOutcome g on = some (s, true) := by
  simp [State.branchOutcome, hg]

theorem branchOutcome_posts (hg : g.gd = true) (htag : s.cur.tag = 0) (hroom : s.here.outFull s.ct = false) :
    s.branchOutcome g on = some (s.post on 0, on) := by
  simp [State.branchOutcome, hg, htag, hroom]

theorem branchOutcome_takes (hg : g.gd = true) (htag : s.cur.tag ≠ 0) {o : OutEnt} (ho : s.hereE.outcome s.now = some o) :
    s.branchOutcome g on = some (s.takeOutcome, o.taken) := by
  simp [State.branchOutcome, hg, htag, ho]

end

/-! ### What a branch does -/

/-- `i` is the branch on register `k` under the guard `g`, with its link. -/
structure BranchWord (i : Instr) (g : Guard) (k : Nat) (link : Option Nat) : Prop where
  exec : ∀ s, exec i s = issueIf s i (planBranch g k link)
  guard : guardOf i = g
  length : (encode i).length = 1

section
variable {i : Instr} {g : Guard} {k : Nat} {link : Option Nat} {s : State} (hi : BranchWord i g k link) (hclear : Clear s i)
include hi hclear

theorem BranchWord.taken {x : State} (hout : s.branchOutcome g (s.enabled g) = some (x, true)) (hx : s.SameBut x)
    (hin : s.branchTarget k link < s.here.nword ∨ (if s.cur.tag = 0 then s.enabled g = false else g.gd = true)) :
    IssuesTo i s (s.branched x k link (s.branchTarget k link)) (s.branchTarget k link) (s.now + (1 + branchCost s.hereE k s.now s.d) * s.d) := by
  obtain ⟨hexec, hguard, -⟩ := hi
  subst hguard
  have hplan := planBranch_taken hout hin
  have hkeeps : s.Keeps Engine.waits (s.branched x k link (s.branchTarget k link)) :=
    (hx.keeps fun _ _ => rfl).trans (State.keeps_branched s x k link _ (fun _ _ _ => rfl) fun _ _ => rfl)
  have hissues := issuesTo_of_go (hexec s) hclear hplan hkeeps.1 hkeeps.hereE (.inl (Option.some_ne_none _))
  rwa [hx.clock.1, hx.clock.2] at hissues

theorem BranchWord.untaken {x : State} (hmid : s.midLoop 1 = true) (hout : s.branchOutcome g (s.enabled g) = some (x, false)) (hx : s.SameBut x)
    (hin : if s.cur.tag = 0 then s.enabled g = false else g.gd = true) : Issues i s x := by
  obtain ⟨hexec, hguard, hlength⟩ := hi
  subst hguard
  rw [← hlength] at hmid
  have hplan := planBranch_untaken (k := k) (link := link) hout hin
  have hkeeps : s.Keeps Engine.walk x := hx.keeps fun _ _ => rfl
  exact ⟨_, issuesTo_next (hexec s) hclear hplan hkeeps.1 hkeeps.hereE rfl hmid⟩

/-- A branch in every case: `out` is what it does where it is taken. -/
theorem BranchWord.meaning (hmid : s.midLoop 1 = true) {t cost : Nat} {out : State → State} (ht : s.branchTarget k link = t)
    (hcost : (SMap.find s.hereE.pbrAt k).elim 4 (fun a => 4 - (s.now - a) / s.d) = cost)
    (hbr : ∀ x, s.SameBut x → s.branched x k link t = out x) :
    (s.cur.tag = 0 → s.enabled g = true → s.here.stream.length ≤ t → Faults i s .illegalOperand) ∧
    (s.cur.tag ≠ 0 → g.gd = false → s.here.stream.length ≤ t → Machine.exec i s = .next (s.stall false)) ∧
    (g.gd = false → s.enabled g = true → t < s.here.stream.length → IssuesTo i s (out s) t (s.now + (1 + cost) * s.d)) ∧
    (g.gd = true → s.cur.tag = 0 → s.enabled g = true → t < s.here.stream.length → s.here.outFull s.ct = false →
      IssuesTo i s (out (s.post true 0)) t (s.now + (1 + cost) * s.d)) ∧
    (g.gd = true → s.cur.tag = 0 → s.enabled g = false → s.here.outFull s.ct = false → Issues i s (s.post false 0)) ∧
    (∀ o, g.gd = true → s.cur.tag ≠ 0 → s.hereE.outcome s.now = some o →
      (o.taken = true → IssuesTo i s (out s.takeOutcome) t (s.now + (1 + cost) * s.d)) ∧ (o.taken = false → Issues i s s.takeOutcome)) := by
  subst ht hcost
  rw [← branchCost_eq]
  refine ⟨fun htag hon hfar => ?_, fun htag hg hfar => ?_, fun hg hon hin => ?_, fun hg htag hon hin hroom => ?_, fun hg htag hoff hroom => ?_,
    fun o hg htag ho => ⟨fun htaken => ?_, fun htaken => ?_⟩⟩
  · exact faults_of_planIf (hi.exec s) hclear (.inr htag) (by decide) (planBranch_faults htag (by rw [hi.guard]; exact hon) hfar)
  · exact stalls_of_planIf (hi.exec s) hclear (planBranch_stalls htag hg hfar)
  · rw [← hbr s (.refl s)]
    exact hi.taken hclear (branchOutcome_unguarded hg) (.refl s) (.inl hin)
  · have hout := branchOutcome_posts (on := s.enabled g) hg htag hroom
    rw [hon] at hout
    rw [← hbr _ (s.sameBut_post true 0)]
    exact hi.taken hclear (by rw [hon]; exact hout) (s.sameBut_post true 0) (.inl hin)
  · have hout := branchOutcome_posts (on := s.enabled g) hg htag hroom
    rw [hoff] at hout
    exact hi.untaken hclear hmid (by rw [hoff]; exact hout) (s.sameBut_post false 0) (by rw [if_pos htag]; exact hoff)
  · rw [← hbr _ s.sameBut_takeOutcome]
    exact hi.taken hclear (htaken ▸ branchOutcome_takes hg htag ho) s.sameBut_takeOutcome (.inr (by rw [if_neg htag]; exact hg))
  · exact hi.untaken hclear hmid (htaken ▸ branchOutcome_takes hg htag ho) s.sameBut_takeOutcome (by rw [if_neg htag]; exact hg)

end

theorem branchWord_br (g : Guard) (k : BitVec 3) : BranchWord (.br { g := g, k := k }) g k.toNat none := ⟨fun _ => rfl, rfl, rfl⟩

theorem branchWord_brl (g : Guard) (k l : BitVec 3) : BranchWord (.brl { g := g, l := l, k := k }) g k.toNat (some l.toNat) := ⟨fun _ => rfl, rfl, rfl⟩

/-! ### The statement -/

/-- Settles O27: NOP and PBR by their plans, and both branches by `BranchWord.meaning`. -/
theorem targetsAndBranches : Obligations.TargetsAndBranches := by
  unfold Obligations.TargetsAndBranches
  refine ⟨⟨fun n s hclear hmid => ?_, fun f s hready => ?_⟩, ?_⟩
  · exact issuesTo_next (plan := fun s _ => .go { s := s, lat := 0, cyc := ceilDiv (1 + n.toNat) s.d }) rfl hclear rfl rfl rfl rfl hmid
  · dsimp only
    rw [← pbrTarget_eq]
    refine ⟨fun htag hfar => ?_, fun hin => ?_⟩
    · exact faults_of_planIf (plan := planPbr f) rfl hready.clear (.inr htag) (by decide) ((planPbr_eq ..).trans (if_pos hfar))
    · have hkeeps : s.Keeps Engine.walk (s.preparing f (pbrTarget f s.hereE.pc)) := State.keeps_preparing s f _ fun _ _ => rfl
      exact ⟨_, issuesTo_next (plan := planPbr f) rfl hready.clear ((planPbr_eq ..).trans (if_neg (Nat.not_le.2 hin))) hkeeps.1 hkeeps.hereE rfl hready.mid⟩
  · simp only [List.forall_mem_cons]
    refine ⟨fun g k l s hclear hmid => ?_, fun g k l s hclear hmid => ?_, List.forall_mem_nil _⟩
    · exact (branchWord_br g k).meaning hclear hmid rfl rfl fun x hx => rfl
    · exact (branchWord_brl g k l).meaning hclear hmid rfl rfl fun x hx => congrArg (State.endLoops · _) (linkTo_eq hx k l _ _)

end Sys2Proof.Machine
end

section
/-! LOOP and LBRK (O28). -/

namespace Sys2Proof.Machine

open Sys2Proof

/-! ### LOOP (R118) -/

/-- The body of LOOP is too short, or the stream does not reach its last word. -/
def State.loopBad (s : State) (f : LoopF) : Prop := f.last.toNat < 2 ∨ s.here.stream.length ≤ s.hereE.pc + f.last.toNat

/-- LOOP does not nest in the active loops: four are active, one has its number, or one ends before its last word. -/
def State.loopNested (s : State) (f : LoopF) : Prop :=
  4 ≤ s.hereE.loops.length ∨ (∃ l ∈ s.hereE.loops, l.n = f.n.toNat) ∨ ∃ l ∈ s.hereE.loops, l.last ≤ s.hereE.pc + f.last.toNat

/-- The state in which LOOP has opened its loop on `v` iterations, with the engine of `s` at the word. -/
def State.loopBegun (s : State) (f : LoopF) (x : State) (v : Nat) : State :=
  let y := x.modHereE fun e => { e with loops :=
    { n := f.n.toNat, cnt := v, first := s.hereE.pc + 2, last := s.hereE.pc + f.last.toNat, fresh := x.here.inSeg } :: e.loops }
  if s.cur.tag = 0 then y.modHere fun k => { k with lc := SMap.set 0 k.lc f.n.toNat (BitVec.ofNat 32 v) } else y

/-- Where LOOP takes its count from: its field, for the CE its operand, and for the other engines what the CE has posted (R116). -/
inductive State.LoopCount (s : State) (f : LoopF) : State → Nat → Prop where
  | field (hc : f.csrc = false) : s.LoopCount f s f.count.toNat
  | operand (hc : f.csrc = true) (ht : s.cur.tag = 0) (hroom : s.here.outFull s.ct = false) :
    s.LoopCount f (s.post false (s.here.slotVal 0 (countSlot f))) (s.here.slotVal 0 (countSlot f))
  | posted (hc : f.csrc = true) (ht : s.cur.tag ≠ 0) (o : OutEnt) (ho : s.hereE.outcome s.now = some o) : s.LoopCount f s.takeOutcome o.count

theorem State.LoopCount.sameBut {s x : State} {f : LoopF} {v : Nat} (h : s.LoopCount f x v) : s.SameBut x := by
  cases h with
  | field => exact .refl s
  | operand => exact s.sameBut_post ..
  | posted => exact s.sameBut_takeOutcome

theorem State.modHereE_congr {s : State} {f g : Engine → Engine} (h : f s.hereE = g s.hereE) : s.modHereE f = s.modHereE g :=
  State.modHere_congr (f := fun k => k.modEngine s.cur.tag f) (g := fun k => k.modEngine s.cur.tag g) (congrArg (s.here.setEngine s.cur.tag) h)

section
variable {f : LoopF} {s : State} {on : Bool} (hsrc : ¬(f.csrc = true ∧ s.cur.tag = 0) ∨ s.here.slotOk 0 (countSlot f) = true ∧ (countSlot f).w ≤ 8)
include hsrc

theorem loop_countOk : ¬(f.csrc = true ∧ s.cur.tag = 0 ∧ (!s.here.slotOk 0 (countSlot f) || decide (8 < (countSlot f).w)) = true) := by
  rintro ⟨hc, ht, hbad⟩
  rcases hsrc with h | ⟨hok, hw⟩
  · exact h ⟨hc, ht⟩
  · simp [hok, Nat.not_lt.2 hw] at hbad

theorem planLoop_bad (hbad : s.loopBad f) : planLoop f s on = .fault s .illegalOperand := by
  rw [planLoop, if_neg (loop_countOk hsrc)]
  exact if_pos hbad

theorem planLoop_nested (hbad : ¬s.loopBad f) (hnest : s.loopNested f) : planLoop f s on = .fault s .loopNest := by
  rw [planLoop, if_neg (loop_countOk hsrc)]
  refine (if_neg hbad).trans (if_pos ?_)
  simpa [State.loopNested] using hnest

/-- A LOOP that nests goes by its count: 0 skips the body. -/
theorem planLoop_of_count (hbad : ¬s.loopBad f) (hnest : ¬s.loopNested f) {x : State} {v : Nat} (hcount : s.LoopCount f x v) :
    planLoop f s on = if v = 0 then .go { s := x, jump := some (s.hereE.pc + f.last.toNat + 1) } else .go { s := s.loopBegun f x v } := by
  have hnest' : ¬(4 ≤ s.hereE.loops.length ∨ (s.hereE.loops.any fun l => decide (l.n = f.n.toNat)) = true ∨
      (s.hereE.loops.any fun l => decide (l.last ≤ s.hereE.pc + f.last.toNat)) = true) := by
    simpa [State.loopNested] using hnest
  have hpc : x.hereE.pc = s.hereE.pc := (hcount.sameBut.keeps (p := Engine.pc) fun _ _ => rfl).hereE
  have hcur : x.cur = s.cur := (hcount.sameBut.keeps (p := Engine.pc) fun _ _ => rfl).1
  rw [planLoop, if_neg (loop_countOk hsrc)]
  refine (if_neg hbad).trans ((if_neg hnest').trans ?_)
  dsimp only
  generalize hgot : ite ((!f.csrc) = true) _ _ = got
  have hsome : got = some (x, v) := by
    rw [← hgot]
    cases hcount with
    | field hc => simp [hc]
    | operand hc ht hroom => simp [hc, ht, hroom]
    | posted hc ht o ho => simp [hc, ht, ho]
  subst hsome
  cases v with
  | zero => rfl
  | succ v =>
    rw [if_neg v.succ_ne_zero, State.loopBegun, ← hpc, ← hcur, State.modHereE_congr (s := x) (g := fun e => { e with loops :=
      { n := f.n.toNat, cnt := v + 1, first := e.pc + 2, last := x.hereE.pc + f.last.toNat, fresh := x.here.inSeg } :: e.loops }) rfl, hpc]
    rfl

end

theorem State.keeps_loopBegun {α : Type} {p : Engine → α} (s x : State) (f : LoopF) (v : Nat) (hl : ∀ (e : Engine) (ls : List LoopSt), p { e with loops := ls } = p e) :
    x.Keeps p (s.loopBegun f x v) := by
  unfold State.loopBegun
  dsimp only
  split
  · exact (State.keeps_modHereE x fun e => hl e _).trans (State.keeps_modHere fun _ => rfl)
  · exact State.keeps_modHereE x fun e => hl e _

theorem State.hereE_modHereE (s : State) (f : Engine → Engine) : (s.modHereE f).hereE = f s.hereE :=
  (congrArg (Core.engine · s.cur.tag) (s.here_modHere fun k => k.modEngine s.cur.tag f)).trans (Core.engine_modEngine ..)

/-- The loop that LOOP has opened is the innermost. -/
theorem State.loops_loopBegun (s x : State) (f : LoopF) (v : Nat) :
    (s.loopBegun f x v).hereE.loops =
      { n := f.n.toNat, cnt := v, first := s.hereE.pc + 2, last := s.hereE.pc + f.last.toNat, fresh := x.here.inSeg } :: x.hereE.loops := by
  unfold State.loopBegun
  dsimp only
  split
  · refine (State.keeps_modHere (p := Engine.loops) fun _ => rfl).hereE.trans ?_
    rw [State.hereE_modHereE]
  · rw [State.hereE_modHereE]

theorem loop_runs {f : LoopF} {s x : State} {v : Nat} (hready : Ready s (.loop f))
    (hsrc : ¬(f.csrc = true ∧ s.cur.tag = 0) ∨ s.here.slotOk 0 (countSlot f) = true ∧ (countSlot f).w ≤ 8)
    (hbad : ¬s.loopBad f) (hnest : ¬s.loopNested f) (hcount : s.LoopCount f x v) :
    (v = 0 → IssuesTo (.loop f) s x (s.hereE.pc + f.last.toNat + 1) (s.now + s.d)) ∧ (v ≠ 0 → Issues (.loop f) s (s.loopBegun f x v)) := by
  have hplan := planLoop_of_count (on := s.enabled (guardOf (.loop f))) hsrc hbad hnest hcount
  have hwaits : s.Keeps Engine.waits x := hcount.sameBut.keeps fun _ _ => rfl
  have hpc : s.Keeps Engine.pc x := hcount.sameBut.keeps fun _ _ => rfl
  refine ⟨fun hv => ?_, fun hv => ?_⟩
  · rw [if_pos hv] at hplan
    have hissues := issuesTo_of_go (plan := planLoop f) rfl hready.clear hplan hwaits.1 hwaits.hereE (.inl (Option.some_ne_none _))
    rwa [Nat.one_mul] at hissues
  · rw [if_neg hv] at hplan
    have hwaits' := hwaits.trans (s.keeps_loopBegun x f v fun _ _ => rfl)
    have hpc' := hpc.trans (s.keeps_loopBegun x f v fun _ _ => rfl)
    have hlong : 1 < f.last.toNat := Nat.not_le.1 fun h => hbad (.inl (Nat.lt_succ_of_le h))
    have hmid : (s.loopBegun f x v).midLoop (encode (.loop f)).length = true := by
      have hlen : (encode (.loop f)).length = 2 := rfl
      rw [State.midLoop, s.loops_loopBegun, hpc'.hereE, hlen]
      simpa using hlong
    have hissues := issuesTo_of_go (plan := planLoop f) rfl hready.clear hplan hwaits'.1 hwaits'.hereE (.inr hmid)
    rw [hpc'.hereE] at hissues
    exact ⟨_, hissues⟩

/-! ### LBRK (R121) -/

/-- The innermost of the active loops with the number of LBRK is the `j`-th. -/
theorem findIdx_loop {ls : List LoopSt} {n j : Nat} {l : LoopSt} (hl : ls[j]? = some l) (hn : l.n = n)
    (hinner : ∀ (i : Nat) (x : LoopSt), i < j → ls[i]? = some x → x.n ≠ n) : (ls.findIdx? fun l => decide (l.n = n)) = some j := by
  obtain ⟨hj, hlj⟩ := List.getElem?_eq_some_iff.1 hl
  rw [List.findIdx?_eq_some_iff_getElem]
  refine ⟨hj, by simpa [hlj] using hn, fun i hi => ?_⟩
  simpa using hinner i _ hi (List.getElem?_eq_getElem (hi.trans hj))

section
variable {f : LbrkF} {s : State} {on : Bool}

theorem planLbrk_none (h : ∀ l ∈ s.hereE.loops, l.n ≠ f.n.toNat) : planLbrk f s on = .fault s .loopNest := by
  have hfind : (s.hereE.loops.findIdx? fun l => decide (l.n = f.n.toNat)) = none := by
    simpa [List.findIdx?_eq_none_iff] using h
  rw [planLbrk, hfind]

variable {j : Nat} {l : LoopSt} (hl : s.hereE.loops[j]? = some l) (hn : l.n = f.n.toNat)
  (hinner : ∀ (i : Nat) (x : LoopSt), i < j → s.hereE.loops[i]? = some x → x.n ≠ f.n.toNat)
include hl hn hinner

theorem planLbrk_of_outcome {x : State} {taken : Bool} (hout : s.branchOutcome f.g on = some (x, taken)) :
    planLbrk f s on = if taken then .go { s := x.endLoops (j + 1), jump := some (l.last + 1) } else .go { s := x } := by
  rw [planLbrk, findIdx_loop hl hn hinner, hout]
  cases taken with
  | false => rfl
  | true =>
    have hlast : (s.hereE.loops.getD j { n := 0, cnt := 0, first := 0, last := 0 }).last = l.last := by
      rw [List.getD_eq_getElem?_getD, hl]
      rfl
    rw [← hlast]
    rfl

variable (hclear : Clear s (.lbrk f))
include hclear

theorem lbrk_taken {x : State} (hout : s.branchOutcome f.g (s.enabled f.g) = some (x, true)) (hx : s.SameBut x) :
    IssuesTo (.lbrk f) s (x.endLoops (j + 1)) (l.last + 1) (s.now + s.d) := by
  have hplan := planLbrk_of_outcome hl hn hinner hout
  have hkeeps : s.Keeps Engine.waits (x.endLoops (j + 1)) := (hx.keeps fun _ _ => rfl).trans (State.keeps_endLoops x _ fun _ _ => rfl)
  rw [if_pos rfl] at hplan
  have hissues := issuesTo_of_go (plan := planLbrk f) rfl hclear hplan hkeeps.1 hkeeps.hereE (.inl (Option.some_ne_none _))
  rwa [Nat.one_mul] at hissues

theorem lbrk_untaken {x : State} (hmid : s.midLoop 1 = true) (hout : s.branchOutcome f.g (s.enabled f.g) = some (x, false)) (hx : s.SameBut x) :
    Issues (.lbrk f) s x := by
  have hplan := planLbrk_of_outcome hl hn hinner hout
  have hkeeps : s.Keeps Engine.walk x := hx.keeps fun _ _ => rfl
  exact ⟨_, issuesTo_next (plan := planLbrk f) rfl hclear hplan hkeeps.1 hkeeps.hereE rfl hmid⟩

end

/-! ### The statement -/

/-- Settles O28: LOOP by where it takes its count from, LBRK by its outcome. -/
theorem loopsBeginAndBreak : Obligations.LoopsBeginAndBreak := by
  refine ⟨fun f s hready => ⟨fun htag hc hbad => ?_, fun htag hc hbad hnest => ?_, fun hbad hnest hc => ?_, fun hbad hnest hc htag hok hw hroom => ?_,
    fun o hbad hnest hc htag ho => ?_⟩, fun f s hclear hmid => ⟨fun htag hnone => ?_, fun j l hl hn hinner => ⟨fun hg hon => ?_, fun hg htag hroom => ?_,
    fun o hg htag ho => ⟨fun htaken => ?_, fun htaken => ?_⟩⟩⟩⟩
  · exact faults_of_planIf (plan := planLoop f) rfl hready.clear (.inr htag) (by decide) (planLoop_bad (.inl (by simp [hc])) hbad)
  · exact faults_of_planIf (plan := planLoop f) rfl hready.clear (.inr htag) (by decide) (planLoop_nested (.inl (by simp [hc])) hbad hnest)
  · exact loop_runs hready (.inl (by simp [hc])) hbad hnest (.field hc)
  · exact loop_runs hready (.inr ⟨hok, hw⟩) hbad hnest (.operand hc htag hroom)
  · exact loop_runs hready (.inl fun h => htag h.2) hbad hnest (.posted hc htag o ho)
  · exact faults_of_planIf (plan := planLbrk f) rfl hclear (.inr htag) (by decide) (planLbrk_none hnone)
  · exact lbrk_taken hl hn hinner hclear (branchOutcome_unguarded hg) (.refl s)
  · have hout := branchOutcome_posts (on := s.enabled f.g) hg htag hroom
    refine ⟨fun hon => ?_, fun hoff => ?_⟩
    · rw [hon] at hout
      exact lbrk_taken hl hn hinner hclear (by rw [hon]; exact hout) (s.sameBut_post true 0)
    · rw [hoff] at hout
      exact lbrk_untaken hl hn hinner hclear hmid (by rw [hoff]; exact hout) (s.sameBut_post false 0)
  · exact lbrk_taken hl hn hinner hclear (htaken ▸ branchOutcome_takes hg htag ho) s.sameBut_takeOutcome
  · exact lbrk_untaken hl hn hinner hclear hmid (htaken ▸ branchOutcome_takes hg htag ho) s.sameBut_takeOutcome

end Sys2Proof.Machine
end

section
/-! Join words: the issue of the whole core, GBAR, CKDIV, SLIPW and BRK (O30). -/

namespace Sys2Proof.Machine

open Sys2Proof

/-! ### One issue for every engine of the core (R112) -/

/-- An engine as it issues a join word at tick `T`, with divisor `d`; `st` is the segment tick that its signature takes. -/
def Engine.atJoin (e : Engine) (i : Instr) (cnt inseg : Bool) (st T d : Nat) : Engine :=
  { e with
    arrived := none, nextAt := T + d, lastAt := some T, since := none, openWait := false, primed := false, asked := false, waits := none,
    sig := if inseg && cnt then (sigBytes ((encode i).headD 0) st).foldl crcByte e.sig else e.sig,
    dyn := if cnt then (e.dyn + 1) % 2 ^ 32 else 0,
    seam := if inseg || i = .halt || !cnt then e.seam else e.seam + 1,
    doneAt := max e.doneAt T }

/-- Engine `t` of core `c` issues the join word and leaves it. -/
def State.joinStep (i : Instr) (cnt inseg : Bool) (st T c : Nat) (s : State) (t : Nat) : State :=
  (s.modEngine c t fun e => e.atJoin i cnt inseg st T ((s.core c).div t)).leave c t (encode i).length none

/-- Phases and positions restart (R270, R280). -/
def Core.rewound (k : Core) : Core :=
  { k with path := [], base := k.base + (k.engine 0).pos, eng := k.eng.map fun p => (p.1, { p.2 with idx := 0, pos := 0, pos0 := 0 }) }

theorem State.joinIssue_eq {s : State} (hwaits : s.hereE.waits = none) (i : Instr) (cnt : Bool) :
    s.joinIssue i cnt =
      ((tagsOf s.ct).foldl (State.joinStep i cnt s.here.inSeg (s.segTick s.cur.core) s.now s.cur.core) s).modCore s.cur.core Core.rewound := by
  have hrun : s.unpause = s := by
    simp [State.unpause, hwaits]
  unfold State.joinIssue
  rw [hrun]
  rfl

theorem Core.rewound_engine (k : Core) (t : Nat) : k.rewound.engine t = { k.engine t with idx := 0, pos := 0, pos0 := 0 } := by
  change (SMap.find (k.eng.map fun p => (p.1, { p.2 with idx := 0, pos := 0, pos0 := 0 })) t).getD Engine.reset = _
  rw [SMap.find_map (fun e : Engine => { e with idx := 0, pos := 0, pos0 := 0 }), Core.engine]
  cases SMap.find k.eng t <;> rfl

/-- Where an engine stands after a join word: its pc, that it has not arrived, when it issued and when it may issue next. -/
def Engine.stand (e : Engine) : Nat × Option Nat × Option Nat × Nat := (e.pc, e.arrived, e.lastAt, e.nextAt)

/-- The engines `ts` of core `c` have issued a join word of `n` words at tick `T`, from `s` to `r`; nothing else of other cores or of memory changes. -/
structure State.Joined (n T c : Nat) (ts : List Nat) (s r : State) : Prop where
  cur : r.cur = s.cur
  mem : r.mem = s.mem
  others : ∀ d, d ≠ c → r.core d = s.core d
  ckd : (r.core c).ckd = (s.core c).ckd
  moved : ∀ t ∈ ts, ((r.core c).engine t).stand = (((s.core c).engine t).pc + n, none, some T, T + (s.core c).div t)
  kept : ∀ t, t ∉ ts → ((r.core c).engine t).apart = ((s.core c).engine t).apart

theorem State.Joined.trans {n T c : Nat} {ts us : List Nat} {s x r : State} (h : s.Joined n T c ts x) (h' : x.Joined n T c us r)
    (hdisj : ∀ t ∈ ts, t ∉ us) : s.Joined n T c (ts ++ us) r where
  cur := h'.cur.trans h.cur
  mem := h'.mem.trans h.mem
  others d hd := (h'.others d hd).trans (h.others d hd)
  ckd := h'.ckd.trans h.ckd
  moved t ht := by
    by_cases hts : t ∈ ts
    · rw [← h.moved t hts]
      exact (congrArg Engine.stand (h'.kept t (hdisj t hts)) :)
    · have hus : t ∈ us := (List.mem_append.1 ht).resolve_left hts
      have hpc : ((x.core c).engine t).pc = ((s.core c).engine t).pc := (congrArg Engine.pc (h.kept t hts) :)
      rw [h'.moved t hus, hpc, Core.div, Core.div, h.ckd]
  kept t ht := by
    rw [List.mem_append, not_or] at ht
    exact (h'.kept t ht.2).trans (h.kept t ht.1)

section
variable {i : Instr} {cnt inseg : Bool} {st T c : Nat}

theorem State.core_joinStep {s : State} {t : Nat} (hloops : ((s.core c).engine t).loops = []) :
    (s.joinStep i cnt inseg st T c t).core c =
      ((s.core c).modEngine t fun e => e.atJoin i cnt inseg st T ((s.core c).div t)).passed (coreType c) t (encode i).length
        (((s.core c).engine t).pc + (encode i).length) ∧
    (∀ d, d ≠ c → (s.joinStep i cnt inseg st T c t).core d = s.core d) ∧
    (s.joinStep i cnt inseg st T c t).mem = s.mem ∧ (s.joinStep i cnt inseg st T c t).cur = s.cur := by
  have hcore : (s.modEngine c t fun e => e.atJoin i cnt inseg st T ((s.core c).div t)).core c =
      (s.core c).modEngine t fun e => e.atJoin i cnt inseg st T ((s.core c).div t) := State.core_modCore ..
  have hpc : (((s.core c).engine t).atJoin i cnt inseg st T ((s.core c).div t)).pc = ((s.core c).engine t).pc := rfl
  have hls : (((s.core c).engine t).atJoin i cnt inseg st T ((s.core c).div t)).loops = [] := hloops
  rw [State.joinStep, leave_mid _ _ _ _ _ (.inr (by rw [hcore, Core.engine_modEngine, hls])), hcore, Core.engine_modEngine, hpc]
  refine ⟨State.core_setCore .., fun d hd => ?_, rfl, rfl⟩
  exact (State.core_setCore_other _ _ hd).trans (State.core_modCore_other _ _ hd)

theorem State.joined_joinStep {s : State} {t : Nat} (hloops : ((s.core c).engine t).loops = []) :
    s.Joined (encode i).length T c [t] (s.joinStep i cnt inseg st T c t) := by
  obtain ⟨hcore, hothers, hmem, hcur⟩ := State.core_joinStep (i := i) (cnt := cnt) (inseg := inseg) (st := st) (T := T) hloops
  refine ⟨hcur, hmem, hothers, ?_, fun u hu => ?_, fun u hu => ?_⟩
  · have hbare := Core.passed_bare ((s.core c).modEngine t fun e => e.atJoin i cnt inseg st T ((s.core c).div t)) (coreType c) t (encode i).length
      (((s.core c).engine t).pc + (encode i).length)
    rw [hcore]
    exact (congrArg Core.ckd hbare :)
  · obtain rfl := List.mem_singleton.1 hu
    obtain ⟨m, hm⟩ := Core.passed_same ((s.core c).modEngine u fun e => e.atJoin i cnt inseg st T ((s.core c).div u)) (coreType c) u (encode i).length
      (((s.core c).engine u).pc + (encode i).length)
    rw [hcore, hm, Core.engine_modEngine]
    rfl
  · have hne : u ≠ t := fun h => hu (List.mem_singleton.2 h)
    rw [hcore, Core.passed_other _ _ _ _ hne, Core.engine_modEngine_other _ _ hne]

theorem State.joined_foldl : ∀ (ts : List Nat) (s : State), ts.Nodup → (∀ t ∈ ts, ((s.core c).engine t).loops = []) →
    s.Joined (encode i).length T c ts (ts.foldl (State.joinStep i cnt inseg st T c) s)
  | [], s, _, _ => ⟨rfl, rfl, fun _ _ => rfl, rfl, nofun, fun _ _ => rfl⟩
  | t :: ts, s, hnd, hloops => by
    obtain ⟨ht, hnd⟩ := List.nodup_cons.1 hnd
    have hstep := State.joined_joinStep (i := i) (cnt := cnt) (inseg := inseg) (st := st) (T := T) (hloops t List.mem_cons_self)
    refine hstep.trans (State.joined_foldl ts _ hnd fun u hu => ?_) fun u hu => ?_
    · have hne : u ∉ [t] := fun h => ht (List.mem_singleton.1 h ▸ hu)
      exact (congrArg Engine.loops (hstep.kept u hne) :).trans (hloops u (List.mem_cons_of_mem _ hu))
    · exact List.mem_singleton.1 hu ▸ ht

end

theorem nodup_tagsOf (ct : CoreType) : (tagsOf ct).Nodup := by
  cases ct <;> decide

/-- A join word moves every engine of its core at once. -/
theorem joinIssue_moves {s : State} (hwaits : s.hereE.waits = none) (hloops : ∀ t ∈ tagsOf s.ct, (s.here.engine t).loops = []) (i : Instr) (cnt : Bool) :
    (∀ c, c ≠ s.cur.core → (s.joinIssue i cnt).core c = s.core c) ∧ (s.joinIssue i cnt).mem = s.mem ∧
    ∀ t ∈ tagsOf s.ct, ((s.joinIssue i cnt).here.engine t).stand = ((s.here.engine t).pc + (encode i).length, none, some s.now, s.now + s.here.div t) := by
  have hjoined := State.joined_foldl (i := i) (cnt := cnt) (inseg := s.here.inSeg) (st := s.segTick s.cur.core) (T := s.now) _ s (nodup_tagsOf s.ct) hloops
  rw [State.joinIssue_eq hwaits]
  generalize List.foldl _ s _ = x at hjoined ⊢
  refine ⟨fun c hc => (State.core_modCore_other _ _ hc).trans (hjoined.others c hc), hjoined.mem, fun t ht => ?_⟩
  have hhere : (x.modCore s.cur.core Core.rewound).here = (x.core s.cur.core).rewound := by
    rw [State.here, State.modCore_cur, hjoined.cur, State.core_modCore]
  rw [hhere, Core.rewound_engine]
  exact hjoined.moved t ht

/-! ### A core at its join word (R112) -/

/-- What becomes of a join word that the core can issue. -/
def Plan.joinOut : Plan → State
  | .bad x c info page => x.unpause.raise c info page
  | .wait x (some src) _ => x.pause src
  | .wait x none opn => x.unpause.joinWait opn
  | .hold x _ => x.joinWait false
  | .go g => g.s

theorem join_eq {s : State} {i : Instr} (h : AtJoin s i) (plan : State → Plan) : join s i plan = .next (plan s).joinOut := by
  obtain ⟨J, hJ, hlt⟩ := h.all
  have harr : s.hereE.arrived.isNone = false := by
    cases harr : s.hereE.arrived with
    | none => exact absurd harr h.here
    | some _ => rfl
  have hseam : (!s.here.inSeg && decide (256 ≤ s.hereE.seam)) = false := by
    rcases h.seam with h | h
    · simp [h]
    · simp [Nat.not_le.2 h]
  have hlast : ¬(s.cur.tag ≠ 0 ∨ s.now ≤ J) := not_or.2 ⟨not_not.2 h.ce, Nat.not_le.2 hlt⟩
  refine (if_pos h.runs).trans ?_
  dsimp only
  rw [harr, Bool.false_and, if_neg Bool.false_ne_true, h.legal]
  dsimp only
  rw [hseam, Bool.false_and, if_neg Bool.false_ne_true, if_neg Bool.false_ne_true, hJ]
  refine (if_neg hlast).trans ?_
  cases plan s with
  | wait x src opn => cases src <;> rfl
  | _ => rfl

/-! ### GBAR (R124) -/

/-- The core at the cursor waits for the release of its barrier. -/
def State.parkHere (x : State) (c : Nat) : State := x.modCore c fun k => { k with eng := k.eng.map fun p => (p.1, { p.2 with nextAt := x.now + 2 ^ 32 }) }

section
variable {id : BitVec 4} {s : State} {g : Group} {J : Nat} (hg : s.groupOf s.cur.core = some g) (hJ : s.here.joined s.ct = some J)
include hg hJ

theorem planGbar_first (hbar : g.bar = none) :
    planGbar id s = .go { s := ((s.joinIssue (.gbar id) true).modGroup g.num fun x =>
      { x with bar := some { id := id, first := J, last := J, cores := [s.cur.core] } }).parkHere s.cur.core } := by
  rw [planGbar, hg, hJ]
  simp only [hbar]
  rfl

theorem planGbar_other {b : Gbar} (hbar : g.bar = some b) (hid : b.id ≠ id) : planGbar id s = .fault s .schedule := by
  rw [planGbar, hg, hJ]
  simp only [hbar, if_pos hid]

theorem planGbar_joins {b : Gbar} (hbar : g.bar = some b) (hid : b.id = id) :
    planGbar id s = .go { s := ((s.joinIssue (.gbar id) true).modGroup g.num fun x =>
      { x with bar := some { b with last := max b.last J, cores := b.cores ++ [s.cur.core] } }).parkHere s.cur.core } := by
  rw [planGbar, hg, hJ]
  simp only [hbar, if_neg (not_not.2 hid)]
  rfl

end

/-! ### CKDIV and BRK (R126, R128) -/

/-- A divisor that CKDIV names is above 8, or of an engine that the core does not have. -/
def ckdBad (ct : CoreType) (d : BitVec 28) (t : Nat) : Prop := 8 < bitsN d.toNat (4 * t) 4 ∨ bitsN d.toNat (4 * t) 4 ≠ 0 ∧ hasTag ct t = false

theorem planCkdiv_bad {d : BitVec 28} {s : State} (h : ∃ t, t < 7 ∧ ckdBad s.ct d t) : planCkdiv d s = .fault s .illegalOperand := by
  rw [planCkdiv]
  refine if_pos ?_
  simpa [ckdBad] using h

theorem planCkdiv_go {d : BitVec 28} {s : State} (h : ¬∃ t, t < 7 ∧ ckdBad s.ct d t) :
    planCkdiv d s = .go { s := (s.modHere fun k => { k with ckd := ckdAfter k.ckd d }).joinIssue (.ckdiv d) true } := by
  rw [planCkdiv]
  refine if_neg ?_
  simpa [ckdBad] using h

theorem exec_brk_enabled {b : BitVec 8} {s : State} (h : s.brkEnabled = true) : exec (.brk b) s = join s (.brk b) (planBrk b) := if_pos h

theorem exec_brk_disabled {b : BitVec 8} {s : State} (h : s.brkEnabled = false) :
    exec (.brk b) s = issueIf s (.brk b) fun s _ => .go { s := s, lat := 0 } := if_neg (ne_true_of_eq_false h)

theorem planBrk_resumed {b : BitVec 8} {s : State} (h : s.hereE.primed = true) : planBrk b s = .go { s := s.joinIssue (.brk b) true } := if_pos h

theorem planBrk_stops {b : BitVec 8} {s : State} (h : s.hereE.primed = false) :
    planBrk b s = .wait ((s.modHereE fun e => { e with primed := true }).debugStop (s.here.grp.getD 0) true b.toNat) none false := by
  have hgrp : (s.modHereE fun e => { e with primed := true }).here.grp = s.here.grp :=
    (congrArg Core.grp (s.here_modHere fun k => k.modEngine s.cur.tag fun e => { e with primed := true }) :)
  rw [planBrk, if_neg (ne_true_of_eq_false h), ← hgrp]

/-! ### The statement -/

/-- Settles O30: `joinIssue_moves` for every join word, and then each word by its plan at a core that has joined; that BRK's stop is taken before the tick in
which its group would issue again is the model's choice (log 82). -/
theorem joinWords : Obligations.Joins := by
  refine ⟨fun s i cnt hwaits hloops => ?_, ⟨fun id s g J h hg hJ => ⟨fun hbar => ?_, fun b hbar hid => ?_, fun b hbar hid => ?_⟩,
    fun d s h => ⟨fun hbad => ?_, fun hok => ?_⟩, fun s h => ?_, fun b s => ⟨fun hoff hclear hmid => ?_, fun hon h => ⟨fun hprimed => ?_, fun hprimed => ?_⟩⟩⟩⟩
  · obtain ⟨hothers, hmem, hmoved⟩ := joinIssue_moves hwaits hloops i cnt
    refine ⟨hothers, hmem, fun t ht => ?_⟩
    simpa only [Engine.stand, Prod.mk.injEq] using hmoved t ht
  · exact (join_eq h (planGbar id)).trans (by rw [planGbar_first hg hJ hbar]; rfl)
  · exact (join_eq h (planGbar id)).trans (by rw [planGbar_other hg hJ hbar hid]; rfl)
  · exact (join_eq h (planGbar id)).trans (by rw [planGbar_joins hg hJ hbar hid]; rfl)
  · exact (join_eq h (planCkdiv d)).trans (by rw [planCkdiv_bad hbad]; rfl)
  · have hgood : ¬∃ t, t < 7 ∧ ckdBad s.ct d t := fun ⟨t, ht, hbad⟩ => by
      obtain ⟨hle, htag⟩ := hok t ht
      rcases hbad with hgt | ⟨hne, hno⟩
      · exact Nat.not_lt.2 hle hgt
      · exact absurd (htag hne) (ne_true_of_eq_false hno)
    exact (join_eq h (planCkdiv d)).trans (by rw [planCkdiv_go hgood]; rfl)
  · exact join_eq h fun s => .go { s := s.joinIssue .slipw true }
  · exact ⟨_, issuesTo_next (exec_brk_disabled hoff) hclear rfl rfl rfl rfl hmid⟩
  · rw [exec_brk_enabled hon, join_eq h, planBrk_resumed hprimed]
    rfl
  · rw [exec_brk_enabled hon, join_eq h, planBrk_stops hprimed]
    rfl

end Sys2Proof.Machine
end

section
/-! SEG.OPEN, SEG.CLOSE and HALT (O31). -/

namespace Sys2Proof.Machine

open Sys2Proof

/-! ### SEG.OPEN (R120, R122, R320) -/

/-- The group pre-empts its unit in the way `l` at the next tick, charged to the core at the cursor (R328, R348). -/
def State.givesWay (s : State) (g : Group) (l : Leave) : State :=
  s.modGroup g.num fun x => { x with pend := some { tick := g.reck + 1, core := s.cur.core, also := none, after := (match l with
    | .checkpoint n => .checkpoint n none
    | .vanish => .vanish) } }

/-- The core at the cursor opens the segment of the descriptor `desc`, the first of its group for the group too. -/
def State.opens (s : State) (g : Group) (d : BitVec 28) (desc : Desc) : State :=
  let s1 := if s.here.openings = g.openings then s.openGroup g desc.foot else s
  (((s1.joinIssue (.segOpen d) false).modHere fun k =>
    { k.openSeg s.ct d.toNat desc s1.now (s.here.snapshotAt s.ct) (desc.carries g s.cur.core) false with
      openings := (s1.group g.num).elim 0 fun x => x.openings }).trace 1 g.num s.cur.core 0xFF desc.segno d.toNat)

section
variable {d : BitVec 28} {s : State} {g : Group} (hg : s.groupOf s.cur.core = some g)
include hg

theorem planSegOpen_inSeg (hin : s.here.inSeg = true) : planSegOpen d s = .fault s .segmentLegality := by
  rw [planSegOpen, hg]
  exact if_pos hin

variable (hout : s.here.inSeg = false) (hpend : g.pend = none) (hfixed : s.asyncFixed s.cur.core = false) (hopen : s.asyncOpen s.cur.core = false)
include hout hpend hfixed hopen

/-- With nothing to wait for, SEG.OPEN asks whether its unit is pre-empted, and then makes its checks. -/
theorem planSegOpen_asks : planSegOpen d s =
    match g.leave, openFaultOf s g d.toNat with
    | some l, _ => if g.cores.all fun x => !(s.core x).active || (s.core x).atOpen x then .wait (s.givesWay g l) none false else .stall s
    | none, some e => .fault s e
    | none, none =>
      match (s.descsOf g)[d.toNat]? with
      | none => .stall s
      | some desc =>
        if s.here.openings = g.openings ∧ desc.foot ≠ 0 ∧ s.freef - s.committed < desc.foot then
          .wait (s.givesWay g (.checkpoint 1)) none false
        else .go { s := s.opens g d desc } := by
  have hfree : ¬(g.pend.isSome = true ∨ s.asyncFixed s.cur.core = true) := by
    simp [hpend, hfixed]
  rw [planSegOpen, hg]
  refine (if_neg (ne_true_of_eq_false hout)).trans ((if_neg hfree).trans ((if_neg (ne_true_of_eq_false hopen)).trans ?_))
  cases g.leave with
  | some l => rfl
  | none =>
    cases openFaultOf s g d.toNat with
    | some e => rfl
    | none =>
      cases (s.descsOf g)[d.toNat]? with
      | none => rfl
      | some desc =>
        simp only [decide_eq_true_eq]
        rfl

theorem planSegOpen_givesWay {l : Leave} (hleave : g.leave = some l)
    (hall : ∀ x ∈ g.cores, (s.core x).active = true → (s.core x).atOpen x = true) : planSegOpen d s = .wait (s.givesWay g l) none false := by
  have hthere : (g.cores.all fun x => !(s.core x).active || (s.core x).atOpen x) = true := by
    rw [List.all_eq_true]
    intro x hx
    cases hact : (s.core x).active with
    | false => rfl
    | true => exact hall x hx hact
  rw [planSegOpen_asks hg hout hpend hfixed hopen, hleave]
  exact if_pos hthere

theorem planSegOpen_opens (hleave : g.leave = none) (hlegal : openFaultOf s g d.toNat = none) {desc : Desc} (hdesc : (s.descsOf g)[d.toNat]? = some desc)
    (hfoot : desc.foot ≤ s.freef - s.committed ∨ desc.foot = 0 ∨ s.here.openings ≠ g.openings) : planSegOpen d s = .go { s := s.opens g d desc } := by
  have hroom : ¬(s.here.openings = g.openings ∧ desc.foot ≠ 0 ∧ s.freef - s.committed < desc.foot) := by
    omega
  rw [planSegOpen_asks hg hout hpend hfixed hopen, hleave, hlegal, hdesc]
  exact if_neg hroom

end

/-! ### SEG.CLOSE (R123, R271, R301, R321, R322) -/

/-- What a segment may leave of its own: no active loop and no bead in a queue (R88, R120). -/
def State.leavesClean (s : State) : Prop := (∀ t ∈ tagsOf s.ct, ∀ l ∈ (s.here.engine t).loops, l.fresh = false) ∧ s.here.ownBeads s.ct = false

section
variable {s : State} {g : Group} (hg : s.groupOf s.cur.core = some g)
include hg

theorem planSegClose_noSeg (hseg : s.here.seg = none) : planSegClose s = .fault s .segmentLegality := by
  rw [planSegClose, hg]
  simp only [hseg]

variable {sg : Seg} (hseg : s.here.seg = some sg)
include hseg

theorem planSegClose_unclean (h : ¬s.leavesClean) : planSegClose s = .fault s .segmentLegality := by
  rw [planSegClose, hg, hseg]
  by_cases hfresh : ((tagsOf s.ct).any fun t => (s.here.engine t).loops.any fun l => l.fresh) = true
  · exact if_pos hfresh
  · have hbeads : s.here.ownBeads s.ct = true := by
      simp only [List.any_eq_true, not_exists, not_and, Bool.not_eq_true] at hfresh
      by_contra hno
      exact h ⟨hfresh, Bool.eq_false_of_not_eq_true hno⟩
    exact (if_neg hfresh).trans (if_pos hbeads)

variable (hclean : s.leavesClean) (hpend : g.pend = none) (hdone : s.segDone g = true)
include hclean hpend hdone

/-- A segment that leaves nothing of its own, with all its effects committed, makes its closing checks; the last core of the group commits it. -/
theorem planSegClose_checks : planSegClose s =
    match s.closeCheck g sg with
    | some info => .wait (s.charge { core := g.cores.headD s.cur.core, tag := 0, cause := .checkMismatch, info := info } none) none false
    | none =>
      if !s.othersClosed g then .go { s := s.closeCore g sg.ix s.here.segno.toNat }
      else match s.stageBad g with
      | some c => .wait ((s.countDie (slotOfCore c)).charge { core := c, tag := 0, cause := .controlWord, info := 0 } none) none false
      | none =>
        match s.commitBlocked g with
        | [] => .go { s := (s.closeCore g sg.ix s.here.segno.toNat).commitGroup g }
        | vs => .wait (vs.foldl (fun s v => s.switchPage g.num v) s) (some 5) true := by
  obtain ⟨hloops, hbeads⟩ := hclean
  have hfresh : ¬((tagsOf s.ct).any fun t => (s.here.engine t).loops.any fun l => l.fresh) = true := by
    simpa only [List.any_eq_true, not_exists, not_and, Bool.not_eq_true] using hloops
  rw [planSegClose, hg, hseg]
  refine (if_neg hfresh).trans ((if_neg (ne_true_of_eq_false hbeads)).trans ((if_neg (by simp [hpend])).trans ((if_neg (by simp [hdone])).trans ?_)))
  rfl

end

/-! ### HALT (R125) -/

section
variable {s : State} {g : Group} (hg : s.groupOf s.cur.core = some g)
include hg

theorem planHalt_inSeg (hin : s.here.inSeg = true) : planHalt s = .fault s .segmentLegality := by
  rw [planHalt, hg]
  exact if_pos hin

theorem planHalt_halts (hout : s.here.inSeg = false) (hfixed : s.asyncFixed s.cur.core = false) (hopen : s.asyncOpen s.cur.core = false)
    (hleave : g.leave ≠ some .vanish) : planHalt s = .go { s := (s.joinIssue .halt true).modHere fun k => { k with halted := true } } := by
  rw [planHalt, hg]
  exact (if_neg (ne_true_of_eq_false hout)).trans ((if_neg (ne_true_of_eq_false hfixed)).trans ((if_neg (ne_true_of_eq_false hopen)).trans (if_neg hleave)))

end

/-! ### The statement -/

/-- Settles O31: each marker by its plan at a core that has joined. That every core records its SEG.OPEN and SEG.CLOSE, that each closes at its own tick with one
commit for the group, and that the openings of a group are counted once, are the model's choices (log 45, 60, 97). -/
theorem segmentMarkers : Obligations.SegmentMarkers := by
  refine ⟨fun d s g h hg => ⟨fun hin => ?_, fun desc hout hpend hfixed hopen hleave hlegal hdesc hfoot => ?_,
      fun l hout hpend hfixed hopen hleave hall => ?_⟩,
    fun s g h hg => ⟨fun hseg => ?_, fun sg hseg => ⟨fun hunclean => ?_, fun hclean hpend hdone => ⟨fun info hinfo => ?_, fun hcheck hothers => ?_,
      fun hcheck hothers hstage hblocked => ?_⟩⟩⟩,
    fun s g h hg => ⟨fun hin => ?_, fun hout hfixed hopen hleave => ?_⟩⟩
  · exact (join_eq h (planSegOpen d)).trans (by rw [planSegOpen_inSeg hg hin]; rfl)
  · exact (join_eq h (planSegOpen d)).trans (by rw [planSegOpen_opens hg hout hpend hfixed hopen hleave hlegal hdesc hfoot]; rfl)
  · exact (join_eq h (planSegOpen d)).trans (by rw [planSegOpen_givesWay hg hout hpend hfixed hopen hleave hall]; rfl)
  · exact (join_eq h planSegClose).trans (by rw [planSegClose_noSeg hg hseg]; rfl)
  · exact (join_eq h planSegClose).trans (by rw [planSegClose_unclean hg hseg hunclean]; rfl)
  · exact (join_eq h planSegClose).trans (by rw [planSegClose_checks hg hseg hclean hpend hdone, hinfo]; rfl)
  · exact (join_eq h planSegClose).trans (by rw [planSegClose_checks hg hseg hclean hpend hdone, hcheck, hothers]; rfl)
  · exact (join_eq h planSegClose).trans (by rw [planSegClose_checks hg hseg hclean hpend hdone, hcheck, hothers, hstage, hblocked]; rfl)
  · exact (join_eq h planHalt).trans (by rw [planHalt_inSeg hg hin]; rfl)
  · exact (join_eq h planHalt).trans (by rw [planHalt_halts hg hout hfixed hopen hleave]; rfl)

end Sys2Proof.Machine
end

section
/-! Memory stays canonical (O7), part 1: states under the shared operations, and what the checks of an access record. -/

namespace Sys2Proof.Machine

open Sys2Proof

/-! ### Answers whose states have their memory in canonical form -/

def Gate.MemWf : Gate → Prop
  | .pass s | .stop s => memWf s.mem = true

def Got.MemWf : Got → Prop
  | .ok g => memWf g.s.mem = true
  | .bad _ _ _ => True
  | .wait s _ => memWf s.mem = true

def Plan.MemWf : Plan → Prop
  | .bad s _ _ _ | .wait s _ _ | .hold s _ => memWf s.mem = true
  | .go g => memWf g.s.mem = true

/-- An outcome without a next state has no memory to speak of. -/
def Out.MemWf : Out → Prop
  | .next s => memWf s.mem = true
  | .fault _ | .refused _ => True

@[simp] theorem Got.memWf_ok (g : Granted) : (Got.ok g).MemWf ↔ memWf g.s.mem = true := Iff.rfl
@[simp] theorem Got.memWf_bad (c : Cause) (va : Nat) (page : Option Nat) : (Got.bad c va page).MemWf := trivial
@[simp] theorem Got.memWf_wait (s : State) (p : Option Nat) : (Got.wait s p).MemWf ↔ memWf s.mem = true := Iff.rfl
@[simp] theorem Plan.memWf_bad (s : State) (c : Cause) (info : W64) (page : Option Nat) : (Plan.bad s c info page).MemWf ↔ memWf s.mem = true := Iff.rfl
@[simp] theorem Plan.memWf_fault (s : State) (c : Cause) : (Plan.fault s c).MemWf ↔ memWf s.mem = true := Iff.rfl
@[simp] theorem Plan.memWf_wait (s : State) (p : Option Nat) (opn : Bool) : (Plan.wait s p opn).MemWf ↔ memWf s.mem = true := Iff.rfl
@[simp] theorem Plan.memWf_stall (s : State) : (Plan.stall s).MemWf ↔ memWf s.mem = true := Iff.rfl
@[simp] theorem Plan.memWf_hold (s : State) (n : Nat) : (Plan.hold s n).MemWf ↔ memWf s.mem = true := Iff.rfl
@[simp] theorem Plan.memWf_go (g : Go) : (Plan.go g).MemWf ↔ memWf g.s.mem = true := Iff.rfl
@[simp] theorem Plan.memWf_regs (s : State) (lat : Nat) (f : Core → Core) : (Plan.regs s lat f).MemWf ↔ memWf s.mem = true := Iff.rfl
@[simp] theorem Out.memWf_next (s : State) : Out.MemWf (.next s) ↔ memWf s.mem = true := Iff.rfl
@[simp] theorem Out.memWf_fault (f : Fault) : Out.MemWf (.fault f) := trivial

/-- A meaning keeps memory canonical. -/
def KeepsMem (plan : State → Plan) : Prop := ∀ s, memWf s.mem = true → (plan s).MemWf

/-! ### Branches, pairs and folds -/

@[simp] theorem Plan.memWf_ite (c : Prop) [Decidable c] (a b : Plan) : (if c then a else b).MemWf ↔ if c then a.MemWf else b.MemWf := by
  split <;> rfl

theorem Plan.memWf_of_ite {c : Prop} [Decidable c] {a b : Plan} (ha : a.MemWf) (hb : b.MemWf) : (if c then a else b).MemWf := by
  split
  · exact ha
  · exact hb

@[simp] theorem Out.memWf_ite (c : Prop) [Decidable c] (a b : Out) : Out.MemWf (if c then a else b) ↔ if c then Out.MemWf a else Out.MemWf b := by
  split <;> rfl

@[simp] theorem State.mem_ite (c : Prop) [Decidable c] (a b : State) : (if c then a else b).mem = if c then a.mem else b.mem := apply_ite ..

theorem memWf_of_fst {α : Type} {p : State × α} {t : State} {a : α} (h : memWf p.1.mem = true) (hp : p = (t, a)) : memWf t.mem = true := by
  subst hp
  exact h

@[simp] theorem foldl_mem {α : Type} {f : State → α → State} (hf : ∀ s a, (f s a).mem = s.mem) (l : List α) (s : State) : (l.foldl f s).mem = s.mem := by
  induction l generalizing s with
  | nil => rfl
  | cons a l ih => exact (ih _).trans (hf s a)

/-- A fold that builds a value along with the state. -/
theorem foldl_fst_mem {α β : Type} {f : State × β → α → State × β} (hf : ∀ r a, (f r a).1.mem = r.1.mem) (l : List α) (r : State × β) :
    (l.foldl f r).1.mem = r.1.mem := by
  induction l generalizing r with
  | nil => rfl
  | cons a l ih => exact (ih _).trans (hf r a)

@[simp] theorem foldl_modCore_mem {α : Type} (c : State → α → Nat) (f : State → α → Core → Core) (l : List α) (s : State) :
    (l.foldl (fun s a => s.modCore (c s a) (f s a)) s).mem = s.mem := by
  refine foldl_mem ?_ l s
  exact fun _ _ => rfl

theorem foldl_memWf {α : Type} {f : State → α → State} (hf : ∀ s a, memWf s.mem = true → memWf (f s a).mem = true) :
    ∀ (l : List α) {s : State}, memWf s.mem = true → memWf (l.foldl f s).mem = true
  | [], _, h => h
  | a :: l, s, h => foldl_memWf hf l (hf s a h)

/-! ### Shared operations -/

@[simp] theorem State.modEngine_mem (s : State) (c t : Nat) (f : Engine → Engine) : (s.modEngine c t f).mem = s.mem := rfl
@[simp] theorem State.modHere_mem (s : State) (f : Core → Core) : (s.modHere f).mem = s.mem := rfl
@[simp] theorem State.modHereE_mem (s : State) (f : Engine → Engine) : (s.modHereE f).mem = s.mem := rfl
@[simp] theorem State.modGroup_mem (s : State) (g : Nat) (f : Group → Group) : (s.modGroup g f).mem = s.mem := rfl
@[simp] theorem State.modJob_mem (s : State) (j : Nat) (f : Job → Job) : (s.modJob j f).mem = s.mem := rfl
@[simp] theorem State.addFlight_mem (s : State) (f : Flight) : (s.addFlight f).mem = s.mem := rfl
@[simp] theorem State.dropFlight_mem (s : State) (id : Nat) : (s.dropFlight id).mem = s.mem := rfl
@[simp] theorem State.elim_mem {α : Type} (o : Option α) (s : State) (f : α → State) : (o.elim s f).mem = o.elim s.mem fun a => (f a).mem := by
  cases o <;> rfl

@[simp] theorem State.setPcState_mem (s : State) (ch v : Nat) : (s.setPcState ch v).mem = s.mem := rfl
@[simp] theorem State.postCq_mem (s : State) (e : CqEnt) : (s.postCq e).mem = s.mem := rfl
@[simp] theorem State.postNq_mem (s : State) (e : NqEnt) : (s.postNq e).mem = s.mem := rfl
@[simp] theorem State.postStop_mem (s : State) (g : Group) (c frame : Nat) : (s.postStop g c frame).mem = s.mem := rfl
@[simp] theorem State.freeFrames_mem (s : State) (pa len : Nat) : (s.freeFrames pa len).mem = s.mem := rfl
@[simp] theorem State.stageLine_mem (s : State) (g line : Nat) : (s.stageLine g line).mem = s.mem := rfl
@[simp] theorem State.moveStage_mem (s : State) (g old size new : Nat) : (s.moveStage g old size new).mem = s.mem := rfl
@[simp] theorem State.stall_mem (s : State) (opn : Bool) : (s.stall opn).mem = s.mem := rfl
@[simp] theorem State.flag_mem (s : State) (lat : Nat) (f : Flags) : (s.flag lat f).mem = s.mem := rfl

@[simp] theorem State.writeFrec_mem (s : State) (ch : Charge) : (s.writeFrec ch).mem = s.mem := by simp [State.writeFrec]

@[simp] theorem State.takeBeads_mem (s : State) (i : Instr) : (s.takeBeads i).mem = s.mem := by simp [State.takeBeads]

@[simp] theorem State.claim_memWf {s : State} (h : memWf s.mem = true) (g src : Nat) (till : Option Nat) : memWf (s.claim g src till).mem = true := by
  unfold State.claim
  repeat' split
  all_goals simp [trace_memWf, h]

@[simp] theorem State.unclaimOne_memWf {s : State} (h : memWf s.mem = true) (g src : Nat) : memWf (s.unclaimOne g src).mem = true := by
  unfold State.unclaimOne
  repeat' split
  all_goals simp [trace_memWf, h]

@[simp] theorem State.unclaim_memWf {s : State} (h : memWf s.mem = true) (g src : Nat) : memWf (s.unclaim g src).mem = true := by
  unfold State.unclaim
  repeat' split
  all_goals simp [trace_memWf, h]

@[simp] theorem State.pause_memWf {s : State} (h : memWf s.mem = true) (src : Nat) : memWf (s.pause src).mem = true := by
  unfold State.pause
  split <;> simp [trace_memWf, h]

@[simp] theorem State.unpause_memWf {s : State} (h : memWf s.mem = true) : memWf s.unpause.mem = true := by
  unfold State.unpause
  split <;> simp [trace_memWf, h]

/-! ### Faults and completion signals -/

@[simp] theorem State.charge_memWf {s : State} (h : memWf s.mem = true) (ch : Charge) (page : Option Nat) : memWf (s.charge ch page).mem = true := by
  unfold State.charge
  dsimp only
  split <;> simp [trace_memWf, h]

@[simp] theorem State.raise_memWf {s : State} (h : memWf s.mem = true) (c : Cause) (info : W64) (page : Option Nat) : memWf (s.raise c info page).mem = true := by
  simp [State.raise, h]

@[simp] theorem State.wordFault_memWf {s : State} (h : memWf s.mem = true) (i : Instr) (c : Cause) (info : W64) (page : Option Nat) :
    memWf (s.wordFault i c info page).mem = true := by
  unfold State.wordFault
  split <;> simp [h]

/-- An arrival writes PENDING and PHASE. -/
@[simp] theorem State.arrive_memWf {s : State} (h : memWf s.mem = true) (pa : Nat) (n : Int) : memWf (s.arrive pa n).mem = true :=
  memWf_wrBytes (memWf_wrBytes h ..) ..

@[simp] theorem State.signal_memWf : ∀ (fins : List Fin) {s : State}, memWf s.mem = true → memWf (s.signal fins).mem = true
  | [], _, h => h
  | f :: r, s, h => by
    refine State.signal_memWf r ?_
    cases f with
    | barrier pa n => exact State.arrive_memWf h ..
    | _ => exact h

/-! ### Accesses -/

@[simp] theorem State.countDie_mem (s : State) (slot : Nat) : (s.countDie slot).mem = s.mem := by simp [State.countDie]

@[simp] theorem State.ownFrames_mem (s : State) (g : Nat) (a : BitVec 16) (r : Run) : (s.ownFrames g a r).mem = s.mem := by simp [State.ownFrames]

theorem State.raceLine_mem {s t : State} {g l : Nat} {k : RaceKind} {fl : Option Nat} (ht : s.raceLine g l k fl = some t) : t.mem = s.mem := by
  unfold State.raceLine at ht
  split at ht
  · cases ht
    rfl
  · obtain ⟨r, -, rfl⟩ := Option.map_eq_some_iff.1 ht
    rfl

theorem State.raceLines_mem {g : Nat} {k : RaceKind} {fl : Option Nat} : ∀ {ls : List Nat} {s t : State}, s.raceLines g k fl ls = some t → t.mem = s.mem
  | [], s, t, ht => by
    cases ht
    rfl
  | l :: r, s, t, ht => by
    unfold State.raceLines at ht
    split at ht
    · rename_i s1 h1
      exact (State.raceLines_mem ht).trans (State.raceLine_mem h1)
    · cases ht

@[simp] theorem State.raceRelease_mem (s : State) (g : Nat) (p : Reg → Bool) : (s.raceRelease g p).mem = s.mem := by
  unfold State.raceRelease
  split <;> simp

@[simp] theorem State.countPage_mem (s : State) (job va n : Nat) : (s.countPage job va n).mem = s.mem := by
  unfold State.countPage
  repeat' split
  all_goals simp

@[simp] theorem State.cacheFill_mem (s : State) (die job grp : Nat) (key : Bool × Nat) : (s.cacheFill die job grp key).mem = s.mem := rfl

@[simp] theorem State.cacheAll_mem (s : State) (die job grp : Nat) (keys : List (Bool × Nat)) : (s.cacheAll die job grp keys).mem = s.mem := by
  refine foldl_mem ?_ keys s
  exact fun _ _ => rfl

@[simp] theorem State.countHbm_mem (s : State) (ch : Nat) (ue : Bool) : (s.countHbm ch ue).mem = s.mem := by simp [State.countHbm]

@[simp] theorem State.consume_memWf {s : State} (h : memWf s.mem = true) (core tag pa n : Nat) (fixed : Bool) (pc : Option Nat) :
    memWf (s.consume core tag pa n fixed pc).1.mem = true := by
  unfold State.consume
  dsimp only
  split
  · exact h
  · refine State.charge_memWf ?_ ..
    repeat' split
    all_goals simp [h]
  · repeat' split
    all_goals simp [h]

@[simp] theorem State.landChange_mem (s : State) (j : Nat) (c : Change) : (s.landChange j c).mem = s.mem := by
  unfold State.landChange
  repeat' split
  all_goals simp
  cases s.leafAt j c.va <;> rfl

@[simp] theorem State.finishChanges_mem (s : State) : s.finishChanges.mem = s.mem := by simp [State.finishChanges]

@[simp] theorem State.switchIf_mem (s : State) (g : Nat) (p : Change → Bool) : (s.switchIf g p).mem = s.mem := by
  refine (State.finishChanges_mem _).trans (foldl_mem ?_ _ s)
  exact fun _ _ => rfl

@[simp] theorem State.edge_mem (s : State) (g : Nat) : (s.edge g).mem = s.mem := by simp [State.edge]

@[simp] theorem State.switchPage_mem (s : State) (g va : Nat) : (s.switchPage g va).mem = s.mem := by simp [State.switchPage]

@[simp] theorem State.loseRecord_memWf {s : State} (h : memWf s.mem = true) (e : Bool × Nat) : memWf (s.loseRecord e).mem = true := by
  simp [State.loseRecord, h]

@[simp] theorem State.useCache_memWf {s : State} (h : memWf s.mem = true) (c job grp : Nat) (fixed inseg : Bool) (keys : List (Bool × Nat)) :
    memWf (s.useCache c job grp fixed inseg keys).mem = true := by
  unfold State.useCache
  dsimp only
  split <;> simp [h]

end Sys2Proof.Machine
end

section
/-! Memory stays canonical (O7), part 2: accesses, the gate and the issue of an instruction. -/

namespace Sys2Proof.Machine

open Sys2Proof

/-! ### A whole access -/

theorem Got.memWf_ite {c : Prop} [Decidable c] {a b : Got} (ha : a.MemWf) (hb : b.MemWf) : (if c then a else b).MemWf := by
  split
  · exact ha
  · exact hb

/-- The checks of an access leave memory as it is or record an error; what is granted has its registrations, counts and frame owners. -/
@[simp] theorem State.access_memWf {s : State} (h : memWf s.mem = true) (va len : Nat) (u : Use) (fl : Option Nat) : (s.access va len u fl).MemWf := by
  unfold State.access
  dsimp only
  split
  · trivial
  · split
    · split
      · split
        · simp [h]
        · trivial
      · trivial
    · split
      · trivial
      · split
        · trivial
        · split
          · simp [h]
          · split
            · trivial
            · split
              · trivial
              · split
                · simp [h]
                · refine Got.memWf_ite trivial ?_
                  split
                  · trivial
                  · rename_i t ht
                    have hrace : memWf t.mem = true := by
                      rw [State.raceLines_mem ht]
                      exact State.useCache_memWf h ..
                    refine foldl_memWf (fun s p hs => ?_) _ (foldl_memWf (fun s p hs => by simp [hs]) _ ?_)
                    · repeat' split
                      all_goals simp [hs]
                    · simp only [State.mem_ite, ite_self]
                      refine foldl_memWf ?_ _ hrace
                      exact fun s l hs => hs

theorem Got.memWf_plan {x : Got} {s : State} {k : Granted → Plan} (hx : x.MemWf) (h : memWf s.mem = true) (hk : ∀ g, memWf g.s.mem = true → (k g).MemWf) :
    (x.plan s k).MemWf := by
  cases x with
  | ok g => exact hk g hx
  | bad c va page => exact h
  | wait t p => exact hx

/-- A plan that follows an access. -/
theorem State.access_plan_memWf {s : State} (h : memWf s.mem = true) (va len : Nat) (u : Use) (fl : Option Nat) {k : Granted → Plan}
    (hk : ∀ g, memWf g.s.mem = true → (k g).MemWf) : ((s.access va len u fl).plan s k).MemWf :=
  Got.memWf_plan (State.access_memWf h ..) h hk

/-! ### The gate -/

@[simp] theorem State.consumeRes_memWf {s : State} (h : memWf s.mem = true) (rs : List Res) : memWf (s.consumeRes rs).1.mem = true := by
  unfold State.consumeRes
  dsimp only
  repeat' split
  all_goals simp [h]

theorem Gate.memWf_stop (s : State) : (Gate.stop s).MemWf ↔ memWf s.mem = true := Iff.rfl

theorem Gate.memWf_ite {c : Prop} [Decidable c] {a b : Gate} (ha : a.MemWf) (hb : b.MemWf) : (if c then a else b).MemWf := by
  split
  · exact ha
  · exact hb

theorem gate_memWf {s : State} (h : memWf s.mem = true) (i : Instr) : (gate s i).MemWf := by
  have hfault : memWf (s.unpause.raise .segmentLegality 0 none).mem = true := by simp [h]
  have hbeads : memWf (s.takeBeads i).mem = true := by simp [h]
  unfold gate
  dsimp only
  refine Gate.memWf_ite h ?_
  split
  · exact State.wordFault_memWf h ..
  · refine Gate.memWf_ite hfault ?_
    iterate 3 refine Gate.memWf_ite h ?_
    refine Gate.memWf_ite hfault ?_
    refine Gate.memWf_ite h ?_
    generalize readCycles _ = r
    split
    · rw [Gate.memWf_stop, State.modHere_mem]
      exact hbeads
    · split <;> rename_i hread
      · exact memWf_of_fst (State.consumeRes_memWf h _) hread
      · exact State.raise_memWf (State.unpause_memWf (memWf_of_fst (State.consumeRes_memWf h _) hread)) ..

/-! ### Leaving a word -/

/-- A snapshot has no room for its record, or is not wanted, or writes its record. -/
theorem State.snapshot_eq (s : State) (c kind n word : Nat) : s.snapshot c kind n word = s ∨ s.snapshot c kind n word = s.clearBcm c ∨
    ∃ a bs o v, s.snapshot c kind n word = ((s.store a bs).setCreg o v).clearBcm c := by
  unfold State.snapshot
  dsimp only
  split
  · split
    · exact .inl rfl
    · exact .inr (.inr ⟨_, _, _, _, rfl⟩)
  · exact .inr (.inl rfl)

theorem State.clearBcm_mem (s : State) (c : Nat) : (s.clearBcm c).mem = s.mem := rfl

@[simp] theorem State.snapshot_memWf {s : State} (h : memWf s.mem = true) (c kind n word : Nat) : memWf (s.snapshot c kind n word).mem = true := by
  obtain heq | heq | ⟨a, bs, o, v, heq⟩ := s.snapshot_eq c kind n word <;> rw [heq]
  · exact h
  · exact h
  · rw [State.clearBcm_mem, State.setCreg_mem]
    exact store_memWf h a bs

@[simp] theorem State.loopEnd_memWf {s : State} (h : memWf s.mem = true) (c t : Nat) (l : LoopSt) (v : Nat) : memWf (s.loopEnd c t l v).mem = true := by
  unfold State.loopEnd
  split <;> simp [h]

@[simp] theorem State.leave_memWf {s : State} (h : memWf s.mem = true) (c t len : Nat) (jump : Option Nat) : memWf (s.leave c t len jump).mem = true := by
  unfold State.leave
  dsimp only
  repeat' split
  all_goals simp [h]

/-! ### An issue -/

/-- What every issue does beside the effects of the instruction leaves their memory canonical. -/
theorem finish_memWf {g : Go} (h : memWf g.s.mem = true) (s : State) (i : Instr) (u : Uses) (mask : Res → List Nat) : memWf (finish s i u g mask).mem = true := by
  simp [finish, h]

theorem settle_memWf {s : State} {plan : State → Plan} (h : memWf s.mem = true) (hplan : (plan s).MemWf) (i : Instr) : memWf (settle s i plan).mem = true := by
  unfold settle
  dsimp only
  split <;> rename_i heq <;> rw [heq] at hplan
  · have hraise := State.raise_memWf (State.unpause_memWf hplan)
    repeat' split
    · exact h
    · exact State.leave_memWf (hraise ..) ..
    · exact hraise ..
  · exact State.pause_memWf hplan _
  · rw [Plan.memWf_wait] at hplan
    simp [hplan]
  · rw [Plan.memWf_hold] at hplan
    simp [hplan]
  · repeat' split
    · exact h
    · exact h
    · exact finish_memWf hplan ..

@[simp] theorem Plan.disabled_memWf {s : State} (h : memWf s.mem = true) (p : Plan) : (p.disabled s).MemWf := by
  unfold Plan.disabled
  repeat' split
  all_goals simp [h]

theorem guarded_memWf {s : State} {plan : State → Plan} (h : memWf s.mem = true) (hplan : KeepsMem plan) (on : Bool) :
    (guarded plan s on).MemWf := by
  unfold guarded
  split
  · exact hplan s h
  · exact Plan.disabled_memWf h _

/-- An instruction whose meaning leaves memory canonical issues, stalls or faults with it canonical. -/
theorem issueIf_memWf {s : State} (h : memWf s.mem = true) {i : Instr} {plan : State → Bool → Plan} (hplan : ∀ on, KeepsMem fun s => plan s on) :
    Out.MemWf (issueIf s i plan) := by
  have hgate := gate_memWf h i
  unfold issueIf
  split
  · split <;> rename_i heq <;> rw [heq] at hgate
    · exact hgate
    · exact settle_memWf hgate (hplan _ _ hgate) i
  · trivial

theorem issue_memWf {s : State} (h : memWf s.mem = true) {i : Instr} {plan : State → Plan} (hplan : KeepsMem plan) :
    Out.MemWf (issue s i plan) :=
  issueIf_memWf h fun on _ hs => guarded_memWf hs hplan on

/-! ### Join words -/

@[simp] theorem State.joinWait_mem (s : State) (opn : Bool) : (s.joinWait opn).mem = s.mem := rfl

@[simp] theorem State.joinIssue_memWf {s : State} (h : memWf s.mem = true) (i : Instr) (cnt : Bool) : memWf (s.joinIssue i cnt).mem = true := by
  unfold State.joinIssue
  exact foldl_memWf (fun s t hs => State.leave_memWf (s := s.modEngine _ t _) hs ..) _ (State.unpause_memWf h)

theorem Out.memWf_of_ite {c : Prop} [Decidable c] {a b : Out} (ha : Out.MemWf a) (hb : Out.MemWf b) : Out.MemWf (if c then a else b) := by
  split
  · exact ha
  · exact hb

theorem join_memWf {s : State} (h : memWf s.mem = true) {i : Instr} {plan : State → Plan} (hplan : KeepsMem plan) :
    Out.MemWf (join s i plan) := by
  unfold join
  dsimp only
  split
  · split
    · exact h
    · split
      · exact State.wordFault_memWf h ..
      · refine Out.memWf_of_ite ?_ ?_
        · exact State.raise_memWf (State.unpause_memWf h) ..
        · generalize hx : (if s.hereE.arrived.isNone = true then s.modHereE fun e => { e with arrived := some s.now } else s) = x
          have hmem : memWf x.mem = true := by
            rw [← hx]
            simp [h]
          have hp := hplan x hmem
          split
          · exact hmem
          · split
            · exact hmem
            · split <;> rename_i heq <;> rw [heq] at hp
              · exact State.raise_memWf (State.unpause_memWf hp) ..
              · exact State.pause_memWf hp _
              · rw [Plan.memWf_wait] at hp
                simp [hp]
              · exact hp
              · exact hp
  · trivial

end Sys2Proof.Machine
end

section
/-! Memory stays canonical (O7), part 3: branches, join words and the control engine. -/

namespace Sys2Proof.Machine

open Sys2Proof

/-! ### Branches and loops -/

@[simp] theorem State.post_mem (s : State) (taken : Bool) (count : Nat) : (s.post taken count).mem = s.mem := rfl
@[simp] theorem State.takeOutcome_mem (s : State) : s.takeOutcome.mem = s.mem := rfl
@[simp] theorem State.linkTo_mem (s : State) (k l t pc : Nat) : (s.linkTo k l t pc).mem = s.mem := by simp [State.linkTo]

@[simp] theorem State.endLoops_memWf {s : State} (h : memWf s.mem = true) (n : Nat) : memWf (s.endLoops n).mem = true :=
  foldl_memWf (fun _ _ hs => State.loopEnd_memWf hs ..) _ (show memWf (s.modHereE _).mem = true from h)

theorem State.branchOutcome_mem {s t : State} {g : Guard} {en b : Bool} (ht : s.branchOutcome g en = some (t, b)) : t.mem = s.mem := by
  unfold State.branchOutcome at ht
  repeat' split at ht
  all_goals cases ht
  all_goals rfl

theorem planPbr_keepsMem (f : PbrF) (on : Bool) : KeepsMem fun s => planPbr f s on := fun s h => by simp [planPbr, h]

theorem planBranch_keepsMem (g : Guard) (k : Nat) (link : Option Nat) (on : Bool) : KeepsMem fun s => planBranch g k link s on := by
  intro s h
  unfold planBranch
  dsimp only
  split
  · exact h
  · split
    · exact h
    · split
      · exact h
      all_goals
        rename_i x hx
        have hmem := State.branchOutcome_mem hx
      · simpa [hmem] using h
      · split <;> simp [hmem, h]

theorem planLoop_keepsMem (f : LoopF) (on : Bool) : KeepsMem fun s => planLoop f s on := by
  intro s h
  unfold planLoop
  dsimp only
  iterate 3
    split
    · exact h
  generalize hgot : (if (!f.csrc) = true then _ else _) = got
  have hmem : ∀ x v, got = some (x, v) → x.mem = s.mem := by
    rintro x v rfl
    repeat' split at hgot
    all_goals cases hgot
    all_goals rfl
  split
  · exact h
  all_goals
    have hx := hmem _ _ rfl
    simp [hx, h]

theorem planLbrk_keepsMem (f : LbrkF) (on : Bool) : KeepsMem fun s => planLbrk f s on := by
  intro s h
  unfold planLbrk
  dsimp only
  split
  · exact h
  · split
    · exact h
    all_goals
      rename_i x hx
      have hmem := State.branchOutcome_mem hx
      simp [hmem, h]

/-! ### Join words of the ALL class -/

@[simp] theorem State.debugStop_memWf {s : State} (h : memWf s.mem = true) (g : Nat) (bstop : Bool) (code : Nat) :
    memWf (s.debugStop g bstop code).mem = true := by
  simp [State.debugStop, trace_memWf, State.claim_memWf, h]

theorem planGbar_keepsMem (id : BitVec 4) : KeepsMem (planGbar id) := by
  intro s h
  unfold planGbar
  dsimp only
  repeat' split
  all_goals simp [h]

theorem planCkdiv_keepsMem (d : BitVec 28) : KeepsMem (planCkdiv d) := fun s h => by simp [planCkdiv, h]

theorem planBrk_keepsMem (c : BitVec 8) : KeepsMem (planBrk c) := fun s h => by simp [planBrk, h]

/-! ### The control engine: registers -/

theorem planCe2_keepsMem (f : S3) (lat : Nat) (ctl : Bool) (v : Int → Int → Nat → Int × Flags) : KeepsMem (planCe2 f lat ctl v) :=
  fun s h => by simp [planCe2, h]

theorem planCe1_keepsMem (f : S2r) (v : Nat → Nat → Int) : KeepsMem (planCe1 f v) := fun s h => by simp [planCe1, h]

theorem planWr_keepsMem (dst : Slot) (lat : Nat) (v : State → Nat) : KeepsMem (planWr dst lat v) := fun s h => by simp [planWr, h]

theorem planIns_keepsMem (f : S3) : KeepsMem (planIns f) := fun s h => by simp [planIns, h]

theorem planMoviHi_keepsMem (f : MoviF) : KeepsMem (planMoviHi f) := fun s h => by simp [planMoviHi, h]

theorem planSel_keepsMem (f : S3c) : KeepsMem (planSel f) := fun s h => by simp [planSel, h]

theorem planCmp_keepsMem (f : S3cmp) : KeepsMem (planCmp f) := fun s h => by simp [planCmp, h]

theorem planPmov_keepsMem (f : PmovF) : KeepsMem (planPmov f) := fun s h => by simp [planPmov, h]

theorem planSetw_keepsMem (f : SetwF) : KeepsMem (planSetw f) := by
  intro s h
  unfold planSetw
  split
  · exact h
  · split <;> simp [h]

theorem planGetw_keepsMem (f : GetwF) : KeepsMem (planGetw f) := by
  intro s h
  unfold planGetw
  split
  · exact h
  · exact planWr_keepsMem _ _ _ s h

/-! ### Operations in progress -/

@[simp] theorem State.launch_mem (s : State) (fixedAt : Option Nat) (async : Bool) (runs : List Run) (w : Work) :
    (s.launch fixedAt async runs w).1.mem = s.mem := by
  simp [State.launch]

@[simp] theorem State.bindRegs_mem (s : State) (id : Nat) : (s.bindRegs id).mem = s.mem := by simp [State.bindRegs]

@[simp] theorem State.lateMark_mem (s : State) (late : Option Bool) (C : Nat) : (s.lateMark late C).mem = s.mem := by
  unfold State.lateMark
  split <;> simp

@[simp] theorem Granted.launch_mem (g : Granted) (tick C : Nat) (async : Bool) (w : Work) : (g.launch tick C async w).1.mem = g.s.mem := by
  simp [Granted.launch]

@[simp] theorem Granted.launchAll_mem (g : Granted) (C : Nat) (ws : List (Nat × Work)) : (g.launchAll C ws).1.mem = g.s.mem := by
  simp only [Granted.launchAll, State.lateMark_mem, State.elim_mem, State.bindRegs_mem]
  cases (List.getLast? _)
  all_goals
    refine foldl_fst_mem ?_ ws (g.s, [])
    exact fun r w => State.launch_mem r.1 (some w.1) false [] w.2

/-! ### The control engine: memory -/

theorem planLd_keepsMem (f : S3) : KeepsMem (planLd f) := by
  intro s h
  unfold planLd
  dsimp only
  split
  · exact h
  · exact State.access_plan_memWf h _ _ _ _ fun g hg => by simp [h, hg]

/-- A write of the control engine puts its nibbles into progress or into the egress stage. -/
theorem writePlan_memWf {s : State} {g : Granted} (h : memWf s.mem = true) (hg : memWf g.s.mem = true) (n : Nat) (val : Nat → Slice) (chunk : Bool)
    (extra : Nat) (hold : Core → Core) : (writePlan s g n val chunk extra hold).MemWf := by
  simp [writePlan, h, hg]

theorem planSt_keepsMem (f : S3) : KeepsMem (planSt f) := by
  intro s h
  unfold planSt
  dsimp only
  split
  · exact h
  · refine State.access_plan_memWf h _ _ _ _ fun g hg => ?_
    generalize hp : writePlan .. = p
    have hwrite : p.MemWf := hp ▸ writePlan_memWf h hg ..
    cases p with
    | go x => simpa using hwrite
    | bad | wait | hold => exact hwrite

theorem planSpill_keepsMem (f : SpillF) : KeepsMem (planSpill f) := by
  intro s h
  unfold planSpill
  dsimp only
  split
  · exact h
  · exact State.access_plan_memWf h _ _ _ _ fun g hg => writePlan_memWf h hg ..

theorem planFill_keepsMem (f : SpillF) : KeepsMem (planFill f) := by
  intro s h
  unfold planFill
  dsimp only
  split
  · exact h
  · refine State.access_plan_memWf h _ _ _ _ fun g hg => ?_
    split
    · exact h
    · split <;> simp [hg]

theorem atomNow_memWf {s : State} (h : memWf s.mem = true) (a x : Src) (aop : Nat) (fs sz : Bool) (dst : Option Slot) (exp : Nat) (pd : Option Nat) :
    (atomNow s a x aop fs sz dst exp pd).MemWf := by
  unfold atomNow
  dsimp only
  split
  · exact h
  · exact State.access_plan_memWf h _ _ _ _ fun g hg => by simp [h, hg]

theorem planAtom_keepsMem (f : AtomF) : KeepsMem (planAtom f) := fun s h => by simp [planAtom, atomNow_memWf, h]

theorem planAtomn_keepsMem (f : AtomnF) : KeepsMem (planAtomn f) := by
  intro s h
  unfold planAtomn
  dsimp only
  split
  · exact h
  · split
    · exact atomNow_memWf h ..
    · split
      · exact h
      · exact State.access_plan_memWf h _ _ _ _ fun g hg => by simp [h, hg]

theorem planCas_keepsMem (f : CasF) : KeepsMem (planCas f) := fun s h => by simp [planCas, atomNow_memWf, h]

theorem planFence_keepsMem (f : FenceF) : KeepsMem (planFence f) := fun s h => by simp [planFence, h]

theorem planQfence_keepsMem (f : QfenceF) : KeepsMem (planQfence f) := fun s h => by
  unfold planQfence
  repeat' split
  all_goals exact h

/-! ### The control engine: barrier objects -/

theorem State.barrierAt_memWf {s : State} (h : memWf s.mem = true) (va : Nat) (u : Use) (stamp : Bool) {k : Granted → Nat → Plan}
    (hk : ∀ g pa, memWf g.s.mem = true → (k g pa).MemWf) : (s.barrierAt va u stamp k).MemWf := by
  unfold State.barrierAt
  refine State.access_plan_memWf h _ _ _ _ fun g hg => ?_
  dsimp only
  split
  · exact h
  · split
    · exact h
    · exact hk g _ hg

theorem barGo_memWf {g : Granted} (hg : memWf g.s.mem = true) (s : State) (w : Work) (hold : Core → Core) : (barGo s g w hold).MemWf := by
  simp [barGo, hg]

theorem planBari_keepsMem (f : BarF) : KeepsMem (planBari f) := by
  intro s h
  unfold planBari
  dsimp only
  split
  · exact h
  · split
    · exact h
    · exact State.barrierAt_memWf h _ _ _ fun g pa hg => barGo_memWf hg ..

theorem planBarx_keepsMem (f : BarF) : KeepsMem (planBarx f) := by
  intro s h
  unfold planBarx
  dsimp only
  split
  · exact h
  · exact State.barrierAt_memWf h _ _ _ fun g pa hg => barGo_memWf hg ..

theorem planBwait_keepsMem (f : BwaitF) : KeepsMem (planBwait f) := by
  intro s h
  unfold planBwait
  dsimp only
  cases f.psrc
  all_goals
    refine Plan.memWf_of_ite h (State.barrierAt_memWf h _ _ _ fun g pa hg => ?_)
    exact Plan.memWf_of_ite h (Plan.memWf_of_ite h hg)

/-! ### The control engine: tags, traps and system registers -/

theorem planTwait_keepsMem (f : TwaitF) : KeepsMem (planTwait f) := fun s h => by simp [planTwait, h]

theorem planTffr_keepsMem (f : TffrF) : KeepsMem (planTffr f) := fun s h => by simp [planTffr, h]

theorem planTclr_keepsMem (f : TclrF) : KeepsMem (planTclr f) := fun s h => by simp [planTclr, h]

theorem planTrapf_keepsMem : KeepsMem planTrapf := fun s h => by simp [planTrapf, h]

theorem planTrap_keepsMem (f : TrapF) : KeepsMem (planTrap f) := fun s h => by simp [planTrap, h]

theorem planMfsr_keepsMem (f : MfsrF) : KeepsMem (planMfsr f) := by
  intro s h
  unfold planMfsr
  split
  · exact h
  · exact planWr_keepsMem _ _ _ s h

theorem planMtsr_keepsMem (f : MtsrF) : KeepsMem (planMtsr f) := fun s h => by simp [planMtsr, h]

theorem planRand_keepsMem (f : RandF) : KeepsMem (planRand f) := fun s h => by simp [planRand, h]

theorem planPace_keepsMem (f : PaceF) : KeepsMem (planPace f) := by
  intro s h
  unfold planPace
  dsimp only
  repeat' split
  all_goals simp [h]

theorem planCbset_keepsMem (f : CbsetF) : KeepsMem (planCbset f) := by
  intro s h
  unfold planCbset
  split <;> simp [h]

theorem planCbadv_keepsMem (f : CbadvF) : KeepsMem (planCbadv f) := by
  intro s h
  unfold planCbadv
  dsimp only
  repeat' split
  all_goals simp [h]

end Sys2Proof.Machine
end

section
/-! Memory stays canonical (O7), part 4: the vector, normalise and quantise engines. -/

namespace Sys2Proof.Machine

open Sys2Proof

/-- A lane engine's instruction writes registers alone. -/
theorem planLanesIn_memWf {s : State} (h : memWf s.mem = true) (g : Guard) (wr : Nat → Bool) (dst : Slot) (lat : Nat) (ok : Bool)
    (hold : Core → List Nat → Core) (v : Nat → Nat × Flags) : (planLanesIn g wr dst lat ok hold v s).MemWf := by
  unfold planLanesIn
  dsimp only
  split <;> simp [h]

theorem planLanes_memWf {s : State} (h : memWf s.mem = true) (g : Guard) (dst : Slot) (lat : Nat) (ok : Bool)
    (hold : Core → List Nat → Core) (v : Nat → Nat × Flags) : (planLanes g dst lat ok hold v s).MemWf :=
  planLanesIn_memWf h ..

theorem planVe2_keepsMem (f : S3) (lat : Nat) (iop : ℤ → ℤ → ℤ) (fop : Fmt → Nat → Nat → Nat → Nat → State → Nat × Flags) : KeepsMem (planVe2 f lat iop fop) := fun _ h => planLanes_memWf h ..

theorem planVeBits_keepsMem (f : S3) (op : Nat → Nat → Nat) : KeepsMem (planVeBits f op) := fun _ h => planLanes_memWf h ..

theorem planVeShift_keepsMem (f : S3) (op : ℤ → Nat → ℤ) : KeepsMem (planVeShift f op) := fun _ h => planLanes_memWf h ..

theorem planVfma_keepsMem (f : S3c) (sub : Bool) : KeepsMem (planVfma f sub) := fun _ h => planLanes_memWf h ..

theorem planVsel_keepsMem (f : S3c) : KeepsMem (planVsel f) := fun _ h => planLanes_memWf h ..

theorem planVe1_keepsMem (g : Guard) (dst : Slot) (a : Src) (es lat : Nat) (code : BitVec 3) (fs : Bool) (v : Nat → Nat → Nat × Flags) : KeepsMem (planVe1 g dst a es lat code fs v) := fun _ h => planLanes_memWf h ..

theorem planVabs_keepsMem (f : S3a) (neg : Bool) : KeepsMem (planVabs f neg) := fun _ h => planVe1_keepsMem _ _ _ _ _ _ _ _ _ h

theorem planViota_keepsMem (f : S2r) : KeepsMem (planViota f) := fun _ h => planLanes_memWf h ..

theorem planVcmp_keepsMem (f : S3cmp) : KeepsMem (planVcmp f) := by
  intro s h
  unfold planVcmp
  dsimp only
  split <;> simp [h]

theorem planVcvt_keepsMem (f : VcvtF) : KeepsMem (planVcvt f) := fun _ h => planLanes_memWf h ..

theorem planVpack_keepsMem (f : S3) : KeepsMem (planVpack f) := fun _ h => planLanes_memWf h ..

theorem planVunpk_keepsMem (f : S3a) : KeepsMem (planVunpk f) := fun _ h => planLanes_memWf h ..

theorem planVmove_keepsMem (f : S3) (lat : Nat) (v : (Nat → Nat) → Nat → Nat → Nat) : KeepsMem (planVmove f lat v) := fun _ h => planLanes_memWf h ..

theorem planVshuf_keepsMem (f : S3) : KeepsMem (planVshuf f) := fun _ h => planLanes_memWf h ..

theorem planVred_keepsMem (f : S3) : KeepsMem (planVred f) := by
  intro s h
  unfold planVred
  dsimp only
  split
  · exact planLanes_memWf h ..
  · exact planLanesIn_memWf h ..

theorem planVscan_keepsMem (f : S3) : KeepsMem (planVscan f) := by
  intro s h
  unfold planVscan
  dsimp only
  split
  · exact planLanes_memWf h ..
  · generalize hp : planLanes .. = p
    have hlanes : p.MemWf := hp ▸ planLanes_memWf h ..
    cases p with
    | go g => exact hlanes
    | bad | wait | hold => exact hlanes

theorem planVdot_keepsMem (f : S3c) : KeepsMem (planVdot f) := fun _ h => planLanes_memWf h ..

@[simp] theorem State.askBanks_mem (s : State) (nb : Nat) (spans : List (Nat × Nat)) : (s.askBanks nb spans).1.mem = s.mem := by
  unfold State.askBanks
  dsimp only
  split <;> simp

theorem State.afterBanks_memWf {s : State} (h : memWf s.mem = true) (nb : Nat) (spans : List (Nat × Nat)) {go : State → Plan} (hgo : KeepsMem go) :
    (s.afterBanks nb spans go).MemWf := by
  have hask : memWf (s.askBanks nb spans).1.mem = true := by simp [h]
  unfold State.afterBanks
  dsimp only
  split
  · exact hgo _ hask
  · exact hask

@[simp] theorem State.advanceAt_mem (s : State) (C i : Nat) (f : Fin) : (s.advanceAt C i f).mem = s.mem := rfl

@[simp] theorem vloadGo_mem (s : State) (addrs : List (Nat × Nat)) (start w : Nat) : (vloadGo s addrs start w).1.mem = s.mem := rfl

@[simp] theorem vstoreGo_mem (s : State) (addrs : List (Nat × Nat)) (w : Nat) (v : Nat → Nat) : (vstoreGo s addrs w v).mem = s.mem := rfl

theorem planVmem_keepsMem (f : S3) (store : Bool) (A : Core → Nat → Nat → ℤ) (hold : Core → Nat → List Nat → Core) : KeepsMem (planVmem f store A hold) := by
  intro s h
  unfold planVmem
  dsimp only
  iterate 2 refine Plan.memWf_of_ite h ?_
  split
  · refine Plan.memWf_of_ite h (State.afterBanks_memWf h _ _ fun s h => ?_)
    simp [h]
  · refine State.afterBanks_memWf h _ _ fun s h => ?_
    simp [h]

theorem planVcb_keepsMem (f : VcbF) (store : Bool) : KeepsMem (planVcb f store) := by
  intro s h
  unfold planVcb
  dsimp only
  iterate 4 refine Plan.memWf_of_ite h ?_
  refine Plan.memWf_of_ite (by simp [h]) ?_
  iterate 2 refine Plan.memWf_of_ite h ?_
  split
  all_goals
    refine State.afterBanks_memWf h _ _ fun s h => ?_
    simp [h]

theorem planNe_keepsMem (fn : ElemFn) (opc lat : Nat) (f : S3a) : KeepsMem (planNe fn opc lat f) := fun _ h => planVe1_keepsMem _ _ _ _ _ _ _ _ _ h

theorem planNmom_keepsMem (f : S3a) : KeepsMem (planNmom f) := by
  intro s h
  unfold planNmom
  split
  · exact planLanes_memWf h ..
  · exact planLanes_memWf h ..

theorem planNnorm_keepsMem (f : S3) : KeepsMem (planNnorm f) := fun _ h => planLanes_memWf h ..

theorem planNsoft_keepsMem (f : S3a) : KeepsMem (planNsoft f) := fun _ h => planLanes_memWf h ..

theorem planQamax_keepsMem (f : S3a) : KeepsMem (planQamax f) := fun _ h => planLanes_memWf h ..

theorem planQscale_keepsMem (f : QscaleF) : KeepsMem (planQscale f) := fun _ h => planLanes_memWf h ..

theorem planQblk_keepsMem (f : QblkF) : KeepsMem (planQblk f) := by
  intro s h
  unfold planQblk
  dsimp only
  refine Plan.memWf_of_ite h ?_
  split
  · exact h
  · refine Plan.memWf_of_ite (by simp [h]) (State.afterBanks_memWf h _ _ fun s h => ?_)
    simp [h]

theorem planQdeq_keepsMem (f : QdeqF) : KeepsMem (planQdeq f) := by
  intro s h
  unfold planQdeq
  dsimp only
  iterate 3 refine Plan.memWf_of_ite h ?_
  refine Plan.memWf_of_ite (by simp [h]) ?_
  iterate 2 refine Plan.memWf_of_ite h ?_
  refine State.afterBanks_memWf h _ _ fun s h => ?_
  simp [h]

theorem planQsign_keepsMem (f : S3) : KeepsMem (planQsign f) := fun _ h => planLanes_memWf h ..

end Sys2Proof.Machine
end

section
/-! Memory stays canonical (O7), part 5: the matrix engines. -/

namespace Sys2Proof.Machine

open Sys2Proof

@[simp] theorem State.endNest_mem (s : State) (c : Nat) (r : NestRun) (stopped : Bool) : (s.endNest c r stopped).mem = s.mem := rfl

@[simp] theorem loadGo_memWf {s : State} (h : memWf s.mem = true) (attr : BitVec 5) (pa : Nat) (scl : Bool) (fins : List Fin) (hold : Core → Core) : (loadGo s attr pa scl fins hold).MemWf := by simp [loadGo, h]

theorem planLds_keepsMem (f : LdsF) : KeepsMem (planLds f) := by
  intro s h
  unfold planLds
  dsimp only
  repeat' split
  all_goals simp [h]

theorem planLdsc_keepsMem (f : LdscF) (scl : Bool) : KeepsMem (planLdsc f scl) := by
  intro s h
  unfold planLdsc
  dsimp only
  repeat' split
  all_goals simp [h]

theorem planLflip_keepsMem : KeepsMem planLflip := by
  intro s h
  unfold planLflip
  repeat' split
  all_goals simp [h]

@[simp] theorem execPlaneLoadComplete_memWf {s : State} (h : memWf s.mem = true) (id : Nat) : Out.MemWf (execPlaneLoadComplete id s) := by
  unfold execPlaneLoadComplete
  repeat' split
  all_goals simp [h]

theorem planMsign_keepsMem (f : MsignF) : KeepsMem (planMsign f) := by
  intro s h
  unfold planMsign
  dsimp only
  split <;> simp [h]

theorem planMstop_keepsMem : KeepsMem planMstop := by
  intro s h
  unfold planMstop
  dsimp only
  repeat' split
  all_goals simp [h]

theorem planMma_keepsMem (f : MmaF) : KeepsMem (planMma f) := by
  intro s h
  unfold planMma
  dsimp only
  repeat' split
  all_goals simp [h]

@[simp] theorem State.consumeBuf_memWf {s : State} (h : memWf s.mem = true) (c tag space pc : Nat) (spans : List (Nat × Nat)) :
    memWf (s.consumeBuf c tag space pc spans).1.mem = true := by
  induction spans generalizing s with
  | nil => exact h
  | cons p r ih =>
    unfold State.consumeBuf
    split
    · exact ih h
    · split <;> rename_i heq
      · exact ih (memWf_of_fst (State.consume_memWf h ..) heq)
      · exact memWf_of_fst (State.consume_memWf h ..) heq

@[simp] theorem State.notePorts_mem (s : State) (c tag T nb : Nat) (spans : List (Nat × Nat)) : (s.notePorts c tag T nb spans).mem = s.mem := rfl

@[simp] theorem State.consumePlane_memWf {s : State} (h : memWf s.mem = true) (c pc : Nat) : memWf (s.consumePlane c pc).1.mem = true := by
  unfold State.consumePlane
  dsimp only
  split <;> simp [h]

@[simp] theorem execNestPassEntry_memWf {s : State} (h : memWf s.mem = true) (core : Nat) : Out.MemWf (execNestPassEntry core s) := by
  unfold execNestPassEntry
  split
  · exact h
  · split
    · exact h
    · dsimp only
      split
      · split <;> simp [h]
      · split
        · split <;> simp [h]
        · generalize hx : (if nFlipAt _ _ = true then _ else _) = x
          have hmem : memWf x.mem = true := by
            rw [← hx]
            simp [h]
          split
          · split <;> rename_i heq
            all_goals
              have hread := memWf_of_fst (State.consumeBuf_memWf hmem ..) heq
              simp [hread]
          · have hbuf := fun spans => State.consumeBuf_memWf (s := x.notePorts core 2 (s.reckOf core) 24 spans) hmem core 2 1
            have hplane := fun {t : State} (ht : memWf t.mem = true) => State.consumePlane_memWf ht core
            split <;> rename_i heq <;> split at heq
            · rename_i hread
              have hcons := memWf_of_fst (hplane (memWf_of_fst (hbuf ..) hread) _) heq
              exact hcons
            · have hcons := memWf_of_fst (hbuf ..) heq
              exact hcons
            · rename_i hread
              have hcons := memWf_of_fst (hplane (memWf_of_fst (hbuf ..) hread) _) heq
              exact hcons
            · have hcons := memWf_of_fst (hbuf ..) heq
              exact hcons

@[simp] theorem execNestPassCommit_memWf {s : State} (h : memWf s.mem = true) (id : Nat) : Out.MemWf (execNestPassCommit id s) := by
  unfold execNestPassCommit
  split
  · exact h
  · split
    · dsimp only
      split <;> rename_i heq
      all_goals have hread := memWf_of_fst (State.consumeBuf_memWf (s := s.dropFlight id) h ..) heq
      · exact hread
      · split <;> simp [store_memWf, hread]
    · exact h

theorem planAccClr_keepsMem (f : AccClrF) : KeepsMem (planAccClr f) := by
  intro s h
  unfold planAccClr
  dsimp only
  repeat' split
  all_goals simp [h]

@[simp] theorem execAccClrComplete_memWf {s : State} (h : memWf s.mem = true) (id : Nat) : Out.MemWf (execAccClrComplete id s) := by
  unfold execAccClrComplete
  split
  · exact h
  · split
    · exact store_memWf (s := s.dropFlight id) h ..
    · exact h

theorem planAccCarry_keepsMem : KeepsMem planAccCarry := by
  intro s h
  unfold planAccCarry
  repeat' split
  all_goals simp [h]

@[simp] theorem execAccCarryComplete_memWf {s : State} (h : memWf s.mem = true) (id : Nat) : Out.MemWf (execAccCarryComplete id s) := by
  unfold execAccCarryComplete
  split
  · exact h
  · split
    · dsimp only
      split <;> rename_i heq
      all_goals have hread := memWf_of_fst (State.consumeBuf_memWf (s := s.dropFlight id) h ..) heq
      · exact hread
      · simp [store_memWf, hread]
    · exact h

theorem planAccSwap_keepsMem : KeepsMem planAccSwap := by
  intro s h
  unfold planAccSwap
  split <;> simp [h]

theorem planMwait_keepsMem (f : F1) : KeepsMem (planMwait f) := by
  intro s h
  unfold planMwait
  split <;> simp [h]

@[simp] theorem State.issueRead_memWf {s : State} (h : memWf s.mem = true) (space off n : Nat) : memWf (s.issueRead space off n).1.mem = true := by
  unfold State.issueRead
  dsimp only
  split <;> simp [h]

theorem planAccRd_keepsMem (f : AccF) : KeepsMem (planAccRd f) := by
  intro s h
  unfold planAccRd
  dsimp only
  iterate 2 refine Plan.memWf_of_ite h ?_
  split <;> rename_i heq
  all_goals
    have hread := memWf_of_fst (State.issueRead_memWf h ..) heq
    exact hread

theorem planAccWr_keepsMem (f : AccF) : KeepsMem (planAccWr f) := by
  intro s h
  unfold planAccWr
  dsimp only
  repeat' split
  all_goals simp [h]

theorem planDscale_keepsMem (f : DscaleF) : KeepsMem (planDscale f) := by
  intro s h
  unfold planDscale
  dsimp only
  split <;> simp [h]

theorem planDrain_keepsMem (f : DrainF) : KeepsMem (planDrain f) := by
  intro s h
  unfold planDrain
  dsimp only
  refine Plan.memWf_of_ite h ?_
  split
  · exact h
  · refine Plan.memWf_of_ite (by simp [h]) ?_
    rw [Plan.memWf_go, State.modHere_mem]
    rw [foldl_fst_mem]
    · exact h
    · exact fun _ _ => State.launch_mem ..

@[simp] theorem State.readRow_memWf {s : State} (h : memWf s.mem = true) (f : Flight) (t0 hh n pa : Nat) (attr : BitVec 5) (size : Nat)
    (mul tsc : BitVec 32) (fs sat : Bool) (rm : Nat) (seed ctr : W64) (lag : Nat) (fins : List Fin) :
    memWf (s.readRow f t0 hh n pa attr size mul tsc fs sat rm seed ctr lag fins).mem = true := by
  unfold State.readRow
  dsimp only
  split <;> rename_i heq
  all_goals
    have hread := memWf_of_fst (State.consumeBuf_memWf h ..) heq
    exact hread

@[simp] theorem execDrainRowCommit_memWf {s : State} (h : memWf s.mem = true) (id : Nat) : Out.MemWf (execDrainRowCommit id s) := by
  unfold execDrainRowCommit
  dsimp only
  repeat' split
  all_goals simp [storeCells_memWf, h]

theorem planDamax_keepsMem (f : DamaxF) : KeepsMem (planDamax f) := by
  intro s h
  unfold planDamax
  dsimp only
  repeat' split
  all_goals simp [h]

end Sys2Proof.Machine
end

section
/-! Memory stays canonical (O7), part 6: the movement engines. -/

namespace Sys2Proof.Machine

open Sys2Proof

/-! ### What the movement engines share -/

@[simp] theorem State.accessMany_memWf : ∀ (ps : List (Nat × Nat × Use)) {s : State}, memWf s.mem = true → (s.accessMany ps).MemWf
  | [], _, h => h
  | (va, n, u) :: r, s, h => by
    have ha := State.access_memWf h va n u none
    unfold State.accessMany
    split
    · rename_i g hg
      rw [hg] at ha
      have hr := State.accessMany_memWf r ha
      split
      · rename_i g' hg'
        rw [hg'] at hr
        exact hr
      · exact hr
    · exact ha

theorem State.accessPaired_memWf {s : State} (h : memWf s.mem = true) (spans : List (Nat × Nat × Use)) (pair : List (List Run × List (BitVec 16)) → Bool)
    {k : Granted → Plan} (hk : ∀ g, memWf g.s.mem = true → (k g).MemWf) : (s.accessPaired spans pair k).MemWf := by
  unfold State.accessPaired
  split
  · exact State.access_plan_memWf h _ _ _ _ fun g _ => h
  · exact Plan.memWf_of_ite h (Got.memWf_plan (State.accessMany_memWf spans h) h hk)

theorem State.whenReady_memWf {s : State} (h : memWf s.mem = true) {k : State → Plan} (hk : KeepsMem k) :
    ∀ bs : List (Nat × Nat × Bool), (s.whenReady bs k).MemWf
  | [] => hk s h
  | (c, i, wr) :: r => by
    unfold State.whenReady
    exact Plan.memWf_of_ite (State.whenReady_memWf h hk r) h

theorem orFault_memWf {s : State} (h : memWf s.mem = true) (c : Option Cause) {k : State → Plan} (hk : KeepsMem k) : (orFault c s k).MemWf := by
  cases c with
  | some c => exact h
  | none => exact hk s h

@[simp] theorem State.reserve_mem (s : State) (c i id : Nat) (adv : Bool) (attr : BitVec 5) : (s.reserve c i id adv attr).mem = s.mem := rfl

@[simp] theorem State.entryRead_memWf {s : State} (h : memWf s.mem = true) (b : Cb) : memWf (s.entryRead b).1.mem = true := by simp [State.entryRead, h]

theorem State.readEntries_memWf {k : State → Plan} (hk : KeepsMem k) : ∀ (bs : List Cb) {s : State}, memWf s.mem = true → (s.readEntries bs k).MemWf
  | [], s, h => hk s h
  | b :: r, s, h => by
    unfold State.readEntries
    split <;> rename_i heq
    all_goals have hread := memWf_of_fst (State.entryRead_memWf h b) heq
    · exact hread
    · exact State.readEntries_memWf hk r hread

@[simp] theorem State.takeTag_mem (s : State) (tag : Option Nat) : (s.takeTag tag).mem = s.mem := by
  unfold State.takeTag
  split <;> simp

@[simp] theorem State.takeHolds_memWf {s : State} (h : memWf s.mem = true) (c t : Nat) : memWf (s.takeHolds c t).mem = true := by
  unfold State.takeHolds
  dsimp only
  repeat' split
  all_goals simp [h]

@[simp] theorem Move.start_mem (m : Move) : m.start.s.mem = m.s.mem := by
  unfold Move.start
  dsimp only
  repeat' split
  all_goals simp

@[simp] theorem Plan.memWf_placed (s : State) (last : Nat) (op : Option Nat) : (Plan.placed s last op).MemWf ↔ memWf s.mem = true := Iff.rfl

/-! ### The index, gather and atomic engines -/

theorem indexGo_memWf {s : State} (h : memWf s.mem = true) (dcb : Nat) (adv : Bool) (attr : BitVec 5) (ys : List Nat) (scb : Option (Nat × Bool))
    (hold : Core → Core) : (indexGo s dcb adv attr ys scb hold).MemWf := by
  unfold indexGo
  dsimp only
  split <;> simp [h]

theorem planIgen_keepsMem (f : IgenF) : KeepsMem (planIgen f) := by
  intro s h
  unfold planIgen
  dsimp only
  refine Plan.memWf_of_ite h (orFault_memWf h _ fun s h => State.whenReady_memWf h (fun s h => ?_) _)
  iterate 2 refine Plan.memWf_of_ite h ?_
  exact indexGo_memWf h ..

theorem planIdx_keepsMem (dcb scb : BitVec 4) (advs advd : Bool) (a b : Src) (op : Nat → Nat → Nat → List Nat → List Nat) :
    KeepsMem (planIdx dcb scb advs advd a b op) := by
  intro s h
  unfold planIdx
  dsimp only
  refine Plan.memWf_of_ite h (orFault_memWf h _ fun s h => State.whenReady_memWf h (fun s h => ?_) _)
  iterate 3 refine Plan.memWf_of_ite h ?_
  exact State.readEntries_memWf (fun s h => indexGo_memWf h ..) _ h

theorem planGath_keepsMem (f : GathF) : KeepsMem (planGath f) := by
  intro s h
  unfold planGath
  dsimp only
  refine Plan.memWf_of_ite h (orFault_memWf h _ fun s h => State.whenReady_memWf h (fun s h => orFault_memWf h _ fun s h => ?_) _)
  refine State.readEntries_memWf (fun s h => State.accessPaired_memWf h _ _ fun g hg => ?_) _ h
  iterate 2 refine Plan.memWf_of_ite h ?_
  simp [hg]

theorem planScat_keepsMem (f : GathF) : KeepsMem (planScat f) := by
  intro s h
  unfold planScat
  dsimp only
  refine Plan.memWf_of_ite h (orFault_memWf h _ fun s h => State.whenReady_memWf h (fun s h => orFault_memWf h _ fun s h => ?_) _)
  refine State.readEntries_memWf (fun s h => State.accessPaired_memWf h _ _ fun g hg => ?_) _ h
  iterate 2 refine Plan.memWf_of_ite h ?_
  simp [hg]

theorem entryGo_memWf {s : State} (h : memWf s.mem = true) (lat dcb : Nat) (adv : Bool) (attr : BitVec 5) (img : List Byte) (cons : List Nat) (fl : Flags)
    (hold : Core → Core) : (entryGo s lat dcb adv attr img cons fl hold).MemWf := by simp [entryGo, h]

theorem planWin_keepsMem (f : WinF) : KeepsMem (planWin f) := by
  intro s h
  unfold planWin
  dsimp only
  refine Plan.memWf_of_ite h (orFault_memWf h _ fun s h => State.whenReady_memWf h (fun s h => ?_) _)
  iterate 3 refine Plan.memWf_of_ite h ?_
  exact State.readEntries_memWf (fun s h => entryGo_memWf h ..) _ h

theorem planGseg_keepsMem (f : GsegF) : KeepsMem (planGseg f) := by
  intro s h
  unfold planGseg
  dsimp only
  refine Plan.memWf_of_ite h (orFault_memWf h _ fun s h => State.whenReady_memWf h (fun s h => ?_) _)
  iterate 3 refine Plan.memWf_of_ite h ?_
  exact State.readEntries_memWf (fun s h => entryGo_memWf h ..) _ h

theorem planAst_keepsMem (f : AstF) : KeepsMem (planAst f) := by
  intro s h
  unfold planAst
  dsimp only
  refine Plan.memWf_of_ite h (orFault_memWf h _ fun s h => State.whenReady_memWf h (fun s h => ?_) _)
  iterate 3 refine Plan.memWf_of_ite h ?_
  refine State.readEntries_memWf (fun s h => Got.memWf_plan (State.accessMany_memWf _ h) h fun g hg => ?_) _ h
  refine Plan.memWf_of_ite h ?_
  generalize hr : List.foldl _ _ _ = r
  have hmem : memWf r.1.mem = true := by
    rw [← hr, foldl_fst_mem]
    · exact hg
    · exact fun _ _ => State.launch_mem ..
  simp [hmem]

theorem planAwait_keepsMem (f : AwaitF) : KeepsMem (planAwait f) := by
  intro s h
  unfold planAwait
  dsimp only
  refine Plan.memWf_of_ite h (Plan.memWf_of_ite (by simp [h]) (Plan.memWf_of_ite h ?_))
  refine State.barrierAt_memWf h _ _ _ fun g pa hg => Plan.memWf_of_ite h ?_
  simp [hg]

/-! ### The HBM and transform engines -/

theorem hldGo_memWf {s : State} (h : memWf s.mem = true) (spans : List (Nat × Nat × Use)) (pair : List (List Run × List (BitVec 16)) → Bool) (dst : List Run)
    (pad : Nat) (tag : Option Nat) (cb : Option (Nat × Bool × BitVec 5)) (hold : Core → Core) : (hldGo s spans pair dst pad tag cb hold).MemWf := by
  unfold hldGo
  dsimp only
  refine State.accessPaired_memWf h _ _ fun g hg => ?_
  iterate 2 refine Plan.memWf_of_ite h ?_
  cases cb <;> simp [hg]

theorem hstGo_memWf {s : State} (h : memWf s.mem = true) (spans : List (Nat × Nat × Use)) (pair : List (List Run × List (BitVec 16)) → Bool) (src : List Run)
    (tag cons : Option Nat) (hold : Core → Core) : (hstGo s spans pair src tag cons hold).MemWf := by
  unfold hstGo
  dsimp only
  refine State.accessPaired_memWf h _ _ fun g hg => ?_
  iterate 2 refine Plan.memWf_of_ite h ?_
  cases cons <;> simp [hg]

theorem State.readParts_memWf {k : State → Plan} (hk : KeepsMem k) : ∀ (ps : List (Nat × Nat)) {s : State}, memWf s.mem = true → (s.readParts ps k).MemWf
  | [], s, h => hk s h
  | p :: r, s, h => by
    unfold State.readParts
    split <;> rename_i heq
    all_goals have hread := memWf_of_fst (State.issueRead_memWf h 6 p.1 p.2) heq
    · exact hread
    · exact State.readParts_memWf hk r hread

theorem planHld_keepsMem (f : HldF) : KeepsMem (planHld f) := by
  intro s h
  unfold planHld
  dsimp only
  refine Plan.memWf_of_ite h (Plan.memWf_of_ite (Plan.memWf_of_ite h (hldGo_memWf h ..)) ?_)
  split
  · exact h
  · split
    · exact State.whenReady_memWf h (fun s h => hldGo_memWf h ..) _
    · refine State.whenReady_memWf h (fun s h => ?_) _
      exact Plan.memWf_of_ite h (hldGo_memWf h ..)

theorem planHst_keepsMem (f : HldF) : KeepsMem (planHst f) := by
  intro s h
  unfold planHst
  dsimp only
  refine Plan.memWf_of_ite h (Plan.memWf_of_ite (Plan.memWf_of_ite h (State.readParts_memWf (fun s h => hstGo_memWf h ..) _ h)) ?_)
  split
  · exact h
  · split
    · exact State.whenReady_memWf h (fun s h => State.readParts_memWf (fun s h => hstGo_memWf h ..) _ h) _
    · refine State.whenReady_memWf h (fun s h => ?_) _
      exact Plan.memWf_of_ite h (State.readParts_memWf (fun s h => hstGo_memWf h ..) _ h)

theorem planHpre_keepsMem (f : HpreF) : KeepsMem (planHpre f) := by
  intro s h
  unfold planHpre
  dsimp only
  refine Plan.memWf_of_ite h ?_
  split <;> simp [h]

theorem planHzero_keepsMem (f : HzeroF) : KeepsMem (planHzero f) := by
  intro s h
  unfold planHzero
  dsimp only
  iterate 2 refine Plan.memWf_of_ite h ?_
  refine State.accessPaired_memWf h _ _ fun g hg => ?_
  iterate 2 refine Plan.memWf_of_ite h ?_
  simp [hg]

theorem planTcopy_keepsMem (f : TcopyF) : KeepsMem (planTcopy f) := by
  intro s h
  unfold planTcopy
  dsimp only
  iterate 5 refine Plan.memWf_of_ite h ?_
  refine State.readParts_memWf (fun s h => ?_) _ h
  simp [h]

theorem planTcvt_keepsMem (f : TcvtF) : KeepsMem (planTcvt f) := by
  intro s h
  unfold planTcvt
  dsimp only
  refine orFault_memWf h _ fun s h => State.whenReady_memWf h (fun s h => ?_) _
  iterate 4 refine Plan.memWf_of_ite h ?_
  refine State.readEntries_memWf (fun s h => ?_) _ h
  simp [h]

/-! ### The push engine -/

theorem dueCheck_memWf {s : State} (h : memWf s.mem = true) (timed : Bool) (dcore due L : Nat) {k : Plan} (hk : k.MemWf) :
    (dueCheck s timed dcore due L k).MemWf := by
  unfold dueCheck
  split
  · exact h
  · exact hk

theorem planPush_keepsMem (f : PushF) : KeepsMem (planPush f) := by
  intro s h
  unfold planPush
  dsimp only
  refine Plan.memWf_of_ite h ?_
  split
  · exact h
  · refine Plan.memWf_of_ite h (State.whenReady_memWf h (fun s h => ?_) _)
    iterate 3 refine Plan.memWf_of_ite h ?_
    refine dueCheck_memWf h _ _ _ _ (State.readEntries_memWf (fun s h => ?_) _ h)
    simp [h]

theorem State.readOwn_memWf {k : State → Plan} (hk : KeepsMem k) : ∀ (rs : List Run) {s : State}, memWf s.mem = true → (s.readOwn rs k).MemWf
  | [], s, h => hk s h
  | r :: rs, s, h => by
    unfold State.readOwn
    split
    · exact State.readOwn_memWf hk rs h
    · split <;> rename_i heq
      all_goals have hread := memWf_of_fst (State.issueRead_memWf h _ _ r.len) heq
      · exact hread
      · exact State.readOwn_memWf hk rs hread

theorem planPushb_keepsMem (f : PushbF) : KeepsMem (planPushb f) := by
  intro s h
  unfold planPushb
  extract_lets
  iterate 2 refine Plan.memWf_of_ite h ?_
  split
  · exact h
  · iterate 2 refine Plan.memWf_of_ite h ?_
    refine State.accessPaired_memWf h _ _ fun g hg => ?_
    refine Plan.memWf_of_ite h (dueCheck_memWf h _ _ _ _ ?_)
    extract_lets
    refine State.readOwn_memWf (fun s h => ?_) _ hg
    simp [h]

theorem planCopy_keepsMem (pull defer : Bool) (dstS : Slot) (a nS : Src) (tag : Option Nat) (bar : Option Slot) :
    KeepsMem (planCopy pull defer dstS a nS tag bar) := by
  intro s h
  unfold planCopy
  dsimp only
  iterate 4 refine Plan.memWf_of_ite h ?_
  refine State.accessPaired_memWf h _ _ fun g hg => ?_
  iterate 2 refine Plan.memWf_of_ite h ?_
  split
  · iterate 2 refine Plan.memWf_of_ite h ?_
    simp [hg]
  · iterate 2 refine Plan.memWf_of_ite h ?_
    refine State.readOwn_memWf (fun s h => ?_) _ hg
    simp [h]

end Sys2Proof.Machine
end

section
/-! Memory stays canonical (O7), part 7: collectives and segments. -/

namespace Sys2Proof.Machine

open Sys2Proof

@[simp] theorem State.readAtIssue_memWf (fixed : Bool) : ∀ (rs : List Run) {s : State}, memWf s.mem = true → memWf (s.readAtIssue fixed rs).1.mem = true
  | [], _, h => h
  | r :: rs, s, h => by
    unfold State.readAtIssue
    split
    · dsimp only
      repeat' split
      all_goals simp [h]
    · exact State.readAtIssue_memWf fixed rs h
    · extract_lets s1
      have h1 : memWf s1.mem = true := by
        unfold s1
        split
        · exact h
        · refine foldl_memWf (fun s u hs => ?_) _ h
          dsimp only
          split <;> simp [hs]
      refine State.readAtIssue_memWf fixed rs ?_
      split
      · exact State.claim_memWf h1 ..
      · exact h1

theorem readSpan_memWf {s : State} (h : memWf s.mem = true) (va n : Nat) (pair : List (List Run × List (BitVec 16)) → Bool)
    {k : State → List Byte → List Run → Plan} (hk : ∀ s bs rs, memWf s.mem = true → (k s bs rs).MemWf) : (readSpan s va n pair k).MemWf := by
  unfold readSpan
  refine Plan.memWf_of_ite (hk _ _ _ h) (State.accessPaired_memWf h _ _ fun g hg => ?_)
  split <;> rename_i heq
  all_goals have hread := memWf_of_fst (State.readAtIssue_memWf _ _ hg) heq
  · exact hread
  · exact hk _ _ _ hread

@[simp] theorem State.sendOff_mem (s : State) (due : Nat) (w : Work) : (s.sendOff due w).1.mem = s.mem := rfl

theorem collSend_memWf {s : State} (h : memWf s.mem = true) (f : CollF) (d : CollDesc) (words : List Nat) (src scales tiles : List Byte)
    (dst : List (Nat × Nat)) (runs : List Run) (hold : Core → Core) : (collSend f s d words src scales tiles dst runs hold).MemWf := by
  unfold collSend
  extract_lets
  refine State.accessPaired_memWf h _ _ fun g hg => ?_
  iterate 2 refine Plan.memWf_of_ite h ?_
  iterate 2 refine Plan.memWf_of_ite (by simp [h]) ?_
  simp [hg]

theorem planColl_keepsMem (f : CollF) : KeepsMem (planColl f) := by
  intro s h
  unfold planColl
  extract_lets
  iterate 2 refine Plan.memWf_of_ite h ?_
  refine readSpan_memWf h _ _ _ fun s bs _ h => ?_
  extract_lets
  refine Plan.memWf_of_ite h (readSpan_memWf h _ _ _ fun s ms _ h => ?_)
  extract_lets words places
  refine Plan.memWf_of_ite h (Plan.memWf_of_ite (collSend_memWf h ..) ?_)
  split
  · exact h
  · iterate 2 refine Plan.memWf_of_ite h ?_
    split
    · clear_value places
      split
      · exact h
      · refine readSpan_memWf h _ _ _ fun s _ _ h => readSpan_memWf h _ _ _ fun s _ _ h => readSpan_memWf h _ _ _ fun s _ _ h => ?_
        exact collSend_memWf h ..
    · exact readSpan_memWf h _ _ _ fun s _ _ h => collSend_memWf h ..

@[simp] theorem State.dropDst_mem (s : State) (p : Contrib) : (s.dropDst p).mem = s.mem := rfl

@[simp] theorem State.collError_memWf {s : State} (h : memWf s.mem = true) (ps : List Contrib) (cause : Cause) (info : W64) :
    memWf (s.collError ps cause info).mem = true := by
  refine foldl_memWf (fun s p hs => ?_) ps h
  split
  · split
    · exact State.charge_memWf (s := s.dropDst p) hs ..
    · exact hs
  · exact hs

@[simp] theorem State.deliver_mem (s : State) (p : Contrib) : (s.deliver p).mem = s.mem := by
  unfold State.deliver
  split <;> simp

@[simp] theorem State.releaseColls_mem (s : State) : (s.releaseColls).mem = s.mem := rfl

@[simp] theorem execCollContributionArrival_memWf {s : State} (h : memWf s.mem = true) (c : Contrib) : Out.MemWf (execCollContributionArrival c s) := by
  unfold execCollContributionArrival
  dsimp only
  repeat' split
  all_goals simp [h]

@[simp] theorem State.storeVa_memWf {s : State} (h : memWf s.mem = true) (c va : Nat) (bs : List Byte) : memWf (s.storeVa c va bs).mem = true := by simp [State.storeVa, storeCells_memWf, h]

@[simp] theorem execCollResult_memWf {s : State} (h : memWf s.mem = true) (id : Nat) : Out.MemWf (execCollResult id s) := by
  unfold execCollResult
  split
  · exact h
  · split
    · extract_lets s1
      have h1 : memWf s1.mem = true := h
      split
      · exact h1
      · extract_lets img s2 s3 s4
        have h2 : memWf s2.mem = true := by
          unfold s2
          split
          · exact h1
          · split
            · split
              · exact h1
              · extract_lets s5
                have h5 : memWf s5.mem = true := State.storeVa_memWf (State.storeVa_memWf h1 ..) ..
                split
                · exact foldl_memWf (fun s i hs => State.storeVa_memWf hs ..) _ h5
                · exact h5
            · exact State.storeVa_memWf h1 ..
        have h4 : memWf s4.mem = true := h2
        simp [h4]
    · exact h

@[simp] theorem State.openGroup_mem (s : State) (g : Group) (foot : Nat) : (s.openGroup g foot).mem = s.mem := by simp [State.openGroup]

theorem planSegOpen_keepsMem (d : BitVec 28) : KeepsMem (planSegOpen d) := by
  intro s h
  unfold planSegOpen
  dsimp only
  repeat' split
  all_goals simp [trace_memWf, h]

@[simp] theorem State.readStages_memWf {s : State} (h : memWf s.mem = true) (g : Group) : memWf (s.readStages g).mem = true := by
  unfold State.readStages
  split
  · refine State.claim_memWf ?_ ..
    rwa [foldl_modCore_mem]
  · exact h

@[simp] theorem State.noteBanks_mem (s : State) (pas : List Nat) : (s.noteBanks pas).mem = s.mem := by simp [State.noteBanks]

@[simp] theorem State.atomAt_memWf {s : State} (h : memWf s.mem = true) (pa aop : Nat) (s64 : Bool) (x : Nat) : memWf (s.atomAt pa aop s64 x).mem = true := by simp [State.atomAt, store_memWf, h]

@[simp] theorem State.countPa_mem (s : State) (c pa : Nat) : (s.countPa c pa).mem = s.mem := by
  unfold State.countPa
  split <;> simp

@[simp] theorem State.commitStage_memWf (c pc : Nat) : ∀ (es : List StageEnt) {s : State}, memWf s.mem = true → memWf (s.commitStage c pc es).mem = true
  | [], _, h => h
  | .store l ns :: r, s, h => by
    refine State.commitStage_memWf c pc r ?_
    simp [storeNibs_memWf, h]
  | .atomn pa aop s64 x :: r, s, h => by
    unfold State.commitStage
    split <;> rename_i heq
    all_goals have hread := memWf_of_fst (State.consume_memWf h c 0 pa _ false (some pc)) heq
    · refine State.commitStage_memWf c pc r ?_
      simp [hread]
    · exact State.commitStage_memWf c pc r hread

theorem foldl_fst_memWf {α β : Type} {f : State × β → α → State × β} (hf : ∀ r a, memWf r.1.mem = true → memWf (f r a).1.mem = true) :
    ∀ (l : List α) {r : State × β}, memWf r.1.mem = true → memWf (l.foldl f r).1.mem = true
  | [], _, h => h
  | a :: l, r, h => foldl_fst_memWf hf l (hf r a h)

@[simp] theorem State.startDeferred_memWf : ∀ (ds : List DefCopy) {s : State}, memWf s.mem = true → memWf (s.startDeferred ds).mem = true
  | [], _, h => h
  | d :: r, s, h => by
    unfold State.startDeferred
    extract_lets ok s1 n img links q s2
    have hok : memWf s1.mem = true := by
      refine foldl_fst_memWf (fun p x hp => ?_) d.src (r := (s, true)) h
      split
      · exact State.consume_memWf hp ..
      · exact hp
    split
    · have hq : memWf q.1.mem = true := by
        unfold q
        rwa [State.launch_mem]
      exact State.startDeferred_memWf r hq
    · exact State.startDeferred_memWf r hok

@[simp] theorem State.reportColls_mem (s : State) (c : Nat) : (s.reportColls c).mem = s.mem := rfl

@[simp] theorem State.closeCore_memWf {s : State} (h : memWf s.mem = true) (g : Group) (ix segno : Nat) : memWf (s.closeCore g ix segno).mem = true := by simp [State.closeCore, trace_memWf, h]

@[simp] theorem State.commitGroup_memWf {s : State} (h : memWf s.mem = true) (g : Group) : memWf (s.commitGroup g).mem = true := by
  unfold State.commitGroup
  extract_lets cur cs s1 s2 s3 s4 s5 s6
  have h1 : memWf s1.mem = true := State.readStages_memWf h g
  have h2 : memWf s2.mem = true := by
    unfold s2
    rwa [foldl_modCore_mem]
  have h3 : memWf s3.mem = true := foldl_memWf (fun s p hs => State.commitStage_memWf _ _ _ hs) cs h2
  have h4 : memWf s4.mem = true := foldl_memWf (fun s p hs => State.startDeferred_memWf (s := { s with cur := { core := p.1, tag := 6 } }) _ hs) cs h3
  have h5 : memWf s5.mem = true := foldl_memWf (fun s p hs => by simp [hs]) cs h4
  have h6 : memWf s6.mem = true := h5
  simp [h6]

theorem planSegClose_keepsMem : KeepsMem planSegClose := by
  intro s h
  unfold planSegClose
  dsimp only
  repeat' split
  all_goals simp [h]

theorem planHalt_keepsMem : KeepsMem planHalt := by
  intro s h
  unfold planHalt
  dsimp only
  repeat' split
  all_goals simp [h]

@[simp] theorem State.cancelOps_mem (s : State) (g : Group) (inseg : Bool) : (s.cancelOps g inseg).mem = s.mem := rfl

@[simp] theorem State.discard_mem (s : State) (g : Group) (inseg : Bool) : (s.discard g inseg).mem = s.mem := by simp [State.discard]

@[simp] theorem State.copyCarry_memWf {s : State} (h : memWf s.mem = true) (c : Nat) : memWf (s.copyCarry c).mem = true := by simp [State.copyCarry, store_memWf, h]

@[simp] theorem State.reopen_memWf {s : State} (h : memWf s.mem = true) (g : Group) : memWf (s.reopen g).mem = true := by
  unfold State.reopen
  extract_lets s1 n
  have h1 : memWf s1.mem = true := by
    unfold s1
    simp [h]
  refine foldl_memWf (fun s c hs => ?_) g.cores h1
  split
  · exact hs
  · extract_lets T o s2 s3 go s4 s5 s6
    have h3 : memWf s3.mem = true := foldl_memWf (fun s t hs => State.leave_memWf hs ..) _ hs
    have h6 : memWf s6.mem = true := by
      have h5 : memWf s5.mem = true := h3
      unfold s6
      split
      · exact State.copyCarry_memWf h5 c
      · exact h5
    simp [trace_memWf, h6]

end Sys2Proof.Machine
end

section
/-! Memory stays canonical (O7), part 8: images, units, the scheduler and jobs. -/

namespace Sys2Proof.Machine

open Sys2Proof

@[simp] theorem State.jobWrite_memWf {s t : State} (h : memWf s.mem = true) {j : Job} {va : Nat} {bs : List Byte} {ok : BitVec 16 → Bool}
    (ht : s.jobWrite j va bs ok = some t) : memWf t.mem = true := by
  obtain ⟨rs, -, rfl⟩ := Option.map_eq_some_iff.1 ht
  exact storeCells_memWf h _

@[simp] theorem State.loadBank_memWf {s : State} (h : memWf s.mem = true) (c : Nat) (bs : List Byte) : memWf (s.loadBank c bs).mem = true := by simp [State.loadBank, store_memWf, h]

@[simp] theorem State.loadFrame_memWf {s : State} (h : memWf s.mem = true) (g : Group) (f : List Byte) : memWf (s.loadFrame g f).mem = true := by
  unfold State.loadFrame
  extract_lets ix
  split
  · exact h
  · extract_lets s1
    have h1 : memWf s1.mem = true := by
      unfold s1
      rwa [foldl_modCore_mem]
    refine foldl_memWf (fun s p hs => ?_) _ h1
    cases p.1 with
    | none => exact hs
    | some c => exact State.loadBank_memWf hs ..

@[simp] theorem State.mapFrame_memWf {s : State} (h : memWf s.mem = true) (g : Group) (e : EqPoint) (f : List Byte) : memWf (s.mapFrame g e f).mem = true := by
  unfold State.mapFrame
  extract_lets src ix
  split
  · exact h
  · extract_lets s1 s2
    have h1 : memWf s1.mem = true := by
      unfold s1
      rwa [foldl_modCore_mem]
    have h2 : memWf s2.mem = true := by
      refine foldl_memWf (fun s m hs => ?_) _ h1
      split
      · exact hs
      · split
        case h_3 =>
          split
          · exact State.loadBank_memWf hs ..
          · exact hs
        all_goals split <;> exact hs
    rwa [foldl_modCore_mem]

@[simp] theorem State.modGraph_mem (s : State) (g : Nat) (f : Graph → Graph) : (s.modGraph g f).mem = s.mem := rfl

@[simp] theorem State.modNode_mem (s : State) (g n : Nat) (f : Node → Node) : (s.modNode g n f).mem = s.mem := rfl

@[simp] theorem State.setCtr_mem (s : State) (i : Item) (c : Counter) : (s.setCtr i c).mem = s.mem := by
  unfold State.setCtr
  split <;> simp

@[simp] theorem State.postItem_mem (s : State) (i : Item) (kind status : Nat) (data : List Byte) : (s.postItem i kind status data).mem = s.mem := rfl

@[simp] theorem State.putCtr_memWf {s : State} (h : memWf s.mem = true) (i : Item) (f : Counter → Counter) : memWf (s.putCtr i f).mem = true := by
  unfold State.putCtr
  split
  · exact h
  · extract_lets c s1
    have h1 : memWf s1.mem = true := by
      unfold s1
      rwa [State.setCtr_mem]
    split
    · rename_i heq
      obtain ⟨j, -, hj⟩ := Option.bind_eq_some_iff.1 heq
      exact State.jobWrite_memWf h1 hj
    · split
      · exact h1
      · simp [h1]

@[simp] theorem State.freeGroup_mem (s : State) (g : Group) : (s.freeGroup g).mem = s.mem := by simp [State.freeGroup]

@[simp] theorem State.modUnit_mem (s : State) (gi ni u : Nat) (f : UnitRec → UnitRec) : (s.modUnit gi ni u f).mem = s.mem := rfl

@[simp] theorem State.dropFrame_mem (s : State) (gi ni u : Nat) : (s.dropFrame gi ni u).mem = s.mem := by
  unfold State.dropFrame
  split <;> simp

@[simp] theorem State.takeFrame_mem {s t : State} {gi ni u : Nat} (ht : s.takeFrame gi ni u = some t) : t.mem = s.mem := by
  unfold State.takeFrame at ht
  split at ht
  · obtain ⟨j, -, hj⟩ := Option.bind_eq_some_iff.1 ht
    obtain ⟨o, -, rfl⟩ := Option.map_eq_some_iff.1 hj
    rfl
  · cases ht

@[simp] theorem State.applyInit_memWf {s : State} (h : memWf s.mem = true) (c : Nat) (r : InitRec) : memWf (s.applyInit c r).mem = true := by
  unfold State.applyInit
  repeat' split
  all_goals simp [store_memWf, h]

@[simp] theorem State.giveStreams_mem (s : State) (g : Group) (n : Node) : (s.giveStreams g n).mem = s.mem := by
  unfold State.giveStreams
  split
  · rfl
  · simp

@[simp] theorem State.fillUnit_memWf {s : State} (h : memWf s.mem = true) (g : Group) (n : Node) : memWf (s.fillUnit g n).mem = true := by
  refine foldl_memWf (fun s p hs => ?_) _ h
  exact foldl_memWf (fun s r hs => State.applyInit_memWf hs ..) _ hs

@[simp] theorem State.markRunning_memWf {s : State} (h : memWf s.mem = true) (i : Item) : memWf (s.markRunning i).mem = true := by
  unfold State.markRunning
  split <;> simp [h]

@[simp] theorem State.runningItems_memWf {s : State} (h : memWf s.mem = true) (gi ni : Nat) : memWf (s.runningItems gi ni).mem = true := by
  unfold State.runningItems
  split
  · exact h
  · exact State.markRunning_memWf (State.markRunning_memWf (State.markRunning_memWf (State.markRunning_memWf h _) _) _) _

/-- A write to a job's memory that may fail. -/
theorem State.jobWrite_getD_memWf {s : State} (h : memWf s.mem = true) (oj : Option Job) (va : Job → Nat) (bs : List Byte) (ok : BitVec 16 → Bool) :
    memWf ((oj.bind fun j => s.jobWrite j (va j) bs ok).getD s).mem = true := by
  cases hw : oj.bind fun j => s.jobWrite j (va j) bs ok with
  | none => exact h
  | some t =>
    obtain ⟨j, -, hj⟩ := Option.bind_eq_some_iff.1 hw
    exact State.jobWrite_memWf h hj

@[simp] theorem State.recordStart_memWf {s : State} (h : memWf s.mem = true) (gi ni u run shape num : Nat) :
    memWf (s.recordStart gi ni u run shape num).mem = true := by
  unfold State.recordStart
  split
  · split
    · extract_lets bs s1 s2
      have h1 : memWf s1.mem = true := State.jobWrite_getD_memWf h ..
      split <;> exact h1
    · exact h
  · exact h

theorem State.startUnit_memWf {s t : State} (h : memWf s.mem = true) {gi ni u shape : Nat} (ht : s.startUnit gi ni u shape = some t) :
    memWf t.mem = true := by
  unfold State.startUnit at ht
  split at ht
  · rename_i hframe
    obtain ⟨g, -, rfl⟩ := Option.map_eq_some_iff.1 ht
    extract_lets run s1 s2 s3 s4
    have h1 : memWf s1.mem = true := by
      unfold s1
      rw [State.giveStreams_mem, State.takeFrame_mem hframe]
      exact h
    have h3 : memWf s3.mem = true := State.fillUnit_memWf h1 ..
    exact trace_memWf (State.runningItems_memWf (State.recordStart_memWf h3 ..) ..) ..
  · cases ht

@[simp] theorem State.queueUnit_mem (s : State) (gi ni u : Nat) : (s.queueUnit gi ni u).mem = s.mem := by simp [State.queueUnit]

@[simp] theorem State.removeUnit_mem (s : State) (gi ni u : Nat) : (s.removeUnit gi ni u).mem = s.mem := by simp [State.removeUnit]

@[simp] theorem State.cancelNode_mem (s : State) (gi ni : Nat) (kill : Bool) : (s.cancelNode gi ni kill).mem = s.mem := by
  unfold State.cancelNode
  split
  · rfl
  · refine (foldl_mem (fun s r => ?_) _ _).trans (State.modNode_mem ..)
    repeat' split
    all_goals simp

@[simp] theorem State.stampItems_memWf {s : State} (h : memWf s.mem = true) (items : List Item) (st : Nat) : memWf (s.stampItems items st).mem = true := by
  refine foldl_memWf (fun s i hs => ?_) items h
  split
  · exact hs
  · exact State.putCtr_memWf hs ..

@[simp] theorem State.failJob_memWf {s : State} (h : memWf s.mem = true) (hh kind : Nat) (about : Item) (data : List Byte) : memWf (s.failJob hh kind about data).mem = true := by simp [State.failJob, h]

@[simp] theorem State.requeueNode_memWf {s : State} (h : memWf s.mem = true) (gi ni u core : Nat) : memWf (s.requeueNode gi ni u core).mem = true := by
  unfold State.requeueNode
  split
  · extract_lets data s1 s2
    split
    · exact State.failJob_memWf h ..
    · refine foldl_memWf (fun s r hs => ?_) _ h
      repeat' split
      all_goals simp [hs]
  · exact h

@[simp] theorem State.saveFrame_memWf {s : State} (h : memWf s.mem = true) (g : Group) (cause core : Nat) : memWf (s.saveFrame g cause core).mem = true := by
  unfold State.saveFrame
  split
  · extract_lets img
    generalize hw : Option.bind _ _ = w
    cases w with
    | none => exact h
    | some t =>
      obtain ⟨va, -, hva⟩ := Option.bind_eq_some_iff.1 hw
      exact State.jobWrite_memWf h hva
  · exact h

@[simp] theorem State.loseOpening_memWf {s : State} (h : memWf s.mem = true) (g : Group) (c : Nat) (cause : Cause) (info : W64) : memWf (s.loseOpening g c cause info).mem = true := by simp [State.loseOpening, h]

@[simp] theorem State.checkpoint_memWf {s : State} (h : memWf s.mem = true) (g : Group) (cause : Nat) (page : Option Nat) (core : Nat) : memWf (s.checkpoint g cause page core).mem = true := by
  unfold State.checkpoint
  dsimp only
  repeat' split
  all_goals simp [h]

@[simp] theorem State.discharge_memWf {s : State} (h : memWf s.mem = true) (g : Group) (p : Pend) : memWf (s.discharge g p).mem = true := by
  unfold State.discharge
  extract_lets inseg s1 g s2 k raise low note freed q again leaves
  have h2 : memWf s2.mem = true := by
    unfold s2 s1
    simp [h]
  have hraise : ∀ s, memWf s.mem = true → memWf (raise s).mem = true := by
    intro s hs
    unfold raise
    rwa [foldl_modCore_mem]
  have hnote : ∀ s, memWf s.mem = true → memWf (note s).mem = true := by
    intro s hs
    unfold note
    split
    · exact trace_memWf hs ..
    · exact hs
  have hfreed : ∀ s, memWf s.mem = true → memWf (freed s).mem = true := by
    intro s hs
    unfold freed
    rwa [State.freeGroup_mem]
  have hleaves : ∀ s, memWf s.mem = true → memWf (leaves s).mem = true := by
    intro s hs
    unfold leaves
    split
    · exact State.checkpoint_memWf hs ..
    · exact State.checkpoint_memWf hs ..
    · exact hs
  have hn := hnote _ h2
  have hf := hfreed _ hn
  split
  · split
    · exact hleaves _ (hnote _ (hraise _ h2))
    · simp [hf]
  · simp [hf]
  · exact hleaves _ hn
  · simpa using hf
  · simpa using hf
  · have hremoved : memWf ((freed (note s2)).removeUnit g.graph g.node g.unit).mem = true := by simpa using hf
    exact State.failJob_memWf hremoved ..
  · split
    · rw [State.removeUnit_mem]
      refine hfreed _ ?_
      split <;> exact hn
    · exact State.checkpoint_memWf hn ..

@[simp] theorem State.raiseDone_memWf {s : State} (h : memWf s.mem = true) (i : Item) (closed : Bool) : memWf (s.raiseDone i closed).1.mem = true := by
  unfold State.raiseDone
  repeat' split
  all_goals simp [h]

@[simp] theorem State.phaseDone_memWf {s : State} (h : memWf s.mem = true) (hh : Nat) : memWf (s.phaseDone hh).mem = true := by simp [State.phaseDone, h]

@[simp] theorem State.graphDone_memWf {s : State} (h : memWf s.mem = true) (gi : Nat) : memWf (s.graphDone gi).mem = true := by
  unfold State.graphDone
  split
  · exact h
  · extract_lets closed
    split <;> rename_i heq
    all_goals have hdone := memWf_of_fst (State.raiseDone_memWf h _ closed) heq
    · exact State.phaseDone_memWf hdone _
    · exact hdone

@[simp] theorem State.unitDone_memWf {s : State} (h : memWf s.mem = true) (gi ni : Nat) : memWf (s.unitDone gi ni).mem = true := by
  unfold State.unitDone
  split <;> rename_i heq
  all_goals have hnode := memWf_of_fst (State.raiseDone_memWf h ..) heq
  · exact hnode
  · split
    · split
      · exact State.graphDone_memWf hnode gi
      · split <;> rename_i heq'
        all_goals have hgraph := memWf_of_fst (State.raiseDone_memWf hnode ..) heq'
        · exact State.graphDone_memWf hgraph gi
        · exact hgraph
    · exact hnode

@[simp] theorem State.takeDigest_memWf {s : State} (h : memWf s.mem = true) (g : Group) : memWf (s.takeDigest g).mem = true := by
  unfold State.takeDigest
  split
  · split
    · exact h
    · split
      · rename_i heq
        obtain ⟨d, -, hd⟩ := Option.bind_eq_some_iff.1 heq
        exact State.jobWrite_memWf h hd
      · exact h
  · exact h

@[simp] theorem State.sampleEnergy_mem (s : State) (dies : List Nat) : (s.sampleEnergy dies).mem = s.mem := by
  refine foldl_mem (fun s d => ?_) dies s
  split <;> simp

@[simp] theorem State.leaveAtOpen_mem (s : State) (g cause : Nat) : (s.leaveAtOpen g cause).mem = s.mem := rfl

@[simp] theorem State.pendGroup_mem (s : State) (g : Nat) (a : After) : (s.pendGroup g a).mem = s.mem := rfl

@[simp] theorem State.checkpointGroup_mem (s : State) (g : Group) (cause : Nat) (now : Bool) : (s.checkpointGroup g cause now).mem = s.mem := by simp [State.checkpointGroup]

@[simp] theorem State.debugRelease_memWf {s : State} (h : memWf s.mem = true) (g : Nat) : memWf (s.debugRelease g).mem = true := by
  unfold State.debugRelease
  split <;> simp [h]

@[simp] theorem State.stopAll_mem (s : State) : (s.stopAll).mem = s.mem := by simp [State.stopAll]

@[simp] theorem State.stopLate_memWf {s : State} (h : memWf s.mem = true) : memWf s.stopLate.mem = true := by
  refine foldl_memWf (fun s g hs => ?_) _ h
  simp [hs]

@[simp] theorem State.putStatus_mem (s : State) (slot v : Nat) : (s.putStatus slot v).mem = s.mem := rfl

@[simp] theorem State.loseGroup_memWf {s : State} (h : memWf s.mem = true) (g : Group) (slot : Nat) : memWf (s.loseGroup g slot).mem = true := by simp [State.loseGroup, h]

@[simp] theorem State.loseChannels_mem (s : State) (slot : Nat) : (s.loseChannels slot).mem = s.mem := by simp [State.loseChannels]

@[simp] theorem State.loseColls_memWf {s : State} (h : memWf s.mem = true) (xd : Nat) (cause : Cause) (info : W64) :
    memWf (s.loseColls xd cause info).mem = true := by
  refine foldl_memWf (fun s x hs => State.collError_memWf hs ..) _ ?_
  exact h

@[simp] theorem State.changeStatus_memWf {s : State} (h : memWf s.mem = true) (slot v : Nat) : memWf (s.changeStatus slot v).mem = true := by
  unfold State.changeStatus
  extract_lets old s1 s2 s3
  split
  · exact h
  · have h2 : memWf s2.mem = true := foldl_memWf (fun s g hs => State.loseGroup_memWf hs ..) _ h
    have h3 : memWf s3.mem = true := by
      unfold s3
      split <;> simp [h2]
    split
    · exact State.loseColls_memWf h3 ..
    · exact h3

@[simp] theorem execDieFailed_memWf {s : State} (h : memWf s.mem = true) (slot : Nat) : Out.MemWf (execDieFailed slot s) := by simp [execDieFailed, h]

@[simp] theorem execErrorWindowClear_memWf {s : State} (h : memWf s.mem = true) : Out.MemWf (execErrorWindowClear s) := by simp [execErrorWindowClear, h]

@[simp] theorem State.putHeader_memWf {s : State} (h : memWf s.mem = true) (hh o v : Nat) : memWf (s.putHeader hh o v).mem = true := by simp [State.putHeader, store_memWf, h]

@[simp] theorem State.ack_mem (s : State) (e : Sbm) (status : Nat) (sub : optParam Nat 0) : (s.ack e status sub).mem = s.mem := rfl

@[simp] theorem State.takeSubmission_memWf {s : State} (h : memWf s.mem = true) (v : W64) : memWf (s.takeSubmission v).mem = true := by
  unfold State.takeSubmission
  extract_lets h0 f head s1 pa g e s2 s3 s4
  have h1 : memWf s1.mem = true := State.putHeader_memWf h ..
  split
  · exact h
  · split
    · exact h1
    · have h2 : memWf s2.mem = true := State.putHeader_memWf (State.putHeader_memWf h1 ..) ..
      split
      · exact h1
      · split <;> exact h2

@[simp] theorem execJcring_memWf {s : State} (h : memWf s.mem = true) (v : W64) : Out.MemWf (execJcring v s) := by simp [execJcring, h]

@[simp] theorem execCompletionEntryPost_memWf {s : State} (h : memWf s.mem = true) : Out.MemWf (execCompletionEntryPost s) := by
  unfold execCompletionEntryPost
  split
  · exact h
  · extract_lets h0 f tail seq bs s1
    have h1 : memWf s1.mem = true := State.putHeader_memWf (store_memWf (s := { s with cqWait := _, cqSeq := seq }) h ..) ..
    refine Out.memWf_of_ite h ?_
    rw [Out.memWf_next]
    split
    · exact State.putCtr_memWf h1 ..
    · exact h1

@[simp] theorem execJob_memWf {s : State} (h : memWf s.mem = true) (e : Sbm) : Out.MemWf (execJob e s) := by
  unfold execJob
  split <;> simp [h]

@[simp] theorem execPhase_memWf {s : State} (h : memWf s.mem = true) (e : Sbm) : Out.MemWf (execPhase e s) := by
  unfold execPhase
  repeat' split
  all_goals simp [h]

@[simp] theorem State.setTotal_memWf {s : State} (h : memWf s.mem = true) (i : Item) (n : Nat) : memWf (s.setTotal i n).1.mem = true := by simp [State.setTotal, h]

@[simp] theorem execPhaseEnd_memWf {s : State} (h : memWf s.mem = true) (e : Sbm) : Out.MemWf (execPhaseEnd e s) := by
  unfold execPhaseEnd
  split
  · exact h
  · split
    · exact h
    · refine Out.memWf_of_ite h ?_
      extract_lets s1 n
      split <;> rename_i heq
      all_goals have htotal := memWf_of_fst (State.setTotal_memWf (s := s1) h ..) heq
      · simp [htotal]
      · simpa using htotal

@[simp] theorem execJobEnd_memWf {s : State} (h : memWf s.mem = true) (e : Sbm) : Out.MemWf (execJobEnd e s) := by
  unfold execJobEnd
  repeat' split
  all_goals simp [h]

@[simp] theorem State.holdLowered_mem (s : State) (n : Node) : (s.holdLowered n).mem = s.mem := by simp [State.holdLowered]

@[simp] theorem State.addGraph_memWf {s : State} (h : memWf s.mem = true) (g : Graph) : memWf (s.addGraph g).mem = true := by
  refine foldl_memWf (fun s n hs => State.putCtr_memWf hs ..) _ ?_
  split
  · exact h
  · exact State.putCtr_memWf (s := { s with graphs := s.graphs ++ [g] }) h ..

@[simp] theorem State.submitGraph_memWf {s : State} (h : memWf s.mem = true) (e : Sbm) (r : Except Nat Graph) : memWf (s.submitGraph e r).mem = true := by
  unfold State.submitGraph
  split <;> simp [h]

@[simp] theorem execGraph_memWf {s : State} (h : memWf s.mem = true) (e : Sbm) : Out.MemWf (execGraph e s) := by simp [execGraph, h]

@[simp] theorem execLaunch_memWf {s : State} (h : memWf s.mem = true) (e : Sbm) : Out.MemWf (execLaunch e s) := by simp [execLaunch, h]

@[simp] theorem State.startCancel_mem (s : State) (e : Sbm) (level arg : Nat) (destroy : Bool) : (s.startCancel e level arg destroy).mem = s.mem := by
  unfold State.startCancel
  split <;> simp

@[simp] theorem execCancel_memWf {s : State} (h : memWf s.mem = true) (e : Sbm) : Out.MemWf (execCancel e s) := by simp [execCancel, h]

@[simp] theorem execJobDestroy_memWf {s : State} (h : memWf s.mem = true) (e : Sbm) : Out.MemWf (execJobDestroy e s) := by simp [execJobDestroy, h]

@[simp] theorem State.releaseJob_mem (s : State) (hh : Nat) : (s.releaseJob hh).mem = s.mem := rfl

@[simp] theorem execCancelComplete_memWf {s : State} (h : memWf s.mem = true) (n : Nat) : Out.MemWf (execCancelComplete n s) := by
  unfold execCancelComplete
  dsimp only
  repeat' split
  all_goals simp [h]

@[simp] theorem State.unhold_mem (s : State) (g : Group) : (s.unhold g).mem = s.mem := by simp [State.unhold]

@[simp] theorem execResume_memWf {s : State} (h : memWf s.mem = true) (e : Sbm) : Out.MemWf (execResume e s) := by
  unfold execResume
  repeat' split
  all_goals simp [h]

@[simp] theorem execQuota_memWf {s : State} (h : memWf s.mem = true) (e : Sbm) : Out.MemWf (execQuota e s) := by
  unfold execQuota
  dsimp only
  repeat' split
  all_goals simp [h]

@[simp] theorem State.endLaunch_memWf {s : State} (h : memWf s.mem = true) (gi ni : Nat) : memWf (s.endLaunch gi ni).mem = true := by simp [State.endLaunch, h]

@[simp] theorem execUnitStart_memWf {s : State} (h : memWf s.mem = true) (graph node u : Nat) : Out.MemWf (execUnitStart graph node u s) := by
  unfold execUnitStart
  split
  · exact h
  · split
    · simp [h]
    · split
      · exact h
      · split
        · exact h
        · rename_i heq
          obtain ⟨sh, -, hsh⟩ := Option.bind_eq_some_iff.1 heq
          have hstart := State.startUnit_memWf h hsh
          exact hstart

@[simp] theorem State.restoreUnit_memWf {s : State} (h : memWf s.mem = true) (g : Group) (n : Node) (r : UnitRec) (f : List Byte) : memWf (s.restoreUnit g n r f).mem = true := by
  unfold State.restoreUnit
  repeat' split
  all_goals simp [h]

@[simp] theorem execUnitResume_memWf {s : State} (h : memWf s.mem = true) (graph node u : Nat) : Out.MemWf (execUnitResume graph node u s) := by
  unfold execUnitResume
  repeat' split
  all_goals simp [h]

@[simp] theorem State.evict_mem (s : State) (tokens : Nat) (g : Group) : (s.evict tokens g).mem = s.mem := by simp [State.evict]

@[simp] theorem execPreemption_memWf {s : State} (h : memWf s.mem = true) (graph node : Nat) : Out.MemWf (execPreemption graph node s) := by
  unfold execPreemption
  split <;> simp [h]

@[simp] theorem State.checkQuota_memWf {s : State} (h : memWf s.mem = true) (gi ni : Nat) : memWf (s.checkQuota gi ni).mem = true := by
  unfold State.checkQuota
  repeat' split
  all_goals simp [h]

@[simp] theorem execEnergySample_memWf {s : State} (h : memWf s.mem = true) : Out.MemWf (execEnergySample s) := by
  refine foldl_memWf (fun s p hs => State.checkQuota_memWf hs ..) _ ?_
  rwa [State.sampleEnergy_mem]

@[simp] theorem execUnitComplete_memWf {s : State} (h : memWf s.mem = true) (g : Nat) : Out.MemWf (execUnitComplete g s) := by
  unfold execUnitComplete
  split
  · exact h
  · extract_lets s1 s2 s3 s4 s5
    have h1 : memWf s1.mem = true := by
      unfold s1
      rwa [State.sampleEnergy_mem]
    have h2 : memWf s2.mem = true := foldl_memWf (fun s p hs => State.snapshot_memWf hs ..) _ h1
    have h4 : memWf s4.mem = true := trace_memWf (State.takeDigest_memWf h2 _) ..
    have h5 : memWf s5.mem = true := by
      unfold s5
      simp [h4]
    simp [h5]

end Sys2Proof.Machine
end

section
/-! Memory stays canonical (O7), part 9: the memory processor, domains, operations that land, slots, thermal states, boot and debug. -/

namespace Sys2Proof.Machine

open Sys2Proof

@[simp] theorem State.respond_mem (s : State) (r : Req) (status size : Nat) (page : Option (Nat × Nat)) : (s.respond r status size page).mem = s.mem := rfl

@[simp] theorem State.takeRequest_memWf {s : State} (h : memWf s.mem = true) (v : W64) : memWf (s.takeRequest v).mem = true := by
  unfold State.takeRequest
  extract_lets h0 f head s1 pa g r s2 s3 s4
  have h1 : memWf s1.mem = true := State.putHeader_memWf h ..
  split
  · exact h
  · split
    · exact h1
    · have h2 : memWf s2.mem = true := State.putHeader_memWf (State.putHeader_memWf h1 ..) ..
      split
      · exact h1
      · split <;> exact h2

@[simp] theorem execMpring_memWf {s : State} (h : memWf s.mem = true) (v : W64) : Out.MemWf (execMpring v s) := by simp [execMpring, h]

@[simp] theorem execNotificationPost_memWf {s : State} (h : memWf s.mem = true) : Out.MemWf (execNotificationPost s) := by
  unfold execNotificationPost
  dsimp only
  repeat' split
  all_goals simp [store_memWf, h]

@[simp] theorem execRequestResponse_memWf {s : State} (h : memWf s.mem = true) (seq : Nat) : Out.MemWf (execRequestResponse seq s) := by
  unfold execRequestResponse
  repeat' split
  all_goals simp [h]

/-- A possible next state has canonical memory. -/
def OptMemWf (o : Option State) : Prop := ∀ t, o = some t → memWf t.mem = true

@[simp] theorem optMemWf_none : OptMemWf none := by simp [OptMemWf]
@[simp] theorem optMemWf_some (t : State) : OptMemWf (some t) ↔ memWf t.mem = true := by simp [OptMemWf]

theorem optMemWf_of_ite {c : Prop} [Decidable c] {a b : Option State} (ha : OptMemWf a) (hb : OptMemWf b) : OptMemWf (if c then a else b) := by
  split
  · exact ha
  · exact hb

/-- A request about a job answers by what it makes of the job, or with an error alone. -/
theorem State.about_memWf {s : State} (h : memWf s.mem = true) (r : Req) {f : Job → Option State} (hf : ∀ j, OptMemWf (f j)) :
    Out.MemWf (s.about r f) := by
  unfold State.about
  split
  · exact h
  · split
    · exact h
    · exact hf _ _ ‹_›

@[simp] theorem State.addChange_mem (s : State) (r : Req) (k : ChangeKind) (va len : Nat) (deadline : Option Nat) : (s.addChange r k va len deadline).mem = s.mem := by simp [State.addChange]

@[simp] theorem execHeap_memWf {s : State} (h : memWf s.mem = true) (r : Req) : Out.MemWf (execHeap r s) := by
  refine State.about_memWf h r fun j => ?_
  extract_lets
  exact optMemWf_of_ite optMemWf_none (optMemWf_of_ite optMemWf_none ((optMemWf_some _).2 h))

@[simp] theorem execMapr_memWf {s : State} (h : memWf s.mem = true) (r : Req) : Out.MemWf (execMapr r s) := by
  refine State.about_memWf h r fun j => ?_
  extract_lets
  exact optMemWf_of_ite optMemWf_none (optMemWf_of_ite optMemWf_none ((optMemWf_some _).2 h))

@[simp] theorem execMapp_memWf {s : State} (h : memWf s.mem = true) (r : Req) : Out.MemWf (execMapp r s) := by
  refine State.about_memWf h r fun j => ?_
  extract_lets size pres attr old rng eff bad l s1 s2
  have h2 : memWf s2.mem = true := by
    unfold s2
    split <;> exact h
  refine optMemWf_of_ite optMemWf_none ?_
  clear_value old
  split
  · exact (optMemWf_some _).2 h2
  · exact optMemWf_of_ite ((optMemWf_some _).2 h2) ((optMemWf_some _).2 (by simpa using h2))

@[simp] theorem execProt_memWf {s : State} (h : memWf s.mem = true) (r : Req) : Out.MemWf (execProt r s) := by
  refine State.about_memWf h r fun j => ?_
  extract_lets new
  split
  · exact optMemWf_none
  · extract_lets rs ls c v j2 rsOk cut
    have hcut : memWf cut.mem = true := h
    exact optMemWf_of_ite optMemWf_none (optMemWf_of_ite ((optMemWf_some _).2 h) ((optMemWf_some _).2 (by simpa using hcut)))

@[simp] theorem execUnmap_memWf {s : State} (h : memWf s.mem = true) (r : Req) : Out.MemWf (execUnmap r s) := by
  refine State.about_memWf h r fun j => ?_
  intro t ht
  obtain ⟨j', -, rfl⟩ := Option.map_eq_some_iff.1 ht
  simpa using h

theorem foldl_freeFrames_mem {α : Type} (pa len : α → Nat) (l : List α) (s : State) : (l.foldl (fun s a => s.freeFrames (pa a) (len a)) s).mem = s.mem := by
  refine foldl_mem ?_ l s
  exact fun _ _ => rfl

@[simp] theorem execRevocationComplete_memWf {s : State} (h : memWf s.mem = true) (seq : Nat) : Out.MemWf (execRevocationComplete seq s) := by
  unfold execRevocationComplete
  split
  · exact h
  · simp [foldl_freeFrames_mem, h]

@[simp] theorem execMigbegin_memWf {s : State} (h : memWf s.mem = true) (r : Req) : Out.MemWf (execMigbegin r s) := by
  refine State.about_memWf h r fun j => ?_
  split
  · exact optMemWf_none
  · exact optMemWf_of_ite optMemWf_none ((optMemWf_some _).2 (by simpa using h))

@[simp] theorem execMigend_memWf {s : State} (h : memWf s.mem = true) (r : Req) : Out.MemWf (execMigend r s) := by
  refine State.about_memWf h r fun j => ?_
  split
  · exact optMemWf_none
  · exact optMemWf_of_ite optMemWf_none ((optMemWf_some _).2 (by simpa using h))

@[simp] theorem execMigwaitExpiry_memWf {s : State} (h : memWf s.mem = true) (seq : Nat) : Out.MemWf (execMigwaitExpiry seq s) := by
  unfold execMigwaitExpiry
  split <;> simp [h]

@[simp] theorem execCntrst_memWf {s : State} (h : memWf s.mem = true) (r : Req) : Out.MemWf (execCntrst r s) := by
  refine State.about_memWf h r fun j => ?_
  exact (optMemWf_some _).2 h

@[simp] theorem execQuery_memWf {s : State} (h : memWf s.mem = true) (r : Req) : Out.MemWf (execQuery r s) := by
  refine State.about_memWf h r fun j => ?_
  split
  · exact optMemWf_none
  · exact (optMemWf_some _).2 h

@[simp] theorem execFrames_memWf {s : State} (h : memWf s.mem = true) (r : Req) : Out.MemWf (execFrames r s) := by simp [execFrames, h]

@[simp] theorem execDeny_memWf {s : State} (h : memWf s.mem = true) (r : Req) : Out.MemWf (execDeny r s) := by
  refine State.about_memWf h r fun j => ?_
  refine (optMemWf_some _).2 ?_
  split <;> simp [h]

@[simp] theorem execDrop_memWf {s : State} (h : memWf s.mem = true) (r : Req) : Out.MemWf (execDrop r s) := by
  unfold execDrop
  dsimp only
  split <;> simp [h]

@[simp] theorem execDropRelocationComplete_memWf {s : State} (h : memWf s.mem = true) : Out.MemWf (execDropRelocationComplete s) := by
  unfold execDropRelocationComplete
  split
  · exact h
  · extract_lets cap base out kept s1 s2
    have h1 : memWf s1.mem = true := memWf_filter h _
    have h2 : s2.mem = s1.mem := by
      refine foldl_mem ?_ _ s1
      exact fun _ _ => rfl
    show memWf s2.mem = true
    rwa [h2]

@[simp] theorem execQuar_memWf {s : State} (h : memWf s.mem = true) (r : Req) : Out.MemWf (execQuar r s) := by
  unfold execQuar
  repeat' split
  all_goals simp [h]

/-- Keys moved by a map that keeps their order. -/
theorem memWf_map_keys {m : List Host.Cell} (h : memWf m = true) {f : Nat → Nat} (hf : ∀ p ∈ m, ∀ q ∈ m, p.1 < q.1 → f p.1 < f q.1) :
    memWf (m.map fun p => (f p.1, p.2)) = true := by
  induction m with
  | nil => rfl
  | cons p r ih =>
    obtain ⟨h1, h2, h3⟩ := (SMap.wf_cons 0 p.1 p.2 r).1 h
    refine (SMap.wf_cons 0 (f p.1) p.2 _).2 ⟨h1, fun q hq => ?_, ih h3 fun a ha b hb => hf a (List.mem_cons_of_mem _ ha) b (List.mem_cons_of_mem _ hb)⟩
    obtain ⟨a, ha, rfl⟩ := List.mem_map.1 hq
    exact hf p List.mem_cons_self a (List.mem_cons_of_mem _ ha) (h2 a ha)

/-- A module's own bytes keep their order under its new ID. -/
@[simp] theorem State.rename_memWf {s : State} (h : memWf s.mem = true) (new : Nat) : memWf (s.rename new).mem = true := by
  unfold State.rename
  extract_lets old mine mv
  split
  · exact h
  · refine memWf_map_keys (f := mv) (memWf_filter h _) fun p hp q hq hlt => ?_
    have hmod : ∀ x ∈ s.mem.filter fun p => mine p.1, x.1 / 2 ^ 44 = old := fun x hx => of_decide_eq_true (List.mem_filter.1 hx).2
    have hp' := hmod p hp
    have hq' := hmod q hq
    show new * 2 ^ 44 + p.1 % 2 ^ 44 < new * 2 ^ 44 + q.1 % 2 ^ 44
    omega

@[simp] theorem execDomain_memWf {s : State} (h : memWf s.mem = true) (modid : Nat) (members : List Nat) : Out.MemWf (execDomain modid members s) := by
  by_cases hid : modid < 256
  · have hexec : execDomain modid members s = .next (s.formed modid members) := exec_domain members s hid
    rw [hexec, Out.memWf_next, State.formed_mem]
    exact State.rename_memWf h modid
  · rw [execDomain, if_pos (by omega)]
    exact h

@[simp] theorem execMapPublication_memWf {s : State} (h : memWf s.mem = true) (m hbmcap : Nat) (mix : List Nat) : Out.MemWf (execMapPublication m hbmcap mix s) := by
  unfold execMapPublication
  split <;> simp [h]

@[simp] theorem execModuleDeparture_memWf {s : State} (h : memWf s.mem = true) (m : Nat) : Out.MemWf (execModuleDeparture m s) := by
  unfold execModuleDeparture
  extract_lets off info hit lost s1 s2 s3
  refine Out.memWf_of_ite h (foldl_memWf (fun s x hs => State.collError_memWf hs ..) lost ?_)
  refine foldl_memWf (fun s f hs => ?_) hit (s := s2) h
  split
  · exact State.collError_memWf hs ..
  · exact hs
  · exact State.charge_memWf hs ..

@[simp] theorem State.freeRegs_mem (s : State) (f : Flight) : (s.freeRegs f).mem = s.mem := by simp [State.freeRegs]

@[simp] theorem State.endFlight_mem (s : State) (f : Flight) : (s.endFlight f).mem = s.mem := by simp [State.endFlight]

theorem State.endFlight_memWf {s : State} (h : memWf s.mem = true) (f : Flight) : memWf (s.endFlight f).mem = true := by
  rwa [State.endFlight_mem]

@[simp] theorem State.retime_mem (s : State) (id t : Nat) (w : Work) : (s.retime id t w).mem = s.mem := rfl

@[simp] theorem State.consumeRuns_memWf {s : State} (h : memWf s.mem = true) (f : Flight) (rs : List Run) : memWf (s.consumeRuns f rs).1.mem = true := by
  induction rs generalizing s with
  | nil => exact h
  | cons r rs ih =>
    unfold State.consumeRuns
    split
    · exact ih h
    · split <;> rename_i heq
      all_goals have hread := memWf_of_fst (State.consume_memWf h ..) heq
      · exact ih hread
      · exact hread

@[simp] theorem State.landCells_memWf {s : State} (h : memWf s.mem = true) (f : Flight) (ws : List Host.Cell) (fins : List Fin) : memWf (s.landCells f ws fins).mem = true := by simp [State.landCells, storeCells_memWf, h]

@[simp] theorem State.failFlight_memWf {s : State} (h : memWf s.mem = true) (f : Flight) (cause : Cause) (info : W64) : memWf (s.failFlight f cause info).mem = true := by simp [State.failFlight, h]

@[simp] theorem State.landLoad_memWf {s : State} (h : memWf s.mem = true) (f : Flight) (runs : List Run) (ovl : List (Nat × Slice)) (start w : Nat) (fs sat : Bool) (n commit : Nat) : memWf (s.landLoad f runs ovl start w fs sat n commit).mem = true := by
  unfold State.landLoad
  split <;> rename_i heq
  all_goals
    have hread := memWf_of_fst (State.consumeRuns_memWf (State.endFlight_memWf h f) ..) heq
    exact hread

@[simp] theorem State.landFill_memWf {s : State} (h : memWf s.mem = true) (f : Flight) (runs : List Run) (ovl : List (Nat × Slice)) (start cnt : Nat) : memWf (s.landFill f runs ovl start cnt).mem = true := by
  unfold State.landFill
  split <;> rename_i heq
  all_goals
    have hread := memWf_of_fst (State.consumeRuns_memWf (State.endFlight_memWf h f) ..) heq
    exact hread

@[simp] theorem State.landVload_memWf {s : State} (h : memWf s.mem = true) (f : Flight) (lanes : List (Nat × Nat)) (start w : Nat) : memWf (s.landVload f lanes start w).mem = true := by
  unfold State.landVload
  split <;> rename_i heq
  all_goals
    have hread := memWf_of_fst (State.consumeRuns_memWf (State.endFlight_memWf h f) ..) heq
    exact hread

@[simp] theorem State.landQdeq_memWf {s : State} (h : memWf s.mem = true) (f : Flight) (ent : Nat) (attr : BitVec 5) (k blk : Nat) (lanes : List Nat) (start w : Nat) (fmt : BitVec 3) (rm : Nat) (sat : Bool) (seed ctr : W64) (commit : Nat) : memWf (s.landQdeq f ent attr k blk lanes start w fmt rm sat seed ctr commit).mem = true := by
  unfold State.landQdeq
  extract_lets n spans
  split <;> rename_i heq
  all_goals
    have hread := memWf_of_fst (State.consumeRuns_memWf (State.endFlight_memWf h f) ..) heq
    exact hread

@[simp] theorem State.landPlane_memWf {s : State} (h : memWf s.mem = true) (f : Flight) (pl : Bool) (pa lo size next : Nat) (img : List Byte)
    (fins : List Fin) : memWf (s.landPlane f pl pa lo size next img fins).mem = true := by
  unfold State.landPlane
  extract_lets n
  split <;> rename_i heq
  all_goals have hread := memWf_of_fst (State.consumeRuns_memWf h ..) heq
  · exact State.endFlight_memWf hread f
  · exact hread

@[simp] theorem State.landDamax_memWf {s : State} (h : memWf s.mem = true) (f : Flight) (hh last acc start : Nat) :
    memWf (s.landDamax f hh last acc start).mem = true := by
  unfold State.landDamax
  extract_lets bank rows
  split <;> rename_i heq
  all_goals have hread := memWf_of_fst (State.consumeBuf_memWf h ..) heq
  · exact State.endFlight_memWf hread f
  · dsimp only
    split
    · exact State.endFlight_memWf hread f
    · exact hread

@[simp] theorem State.landAtomic_memWf {s : State} (h : memWf s.mem = true) (f : Flight) (pa aop : Nat) (s64 : Bool) (x exp start w : Nat) (fs : Bool)
    (pd : Option Nat) : memWf (s.landAtomic f pa aop s64 x exp start w fs pd).mem = true := by
  unfold State.landAtomic
  extract_lets n
  split <;> rename_i heq
  all_goals have hread := memWf_of_fst (State.consumeRuns_memWf (State.endFlight_memWf h f) ..) heq
  · exact hread
  · dsimp only
    split <;> simp [store_memWf, hread]

@[simp] theorem execBankAluAtomic_memWf {s : State} (h : memWf s.mem = true) (id : Nat) : Out.MemWf (execBankAluAtomic id s) := by
  unfold execBankAluAtomic
  repeat' split
  all_goals simp [h]

@[simp] theorem State.lateStart_memWf {s : State} (h : memWf s.mem = true) (f : Flight) (busy : Bool) : memWf (s.lateStart f busy).mem = true := by simp [State.lateStart, h]

@[simp] theorem State.endBeats_memWf {s : State} (h : memWf s.mem = true) (f : Flight) (fins : List Fin) : memWf (s.endBeats f fins).mem = true := by simp [State.endBeats, h]

@[simp] theorem State.landBeats_memWf {s : State} (h : memWf s.mem = true) (f : Flight) (op : Nat) (own : Option (Nat × Nat)) (off n : Nat) (out : Bool) (fins : List Fin) : memWf (s.landBeats f op own off n out fins).mem = true := by
  unfold State.landBeats
  dsimp only
  repeat' split
  all_goals simp [h]

/-- An arrival lands on the barrier object, unless its read of the object meets an error. -/
theorem State.landArrive_memWf {s : State} (h : memWf s.mem = true) (f : Flight) (pa : Nat) (n : Int) {p : State × Bool}
    (hp : (s.endFlight f).consumeRuns f [{ va := 0, pa := pa, len := 16 }] = p) : memWf p.1.mem = true ∧ memWf (p.1.arrive pa n).mem = true := by
  subst hp
  have hread := State.consumeRuns_memWf (State.endFlight_memWf h f) f [{ va := 0, pa := pa, len := 16 }]
  exact ⟨hread, State.arrive_memWf hread ..⟩

@[simp] theorem execMemoryEffectCommit_memWf {s : State} (h : memWf s.mem = true) (id : Nat) : Out.MemWf (execMemoryEffectCommit id s) := by
  unfold execMemoryEffectCommit
  split
  · exact h
  · split
    · simp [h]
    · split
      case h_10 =>
        rw [Out.memWf_next]
        split <;> rename_i heq
        · exact (State.landArrive_memWf h _ _ _ heq).2
        · exact (State.landArrive_memWf h _ _ 0 heq).1
      all_goals simp [storeNibs_memWf, h]

@[simp] theorem State.landTransfer_memWf {s : State} (h : memWf s.mem = true) (f : Flight) (src : List Run) (img : List Byte) (dst : List Run)
    (fins : List Fin) : memWf (s.landTransfer f src img dst fins).mem = true := by
  unfold State.landTransfer
  split <;> rename_i heq
  all_goals have hread := memWf_of_fst (State.consumeRuns_memWf h ..) heq
  · exact storeCells_memWf (State.endFlight_memWf hread f) _
  · simp [storeCells_memWf, hread]

@[simp] theorem execTransferCommit_memWf {s : State} (h : memWf s.mem = true) (id : Nat) : Out.MemWf (execTransferCommit id s) := by
  unfold execTransferCommit
  repeat' split
  all_goals simp [storeCells_memWf, h]

@[simp] theorem execAsyncCompletion_memWf {s : State} (h : memWf s.mem = true) (id : Nat) : Out.MemWf (execAsyncCompletion id s) := by
  unfold execAsyncCompletion
  split <;> simp [h]

@[simp] theorem execOpenTimeLanding_memWf {s : State} (h : memWf s.mem = true) (id : Nat) : Out.MemWf (execOpenTimeLanding id s) := by
  unfold execOpenTimeLanding
  split
  · exact h
  · split
    · simp [h]
    · split
      case h_8 =>
        rw [Out.memWf_next]
        split <;> rename_i heq
        · exact (State.landArrive_memWf h _ _ _ heq).2
        · exact (State.landArrive_memWf h _ _ 0 heq).1
      all_goals simp [storeNibs_memWf, storeCells_memWf, h]

@[simp] theorem execLateAccessComplete_memWf {s : State} (h : memWf s.mem = true) (id : Nat) : Out.MemWf (execLateAccessComplete id s) := by
  unfold execLateAccessComplete
  split <;> simp [h]

@[simp] theorem execTranslationCacheFill_memWf {s : State} (h : memWf s.mem = true) (id : Nat) : Out.MemWf (execTranslationCacheFill id s) := by
  unfold execTranslationCacheFill
  repeat' split
  all_goals simp [h]

@[simp] theorem execLinkCrcFailure_memWf {s : State} (h : memWf s.mem = true) (id sender receiver : Nat) : Out.MemWf (execLinkCrcFailure id sender receiver s) := by
  unfold execLinkCrcFailure
  split <;> simp [h]

@[simp] theorem execFlitReplay_memWf {s : State} (h : memWf s.mem = true) (id failures source : Nat) : Out.MemWf (execFlitReplay id failures source s) := by
  unfold execFlitReplay
  repeat' split
  all_goals simp [h]

@[simp] theorem execSegmentReentry_memWf {s : State} (h : memWf s.mem = true) (g : Nat) : Out.MemWf (execSegmentReentry g s) := by
  unfold execSegmentReentry
  repeat' split
  all_goals simp [h]

@[simp] theorem execWaitLimitFault_memWf {s : State} (h : memWf s.mem = true) (core : Nat) : Out.MemWf (execWaitLimitFault core s) := by
  refine foldl_memWf (fun s t hs => ?_) _ h
  exact State.charge_memWf (s := s.modEngine core t fun e => { e with since := none }) hs ..

@[simp] theorem State.claimSlot_memWf {s : State} (h : memWf s.mem = true) (src : Nat) (p : Group → Bool) : memWf (s.claimSlot src p).mem = true := by
  refine foldl_memWf (fun s g hs => ?_) _ h
  split
  · exact State.claim_memWf hs ..
  · exact hs

@[simp] theorem State.scrub_mem (s : State) : (s.scrub).mem = s.mem := by simp [State.scrub]

@[simp] theorem execPatrolScrubSlot_memWf {s : State} (h : memWf s.mem = true) : Out.MemWf (execPatrolScrubSlot s) := by
  unfold execPatrolScrubSlot
  split <;> simp [h]

@[simp] theorem State.startSweep_mem (s : State) : (s.startSweep).mem = s.mem := rfl

@[simp] theorem execPatrolSweepStart_memWf {s : State} (h : memWf s.mem = true) : Out.MemWf (execPatrolSweepStart s) := by simp [execPatrolSweepStart, h]

@[simp] theorem execRefreshSlot_memWf {s : State} (h : memWf s.mem = true) : Out.MemWf (execRefreshSlot s) := by
  unfold execRefreshSlot
  split <;> simp [h]

@[simp] theorem execBankedSlot_memWf {s : State} (h : memWf s.mem = true) : Out.MemWf (execBankedSlot s) := by simp [execBankedSlot, h]

@[simp] theorem execPauseClaimExpiry_memWf {s : State} (h : memWf s.mem = true) (g src : Nat) : Out.MemWf (execPauseClaimExpiry g src s) := by
  unfold execPauseClaimExpiry
  repeat' split
  all_goals simp [trace_memWf, h]

@[simp] theorem execSagCheck_memWf {s : State} (h : memWf s.mem = true) : Out.MemWf (execSagCheck s) := by
  unfold execSagCheck
  extract_lets all hit s1
  have h1 : memWf s1.mem = true := foldl_memWf (fun s g hs => State.claim_memWf hs ..) hit h
  exact h1

@[simp] theorem State.silentDies_mem (s : State) : s.silentDies.mem = s.mem := by
  refine foldl_mem ?_ _ s
  exact fun _ _ => rfl

/-- Memory is empty after a reset. -/
theorem execSupplyReset_memWf (s : State) : Out.MemWf (execSupplyReset s) := by
  have hreset : memWf State.reset.mem = true := rfl
  unfold execSupplyReset
  rw [Out.memWf_next, State.silentDies_mem]
  exact hreset

@[simp] theorem State.shiftTills_mem (s : State) (n : ℤ) : (s.shiftTills n).mem = s.mem := rfl

@[simp] theorem execSlewStep_memWf {s : State} (h : memWf s.mem = true) : Out.MemWf (execSlewStep s) := by simp [execSlewStep, h]

@[simp] theorem execTimeSyncExchange_memWf {s : State} (h : memWf s.mem = true) (offset : Option ℤ) : Out.MemWf (execTimeSyncExchange offset s) := by
  unfold execTimeSyncExchange
  split
  · exact h
  · extract_lets w
    rw [Out.memWf_next]
    exact h

@[simp] theorem State.putField_mem (s : State) (off lo n v : Nat) : (s.putField off lo n v).mem = s.mem := rfl

@[simp] theorem State.thermFlag_mem (s : State) (bit : Nat) (b : Bool) : (s.thermFlag bit b).mem = s.mem := by simp [State.thermFlag]

@[simp] theorem State.putHold_mem (s : State) : s.putHold.mem = s.mem := State.putField_mem s 0x100 16 16 _

@[simp] theorem State.sampleSlot_mem (s : State) (slot : Nat) : (s.sampleSlot slot).mem = s.mem := by simp [State.sampleSlot]

@[simp] theorem State.sampleAll_mem (s : State) : s.sampleAll.mem = s.mem := by simp [State.sampleAll]

@[simp] theorem State.enter_mem (s : State) (n : Nat) : (s.enter n).mem = s.mem := (State.putHold_mem _).trans (State.putField_mem s 0x100 0 4 n)

@[simp] theorem State.dropHbm_mem (s : State) : (s.dropHbm).mem = s.mem := rfl

@[simp] theorem State.enterWarmOff_mem (s : State) : s.enterWarmOff.mem = s.mem := by
  unfold State.enterWarmOff
  extract_lets s1
  have h1 : s1.mem = s.mem := State.enter_mem s 0
  split
  · exact h1
  · exact (State.dropHbm_mem s1).trans h1

@[simp] theorem State.initHbm_memWf {s : State} (h : memWf s.mem = true) : memWf s.initHbm.mem = true := memWf_filter h _

@[simp] theorem State.powerDies_memWf {s : State} (h : memWf s.mem = true) : memWf s.powerDies.mem = true := memWf_filter h _

@[simp] theorem State.quench_memWf {s : State} (h : memWf s.mem = true) : memWf s.quench.mem = true := by
  unfold State.quench
  extract_lets s1 s2 s3 s4
  have h2 : memWf s2.mem = true := State.powerDies_memWf (s := s1) (by simpa [s1] using h)
  have h3 : memWf s3.mem = true := foldl_memWf (fun s d hs => State.changeStatus_memWf hs ..) _ h2
  rw [State.startSweep_mem]
  unfold s4
  split
  · exact h3
  · exact State.initHbm_memWf h3

@[simp] theorem State.enterRun_mem (s : State) : s.enterRun.mem = s.mem := by simp [State.enterRun]

@[simp] theorem State.enterStopping_mem (s : State) : (s.enterStopping).mem = s.mem := by simp [State.enterStopping]

@[simp] theorem State.burnGroups_memWf {s : State} (h : memWf s.mem = true) : memWf s.burnGroups.mem = true := by
  refine foldl_memWf (fun s g hs => ?_) _ h
  split <;> simp [hs]

@[simp] theorem State.thermStep_mem (s : State) : s.thermStep.mem = s.mem := by
  unfold State.thermStep
  extract_lets good s1
  split
  · split
    · exact (State.putHold_mem _).trans (State.enter_mem s 3)
    · rfl
  · repeat' split
    · exact State.enter_mem ..
    · rfl
    · rfl
  · repeat' split
    · exact State.enterStopping_mem s
    · exact State.enterRun_mem s
    · rfl
  · repeat' split
    · exact State.enterStopping_mem s
    · exact State.enter_mem ..
    · rfl
  · repeat' split
    · exact State.enterStopping_mem s
    · exact State.enter_mem ..
    · rfl
  · split
    · exact State.enterWarmOff_mem s
    · rfl
  · rfl

@[simp] theorem execThermalSample_memWf {s : State} (h : memWf s.mem = true) : Out.MemWf (execThermalSample s) := by
  unfold execThermalSample
  extract_lets s1 s2 s3
  have h3 : memWf s3.mem = true := by
    rw [State.thermStep_mem, State.thermFlag_mem, State.sampleAll_mem]
    exact h
  rw [Out.memWf_next, State.putHold_mem]
  split
  · exact State.burnGroups_memWf h3
  · exact h3

@[simp] theorem execPurgeComplete_memWf {s : State} (h : memWf s.mem = true) : Out.MemWf (execPurgeComplete s) := by simp [execPurgeComplete, h]

@[simp] theorem execPurgeTimeout_memWf {s : State} (h : memWf s.mem = true) : Out.MemWf (execPurgeTimeout s) := by simp [execPurgeTimeout, h]

@[simp] theorem execSoakComplete_memWf {s : State} (h : memWf s.mem = true) : Out.MemWf (execSoakComplete s) := by
  unfold execSoakComplete
  split <;> simp [h]

@[simp] theorem execStoppingComplete_memWf {s : State} (h : memWf s.mem = true) : Out.MemWf (execStoppingComplete s) := by simp [execStoppingComplete, h]

@[simp] theorem execStopwaitExpiry_memWf {s : State} (h : memWf s.mem = true) : Out.MemWf (execStopwaitExpiry s) := by simp [execStopwaitExpiry, h]

@[simp] theorem execHumokChange_memWf {s : State} (h : memWf s.mem = true) (ok : Bool) : Out.MemWf (execHumokChange ok s) := by
  unfold execHumokChange
  extract_lets was s1
  have h1 : memWf s1.mem = true := by rwa [State.putField_mem]
  rw [Out.memWf_next]
  split
  · rw [State.putHold_mem]
    exact h1
  · exact h1

@[simp] theorem State.putCmd_mem (s : State) (c : Nat) : (s.putCmd c).mem = s.mem := rfl

@[simp] theorem State.cmdErr_mem (s : State) : s.cmdErr.mem = s.mem := by simp [State.cmdErr]

@[simp] theorem execCool_memWf {s : State} (h : memWf s.mem = true) : Out.MemWf (execCool s) := by
  unfold execCool
  extract_lets s1 s2
  have h1 : memWf s1.mem = true := by rwa [State.putCmd_mem]
  rw [Out.memWf_next]
  split
  · rw [State.putHold_mem]
    show memWf (s1.enter 1).mem = true
    rwa [State.enter_mem]
  · rwa [State.enter_mem]
  · rwa [State.cmdErr_mem]

@[simp] theorem execRun_memWf {s : State} (h : memWf s.mem = true) : Out.MemWf (execRun s) := by simp [execRun, h]

@[simp] theorem execWarm_memWf {s : State} (h : memWf s.mem = true) : Out.MemWf (execWarm s) := by
  unfold execWarm
  dsimp only
  split <;> simp [h]

@[simp] theorem execSelftest_memWf {s : State} (h : memWf s.mem = true) (failed : List Nat) : Out.MemWf (execSelftest failed s) := by
  unfold execSelftest
  extract_lets s1
  rw [Out.memWf_next]
  split
  · exact foldl_memWf (fun s d hs => State.changeStatus_memWf hs ..) failed (s := s1) h
  · simpa [s1] using h

@[simp] theorem State.put32_mem (s : State) (off : Nat) (bs : List Byte) : (s.put32 off bs).mem = s.mem := by
  refine foldl_mem ?_ _ s
  exact fun _ _ => rfl

@[simp] theorem State.extend_mem (s : State) (i : Nat) (d : List Byte) : (s.extend i d).mem = s.mem := by simp [State.extend]

@[simp] theorem execMeasExtend_memWf {s : State} (h : memWf s.mem = true) : Out.MemWf (execMeasExtend s) := by simp [execMeasExtend, h]

@[simp] theorem State.bootStage_mem (s : State) (n : Nat) : (s.bootStage n).mem = s.mem := rfl

@[simp] theorem State.bootErr_mem (s : State) (e : Nat) : (s.bootErr e).mem = s.mem := rfl

@[simp] theorem State.bootImage_memWf {s : State} (h : memWf s.mem = true) (img : List Byte) : memWf (s.bootImage img).mem = true := by
  unfold State.bootImage
  dsimp only
  split
  · exact h
  · split <;> simp [memWf_filter, h]

@[simp] theorem execPowerOn_memWf {s : State} (h : memWf s.mem = true) : Out.MemWf (execPowerOn s) := by
  unfold execPowerOn
  dsimp only
  split <;> simp [h]

@[simp] theorem execBootstReady_memWf {s : State} (h : memWf s.mem = true) : Out.MemWf (execBootstReady s) := by simp [execBootstReady, h]

@[simp] theorem execSvnfuse_memWf {s : State} (h : memWf s.mem = true) (v : W64) : Out.MemWf (execSvnfuse v s) := by simp [execSvnfuse, h]

@[simp] theorem State.send_mem (s : State) (typ seq : Nat) (body : List Byte) : (s.send typ seq body).mem = s.mem := rfl

@[simp] theorem State.toFirmware_mem (s : State) (typ : Nat) (m : Msg) : (s.toFirmware typ m).mem = s.mem := rfl

@[simp] theorem execHealth_memWf {s : State} (h : memWf s.mem = true) (m : Msg) : Out.MemWf (execHealth m s) := by simp [execHealth, h]

@[simp] theorem execThermal_memWf {s : State} (h : memWf s.mem = true) (m : Msg) : Out.MemWf (execThermal m s) := by simp [execThermal, h]

@[simp] theorem execThermalReport_memWf {s : State} (h : memWf s.mem = true) : Out.MemWf (execThermalReport s) := by simp [execThermalReport, h]

@[simp] theorem execAttest_memWf {s : State} (h : memWf s.mem = true) (m : Msg) : Out.MemWf (execAttest m s) := by simp [execAttest, h]

@[simp] theorem execFwimage_memWf {s : State} (h : memWf s.mem = true) (m : Msg) : Out.MemWf (execFwimage m s) := by
  unfold execFwimage
  dsimp only
  repeat' split
  all_goals simp [h]

@[simp] theorem execCommand_memWf {s : State} (h : memWf s.mem = true) (m : Msg) : Out.MemWf (execCommand m s) := by simp [execCommand, h]

@[simp] theorem State.dbgCmd_mem (s : State) (g c : Nat) : (s.dbgCmd g c).mem = s.mem := rfl

@[simp] theorem State.dbgErr_mem (s : State) (g : Nat) : (s.dbgErr g).mem = s.mem := rfl

@[simp] theorem State.dbgResume_memWf {s : State} (h : memWf s.mem = true) (x : Group) : memWf (s.dbgResume x).mem = true := by simp [State.dbgResume, trace_memWf, h]

@[simp] theorem execStop_memWf {s : State} (h : memWf s.mem = true) (g : Nat) : Out.MemWf (execStop g s) := by
  unfold execStop
  dsimp only
  split <;> simp [h]

@[simp] theorem execDebugRun_memWf {s : State} (h : memWf s.mem = true) (g : Nat) : Out.MemWf (execDebugRun g s) := by
  unfold execDebugRun
  dsimp only
  split <;> simp [h]

@[simp] theorem execStep_memWf {s : State} (h : memWf s.mem = true) (g : Nat) : Out.MemWf (execStep g s) := by
  unfold execStep
  dsimp only
  split <;> simp [h]

@[simp] theorem execRevstep_memWf {s : State} (h : memWf s.mem = true) (g : Nat) : Out.MemWf (execRevstep g s) := by
  unfold execRevstep
  dsimp only
  repeat' split
  all_goals simp [h]

@[simp] theorem execSnap_memWf {s : State} (h : memWf s.mem = true) (g : Nat) : Out.MemWf (execSnap g s) := by
  unfold execSnap
  dsimp only
  repeat' split
  all_goals simp [storeCells_memWf, h]

@[simp] theorem execRegisterWrite_memWf {s : State} (h : memWf s.mem = true) (off : Nat) (v : W64) : Out.MemWf (execRegisterWrite off v s) := by
  unfold execRegisterWrite
  split <;> simp [h]

end Sys2Proof.Machine
end

section
/-! Memory stays canonical (O7), part 10: every row of the table. -/

namespace Sys2Proof.Machine

open Sys2Proof

theorem execNop_memWf {s : State} (h : memWf s.mem = true) (n : BitVec 9) : Out.MemWf (execNop n s) :=
  issueIf_memWf h fun _ _ hs => hs

theorem execSlipw_memWf {s : State} (h : memWf s.mem = true) : Out.MemWf (execSlipw s) :=
  join_memWf h fun _ hs => State.joinIssue_memWf hs ..

theorem execSegOpen_memWf {s : State} (h : memWf s.mem = true) (d : BitVec 28) : Out.MemWf (execSegOpen d s) := join_memWf h (planSegOpen_keepsMem d)

theorem execSegClose_memWf {s : State} (h : memWf s.mem = true) : Out.MemWf (execSegClose s) := join_memWf h planSegClose_keepsMem

theorem execGbar_memWf {s : State} (h : memWf s.mem = true) (id : BitVec 4) : Out.MemWf (execGbar id s) := join_memWf h (planGbar_keepsMem id)

theorem execHalt_memWf {s : State} (h : memWf s.mem = true) : Out.MemWf (execHalt s) := join_memWf h planHalt_keepsMem

theorem execCkdiv_memWf {s : State} (h : memWf s.mem = true) (d : BitVec 28) : Out.MemWf (execCkdiv d s) := join_memWf h (planCkdiv_keepsMem d)

theorem execBrk_memWf {s : State} (h : memWf s.mem = true) (c : BitVec 8) : Out.MemWf (execBrk c s) :=
  Out.memWf_of_ite (join_memWf h (planBrk_keepsMem c)) (issueIf_memWf h fun _ _ hs => hs)

theorem execPlog_memWf {s : State} (h : memWf s.mem = true) (f : PlogF) : Out.MemWf (execPlog f s) := issue_memWf h fun _ hs => hs

theorem execHint_memWf {s : State} (h : memWf s.mem = true) (f : HintF) : Out.MemWf (execHint f s) := issue_memWf h fun _ hs => hs

theorem execVmov_memWf {s : State} (h : memWf s.mem = true) (f : S2r) : Out.MemWf (execVmov f s) := issue_memWf h (planVe1_keepsMem _ _ _ _ _ _ _ _)

theorem execVbcast_memWf {s : State} (h : memWf s.mem = true) (f : S3) : Out.MemWf (execVbcast f s) := by
  refine issue_memWf h fun s hs => ?_
  exact Plan.memWf_of_ite (planVmove_keepsMem _ _ _ s hs) (planVmove_keepsMem _ _ _ s hs)

theorem execVperm_memWf {s : State} (h : memWf s.mem = true) (f : S3) : Out.MemWf (execVperm f s) := issue_memWf h (planVmove_keepsMem _ _ _)

theorem execVrot_memWf {s : State} (h : memWf s.mem = true) (f : S3) : Out.MemWf (execVrot f s) := issue_memWf h (planVmove_keepsMem _ _ _)

theorem execGbarRelease_memWf {s : State} (h : memWf s.mem = true) (g : Nat) : Out.MemWf (execGbarRelease g s) := by
  unfold execGbarRelease
  repeat' split
  · exact h
  · exact h
  · simp [h]

theorem execGbarTimeout_memWf {s : State} (h : memWf s.mem = true) (g : Nat) : Out.MemWf (execGbarTimeout g s) := by
  unfold execGbarTimeout
  repeat' split
  · exact h
  · exact h
  · exact foldl_memWf (fun s c hs => State.charge_memWf hs ..) _ (s := s.modGroup g _) h

theorem execBeadDeadlock_memWf {s : State} (h : memWf s.mem = true) (core tag : Nat) : Out.MemWf (execBeadDeadlock core tag s) := by
  simp [execBeadDeadlock, h]

theorem exec_memWf {s : State} (h : memWf s.mem = true) (i : Instr) : Out.MemWf (exec i s) := by
  cases i with
  | pbr f => exact issueIf_memWf h fun _ => planPbr_keepsMem _ _
  | br f | brl f => exact issueIf_memWf h fun _ => planBranch_keepsMem _ _ _ _
  | loop f => exact issueIf_memWf h fun _ => planLoop_keepsMem _ _
  | lbrk f => exact issueIf_memWf h fun _ => planLbrk_keepsMem _ _
  | segOpen d => exact execSegOpen_memWf h d
  | segClose => exact execSegClose_memWf h
  | gbar id => exact execGbar_memWf h id
  | halt => exact execHalt_memWf h
  | ckdiv d => exact execCkdiv_memWf h d
  | add f | sub f | mul f | mulh f | divi f | remi f | and f | or f | xor f | andn f | shl f | shr f | rot f | min f | max f | ext f | lea f =>
    exact issue_memWf h (planCe2_keepsMem _ _ _ _)
  | clz f | popc f | mov f => exact issue_memWf h (planCe1_keepsMem _ _)
  | ins f => exact issue_memWf h (planIns_keepsMem _)
  | movi f | segst f | rdtime f | rdreck f | cbqry f => exact issue_memWf h (planWr_keepsMem _ _ _)
  | moviHi f => exact issue_memWf h (planMoviHi_keepsMem _)
  | sel f => exact issue_memWf h (planSel_keepsMem _)
  | cmp f => exact issue_memWf h (planCmp_keepsMem _)
  | pmov f => exact issue_memWf h (planPmov_keepsMem _)
  | setw f => exact issue_memWf h (planSetw_keepsMem _)
  | getw f => exact issue_memWf h (planGetw_keepsMem _)
  | ld f => exact issue_memWf h (planLd_keepsMem _)
  | st f => exact issue_memWf h (planSt_keepsMem _)
  | spill f => exact issue_memWf h (planSpill_keepsMem _)
  | fill f => exact issue_memWf h (planFill_keepsMem _)
  | atom f => exact issue_memWf h (planAtom_keepsMem _)
  | atomn f => exact issue_memWf h (planAtomn_keepsMem _)
  | cas f => exact issue_memWf h (planCas_keepsMem _)
  | fence f => exact issue_memWf h (planFence_keepsMem _)
  | qfence f => exact issue_memWf h (planQfence_keepsMem _)
  | twait f => exact issue_memWf h (planTwait_keepsMem _)
  | tffr f => exact issue_memWf h (planTffr_keepsMem _)
  | tclr f => exact issue_memWf h (planTclr_keepsMem _)
  | bari f => exact issue_memWf h (planBari_keepsMem _)
  | barx f => exact issue_memWf h (planBarx_keepsMem _)
  | bwait f => exact issue_memWf h (planBwait_keepsMem _)
  | trapf f => exact issue_memWf h planTrapf_keepsMem
  | trap f => exact issue_memWf h (planTrap_keepsMem _)
  | mfsr f => exact issue_memWf h (planMfsr_keepsMem _)
  | mtsr f => exact issue_memWf h (planMtsr_keepsMem _)
  | rand f => exact issue_memWf h (planRand_keepsMem _)
  | pace f => exact issue_memWf h (planPace_keepsMem _)
  | cbset f => exact issue_memWf h (planCbset_keepsMem _)
  | cbadv f => exact issue_memWf h (planCbadv_keepsMem _)
  | vadd f | vsub f | vmul f | vmin f | vmax f => exact issue_memWf h (planVe2_keepsMem _ _ _ _)
  | vfma f | vfms f => exact issue_memWf h (planVfma_keepsMem _ _)
  | vabs f | vneg f => exact issue_memWf h (planVabs_keepsMem _ _)
  | vand f | vor f | vxor f => exact issue_memWf h (planVeBits_keepsMem _ _)
  | vshl f | vshr f => exact issue_memWf h (planVeShift_keepsMem _ _)
  | vcmp f => exact issue_memWf h (planVcmp_keepsMem _)
  | vsel f => exact issue_memWf h (planVsel_keepsMem _)
  | vcvt f => exact issue_memWf h (planVcvt_keepsMem _)
  | vshuf f => exact issue_memWf h (planVshuf_keepsMem _)
  | vpack f => exact issue_memWf h (planVpack_keepsMem _)
  | vunpk f => exact issue_memWf h (planVunpk_keepsMem _)
  | vred f => exact issue_memWf h (planVred_keepsMem _)
  | vscan f => exact issue_memWf h (planVscan_keepsMem _)
  | vdot f => exact issue_memWf h (planVdot_keepsMem _)
  | vld f | vst f | vldx f | vstx f => exact issue_memWf h (planVmem_keepsMem _ _ _ _)
  | vldc f | vstc f => exact issue_memWf h (planVcb_keepsMem _ _)
  | viota f => exact issue_memWf h (planViota_keepsMem _)
  | nrsq f | nrcp f | nexp2 f | nlog2 f | nsig f | ntanh f => exact issue_memWf h (planNe_keepsMem _ _ _ _)
  | nmom f => exact issue_memWf h (planNmom_keepsMem _)
  | nnorm f => exact issue_memWf h (planNnorm_keepsMem _)
  | nsoft f => exact issue_memWf h (planNsoft_keepsMem _)
  | qamax f => exact issue_memWf h (planQamax_keepsMem _)
  | qscale f => exact issue_memWf h (planQscale_keepsMem _)
  | qblk f => exact issue_memWf h (planQblk_keepsMem _)
  | qdeq f => exact issue_memWf h (planQdeq_keepsMem _)
  | qsign f => exact issue_memWf h (planQsign_keepsMem _)
  | lds f => exact issue_memWf h (planLds_keepsMem _)
  | ldsc f | ldscl f => exact issue_memWf h (planLdsc_keepsMem _ _)
  | lflip f => exact issue_memWf h planLflip_keepsMem
  | msign f => exact issue_memWf h (planMsign_keepsMem _)
  | mstop f => exact issue_memWf h planMstop_keepsMem
  | mma f => exact issue_memWf h (planMma_keepsMem _)
  | accClr f => exact issue_memWf h (planAccClr_keepsMem _)
  | accSwap f => exact issue_memWf h planAccSwap_keepsMem
  | accRd f => exact issue_memWf h (planAccRd_keepsMem _)
  | accWr f => exact issue_memWf h (planAccWr_keepsMem _)
  | accCarry f => exact issue_memWf h planAccCarry_keepsMem
  | mwait f => exact issue_memWf h (planMwait_keepsMem _)
  | drain f => exact issue_memWf h (planDrain_keepsMem _)
  | dscale f => exact issue_memWf h (planDscale_keepsMem _)
  | damax f => exact issue_memWf h (planDamax_keepsMem _)
  | igen f => exact issue_memWf h (planIgen_keepsMem _)
  | imap f | icmp f => exact issue_memWf h (planIdx_keepsMem _ _ _ _ _ _ _)
  | gath f => exact issue_memWf h (planGath_keepsMem _)
  | scat f => exact issue_memWf h (planScat_keepsMem _)
  | win f => exact issue_memWf h (planWin_keepsMem _)
  | gseg f => exact issue_memWf h (planGseg_keepsMem _)
  | ast f => exact issue_memWf h (planAst_keepsMem _)
  | await f => exact issue_memWf h (planAwait_keepsMem _)
  | hld f => exact issue_memWf h (planHld_keepsMem _)
  | hst f => exact issue_memWf h (planHst_keepsMem _)
  | hpre f => exact issue_memWf h (planHpre_keepsMem _)
  | hzero f => exact issue_memWf h (planHzero_keepsMem _)
  | tcopy f => exact issue_memWf h (planTcopy_keepsMem _)
  | tcvt f => exact issue_memWf h (planTcvt_keepsMem _)
  | push f => exact issue_memWf h (planPush_keepsMem _)
  | pushb f => exact issue_memWf h (planPushb_keepsMem _)
  | copy f | copyb f | copyd f | pull f => exact issue_memWf h (planCopy_keepsMem _ _ _ _ _ _ _)
  | coll f => exact issue_memWf h (planColl_keepsMem _)
  | nop n => exact execNop_memWf h n
  | slipw => exact execSlipw_memWf h
  | brk c => exact execBrk_memWf h c
  | plog f => exact execPlog_memWf h f
  | hint f => exact execHint_memWf h f
  | vmov f => exact execVmov_memWf h f
  | vbcast f => exact execVbcast_memWf h f
  | vperm f => exact execVperm_memWf h f
  | vrot f => exact execVrot_memWf h f
  | gbarRelease g => exact execGbarRelease_memWf h g
  | gbarTimeout g => exact execGbarTimeout_memWf h g
  | beadDeadlock core tag => exact execBeadDeadlock_memWf h core tag
  | waitLimitFault core => exact execWaitLimitFault_memWf h ..
  | planeLoadComplete id => exact execPlaneLoadComplete_memWf h ..
  | nestPassEntry core => exact execNestPassEntry_memWf h ..
  | nestPassCommit id => exact execNestPassCommit_memWf h ..
  | accCarryComplete id => exact execAccCarryComplete_memWf h ..
  | drainRowCommit id => exact execDrainRowCommit_memWf h ..
  | memoryEffectCommit id => exact execMemoryEffectCommit_memWf h ..
  | bankAluAtomic id => exact execBankAluAtomic_memWf h ..
  | transferCommit id => exact execTransferCommit_memWf h ..
  | asyncCompletion id => exact execAsyncCompletion_memWf h ..
  | openTimeLanding id => exact execOpenTimeLanding_memWf h ..
  | lateAccessComplete id => exact execLateAccessComplete_memWf h ..
  | linkCrcFailure id sender receiver => exact execLinkCrcFailure_memWf h ..
  | flitReplay id failures source => exact execFlitReplay_memWf h ..
  | segmentReentry g => exact execSegmentReentry_memWf h ..
  | pauseClaimExpiry g src => exact execPauseClaimExpiry_memWf h ..
  | timeSyncExchange offset => exact execTimeSyncExchange_memWf h ..
  | selftest failed => exact execSelftest_memWf h ..
  | stop g => exact execStop_memWf h ..
  | debugRun g => exact execDebugRun_memWf h ..
  | step g => exact execStep_memWf h ..
  | revstep g => exact execRevstep_memWf h ..
  | snap g => exact execSnap_memWf h ..
  | jcring v => exact execJcring_memWf h ..
  | job e => exact execJob_memWf h ..
  | phase e => exact execPhase_memWf h ..
  | phaseEnd e => exact execPhaseEnd_memWf h ..
  | graph e => exact execGraph_memWf h ..
  | launch e => exact execLaunch_memWf h ..
  | cancel e => exact execCancel_memWf h ..
  | cancelComplete n => exact execCancelComplete_memWf h ..
  | jobDestroy e => exact execJobDestroy_memWf h ..
  | resume e => exact execResume_memWf h ..
  | quota e => exact execQuota_memWf h ..
  | jobEnd e => exact execJobEnd_memWf h ..
  | unitStart graph node u => exact execUnitStart_memWf h ..
  | unitResume graph node u => exact execUnitResume_memWf h ..
  | unitComplete g => exact execUnitComplete_memWf h ..
  | preemption graph node => exact execPreemption_memWf h ..
  | mpring v => exact execMpring_memWf h ..
  | heap r => exact execHeap_memWf h ..
  | mapr r => exact execMapr_memWf h ..
  | mapp r => exact execMapp_memWf h ..
  | prot r => exact execProt_memWf h ..
  | unmap r => exact execUnmap_memWf h ..
  | migbegin r => exact execMigbegin_memWf h ..
  | migend r => exact execMigend_memWf h ..
  | cntrst r => exact execCntrst_memWf h ..
  | query r => exact execQuery_memWf h ..
  | frames r => exact execFrames_memWf h ..
  | deny r => exact execDeny_memWf h ..
  | drop r => exact execDrop_memWf h ..
  | quar r => exact execQuar_memWf h ..
  | migwaitExpiry seq => exact execMigwaitExpiry_memWf h ..
  | revocationComplete seq => exact execRevocationComplete_memWf h ..
  | requestResponse seq => exact execRequestResponse_memWf h ..
  | collContributionArrival c => exact execCollContributionArrival_memWf h ..
  | collResult id => exact execCollResult_memWf h ..
  | moduleDeparture m => exact execModuleDeparture_memWf h ..
  | mapPublication m hbmcap mix => exact execMapPublication_memWf h ..
  | dieFailed slot => exact execDieFailed_memWf h ..
  | health m => exact execHealth_memWf h ..
  | thermal m => exact execThermal_memWf h ..
  | attest m => exact execAttest_memWf h ..
  | fwimage m => exact execFwimage_memWf h ..
  | domain modid members => exact execDomain_memWf h ..
  | command m => exact execCommand_memWf h ..
  | svnfuse v => exact execSvnfuse_memWf h ..
  | registerWrite off v => exact execRegisterWrite_memWf h ..
  | humokChange ok => exact execHumokChange_memWf h ..
  | translationCacheFill id => exact execTranslationCacheFill_memWf h ..
  | accClrComplete id => exact execAccClrComplete_memWf h ..
  | patrolScrubSlot => exact execPatrolScrubSlot_memWf h ..
  | patrolSweepStart => exact execPatrolSweepStart_memWf h ..
  | refreshSlot => exact execRefreshSlot_memWf h ..
  | bankedSlot => exact execBankedSlot_memWf h ..
  | sagCheck => exact execSagCheck_memWf h ..
  | supplyReset => exact execSupplyReset_memWf s
  | slewStep => exact execSlewStep_memWf h ..
  | thermalSample => exact execThermalSample_memWf h ..
  | purgeComplete => exact execPurgeComplete_memWf h ..
  | purgeTimeout => exact execPurgeTimeout_memWf h ..
  | soakComplete => exact execSoakComplete_memWf h ..
  | stoppingComplete => exact execStoppingComplete_memWf h ..
  | stopwaitExpiry => exact execStopwaitExpiry_memWf h ..
  | cool => exact execCool_memWf h ..
  | run => exact execRun_memWf h ..
  | warm => exact execWarm_memWf h ..
  | completionEntryPost => exact execCompletionEntryPost_memWf h ..
  | energySample => exact execEnergySample_memWf h ..
  | dropRelocationComplete => exact execDropRelocationComplete_memWf h ..
  | notificationPost => exact execNotificationPost_memWf h ..
  | errorWindowClear => exact execErrorWindowClear_memWf h ..
  | powerOn => exact execPowerOn_memWf h ..
  | bootstReady => exact execBootstReady_memWf h ..
  | thermalReport => exact execThermalReport_memWf h ..
  | measExtend => exact execMeasExtend_memWf h ..

end Sys2Proof.Machine
end

section
/-! Memory stays canonical (O7), part 11: the parts of a tick, and the step. -/

namespace Sys2Proof.Machine

open Sys2Proof

/-! ### What happens next -/

def Act.MemWf : Act → Prop
  | .exec _ s | .quiet s => memWf s.mem = true

theorem Act.memWf_exec (i : Instr) (s : State) : (Act.exec i s).MemWf ↔ memWf s.mem = true := Iff.rfl
theorem Act.memWf_quiet (s : State) : (Act.quiet s).MemWf ↔ memWf s.mem = true := Iff.rfl

theorem Act.outcome_memWf {a : Act} (h : a.MemWf) : Out.MemWf a.outcome := by
  cases a with
  | exec i s => exact exec_memWf h i
  | quiet s => exact h

@[simp] theorem State.modRace_mem (s : State) (line : Nat) (f : RaceRec → RaceRec) : (s.modRace line f).mem = s.mem := by
  unfold State.modRace
  split <;> rfl

theorem State.takeInput_memWf {s : State} (h : memWf s.mem = true) (x : Input) : (s.takeInput x).MemWf := by
  cases x with
  | bytes pa bs => exact store_memWf h pa bs
  | race m g line k rd atom =>
    rw [State.takeInput, Act.memWf_quiet]
    split
    · exact h
    · rwa [State.modRace_mem]
  | raceEnd m g line rd wr atom =>
    rw [State.takeInput, Act.memWf_quiet]
    split
    · exact h
    · rwa [State.modRace_mem]
  | raceRec line r =>
    rw [State.takeInput, Act.memWf_quiet]
    split <;> exact h
  | _ => exact h

theorem State.takeAt_memWf {s : State} (h : memWf s.mem = true) (i : Nat) : (s.takeAt i).MemWf :=
  State.takeInput_memWf (s := { s with inputs := s.inputs.eraseIdx i }) h _

theorem State.dropClock_mem (s : State) : s.dropClock.mem = s.mem := by
  unfold State.dropClock
  repeat' split
  all_goals rfl

theorem State.actEvents_memWf {s : State} (h : memWf s.mem = true) : s.actEvents.MemWf := by
  unfold State.actEvents
  split
  · exact State.takeAt_memWf h _
  · rw [Act.memWf_quiet]
    show memWf s.dropClock.mem = true
    rwa [State.dropClock_mem]

/-! ### The reckoners -/

@[simp] theorem State.makeAdds_mem (s : State) (c t : Nat) : (s.makeAdds c t).mem = s.mem := by
  unfold State.makeAdds
  refine foldl_mem (fun s o => ?_) _ s
  dsimp only
  repeat' split
  all_goals rfl

theorem State.coreTick_memWf {s : State} (h : memWf s.mem = true) (c : Nat) : memWf (s.coreTick c).mem = true := by
  unfold State.coreTick
  extract_lets ts s1 s2 T
  have h1 : memWf s1.mem = true := foldl_memWf (fun s t hs => State.takeHolds_memWf hs c t) ts h
  have h2 : s2.mem = s1.mem := foldl_mem (fun s t => State.makeAdds_mem s c t) ts s1
  rwa [State.modCore_mem, h2]

theorem State.advance_memWf {s : State} (h : memWf s.mem = true) (g : Group) : memWf (s.advance g).mem = true := by
  unfold State.advance
  extract_lets band s1 s2 s3
  have h2 : memWf s2.mem = true := by
    unfold s2
    split
    · exact trace_memWf (s := s1) h ..
    · exact h
  have h3 : memWf s3.mem = true := foldl_memWf (fun s c hs => State.coreTick_memWf hs c) g.cores h2
  split <;> exact h3

theorem State.groupTick_memWf {s : State} (h : memWf s.mem = true) (g : Group) : memWf (s.groupTick g).mem = true := by
  unfold State.groupTick
  extract_lets still
  have hstill : memWf still.mem = true := h
  split
  · exact hstill
  · split
    · exact h
    · split
      · exact State.discharge_memWf (s := s.modGroup g.num _) h ..
      · split
        · exact State.debugStop_memWf hstill ..
        · split
          · exact State.debugStop_memWf (s := still.modEngine _ 0 _) hstill ..
          · exact State.advance_memWf h g

theorem State.actClaims_memWf {s : State} (h : memWf s.mem = true) : s.actClaims.MemWf := by
  unfold State.actClaims
  rw [Act.memWf_quiet]
  refine foldl_memWf (fun s g hs => ?_) s.groups h
  split
  · exact State.groupTick_memWf hs _
  · exact hs

/-! ### Issue and landing -/

theorem State.fetch_memWf {s : State} (h : memWf s.mem = true) : s.fetch.MemWf := by
  unfold State.fetch
  extract_lets c t e ws
  split
  · split
    · exact h
    · exact State.leave_memWf h ..
  · split
    · exact State.raise_memWf (State.unpause_memWf h) ..
    · split
      · exact h
      · exact State.leave_memWf h ..

theorem State.actWork_memWf {s : State} (h : memWf s.mem = true) : s.actWork.MemWf := by
  unfold State.actWork
  split
  · exact State.fetch_memWf (s := { s with cur := _ }) h
  · exact h

theorem State.landFrom_mem (s : State) (f : Flight) : (s.landFrom f).mem = s.mem := by
  unfold State.landFrom
  split
  · exact State.endFlight_mem s f
  · rfl

theorem State.actLand_memWf {s : State} (h : memWf s.mem = true) : s.actLand.MemWf := by
  unfold State.actLand
  split
  · rwa [Act.memWf_exec, State.landFrom_mem]
  · split
    · exact State.takeAt_memWf h _
    · split
      · exact h
      · split
        · exact h
        · split <;> exact h

theorem State.act_memWf {s : State} (h : memWf s.mem = true) : s.act.MemWf := by
  unfold State.act
  split
  · exact h
  · split
    · exact State.actEvents_memWf h
    · exact State.actClaims_memWf h
    · exact State.actWork_memWf h
    · exact State.actLand_memWf h

/-- Settles O7: whatever a step does next, an input, a part of a tick or a row of the table, it leaves memory canonical. -/
theorem memoryStaysCanonical : Obligations.MemoryStaysCanonical := by
  unfold Obligations.MemoryStaysCanonical
  intro s t hs hstep
  have hout : Out.MemWf (step s) := by
    rw [step_eq_outcome]
    exact Act.outcome_memWf (State.act_memWf hs)
  rwa [hstep] at hout

end Sys2Proof.Machine
end

section
/-! Segment state, system registers, time, random bits, pacing and circular-buffer fields from the control engine (O25). -/

namespace Sys2Proof.Machine

open Sys2Proof

/-! ### System registers (R6, R81) -/

/-- An update of every engine that keeps where it stands. -/
theorem Core.walk_mapEngines {k k' : Core} {f : Engine → Engine} (heng : k'.eng = k.eng.map fun p => (p.1, f p.2)) (hf : ∀ e, (f e).walk = e.walk) (u : Nat) :
    (k'.engine u).walk = (k.engine u).walk := by
  rw [Core.engine, Core.engine, heng, SMap.find_map]
  cases SMap.find k.eng u with
  | none => rfl
  | some e => exact hf e

theorem Core.walk_ite {c : Prop} [Decidable c] {a b k : Core} {u : Nat} (ha : (a.engine u).walk = (k.engine u).walk)
    (hb : (b.engine u).walk = (k.engine u).walk) : ((if c then a else b).engine u).walk = (k.engine u).walk := by
  split
  · exact ha
  · exact hb

/-- A write of a system register leaves the engines where they stand; that of a branch target alone changes them at all. -/
@[simp] theorem Core.sysWrite_walk (k : Core) (ct : CoreType) (n : Nat) (v : W64) (tick u : Nat) :
    ((k.sysWrite ct n v tick).engine u).walk = (k.engine u).walk := by
  unfold Core.sysWrite
  repeat' apply Core.walk_ite
  any_goals rfl
  exact Core.walk_mapEngines (f := fun e => { e with pbrAt := SMap.erase e.pbrAt (n - 0xB0) }) rfl (fun _ => rfl) u

theorem Core.sysPost_of_lt {n : Nat} (h : n < 0x80) (k : Core) (ct : CoreType) (v : W64) (C : Nat) :
    k.sysPost ct n v C = { k with sysq := k.sysq ++ [(C, n, v)] } := by
  rw [Core.sysPost, sysNow, if_neg (by simpa using h)]

theorem Core.sysPost_eq (k : Core) (ct : CoreType) (n : Nat) (v : W64) (C : Nat) :
    k.sysPost ct n v C = if n < 0x80 then { k with sysq := k.sysq ++ [(C, n, v)] } else k.sysWrite ct n v C := by
  by_cases h : n < 0x80
  · rw [if_pos h, Core.sysPost_of_lt h]
  · rw [if_neg h, Core.sysPost, sysNow, if_pos (by simpa using h)]

@[simp] theorem Core.sysPost_walk (k : Core) (ct : CoreType) (n : Nat) (v : W64) (C u : Nat) :
    ((k.sysPost ct n v C).engine u).walk = (k.engine u).walk := by
  rw [Core.sysPost_eq]
  split
  · rfl
  · exact Core.sysWrite_walk ..

section
variable {k : Core} {C n : Nat} {v : W64} (hq : k.sysq = [(C, n, v)]) {T : Nat}
include hq

/-- A posted write takes effect from its commit tick on. -/
theorem Core.settleSys_due (h : C ≤ T) (ct : CoreType) : k.settleSys ct T = ({ k with sysq := [] } : Core).sysWrite ct n v C := by
  simp [Core.settleSys, hq, h]

theorem Core.settleSys_early (h : T < C) (ct : CoreType) : k.settleSys ct T = k := by
  have hdue : k.sysq.filter (fun p => decide (p.1 ≤ T)) = [] := by simp [hq, h]
  have hlate : k.sysq.filter (fun p => decide (T < p.1)) = k.sysq := by simp [hq, h]
  rw [Core.settleSys, hdue, hlate, List.foldl_nil]

end

/-! ### Plans -/

theorem State.here_of_rim {s s' : State} (h : s'.rim = s.rim) : s'.here = s.here := by
  rw [State.here, State.here, State.core, State.core, State.rim_cores h, State.rim_cur h]

/-- An access, and an operation put into flight, leave every engine as it is. -/
theorem State.keeps_of_rim {α : Type} {p : Engine → α} {s s' : State} (h : s'.rim = s.rim) : s.Keeps p s' :=
  ⟨State.rim_cur h, fun u => by rw [State.here_of_rim h]⟩

section
variable {i : Instr} {plan : State → Plan} {s : State} {g : Go} (hexec : exec i s = issue s i plan) (hready : Ready s i) (hplan : plan s = .go g)
include hexec hready hplan

/-- An instruction whose effects leave the engine where it stands issues with them. -/
theorem issues_of_keeps {s' : State} (hs : g.s = s') (hkeeps : s.Keeps Engine.walk s') (hj : g.jump = none) : Issues i s s' := by
  subst hs
  obtain ⟨t, ht, hwent⟩ := issue_ready hready hplan hkeeps.1 hkeeps.hereE hj
  exact ⟨_, t, hexec.trans ht, hwent⟩

/-- An instruction that changes nothing issues. -/
theorem issues_same (hs : g.s = s) (hj : g.jump = none) : Issues i s s :=
  issues_of_keeps hexec hready hplan hs (State.Keeps.refl s) hj

end

theorem segstVal_of_mem {s : State} {sel : BitVec 3} {v : Nat}
    (h : (sel, v) ∈ ([(0, s.here.segno.toNat), (1, s.here.reent.toNat), (2, if s.here.inSeg then 1 else 0),
        (3, ((s.groupOf s.cur.core).elim 0 fun g => g.openings) % 2 ^ 32), (4, s.here.egress.length), (5, s.here.deferred.length),
        (6, s.segTick s.cur.core), (7, s.here.seg.elim 0 fun g => g.ix)] : List (BitVec 3 × Nat))) : segstVal s sel.toNat = v := by
  simp only [List.mem_cons, Prod.mk.injEq, List.not_mem_nil, or_false] at h
  rcases h with ⟨rfl, rfl⟩ | ⟨rfl, rfl⟩ | ⟨rfl, rfl⟩ | ⟨rfl, rfl⟩ | ⟨rfl, rfl⟩ | ⟨rfl, rfl⟩ | ⟨rfl, rfl⟩ | ⟨rfl, rfl⟩ <;> rfl

theorem cbqryVal_of_mem {b : Cb} {sel : BitVec 3} {v : Nat}
    (h : (sel, v) ∈ ([(0, if b.configured then b.occ else 0), (1, if b.configured then b.freeEnts else 0), (2, b.prod.toNat), (3, b.cons.toNat), (4, b.ents),
        (5, b.size), (6, b.attr.toNat), (7, b.space * 2 ^ 32 + b.base)] : List (BitVec 3 × Nat))) : cbqryVal b sel.toNat = v := by
  simp only [List.mem_cons, Prod.mk.injEq, List.not_mem_nil, or_false] at h
  rcases h with ⟨rfl, rfl⟩ | ⟨rfl, rfl⟩ | ⟨rfl, rfl⟩ | ⟨rfl, rfl⟩ | ⟨rfl, rfl⟩ | ⟨rfl, rfl⟩ | ⟨rfl, rfl⟩ | ⟨rfl, rfl⟩ <;> rfl

theorem planMfsr_eq {f : MfsrF} {s : State} (hsys : sysOk s.ct f.num.toNat = true) :
    planMfsr f s = planWr f.dst 1 (fun s => (s.sysRead s.cur.core f.num.toNat).toNat) s := by
  rw [planMfsr, if_neg (by simp [hsys])]

theorem planRand_regs {f : RandF} {s : State} (hdst : s.here.slotOk s.cur.tag f.dst = true) (hc : s.here.srcOk s.cur.tag false f.c = true)
    (hq : s.here.srcOk s.cur.tag true f.q = true) :
    planRand f s = .regs s 4 fun k =>
      ((k.holdLatch s.cur.tag false f.c (k.ctlVal s.cur.tag false f.c) (k.srcW s.cur.tag false f.dst.w f.c)).holdLatch s.cur.tag true f.q
        (k.ctlVal s.cur.tag true f.q) (k.srcW s.cur.tag true f.dst.w f.q)).wrSlot s.cur.tag f.dst
          (randVal k.seed (k.ctlVal s.cur.tag true f.q) (k.ctlVal s.cur.tag false f.c) f.dst.bits) := by
  rw [planRand, if_neg (by simp [hdst, hc, hq])]

section
variable {f : MtsrF} {s : State} (hsys : sysOk s.ct f.num.toNat = true) (hsrc : s.here.srcOk s.cur.tag false f.src = true)
include hsys hsrc

theorem planMtsr_seamOnly (hseg : s.here.inSeg = true) (hseam : seamOnly f.num.toNat = true) : planMtsr f s = .fault s .segmentLegality := by
  rw [planMtsr, if_neg (by simp [hsys]), if_neg (by simp [hsrc]), if_pos ⟨hseg, hseam⟩]

theorem planMtsr_regs (h : s.here.inSeg = false ∨ seamOnly f.num.toNat = false) :
    planMtsr f s = .regs s 1 fun k =>
      (k.holdLatch s.cur.tag false f.src (k.ctlVal s.cur.tag false f.src) (k.srcW s.cur.tag false 4 f.src)).sysPost s.ct f.num.toNat
        (BitVec.ofNat 64 (s.here.ctlVal s.cur.tag false f.src)) (s.now + s.d) := by
  have hfree : ¬(s.here.inSeg = true ∧ seamOnly f.num.toNat = true) := by
    rintro ⟨hseg, hseam⟩
    rcases h with h | h
    · simp [hseg] at h
    · simp [hseam] at h
  rw [planMtsr, if_neg (by simp [hsys]), if_neg (by simp [hsrc]), if_neg hfree]

end

/-- PACE with field `t` set to `v`, written at the commit tick. -/
def State.pacing (s : State) (f : PaceF) (v : Nat) : Plan :=
  .regs s 1 fun k => k.sysPost s.ct 0x14
    (BitVec.ofNat 64 (k.pacer.toNat - bitsN k.pacer.toNat (8 * f.t.toNat) 8 * 2 ^ (8 * f.t.toNat) + v % 256 * 2 ^ (8 * f.t.toNat))) (s.now + s.d)

theorem planPace_noTag {f : PaceF} {s : State} (htag : tagOk s.ct f.t.toNat = false) : planPace f s = .fault s .illegalInstruction := by
  unfold planPace
  extract_lets
  rw [if_pos (by simp [htag])]

theorem planPace_imm {f : PaceF} {s : State} (htag : tagOk s.ct f.t.toNat = true) {v : BitVec 8} (hv : f.arg = .imm v) :
    planPace f s = if s.here.inSeg then .fault s .segmentLegality else s.pacing f v.toNat := by
  unfold planPace
  extract_lets
  rw [if_neg (by simp [htag]), hv]
  rfl

theorem planPace_slot {f : PaceF} {s : State} (htag : tagOk s.ct f.t.toNat = true) {o : Slot} (ho : f.arg = .slot o) (hok : s.here.slotOk s.cur.tag o = true)
    (hw : o.w ≤ 2) : planPace f s = if s.here.inSeg then .fault s .segmentLegality else s.pacing f (s.here.slotVal s.cur.tag o) := by
  unfold planPace
  extract_lets k t
  rw [if_neg (by simp [htag]), ho]
  exact if_neg (by simp [k, t, hok, hw])

theorem issues_pacing {f : PaceF} {s : State} (hready : Ready s (.pace f)) {v : Nat} (hplan : planPace f s = s.pacing f v) :
    Issues (.pace f) s (s.modHere fun k => { k with sysq := k.sysq ++ [(s.now + s.d, 0x14, BitVec.ofNat 64
      (k.pacer.toNat - bitsN k.pacer.toNat (8 * f.t.toNat) 8 * 2 ^ (8 * f.t.toNat) + v % 256 * 2 ^ (8 * f.t.toNat)))] }) :=
  issues_of_regs rfl hready hplan (Core.sysPost_of_lt (by decide) ..) rfl

/-! ### The statement -/

/-- Settles O25: each word that reads a value is a write of that value to its destination; MTSR and PACE post their write, and HINT's plan is empty. That a held
immediate source of MTSR has 4 slices (log 102) is the model's choice, that the free entries which CBQRY reads do not count reservations (log 105) its reading. -/
theorem ceSystemRegisters : Obligations.CeSystemRegisters := by
  unfold Obligations.CeSystemRegisters
  refine ⟨⟨fun f s hready hdst v hv => ?_, fun f s hready hdst => ⟨fun hsys => ?_, fun hsys => ?_⟩,
    fun f s hdst => ⟨fun hready => ?_, fun hready => ?_⟩, fun f s hready hdst hc hq => ?_, fun f s hready hdst v hv => ?_⟩,
    fun f s hready => ⟨fun hsys => ?_, fun hsys hsrc => ⟨fun hseg hseam => ?_, fun hfree => ?_⟩⟩,
    fun k ct T C n v hq => ⟨fun h => Core.settleSys_due hq h ct, fun h => Core.settleSys_early hq h ct⟩,
    fun f s hready => ⟨fun hno => ?_, fun htag h5 h7 => ⟨fun v hv => ⟨fun hseg => ?_, fun hseg => ?_⟩, fun o ho hok hw hseg => ?_⟩⟩, fun f s hready => ?_⟩
  · have hissues := issues_planWr (i := .segst f) (v := fun s => segstVal s f.sel.toNat) rfl hready hdst rfl
    rwa [segstVal_of_mem hv] at hissues
  · exact issues_planWr rfl hready hdst (planMfsr_eq hsys)
  · refine faults_of_plan (plan := planMfsr f) rfl hready rfl (by decide) ?_
    rw [planMfsr, if_pos (by simp [hsys])]
  · exact issues_planWr (v := fun s => s.time) rfl hready hdst rfl
  · exact issues_planWr (v := fun s => s.now) rfl hready hdst rfl
  · exact issues_of_regs rfl hready (planRand_regs hdst hc hq) rfl (by simp)
  · have hissues := issues_planWr (i := .cbqry f) (v := fun s => cbqryVal (s.here.cbOf f.cb.toNat) f.sel.toNat) rfl hready hdst rfl
    rwa [cbqryVal_of_mem hv] at hissues
  · refine faults_of_plan (plan := planMtsr f) rfl hready rfl (by decide) ?_
    rw [planMtsr, if_pos (by simp [hsys])]
  · exact faults_of_plan rfl hready rfl (by decide) (planMtsr_seamOnly hsys hsrc hseg hseam)
  · refine issues_of_regs rfl hready (planMtsr_regs hsys hsrc hfree) (Core.sysPost_eq ..) ?_
    dsimp only
    rw [← Core.sysPost_eq]
    simp
  · exact faults_of_plan rfl hready rfl (by decide) (planPace_noTag (tagOk_eq_false hno))
  · refine faults_of_plan (plan := planPace f) rfl hready rfl (by decide) ?_
    rw [planPace_imm (tagOk_eq_true htag h5 h7) hv, if_pos hseg]
  · refine issues_pacing hready ?_
    rw [planPace_imm (tagOk_eq_true htag h5 h7) hv, if_neg (by simp [hseg])]
  · refine issues_pacing hready ?_
    rw [planPace_slot (tagOk_eq_true htag h5 h7) ho hok hw, if_neg (by simp [hseg])]
  · exact issues_same (plan := fun s => .go { s := s }) rfl hready rfl rfl rfl

end Sys2Proof.Machine
end

section
/-! Completion tags and traps from the control engine: TWAIT, TFFR, TCLR, TRAPF and TRAP (O24). -/

namespace Sys2Proof.Machine

open Sys2Proof

/-! ### Completion tags (R155) -/

theorem Core.clearTags_eq (k : Core) (m T : Nat) :
    k.clearTags m T = { k with sysq := k.sysq ++ [(T + k.div 0, 0x10, BitVec.ofNat 64 m)] } :=
  Core.sysPost_of_lt (by decide) ..

@[simp] theorem Core.clearTags_engine (k : Core) (m T u : Nat) : (k.clearTags m T).engine u = k.engine u := by
  rw [Core.clearTags_eq]
  rfl

theorem lowBit_eq {v i : Nat} (hi : i < 64) (hset : v.testBit i = true) (hlow : ∀ j, j < i → v.testBit j = false) : lowBit v = i := by
  have hfind : (List.range 64).find? (fun i => bitN v i) = some i := by
    rw [List.find?_range_eq_some]
    exact ⟨by rw [bitN_eq_testBit, hset], List.mem_range.2 hi, fun j hj => by rw [bitN_eq_testBit, hlow j hj, Bool.not_false]⟩
  rw [lowBit, hfind, Option.getD_some]

theorem lowBit_zero : lowBit 0 = 64 := by decide

section
variable {f : TwaitF} {s : State} (hm : maskOk s.here s.cur.tag f.m = true)
include hm

theorem planTwait_zero (h : maskVal s.here s.cur.tag f.m = 0) : planTwait f s = .fault s .illegalOperand := by
  rw [planTwait, if_neg (by simp [hm]), if_pos h]

/-- TWAIT goes on when its tags are there. -/
theorem planTwait_go (h : maskVal s.here s.cur.tag f.m ≠ 0) (hgot : if f.all then s.here.tags.toNat &&& maskVal s.here s.cur.tag f.m = maskVal s.here s.cur.tag f.m
      else s.here.tags.toNat &&& maskVal s.here s.cur.tag f.m ≠ 0) :
    planTwait f s = .go { s := if f.clr then s.modHere fun k => k.clearTags (s.here.tags.toNat &&& maskVal s.here s.cur.tag f.m) s.now else s } := by
  rw [planTwait, if_neg (by simp [hm]), if_neg h, if_pos hgot]

end

section
variable {f : TffrF} {s : State} (hdst : s.here.slotOk s.cur.tag f.dst = true) (hk : s.here.slotOk s.cur.tag f.k = true) (hw : 2 ≤ f.dst.w)
include hdst hk hw

theorem planTffr_zero (hwait : f.wait = true) (h : s.here.slotVal s.cur.tag f.k = 0) : planTffr f s = .fault s .illegalOperand := by
  rw [planTffr, if_neg (by simp [hdst, hk, show 1 < f.dst.w from hw]), if_pos ⟨hwait, h⟩]

/-- TFFR writes the index of its lowest tag unless it waits for one. -/
theorem planTffr_regs (h : f.wait = true → s.here.tags.toNat &&& s.here.slotVal s.cur.tag f.k ≠ 0) :
    let got := s.here.tags.toNat &&& s.here.slotVal s.cur.tag f.k
    planTffr f s = .regs s 1 fun k =>
      let k := k.wrSlot s.cur.tag f.dst (lowBit got % 2 ^ f.dst.bits)
      if f.clr then k.clearTags (if got = 0 then 0 else 2 ^ lowBit got) s.now else k := by
  have hmask : ¬(f.wait = true ∧ s.here.slotVal s.cur.tag f.k = 0) := fun ⟨hwait, hzero⟩ => h hwait (by rw [hzero, Nat.and_zero])
  have hgot : ¬(f.wait = true ∧ s.here.tags.toNat &&& s.here.slotVal s.cur.tag f.k = 0) := fun ⟨hwait, hzero⟩ => h hwait hzero
  rw [planTffr, if_neg (by simp [hdst, hk, show 1 < f.dst.w from hw]), if_neg hmask, if_neg hgot]

/-- TFFR with the index `i` of its tag, and the mask `m` that it clears. -/
theorem issues_tffr {i m : Nat} (hready : Ready s (.tffr f)) (h : f.wait = true → s.here.tags.toNat &&& s.here.slotVal s.cur.tag f.k ≠ 0)
    (hi : lowBit (s.here.tags.toNat &&& s.here.slotVal s.cur.tag f.k) = i)
    (hm : (if s.here.tags.toNat &&& s.here.slotVal s.cur.tag f.k = 0 then 0 else 2 ^ i) = m) :
    Issues (.tffr f) s (s.modHere fun k =>
      let k := k.wrSlot s.cur.tag f.dst (i % 2 ^ f.dst.bits)
      if f.clr then { k with sysq := k.sysq ++ [(s.now + s.here.div 0, 0x10, BitVec.ofNat 64 m)] } else k) := by
  have hplan := planTffr_regs hdst hk hw h
  dsimp only at hplan
  rw [hi, hm] at hplan
  refine issues_of_regs rfl hready hplan ?_ ?_
  · dsimp only
    rw [Core.clearTags_eq]
    rfl
  · dsimp only
    cases f.clr <;> rfl

end

theorem planTclr_regs {f : TclrF} {s : State} (hm : maskOk s.here s.cur.tag f.m = true) :
    planTclr f s = .regs s 1 fun k => k.clearTags (maskVal k s.cur.tag f.m) s.now := by
  rw [planTclr, if_neg (by simp [hm])]

theorem Core.sysWrite_tags (k : Core) (ct : CoreType) (v : W64) (tick : Nat) : k.sysWrite ct 0x10 v tick = { k with tags := k.tags &&& ~~~v } := rfl

/-! ### Traps (R159) -/

/-- A plan that raises at issue: a trap in a seam leaves the word, and stops the engine past it (R327). -/
theorem exec_of_bad {i : Instr} {plan : State → Plan} {s : State} {c : Cause} {info : W64} {page : Option Nat} (hexec : exec i s = issue s i plan)
    (hready : Ready s i) (hown : isAll i = false) (hplan : plan s = .bad s c info page) :
    exec i s = .next (if c.cls = 2 ∧ !s.here.inSeg then (s.raise c info page).leave s.cur.core s.cur.tag (encode i).length none
      else s.raise c info page) := by
  have hbad : guarded plan s (s.enabled (guardOf i)) = .bad s c info page := by
    rw [hready.on]
    exact hplan
  have hwaits : s.unpause = s := by
    simp [State.unpause, hready.clear.unpaused]
  rw [hexec, issue_clear hready.clear]
  simp [settle, hbad, hown, hwaits]

section
variable {s : State} (hdone : s.flagsDone = true)
include hdone

theorem planTrapf_clear (hx : s.here.flagsAt s.now &&& s.here.fmask = 0) : planTrapf s = .go { s := s } := by
  rw [planTrapf, if_neg (by simp [hdone])]
  exact if_pos hx

theorem planTrapf_bad (hx : s.here.flagsAt s.now &&& s.here.fmask ≠ 0) (hall : s.here.inSeg = true ∨ s.allDone = true) :
    planTrapf s = .bad s .arithTrap ((s.here.flagsAt s.now &&& s.here.fmask).setWidth 64) none := by
  have hfree : ¬(!s.here.inSeg) = true ∨ ¬(!s.allDone) = true := by simpa using hall
  rw [planTrapf, if_neg (by simp [hdone])]
  exact (if_neg hx).trans (if_neg fun h => hfree.elim (· h.1) (· h.2))

end

theorem planTrap_bad {f : TrapF} {s : State} (hseg : s.here.inSeg = false) (hall : s.allDone = true) :
    planTrap f s = .bad s .systemTrap (f.c.setWidth 64) none := by
  rw [planTrap, if_neg (by simp [hseg]), if_neg (by simp [hall])]

/-! ### The statement -/

/-- Settles O24: the plans of TWAIT, TFFR and TCLR post their clear of TAGS, and those of TRAPF and TRAP raise their trap. That a clear
acts at the commit tick, a cycle on (log 37), and that TRAPF waits for every earlier instruction (log 41), are the model's readings. -/
theorem ceTagsAndTraps : Obligations.CeTagsAndTraps := by
  unfold Obligations.CeTagsAndTraps
  refine ⟨⟨fun f s hready hm => ⟨fun hzero => ?_, fun hm0 hgot => ?_⟩, fun f s hready hdst hk hw => ⟨fun hwait hzero => ?_, fun i hgot hi hset hlow => ?_,
    fun hwait hgot => ?_⟩, fun f s hready hm => ?_, fun k ct T C m hq => ⟨fun h => ?_, fun h => Core.settleSys_early hq h ct⟩⟩,
    fun f s hready hdone => ⟨fun hx => ?_, fun hx hseg => ?_, fun hx hseg hall => ?_⟩,
    fun f s hready => ⟨fun hseg => ?_, fun hseg hall => ?_⟩⟩
  · exact faults_of_plan rfl hready rfl (by decide) (planTwait_zero hm hzero)
  · have hplan := planTwait_go hm hm0 hgot
    cases hclr : f.clr
    · rw [hclr] at hplan
      exact issues_same rfl hready hplan rfl rfl
    · rw [hclr] at hplan
      exact issues_of_regs (lat := 1) rfl hready hplan (Core.clearTags_eq ..) rfl
  · exact faults_of_plan rfl hready rfl (by decide) (planTffr_zero hdst hk hw hwait hzero)
  · exact issues_tffr hdst hk hw hready (fun _ => hgot) (lowBit_eq hi hset hlow) (if_neg hgot)
  · refine issues_tffr hdst hk hw hready (fun h => ?_) (hgot ▸ lowBit_zero) (if_pos hgot)
    simp [hwait] at h
  · exact issues_of_regs rfl hready (planTclr_regs hm) (Core.clearTags_eq ..) rfl
  · exact (Core.settleSys_due hq h ct).trans (Core.sysWrite_tags ..)
  · exact issues_same rfl hready (planTrapf_clear hdone hx) rfl rfl
  · exact (exec_of_bad rfl hready rfl (planTrapf_bad hdone hx (.inl hseg))).trans (by rw [if_neg (by simp [hseg])])
  · exact (exec_of_bad rfl hready rfl (planTrapf_bad hdone hx (.inr hall))).trans (by rw [if_pos ⟨by decide, by simp [hseg]⟩]; rfl)
  · refine faults_of_plan (plan := planTrap f) rfl hready rfl (by decide) ?_
    rw [planTrap, if_pos hseg]
  · exact (exec_of_bad rfl hready rfl (planTrap_bad hseg hall)).trans (by rw [if_pos ⟨by decide, by simp [hseg]⟩]; rfl)

end Sys2Proof.Machine
end

section
/-! BARI, BARX and BWAIT on an object that is in its place (O23). -/

namespace Sys2Proof.Machine

open Sys2Proof

/-- The physical address at which a granted access begins. -/
def Granted.firstPa (g : Granted) : Nat := (g.runs.headD { va := 0, pa := 0, len := 0 }).pa

/-- A named object of one run in its place passes the check of R156. -/
theorem notElsewhere {s : State} {g : Granted} (hone : g.runs.length = 1) (hplace : s.barrierPlace g.firstPa = true) :
    ¬(!s.barrierPlace g.firstPa || decide (g.runs.length ≠ 1)) = true := by
  simp [hone, hplace]

section
variable {s : State} {va : Nat} {u : Use} {g : Granted} (hg : s.access va 16 u none = .ok g) (hone : g.runs.length = 1)
  (hplace : s.barrierPlace g.firstPa = true)
include hg hone hplace

/-- An object in its place is what the instruction names, unless its stamp is checked and differs. -/
theorem State.barrierAt_ok {stamp : Bool} (hstamp : stamp = true → s.stampOk g.firstPa = true)
    (k : Granted → Nat → Plan) : s.barrierAt va u stamp k = k g g.firstPa := by
  have hok : ¬(stamp && !s.stampOk g.firstPa) = true := by
    cases hs : stamp
    · simp
    · simp only [hstamp hs]
      decide
  rw [State.barrierAt, hg]
  exact (if_neg (notElsewhere hone hplace)).trans (if_neg hok)

theorem State.barrierAt_stamp (hstamp : s.stampOk g.firstPa = false) (k : Granted → Nat → Plan) :
    s.barrierAt va u true k = .fault s .segmentLegality := by
  rw [State.barrierAt, hg]
  exact (if_neg (notElsewhere hone hplace)).trans (if_pos (show (true && !s.stampOk g.firstPa) = true by rw [hstamp]; rfl))

end

/-- What BARI and BARX do to the latches: source A is an address (R143). -/
def Core.holdBar (k : Core) (t : Nat) (off : Bool) (f : BarF) : Core := (k.holdSrc t false false 0 f.a).holdSrc t true off 4 f.e

@[simp] theorem Core.holdBar_walk (k : Core) (t : Nat) (off : Bool) (f : BarF) (u : Nat) : ((k.holdBar t off f).engine u).walk = (k.engine u).walk := by
  simp [Core.holdBar]

/-- A barrier-object operation put into progress over a granted access: two cycles on, or at an open-time tick. -/
def State.barring (s : State) (g : Granted) (w : Work) : State := (g.s.launch (if g.lat.isSome then some (s.now + 2 * s.d) else none) false g.runs w).1

theorem State.barring_rim {s : State} {va len : Nat} {u : Use} {fl : Option Nat} {g : Granted} (hg : s.access va len u fl = .ok g) (w : Work) :
    (s.barring g w).rim = s.rim :=
  (State.launch_rim ..).trans (State.access_rim hg)

/-- The bytes of an object that BARI has written as issued: the arrivals `e` that it expects, phase 0, and the stamp of its opening. -/
def State.bariWork (s : State) (pa e : Nat) : Work :=
  .write (cellsAt pa (bariBytes e (if s.here.inSeg then ((s.groupOf s.cur.core).elim 0 fun g => g.openings) % 65535 else 0xFFFF) s.cur.core)) []

section
variable {f : BarF} {s : State} {g : Granted} (ha : s.here.srcOk s.cur.tag false f.a = true) (he : s.here.srcOk s.cur.tag true f.e = true)
  (hone : g.runs.length = 1) (hplace : s.barrierPlace g.firstPa = true)
include ha he hone hplace

theorem planBari_go (hlo : 0 < s.here.ctlVal s.cur.tag true f.e) (hhi : s.here.ctlVal s.cur.tag true f.e < 2 ^ 32)
    (hg : s.access (s.here.addr s.cur.tag false f.a) 16 useWrite none = .ok g) :
    ∃ x : Go, planBari f s = .go x ∧ x.s = (s.barring g (s.bariWork g.firstPa
      (s.here.ctlVal s.cur.tag true f.e))).modHere (fun k => k.holdBar s.cur.tag false f) ∧ x.jump = none := by
  have hcount : ¬(s.here.ctlVal s.cur.tag true f.e = 0 ∨ 2 ^ 32 ≤ s.here.ctlVal s.cur.tag true f.e) := by omega
  unfold planBari
  extract_lets k t e
  rw [if_neg (by simp [k, t, ha, he]), if_neg hcount, State.barrierAt_ok hg hone hplace (fun h => by simp at h)]
  exact ⟨_, rfl, rfl, rfl⟩

section
variable (hg : s.access (s.here.addr s.cur.tag false f.a) 16 { useWrite with rd := true } none = .ok g)
include hg

theorem planBarx_go (hstamp : s.stampOk g.firstPa = true) :
    ∃ x : Go, planBarx f s = .go x ∧ x.s = (s.barring g (.arrive g.firstPa
      (s.here.offVal s.cur.tag true f.e))).modHere (fun k => k.holdBar s.cur.tag true f) ∧ x.jump = none := by
  unfold planBarx
  extract_lets k t
  rw [if_neg (by simp [k, t, ha, he]), State.barrierAt_ok hg hone hplace fun _ => hstamp]
  exact ⟨_, rfl, rfl, rfl⟩

theorem planBarx_stamp (hstamp : s.stampOk g.firstPa = false) : planBarx f s = .fault s .segmentLegality := by
  unfold planBarx
  extract_lets k t
  rw [if_neg (by simp [k, t, ha, he]), State.barrierAt_stamp hg hone hplace hstamp]

end

end

/-- BWAIT goes on when the phase differs from its own. -/
theorem planBwait_go {f : BwaitF} {s : State} {g : Granted} (ha : s.here.slotOk s.cur.tag f.a = true)
    (hp : ∀ o, f.psrc = some o → s.here.slotOk s.cur.tag o = true) (hg : s.access (s.here.slotVal s.cur.tag f.a % 2 ^ 56) 16 useRead none = .ok g)
    (hone : g.runs.length = 1) (hplace : s.barrierPlace g.firstPa = true)
    (hstamp : s.stampOk g.firstPa = true) (hopen : g.lat = none → s.here.inFixed = false)
    (hpending : s.bariPending g.firstPa = false)
    (hphase : (rdLe s.memAhead (g.firstPa + 8) 1).testBit 0 ≠
      f.psrc.elim f.p fun o => (s.here.slotVal s.cur.tag o).testBit 0) : planBwait f s = .go { s := g.s } := by
  have hgo : ¬(s.bariPending g.firstPa = true ∨
      bitN (rdLe s.memAhead (g.firstPa + 8) 1) 0 = f.psrc.elim f.p fun o => bitN (s.here.slotVal s.cur.tag o) 0) := by
    simp only [bitN_eq_testBit]
    rintro (h | h)
    · exact Bool.false_ne_true (hpending.symm.trans h)
    · exact hphase h
  have hfixed : ¬s.openFault g.lat = true := by rw [openFault_eq_false hopen]; decide
  unfold planBwait
  cases hsrc : f.psrc with
  | none =>
    rw [hsrc] at hgo
    extract_lets k t ok
    rw [State.barrierAt_ok hg hone hplace fun _ => hstamp]
    exact (if_neg (by simp [k, t, ok, ha])).trans ((if_neg hfixed).trans (if_neg hgo))
  | some o =>
    rw [hsrc] at hgo
    extract_lets k t ok
    rw [State.barrierAt_ok hg hone hplace fun _ => hstamp]
    exact (if_neg (by simp [k, t, ok, ha, hp o hsrc])).trans ((if_neg hfixed).trans (if_neg hgo))

/-- Settles O23: on an object in its place BARI and BARX put their operation into progress, and BWAIT goes on. That the stamp and the phase are those of the
object with an issued BARI counted in (log 97) is the model's reading, and that a held immediate has 4 slices (log 102) its choice. -/
theorem ceBarrierObjects : Obligations.CeBarrierObjects := by
  refine ⟨fun f s g hready ha he hlo hhi hg hone hplace => ?_, fun f s g hready ha he hg hone hplace => ⟨fun hstamp => ?_, fun hstamp => ?_⟩,
    fun f s g hready ha hp hg hone hplace hstamp hopen hpending hphase => ?_⟩
  · obtain ⟨x, hx, hs, hj⟩ := planBari_go ha he hone hplace hlo hhi hg
    exact issues_of_go rfl hready hx hs (State.barring_rim hg _) (Core.holdBar_walk ..) hj
  · obtain ⟨x, hx, hs, hj⟩ := planBarx_go ha he hone hplace hg hstamp
    exact issues_of_go rfl hready hx hs (State.barring_rim hg _) (Core.holdBar_walk ..) hj
  · exact faults_of_plan rfl hready rfl (by decide) (planBarx_stamp ha he hone hplace hg hstamp)
  · exact issues_of_keeps rfl hready (planBwait_go ha hp hg hone hplace hstamp hopen hpending hphase) rfl (State.keeps_of_rim (State.access_rim hg)) rfl

end Sys2Proof.Machine
end

section
/-! FENCE and QFENCE, where nothing is left to wait for, and where they fault (O22). -/

namespace Sys2Proof.Machine

open Sys2Proof

theorem planFence_go {f : FenceF} {s : State} (hc : 2 ≤ f.c.toNat)
    (hacq : f.k.getLsbD 0 = true → s.here.inFixed = false ∧ s.hereE.readAt ≤ s.now ∧ ∀ x ∈ s.ceFlights, x.work.isLoad = false)
    (hrel : f.k.getLsbD 1 = true → s.here.inSeg = true ∨ ∀ x ∈ s.ceFlights, x.work.isWrite = false) :
    planFence f s = .go { s := if f.k.getLsbD 1 && s.here.inSeg then
      (s.modHere fun k => { k with seg := k.seg.map fun g => { g with rel := max g.rel f.c.toNat } }) else s } := by
  have hfixed : ¬(f.k.getLsbD 0 = true ∧ s.here.inFixed = true) := by
    rintro ⟨hk, hin⟩
    simp [(hacq hk).1] at hin
  have hread : ¬(f.k.getLsbD 0 = true ∧ (s.now < s.hereE.readAt ∨ (s.ceFlights.any fun x => x.work.isLoad) = true)) := by
    rintro ⟨hk, hlater | hload⟩
    · exact Nat.not_lt.2 (hacq hk).2.1 hlater
    · obtain ⟨x, hx, hx'⟩ := List.any_eq_true.1 hload
      simp [(hacq hk).2.2 x hx] at hx'
  have hwrite : ¬(f.k.getLsbD 1 = true ∧ (!s.here.inSeg) = true ∧ (s.ceFlights.any fun x => x.work.isWrite) = true) := by
    rintro ⟨hk, hseam, hany⟩
    rcases hrel hk with hseg | hnone
    · simp [hseg] at hseam
    · obtain ⟨x, hx, hx'⟩ := List.any_eq_true.1 hany
      simp [hnone x hx] at hx'
  unfold planFence
  extract_lets
  rw [if_neg (by omega), if_neg hfixed, if_neg hread, if_neg hwrite]

/-- Settles O22: the plans of FENCE and QFENCE at their checks and with their waits passed. -/
theorem ceFences : Obligations.CeFences := by
  unfold Obligations.CeFences
  refine ⟨fun f s hready => ⟨fun hc => ?_, fun hc hk hfixed => ?_, fun hc hacq hrel => ?_⟩,
    fun f s hready => ⟨fun ⟨t, ht, hm, hno⟩ => ?_, fun hall => ?_⟩⟩
  · refine issues_same (plan := planFence f) (g := { s := s }) rfl hready ?_ rfl rfl
    unfold planFence
    extract_lets
    rw [if_pos hc]
  · refine faults_of_plan (plan := planFence f) rfl hready rfl (by decide) ?_
    unfold planFence
    extract_lets
    rw [if_neg (by omega), if_pos ⟨hk, hfixed⟩]
  · have hplan := planFence_go hc hacq hrel
    cases hcond : f.k.getLsbD 1 && s.here.inSeg
    · rw [hcond] at hplan
      exact issues_same rfl hready hplan rfl rfl
    · rw [hcond] at hplan
      exact issues_of_regs (lat := 1) rfl hready hplan rfl rfl
  · refine faults_of_plan (plan := planQfence f) rfl hready rfl (by decide) ?_
    rw [planQfence, if_pos (List.any_eq_true.2 ⟨t, List.mem_range.2 ht, by simp [hm, hno]⟩)]
  · have hhere : ¬((List.range 7).any fun t => f.m.getLsbD t && !hasTag s.ct t) = true := by
      intro hany
      obtain ⟨t, ht, h⟩ := List.any_eq_true.1 hany
      rw [Bool.and_eq_true, Bool.not_eq_true'] at h
      simp [(hall t (List.mem_range.1 ht) h.1).1] at h
    have hdone : ((List.range 7).all fun t => !f.m.getLsbD t || s.engineDone t) = true := by
      refine List.all_eq_true.2 fun t ht => ?_
      cases hm : f.m.getLsbD t
      · rfl
      · simp [(hall t (List.mem_range.1 ht) hm).2]
    refine issues_same (plan := planQfence f) (g := { s := s }) rfl hready ?_ rfl rfl
    rw [planQfence, if_neg hhere, if_pos hdone]

end Sys2Proof.Machine
end

section
/-! ATOM, ATOMN and CAS: the operation that each puts into progress at the bank, or into the egress stage (O21). -/

namespace Sys2Proof.Machine

open Sys2Proof

theorem szBits_div_eight (sz : Bool) : szBits sz / 8 = if sz then 8 else 4 := by cases sz <;> rfl

theorem szBits_eq (sz : Bool) : szBits sz = 8 * if sz then 8 else 4 := by cases sz <;> rfl

@[simp] theorem atomHold_walk (k : Core) (t aop : Nat) (fs sz : Bool) (a x : Src) (u : Nat) :
    ((atomHold k t aop fs sz a x).engine u).walk = (k.engine u).walk := by
  simp [atomHold]

theorem Core.inFixed_of_seam {k : Core} (h : k.inSeg = false) : k.inFixed = false := by
  unfold Core.inFixed
  cases hs : k.seg with
  | none => rfl
  | some g => simp [Core.inSeg, hs] at h

/-- An atomic at the bank in progress over a granted access. -/
def State.atomizing (s : State) (g : Granted) (w : Work) : State :=
  (g.launch (s.now + g.lat.getD 0 + 8) (s.now + ceilDiv (2 * g.lat.getD 0 + 16) s.d * s.d) false w).1

section
variable {s : State} {a x : Src} {sz : Bool} {g : Granted} (hseam : s.here.inSeg = false) (halign : s.here.addr s.cur.tag false a % (if sz then 8 else 4) = 0)
  (hg : s.access (s.here.addr s.cur.tag false a) (if sz then 8 else 4) useAtomic none = .ok g)
include hseam halign hg

theorem atomNow_go (aop : Nat) (fs : Bool) (dst : Option Slot) (exp : Nat) (pd : Option Nat) :
    ∃ y : Go, atomNow s a x aop fs sz dst exp pd = .go y ∧
      y.s = (s.atomizing g (.atomic g.firstPa aop sz (atomVal s.here s.cur.tag true aop fs sz x) exp (dst.elim 0 fun o => s.here.startOf s.cur.tag o)
        (dst.elim 0 fun o => o.w) fs pd)).modHere (fun k => atomHold k s.cur.tag aop fs sz a x) ∧ y.jump = none := by
  unfold atomNow
  extract_lets k t n ea
  have hn : n = if sz then 8 else 4 := szBits_div_eight sz
  rw [hn, if_neg (not_not.2 halign), hg]
  simp only [Got.plan, openFault_eq_false fun _ => Core.inFixed_of_seam hseam, Bool.false_eq_true, if_false]
  exact ⟨_, rfl, rfl, rfl⟩

/-- An instruction whose plan is an atomic at the bank issues with it. -/
theorem issues_atomNow {i : Instr} {plan : State → Plan} {aop : Nat} {fs : Bool} {dst : Option Slot} {exp : Nat} {pd : Option Nat}
    (hexec : exec i s = issue s i plan) (hready : Ready s i) (hplan : plan s = atomNow s a x aop fs sz dst exp pd) :
    Issues i s ((s.atomizing g (.atomic g.firstPa aop sz (atomVal s.here s.cur.tag true aop fs sz x) exp (dst.elim 0 fun o => s.here.startOf s.cur.tag o)
      (dst.elim 0 fun o => o.w) fs pd)).modHere (fun k => atomHold k s.cur.tag aop fs sz a x)) := by
  obtain ⟨y, hy, hs, hj⟩ := atomNow_go (x := x) hseam halign hg aop fs dst exp pd
  exact issues_of_go hexec hready (hplan.trans hy) hs ((Granted.launch_rim ..).trans (State.access_rim hg)) (atomHold_walk ..) hj

end

theorem planAtom_eq {f : AtomF} {s : State} (hdst : s.here.slotOk s.cur.tag f.dst = true) (ha : s.here.srcOk s.cur.tag false f.a = true)
    (hx : atomValOk s.here s.cur.tag true f.aop.toNat f.x = true) :
    planAtom f s = if s.here.inSeg then .fault s .segmentLegality else atomNow s f.a f.x f.aop.toNat f.fs f.sz (some f.dst) 0 none := by
  rw [planAtom, if_neg (by simp [hdst, ha, hx])]

theorem planCas_eq {f : CasF} {s : State} (hdst : s.here.slotOk s.cur.tag f.dst = true) (ha : s.here.srcOk s.cur.tag false f.a = true)
    (hx : s.here.srcOk s.cur.tag true f.x = true) :
    planCas f s = if s.here.inSeg then .fault s .segmentLegality else atomNow s f.a f.x 13 f.fs f.sz (some f.dst)
      (s.here.slotVal s.cur.tag f.dst % 2 ^ szBits f.sz) (if f.pe then some f.pd.toNat else none) := by
  rw [planCas, if_neg (by simp [hdst, ha, hx])]

/-- The core with `es` in its egress stage. -/
def Core.staged (k : Core) (es : List StageEnt) : Core := { k with egress := es }

/-- What ATOMN does to a core when its entry joins the stage `es`. -/
def State.atomnStage (s : State) (f : AtomnF) (g : Granted) (es : List StageEnt) (k : Core) : Core :=
  (atomHold k s.cur.tag f.aop.toNat f.fs f.sz f.a f.x).staged
    (es ++ [.atomn g.firstPa f.aop.toNat f.sz (atomVal s.here s.cur.tag true f.aop.toNat f.fs f.sz f.x)])

section
variable {f : AtomnF} {s : State} (ha : s.here.srcOk s.cur.tag false f.a = true) (hx : atomValOk s.here s.cur.tag true f.aop.toNat f.x = true)
include ha hx

theorem planAtomn_seam (hseam : s.here.inSeg = false) : planAtomn f s = atomNow s f.a f.x f.aop.toNat f.fs f.sz none 0 none := by
  unfold planAtomn
  extract_lets k t ea n
  rw [if_neg (by simp [k, t, ha, hx]), if_pos (by simp [k, hseam])]

/-- ATOMN inside a segment, outside its scratch ranges, joins the egress stage where that has room. -/
theorem planAtomn_staged {g : Granted} (hseg : s.here.inSeg = true) (hscratch : s.here.inScratch (s.here.addr s.cur.tag false f.a) = false)
    (halign : s.here.addr s.cur.tag false f.a % (if f.sz then 8 else 4) = 0)
    (hg : s.access (s.here.addr s.cur.tag false f.a) (if f.sz then 8 else 4) { useAtomic with stg := some true } none = .ok g)
    (hroom : s.here.egress.length + 1 ≤ s.here.stageRoom) :
    ∃ y : Go, planAtomn f s = .go y ∧ y.s = g.s.modHere (fun k => s.atomnStage f g k.egress k) ∧ y.jump = none := by
  unfold planAtomn
  extract_lets k t ea n
  have hn : n = if f.sz then 8 else 4 := szBits_div_eight f.sz
  rw [if_neg (by simp [k, t, ha, hx]), if_neg (by simp [k, ea, t, hseg, hscratch]), hn, if_neg (not_not.2 halign), hg]
  exact ⟨_, if_neg (Nat.not_lt.2 hroom), rfl, rfl⟩

end

/-- Settles O21: outside a segment ATOM, ATOMN and CAS are the atomic at the bank, `atomNow`; inside one ATOMN is staged and the other two fault. -/
theorem ceAtomics : Obligations.CeAtomics := by
  unfold Obligations.CeAtomics
  refine ⟨fun f s hready hdst ha hx => ⟨fun hseg => ?_, fun g hseam halign hg => ?_⟩,
    fun f s hready ha hx halign => ⟨fun g hseam hg => ?_, fun g hseg hscratch hg hroom => ?_⟩,
    fun f s hready hdst ha hx => ⟨fun hseg => ?_, fun g hseam halign hg => ?_⟩⟩
  · exact faults_of_plan rfl hready rfl (by decide) ((planAtom_eq hdst ha hx).trans (if_pos hseg))
  · have hissues := issues_atomNow hseam halign hg (i := .atom f) rfl hready ((planAtom_eq hdst ha hx).trans (if_neg (ne_true_of_eq_false hseam)))
    exact hissues
  · have hissues := issues_atomNow hseam halign hg (i := .atomn f) rfl hready (planAtomn_seam ha hx hseam)
    exact hissues
  · obtain ⟨y, hy, hs, hj⟩ := planAtomn_staged ha hx hseg hscratch halign hg hroom
    have hstage : (g.s.modHere fun k => s.atomnStage f g k.egress k) = g.s.modHere (s.atomnStage f g s.here.egress) :=
      State.modHere_congr (by rw [State.here_of_rim (State.access_rim hg)])
    exact issues_of_go rfl hready hy (hs.trans hstage) (State.access_rim hg) (atomHold_walk ..) hj
  · exact faults_of_plan rfl hready rfl (by decide) ((planCas_eq hdst ha hx).trans (if_pos hseg))
  · have hissues := issues_atomNow hseam halign hg (i := .cas f) rfl hready ((planCas_eq hdst ha hx).trans (if_neg (ne_true_of_eq_false hseam)))
    rwa [szBits_eq] at hissues

end Sys2Proof.Machine
end

section
/-! ST and SPILL: the writes that they put into progress, or into the egress stage (O20). -/

namespace Sys2Proof.Machine

open Sys2Proof

/-! ### The nibbles of a write, in a seam and staged (R147) -/

theorem State.nibStaged_of_seam {s : State} (h : s.here.inSeg = false) (attrs : List (Run × BitVec 16)) (vn pn : Nat) : s.nibStaged attrs vn pn = false := by
  simp [State.nibStaged, h]

/-- A store that stages nothing leaves the stage. -/
theorem Core.staged_same {k k' : Core} (h : k'.egress = k.egress) : k'.staged k.egress = k' := by
  rw [← h]
  rfl

@[simp] theorem Core.holdLatch_egress (k : Core) (t : Nat) (b : Bool) (x : Src) (v w : Nat) : (k.holdLatch t b x v w).egress = k.egress := by
  unfold Core.holdLatch
  split
  · rfl
  · split <;> rfl

@[simp] theorem Core.holdAddr_egress (k : Core) (t w : Nat) (a b : Src) : (k.holdAddr t w a b).egress = k.egress := by
  simp [Core.holdAddr, Core.holdSrc]

/-- The 64-byte chunks of an image of `n` nibbles at fixed times, the first at tick `T` (R149). -/
def chunkWorks (ns : List (Nat × Nat × Slice)) (n T : Nat) : List (Nat × Work) :=
  (List.range (ceilDiv n 128)).filterMap fun j =>
    let part := (List.range 128).filterMap fun i => (ns[128 * j + i]?).map fun p => p.2
    if part = [] then none else some (T + j, .nibbles part)

/-! ### The plan of a CE write -/

section
variable {s : State} {g : Granted} {n : Nat} {val : Nat → Slice} {extra : Nat} {hold : Core → Core} (hne : spreadNibs g.runs n val ≠ [])
include hne

section
variable (hseam : s.here.inSeg = false) (hhold : ∀ k, (hold k).egress = k.egress)
include hseam hhold

/-- In a seam a write is in progress at once, in chunks or as one. -/
theorem writePlan_seam (chunk : Bool) :
    writePlan s g n val chunk extra hold =
      let lat := ceilDiv (g.lat.getD 0 + 10) s.d + extra
      let g1 := { g with s := g.s.modHere hold }
      if chunk && g.lat.isSome then
        .go { s := (g1.launchAll (s.now + lat * s.d) (chunkWorks (spreadNibs g.runs n val) n (s.now + g.lat.getD 0 + 10))).1, lat := lat,
              cyc := max 1 extra }
      else
        let r := g1.launch (s.now + g.lat.getD 0 + 10) (s.now + lat * s.d) false (.nibbles ((spreadNibs g.runs n val).map fun p => p.2))
        .go { s := r.1, lat := if g.lat.isSome then lat else 1, cyc := max 1 extra, op := if g.lat.isSome then none else some r.2 } := by
  unfold writePlan
  extract_lets T ns attrs st now stage s1 lat g1 parts r lat' g1' r'
  have hst : st = [] := List.filter_eq_nil_iff.2 fun p _ => by simp [State.nibStaged_of_seam hseam]
  have hnow : now = ns := List.filter_eq_self.2 fun p _ => by simp [State.nibStaged_of_seam hseam]
  have hs1 : s1 = g.s.modHere hold := by
    refine State.modHere_congr (Eq.trans ?_ (Core.staged_same (hhold _)))
    simp only [hst]
    rfl
  have hg1 : g1 = g1' := congrArg (fun x => { g with s := x }) hs1
  have hparts : parts = chunkWorks ns n (T + g.lat.getD 0 + 10) := by
    refine List.filterMap_congr fun j _ => ?_
    have hmine (part : List (Nat × Nat × Slice)) : part.filter (fun p => !s.nibStaged attrs p.1 p.2.1) = part :=
      List.filter_eq_self.2 fun p _ => by simp [State.nibStaged_of_seam hseam]
    simp only [hmine, List.map_filterMap, List.isEmpty_iff]
  have hplace : s.openFault g.lat = false := openFault_eq_false fun _ => Core.inFixed_of_seam hseam
  have hempty : ¬now.isEmpty = true := by simpa [hnow] using hne
  have hr : r = r' := by
    simp only [r, r', hnow, hg1]
    rfl
  rw [if_neg (by simp [hplace]), if_neg (by simp [hst]), if_neg hempty, hr, hparts, hg1]
  rfl

end

/-- A write whose every nibble is staged joins the egress stage where that has room. -/
theorem writePlan_staged (hall : ∀ p ∈ spreadNibs g.runs n val, s.nibStaged (g.runs.zip g.attrs) p.1 p.2.1 = true) (chunk : Bool)
    (hroom : (stageAll s.here.egress ((spreadNibs g.runs n val).map fun p => p.2)).length ≤ s.here.stageRoom) :
    writePlan s g n val chunk extra hold =
      .go { s := g.s.modHere fun k => (hold k).staged (stageAll s.here.egress ((spreadNibs g.runs n val).map fun p => p.2)) } := by
  unfold writePlan
  extract_lets T ns attrs st now stage s1 lat g1 parts r
  have hst : st = ns := List.filter_eq_self.2 hall
  have hnow : now = [] := List.filter_eq_nil_iff.2 fun p hp => by simp [attrs, hall p hp]
  have hstaged : ¬st.isEmpty = true := by simpa [hst] using hne
  have hs1 : s1 = g.s.modHere fun k => (hold k).staged stage := by
    refine State.modHere_congr ?_
    simp only [if_neg hstaged]
    rfl
  rw [if_neg (by simp [hnow]), if_neg (by simpa [stage, hst] using fun _ => hroom), if_pos (by rw [hnow]; rfl), hs1]
  simp only [stage, hst]
  rfl

end

/-- An access, and the latches loaded from the operands of its address, leave the engine where it stands. -/
theorem State.keeps_held {s : State} {va len : Nat} {u : Use} {fl : Option Nat} {g : Granted} (hg : s.access va len u fl = .ok g) (t w : Nat) (a b : Src)
    (es : Core → List StageEnt) :
    s.Keeps Engine.walk (g.s.modHere fun k => k.holdAddr t w a b) ∧ s.Keeps Engine.walk (g.s.modHere fun k => (k.holdAddr t w a b).staged (es k)) :=
  have hrim : s.Keeps Engine.walk g.s := State.keeps_of_rim (State.access_rim hg)
  ⟨hrim.trans (State.keeps_modHere fun _ => Core.holdAddr_walk ..), hrim.trans (State.keeps_modHere fun _ => Core.holdAddr_walk ..)⟩

/-! ### ST (R146) -/

/-- The value that ST stores, and its flags. -/
def State.stored (s : State) (f : S3) : Nat × Flags :=
  reduceI f.sub.sat f.fs (extI f.fs (s.here.slotVal s.cur.tag f.dst) f.dst.bits) (8 * 2 ^ f.sub.xs.toNat)

/-- The nibbles of ST over a granted access. -/
def State.stNibs (s : State) (f : S3) (g : Granted) : List (Nat × Nat × Slice) :=
  spreadNibs g.runs (2 * 2 ^ f.sub.xs.toNat) fun j => BitVec.ofNat 4 ((s.stored f).1 / 16 ^ j)

/-- The write of ST in progress. -/
def State.storing (s : State) (f : S3) (g : Granted) : State :=
  (({ g with s := g.s.modHere fun k => k.holdAddr s.cur.tag f.dst.w f.a f.b } : Granted).launch (s.now + g.lat.getD 0 + 10)
    (s.now + ceilDiv (g.lat.getD 0 + 10) s.d * s.d) false (.nibbles ((s.stNibs f g).map fun p => p.2))).1

section
variable {f : S3} {s : State} {g : Granted} (hok : s.here.ce2Ok s.cur.tag f.dst f.a f.b = true)
  (hg : s.access (s.here.effAddr s.cur.tag f.a f.b) (2 ^ f.sub.xs.toNat) { useWrite with stg := some false } none = .ok g)
  (hne : s.stNibs f g ≠ [])
include hok hg

/-- ST is its write and then its flags, at the commit tick. -/
theorem planSt_of_write {x : Go}
    (hx : writePlan s g (2 * 2 ^ f.sub.xs.toNat) (fun j => BitVec.ofNat 4 ((s.stored f).1 / 16 ^ j)) false 0 (fun k => k.holdAddr s.cur.tag f.dst.w f.a f.b) = .go x) :
    planSt f s = .go { x with s := x.s.modHere fun k => k.raise (s.now + x.lat * s.d) (s.stored f).2 } := by
  rw [planSt, if_neg (by simp [hok]), hg]
  simp only [Got.plan]
  unfold State.stored Core.holdAddr at hx
  unfold intResult
  rw [hx]
  rfl

include hne

theorem issues_st_seam (hready : Ready s (.st f)) (hseam : s.here.inSeg = false) :
    Issues (.st f) s ((s.storing f g).modHere fun k => k.raise (s.now + (if g.lat.isSome then ceilDiv (g.lat.getD 0 + 10) s.d else 1) * s.d) (s.stored f).2) := by
  have hplan := planSt_of_write hok hg (writePlan_seam hne hseam (fun k => Core.holdAddr_egress ..) false)
  have hkeeps : s.Keeps Engine.walk (s.storing f g) :=
    (State.keeps_held hg s.cur.tag f.dst.w f.a f.b fun _ => []).1.trans (State.keeps_of_rim (Granted.launch_rim ..))
  exact issues_of_keeps rfl hready hplan rfl (hkeeps.trans (State.keeps_modHere fun u => congrArg Engine.walk (Core.raise_engine ..))) rfl

theorem issues_st_staged (hready : Ready s (.st f)) (hall : ∀ p ∈ s.stNibs f g, s.nibStaged (g.runs.zip g.attrs) p.1 p.2.1 = true)
    (hroom : (stageAll s.here.egress ((s.stNibs f g).map fun p => p.2)).length ≤ s.here.stageRoom) :
    Issues (.st f) s ((g.s.modHere fun k => (k.holdAddr s.cur.tag f.dst.w f.a f.b).staged (stageAll s.here.egress ((s.stNibs f g).map fun p => p.2))).modHere
      fun k => k.raise (s.now + s.d) (s.stored f).2) := by
  have hplan := planSt_of_write hok hg (writePlan_staged hne hall false hroom)
  rw [Nat.one_mul] at hplan
  exact issues_of_keeps rfl hready hplan rfl ((State.keeps_held hg ..).2.trans (State.keeps_modHere fun u => congrArg Engine.walk (Core.raise_engine ..))) rfl

end

/-! ### SPILL (R149) -/

/-- The nibbles of SPILL over a granted access. -/
def State.spillNibs (s : State) (f : SpillF) (g : Granted) : List (Nat × Nat × Slice) :=
  spreadNibs g.runs (f.cnt.toNat + 1) fun j => SMap.get 0 s.here.scalar (spillStart s.here s.cur.tag f + j)

section
variable {f : SpillF} {s : State} {g : Granted} (ha : s.here.srcOk s.cur.tag false f.a = true) (hb : s.here.srcOk s.cur.tag true f.b = true)
  (hfit : spillStart s.here s.cur.tag f + (f.cnt.toNat + 1) ≤ 8192)
  (hg : s.access (s.here.effAddr s.cur.tag f.a f.b) ((f.cnt.toNat + 1 + 1) / 2) { useWrite with stg := some false } none = .ok g)
include ha hb hfit hg

/-- SPILL is its write in chunks, a cycle longer for each 64 bytes. -/
theorem planSpill_eq :
    planSpill f s = writePlan s g (f.cnt.toNat + 1) (fun j => SMap.get 0 s.here.scalar (spillStart s.here s.cur.tag f + j)) true
      (ceilDiv ((f.cnt.toNat + 1 + 1) / 2) 64) (fun k => k.holdAddr s.cur.tag 4 f.a f.b) := by
  unfold planSpill
  dsimp only
  rw [if_neg (spill_inRange ha hb hfit), hg]
  rfl

variable (hready : Ready s (.spill f)) (hne : s.spillNibs f g ≠ [])
include hready hne

section
variable (hseam : s.here.inSeg = false)
include hseam

theorem issues_spill_open (hlat : g.lat = none) :
    let held : Granted := { g with s := g.s.modHere fun k => k.holdAddr s.cur.tag 4 f.a f.b }
    Issues (.spill f) s (held.launch (s.now + 10) (s.now + (ceilDiv (g.lat.getD 0 + 10) s.d + ceilDiv ((f.cnt.toNat + 1 + 1) / 2) 64) * s.d) false
      (.nibbles ((s.spillNibs f g).map fun p => p.2))).1 := by
  have hplan := (planSpill_eq ha hb hfit hg).trans (writePlan_seam hne hseam (fun k => Core.holdAddr_egress ..) true)
  simp only [hlat, Option.isSome_none, Bool.and_false, Bool.false_eq_true, if_false, Option.getD_none, Nat.add_zero] at hplan ⊢
  exact issues_of_keeps rfl hready hplan rfl ((State.keeps_held hg s.cur.tag 4 f.a f.b fun _ => []).1.trans (State.keeps_of_rim (Granted.launch_rim ..))) rfl

theorem issues_spill_chunks (hlat : g.lat.isSome = true) :
    let held : Granted := { g with s := g.s.modHere fun k => k.holdAddr s.cur.tag 4 f.a f.b }
    Issues (.spill f) s (held.launchAll (s.now + (ceilDiv (g.lat.getD 0 + 10) s.d + ceilDiv ((f.cnt.toNat + 1 + 1) / 2) 64) * s.d)
      (chunkWorks (s.spillNibs f g) (f.cnt.toNat + 1) (s.now + g.lat.getD 0 + 10))).1 := by
  have hplan := (planSpill_eq ha hb hfit hg).trans (writePlan_seam hne hseam (fun k => Core.holdAddr_egress ..) true)
  dsimp only at hplan
  rw [if_pos (by rw [hlat]; rfl)] at hplan
  exact issues_of_keeps rfl hready hplan rfl ((State.keeps_held hg s.cur.tag 4 f.a f.b fun _ => []).1.trans (State.keeps_of_rim (Granted.launchAll_rim ..))) rfl

end

theorem issues_spill_staged (hall : ∀ p ∈ s.spillNibs f g, s.nibStaged (g.runs.zip g.attrs) p.1 p.2.1 = true)
    (hroom : (stageAll s.here.egress ((s.spillNibs f g).map fun p => p.2)).length ≤ s.here.stageRoom) :
    Issues (.spill f) s (g.s.modHere fun k => (k.holdAddr s.cur.tag 4 f.a f.b).staged (stageAll s.here.egress ((s.spillNibs f g).map fun p => p.2))) :=
  issues_of_keeps rfl hready ((planSpill_eq ha hb hfit hg).trans (writePlan_staged hne hall true hroom)) rfl (State.keeps_held hg ..).2 rfl

end

/-! ### The statement -/

/-- Settles O20: the plans of ST and SPILL are one write of nibbles, in progress at once in a seam and in the egress stage where all of it is staged. That a
held offset immediate has the width of D in ST and 4 slices in SPILL is the model's choice (log 102). -/
theorem ceStores : Obligations.CeStores := by
  unfold Obligations.CeStores
  refine ⟨fun f s g hready hok hg => ⟨fun hseam hne => ?_, fun hall hne hroom => ?_⟩,
    fun f s g hready ha hb hfit hg => ⟨fun hseam hlat hne => ?_, fun hseam hlat hne => ?_, fun hall hne hroom => ?_⟩⟩
  · exact issues_st_seam hok hg hne hready hseam
  · exact issues_st_staged hok hg hne hready hall hroom
  · exact issues_spill_open ha hb hfit hg hready hne hseam hlat
  · exact issues_spill_chunks ha hb hfit hg hready hne hseam hlat
  · exact issues_spill_staged ha hb hfit hg hready hne hall hroom

end Sys2Proof.Machine
end

section
/-! Instructions of the lane engines: with its operands in range such an instruction issues with the effects of `State.afterLanes` (R77, R170). -/

namespace Sys2Proof.Machine

open Sys2Proof

/-! ### Holds and lanes touch no engine but its latches -/

@[simp] theorem Core.hold1_walk (k : Core) (t : Nat) (b : Bool) (dw : Nat) (x : Src) (on : List Nat) (v : Nat → Nat) (u : Nat) :
    ((k.hold1 t b dw x on v).engine u).walk = (k.engine u).walk := Core.holdLanes_walk ..

@[simp] theorem Core.vhold2_walk (k : Core) (t : Nat) (f : S3) (on : List Nat) (u : Nat) : ((k.vhold2 t f on).engine u).walk = (k.engine u).walk :=
  (Core.hold1_walk ..).trans (Core.hold1_walk ..)

@[simp] theorem Core.chold2_walk (k : Core) (t : Nat) (f : S3c) (w : Nat) (on : List Nat) (u : Nat) :
    ((k.chold2 t f w on).engine u).walk = (k.engine u).walk :=
  (Core.hold1_walk ..).trans (Core.hold1_walk ..)

theorem Core.foldl_wrLane_engine (t : Nat) (dst : Slot) (v : Nat → Nat) (u : Nat) (on : List Nat) (k : Core) :
    (on.foldl (fun k l => k.wrLane t l dst (v l)) k).engine u = k.engine u := by
  induction on generalizing k with
  | nil => rfl
  | cons l on ih => exact ih _

theorem State.keeps_flag (s : State) (lat : Nat) (f : Flags) : s.Keeps Engine.walk (s.flag lat f) :=
  State.keeps_modHere fun _ => congrArg Engine.walk (Core.raise_engine ..)

/-- The values of lanes, and the flags of a result, leave every engine where it stands. -/
theorem State.keeps_afterLanes {s : State} {on : List Nat} {dst : Slot} {lat : Nat} {hold : Core → Core} {v : Nat → Nat × Flags}
    (hhold : ∀ u, ((hold s.here).engine u).walk = (s.here.engine u).walk) : s.Keeps Engine.walk (s.afterLanes on dst lat hold v) := by
  refine State.Keeps.trans (State.keeps_modHere fun _ => ?_) (State.keeps_flag _ lat _)
  rw [Core.foldl_wrLane_engine _ _ (fun l => (v l).1)]
  exact hhold _

/-! ### Plans of lanes -/

/-- Of `hold` only what it makes of the core as it stands matters. -/
theorem State.afterLanes_congr {s : State} {on : List Nat} {dst : Slot} {lat : Nat} {hold hold' : Core → Core} {v v' : Nat → Nat × Flags}
    (hhold : hold s.here = hold' s.here) (hv : ∀ l, v l = v' l) : s.afterLanes on dst lat hold v = s.afterLanes on dst lat hold' v' := by
  obtain rfl : v = v' := funext hv
  rw [State.afterLanes, State.afterLanes, State.modHere_congr (f := fun k => on.foldl _ (hold k)) (g := fun k => on.foldl _ (hold' k)) (by rw [hhold])]

theorem planLanesIn_go {g : Guard} {wr : Nat → Bool} {dst : Slot} {lat : Nat} {ok : Bool} {hold : Core → List Nat → Core} {v : Nat → Nat × Flags}
    {s : State} (hok : ok = true) (hdst : s.here.lslotOk s.cur.tag dst = true) :
    planLanesIn g wr dst lat ok hold v s =
      .go { s := s.afterLanes ((s.lanesFor g).filter wr) dst lat (fun k => hold k (s.lanesFor g)) v, lat := lat } := by
  unfold planLanesIn
  simp only [hok, hdst, Bool.not_true, Bool.or_self, Bool.false_eq_true, if_false, List.foldl_map, List.map_map]
  rfl

theorem planLanes_go {g : Guard} {dst : Slot} {lat : Nat} {ok : Bool} {hold : Core → List Nat → Core} {v : Nat → Nat × Flags} {s : State}
    (hok : ok = true) (hdst : s.here.lslotOk s.cur.tag dst = true) :
    planLanes g dst lat ok hold v s = .go { s := s.afterLanes (s.lanesFor g) dst lat (fun k => hold k (s.lanesFor g)) v, lat := lat } := by
  rw [planLanes, planLanesIn_go hok hdst, List.filter_eq_self.2 fun _ _ => rfl]

section
variable {i : Instr} {plan : State → Plan} {s : State} {g : Guard} {dst : Slot} {lat : Nat} {ok : Bool} {hold : Core → List Nat → Core}
  {v v' : Nat → Nat × Flags} {hold' : Core → Core} (hexec : exec i s = issue s i plan) (hready : Ready s i)
  (hok : ok = true) (hdst : s.here.lslotOk s.cur.tag dst = true)
include hexec hready hok hdst

/-- An instruction that nothing holds back, whose meaning is a plan of lanes of which `wr` tells those it writes. -/
theorem issues_lanesIn {wr : Nat → Bool} (hplan : plan s = planLanesIn g wr dst lat ok hold v s) (hhold : hold s.here (s.lanesFor g) = hold' s.here)
    (hv : ∀ l, v l = v' l) (hwalk : ∀ u, ((hold' s.here).engine u).walk = (s.here.engine u).walk) :
    Issues i s (s.afterLanes ((s.lanesFor g).filter wr) dst lat hold' v') :=
  issues_of_keeps hexec hready (hplan.trans (planLanesIn_go hok hdst)) (State.afterLanes_congr hhold hv) (State.keeps_afterLanes hwalk) rfl

/-- The same of a plan that writes every enabled lane. -/
theorem issues_lanes (hplan : plan s = planLanes g dst lat ok hold v s) (hhold : hold s.here (s.lanesFor g) = hold' s.here)
    (hv : ∀ l, v l = v' l) (hwalk : ∀ u, ((hold' s.here).engine u).walk = (s.here.engine u).walk) :
    Issues i s (s.afterLanes (s.lanesFor g) dst lat hold' v') :=
  issues_of_keeps hexec hready (hplan.trans (planLanes_go hok hdst)) (State.afterLanes_congr hhold hv) (State.keeps_afterLanes hwalk) rfl

end

end Sys2Proof.Machine
end

section
/-! The vector engine element by element: integers, bit patterns, shifts and float elements, the sign bit, the fused forms (O32, O33). -/

namespace Sys2Proof.Machine

open Sys2Proof

/-! ### Two sources (R174, R175, R177) -/

/-- Of integer elements `mk` computes the exact operation `op`, given XS and the width of an element, with latency `lat`. -/
def ComputesInts (mk : S3 → Instr) (lat : Nat) (op : BitVec 2 → Nat → Int → Int → Int) : Prop :=
  ∀ (f : S3) (s : State), f.sub.fmt = 0 → ∃ fop, exec (mk f) s = issue s (mk f) (planVe2 f lat (op f.sub.xs (esBits f.es)) fop)

/-- Of float elements `mk` computes `fop`, with latency 3. -/
def ComputesFloats (mk : S3 → Instr) (fop : S3 → Fmt → Nat → Nat → Nat → Nat → State → Nat × Flags) : Prop :=
  ∀ (f : S3) (s : State), f.sub.fmt ≠ 0 → ∃ iop, exec (mk f) s = issue s (mk f) (planVe2 f 3 iop (fop f))

section
variable {mk : S3 → Instr} {f : S3} {s : State} (hready : Ready s (mk f)) (hok : veOk2 s.here s.cur.tag f = true)
  (hdst : s.here.lslotOk s.cur.tag f.dst = true)
include hready hok hdst

theorem ComputesInts.issues {lat : Nat} {op : BitVec 2 → Nat → Int → Int → Int} (h : ComputesInts mk lat op) (hfmt : f.sub.fmt = 0) :
    let es := esBits f.es
    Issues (mk f) s (s.afterLanes (s.lanesFor f.h.g) f.dst lat (fun k => k.vhold2 s.cur.tag f (s.lanesFor f.h.g)) fun l =>
      joinRes es ((List.range (4 * f.dst.w / es)).map fun e => reduceI f.sub.sat f.fs
        (op f.sub.xs es (extI f.fs (elemOf es (s.here.va s.cur.tag l f) e) es) (extI f.fs (elemOf es (s.here.vb s.cur.tag l f) e) es)) es)) := by
  obtain ⟨fop, hexec⟩ := h f s hfmt
  refine issues_lanes hexec hready hok hdst rfl rfl (fun l => ?_) fun _ => Core.vhold2_walk ..
  simp only [hfmt, if_true]
  rfl

theorem ComputesFloats.issues {fop : S3 → Fmt → Nat → Nat → Nat → Nat → State → Nat × Flags} (h : ComputesFloats mk fop) (hfmt : f.sub.fmt ≠ 0) :
    let es := esBits f.es
    Issues (mk f) s (s.afterLanes (s.lanesFor f.h.g) f.dst 3 (fun k => k.vhold2 s.cur.tag f (s.lanesFor f.h.g)) fun l =>
      joinRes es ((List.range (4 * f.dst.w / es)).map fun e =>
        fop f (fmtOf f.sub.fmt) (elemOf es (s.here.va s.cur.tag l f) e) (elemOf es (s.here.vb s.cur.tag l f) e) l e s)) := by
  obtain ⟨iop, hexec⟩ := h f s hfmt
  refine issues_lanes hexec hready hok hdst rfl rfl (fun l => ?_) fun _ => Core.vhold2_walk ..
  simp only [hfmt, if_false]

/-- Bit patterns. -/
theorem issues_veBits {op : Nat → Nat → Nat} (hexec : exec (mk f) s = issue s (mk f) (planVeBits f op)) :
    Issues (mk f) s (s.afterLanes (s.lanesFor f.h.g) f.dst 1 (fun k => k.vhold2 s.cur.tag f (s.lanesFor f.h.g)) fun l =>
      (op (s.here.va s.cur.tag l f) (s.here.vb s.cur.tag l f), 0)) :=
  issues_lanes hexec hready hok hdst rfl rfl (fun _ => rfl) fun _ => Core.vhold2_walk ..

end

theorem fmtLat_int {fmt : BitVec 3} (h : fmt = 0) (i f : Nat) : fmtLat fmt i f = i := if_pos h

theorem fmtLat_float {fmt : BitVec 3} (h : fmt ≠ 0) (i f : Nat) : fmtLat fmt i f = f := if_neg h

theorem computesInts_vadd : ComputesInts .vadd 1 fun _ _ a b => a + b :=
  fun f _ h => ⟨veFloat f addV, by rw [← fmtLat_int h 1 3]; rfl⟩

theorem computesInts_vsub : ComputesInts .vsub 1 fun _ _ a b => a - b :=
  fun f _ h => ⟨veFloat f fun dn a b => addV dn a b.negate, by rw [← fmtLat_int h 1 3]; rfl⟩

theorem computesInts_vmin : ComputesInts .vmin 1 fun _ _ a b => min a b := by
  have hmin : ∀ a b : Int, min a b = if b < a then b else a := fun a b => by rw [min_comm, min_def_lt]
  intro f s h
  simp only [hmin]
  exact ⟨veMinmax f false, by rw [← fmtLat_int h 1 3]; rfl⟩

theorem computesInts_vmax : ComputesInts .vmax 1 fun _ _ a b => max a b := by
  intro f s h
  simp only [max_def_lt]
  exact ⟨veMinmax f true, by rw [← fmtLat_int h 1 3]; rfl⟩

/-- The high half of VMUL is the exact product divided by 2 to the width of an element, rounded down. -/
theorem computesInts_vmul : ComputesInts .vmul 3 fun xs es a b => if xs = 0 then a * b else a * b / 2 ^ es := by
  intro f s _
  simp only [← Nat.cast_ofNat (R := Int), ← Nat.cast_pow]
  exact ⟨_, rfl⟩

theorem computesFloats_vadd : ComputesFloats .vadd fun f => veFloat f addV :=
  fun f _ h => ⟨fun a b => a + b, by rw [← fmtLat_float h 1 3]; rfl⟩

theorem computesFloats_vsub : ComputesFloats .vsub fun f => veFloat f fun dn a b => addV dn a b.negate :=
  fun f _ h => ⟨fun a b => a - b, by rw [← fmtLat_float h 1 3]; rfl⟩

theorem computesFloats_vmul : ComputesFloats .vmul fun f => veFloat f fun _ a b => mulV a b := fun _ _ _ => ⟨_, rfl⟩

theorem computesFloats_vmin : ComputesFloats .vmin fun f => veMinmax f false :=
  fun f _ h => ⟨fun a b => if b < a then b else a, by rw [← fmtLat_float h 1 3]; rfl⟩

theorem computesFloats_vmax : ComputesFloats .vmax fun f => veMinmax f true :=
  fun f _ h => ⟨fun a b => if a < b then b else a, by rw [← fmtLat_float h 1 3]; rfl⟩

/-! ### Shifts (R174) -/

/-- `mk` shifts by `op`. -/
def Shifts (mk : S3 → Instr) (op : Int → Nat → Int) : Prop := ∀ (f : S3) (s : State), exec (mk f) s = issue s (mk f) (planVeShift f op)

theorem shifts_vshl : Shifts .vshl fun a n => a * 2 ^ n := by
  intro f s
  simp only [← Nat.cast_ofNat (R := Int), ← Nat.cast_pow]
  rfl

theorem shifts_vshr : Shifts .vshr fun a n => a / 2 ^ n := by
  intro f s
  simp only [← Nat.cast_ofNat (R := Int), ← Nat.cast_pow]
  rfl

theorem Shifts.issues {mk : S3 → Instr} {op : Int → Nat → Int} (h : Shifts mk op) {f : S3} {s : State} (hready : Ready s (mk f))
    (hok : veOk2 s.here s.cur.tag f = true) (hdst : s.here.lslotOk s.cur.tag f.dst = true) :
    let es := esBits f.es
    let t := s.cur.tag
    let n (l e : Nat) : Nat := min 127 (match f.b with
      | .imm v _ => v.toNat
      | x => elemOf es (s.here.lsrcVal t l true 0 f.fs es f.dst.w x) e)
    let on := s.lanesFor f.h.g
    Issues (mk f) s (s.afterLanes on f.dst 1
      (fun k => (k.hold1 t false f.dst.w f.a on fun l => s.here.va t l f).hold1 t true f.dst.w f.b on fun l => s.here.lctl t l true f.b)
      fun l => joinRes es ((List.range (4 * f.dst.w / es)).map fun e =>
        reduceI f.sub.sat f.fs (op (extI f.fs (elemOf es (s.here.va t l f) e) es) (n l e)) es)) :=
  issues_lanes (h f s) hready hok hdst rfl rfl (fun _ => rfl) fun _ => (Core.hold1_walk ..).trans (Core.hold1_walk ..)

/-! ### One source (R174, R177) -/

theorem issues_ve1 {i : Instr} {s : State} {g : Guard} {dst : Slot} {a : Src} {es lat : Nat} {code : BitVec 3} {fs : Bool} {v : Nat → Nat → Nat × Flags}
    {v' : Nat → Nat × Flags} (hexec : exec i s = issue s i (planVe1 g dst a es lat code fs v)) (hready : Ready s i)
    (hsrc : s.here.lsrcOk s.cur.tag false a = true) (hw : s.here.lW s.cur.tag false dst.w a = true) (hels : wholeEls es dst.w = true)
    (hdst : s.here.lslotOk s.cur.tag dst = true) (hv : ∀ l, v l (s.here.lsrcVal s.cur.tag l false code fs es dst.w a) = v' l) :
    Issues i s (s.afterLanes (s.lanesFor g) dst lat (fun k => k.hold1 s.cur.tag false dst.w a (s.lanesFor g) fun l =>
      s.here.lsrcVal s.cur.tag l false code fs es dst.w a) v') :=
  issues_lanes hexec hready (by simp [hsrc, hw, hels]) hdst rfl rfl hv fun _ => Core.hold1_walk ..

section
variable {mk : S3a → Instr} {neg : Bool} {f : S3a} {s : State} (hexec : exec (mk f) s = issue s (mk f) (planVabs f neg)) (hready : Ready s (mk f))
  (hsrc : s.here.lsrcOk s.cur.tag false f.a = true) (hw : s.here.lW s.cur.tag false f.dst.w f.a = true) (hels : wholeEls (esBits f.es) f.dst.w = true)
  (hdst : s.here.lslotOk s.cur.tag f.dst = true)
include hexec hready hsrc hw hels hdst

theorem issues_vabs_int (hfmt : f.sub.fmt = 0) :
    let es := esBits f.es
    let a (l : Nat) : Nat := s.here.lsrcVal s.cur.tag l false 0 f.fs es f.dst.w f.a
    Issues (mk f) s (s.afterLanes (s.lanesFor f.h.g) f.dst 1 (fun k => k.hold1 s.cur.tag false f.dst.w f.a (s.lanesFor f.h.g) a) fun l =>
      joinRes es ((List.range (4 * f.dst.w / es)).map fun e => reduceI f.sub.sat f.fs
        (let v := extI f.fs (elemOf es (a l) e) es
         if neg then -v else if v < 0 then -v else v) es)) := by
  simp only [← hfmt]
  refine issues_ve1 hexec hready hsrc hw hels hdst fun l => ?_
  simp only [mapEls, hfmt, if_true]
  rfl

/-- The sign bit of a float element. -/
theorem issues_vabs_float (hfmt : f.sub.fmt ≠ 0) :
    let es := esBits f.es
    let a (l : Nat) : Nat := s.here.lsrcVal s.cur.tag l false f.sub.fmt f.fs es f.dst.w f.a
    Issues (mk f) s (s.afterLanes (s.lanesFor f.h.g) f.dst 1 (fun k => k.hold1 s.cur.tag false f.dst.w f.a (s.lanesFor f.h.g) a) fun l =>
      joinRes es ((List.range (4 * f.dst.w / es)).map fun e =>
        let x := elemOf es (a l) e
        (if neg then x ^^^ 2 ^ (es - 1) else x % 2 ^ (es - 1), 0))) := by
  refine issues_ve1 hexec hready hsrc hw hels hdst fun l => ?_
  simp only [mapEls, hfmt, if_false]

end

/-! ### The fused forms (R176) -/

theorem fmaEl_eq (f : S3c) (sub : Bool) (md : RMode) (x y z : Nat) : fmaEl f sub md x y z =
    let es := esBits f.es
    let F := fmtOf f.c.fmt
    if f.c.fmt = 0 then
      let m := extI f.fs x es * extI f.fs y es
      reduceI f.c.rms f.fs (if sub then extI f.fs z es - m else extI f.fs z es + m) es
    else
      let m := mulV (dec F x) (dec F y)
      let r := addV md.isDown (if sub then m.1.negate else m.1) (dec F z)
      let c := rnd F md false r.1
      (c.1, c.2 ||| if m.2 || r.2 then fNV else 0) := by
  simp only [fmaEl, add_comm (extI f.fs z _)]
  rfl

theorem exec_fused : ∀ p ∈ ([(.vfma, false), (.vfms, true)] : List ((S3c → Instr) × Bool)), ∀ (f : S3c) (s : State),
    exec (p.1 f) s = issue s (p.1 f) (planVfma f p.2) := by
  simp only [List.forall_mem_cons]
  exact ⟨fun _ _ => rfl, fun _ _ => rfl, List.forall_mem_nil _⟩

/-- VFMA and VFMS: an element of lane l rounds as element e of its own lane. -/
theorem issues_fma {mk : S3c → Instr} {sub : Bool} {f : S3c} {s : State} (hexec : exec (mk f) s = issue s (mk f) (planVfma f sub)) (hready : Ready s (mk f))
    (hok : veOk3 s.here s.cur.tag f = true) (hdst : s.here.lslotOk s.cur.tag f.dst = true) :
    let es := esBits f.es
    let t := s.cur.tag
    Issues (mk f) s (s.afterLanes (s.lanesFor f.h.g) f.dst 4 (fun k => k.chold2 t f f.dst.w (s.lanesFor f.h.g)) fun l =>
      joinRes es ((List.range (4 * f.dst.w / es)).map fun e =>
        fmaEl f sub (s.veMode 0 (if f.c.rms then 6 else 0) (s.here.startOf t f.dst) l e) (elemOf es (s.here.ca t l f f.dst.w) e)
          (elemOf es (s.here.cb' t l f f.dst.w) e) (elemOf es (s.here.lslotVal t l (slotC f.c f.dst)) e))) :=
  issues_lanes hexec hready hok hdst rfl rfl (fun _ => rfl) fun _ => Core.chold2_walk ..

/-! ### The statements -/

/-- Settles O32: each instruction is a plan of lanes of its exact operation, element by element. That a held immediate count enters the latch as it is read, at
the destination's width, is the model's choice (log 102). -/
theorem vectorIntegers : Obligations.VectorIntegers := by
  refine ⟨?_, ?_, ?_, ?_⟩ <;> simp only [List.forall_mem_cons]
  · exact ⟨fun _ _ hr hf ho hd => computesInts_vadd.issues hr ho hd hf, fun _ _ hr hf ho hd => computesInts_vsub.issues hr ho hd hf,
      fun _ _ hr hf ho hd => computesInts_vmin.issues hr ho hd hf, fun _ _ hr hf ho hd => computesInts_vmax.issues hr ho hd hf,
      fun _ _ hr hf ho hd => computesInts_vmul.issues hr ho hd hf, List.forall_mem_nil _⟩
  · exact ⟨fun _ _ hr ho hd => issues_veBits hr ho hd rfl, fun _ _ hr ho hd => issues_veBits hr ho hd rfl, fun _ _ hr ho hd => issues_veBits hr ho hd rfl,
      List.forall_mem_nil _⟩
  · exact ⟨fun _ _ => shifts_vshl.issues, fun _ _ => shifts_vshr.issues, List.forall_mem_nil _⟩
  · exact ⟨fun _ _ hr hf ha hw he hd => issues_vabs_int (neg := false) rfl hr ha hw he hd hf,
      fun _ _ hr hf ha hw he hd => issues_vabs_int (neg := true) rfl hr ha hw he hd hf, List.forall_mem_nil _⟩

/-- Settles O33: float elements are rounded once (`ComputesFloats`), the sign bit is `issues_vabs_float`, and a fused form is its element (`fmaEl_eq`). -/
theorem vectorFloats : Obligations.VectorFloats := by
  refine ⟨?_, ?_, ?_, fun p hp f s hready hok hdst => ?_⟩
  · simp only [List.forall_mem_cons]
    exact ⟨fun _ _ hr hf ho hd => computesFloats_vadd.issues hr ho hd hf, fun _ _ hr hf ho hd => computesFloats_vsub.issues hr ho hd hf,
      fun _ _ hr hf ho hd => computesFloats_vmul.issues hr ho hd hf, List.forall_mem_nil _⟩
  · simp only [List.forall_mem_cons]
    exact ⟨fun _ _ hr hf ho hd => computesFloats_vmin.issues hr ho hd hf, fun _ _ hr hf ho hd => computesFloats_vmax.issues hr ho hd hf,
      List.forall_mem_nil _⟩
  · simp only [List.forall_mem_cons]
    exact ⟨fun _ _ hr hf ha hw he hd => issues_vabs_float (neg := false) rfl hr ha hw he hd hf,
      fun _ _ hr hf ha hw he hd => issues_vabs_float (neg := true) rfl hr ha hw he hd hf, List.forall_mem_nil _⟩
  · simp only [← fmaEl_eq]
    exact issues_fma (exec_fused p hp f s) hready hok hdst

end Sys2Proof.Machine
end

section
/-! Comparison, selection, copies, conversions and moves between lanes in the vector engine (O34, O35, O36). -/

namespace Sys2Proof.Machine

open Sys2Proof

/-! ### VCMP (R179) -/

/-- A predicate whose bits in `on` are written by `r`. -/
def writeLanes (r : Nat → Bool) (on : List Nat) (p : W64) : W64 :=
  on.foldl (fun p l => if r l then p ||| (1#64 <<< l) else p &&& ~~~(1#64 <<< l)) p

theorem getLsbD_writeLane (p : W64) (b : Bool) (m : Nat) {l : Nat} (hl : l < 64) :
    (if b then p ||| (1#64 <<< m) else p &&& ~~~(1#64 <<< m)).getLsbD l = if l = m then b else p.getLsbD l := by
  have hone : (1#64 <<< m).getLsbD l = decide (l = m) := by
    simp only [BitVec.getLsbD_shiftLeft, BitVec.getLsbD_one]
    grind
  cases b
  · rw [if_neg Bool.false_ne_true, BitVec.getLsbD_and, BitVec.getLsbD_not, hone]
    by_cases h : l = m <;> simp [h, hl]
  · rw [if_pos rfl, BitVec.getLsbD_or, hone]
    by_cases h : l = m <;> simp [h]

theorem getLsbD_writeLanes (r : Nat → Bool) (on : List Nat) (p : W64) {l : Nat} (hl : l < 64) :
    (writeLanes r on p).getLsbD l = if l ∈ on then r l else p.getLsbD l := by
  induction on generalizing p with
  | nil => rfl
  | cons m on ih =>
    rw [writeLanes, List.foldl_cons, ← writeLanes, ih, getLsbD_writeLane p (r m) m hl]
    by_cases hon : l ∈ on
    · simp [hon]
    · by_cases hm : l = m <;> simp [hon, hm]

theorem planVcmp_regs {f : S3cmp} {s : State} (ha : s.here.lsrcOk s.cur.tag false f.a = true) (hb : s.here.lsrcOk s.cur.tag true f.b = true)
    (hwa : s.here.lW s.cur.tag false (esBits f.es / 4) f.a = true) (hwb : s.here.lW s.cur.tag true (esBits f.es / 4) f.b = true) {v : W64} :
    let t := s.cur.tag
    let es := esBits f.es
    let w := es / 4
    let a (l : Nat) : Nat := s.here.lsrcVal t l false f.sub.fmt f.fs es w f.a
    let b (l : Nat) : Nat := s.here.lsrcVal t l true f.sub.fmt f.fs es w f.b
    let on := s.lanesFor f.h.g
    let old := s.here.vpredOf f.pd.toNat
    (∀ l, l < 64 → v.getLsbD l = if l ∈ on then predMode f.mode (old.getLsbD l) (condOf f.sub.fmt f.fs f.sub.cond.toNat es (a l) (b l)) else old.getLsbD l) →
    planVcmp f s = .regs s 2 fun k => ((k.hold1 t false w f.a on a).hold1 t true w f.b on b).setVpred f.pd.toNat v := by
  intro t es w a b on old hv
  have hwrite : v = writeLanes (fun l => predMode f.mode (old.getLsbD l) (condOf f.sub.fmt f.fs f.sub.cond.toNat es (a l) (b l))) on old :=
    BitVec.eq_of_getLsbD_eq fun l hl => by rw [getLsbD_writeLanes _ _ _ hl, hv l hl]
  rw [hwrite, planVcmp, if_neg (by simp [ha, hb, hwa, hwb])]
  rfl

/-! ### VIOTA (R182) -/

/-- The start of VIOTA in one lane: an immediate, or a control operand. -/
def iotaStart (f : S2r) (s : State) (l : Nat) : Int :=
  match f.a with
  | .imm v _ => if f.fs then v.toInt else v.toNat
  | a => extI f.fs (s.here.lsrcVal s.cur.tag l false 0 false 4 0 a) (4 * s.here.srcW s.cur.tag false 0 a)

theorem planViota_eq (f : S2r) (s : State) :
    let es := esBits f.es
    let n := 4 * f.dst.w / es
    planViota f s = planLanes f.h.g f.dst 1 (s.here.lsrcOk s.cur.tag false f.a && wholeEls es f.dst.w)
      (fun k on => k.hold1 s.cur.tag false f.dst.w f.a on fun l =>
        if f.a.isImm then wrapI (iotaStart f s l) (4 * f.dst.w) else s.here.lctl s.cur.tag l false f.a)
      (fun l => (joinElems es ((List.range n).map fun e => wrapI (iotaStart f s l + (l * n + e : Nat)) es), 0)) s := by
  have hstart : ∀ l, iotaStart f s l = match f.a with
      | .imm v _ => if f.fs then v.toInt else (v.toNat : Int)
      | a => extI f.fs (s.here.lctl s.cur.tag l false f.a) (4 * s.here.srcW s.cur.tag false 0 a) := by
    intro l
    unfold iotaStart
    cases f.a <;> rfl
  simp only [hstart]
  rfl

/-- The statement counts the elements by integers: its list is that of the numbers, lifted. -/
theorem iota_elements (x : Int) (l n es : Nat) : ((List.range n).map fun e => wrapI (x + (l * n + e : Nat)) es) =
    List.map (fun e : Int => wrapI (x + l * n + e) es) (do
      let a ← List.range n
      pure (a : Int)) := by
  rw [bind_pure_comp, List.map_eq_map, List.map_map]
  refine List.map_congr_left fun e _ => ?_
  rw [Function.comp_apply, Nat.cast_add, Nat.cast_mul, ← add_assoc]

/-! ### The first statement -/

/-- Settles O34: the lanes that VCMP goes through write their own bits (`getLsbD_writeLanes`); the other three are plans of lanes. -/
theorem vectorCompareAndMove : Obligations.VectorCompareAndMove := by
  refine ⟨fun f s hready ha hb hwa hwb v hv => ?_, fun f s hready hok hdst => ?_, fun f s hready hsrc hw hels hdst => ?_,
    fun f s hready hsrc hels hdst => ?_⟩
  · exact issues_of_regs rfl hready (planVcmp_regs ha hb hwa hwb hv) rfl ((Core.hold1_walk ..).trans (Core.hold1_walk ..))
  · exact issues_lanes rfl hready hok hdst rfl rfl (fun _ => rfl) fun _ => Core.chold2_walk ..
  · exact issues_ve1 rfl hready hsrc hw hels hdst fun _ => rfl
  · exact issues_lanes rfl hready (by simp [hsrc, hels]) hdst (planViota_eq f s) rfl (fun l => congrArg (joinElems _ ·, 0) (iota_elements ..))
      fun _ => Core.hold1_walk ..

/-! ### Conversions (R184, R185) -/

theorem cvtEl_eq (f : VcvtF) (md : RMode) (x : Nat) : cvtEl f md x =
    let ss := esBits f.se
    let sd := esBits f.es
    if f.sf = 0 ∧ f.sub.fmt = 0 then reduceI f.sub.sat f.fs (extI f.ss x ss) sd
    else if f.sf = 0 then rnd (fmtOf f.sub.fmt) md f.sub.sat (FVal.ofRat (extI f.ss x ss : Rat) false)
    else if f.sub.fmt = 0 then rndInt md f.fs sd (dec (fmtOf f.sf) x)
    else rnd (fmtOf f.sub.fmt) md f.sub.sat (dec (fmtOf f.sf) x) := by
  unfold cvtEl
  by_cases hs : f.sf = 0 <;> by_cases hd : f.sub.fmt = 0 <;> simp only [hs, hd, and_self, and_false, false_and, if_true, if_false]

/-- Settles O35: conversions are plans of lanes, element by element. That an immediate source of VCVT is a code of the source format in the source's element
size is the model's reading (log 30). -/
theorem vectorConversions : Obligations.VectorConversions := by
  refine ⟨fun f s hready hsrc hdst hels => ?_, fun f s hready hok hes hdst => ?_, fun f s hready hsrc hw hels heven hdst => ?_⟩
  · intro t ss sd n wa hcount a x on
    refine issues_lanes rfl hready ?_ hdst rfl rfl (fun _ => congrArg (joinRes sd) (List.map_congr_left fun _ _ => cvtEl_eq ..)) fun _ => Core.holdLanes_walk ..
    simpa [hsrc, hels] using hcount
  · exact issues_lanes rfl hready (by simp [hok, hes]) hdst rfl rfl (fun _ => rfl) fun _ => Core.vhold2_walk ..
  · exact issues_lanes rfl hready (by simp [hsrc, hw, hels, heven]) hdst rfl rfl (fun _ => rfl) fun _ => Core.hold1_walk ..

/-! ### Moves between lanes (R183, R186 to R188) -/

/-- A move gives each lane the value that `v` makes of the values of all lanes and of the lane's own control value. -/
theorem issues_move {i : Instr} {plan : State → Plan} {f : S3} {s : State} {lat : Nat} {v : (Nat → Nat) → Nat → Nat → Nat} {v' : Nat → Nat}
    (hok : veOkCtl s.here s.cur.tag f = true) (hdst : s.here.lslotOk s.cur.tag f.dst = true) (hexec : exec i s = issue s i plan) (hready : Ready s i)
    (hplan : plan s = planVmove f lat v s) (hv : ∀ l, v (fun j => s.here.va s.cur.tag j f) l (s.here.lctl s.cur.tag l true f.b) = v' l) :
    Issues i s (s.afterLanes (s.lanesFor f.h.g) f.dst lat (fun k => (k.hold1 s.cur.tag false f.dst.w f.a (s.lanesFor f.h.g) fun l =>
      s.here.va s.cur.tag l f).hold1 s.cur.tag true f.dst.w f.b (s.lanesFor f.h.g) fun l => s.here.lctl s.cur.tag l true f.b) fun l => (v' l, 0)) :=
  issues_lanes hexec hready hok hdst hplan rfl (fun l => congrArg (·, 0) (hv l)) fun _ => (Core.hold1_walk ..).trans (Core.hold1_walk ..)

/-- Settles O36: VBCAST, VPERM and VROT are moves (`issues_move`), VSHUF a plan of two sources. -/
theorem vectorLaneMoves : Obligations.VectorLaneMoves := by
  refine ⟨fun f s hok hdst => ⟨fun hready hxs => ?_, fun hready hxs => ?_, fun hready => ?_, fun hready v hv => ?_⟩, fun f s hready hok hdst => ?_⟩
  · exact issues_move hok hdst rfl hready (if_pos hxs) fun _ => rfl
  · exact issues_move hok hdst rfl hready (if_neg hxs) fun _ => rfl
  · exact issues_move hok hdst rfl hready rfl fun _ => rfl
  · exact issues_move hok hdst rfl hready rfl fun l => (hv l).symm
  · exact issues_lanes rfl hready hok hdst rfl rfl (fun _ => rfl) fun _ => Core.vhold2_walk ..

end Sys2Proof.Machine
end

section
/-! Reductions, scans and dot products of the vector engine (O37). -/

namespace Sys2Proof.Machine

open Sys2Proof

/-! ### What is reduced -/

theorem bitN_toNat_eq_getLsbD {n : Nat} (v : BitVec n) (i : Nat) : bitN v.toNat i = v.getLsbD i := bitN_eq_testBit ..

/-- The values of one element across the lanes: a disabled lane gives nothing (R190). -/
theorem laneCol_eq (k : Core) (t : Nat) (f : S3) (w : Nat) (on : List Nat) (e : Nat) : laneCol k t f w on e = (List.range 64).map fun l =>
    if l ∈ on then some (elemOf (esBits f.es) (k.lsrcVal t l false f.sub.fmt f.fs (esBits f.es) w f.a) e) else none := by
  simp only [laneCol, List.contains_iff_mem]

theorem map_some_splitElems (es n v : Nat) : (splitElems es n v).map some = (List.range n).map fun e => some (elemOf es v e) := List.map_map ..

/-! ### VRED and VSCAN (R190, R191) -/

/-- What VRED and VSCAN with the control word `v` leave in the latches, of a source of width `w` whose value in lane l is `a l`. -/
def Core.holdRed (k : Core) (t : Nat) (f : S3) (w : Nat) (v : BitVec 14) (on : List Nat) (a : Nat → Nat) : Core :=
  (k.hold1 t false w f.a on a).hold1 t true f.dst.w f.b on fun _ => v.toNat

theorem Core.holdRed_walk (k : Core) (t : Nat) (f : S3) (w : Nat) (v : BitVec 14) (on : List Nat) (a : Nat → Nat) (u : Nat) :
    ((k.holdRed t f w v on a).engine u).walk = (k.engine u).walk := (Core.hold1_walk ..).trans (Core.hold1_walk ..)

/-- VSCAN across lanes holds the scan path for 64 cycles (R199). -/
def Core.scanning (T : Nat) (k : Core) : Core :=
  { k with busy := k.busy ++ [{ res := .unit 1, tick := T, op := none, hold := none, old := [], mask := [] }] }

/-- The operands of VRED and VSCAN other than VRED's within a lane. -/
def redOk (f : S3) (s : State) : Bool :=
  s.here.lsrcOk s.cur.tag false f.a && s.here.lW s.cur.tag false f.dst.w f.a && wholeEls (esBits f.es) f.dst.w

section
variable {f : S3} {s : State} {v : BitVec 14} {imm : Bool} (hb : f.b = .imm v imm)
include hb

theorem planVred_lanes (haxis : v.getLsbD 3 = false) :
    let es := esBits f.es
    planVred f s = planLanesIn f.h.g (fun l => !v.getLsbD 4 || decide (l = 0)) f.dst 12 (redOk f s)
      (fun k on => k.holdRed s.cur.tag f f.dst.w v on fun l => k.va s.cur.tag l f)
      (fun _ => joinRes es ((List.range (4 * f.dst.w / es)).map fun e =>
        reduceEls f.sub.fmt f.fs f.sub.sat es (v.toNat % 8) (laneCol s.here s.cur.tag f f.dst.w (s.lanesFor f.h.g) e))) s := by
  simp only [planVred, hb, redWord, bitN_toNat_eq_getLsbD, haxis, Core.holdRed]
  rfl

theorem planVred_elements (haxis : v.getLsbD 3 = true) :
    let es := esBits f.es
    let w := s.here.srcW s.cur.tag false (es / 4) f.a
    planVred f s = planLanes f.h.g f.dst 6 (s.here.lsrcOk s.cur.tag false f.a && decide (f.dst.w = es / 4) && wholeEls es w)
      (fun k on => k.holdRed s.cur.tag f w v on fun l => k.lsrcVal s.cur.tag l false f.sub.fmt f.fs es w f.a)
      (fun l => reduceEls f.sub.fmt f.fs f.sub.sat es (v.toNat % 8)
        ((List.range (4 * w / es)).map fun e => some (elemOf es (s.here.lsrcVal s.cur.tag l false f.sub.fmt f.fs es w f.a) e))) s := by
  simp only [planVred, hb, redWord, bitN_toNat_eq_getLsbD, haxis, Core.holdRed, ← map_some_splitElems]
  rfl

theorem planVscan_elements (haxis : v.getLsbD 3 = true) :
    let es := esBits f.es
    planVscan f s = planLanes f.h.g f.dst 16 (redOk f s) (fun k on => k.holdRed s.cur.tag f f.dst.w v on fun l => k.va s.cur.tag l f)
      (fun l => joinRes es (scanEls f.sub.fmt f.fs f.sub.sat (v.getLsbD 5) es (v.toNat % 8)
        ((List.range (4 * f.dst.w / es)).map fun e => some (elemOf es (s.here.va s.cur.tag l f) e)))) s := by
  simp only [planVscan, hb, redWord, bitN_toNat_eq_getLsbD, haxis, Core.holdRed, ← map_some_splitElems]
  rfl

/-- The effects of VSCAN across lanes. -/
def State.afterScan (s : State) (f : S3) (v : BitVec 14) : State :=
  let es := esBits f.es
  (s.afterLanes (s.lanesFor f.h.g) f.dst 68 (fun k => k.holdRed s.cur.tag f f.dst.w v (s.lanesFor f.h.g) fun l => s.here.va s.cur.tag l f) fun l =>
    joinRes es ((List.range (4 * f.dst.w / es)).map fun e =>
      (scanEls f.sub.fmt f.fs f.sub.sat (v.getLsbD 5) es (v.toNat % 8) (laneCol s.here s.cur.tag f f.dst.w (s.lanesFor f.h.g) e)).getD l (0, 0))).modHere
    (Core.scanning (s.now + 64 * s.d))

omit hb in
theorem State.keeps_afterScan (s : State) (f : S3) (v : BitVec 14) : s.Keeps Engine.walk (s.afterScan f v) :=
  (State.keeps_afterLanes fun _ => Core.holdRed_walk ..).trans (State.keeps_modHere fun _ => rfl)

theorem planVscan_lanes (haxis : v.getLsbD 3 = false) (hok : redOk f s = true) (hdst : s.here.lslotOk s.cur.tag f.dst = true) :
    planVscan f s = .go { s := s.afterScan f v, lat := 68 } := by
  simp only [redOk, Bool.and_eq_true] at hok
  simp only [planVscan, hb, redWord, bitN_toNat_eq_getLsbD, haxis, Bool.false_eq_true, if_false, List.map_map]
  rw [planLanes_go (by simp [hok]) hdst]
  simp only [State.afterScan, Core.holdRed, hb]
  exact congrArg (fun x : State => Plan.go { s := x.modHere (Core.scanning (s.now + 64 * s.d)), lat := 68 }) (State.afterLanes_congr rfl fun _ => rfl)

end

/-! ### VDOT (R192) -/

theorem foldl_add_eq_sum {α : Type} (g : α → Int) (xs : List α) (c : Int) : xs.foldl (fun acc x => acc + g x) c = c + (xs.map g).sum := by
  induction xs generalizing c with
  | nil => simp
  | cons x xs ih => rw [List.foldl_cons, ih, List.map_cons, List.sum_cons, add_assoc]

/-- The elements of two values in pairs. -/
theorem zip_splitElems (es n a b : Nat) : (splitElems es n a).zip (splitElems es n b) = (List.range n).map fun e => (elemOf es a e, elemOf es b e) :=
  List.zip_map' ..

theorem dotLane_eq (f : S3c) (n a b c : Nat) : dotLane f n a b c =
    let es := esBits f.es
    let F := fmtOf f.c.fmt
    let es' := List.range n
    if f.c.fmt = 0 then
      reduceI f.c.rms f.fs (extI f.fs c 32 + (es'.map fun e => extI f.fs (elemOf es a e) es * extI f.fs (elemOf es b e) es).sum) 32
    else
      let ps := es'.map fun e => mulV (dec F (elemOf es a e)) (dec F (elemOf es b e))
      let r := sumV (dec .fp32 c :: ps.map fun p => p.1)
      let z := rnd .fp32 .rne false r.1
      (z.1, z.2 ||| if r.2 || ps.any (fun p => p.2) then fNV else 0) := by
  simp only [dotLane, zip_splitElems, List.foldl_map, foldl_add_eq_sum, List.map_map]
  rfl

/-! ### The statement -/

/-- Settles O37: VRED and VSCAN by the control word that their immediate gives, across lanes or within one; VDOT as the sum of its products. That a VDOT of two
immediates takes the destination's width is the model's reading (log 28). -/
theorem vectorReductions : Obligations.VectorReductions := by
  refine ⟨fun f s v imm hb hsrc hdst => ?_, fun f s hready hsrcA hsrcB hslotC hdw hwa hwb hels hdst => ?_⟩
  · have hred : s.here.lW s.cur.tag false f.dst.w f.a = true → wholeEls (esBits f.es) f.dst.w = true → redOk f s = true := fun hw hels => by
      simp [redOk, hsrc, hw, hels]
    have hwr : ∀ on : List Nat, on.filter (fun l => !v.getLsbD 4 || decide (l = 0)) = if v.getLsbD 4 then on.filter fun l => decide (l = 0) else on := by
      cases v.getLsbD 4 <;> simp
    refine ⟨fun hready haxis hw hels => ?_, fun hready haxis hdw hels => ?_, fun hready haxis hw hels => ?_, fun hready haxis hw hels => ?_⟩
    · simp only [← laneCol_eq, ← hwr]
      exact issues_lanesIn rfl hready (hred hw hels) hdst (planVred_lanes hb haxis) rfl (fun _ => rfl) fun _ => Core.holdRed_walk ..
    · exact issues_lanes rfl hready (by simp [hsrc, hdw, hels]) hdst (planVred_elements hb haxis) rfl (fun _ => rfl) fun _ => Core.holdRed_walk ..
    · exact issues_lanes rfl hready (hred hw hels) hdst (planVscan_elements hb haxis) rfl (fun _ => rfl) fun _ => Core.holdRed_walk ..
    · simp only [← laneCol_eq]
      exact issues_of_keeps rfl hready (planVscan_lanes hb haxis (hred hw hels) hdst) rfl (State.keeps_afterScan ..) rfl
  · exact issues_lanes rfl hready (by simp [hsrcA, hsrcB, hslotC, hdw, hwa, hwb, hels]) hdst rfl rfl (fun _ => dotLane_eq ..) fun _ => Core.chold2_walk ..

end Sys2Proof.Machine
end

section
/-! Accesses of the V-buffer: stalls for its banks, addresses of lanes, and entries of circular buffers (O38). -/

namespace Sys2Proof.Machine

open Sys2Proof

/-! ### States at the same tick -/

/-- What tells the time of a core's engines: its group and its divisors. -/
def Core.clock (k : Core) : Option Nat × W32 := (k.grp, k.ckd)

/-- Every engine of the core at the cursor stands where it did, at the same tick and under the same divisor. -/
structure State.Steady (s s' : State) : Prop where
  keeps : s.Keeps Engine.walk s'
  now : s'.now = s.now
  d : s'.d = s.d

theorem State.Steady.refl (s : State) : s.Steady s := ⟨State.Keeps.refl s, rfl, rfl⟩

theorem State.Steady.trans {s s' s'' : State} (h : s.Steady s') (h' : s'.Steady s'') : s.Steady s'' :=
  ⟨h.keeps.trans h'.keeps, h'.now.trans h.now, h'.d.trans h.d⟩

theorem State.Steady.core {s s' : State} (h : s.Steady s') : s'.cur.core = s.cur.core := congrArg _ h.keeps.1

theorem State.steady_modHere {s : State} {f : Core → Core} (hwalk : ∀ u, ((f s.here).engine u).walk = (s.here.engine u).walk)
    (hclock : (f s.here).clock = s.here.clock) : s.Steady (s.modHere f) := by
  obtain ⟨hgrp, hckd⟩ := Prod.mk.inj hclock
  refine ⟨State.keeps_modHere hwalk, ?_, ?_⟩
  · have hgroup : (s.modHere f).groupOf s.cur.core = s.groupOf s.cur.core := by
      rw [State.groupOf, State.groupOf, State.modHere, State.core_modCore, ← State.here, hgrp]
      rfl
    rw [State.now, State.now, State.reckOf, State.reckOf, ← hgroup]
    rfl
  · rw [State.d, State.here_modHere, Core.div, hckd]
    rfl

theorem State.Steady.modHere {s x : State} (h : s.Steady x) {f : Core → Core} (hwalk : ∀ u, ((f x.here).engine u).walk = (x.here.engine u).walk)
    (hclock : (f x.here).clock = x.here.clock) : s.Steady (x.modHere f) := h.trans (State.steady_modHere hwalk hclock)

theorem State.steady_launch (s : State) (fixedAt : Option Nat) (async : Bool) (runs : List Run) (w : Work) : s.Steady (s.launch fixedAt async runs w).1 :=
  ⟨State.keeps_of_rim (State.launch_rim ..), by cases fixedAt <;> rfl, by cases fixedAt <;> rfl⟩

@[simp] theorem Core.holdLanes_clock (k : Core) (t : Nat) (b : Bool) (x : Src) (on : List Nat) (w : Nat) (v : Nat → Nat) :
    (k.holdLanes t b x on w v).clock = k.clock := by
  unfold Core.holdLanes
  split
  · rfl
  · split <;> rfl

theorem Core.hold1_clock (k : Core) (t : Nat) (b : Bool) (dw : Nat) (x : Src) (on : List Nat) (v : Nat → Nat) :
    (k.hold1 t b dw x on v).clock = k.clock := Core.holdLanes_clock ..

/-! ### Stalls for banks (R197) -/

/-- An update of a core outside its engines, and of one engine where it stands. -/
theorem State.Steady.asking {s x : State} (h : s.Steady x) (t : Nat) {g : Core → Core} (hg : ∀ k, (g k).eng = k.eng ∧ (g k).clock = k.clock)
    {F : Engine → Engine} (hF : ∀ e, (F e).walk = e.walk) : s.Steady (x.modHere fun k => (g k).modEngine t F) :=
  h.modHere (fun u => (Core.walk_modEngine _ _ u _ hF).trans (by rw [Core.engine, Core.engine, (hg _).1])) (hg _).2

theorem State.steady_askBanks (s : State) (nb : Nat) (spans : List (Nat × Nat)) : s.Steady (s.askBanks nb spans).1 := by
  have hstall : ∀ (c : Prop) [Decidable c] (t col n : Nat), s.Steady (if c then s else s.modHere fun k => k.bankStall t col n) := fun c _ t col n => by
    by_cases h : c
    · rw [if_pos h]
      exact State.Steady.refl s
    · rw [if_neg h]
      exact State.steady_modHere (fun _ => rfl) rfl
  unfold State.askBanks
  dsimp only
  split
  · exact State.Steady.asking (g := fun k => k.bankStall _ _ _) (hstall _ _ _ _) _ (fun _ => ⟨rfl, rfl⟩) fun _ => rfl
  · exact State.Steady.asking (g := fun k => k.notePorts _ _ _) (hstall _ _ _ _) _ (fun _ => ⟨rfl, rfl⟩) fun _ => rfl

section
variable {s : State} {nb : Nat} {spans : List (Nat × Nat)}

theorem State.afterBanks_given {x : State} (h : s.banked nb spans = some x) (go : State → Plan) : s.Steady x ∧ s.afterBanks nb spans go = go x := by
  unfold State.banked at h
  split at h
  · next hall =>
    cases h
    exact ⟨State.steady_askBanks .., if_pos hall⟩
  · cases h

theorem State.afterBanks_stall (h : s.banked nb spans = none) (go : State → Plan) : s.afterBanks nb spans go = .hold (s.askBanks nb spans).1 1 := by
  unfold State.banked at h
  split at h
  · cases h
  · next hall => exact if_neg hall

theorem stalls_of_plan {i : Instr} {plan : State → Plan} (hexec : exec i s = issue s i plan) (hready : Ready s i)
    (hplan : plan s = .hold (s.askBanks nb spans).1 1) : StallsForBanks i s nb spans := by
  have hhold : guarded plan s (s.enabled (guardOf i)) = .hold (s.askBanks nb spans).1 1 := by
    rw [hready.on]
    exact hplan
  rw [StallsForBanks, hexec, issue_clear hready.clear]
  simp only [settle, hhold, Nat.one_mul]

end

/-! ### Accesses of lanes: a protected range, the banks, then the access (R196, R197) -/

section
variable {i : Instr} {plan : State → Plan} {s : State} {prot : Bool} {spans : List (Nat × Nat)} {go : State → Plan} (hexec : exec i s = issue s i plan)
  (hready : Ready s i) (hplan : plan s = if prot then .fault s .segmentLegality else s.afterBanks 16 spans go)
include hexec hready hplan

theorem faults_protected (hown : isAll i = false) (hprot : prot = true) : Faults i s .segmentLegality :=
  faults_of_plan hexec hready hown (by decide) (hplan.trans (if_pos hprot))

variable (hprot : prot = false)
include hprot

theorem stalls_unprotected (hbanks : s.banked 16 spans = none) : StallsForBanks i s 16 spans :=
  stalls_of_plan hexec hready ((hplan.trans (if_neg (by simp [hprot]))).trans (State.afterBanks_stall hbanks go))

theorem issues_unprotected {x s' : State} {g : Go} (hbanks : s.banked 16 spans = some x) (hgo : go x = .go g) (hj : g.jump = none)
    (hs : s.Steady x → g.s = s' ∧ s.Keeps Engine.walk g.s) : Issues i s s' := by
  obtain ⟨hsteady, hafter⟩ := State.afterBanks_given hbanks go
  obtain ⟨hgs, hkeeps⟩ := hs hsteady
  exact issues_of_keeps hexec hready ((hplan.trans (if_neg (by simp [hprot]))).trans (hafter.trans hgo)) hgs (hgs ▸ hkeeps) hj

end

/-! ### VLD, VST, VLDX and VSTX (R193, R194, R196) -/

/-- The address of a lane: a base with a stride for each lane (`stride`), or a base with the lane's own index. -/
def vmemAddr (f : S3) (stride : Bool) (k : Core) (t l : Nat) : Int :=
  if stride then k.lctl t l false f.a + l * k.lctlS t l true f.b else k.lctl t l false f.a + k.lctl t l true f.b * 2 ^ f.sub.xs.toNat

theorem addrStride_eq (f : S3) : addrStride f = vmemAddr f true := rfl

theorem addrIndex_eq (f : S3) : addrIndex f = vmemAddr f false := by
  funext k t l
  simp [addrIndex, vmemAddr]

theorem exec_vmem : ∀ p ∈ ([(.vld, false, true), (.vst, true, true), (.vldx, false, false), (.vstx, true, false)] : List ((S3 → Instr) × Bool × Bool)),
    ∀ (f : S3) (s : State), isAll (p.1 f) = false ∧ exec (p.1 f) s = issue s (p.1 f) (planVmem f p.2.1 (vmemAddr f p.2.2) (holdCtl2 f p.2.2)) := by
  simp only [List.forall_mem_cons, ← addrStride_eq, ← addrIndex_eq]
  exact ⟨fun _ _ => ⟨rfl, rfl⟩, fun _ _ => ⟨rfl, rfl⟩, fun _ _ => ⟨rfl, rfl⟩, fun _ _ => ⟨rfl, rfl⟩, List.forall_mem_nil _⟩

theorem addrsIn_iff (on : List Nat) (A : Nat → Int) (w lim : Nat) :
    addrsIn on A w lim = true ↔ ∀ l ∈ on, 0 ≤ A l ∧ A l + (sliceBytes w : Nat) ≤ (lim : Int) := by
  simp [addrsIn]

theorem addrsIn_natCast_iff (on : List Nat) (E : Nat → Nat) (w lim : Nat) :
    addrsIn on (fun l => (E l : Nat)) w lim = true ↔ ∀ l ∈ on, E l + sliceBytes w ≤ lim := by
  simp only [addrsIn_iff]
  exact forall₂_congr fun l _ => by omega

theorem vbufSize_cast : ((vbufSize : Nat) : Int) = 2 ^ 22 := by norm_num [vbufSize]

theorem holdCtl2_walk (f : S3) (signed : Bool) (k : Core) (t : Nat) (on : List Nat) (u : Nat) : ((holdCtl2 f signed k t on).engine u).walk = (k.engine u).walk :=
  (Core.hold1_walk ..).trans (Core.hold1_walk ..)

theorem State.lanesFor_eq (s : State) (g : Guard) : s.lanesFor g = s.here.lanesOn g := rfl

section
variable {f : S3} {store : Bool} {A : Core → Nat → Nat → Int} {hold : Core → Nat → List Nat → Core} {s : State}
  (ha : s.here.lsrcOk s.cur.tag false f.a = true) (hb : s.here.lsrcOk s.cur.tag true f.b = true) (hdst : s.here.lslotOk s.cur.tag f.dst = true)
include ha hb hdst

theorem planVmem_range (hin : addrsIn (s.lanesFor f.h.g) (A s.here s.cur.tag) f.dst.w vbufSize = false) :
    planVmem f store A hold s = .fault s .bufferRange := by
  rw [State.lanesFor_eq] at hin
  rw [planVmem, if_neg (by simp [ha, hb, hdst]), if_pos (by simpa using hin)]

variable (hin : addrsIn (s.lanesFor f.h.g) (A s.here s.cur.tag) f.dst.w vbufSize = true)
include hin

theorem planVmem_access :
    let addrs := laneAddrs (s.lanesFor f.h.g) (A s.here s.cur.tag)
    planVmem f store A hold s =
      if store && s.vprot addrs f.dst.w then .fault s .segmentLegality
      else s.afterBanks 16 (laneSpans addrs f.dst.w) fun x =>
        if store then
          .go { s := (vstoreGo x addrs f.dst.w fun l => s.here.lslotVal s.cur.tag l f.dst).modHere fun k => hold k s.cur.tag (s.lanesFor f.h.g), lat := 2 }
        else
          let r := vloadGo x addrs (s.here.startOf s.cur.tag f.dst) f.dst.w
          .go { s := r.1.modHere fun k => hold k s.cur.tag (s.lanesFor f.h.g), lat := 8, op := some r.2 } := by
  rw [State.lanesFor_eq] at hin
  rw [planVmem, if_neg (by simp [ha, hb, hdst]), if_neg (by simpa using hin)]
  cases store <;> rfl

end

theorem State.vloadGo_steady (s : State) (addrs : List (Nat × Nat)) (start w : Nat) : s.Steady (vloadGo s addrs start w).1 := State.steady_launch ..

theorem State.vstoreGo_steady (s : State) (addrs : List (Nat × Nat)) (w : Nat) (v : Nat → Nat) : s.Steady (vstoreGo s addrs w v) := State.steady_launch ..

/-! ### VLDC and VSTC (R65, R195) -/

theorem exec_vcb : ∀ p ∈ ([(.vldc, false), (.vstc, true)] : List ((VcbF → Instr) × Bool)), ∀ (f : VcbF) (s : State),
    isAll (p.1 f) = false ∧ exec (p.1 f) s = issue s (p.1 f) (planVcb f p.2) := by
  simp only [List.forall_mem_cons]
  exact ⟨fun _ _ => ⟨rfl, rfl⟩, fun _ _ => ⟨rfl, rfl⟩, List.forall_mem_nil _⟩

/-- The offset of a lane in its entry. -/
def vcbOff (f : VcbF) (s : State) (l : Nat) : Nat := f.off.toNat * 64 + l * s.here.lctl s.cur.tag l true f.b

/-- The addresses of the enabled lanes, in the entry at PROD (`store`) or at CONS. -/
def vcbAddrs (f : VcbF) (store : Bool) (s : State) : List (Nat × Nat) :=
  let b := s.here.cbOf f.cb.toNat
  (s.lanesFor f.h.g).map fun l => (l, b.base + (if store then b.prod else b.cons).toNat % b.ents * b.size + vcbOff f s l)

/-- The hold of the stride. -/
def Core.holdVcb (k : Core) (f : VcbF) (t : Nat) (on : List Nat) : Core := k.hold1 t true f.dst.w f.b on fun l => k.lctl t l true f.b

/-- Loads and stores of lanes in an entry, from the state `x` that the banks leave of `s`. -/
def State.vcbLoaded (x s : State) (f : VcbF) (addrs : List (Nat × Nat)) : State :=
  (vloadGo x addrs (s.here.startOf s.cur.tag f.dst) f.dst.w).1.modHere fun k => k.holdVcb f s.cur.tag (s.lanesFor f.h.g)

def State.vcbStored (x s : State) (f : VcbF) (addrs : List (Nat × Nat)) : State :=
  (vstoreGo x addrs f.dst.w fun l => s.here.lslotVal s.cur.tag l f.dst).modHere fun k =>
    (k.holdVcb f s.cur.tag (s.lanesFor f.h.g)).modCb f.cb.toNat fun b => b.takeAttr (dataAttr f.sub.fmt f.es)

/-- The advance that XS asks for, `n` cycles on. -/
def State.advanced (y : State) (f : VcbF) (n : Nat) (fin : Nat → Nat → Nat → Fin) : State :=
  if f.sub.xs.getLsbD 0 then y.advanceAt (y.now + n * y.d) f.cb.toNat (fin y.cur.core f.cb.toNat 1) else y

section
variable {x s : State} (h : s.Steady x) (f : VcbF)
include h

theorem State.Steady.loaded (addrs : List (Nat × Nat)) : s.Steady (x.vcbLoaded s f addrs) :=
  (h.trans (State.vloadGo_steady ..)).modHere (fun _ => Core.hold1_walk ..) (Core.hold1_clock ..)

theorem State.Steady.stored (addrs : List (Nat × Nat)) : s.Steady (x.vcbStored s f addrs) :=
  (h.trans (State.vstoreGo_steady ..)).modHere (fun _ => Core.hold1_walk ..) (Core.hold1_clock ..)

theorem State.Steady.advanced_eq (n : Nat) (fin : Nat → Nat → Nat → Fin) : x.advanced f n fin =
    if f.sub.xs.getLsbD 0 then x.advanceAt (s.now + n * s.d) f.cb.toNat (fin s.cur.core f.cb.toNat 1) else x := by
  rw [State.advanced, h.now, h.d, h.core]

theorem State.Steady.advanced (n : Nat) (fin : Nat → Nat → Nat → Fin) : s.Steady (x.advanced f n fin) := by
  unfold State.advanced
  split
  · exact (h.trans (State.steady_launch ..)).modHere (fun _ => rfl) rfl
  · exact h

end

theorem planVcb_elements {f : VcbF} {s : State} (store : Bool) (hels : wholeEls (esBits f.es) f.dst.w = false) : planVcb f store s = .fault s .illegalOperand := by
  rw [planVcb, if_pos (by simp [hels])]

section
variable {f : VcbF} {store : Bool} {s : State} (hb : s.here.lsrcOk s.cur.tag true f.b = true) (hdst : s.here.lslotOk s.cur.tag f.dst = true)
  (hels : wholeEls (esBits f.es) f.dst.w = true)
include hb hdst hels

theorem planVcb_unconfigured (hents : (s.here.cbOf f.cb.toNat).ents = 0) : planVcb f store s = .fault s .illegalOperand := by
  rw [planVcb, if_neg (by simp [hb, hdst, hels]), if_pos (by simp [Cb.configured, hents])]

variable (hents : (s.here.cbOf f.cb.toNat).ents ≠ 0)
include hents

theorem planVcb_space (hspace : (s.here.cbOf f.cb.toNat).space ≠ 3) : planVcb f store s = .fault s .bufferAccess := by
  rw [planVcb, if_neg (by simp [hb, hdst, hels]), if_neg (by simp [Cb.configured, hents]), if_pos hspace]

variable (hspace : (s.here.cbOf f.cb.toNat).space = 3)
include hspace

theorem planVcb_format (h : (s.here.cbOf f.cb.toNat).holdsNot (dataAttr f.sub.fmt f.es) = true) : planVcb f store s = .fault s .format := by
  rw [planVcb, if_neg (by simp [hb, hdst, hels]), if_neg (by simp [Cb.configured, hents]), if_neg (not_not.2 hspace), if_pos h]

/-- Past the checks of the buffer and with an entry there: the bounds of the entry, a protected range, the banks, the access. -/
theorem planVcb_access (hattr : (s.here.cbOf f.cb.toNat).holdsNot (dataAttr f.sub.fmt f.es) = false)
    (hentry : (if store then (s.here.cbOf f.cb.toNat).canWrite s.now else (s.here.cbOf f.cb.toNat).canRead) = true) :
    let addrs := vcbAddrs f store s
    planVcb f store s =
      if addrsIn (s.lanesFor f.h.g) (fun l => (vcbOff f s l : Nat)) f.dst.w (s.here.cbOf f.cb.toNat).size = false then .fault s .bufferRange
      else if store && s.vprot addrs f.dst.w then .fault s .segmentLegality
      else s.afterBanks 16 (laneSpans addrs f.dst.w) fun x =>
        if store then .go { s := (x.vcbStored s f addrs).advanced f 2 .prod, lat := 2 }
        else
          .go { s := (x.vcbLoaded s f addrs).advanced f 8 .cons, lat := 8, op := some (vloadGo x (addrs) (s.here.startOf s.cur.tag f.dst) f.dst.w).2 } := by
  intro addrs
  have haddrs : (laneAddrs (s.here.lanesOn f.h.g) fun l => (f.off.toNat * 64 + l * s.here.lctl s.cur.tag l true f.b : Nat)).map
      (fun p => (p.1, (s.here.cbOf f.cb.toNat).entry (if store then (s.here.cbOf f.cb.toNat).prod else (s.here.cbOf f.cb.toNat).cons).toNat + p.2)) =
      addrs := List.map_map ..
  rw [planVcb, if_neg (by simp [hb, hdst, hels]), if_neg (by simp [Cb.configured, hents]), if_neg (not_not.2 hspace), if_neg (by simp [hattr]),
    if_neg (by simp [hentry])]
  simp only [haddrs, Bool.not_eq_true']
  cases store <;> rfl

end

theorem Cb.holdsNot_iff (b : Cb) (a : BitVec 5) : b.holdsNot a = true ↔ attrBlock b.attr = true ∨ attrRaw b.attr = false ∧ b.attr ≠ a := by
  simp [Cb.holdsNot, Cb.readsAs]

/-! ### The statement -/

/-- Settles O38: each access is a plan with the checks of its addresses first, and then `faults_protected`, `stalls_unprotected` or `issues_unprotected`. That the
advance is made although no lane is enabled, that an open buffer takes its format at issue, that a stall comes before the issue and that a buffer that is not
configured is an illegal operand are the model's readings (log 19, 26, 27, 47). -/
theorem vectorAccesses : Obligations.VectorAccesses := by
  refine ⟨fun p hp f s hready ha hb hdst => ?_, fun p hp f s hready hb hdst => ?_⟩
  · obtain ⟨hown, hexec⟩ := exec_vmem p hp f s
    have hiff := addrsIn_iff (s.lanesFor f.h.g) (vmemAddr f p.2.2 s.here s.cur.tag) f.dst.w vbufSize
    rw [vbufSize_cast] at hiff
    refine ⟨fun hout => ?_, fun hin => ?_⟩
    · obtain ⟨l, hl, hbad⟩ := hout
      refine faults_of_plan hexec hready hown (by decide) (planVmem_range ha hb hdst (Bool.eq_false_iff.2 fun h => ?_))
      exact absurd (hiff.1 h l hl) fun hok => hbad.elim (not_lt.2 hok.1) (not_lt.2 hok.2)
    · have hplan := planVmem_access (store := p.2.1) (hold := holdCtl2 f p.2.2) ha hb hdst (hiff.2 hin)
      refine ⟨fun hstore hprot => faults_protected hexec hready hplan hown (Bool.and_eq_true_iff.2 ⟨hstore, hprot⟩), fun hprot => ?_⟩
      have hfree : (p.2.1 && s.vprot (laneAddrs (s.lanesFor f.h.g) (vmemAddr f p.2.2 s.here s.cur.tag)) f.dst.w) = false := Bool.and_eq_false_iff.2 hprot
      refine ⟨stalls_unprotected hexec hready hplan hfree, fun x hx hstore => ?_, fun x hx hstore => ?_⟩
      · refine issues_unprotected hexec hready hplan hfree hx (if_neg (by simp [hstore])) rfl fun hsteady => ⟨rfl, ?_⟩
        exact (hsteady.trans (State.vloadGo_steady ..)).keeps.trans (State.keeps_modHere fun _ => holdCtl2_walk ..)
      · refine issues_unprotected hexec hready hplan hfree hx (if_pos hstore) rfl fun hsteady => ⟨rfl, ?_⟩
        exact (hsteady.trans (State.vstoreGo_steady ..)).keeps.trans (State.keeps_modHere fun _ => holdCtl2_walk ..)
  · obtain ⟨hown, hexec⟩ := exec_vcb p hp f s
    refine ⟨fun hels => faults_of_plan hexec hready hown (by decide) (planVcb_elements _ hels), fun hels => ?_⟩
    refine ⟨fun hents => faults_of_plan hexec hready hown (by decide) (planVcb_unconfigured hb hdst hels hents),
      fun hents hspace => faults_of_plan hexec hready hown (by decide) (planVcb_space hb hdst hels hents hspace),
      fun hents hspace hattr => faults_of_plan hexec hready hown (by decide) (planVcb_format hb hdst hels hents hspace ((Cb.holdsNot_iff ..).2 hattr)),
      fun hents hspace hblock hattr hread hwrite => ?_⟩
    have hiff := addrsIn_natCast_iff (s.lanesFor f.h.g) (vcbOff f s) f.dst.w (s.here.cbOf f.cb.toNat).size
    have hplan := planVcb_access (store := p.2) hb hdst hels hents hspace
      (Bool.eq_false_iff.2 fun h => ((Cb.holdsNot_iff ..).1 h).elim (by simp [hblock]) fun hno => hattr.elim (by simp [hno.1]) hno.2)
      (by cases hstore : p.2 <;> simp [Cb.canRead, Cb.canWrite, hread, hwrite, hstore])
    refine ⟨fun hout => ?_, fun hin => ?_⟩
    · obtain ⟨l, hl, hbad⟩ := hout
      exact faults_of_plan hexec hready hown (by decide) (hplan.trans (if_pos (Bool.eq_false_iff.2 fun h => absurd (hiff.1 h l hl) (not_le.2 hbad))))
    · replace hplan := hplan.trans (if_neg (by simp [hiff.2 hin]))
      refine ⟨fun hstore hprot => faults_protected hexec hready hplan hown (Bool.and_eq_true_iff.2 ⟨hstore, hprot⟩), fun x hload hx => ?_,
        fun x hstore hprot hx => ?_, fun hx hprot => ?_⟩
      · refine issues_unprotected hexec hready hplan (by rw [hload]; rfl) hx (if_neg (by simp [hload])) rfl fun hsteady => ?_
        have hloaded := hsteady.loaded f (vcbAddrs f p.2 s)
        exact ⟨hloaded.advanced_eq f 8 .cons, (hloaded.advanced f 8 .cons).keeps⟩
      · refine issues_unprotected hexec hready hplan (Bool.and_eq_false_iff.2 (.inr hprot)) hx (if_pos hstore) rfl fun hsteady => ?_
        have hstored := hsteady.stored f (vcbAddrs f p.2 s)
        exact ⟨hstored.advanced_eq f 2 .prod, (hstored.advanced f 2 .prod).keeps⟩
      · exact stalls_unprotected hexec hready hplan (Bool.and_eq_false_imp.2 hprot) hx

end Sys2Proof.Machine
end

section
/-! The normalise engine: its element functions, NMOM, NNORM and NSOFT (O39). -/

namespace Sys2Proof.Machine

open Sys2Proof

/-! ### Elements and modes -/

theorem State.rmOf_toNat (s : State) (rm : BitVec 3) : s.rmOf rm.toNat = if rm = 6 then bitsN s.here.fpmode.toNat 0 3 else rm.toNat :=
  if_congr (BitVec.toNat_eq (y := 6)).symm rfl rfl

theorem map_splitElems {α : Type} (g : Nat → α) (es n v : Nat) : (splitElems es n v).map g = (List.range n).map fun e => g (elemOf es v e) := List.map_map ..

/-- An element function in one lane: each element rounded once, in the mode of its place. -/
theorem neMap_eq (fn : ElemFn) (opc : Nat) (f : S3a) (s : State) (l v : Nat) : neMap fn opc f s l v =
    let es := esBits f.es
    let F := fmtOf f.sub.fmt
    let rm := if f.sub.rm = 6 then bitsN s.here.fpmode.toNat 0 3 else f.sub.rm.toNat
    joinRes es ((List.range (4 * f.dst.w / es)).map fun e =>
      let r := elemFn fn (dec F (elemOf es v e))
      let md := modeOf rm 0 s.here.seed (s.laneCtr (0x20 + opc) (s.here.startOf s.cur.tag f.dst) l e) ((l + 8 * e) % 64) false
      let c := rnd F md f.sub.sat r.1
      (c.1, c.2 ||| r.2)) := by
  simp only [neMap, mapEls, State.nqMode, State.rmOf_toNat]

theorem exec_ne : ∀ p ∈ ([(.nrsq, .rsq, 0, 6), (.nrcp, .rcp, 1, 6), (.nexp2, .exp2, 2, 8), (.nlog2, .log2, 3, 8), (.nsig, .sig, 4, 10), (.ntanh, .tanh, 5, 10)] :
      List ((S3a → Instr) × ElemFn × Nat × Nat)), ∀ (f : S3a) (s : State),
    exec (p.1 f) s = issue s (p.1 f) (planNe p.2.1 p.2.2.1 p.2.2.2 f) := by
  simp only [List.forall_mem_cons]
  exact ⟨fun _ _ => rfl, fun _ _ => rfl, fun _ _ => rfl, fun _ _ => rfl, fun _ _ => rfl, fun _ _ => rfl, List.forall_mem_nil _⟩

/-! ### The statement -/

/-- Settles O39: each instruction is a plan of lanes; an element function is `neMap_eq`, and NMOM and NSOFT read a source's elements (`map_splitElems`).
That the elementary functions are rounded from about 200 correct bits and that the EMBER counter takes L from the engine's own loops are the model's readings
(log 14, 31). -/
theorem normaliseEngine : Obligations.NormaliseEngine := by
  refine ⟨fun p hp f s hready hsrc hw hels hdst => ?_, fun f s => ?_, fun f s hready => ?_⟩
  · have hok : (s.here.lsrcOk s.cur.tag false f.a && s.here.lW s.cur.tag false f.dst.w f.a && wholeEls (esBits f.es) f.dst.w) = true := by simp [hsrc, hw, hels]
    have hplan : planNe p.2.1 p.2.2.1 p.2.2.2 f s = planVe1 f.h.g f.dst f.a (esBits f.es) p.2.2.2 f.sub.fmt f.fs (neMap p.2.1 p.2.2.1 f s) s := rfl
    exact issues_lanes (exec_ne p hp f s) hready hok hdst hplan rfl (fun _ => neMap_eq ..) fun _ => Core.hold1_walk ..
  · intro t es F w on a xs old hold hsrc hels hdw hdst
    have hok : neOk16 s.here t es f.dst f.a = true := by simp [neOk16, hsrc, hdw, w, hels]
    have hxs : ∀ l, (splitElems es (4 * w / es) (a l)).map (dec F) = xs l := fun _ => map_splitElems ..
    refine ⟨fun hready hall => ?_, fun hready hlane => ?_, fun hready => ?_⟩
    · exact issues_lanes rfl hready hok hdst (if_pos hall) rfl (fun _ => congrArg (fun x => moments none (on.flatMap x)) (funext hxs)) fun _ => Core.hold1_walk ..
    · exact issues_lanes rfl hready hok hdst (if_neg (ne_true_of_eq_false hlane)) rfl (fun l => congrArg (moments _) (hxs l)) fun _ => Core.hold1_walk ..
    · exact issues_lanes rfl hready hok hdst rfl rfl (fun l => congrArg (softStep (old l)) (hxs l)) fun _ => Core.hold1_walk ..
  · intro t es F on a b rm hsrcA hsrcB hw hwb hels hdst
    refine issues_lanes rfl hready ?_ hdst rfl rfl (fun l => ?_) fun _ => (Core.hold1_walk ..).trans (Core.hold1_walk ..)
    · simp [t, es, hsrcA, hsrcB, hw, hwb, hels]
    · simp only [State.nqMode, State.rmOf_toNat]
      rfl

end Sys2Proof.Machine
end

section
/-! The quantise engine: QAMAX, QSCALE and QSIGN as plans of lanes, QDEQ and QBLK on the blocks of a circular buffer (O40). -/

namespace Sys2Proof.Machine

open Sys2Proof

/-! ### QAMAX (R207) -/

/-- Of the values only those of the written lanes matter. -/
theorem State.afterLanes_congr_on {s : State} {on : List Nat} {dst : Slot} {lat : Nat} {hold : Core → Core} {v v' : Nat → Nat × Flags}
    (hv : ∀ l ∈ on, v l = v' l) : s.afterLanes on dst lat hold v = s.afterLanes on dst lat hold v' := by
  have hlanes : ∀ k : Core, on.foldl (fun k l => k.wrLane s.cur.tag l dst (v l).1) k = on.foldl (fun k l => k.wrLane s.cur.tag l dst (v' l).1) k := fun k =>
    List.foldl_ext _ _ k fun k l hl => by rw [hv l hl]
  have hflags : on.map (fun l => (v l).2) = on.map fun l => (v' l).2 := List.map_congr_left fun l hl => by rw [hv l hl]
  simp only [State.afterLanes, hlanes, hflags]

/-- An instruction whose lanes have a simpler value where they are written. -/
theorem issues_lanes_on {i : Instr} {plan : State → Plan} {s : State} {g : Guard} {dst : Slot} {lat : Nat} {ok : Bool} {hold : Core → List Nat → Core}
    {v v' : Nat → Nat × Flags} {hold' : Core → Core} (hexec : exec i s = issue s i plan) (hready : Ready s i) (hok : ok = true)
    (hdst : s.here.lslotOk s.cur.tag dst = true) (hplan : plan s = planLanes g dst lat ok hold v s) (hhold : hold s.here (s.lanesFor g) = hold' s.here)
    (hv : ∀ l ∈ s.lanesFor g, v l = v' l) (hwalk : ∀ u, ((hold' s.here).engine u).walk = (s.here.engine u).walk) :
    Issues i s (s.afterLanes (s.lanesFor g) dst lat hold' v') := by
  rw [← State.afterLanes_congr_on hv]
  exact issues_lanes hexec hready hok hdst hplan hhold (fun _ => rfl) hwalk

theorem State.lt_of_mem_lanesFor {s : State} {g : Guard} {l : Nat} (h : l ∈ s.lanesFor g) : l < 64 := List.mem_range.1 (List.mem_filter.1 h).1

/-- The block that lane `l` lies in. -/
theorem getD_laneBlock {α : Type} (g : Nat → List α) (half : Bool) {l : Nat} (hl : l < 64) :
    ((List.range (64 / if half then 32 else 64)).map g).getD (l / if half then 32 else 64) [] = g (l / if half then 32 else 64) := by
  have hlt : (l / if half then 32 else 64) < 64 / if half then 32 else 64 := by
    cases half <;> simp <;> omega
  simp [List.getD, List.getElem?_range hlt]

/-! ### QSIGN (R213) -/

theorem sgnBit_low (seed : W64) (q : Nat) {i : Nat} (hi : i < 2 ^ 48) :
    sgnBit seed (q % 256) i = (ember seed (emberCtr 1 (q % 256) (i / 32))).getLsbD (i % 32) := by
  rw [sgnBit, Nat.mod_mod, Nat.mod_eq_of_lt ((Nat.div_le_self ..).trans_lt hi)]

/-! ### What a request to the banks leaves (R197) -/

/-- What numbers the roundings of a core and places its buffers: FPMODE, the segment, and the registers of the C-die. -/
def State.setting (s : State) : W32 × W32 × SMap W64 := (s.here.fpmode, s.here.segno, s.creg)

theorem State.setting_modHere (s : State) {g : Core → Core} (hfp : ∀ k, (g k).fpmode = k.fpmode) (hseg : ∀ k, (g k).segno = k.segno) :
    (s.modHere g).setting = s.setting := by
  rw [State.setting, State.here_modHere, hfp, hseg]
  rfl

theorem State.setting_askBanks (s : State) (nb : Nat) (spans : List (Nat × Nat)) : (s.askBanks nb spans).1.setting = s.setting := by
  have hstall : ∀ (c : Prop) [Decidable c] (t col n : Nat), (if c then s else s.modHere fun k => k.bankStall t col n).setting = s.setting := fun c _ t col n => by
    split
    · rfl
    · exact State.setting_modHere _ (fun _ => rfl) fun _ => rfl
  unfold State.askBanks
  dsimp only
  split
  · exact (State.setting_modHere (g := fun k => (k.bankStall _ _ _).modEngine _ _) _ (fun _ => rfl) fun _ => rfl).trans (hstall ..)
  · exact (State.setting_modHere (g := fun k => (k.notePorts _ _ _).modEngine _ _) _ (fun _ => rfl) fun _ => rfl).trans (hstall ..)

section
variable {s x : State} {nb : Nat} {spans : List (Nat × Nat)} (h : s.banked nb spans = some x)
include h

theorem State.banked_steady : s.Steady x := (State.afterBanks_given h fun s => .hold s 1).1

theorem State.banked_setting : x.here.fpmode = s.here.fpmode ∧ x.here.segno = s.here.segno ∧ x.creg = s.creg := by
  have hset : x.setting = s.setting := by
    unfold State.banked at h
    split at h
    · cases h
      exact State.setting_askBanks ..
    · cases h
  simpa [State.setting] using hset

theorem State.banked_rmOf (rm : Nat) : x.rmOf rm = s.rmOf rm := by
  rw [State.rmOf, State.rmOf, (State.banked_setting h).1]

theorem State.banked_laneCtr (stream start l e : Nat) : x.laneCtr stream start l e = s.laneCtr stream start l e := by
  have hloops : x.hereE.loops = s.hereE.loops := congrArg (fun w => w.2.1) (State.banked_steady h).keeps.hereE
  obtain ⟨_, hseg, _⟩ := State.banked_setting h
  rw [State.laneCtr, State.laneCtr, hseg, State.loopL, State.loopL, hloops]

theorem State.banked_bufPa (c space n : Nat) : x.bufPa c space n = s.bufPa c space n := by
  obtain ⟨_, _, hcreg⟩ := State.banked_setting h
  simp only [State.bufPa, State.slotPa, State.modId, State.cregOf, hcreg]

end

section
variable {i : Instr} {plan : State → Plan} {s : State} {nb : Nat} {spans : List (Nat × Nat)} {go : State → Plan} (hexec : exec i s = issue s i plan)
  (hready : Ready s i) (hplan : plan s = s.afterBanks nb spans go)
include hexec hready hplan

theorem stalls_afterBanks (hbanks : s.banked nb spans = none) : StallsForBanks i s nb spans :=
  stalls_of_plan hexec hready (hplan.trans (State.afterBanks_stall hbanks go))

theorem issues_afterBanks {x s' : State} {g : Go} (hbanks : s.banked nb spans = some x) (hgo : go x = .go g) (hj : g.jump = none) (hs : g.s = s')
    (hkeeps : s.Keeps Engine.walk g.s) : Issues i s s' :=
  issues_of_keeps hexec hready (hplan.trans ((State.afterBanks_given hbanks go).2.trans hgo)) hs (hs ▸ hkeeps) hj

end

/-! ### QDEQ (R212) -/

section
variable {f : QdeqF} {s : State} (hdst : s.here.lslotOk s.cur.tag f.dst = true) (hels : wholeEls (esBits f.es) f.dst.w = true)
include hdst hels

theorem planQdeq_unconfigured (hents : (s.here.cbOf f.cb.toNat).ents = 0) : planQdeq f s = .fault s .illegalOperand := by
  rw [planQdeq, if_neg (by simp [hdst, hels]), if_pos (by simp [Cb.configured, hents])]

variable (hents : (s.here.cbOf f.cb.toNat).ents ≠ 0)
include hents

theorem planQdeq_space (hspace : (s.here.cbOf f.cb.toNat).space ≠ 3) : planQdeq f s = .fault s .bufferAccess := by
  rw [planQdeq, if_neg (by simp [hdst, hels]), if_neg (by simp [Cb.configured, hents]), if_pos hspace]

variable (hspace : (s.here.cbOf f.cb.toNat).space = 3) (hocc : 1 ≤ (s.here.cbOf f.cb.toNat).occ)
include hspace hocc

theorem planQdeq_format (hattr : attrBlock (s.here.cbOf f.cb.toNat).attr = false) : planQdeq f s = .fault s .format := by
  rw [planQdeq, if_neg (by simp [hdst, hels]), if_neg (by simp [Cb.configured, hents]), if_neg (not_not.2 hspace), if_neg (by simp [Cb.canRead, hocc]),
    if_pos (by simp [hattr])]

variable (hattr : attrBlock (s.here.cbOf f.cb.toNat).attr = true)
include hattr

/-- Past the checks of the buffer: the bounds of the entry, the banks, and the reading put into flight from the state that the banks leave. -/
theorem planQdeq_blocks :
    let t := s.cur.tag
    let b := s.here.cbOf f.cb.toNat
    let nb := blocksOf (attrBs b.attr) (4 * f.dst.w / esBits f.es)
    let kk := blocksPer b.attr b.size
    let ent := b.entry b.cons.toNat
    planQdeq f s = if kk < f.blk.toNat + nb then .fault s .illegalOperand
      else s.afterBanks 16 ((blockSpans b.attr kk f.blk.toNat nb (attrT b.attr)).map fun p => (ent + p.1, p.2)) fun x =>
        let r := x.launch (some (x.now + 2 * x.d)) false [] (.qdeq (x.bufPa x.cur.core 3 ent) b.attr kk f.blk.toNat (s.lanesFor f.h.g)
          (s.here.startOf t f.dst) f.dst.w f.sub.fmt (x.rmOf f.sub.rm.toNat) f.sub.sat s.here.seed (x.laneCtr 0x33 (s.here.startOf t f.dst) 0 0) (x.now + 8 * x.d))
        .go { s := r.1, lat := 8, op := some r.2 } := by
  intro t b nb kk ent
  rw [planQdeq, if_neg (by simp [hdst, hels]), if_neg (by simp [Cb.configured, hents]), if_neg (not_not.2 hspace), if_neg (by simp [Cb.canRead, hocc]),
    if_neg (by simp [hattr])]
  rfl

end

/-! ### QBLK (R209 to R211) -/

theorem zipIdx_range (n : Nat) : (List.range n).zipIdx = (List.range n).map fun j => (j, j) := List.ext_getElem (by simp) (by simp)

theorem flatMap_zipIdx_map_range {α β : Type} (g : Nat → α) (h : α × Nat → List β) (n : Nat) :
    ((List.range n).map g).zipIdx.flatMap h = (List.range n).flatMap fun j => h (g j, j) := by
  rw [List.zipIdx_map, zipIdx_range, List.map_map, List.flatMap_map]
  rfl

theorem blockAt_eq (bs j : Nat) : blockAt bs j = (if bs = 64 then j else j / 2, if bs = 64 then 0 else 32 * (j % 2)) := by
  unfold blockAt
  split <;> rfl

theorem padSpans_flatMap {β : Type} (a : BitVec 5) (k : Nat) (h : Nat × Nat → List β) : (padSpans a k).flatMap h =
    h (k * attrEb a, scaleOff a k - k * attrEb a) ++
      if attrT a then h (scaleOff a k + k * attrSb a, tileOff a k - (scaleOff a k + k * attrSb a)) else [] := by
  unfold padSpans
  split <;> simp

theorem qblkFault_cls_ne {s : State} {b : Cb} {blk n bw : Nat} {sg ts : Bool} {c : Cause} (h : qblkFault s b blk n bw sg ts = some c) : c.cls ≠ 2 := by
  unfold qblkFault at h
  dsimp only at h
  split_ifs at h <;> cases h <;> decide

/-- The number of elements of source A of a QBLK, in each lane. -/
def qblkCount (f : QblkF) (s : State) : Nat := 4 * s.here.srcW s.cur.tag false (esBits f.es / 4) f.a / esBits f.es

/-- The width of source B: a scale for each element (XS bit 0), or a tile scale. -/
def qblkWidthB (f : QblkF) (s : State) : Nat := s.here.srcW s.cur.tag true (if f.sub.xs.getLsbD 0 then 4 * qblkCount f s else 8) f.b

/-- The sources in lane `l`. -/
def qblkA (f : QblkF) (s : State) (l : Nat) : Nat :=
  s.here.lsrcVal s.cur.tag l false f.sub.fmt f.fs (esBits f.es) (s.here.srcW s.cur.tag false (esBits f.es / 4) f.a) f.a

def qblkB (f : QblkF) (s : State) (l : Nat) : Nat :=
  match f.b with
  | .imm v _ => if f.sub.xs.getLsbD 1 then immFloat 32 v else immSpread 16 (qblkWidthB f s) v.toNat
  | x => s.here.lsrcVal s.cur.tag l true 0 false 16 (qblkWidthB f s) x

/-- Block `j` of those that a QBLK writes (R206, R209). -/
def qblkBlock (f : QblkF) (s : State) (j : Nat) : List Nat × Nat × Flags :=
  let b := s.here.cbOf f.cb.toNat
  let bs := attrBs b.attr
  let first := if bs = 64 then 0 else 32 * (j % 2)
  let el := if bs = 64 then j else j / 2
  quantBlock b.attr (if f.sub.xs.getLsbD 1 then dec .fp32 (qblkB f s 0 % 2 ^ 32) else .num 1)
    (if f.sub.xs.getLsbD 0 then some (bitsN (qblkB f s first) (16 * el) 16) else none)
    (fun i => modeOf (s.rmOf f.sub.rm.toNat) 0 s.here.seed (emberCtr 0 0x32 (s.here.segno.toNat % 2 ^ 16 * 2 ^ 32 + b.prod.toNat % 2 ^ 16 * 2 ^ 16 +
      (f.blk.toNat + j) % 2 ^ 10 * 2 ^ 6 + i % 2 ^ 6)) i (decide (bs = 32)))
    ((List.range bs).map fun i => dec (fmtOf f.sub.fmt) (elemOf (esBits f.es) (qblkA f s (first + i)) el))

/-- The numbers of the blocks, from 0. -/
def qblkBlocks (f : QblkF) (s : State) : List Nat := List.range (blocksOf (attrBs (s.here.cbOf f.cb.toNat).attr) (qblkCount f s))

/-- What a QBLK writes: codes, scales and tile scales of its blocks, and zeros between the areas of the entry (R41). -/
def qblkCells (f : QblkF) (s : State) : List Host.Cell :=
  let b := s.here.cbOf f.cb.toNat
  let kk := blocksPer b.attr b.size
  let pa := s.bufPa s.cur.core 3 (b.entry b.prod.toNat)
  ((qblkBlocks f s).flatMap fun j =>
    cellsAt (pa + (f.blk.toNat + j) * attrEb b.attr) (packElems (attrBits b.attr) (qblkBlock f s j).1) ++
    cellsAt (pa + scaleOff b.attr kk + (f.blk.toNat + j) * attrSb b.attr) (leBytes (attrSb b.attr) (qblkBlock f s j).2.1) ++
    if f.sub.xs.getLsbD 1 then cellsAt (pa + tileOff b.attr kk + 4 * tileSlot (attrBs b.attr) (f.blk.toNat + j)) (leBytes 4 (qblkB f s 0)) else []) ++
  (padSpans b.attr kk).flatMap fun p => cellsAt (pa + p.1) (List.replicate p.2 0)

/-- Sources with hold enter the latches in every lane, source B where one is read. -/
def Core.holdQblk (k : Core) (f : QblkF) (s : State) : Core :=
  let c := k.hold1 s.cur.tag false (s.here.srcW s.cur.tag false (esBits f.es / 4) f.a) f.a (List.range 64) (qblkA f s)
  if f.sub.xs.getLsbD 0 || f.sub.xs.getLsbD 1 then c.hold1 s.cur.tag true (qblkWidthB f s) f.b (List.range 64) (qblkB f s) else c

/-- The effects of a QBLK in `s`, from the state `x` that the banks leave of it. -/
def State.quantised (x s : State) (f : QblkF) : State :=
  ((x.launch (some (x.now + 2 * x.d)) false [] (.write (qblkCells f s) [])).1.modHere fun k => k.holdQblk f s).flag 2
    (orFlags ((qblkBlocks f s).map fun j => (qblkBlock f s j).2.2))

theorem Core.holdQblk_walk (k : Core) (f : QblkF) (s : State) (u : Nat) : ((k.holdQblk f s).engine u).walk = (k.engine u).walk := by
  unfold Core.holdQblk
  split
  · exact (Core.hold1_walk ..).trans (Core.hold1_walk ..)
  · exact Core.hold1_walk ..

theorem State.keeps_quantised {s x : State} (h : s.Steady x) (f : QblkF) : s.Keeps Engine.walk (x.quantised s f) :=
  ((h.trans (State.steady_launch ..)).keeps.trans (State.keeps_modHere fun _ => Core.holdQblk_walk ..)).trans (State.keeps_flag ..)

section
variable {f : QblkF} {s : State} (ha : s.here.lsrcOk s.cur.tag false f.a = true)
  (hb : f.sub.xs.getLsbD 0 = false ∧ f.sub.xs.getLsbD 1 = false ∨ s.here.lsrcOk s.cur.tag true f.b = true)
  (hels : wholeEls (esBits f.es) (s.here.srcW s.cur.tag false (esBits f.es / 4) f.a) = true)
include ha hb hels

theorem qblk_sources : (s.here.lsrcOk s.cur.tag false f.a && (!f.sub.xs.getLsbD 0 && !f.sub.xs.getLsbD 1 || s.here.lsrcOk s.cur.tag true f.b) &&
    wholeEls (esBits f.es) (s.here.srcW s.cur.tag false (esBits f.es / 4) f.a)) = true := by
  rw [ha, hels]
  obtain ⟨hsg, hts⟩ | hb := hb
  · rw [hsg, hts]
    rfl
  · rw [hb, Bool.or_true]
    rfl

theorem planQblk_fault {c : Cause} (hc : qblkFault s (s.here.cbOf f.cb.toNat) f.blk.toNat (qblkCount f s) (qblkWidthB f s) (f.sub.xs.getLsbD 0)
    (f.sub.xs.getLsbD 1) = some c) : planQblk f s = .fault s c := by
  rw [qblkWidthB, qblkCount] at hc
  rw [planQblk, if_neg (by rw [qblk_sources ha hb hels]; decide)]
  simp only [hc]

theorem planQblk_blocks (hnone : qblkFault s (s.here.cbOf f.cb.toNat) f.blk.toNat (qblkCount f s) (qblkWidthB f s) (f.sub.xs.getLsbD 0)
    (f.sub.xs.getLsbD 1) = none) (hroom : 1 ≤ (s.here.cbOf f.cb.toNat).room s.now) :
    let b := s.here.cbOf f.cb.toNat
    planQblk f s = s.afterBanks 16 ((blockSpans b.attr (blocksPer b.attr b.size) f.blk.toNat (blocksOf (attrBs b.attr) (qblkCount f s)) (f.sub.xs.getLsbD 1)).map
      fun p => (b.entry b.prod.toNat + p.1, p.2)) fun x => .go { s := x.quantised s f, lat := 2 } := by
  rw [qblkWidthB, qblkCount] at hnone
  rw [planQblk, if_neg (by rw [qblk_sources ha hb hels]; decide)]
  simp only [hnone, Cb.canWrite, hroom, flatMap_zipIdx_map_range, blockAt_eq, List.map_map]
  rfl

end

/-! ### The statement -/

/-- Settles O40: QAMAX, QSCALE and QSIGN are plans of lanes; QDEQ and QBLK are their checks in order, and then an access that the banks give (`issues_afterBanks`),
of a state with the setting of the one before it (`State.banked_setting`). That QBLK writes the padding each time and asks no bank for it, that the EMBER
counter takes L from the engine's own loops and that a buffer that is not configured is an illegal operand are the model's readings (log 29, 31, 47). -/
theorem quantiseEngine : Obligations.QuantiseEngine := by
  refine ⟨⟨fun f s hready => ?_, fun f s hready => ?_, fun f s hready => ?_⟩, fun f s hready => ?_, fun f s hready => ?_⟩
  · intro t es on a bs hsrc hw hels hdst
    refine issues_lanes_on rfl hready (by simp [t, hsrc, hw, es, hels]) hdst rfl rfl (fun l hl => ?_) fun _ => Core.hold1_walk ..
    rw [getD_laneBlock _ _ (State.lt_of_mem_lanesFor hl)]
    rfl
  · intro t es w on a hsrc hels hcount hdst
    refine issues_lanes rfl hready ?_ hdst rfl rfl (fun _ => congrArg (joinRes 16) (map_splitElems ..)) fun _ => Core.hold1_walk ..
    exact Bool.and_eq_true_iff.2 ⟨Bool.and_eq_true_iff.2 ⟨hsrc, hels⟩, decide_eq_true hcount⟩
  · intro t es n on a b hok hdst
    refine issues_lanes rfl hready hok hdst rfl rfl (fun l => congrArg (joinRes es) (List.map_congr_left fun e _ => ?_))
      fun _ => (Core.hold1_walk ..).trans (Core.hold1_walk ..)
    dsimp only
    rw [sgnBit_low _ _ (Nat.mod_lt _ (by decide))]
    rfl
  · intro t es b n nb kk ent spans hdst hels
    refine ⟨fun hents => faults_of_plan rfl hready rfl (by decide) (planQdeq_unconfigured hdst hels hents),
      fun hents hspace => faults_of_plan rfl hready rfl (by decide) (planQdeq_space hdst hels hents hspace),
      fun hents hspace hocc hattr => faults_of_plan rfl hready rfl (by decide) (planQdeq_format hdst hels hents hspace hocc hattr),
      fun hents hspace hocc hattr hout => ?_, fun hents hspace hattr hin hocc => ?_⟩
    · exact faults_of_plan rfl hready rfl (by decide) ((planQdeq_blocks hdst hels hents hspace hocc hattr).trans (if_pos hout))
    · have hplan := (planQdeq_blocks hdst hels hents hspace hocc hattr).trans (if_neg (not_lt.2 hin))
      refine ⟨stalls_afterBanks rfl hready hplan, fun x hx => ?_⟩
      have hsteady := State.banked_steady hx
      refine issues_afterBanks rfl hready hplan hx rfl rfl ?_ (hsteady.trans (State.steady_launch x _ false [] _)).keeps
      rw [hsteady.now, hsteady.d, hsteady.core, State.banked_bufPa hx, State.banked_rmOf hx, State.banked_laneCtr hx]
      rfl
  · intro t k es F sg ts w n b bw bs kk va vb ha hb hels
    refine ⟨fun c hc => ?_, fun hnone hroom => ?_⟩
    · exact faults_of_plan rfl hready rfl (qblkFault_cls_ne hc) (planQblk_fault ha hb hels hc)
    · refine ⟨stalls_afterBanks rfl hready (planQblk_blocks ha hb hels hnone hroom), fun x hx => ?_⟩
      have hsteady := State.banked_steady hx
      refine issues_afterBanks rfl hready (planQblk_blocks ha hb hels hnone hroom) hx rfl rfl ?_ (State.keeps_quantised hsteady f)
      rw [State.quantised, hsteady.now, hsteady.d, qblkCells, padSpans_flatMap]
      rfl

end Sys2Proof.Machine
end

section
/-! Loads of the weight planes and their flips: LDS, LDSC, LDSCL and LFLIP (O41). -/

namespace Sys2Proof.Machine

open Sys2Proof

/-! ### Planes (R217) -/

@[simp] theorem Core.setPlane_engine (k : Core) (p : Bool) (x : Plane) (u : Nat) : (k.setPlane p x).engine u = k.engine u := by
  cases p <;> rfl

@[simp] theorem Core.flip_engine (k : Core) (u : Nat) : k.flip.engine u = k.engine u := Core.setPlane_engine ..

/-! ### The checks of a load (R235) -/

theorem loadFault_cls_ne {k : Core} {attr : BitVec 5} {scl fits : Bool} {c : Cause} (h : loadFault k attr scl fits = some c) : c.cls ≠ 2 := by
  unfold loadFault at h
  dsimp only at h
  split_ifs at h <;> cases h <;> decide

/-- The checks of LDS in their order: its format, its span, its plane. -/
theorem loadFault_lds (k : Core) (attr : BitVec 5) (fits : Bool) : loadFault k attr false fits =
    if famOf attr = 0 ∨ (k.nestRun ≠ none ∧ k.actPlane.st ≠ 0 ∧ attr ≠ k.actPlane.fmt) then some .format
    else if fits = false then some .illegalOperand
    else if k.shPlane.st = 2 then some .planeState
    else none := by
  by_cases hfam : famOf attr = 0
  · simp [loadFault, hfam]
  · simp [loadFault, hfam, Option.isSome_iff_ne_none, and_assoc]

/-! ### LDS (R235) -/

section
variable {i : Instr} {plan : State → Plan} {s : State} (hexec : exec i s = issue s i plan) (hready : Ready s i)
include hexec hready

/-- A load that passes its checks: the bytes are read from cycle 4 on, and the shadow plane is LOADING (R217, R245). -/
theorem issues_loadGo {attr : BitVec 5} {pa : Nat} {scl : Bool} {fins : List Fin} {hold : Core → Core} (hplan : plan s = loadGo s attr pa scl fins hold)
    (hhold : ∀ u, ((hold s.here).engine u).walk = (s.here.engine u).walk) :
    let lo := if scl then 32768 else 0
    Issues i s ((s.launch (some (s.now + 4 * s.d)) true []
      (.plane (!s.here.act) pa lo (imageSize attr) lo (if scl then s.here.shPlane.img else []) fins)).1.modHere fun k =>
        (hold k).setPlane (!k.act) { s.here.shPlane with st := 1, fmt := attr }) := by
  refine issues_of_go hexec hready hplan rfl (State.launch_rim ..) ?_ rfl
  rw [Core.setPlane_engine]
  exact hhold _

end

section
variable {f : LdsF} {s : State} (hsrc : s.here.srcOk s.cur.tag false f.a = true) (hwait : s.here.loadWaits s.now = false)
include hsrc hwait

theorem planLds_fault {c : Cause}
    (h : loadFault s.here f.fmt false (decide (64 * s.here.ctlVal s.cur.tag false f.a + imageSize f.fmt ≤ 4 * 2 ^ 20)) = some c) :
    planLds f s = .fault s c := by
  simp only [planLds, hsrc, hwait, h, Bool.not_true, Bool.false_eq_true, if_false]

theorem planLds_go
    (h : loadFault s.here f.fmt false (decide (64 * s.here.ctlVal s.cur.tag false f.a + imageSize f.fmt ≤ 4 * 2 ^ 20)) = none) :
    planLds f s = loadGo s f.fmt (s.bufPa s.cur.core 0 (64 * s.here.ctlVal s.cur.tag false f.a)) false []
      fun k => k.holdLatch s.cur.tag false f.a (k.ctlVal s.cur.tag false f.a) (k.srcW s.cur.tag false 4 f.a) := by
  simp only [planLds, hsrc, hwait, h, Bool.not_true, Bool.false_eq_true, if_false]

end

/-! ### LDSC and LDSCL (R235, R236) -/

theorem exec_ldsc : ∀ p ∈ ([(.ldsc, false), (.ldscl, true)] : List ((LdscF → Instr) × Bool)), ∀ (f : LdscF) (s : State),
    isAll (p.1 f) = false ∧ exec (p.1 f) s = issue s (p.1 f) (planLdsc f p.2) := by
  simp only [List.forall_mem_cons]
  exact ⟨fun _ _ => ⟨rfl, rfl⟩, fun _ _ => ⟨rfl, rfl⟩, List.forall_mem_nil _⟩

section
variable {f : LdscF} {scl : Bool} {s : State}

theorem planLdsc_unconfigured (hents : (s.here.cbOf f.cb.toNat).ents = 0) : planLdsc f scl s = .fault s .illegalOperand := by
  simp [planLdsc, Cb.configured, hents]

variable (hents : (s.here.cbOf f.cb.toNat).ents ≠ 0) (hocc : 1 ≤ (s.here.cbOf f.cb.toNat).occ) (hwait : scl = true ∨ s.here.loadWaits s.now = false)
include hents hocc hwait

/-- Past the waits for an entry and for a flip: the checks of R235. -/
theorem planLdsc_checks : (!(s.here.cbOf f.cb.toNat).configured) = false ∧ (!(s.here.cbOf f.cb.toNat).canRead) = false ∧
    (!scl && s.here.loadWaits s.now) = false := by
  refine ⟨by simp [Cb.configured, hents], by simp [Cb.canRead, hocc], ?_⟩
  obtain rfl | hwait := hwait
  · rfl
  · rw [hwait, Bool.and_false]

theorem planLdsc_space (hspace : (s.here.cbOf f.cb.toNat).space ≠ 0) : planLdsc f scl s = .fault s .bufferAccess := by
  obtain ⟨hconf, hread, hflip⟩ := planLdsc_checks hents hocc hwait
  simp only [planLdsc, hconf, hread, hflip, hspace, Bool.false_eq_true, if_false, if_true, ne_eq, not_false_eq_true]

variable (hspace : (s.here.cbOf f.cb.toNat).space = 0)
include hspace

theorem planLdsc_fault {c : Cause}
    (h : loadFault s.here (s.here.cbOf f.cb.toNat).attr scl (decide (imageSize (s.here.cbOf f.cb.toNat).attr ≤ (s.here.cbOf f.cb.toNat).size)) = some c) :
    planLdsc f scl s = .fault s c := by
  obtain ⟨hconf, hread, hflip⟩ := planLdsc_checks hents hocc hwait
  simp only [planLdsc, hconf, hread, hflip, hspace, h, Bool.false_eq_true, if_false, ne_eq, not_true_eq_false]

theorem planLdsc_go
    (h : loadFault s.here (s.here.cbOf f.cb.toNat).attr scl (decide (imageSize (s.here.cbOf f.cb.toNat).attr ≤ (s.here.cbOf f.cb.toNat).size)) = none) :
    let b := s.here.cbOf f.cb.toNat
    let C := s.now + (4 + ceilDiv (imageSize b.attr - (if scl then 32768 else 0)) 256) * s.d
    planLdsc f scl s = loadGo s b.attr (s.bufPa s.cur.core 0 (b.entry b.cons.toNat)) scl (if f.adv then [.cons s.cur.core f.cb.toNat 1] else []) fun k =>
      if f.adv then { k with busy := k.busy ++ [{ res := .cb f.cb.toNat, tick := C + 1, op := some s.nextId, hold := none, old := [], mask := [] }] } else k := by
  obtain ⟨hconf, hread, hflip⟩ := planLdsc_checks hents hocc hwait
  simp only [planLdsc, hconf, hread, hflip, hspace, h, Bool.false_eq_true, if_false, ne_eq, not_true_eq_false]

end

/-! ### The statement -/

/-- Settles O41: each load is its checks in order (`loadFault_lds` for LDS) and then `issues_loadGo`. That a load under a rotation nest has no format to
differ from while the active plane is EMPTY, that a buffer that is not configured is an illegal operand before its space is checked, and what a held offset
leaves in its latch are the model's readings (log 112, 47, 102). -/
theorem planeLoads : Obligations.PlaneLoads := by
  refine ⟨fun f s hready hsrc hwait => ?_, fun p hp f s hready => ?_, fun f s hready hidle => ?_⟩
  · intro k off other
    refine ⟨fun hformat => ?_, fun hfam hsame hlong => ?_, fun hfam hsame hfits hfull => ?_, fun hfam hsame hfits hfull => ?_⟩
    · exact faults_of_plan rfl hready rfl (by decide) (planLds_fault hsrc hwait ((loadFault_lds ..).trans (if_pos hformat)))
    · refine faults_of_plan rfl hready rfl (by decide) (planLds_fault hsrc hwait ?_)
      rw [loadFault_lds, if_neg (not_or.2 ⟨hfam, hsame⟩), if_pos (decide_eq_false (not_le.2 hlong))]
    · refine faults_of_plan rfl hready rfl (by decide) (planLds_fault hsrc hwait ?_)
      rw [loadFault_lds, if_neg (not_or.2 ⟨hfam, hsame⟩), if_neg (by simpa using hfits), if_pos hfull]
    · refine issues_loadGo rfl hready (planLds_go hsrc hwait ?_) fun u => Core.holdLatch_walk ..
      rw [loadFault_lds, if_neg (not_or.2 ⟨hfam, hsame⟩), if_neg (by simpa using hfits), if_neg hfull]
  · obtain ⟨hown, hexec⟩ := exec_ldsc p hp f s
    intro k b lo C
    refine ⟨fun hents => faults_of_plan hexec hready hown (by decide) (planLdsc_unconfigured hents), fun hents hocc hwait => ?_⟩
    refine ⟨fun hspace => faults_of_plan hexec hready hown (by decide) (planLdsc_space hents hocc hwait hspace),
      fun c hspace hc => faults_of_plan hexec hready hown (loadFault_cls_ne hc) (planLdsc_fault hents hocc hwait hspace hc), fun hspace hnone => ?_⟩
    refine issues_loadGo hexec hready (planLdsc_go hents hocc hwait hspace hnone) fun u => ?_
    split <;> rfl
  · have hplan : planLflip s = if s.here.shPlane.st ≠ 2 then .fault s .planeState else .go { s := s.modHere Core.flip } := by
      simp [planLflip, State.nestIdle, hidle]
    refine ⟨fun hst => faults_of_plan rfl hready rfl (by decide) (hplan.trans (if_pos hst)), fun hst => ?_⟩
    exact issues_of_keeps rfl hready (hplan.trans (if_neg (not_not.2 hst))) rfl
      (State.keeps_modHere fun u => congrArg Engine.walk (Core.flip_engine ..)) rfl

end Sys2Proof.Machine
end

section
/-! The nest: MSIGN, MMA, MSTOP and MWAIT (O42). -/

namespace Sys2Proof.Machine

open Sys2Proof

theorem State.nestIdle_of_none {s : State} (h : s.here.nestRun = none) : s.nestIdle = true := by simp [State.nestIdle, h]

/-! ### MSIGN (R237) -/

theorem planMsign_fault {f : MsignF} {s : State} (hen : f.en = true) (hsrc : s.here.srcOk s.cur.tag false f.b = false) :
    planMsign f s = .fault s .illegalOperand := if_pos (by simp [hen, hsrc])

theorem planMsign_regs {f : MsignF} {s : State} (hsrc : f.en = true → s.here.srcOk s.cur.tag false f.b = true) :
    planMsign f s = .regs s 1 fun k =>
      if f.en then
        { (k.holdLatch s.cur.tag false f.b (k.ctlVal s.cur.tag false f.b) (k.srcW s.cur.tag false 4 f.b)) with
          sign := { en := true, qs := BitVec.ofNat 8 (k.ctlVal s.cur.tag false f.b), i0 := BitVec.ofNat 48 (k.ctlVal s.cur.tag false f.b / 256) } }
      else { k with sign := .off } := if_neg (by simpa using hsrc)

/-! ### MMA (R231) -/

theorem mmaFault_cls_ne {s : State} {t : SMap W64} {aoff : Nat} {c : Cause} (h : mmaFault s t aoff = some c) : c.cls ≠ 2 := by
  unfold mmaFault at h
  dsimp only at h
  split_ifs at h <;> cases h <;> decide

/-- The nest that the nest registers describe, before its first pass (R231). -/
def State.nestOf (s : State) (f : MmaF) : NestRun :=
  { regs := s.here.nest, aoff := s.here.ctlVal s.cur.tag false f.aoff, ua := f.ua, uw := f.uw, sign := s.here.sign,
    cons0 := (s.here.cbOf (nAcb s.here.nest)).cons, entered := 0, total := nTotal s.here.nest, stopAt := none, since := none, id := s.nextId, seed := s.here.seed }

/-- A core in which nest `r` starts, by the MMA at the cursor of `s`. -/
def Core.startNest (k : Core) (s : State) (f : MmaF) (r : NestRun) : Core :=
  { (k.holdLatch s.cur.tag false f.aoff r.aoff (k.srcW s.cur.tag false 4 f.aoff)) with nestRun := some r, passes := 0 }

/-- The state in which the nest of an MMA has started: its passes enter from cycle 2 on, and the entries that it will release of its circular buffer
are busy until it has ended. -/
def State.nestStarted (s : State) (f : MmaF) : State :=
  let tab := s.here.nest
  let s1 := (s.launch (some (s.now + 2 * s.d)) true [] .nest).1.modHere fun k => k.startNest s f (s.nestOf f)
  if nUsecb tab = true ∧ nAdv tab ≠ 0 then s1.modHere fun k =>
    { k with busy := k.busy ++ [{ res := .cb (nAcb tab), tick := s1.now + 1, op := some s.nextId, hold := none, old := [], mask := [] }] } else s1

theorem State.keeps_nestStarted (s : State) (f : MmaF) : s.Keeps Engine.walk (s.nestStarted f) := by
  have hrun : s.Keeps Engine.walk ((s.launch (some (s.now + 2 * s.d)) true [] .nest).1.modHere fun k => k.startNest s f (s.nestOf f)) :=
    State.Keeps.trans (State.keeps_of_rim (State.launch_rim ..)) (State.keeps_modHere fun u => Core.holdLatch_walk ..)
  unfold State.nestStarted
  dsimp only
  split
  · exact hrun.trans (State.keeps_modHere fun _ => rfl)
  · exact hrun

section
variable {f : MmaF} {s : State}

theorem planMma_unsigned (hodd : (f.ua = true ∨ f.uw = true) ∧ famOf (nAfmt s.here.nest) ≠ 0 ∧ attrInt (nAfmt s.here.nest) = false) :
    planMma f s = .fault s .illegalInstruction := by
  obtain ⟨hu, hfam, hint⟩ := hodd
  exact if_pos (by simp [hu, hfam, hint])

variable (hodd : ¬((f.ua = true ∨ f.uw = true) ∧ famOf (nAfmt s.here.nest) ≠ 0 ∧ attrInt (nAfmt s.here.nest) = false))
  (hsrc : s.here.srcOk s.cur.tag false f.aoff = true)
include hodd hsrc

theorem planMma_unconfigured (huse : nUsecb s.here.nest = true) (hents : (s.here.cbOf (nAcb s.here.nest)).ents = 0) :
    planMma f s = .fault s .illegalOperand := by
  rw [planMma, if_neg (by simpa [and_assoc] using hodd), if_neg (by simp [hsrc]), if_pos (by simp [huse, Cb.configured, hents])]

variable (hcb : nUsecb s.here.nest = true → (s.here.cbOf (nAcb s.here.nest)).ents ≠ 0 ∧ nNeed s.here.nest ≤ (s.here.cbOf (nAcb s.here.nest)).occ)
  (hidle : s.here.nestRun = none) (hcarry : s.carryReads s.now = false)
include hcb hidle hcarry

/-- Nothing of an MMA waits: no nest runs, no ACC.CARRY reads the working bank, and its circular buffer holds the entries it needs. -/
theorem planMma_checks :
    ¬((f.ua || f.uw) && decide (famOf (nAfmt s.here.nest) ≠ 0) && !attrInt (nAfmt s.here.nest)) = true ∧ ¬(!s.here.srcOk s.cur.tag false f.aoff) = true ∧
    ¬(nUsecb s.here.nest && !(s.here.cbOf (nAcb s.here.nest)).configured) = true ∧ ¬(!s.nestIdle || s.carryReads s.now) = true ∧
    ¬(nUsecb s.here.nest && decide ((s.here.cbOf (nAcb s.here.nest)).occ < nNeed s.here.nest)) = true := by
  refine ⟨by simpa [and_assoc] using hodd, by simp [hsrc], fun h => ?_, by simp [State.nestIdle_of_none hidle, hcarry], fun h => ?_⟩
  · obtain ⟨huse, hents⟩ := Bool.and_eq_true_iff.1 h
    exact (hcb huse).1 (by simpa [Cb.configured] using hents)
  · obtain ⟨huse, hocc⟩ := Bool.and_eq_true_iff.1 h
    exact absurd (of_decide_eq_true hocc) (not_lt.2 (hcb huse).2)

theorem planMma_fault {c : Cause} (h : mmaFault s s.here.nest (s.here.ctlVal s.cur.tag false f.aoff) = some c) : planMma f s = .fault s c := by
  obtain ⟨hfmt, hoff, hconf, hstall, hneed⟩ := planMma_checks hodd hsrc hcb hidle hcarry
  rw [planMma, if_neg hfmt, if_neg hoff, if_neg hconf, if_neg hstall, if_neg hneed]
  simp only [h]

theorem planMma_go (h : mmaFault s s.here.nest (s.here.ctlVal s.cur.tag false f.aoff) = none) :
    planMma f s = .go { s := s.nestStarted f, op := some s.nextId } := by
  obtain ⟨hfmt, hoff, hconf, hstall, hneed⟩ := planMma_checks hodd hsrc hcb hidle hcarry
  rw [planMma, if_neg hfmt, if_neg hoff, if_neg hconf, if_neg hstall, if_neg hneed]
  simp only [h]
  rfl

end

/-! ### MSTOP (R237) -/

theorem State.keeps_endNest (s : State) (r : NestRun) (stopped : Bool) : s.Keeps Engine.walk (s.endNest s.cur.core r stopped) :=
  State.Keeps.trans (s' := s.dropFlight r.id) ⟨rfl, fun _ => rfl⟩ (State.keeps_modHere fun u => by
    dsimp only
    split <;> rfl)

theorem planMstop_none {s : State} (h : s.here.nestRun = none) : planMstop s = .go { s := s } := by
  simp only [planMstop, h]

theorem planMstop_stopped {s : State} {r : NestRun} (h : s.here.nestRun = some r) (hstop : r.stopAt ≠ none) : planMstop s = .go { s := s } := by
  simp only [planMstop, h, Option.isSome_iff_ne_none.2 hstop, if_true]

/-- A nest that runs ends at once if no pass of it is in flight and none enters at this tick; else its passes in flight commit first. -/
theorem planMstop_running {s : State} {r : NestRun} (h : s.here.nestRun = some r) (hrun : r.stopAt = none) :
    planMstop s = if (∀ x, s.flight r.id = some x → x.due ≠ s.now) ∧ s.passesLeft s.cur.core r.id = false then .go { s := s.endNest s.cur.core r true }
      else .go { s := s.modHere fun k => { k with nestRun := some { r with stopAt := some s.now } } } := by
  have henters : ((s.flight r.id).elim false fun f => decide (f.due = s.now)) = false ↔ ∀ x, s.flight r.id = some x → x.due ≠ s.now := by
    cases s.flight r.id <;> simp
  simp only [planMstop, h, hrun, Option.isSome_none, Bool.false_eq_true, if_false, Bool.not_eq_true', henters]

/-! ### MWAIT (R237) -/

theorem Engine.issued_hold (e : Engine) (head : W32) (inseg join : Bool) (st T C d cyc : Nat) (b : Beads) {g : Go} (fl : List Nat) (fg : BitVec 32)
    (hown : g.own = true) : (e.issued head inseg join st T C d cyc b g fl fg).hold = e.hold := by
  simp only [Engine.issued, Engine.completion, hown, if_true]

/-- An engine that leaves a word keeps its hold. -/
theorem State.leave_hold (s : State) (c t n : Nat) (jump : Option Nat) : (((s.leave c t n jump).core c).engine t).hold = ((s.core c).engine t).hold := by
  have hput : ∀ (k : Core) (e : Engine), e.hold = ((s.core c).engine t).hold →
      (((s.setCore c ((k.setEngine t e).trimPath (coreType c))).core c).engine t).hold = ((s.core c).engine t).hold := fun k e he => by
    obtain ⟨m, hm⟩ := Core.trimPath_engine (k.setEngine t e) (coreType c) t
    rw [State.core_setCore, hm, Core.engine_setEngine, he]
  unfold State.leave
  dsimp only
  split
  · split
    · split
      · rw [State.loopEnd_engine]
        exact hput _ _ rfl
      · split
        · rw [State.core_modCore]
          exact hput _ _ rfl
        · exact hput _ _ rfl
    · exact hput _ _ rfl
  · exact hput _ _ rfl

/-- An instruction that sees to its own completion leaves in its engine's hold what its meaning put there. -/
theorem finish_hold_of_own {s : State} {i : Instr} {u : Uses} {g : Go} {mask : Res → List Nat} (hown : g.own = true) (hcur : g.s.cur = s.cur)
    (hwaits : g.s.hereE.waits = none) : (((finish s i u g mask).core s.cur.core).engine s.cur.tag).hold = g.s.hereE.hold := by
  have hun : g.s.unpause = g.s := by simp [State.unpause, hwaits]
  obtain ⟨-, -, htake⟩ := takeBeads_near g.s i
  rw [hcur] at htake
  have hengine : ∀ (k : Core) (F : Engine → Engine) (bz : List Busy) (ecc : List (Res × Bool)),
      ({ k.modEngine s.cur.tag F with busy := bz, ecc := ecc } : Core).engine s.cur.tag = F (k.engine s.cur.tag) := fun _ _ _ _ => Core.engine_modEngine ..
  have hnear := Core.near_trans htake (Core.near_beadAdd _ s.ct s.cur.tag s.now (beadsOf i).ap (beadsOf i).an)
  rw [finish, hun, State.leave_hold, State.core_modCore, hengine, Engine.issued_hold _ _ _ _ _ _ _ _ _ _ _ _ hown, State.hereE, State.here, hcur]
  exact (congrArg Engine.hold (hnear.2 s.cur.tag) :)

/-- What an instruction's meaning does to the hold of its own engine counts as its completion, not as an effect on the state. -/
theorem Went.of_modHereE {s t : State} {pc nx : Nat} {f : Engine → Engine} (h : Went s (s.modHereE f) t pc nx) (hkept : (f s.hereE).kept = s.hereE.kept)
    (hdyn : (f s.hereE).dyn = s.hereE.dyn) : Went s s t pc nx := by
  have hcore : (s.modHereE f).core s.cur.core = s.here.modEngine s.cur.tag f := State.core_modCore ..
  have hengine : ((s.modHereE f).core s.cur.core).engine s.cur.tag = f s.hereE := State.hereE_modHereE s f
  exact {
    module := congrArg (fun x : State => { x with cores := s.cores }) h.module
    others := fun c hc => (h.others c hc).trans (State.core_modCore_other s _ hc)
    regs := h.regs.trans ((congrArg Core.bare hcore).trans rfl)
    engines := fun u hu => (h.engines u hu).trans (by rw [hcore, Core.engine_modEngine_other _ _ hu]; rfl)
    own := h.own.trans ((congrArg Engine.kept hengine).trans hkept)
    place := h.place
    issued := h.issued
    next := h.next
    count := h.count.trans (by rw [hengine, hdyn]; rfl) }

/-- The XE with the hold that an MWAIT puts there for nest `r`: no takes, and the adds of the second DEP field once the nest's operation has ended. -/
def Engine.mwaits (f : F1) (s : State) (r : NestRun) (e : Engine) : Engine :=
  { e with hold := some { wp := false, wn := false, c := s.now + s.d, op := some r.id, sp := (beadsOf (.mwait f)).dp, sn := (beadsOf (.mwait f)).dn, fl := [],
                          flags := 0, pc := e.pc } }

/-- What an issue leads to, where nothing holds the instruction back and its guard enables it. -/
theorem issue_finish {s : State} {i : Instr} {plan : State → Plan} {g : Go} (hready : Ready s i) (hplan : plan s = .go g) :
    ∃ mask, issue s i plan = .next (finish s i (s.usesOf i) g mask) := by
  rw [issue_clear hready.clear, settle_go hready.clear (g := g) (by rw [hready.on]; exact hplan)]
  exact ⟨_, rfl⟩

/-- MWAIT goes on at once; while a nest runs its hold keeps the beads of its second DEP field until the nest has ended. -/
theorem exec_mwait {f : F1} {s : State} (hready : Ready s (.mwait f)) : ∃ t nx, exec (.mwait f) s = .next t ∧ Went s s t (s.pcAfter (.mwait f)) nx ∧
    ∀ r, s.here.nestRun = some r → ((t.core s.cur.core).engine s.cur.tag).hold =
      some { wp := false, wn := false, c := s.now + s.d, op := some r.id, sp := (beadsOf (.mwait f)).dp, sn := (beadsOf (.mwait f)).dn, fl := [], flags := 0,
             pc := s.hereE.pc } := by
  cases hrun : s.here.nestRun with
  | none =>
    obtain ⟨nx, t, ht, hwent⟩ := issues_same (plan := planMwait f) rfl hready (g := { s := s }) (by simp only [planMwait, hrun]) rfl rfl
    exact ⟨t, nx, ht, hwent, nofun⟩
  | some r =>
    obtain ⟨g, hplan, hgs, hown, hj⟩ : ∃ g, planMwait f s = .go g ∧ g.s = s.modHereE (Engine.mwaits f s r) ∧ g.own = true ∧ g.jump = none := by
      simp only [planMwait, hrun]
      exact ⟨_, rfl, rfl, rfl, rfl⟩
    have hengine : g.s.hereE = Engine.mwaits f s r s.hereE := by rw [hgs, State.hereE_modHereE]
    have hwaits : g.s.hereE.waits = none := by
      rw [hengine]
      exact hready.clear.unpaused
    have hcur : g.s.cur = s.cur := by
      rw [hgs]
      rfl
    have hmid : g.s.midLoop (encode (.mwait f)).length = true := by
      rw [State.midLoop, hengine]
      exact hready.mid
    obtain ⟨mask, hexec⟩ := issue_finish hready hplan
    have hwent : Went s g.s _ _ _ := went_finish (mask := mask) hcur hwaits (Or.inr hmid)
    rw [hj, hengine, hgs] at hwent
    refine ⟨_, _, hexec, hwent.of_modHereE rfl rfl, fun r' hr' => ?_⟩
    cases hr'
    rw [finish_hold_of_own hown hcur hwaits, hengine]
    rfl

/-! ### The statement -/

/-- Settles O42: MSIGN and MMA are their checks in order and then the state they leave (`planMma_go`), MSTOP is the three cases of a nest that does not run, has
been stopped, or runs (`planMstop_running`), MWAIT is `exec_mwait`. That UA and UW do nothing in a rotation nest, that check 3 of R231 looks at the active
plane for nests that multiply alone, that a pass which enters at the tick of an MSTOP still enters, and that MWAIT's second DEP field acts when the nest has
ended are the model's readings (log 32, 33, 35, 36). -/
theorem nests : Obligations.Nests := by
  refine ⟨fun f s hready => ?_, fun f s hready => ?_, fun f s hready => ?_, fun f s => exec_mwait⟩
  · intro b
    refine ⟨fun hen => ?_, fun hen hsrc => faults_of_plan rfl hready rfl (by decide) (planMsign_fault hen hsrc), fun hen hsrc => ?_⟩
    · exact issues_of_regs rfl hready (planMsign_regs (by simp [hen])) (by simp [hen]) rfl
    · refine issues_of_regs rfl hready (planMsign_regs fun _ => hsrc) (by simp [hen, b]) ?_
      exact Core.holdLatch_walk ..
  · intro k tab b aoff odd
    refine ⟨fun hodd => faults_of_plan rfl hready rfl (by decide) (planMma_unsigned hodd),
      fun hodd hsrc huse hents => faults_of_plan rfl hready rfl (by decide) (planMma_unconfigured hodd hsrc huse hents),
      fun hodd hsrc hcb hidle hcarry => ⟨fun c hc => ?_, fun hnone => ?_⟩⟩
    · exact faults_of_plan rfl hready rfl (mmaFault_cls_ne hc) (planMma_fault hodd hsrc hcb hidle hcarry hc)
    · exact issues_of_keeps rfl hready (planMma_go hodd hsrc hcb hidle hcarry hnone) rfl (State.keeps_nestStarted s f) rfl
  · refine ⟨fun hnone => issues_same rfl hready (planMstop_none hnone) rfl rfl, fun r hr => ?_⟩
    intro quiet
    refine ⟨fun hstop => issues_same rfl hready (planMstop_stopped hr hstop) rfl rfl, fun hrun hquiet => ?_, fun hrun hquiet => ?_⟩
    · exact issues_of_keeps rfl hready ((planMstop_running hr hrun).trans (if_pos hquiet)) rfl (State.keeps_endNest s r true) rfl
    · exact issues_of_keeps rfl hready ((planMstop_running hr hrun).trans (if_neg hquiet)) rfl (State.keeps_modHere fun _ => rfl) rfl

end Sys2Proof.Machine
end

section
/-! The accumulator banks: ACC.CLR, ACC.CARRY, ACC.SWAP, ACC.RD and ACC.WR (O43). -/

namespace Sys2Proof.Machine

open Sys2Proof

/-- A bank that the open segment has carried in, or whose bytes it protects, is not written (R226, R317). -/
theorem State.bankFree_iff {s : State} {b : Bool} {off n : Nat} :
    ¬(s.carryBank = some b ∨ s.accProt b off n = true) ↔ s.carryBank ≠ some b ∧ s.accProt b off n = false := by
  rw [not_or, Bool.not_eq_true]

theorem State.deHolds_eq_false {s : State} {vis : Bool} {C : Nat} (h : vis = true → s.here.deRead < C) : s.deHolds vis C = false := by
  simpa [State.deHolds] using h

section
variable {s : State} (hidle : s.here.nestRun = none)
include hidle

/-! ### ACC.CLR, ACC.CARRY and ACC.SWAP (R226 to R228, R239) -/

theorem planAccClr_eq {f : AccClrF} (hde : f.vis = true → s.here.deRead < s.now + 256 * s.d) (hcarry : f.vis = false → s.carryReads (s.now + 256 * s.d) = false) :
    let b := s.here.wbank != f.vis
    let r := s.launch (some (s.now + 256 * s.d)) true [] (.clear b)
    planAccClr f s = if s.carryBank = some b ∨ s.accProt b 0 0x4_0000 = true then .fault s .segmentLegality
      else .go { s := r.1, lat := 256, op := some r.2 } :=
  if_neg (by simpa [State.nestIdle_of_none hidle, State.deHolds_eq_false hde] using hcarry)

theorem planAccCarry_eq (hde : s.here.deRead < s.now + 256 * s.d) :
    let r := s.launch (some (s.now + 256 * s.d)) true [] .carry
    planAccCarry s = if s.carryBank = some (s.bankSel true) ∨ s.accProt (s.bankSel true) 0 0x4_0000 = true then .fault s .segmentLegality
      else .go { s := r.1, lat := 256, op := some r.2 } :=
  if_neg (by simp [State.nestIdle_of_none hidle, State.deHolds_eq_false fun _ => hde])

theorem planAccSwap_go (hops : s.bankOps = false) (hde : s.here.deRead < s.now) :
    planAccSwap s = .go { s := s.modHere fun k => { k with wbank := !k.wbank } } :=
  if_neg (by simp [State.nestIdle_of_none hidle, hops, hde])

end

/-! ### ACC.RD and ACC.WR (R238, R240) -/

/-- Buffer offset of the values that an ACC.RD or ACC.WR names. -/
def State.accOff (s : State) (f : AccF) : Nat := (if s.bankSel f.vis then 0x4_0000 else 0) + 4 * s.here.ctlVal s.cur.tag false f.i

section
variable {s : State} {f : AccF}

theorem accOk_eq_false (h : f.d.w ≠ 8 ∧ f.d.w ≠ 16 ∨ 65536 < s.here.ctlVal s.cur.tag false f.i + f.d.w / 8) : accOk s.here s.cur.tag f = false := by
  obtain ⟨h8, h16⟩ | hlong := h
  · simp [accOk, h8, h16]
  · simp [accOk, hlong]

theorem accOk_of (hlen : s.here.ctlVal s.cur.tag false f.i + f.d.w / 8 ≤ 65536) (hw : f.d.w = 8 ∨ f.d.w = 16) (hslot : s.here.slotOk s.cur.tag f.d = true)
    (hsrc : s.here.srcOk s.cur.tag false f.i = true) : accOk s.here s.cur.tag f = true := by
  simp [accOk, hslot, hsrc, hw, hlen]

theorem planAccRd_illegal (h : accOk s.here s.cur.tag f = false) : planAccRd f s = .fault s .illegalOperand := if_pos (by simp [h])

theorem planAccWr_illegal (h : accOk s.here s.cur.tag f = false) : planAccWr f s = .fault s .illegalOperand := if_pos (by simp [h])

variable (hok : accOk s.here s.cur.tag f = true) (hidle : f.vis = true ∨ s.here.nestRun = none)
include hok hidle

theorem planAccRd_regs (hread : s.issueRead 2 (s.accOff f) (f.d.w / 2) = (s, none)) :
    planAccRd f s = .regs s 4 fun k => k.wrSlot s.cur.tag f.d (rdLe s.memAhead (s.bufPa s.cur.core 2 (s.accOff f)) (f.d.w / 2)) := by
  have hnest : ¬((!f.vis) = true ∧ (!s.nestIdle) = true) := by
    obtain hvis | hnone := hidle
    · simp [hvis]
    · simp [State.nestIdle_of_none hnone]
  rw [State.accOff] at hread
  rw [planAccRd, if_neg (by simp [hok]), if_neg hnest]
  simp only [hread]
  rfl

theorem planAccWr_eq (hde : f.vis = true → s.here.deRead < s.now + 2 * s.d) (hcarry : f.vis = false → s.carryReads (s.now + 2 * s.d) = false) :
    let b := s.bankSel f.vis
    let n := f.d.w / 2
    planAccWr f s = if s.carryBank = some b ∨ s.accProt b (4 * s.here.ctlVal s.cur.tag false f.i) n = true then .fault s .segmentLegality
      else .go { s := (s.launch (some (s.now + 2 * s.d)) false []
        (.write (cellsAt (s.bufPa s.cur.core 2 (s.accOff f)) (leBytes n (s.here.slotVal s.cur.tag f.d))) [])).1, lat := 2 } := by
  have hwait : ¬(((!f.vis) = true ∧ ((!s.nestIdle) = true ∨ s.carryReads (s.now + 2 * s.d) = true)) ∨ s.deHolds f.vis (s.now + 2 * s.d) = true) := by
    rw [State.deHolds_eq_false hde]
    cases hvis : f.vis with
    | false => simp [State.nestIdle_of_none (hidle.resolve_left (by simp [hvis])), hcarry hvis]
    | true => simp
  rw [planAccWr, if_neg (by simp [hok]), if_neg hwait]
  rfl

end

/-! ### The statement -/

/-- Settles O43: each instruction is its checks and then one operation put into progress, or one write of registers (`planAccClr_eq`, `planAccWr_eq` and
their fellows). -/
theorem accumulatorBanks : Obligations.AccumulatorBanks := by
  refine ⟨fun f s hready hidle hde hcarry => ?_, fun f s hready hidle hde => ?_, fun f s hready hidle hops hde => ?_, fun f s => ?_⟩
  · have hplan := planAccClr_eq hidle hde hcarry
    refine ⟨fun hheld => faults_of_plan rfl hready rfl (by decide) (hplan.trans (if_pos hheld)), fun hbank hprot => ?_⟩
    exact issues_of_keeps rfl hready (hplan.trans (if_neg (State.bankFree_iff.2 ⟨hbank, hprot⟩))) rfl (State.keeps_of_rim (State.launch_rim ..)) rfl
  · have hplan := planAccCarry_eq hidle hde
    rw [State.bankSel, Bool.bne_true] at hplan
    refine ⟨fun hheld => faults_of_plan rfl hready rfl (by decide) (hplan.trans (if_pos hheld)), fun hbank hprot => ?_⟩
    exact issues_of_keeps rfl hready (hplan.trans (if_neg (State.bankFree_iff.2 ⟨hbank, hprot⟩))) rfl (State.keeps_of_rim (State.launch_rim ..)) rfl
  · exact issues_of_keeps rfl hready (planAccSwap_go hidle hops hde) rfl (State.keeps_modHere fun _ => rfl) rfl
  · intro k i b off n hidle
    refine ⟨fun hlen hw hslot hsrc => ?_, fun h => ?_⟩
    · have hok := accOk_of hlen hw hslot hsrc
      refine ⟨fun hready hread => ?_, fun hready hde hcarry => ?_⟩
      · exact issues_of_regs rfl hready (planAccRd_regs hok hidle hread) rfl rfl
      · have hplan := planAccWr_eq hok hidle hde hcarry
        refine ⟨fun hheld => faults_of_plan rfl hready rfl (by decide) (hplan.trans (if_pos hheld)), fun hbank hprot => ?_⟩
        exact issues_of_keeps rfl hready (hplan.trans (if_neg (State.bankFree_iff.2 ⟨hbank, hprot⟩))) rfl (State.keeps_of_rim (State.launch_rim ..)) rfl
    · exact ⟨fun hready => faults_of_plan rfl hready rfl (by decide) (planAccRd_illegal (accOk_eq_false h)),
        fun hready => faults_of_plan rfl hready rfl (by decide) (planAccWr_illegal (accOk_eq_false h))⟩

end Sys2Proof.Machine
end

section
/-! The drain: DSCALE, DRAIN and DAMAX (O44). -/

namespace Sys2Proof.Machine

open Sys2Proof

/-! ### DSCALE (R241) -/

theorem scaleOk_of {k : Core} {t : Nat} {b use : Bool} {x : Src} (h : use = true → k.srcOk t b x = true ∧ k.srcW t b 8 x = 8) : scaleOk k t b use x = true := by
  cases use with
  | false => rfl
  | true => simp [scaleOk, h rfl]

/-- A core with the multiplier and the tile scale that a DSCALE sets. -/
def Core.scaled (c : Core) (t : Nat) (f : DscaleF) : Core :=
  let m := if f.setm then { (c.holdLatch t false f.a (scaleVal c t false f.a) 8) with mul := BitVec.ofNat 32 (scaleVal c t false f.a) } else c
  if f.sett then { (m.holdLatch t true f.b (scaleVal c t true f.b) 8) with tsc := BitVec.ofNat 32 (scaleVal c t true f.b) } else m

theorem Core.scaled_walk (c : Core) (t : Nat) (f : DscaleF) (u : Nat) : ((c.scaled t f).engine u).walk = (c.engine u).walk := by
  have hmul := Core.walk_ite (c := f.setm = true)
    (a := { (c.holdLatch t false f.a (scaleVal c t false f.a) 8) with mul := BitVec.ofNat 32 (scaleVal c t false f.a) }) (Core.holdLatch_walk c ..) (rfl : (c.engine u).walk = _)
  exact Core.walk_ite ((Core.holdLatch_walk ..).trans hmul) hmul

theorem planDscale_regs {f : DscaleF} {s : State} (ha : f.setm = true → s.here.srcOk s.cur.tag false f.a = true ∧ s.here.srcW s.cur.tag false 8 f.a = 8)
    (hb : f.sett = true → s.here.srcOk s.cur.tag true f.b = true ∧ s.here.srcW s.cur.tag true 8 f.b = 8) :
    planDscale f s = .regs s 1 fun k => k.scaled s.cur.tag f := if_neg (by simp [scaleOk_of ha, scaleOk_of hb])

/-! ### DRAIN (R242, R243, R245) -/

theorem drainFault_cls_ne {s : State} {f : DrainF} {b : Cb} {c n : Nat} {e : Cause} (h : drainFault s f b c n = some e) : e.cls ≠ 2 := by
  unfold drainFault at h
  dsimp only at h
  split_ifs at h <;> cases h <;> decide

/-- Operations put into flight one after the other, of which the last one's number is kept. -/
theorem foldl_launch_last_rim (due : Nat → Nat) (w : Nat → Work) (js : List Nat) (r : State × Nat) :
    (js.foldl (fun (r : State × Nat) j => r.1.launch (some (due j)) true [] (w j)) r).1.rim = r.1.rim := by
  induction js generalizing r with
  | nil => rfl
  | cons j js ih => exact (ih _).trans (State.launch_rim ..)

/-- The operation of row `j` of `n` that a DRAIN at the cursor of `s` reads from half-row `c` on. -/
def State.drainWork (s : State) (f : DrainF) (c n j : Nat) : Work :=
  let k := s.here
  let b := k.cbOf f.cb.toNat
  let p := b.prod.toNat + j
  .rowRead s.now (c + (if f.half then j else 2 * j)) (if f.half then 128 else 256) (s.bufPa s.cur.core 1 (b.entry p)) b.attr b.size k.mul k.tsc f.fs f.sat
    (s.rmOf f.rm.toNat) k.seed (emberCtr 0 0x40 (k.segno.toNat % 2 ^ 16 * 2 ^ 32 + p % 2 ^ 16 * 2 ^ 16)) 0
    (if f.adv && decide (j + 1 = n) then [.prod s.cur.core f.cb.toNat n] else [])

/-- The rows of a DRAIN in progress, one more each cycle from the second on, and the number of the last one. -/
def State.drainRows (s : State) (f : DrainF) (c n : Nat) : State × Nat :=
  (List.range n).foldl (fun r j => r.1.launch (some (s.now + (2 + j) * s.d)) true [] (s.drainWork f c n j)) (s, 0)

/-- What a DRAIN of rows from `c` on does to its core: the DE reads the visible bank until its last row, and the entries are busy until they are written. -/
def Core.drained (x : Core) (s : State) (f : DrainF) (c n last : Nat) : Core :=
  let y := (x.holdLatch s.cur.tag false f.row c (x.srcW s.cur.tag false 4 f.row)).holdLatch s.cur.tag true f.n n (x.srcW s.cur.tag true 4 f.n)
  { y with deRead := max y.deRead (s.now + (1 + n) * s.d),
           busy := if f.adv then y.busy ++ [{ res := .cb f.cb.toNat, tick := s.now + (5 + n) * s.d + 1, op := some last, hold := none, old := [], mask := [] }]
                   else y.busy }

section
variable {f : DrainF} {s : State} (hrow : s.here.srcOk s.cur.tag false f.row = true) (hn : s.here.srcOk s.cur.tag true f.n = true)
include hrow hn

theorem planDrain_fault {e : Cause}
    (h : drainFault s f (s.here.cbOf f.cb.toNat) (s.here.ctlVal s.cur.tag false f.row) (s.here.ctlVal s.cur.tag true f.n) = some e) :
    planDrain f s = .fault s e := by
  rw [planDrain, if_neg (by simp [hrow, hn])]
  simp only [h]

theorem planDrain_go (h : drainFault s f (s.here.cbOf f.cb.toNat) (s.here.ctlVal s.cur.tag false f.row) (s.here.ctlVal s.cur.tag true f.n) = none)
    (hroom : s.here.ctlVal s.cur.tag true f.n ≤ (s.here.cbOf f.cb.toNat).room s.now) :
    let c := s.here.ctlVal s.cur.tag false f.row
    let n := s.here.ctlVal s.cur.tag true f.n
    let r := s.drainRows f c n
    planDrain f s = .go { s := r.1.modHere fun x => x.drained s f c n r.2, lat := 5 + n, cyc := n, op := some r.2 } := by
  intro c n r
  rw [planDrain, if_neg (by simp [hrow, hn])]
  simp only [h, if_neg (not_lt.2 hroom)]
  rfl

end

/-! ### DAMAX (R242) -/

/-- The rows that a DRAIN or a DAMAX names lie in the bank. -/
theorem rowsOk_iff (c n : Nat) (half : Bool) :
    rowsOk c n half = true ↔ n ≠ 0 ∧ c + (if half then n else 2 * n) ≤ 512 ∧ (half = false → c % 2 = 0) := by
  cases half <;> simp [rowsOk]

theorem planDamax_eq {f : DamaxF} {s : State} (hdst : s.here.slotOk s.cur.tag f.dst = true) (hrow : s.here.srcOk s.cur.tag false f.row = true)
    (hn : s.here.srcOk s.cur.tag true f.n = true) (hw : f.dst.w = 8) :
    let c := s.here.ctlVal s.cur.tag false f.row
    let n := s.here.ctlVal s.cur.tag true f.n
    let tot := if f.half then n else 2 * n
    let r := s.launch (some (s.now + 2 * s.d)) false [] (.damax c (c + tot - 1) 0 (s.here.startOf s.cur.tag f.dst))
    planDamax f s = if (!rowsOk c n f.half) = true then .fault s .illegalOperand
      else .go { s := r.1.modHere fun k => { k with deRead := max k.deRead (s.now + (1 + ceilDiv tot 2) * s.d) }, lat := 5 + ceilDiv tot 2,
                 cyc := 2 + ceilDiv tot 2, op := some r.2 } := if_neg (by simp [hdst, hrow, hn, hw])

/-! ### The statement -/

/-- Settles O44: DSCALE is one write of registers, DRAIN and DAMAX are their checks in order and then operations put into progress (`planDrain_go`,
`planDamax_eq`). That a buffer that is not configured is an illegal operand before its space is checked, and what held immediates leave in their
latches, are the model's readings (log 47, 102). -/
theorem drains : Obligations.Drains := by
  refine ⟨fun f s hready => ?_, fun f s hready hrow hn => ?_, fun f s hready hdst hrow hn hw => ?_⟩
  · intro t k ha hb
    exact issues_of_regs rfl hready (planDscale_regs ha hb) rfl (Core.scaled_walk ..)
  · intro k t i b c n L
    refine ⟨fun e he => faults_of_plan rfl hready rfl (drainFault_cls_ne he) (planDrain_fault hrow hn he), fun hnone hroom => ?_⟩
    refine issues_of_go rfl hready (planDrain_go hrow hn hnone hroom) rfl (foldl_launch_last_rim _ _ _ (s, 0)) ?_ rfl
    exact (Core.holdLatch_walk ..).trans (Core.holdLatch_walk ..)
  · intro c n tot rows
    have hplan := planDamax_eq hdst hrow hn hw
    have hrows : (!rowsOk c n f.half) = true ↔ ¬rows := by rw [Bool.not_eq_true', ← Bool.not_eq_true, rowsOk_iff]
    refine ⟨fun h => faults_of_plan rfl hready rfl (by decide) (hplan.trans (if_pos (hrows.2 h))), fun h => ?_⟩
    exact issues_of_go rfl hready (hplan.trans (if_neg fun hout => hrows.1 hout h)) rfl (State.launch_rim ..) rfl rfl

end Sys2Proof.Machine
end

section
/-! What takes effect in the planes, the pipeline and the accumulator banks (O52). -/

namespace Sys2Proof.Machine

open Sys2Proof

/-! ### The end of a load (R217) -/

theorem exec_planeLoadComplete {s : State} {id : Nat} {f : Flight} (hf : s.flight id = some f) {pl : Bool} {pa lo size next : Nat} {img : List Byte}
    {fins : List Fin} (hw : f.work = .plane pl pa lo size next img fins) :
    exec (.planeLoadComplete id) s =
      .next (((s.dropFlight id).modCore f.core fun k =>
        let x := k.setPlane pl { (k.planeAt pl) with st := 2, img := img }
        if lo = 0 then { x with ecc := x.ecc.filter fun p => decide (p.1 ≠ .plane pl) } else x).signal fins) := by
  change execPlaneLoadComplete id s = _
  simp only [execPlaneLoadComplete, hf, hw]

/-! ### The entry of a pass (R217, R222 to R233) -/

/-- Whether the MSTOP of a nest came before tick `T`. -/
theorem NestRun.elim_stopAt {r : NestRun} {T : Nat} : (r.stopAt.elim false fun x => decide (x < T)) = true ↔ ∃ x, r.stopAt = some x ∧ x < T := by
  cases r.stopAt <;> simp

theorem NestRun.elim_stopAt_false {r : NestRun} {T : Nat} (h : ∀ x, r.stopAt = some x → T ≤ x) :
    ¬(r.stopAt.elim false fun x => decide (x < T)) = true := by
  rw [NestRun.elim_stopAt]
  rintro ⟨x, hx, hlt⟩
  exact absurd hlt (not_lt.2 (h x hx))

/-- Operation `id` falls due at tick `t`. -/
def State.dueAt (s : State) (id t : Nat) : State := { s with flights := s.flights.map fun f => if f.id = id then { f with due := t } else f }

/-- Whether the next pass of nest `r` of core `c` must wait: for a FULL shadow plane, or for a rotation of its half-rows in flight. -/
def State.nestStuck (s : State) (c : Nat) (r : NestRun) : Prop :=
  nFlipAt r.regs r.entered = true ∧ (s.core c).shPlane.st ≠ 2 ∨ nRot r.regs = true ∧ s.rowsBusy c (nRow r.regs r.entered).toNat = true

/-- The state in which the next pass of nest `r` has entered, with the values that it will add: `x` is the state after its reads. -/
def State.passEntered (x s : State) (c : Nat) (r : NestRun) (fl : Flight) (vals : List (Nat × Flags)) : State :=
  let T := s.reckOf c
  let d := (s.core c).div 3
  ((x.dueAt r.id (if r.entered + 1 = r.total then neverTick else T + d)).modCore c fun k => { k with nestRun := some { r with entered := r.entered + 1, since := none } }).addFlight
    { id := 0, core := c, tag := 3, grp := fl.grp, due := T + 516 * d, fixed := true, inseg := fl.inseg, async := true, pos := fl.pos, pc := fl.pc,
      work := .pass (nRow r.regs r.entered).toNat (vals.map fun v => BitVec.ofNat 32 v.1) (BitVec.ofNat 32 (orFlags (vals.map fun v => v.2))) (nRot r.regs) }

section
variable {s : State} {c : Nat} {r : NestRun} {fl : Flight} (hrun : (s.core c).nestRun = some r) (hfl : s.flight r.id = some fl)
include hrun hfl

/-- After an MSTOP no pass enters: the nest ends once none is in flight. -/
theorem exec_nestPassEntry_stopped (hstop : ∃ x, r.stopAt = some x ∧ x < s.reckOf c) :
    exec (.nestPassEntry c) s = .next (if s.passesLeft c r.id then s.dueAt r.id neverTick else s.endNest c r true) := by
  change execNestPassEntry c s = _
  simp only [execNestPassEntry, hrun, hfl]
  rw [if_pos (NestRun.elim_stopAt.2 hstop)]
  rfl

variable (hgo : ∀ x, r.stopAt = some x → s.reckOf c ≤ x)
include hgo

/-- A pass that must wait does so cycle by cycle, and past 65,536 ticks it is a schedule fault. -/
theorem exec_nestPassEntry_stuck (hstuck : s.nestStuck c r) :
    exec (.nestPassEntry c) s = .next (if r.since.getD (s.reckOf c) + 65536 ≤ s.reckOf c then
        (s.dueAt r.id neverTick).charge { core := c, tag := 3, cause := .schedule, info := 0, pc := some fl.pc } none
      else (s.dueAt r.id (s.reckOf c + (s.core c).div 3)).modCore c fun k => { k with nestRun := some { r with since := some (r.since.getD (s.reckOf c)) } }) := by
  change execNestPassEntry c s = _
  simp only [execNestPassEntry, hrun, hfl]
  rw [if_neg (NestRun.elim_stopAt_false hgo), if_pos (by simpa [State.nestStuck] using hstuck)]
  split <;> rfl

variable (hfree : ¬s.nestStuck c r) {s1 : State} (hflip : s1 = if nFlipAt r.regs r.entered then s.modCore c Core.flip else s)
include hfree hflip

theorem exec_nestPassEntry_rotates (hrot : nRot r.regs = true)
    (hread : s1.consumeBuf c 3 2 fl.pc [((if (s.core c).wbank then 0x40000 else 0) + 512 * (nRow r.regs r.entered).toNat, 1024)] = (s1, true)) :
    exec (.nestPassEntry c) s = .next (s1.passEntered s c r fl (rotPass (nHsel r.regs)
      (fun i => nSgn r.regs && r.sign.en && sgnBit r.seed r.sign.qs.toNat ((r.sign.i0.toNat + i) % 2 ^ 48))
        (s1.accVals c (s.core c).wbank (128 * (nRow r.regs r.entered).toNat) 256).toArray)) := by
  change execNestPassEntry c s = _
  simp only [execNestPassEntry, hrun, hfl]
  rw [if_neg (NestRun.elim_stopAt_false hgo), if_neg (by simpa [State.nestStuck] using hfree), if_pos hrot]
  subst hflip
  simp only [hread, decide_eq_true_eq]
  rfl

theorem exec_nestPassEntry_multiplies (hrot : nRot r.regs = false) {spans : List (Nat × Nat)}
    (hspans : spans = recordSpans (s.core c) r (nAddr r.regs r.aoff r.entered).toNat) {s2 : State} (hs2 : s2 = s1.notePorts c 2 (s.reckOf c) 24 spans)
    (hread : s2.consumeBuf c 2 1 fl.pc spans = (s2, true)) (hplane : s2.consumePlane c fl.pc = (s2, true)) :
    let act := (s2.core c).actPlane
    exec (.nestPassEntry c) s = .next (s2.passEntered s c r fl (passAll
      { attr := nAfmt r.regs, bytes := (s2.bufBytes c 1 spans).toArray, n := famK (famOf (nAfmt r.regs)) }
      { attr := act.fmt, bytes := act.img.toArray, n := famK (famOf act.fmt) * famN (famOf act.fmt) } r.ua r.uw)) := by
  change execNestPassEntry c s = _
  simp only [execNestPassEntry, hrun, hfl]
  rw [if_neg (NestRun.elim_stopAt_false hgo), if_neg (by simpa [State.nestStuck] using hfree), if_neg (by simp [hrot])]
  subst hflip hs2 hspans
  simp only [hread, hplane, decide_eq_true_eq]
  rfl

end

/-! ### The commit of a pass (R225, R233) -/

@[simp] theorem State.store_reckOf (s : State) (a : Nat) (bs : List Byte) (c : Nat) : (s.store a bs).reckOf c = s.reckOf c := by
  unfold State.store
  split <;> rfl

/-- The state after a pass has committed: half-row `h` of the working bank with the sums added, or with the rotated values. -/
def State.passCommitted (s : State) (f : Flight) (h : Nat) (sums : List W32) (flags : W32) (rot : Bool) : State :=
  let k := s.core f.core
  let new := ((s.accVals f.core k.wbank (128 * h) sums.length).zip sums).map fun p => if rot then (p.2.toNat, 0) else addCode .fp32 p.1 p.2.toNat
  (s.store (s.bufPa f.core 2 ((if k.wbank then 0x40000 else 0) + 512 * h)) (new.flatMap fun v => leBytes 4 v.1)).modCore f.core fun k =>
    { k.raise (s.reckOf f.core) (flags.toNat ||| orFlags (new.map fun v => v.2)) with passes := k.passes + 1, carryok := false }

theorem exec_nestPassCommit {s : State} {id : Nat} {f : Flight} (hf : s.flight id = some f) {h : Nat} {sums : List W32} {flags : W32} {rot : Bool}
    (hw : f.work = .pass h sums flags rot) {r : NestRun} (hrun : (s.core f.core).nestRun = some r)
    (hread : (s.dropFlight id).consumeBuf f.core 3 2 f.pc [((if (s.core f.core).wbank then 0x40000 else 0) + 512 * h, 4 * sums.length)] =
      (s.dropFlight id, true)) :
    let s2 := (s.dropFlight id).passCommitted f h sums flags rot
    exec (.nestPassCommit id) s = .next (if (r.entered = r.total ∨ r.stopAt ≠ none) ∧ s2.passesLeft f.core id = false
      then s2.endNest f.core r r.stopAt.isSome else s2) := by
  intro s2
  have hends : ∀ left : Bool, ((decide (r.entered = r.total) || r.stopAt.isSome) && !left) = true ↔ (r.entered = r.total ∨ r.stopAt ≠ none) ∧ left = false :=
    fun left => by simp [Option.isSome_iff_ne_none]
  change execNestPassCommit id s = _
  simp only [execNestPassCommit, hf, hw, hread, hrun, State.store_reckOf]
  exact congrArg Host.Outcome.next (if_congr (hends _) rfl rfl)

/-! ### The ends of ACC.CLR and ACC.CARRY (R226, R239) -/

section
variable {s : State} {id : Nat} {f : Flight} (hf : s.flight id = some f)
include hf

theorem exec_accClrComplete {b : Bool} (hw : f.work = .clear b) : exec (.accClrComplete id) s =
    .next (((s.dropFlight id).store (s.bufPa f.core 2 (if b then 0x40000 else 0)) (List.replicate 0x40000 0)).modCore f.core fun k => { k with carryok := false }) := by
  change execAccClrComplete id s = _
  simp only [execAccClrComplete, hf, hw]

theorem exec_accCarryComplete (hw : f.work = .carry)
    (hread : (s.dropFlight id).consumeBuf f.core 3 2 f.pc [(if (s.core f.core).wbank then 0x40000 else 0, 0x40000)] = (s.dropFlight id, true)) :
    let off (b : Bool) : Nat := if b then 0x40000 else 0
    let w := (s.core f.core).wbank
    exec (.accCarryComplete id) s = .next (((s.dropFlight id).store (s.bufPa f.core 2 (off !w)) (rdBytes s.mem (s.bufPa f.core 2 (off w)) 0x40000)).modCore f.core
      fun k => { k with carryok := true }) := by
  intro off w
  change execAccCarryComplete id s = _
  simp only [execAccCarryComplete, hf, hw, hread]
  rfl

end

/-! ### Rows of a DRAIN (R232, R245) -/

/-- The A-buffer lines that a drained row asks for. -/
def State.rowSpans (s : State) (f : Flight) (ws : List Host.Cell) : List (Nat × Nat) := ws.map fun w => (w.1 - s.bufPa f.core 1 0, 1)

/-- Whether a lower tag asks bank `b` of those that a row needs, in this tick. -/
def State.rowClash (s : State) (f : Flight) (ws : List Host.Cell) (b : Nat) : Prop :=
  (∃ l ∈ spanLines (s.rowSpans f ws), l % 24 = b) ∧ ∃ p ∈ (s.core f.core).ports, p.1 = s.reckOf f.core ∧ p.2.1 < 4 ∧ p.2.2 = b

/-- `State.rowClash` as a test of one bank, in the form in which the model searches the banks for it. -/
def State.rowLost (s : State) (f : Flight) (ws : List Host.Cell) : Nat → Bool := fun b =>
  ((spanLines (s.rowSpans f ws)).map fun l => l % 24).eraseDups.contains b &&
    (s.core f.core).ports.any fun p => decide (p.1 = s.reckOf f.core) && decide (p.2.1 < 4) && decide (p.2.2 = b)

theorem State.rowLost_iff {s : State} {f : Flight} {ws : List Host.Cell} {b : Nat} : s.rowLost f ws b = true ↔ s.rowClash f ws b := by
  simp [State.rowLost, State.rowClash, and_assoc]

/-- The row of a DRAIN that issued at `t0`, or one after it, when row `id` of core `c` has lost a cycle. -/
def Flight.delayed (id c t0 d : Nat) (x : Flight) : Flight :=
  if x.core = c ∧ x.tag = 4 ∧ id ≤ x.id then
    match x.work with
    | .row t1 _ _ _ => if t1 = t0 then { x with due := x.due + d } else x
    | .rowRead t1 h n pa a sz m ts fs sa rm sd ctr lag fi => if t1 = t0 then { x with work := .rowRead t1 h n pa a sz m ts fs sa rm sd ctr (lag + d) fi } else x
    | _ => x
  else x

theorem Flight.delayed_id (id c t0 d : Nat) (x : Flight) : (x.delayed id c t0 d).id = x.id := by
  unfold Flight.delayed
  repeat' split
  all_goals rfl

/-- The row that loses the cycle comes a cycle later. -/
theorem Flight.delayed_row {f : Flight} {t0 : Nat} {ws : List Host.Cell} {flags : W32} {fins : List Fin} (hw : f.work = .row t0 ws flags fins) (htag : f.tag = 4)
    (d : Nat) : f.delayed f.id f.core t0 d = { f with due := f.due + d } := by
  rw [Flight.delayed, if_pos ⟨rfl, htag, le_refl _⟩]
  simp only [hw, if_true]

section
variable {s : State} {id : Nat} {f : Flight} (hf : s.flight id = some f) {t0 : Nat} {ws : List Host.Cell} {flags : W32} {fins : List Fin}
  (hw : f.work = .row t0 ws flags fins)
include hf hw

/-- A row whose banks no lower tag asks commits. -/
theorem exec_drainRowCommit_free (hfree : ∀ b, b < 24 → ¬s.rowClash f ws b) :
    exec (.drainRowCommit id) s = .next ((((((s.dropFlight id).notePorts f.core 4 (s.reckOf f.core) 24 (s.rowSpans f ws)).storeCells ws).modCore f.core
      fun k => k.raise (s.reckOf f.core) flags.toNat)).signal fins) := by
  have hnone : (List.range 24).find? (s.rowLost f ws) = none := List.find?_eq_none.2 fun b hb => mt State.rowLost_iff.1 (hfree b (List.mem_range.1 hb))
  unfold State.rowLost State.rowSpans at hnone
  change execDrainRowCommit id s = _
  simp only [execDrainRowCommit, hf, hw, hnone]
  rfl

/-- A row that a lower tag keeps from a bank loses a cycle, and with it the later rows of its DRAIN. -/
theorem exec_drainRowCommit_clash (hclash : ∃ b, b < 24 ∧ s.rowClash f ws b) :
    ∃ g : Core → Core, exec (.drainRowCommit id) s =
      .next (({ s with flights := s.flights.map (Flight.delayed f.id f.core t0 ((s.core f.core).div 4)) } : State).modCore f.core g) := by
  obtain ⟨b, hlt, hb⟩ := hclash
  obtain ⟨b', hb'⟩ : ∃ b', (List.range 24).find? (s.rowLost f ws) = some b' :=
    Option.isSome_iff_exists.1 (List.find?_isSome.2 ⟨b, List.mem_range.2 hlt, State.rowLost_iff.2 hb⟩)
  unfold State.rowLost State.rowSpans at hb'
  change ∃ g : Core → Core, execDrainRowCommit id s = _
  simp only [execDrainRowCommit, hf, hw, hb']
  exact ⟨_, rfl⟩

end

theorem State.flight_mapFlights {s : State} {id : Nat} {g : Flight → Flight} (hg : ∀ x, (g x).id = x.id) :
    ({ s with flights := s.flights.map g } : State).flight id = (s.flight id).map g := by
  simp only [State.flight, List.find?_map, Function.comp_def, hg]

/-! ### The statement -/

/-- Settles O52: each event is one lemma above for each of its outcomes. That ACC.CLR and ACC.CARRY change their bank at the tick at which they complete, and
that a pass whose entry tick is that of an MSTOP enters, are the model's readings (log 34, 35). -/
theorem matrixEvents : Obligations.MatrixEvents := by
  refine ⟨fun id s f pl pa lo size next img fins hf hw => exec_planeLoadComplete hf hw, fun c s r fl hrun hfl => ?_,
    fun id s f h sums flags rot r hf hw hrun => ?_, fun id s f hf => ?_⟩
  · intro T k d put row flip stuck since started
    refine ⟨fun x hx hlt => exec_nestPassEntry_stopped hrun hfl ⟨x, hx, hlt⟩, fun hgo hstuck hT => ?_, fun hgo hstuck hT => ?_, fun hgo hfree => ?_⟩
    · exact (exec_nestPassEntry_stuck hrun hfl hgo hstuck).trans (congrArg Host.Outcome.next (if_neg (not_le.2 hT)))
    · exact (exec_nestPassEntry_stuck hrun hfl hgo hstuck).trans (congrArg Host.Outcome.next (if_pos hT))
    · intro s1
      exact ⟨fun hrot hread => exec_nestPassEntry_rotates hrun hfl hgo hfree rfl hrot hread,
        fun hrot hread hplane => exec_nestPassEntry_multiplies hrun hfl hgo hfree rfl hrot rfl rfl hread hplane⟩
  · intro k off s1 new s2 hread
    exact exec_nestPassCommit hf hw hrun hread
  · intro off s1
    refine ⟨fun b hw => exec_accClrComplete hf hw, fun w hw hwb hread => ?_, fun t0 ws flags fins hw => ?_⟩
    · subst hwb
      exact exec_accCarryComplete hf hw hread
    · intro T spans clash
      refine ⟨exec_drainRowCommit_free hf hw, fun hclash htag => ?_⟩
      obtain ⟨g, hexec⟩ := exec_drainRowCommit_clash hf hw hclash
      refine ⟨_, hexec, rfl, List.length_map .., ?_⟩
      have hid := State.id_of_flight hf
      refine (State.flight_mapFlights (Flight.delayed_id f.id f.core t0 _)).trans ?_
      rw [hf, Option.map_some, Flight.delayed_row hw htag]

end Sys2Proof.Machine
end

section
/-! What the movement engines share: named entries, granted accesses, reservations and tags, and transfers in progress (O45 to O51). -/

namespace Sys2Proof.Machine

open Sys2Proof

/-! ### Writes of one core, one after the other -/

theorem SMap.put_put {α : Type} (m : SMap α) (k : Nat) (x y : α) : SMap.put (SMap.put m k x) k y = SMap.put m k y := by
  induction m with
  | nil => simp [SMap.put]
  | cons p r ih =>
    obtain ⟨j, v⟩ := p
    by_cases hlt : k < j
    · simp [SMap.put, hlt]
    · by_cases heq : k = j
      · simp [SMap.put, heq]
      · simp [SMap.put, hlt, heq, ih]

theorem State.modHere_modHere (s : State) (f g : Core → Core) : (s.modHere f).modHere g = s.modHere fun k => g (f k) := by
  change (s.modCore s.cur.core f).setCore s.cur.core (g ((s.modCore s.cur.core f).core s.cur.core)) = _
  rw [State.core_modCore]
  exact congrArg (fun m => { s with cores := m }) (SMap.put_put ..)

/-! ### Plans -/

section
variable {i : Instr} {plan : State → Plan} {s : State} (hexec : exec i s = issue s i plan) (hready : Ready s i)
include hexec hready

/-- A plan that raises a fault, or a trap inside a segment, raises it and does no more. -/
theorem exec_raises {c : Cause} {info : W64} {page : Option Nat} (hown : isAll i = false) (hc : c.cls ≠ 2 ∨ s.here.inSeg = true)
    (hplan : plan s = .bad s c info page) : exec i s = .next (s.raise c info page) := by
  refine (exec_of_bad hexec hready hown hplan).trans (congrArg Host.Outcome.next (if_neg ?_))
  rintro ⟨htrap, hseam⟩
  rcases hc with hc | hseg
  · exact hc htrap
  · simp [hseg] at hseam

/-- An instruction that has put its last request issues. -/
theorem issues_of_placed {s' : State} {last : Nat} {op : Option Nat} (hplan : plan s = .placed s' last op) (hkeeps : s.Keeps Engine.walk s') :
    Issues i s s' :=
  issues_of_keeps hexec hready hplan rfl hkeeps rfl

end

/-! ### Checks and waits of named entries (R166, R265, R278) -/

theorem cbFault_unconfigured {b : Cb} (space : Nat) (h : b.ents = 0) : cbFault b space = some .illegalOperand := by simp [cbFault, Cb.configured, h]

theorem cbFault_space {b : Cb} {space : Nat} (h : b.ents ≠ 0) (hspace : b.space ≠ space) : cbFault b space = some .bufferAccess := by
  simp [cbFault, Cb.configured, h, hspace]

theorem cbFault_none {b : Cb} {space : Nat} (h : b.ents ≠ 0) (hspace : b.space = space) : cbFault b space = none := by
  simp [cbFault, Cb.configured, h, hspace]

section
variable {bs : List (Cb × Nat)}

theorem cbsFault_unconfigured (h : ∃ b ∈ bs, b.1.ents = 0) : cbsFault bs = some .illegalOperand := by
  obtain ⟨b, hb, hents⟩ := h
  refine if_neg fun hall => ?_
  simpa [Cb.configured, hents] using List.all_eq_true.1 hall b hb

theorem cbsFault_configured (h : ∀ b ∈ bs, b.1.ents ≠ 0) : cbsFault bs = bs.findSome? fun b => cbFault b.1 b.2 :=
  if_pos (List.all_eq_true.2 fun b hb => by simp [Cb.configured, h b hb])

theorem cbsFault_none (h : ∀ b ∈ bs, b.1.ents ≠ 0 ∧ b.1.space = b.2) : cbsFault bs = none :=
  (cbsFault_configured fun b hb => (h b hb).1).trans (List.findSome?_eq_none_iff.2 fun b hb => cbFault_none (h b hb).1 (h b hb).2)

theorem findSome?_cbFault_space (h : ∀ b ∈ bs, b.1.ents ≠ 0) (hspace : ∃ b ∈ bs, b.1.space ≠ b.2) :
    bs.findSome? (fun b => cbFault b.1 b.2) = some .bufferAccess := by
  induction bs with
  | nil => simp at hspace
  | cons b r ih =>
    have hb := h b List.mem_cons_self
    by_cases heq : b.1.space = b.2
    · rw [List.findSome?_cons_of_isNone (by rw [cbFault_none hb heq]; rfl)]
      exact ih (fun x hx => h x (List.mem_cons_of_mem _ hx)) (by simpa [heq] using hspace)
    · exact (List.findSome?_cons_of_isSome (by rw [cbFault_space hb heq]; rfl)).trans (cbFault_space hb heq)

theorem cbsFault_space (h : ∀ b ∈ bs, b.1.ents ≠ 0) (hspace : ∃ b ∈ bs, b.1.space ≠ b.2) : cbsFault bs = some .bufferAccess :=
  (cbsFault_configured h).trans (findSome?_cbFault_space h hspace)

theorem cbFault_cls_ne {b : Cb} {space : Nat} {c : Cause} (h : cbFault b space = some c) : c.cls ≠ 2 := by
  unfold cbFault at h
  split_ifs at h <;> cases h <;> decide

theorem cbsFault_cls_ne {c : Cause} (h : cbsFault bs = some c) : c.cls ≠ 2 := by
  unfold cbsFault at h
  split at h
  · obtain ⟨b, -, hb⟩ := List.exists_of_findSome?_eq_some h
    exact cbFault_cls_ne hb
  · cases h
    decide

end

theorem orFault_some {o : Option Cause} {c : Cause} (h : o = some c) (s : State) (k : State → Plan) : orFault o s k = .fault s c := by
  rw [h]
  rfl

theorem orFault_none {o : Option Cause} (h : o = none) (s : State) (k : State → Plan) : orFault o s k = k s := by
  rw [h]
  rfl

section
variable {s : State} {c i : Nat} (r : List (Nat × Nat × Bool)) (k : State → Plan)

theorem State.whenReady_nil (s : State) (k : State → Plan) : s.whenReady [] k = k s := rfl

theorem State.whenReady_read (h : 1 ≤ ((s.core c).cbOf i).occ) : s.whenReady ((c, i, false) :: r) k = s.whenReady r k := if_pos (decide_eq_true h)

theorem State.whenReady_write (h : 1 ≤ ((s.core c).cbOf i).room s.now) : s.whenReady ((c, i, true) :: r) k = s.whenReady r k := if_pos (decide_eq_true h)

end

theorem State.readEntries_sound {s : State} (k : State → Plan) : ∀ {bs : List Cb}, (∀ b ∈ bs, s.entryRead b = (s, none)) → s.readEntries bs k = k s
  | [], _ => rfl
  | b :: r, h => by
    rw [State.readEntries, h b List.mem_cons_self]
    exact State.readEntries_sound k fun x hx => h x (List.mem_cons_of_mem _ hx)

/-- Into a buffer that is raw, or of the format of the data. -/
theorem intoCb_single (d : Cb) (a : BitVec 5) : intoCb d [a] = true ↔ attrRaw d.attr = true ∨ d.attr = a := by
  unfold intoCb
  cases h : attrRaw d.attr <;> simp [eq_comm]

theorem intoCb_single_not (d : Cb) (a : BitVec 5) : (!intoCb d [a]) = true ↔ attrRaw d.attr = false ∧ d.attr ≠ a := by
  rw [Bool.not_eq_true', ← Bool.not_eq_true, intoCb_single, not_or, Bool.not_eq_true]

theorem idxAttr_iff (a : BitVec 5) : idxAttr a = true ↔ a = 9 ∨ a = 10 := decide_eq_true_iff

/-- What is staged finds no room in the egress stage (R147). -/
theorem stageFull_iff {α : Type} (st : List α) (room n : Nat) : (!st.isEmpty && decide (room < n)) = true ↔ st ≠ [] ∧ room < n := by simp

theorem ite_eq_nil {α β : Type} (l : List α) [Decidable (l = [])] (a b : β) : (if l = [] then a else b) = if l.isEmpty then a else b := by
  cases l <;> simp

/-! ### Granted accesses -/

theorem State.accessMany_rim : ∀ {ps : List (Nat × Nat × Use)} {s : State} {g : Granted}, s.accessMany ps = .ok g → g.s.rim = s.rim
  | [], s, g, h => by
    cases h
    rfl
  | (va, n, u) :: r, s, g, h => by
    unfold State.accessMany at h
    split at h
    · next x hx =>
      split at h
      · next y hy =>
        cases h
        exact (State.accessMany_rim hy).trans (State.access_rim hx)
      · next hy => exact absurd h (hy g)
    · next hx => exact absurd h (hx g)

section
variable {s : State} {spans : List (Nat × Nat × Use)} {pair : List (List Run × List (BitVec 16)) → Bool} {g : Granted} (h : s.GrantsAll spans pair g)
include h

theorem State.GrantsAll.keeps : s.Keeps Engine.walk g.s := State.keeps_of_rim (State.accessMany_rim h.2.2)

theorem State.accessPaired_granted (k : Granted → Plan) : s.accessPaired spans pair k = k g := by
  obtain ⟨hpeek, hpair, hmany⟩ := h
  have hnone : (spans.find? fun p => (s.peek p.1 p.2.1 p.2.2).isNone) = none := List.find?_eq_none.2 fun p hp => by
    obtain ⟨x, hx⟩ := hpeek p hp
    simp [hx]
  simp only [State.accessPaired, hnone, hpair, hmany, Bool.not_true, Bool.false_eq_true, if_false, Got.plan]

end

/-! ### What an instruction that issues leaves of the engines -/

section
variable {s x : State} (h : s.Keeps Engine.walk x)
include h

theorem State.Keeps.rim {y : State} (hy : y.rim = x.rim) : s.Keeps Engine.walk y := h.trans (State.keeps_of_rim hy)

theorem State.Keeps.modHere {f : Core → Core} (hf : ∀ (k : Core) u, ((f k).engine u).walk = (k.engine u).walk) : s.Keeps Engine.walk (x.modHere f) :=
  h.trans (State.keeps_modHere (hf _))

theorem State.Keeps.takeTag (tag : Option Nat) : s.Keeps Engine.walk (x.takeTag tag) := by
  cases tag with
  | none => exact h
  | some t => exact h.modHere fun _ _ => rfl

theorem State.Keeps.modCb (c i : Nat) (f : Cb → Cb) : s.Keeps Engine.walk (x.modCore c fun k => k.modCb i f) := by
  refine h.trans ⟨rfl, fun u => ?_⟩
  by_cases hc : x.cur.core = c
  · subst hc
    rw [State.here, State.modCore_cur, State.core_modCore]
    rfl
  · rw [State.here, State.modCore_cur, State.core_modCore_other _ _ hc]
    rfl

theorem State.Keeps.reserve (c i id : Nat) (adv : Bool) (attr : BitVec 5) : s.Keeps Engine.walk (x.reserve c i id adv attr) := h.modCb ..

theorem State.Keeps.advanceAt (C i : Nat) (f : Fin) : s.Keeps Engine.walk (x.advanceAt C i f) := (h.rim (State.launch_rim ..)).modHere fun _ _ => rfl

theorem State.Keeps.ite {y : State} {c : Prop} [Decidable c] (hy : s.Keeps Engine.walk y) : s.Keeps Engine.walk (if c then x else y) := by
  split
  · exact h
  · exact hy

end

/-- A transfer that starts is its own operation, one of the beats that leave, and at fixed times one of those that arrive. -/
theorem Move.start_keeps {s : State} {m : Move} (h : s.Keeps Engine.walk m.s) : s.Keeps Engine.walk m.start.s := by
  unfold Move.start
  extract_lets n f last due g r out fins b s1 s2
  have hb : s.Keeps Engine.walk b.1 := (h.rim (Granted.launch_rim g ..)).rim (State.launch_rim ..)
  have hs1 : s.Keeps Engine.walk s1 := by
    simp only [s1]
    split
    · exact hb.rim (State.launch_rim ..)
    · exact hb
  simp only [s2]
  split
  · exact hs1.modHere fun _ _ => rfl
  · exact hs1

/-! ### Entries in progress (R42, R255) -/

@[simp] theorem Core.holdLatch_busy (k : Core) (t : Nat) (b : Bool) (x : Src) (v w : Nat) : (k.holdLatch t b x v w).busy = k.busy := by
  unfold Core.holdLatch
  split
  · rfl
  · split <;> rfl

theorem Core.holdCtl_walk (k : Core) (t : Nat) (b : Bool) (x : Src) (u : Nat) : ((k.holdCtl t b x).engine u).walk = (k.engine u).walk := Core.holdLatch_walk ..

theorem Core.holdInt_walk (k : Core) (t : Nat) (b : Bool) (x : Src) (u : Nat) : ((k.holdInt t b x).engine u).walk = (k.engine u).walk := Core.holdLatch_walk ..

/-- The latches of two operands that are no addresses. -/
theorem Core.holdCtl2_walk (k : Core) (t : Nat) (a b : Src) (u : Nat) : ((((k.holdCtl t false a).holdCtl t true b)).engine u).walk = (k.engine u).walk :=
  (Core.holdCtl_walk ..).trans (Core.holdCtl_walk ..)

/-- The latches of an address and an operand. -/
theorem Core.holdSrcCtl_walk (k : Core) (t : Nat) (a b : Src) (u : Nat) :
    ((((k.holdSrc t false false 0 a).holdCtl t true b)).engine u).walk = (k.engine u).walk :=
  (Core.holdCtl_walk ..).trans (Core.holdSrc_walk ..)

section
variable (s : State) (C i : Nat) (adv : Bool) (attr : BitVec 5) (img : List Byte) (cons : List Nat) (fl : Flags) {hold : Core → Core}

theorem State.keeps_producing (hwalk : ∀ (k : Core) u, ((hold k).engine u).walk = (k.engine u).walk) :
    s.Keeps Engine.walk (s.producing C i adv attr img cons fl hold) := by
  refine State.Keeps.modHere (((State.Keeps.refl s).rim (State.launch_rim ..)).reserve ..) fun k u => ?_
  exact (congrArg Engine.walk (Core.raise_engine (hold k) u C fl)).trans (hwalk k u)

/-- The buffers whose CONS advances with an entry of indices. -/
def consOf : Option (Nat × Bool) → List Nat
  | some (i, true) => [i]
  | _ => []

end

end Sys2Proof.Machine
end

section
/-! The index engine: IGEN, IMAP and ICMP (O45). -/

namespace Sys2Proof.Machine

open Sys2Proof

/-! ### An entry of indices -/

/-- A core that withholds the buffers `cons` until an entry that commits at tick `C` is there. -/
def Core.consBusy (k : Core) (C : Nat) (cons : List Nat) : Core :=
  { k with busy := k.busy ++ cons.map fun j => { res := .cb j, tick := C + 1, op := none, hold := none, old := [], mask := [] } }

theorem Core.consBusy_nil (k : Core) (C : Nat) : k.consBusy C [] = k := by
  rw [Core.consBusy, List.map_nil, List.append_nil]

section
variable (s : State) (C i : Nat) (adv : Bool) (attr : BitVec 5) (img : List Byte) (cons : List Nat)

/-- The entry in progress, without what becomes of the core's latches and interlocks. -/
def State.entryFlying : State :=
  let d := s.here.cbOf i
  (s.launch (some C) false [] (.write (cellsAt (s.bufPa s.cur.core d.space (d.entry d.slot)) (padTo d.size img))
    (.resv s.cur.core i s.nextId :: cons.map fun j => .cons s.cur.core j 1))).1.reserve s.cur.core i s.nextId adv attr

theorem State.producing_eq {hold : Core → Core} (hbusy : ∀ k, (hold k).busy = k.busy) :
    s.producing C i adv attr img cons 0 hold = (s.entryFlying C i adv attr img cons).modHere fun k => (hold k).consBusy C cons := by
  refine congrArg (State.modHere _) (funext fun k => ?_)
  rw [Core.consBusy, hbusy]
  rfl

end

/-- IGEN, IMAP and ICMP write their entry 2 + ⌈SIZE/64⌉ cycles after issue. -/
theorem indexGo_eq {s : State} {i : Nat} (hspace : (s.here.cbOf i).space = 5) (adv : Bool) (attr : BitVec 5) (ys : List Nat) (scb : Option (Nat × Bool))
    {hold : Core → Core} (hbusy : ∀ k, (hold k).busy = k.busy) :
    indexGo s i adv attr ys scb hold = .go {
      s := s.producing (s.now + (2 + ceilDiv (s.here.cbOf i).size 64) * s.d) i adv attr (packElems (idxBits attr) ys) (consOf scb) 0 hold,
      lat := 2 + ceilDiv (s.here.cbOf i).size 64 } := by
  rw [State.producing_eq _ _ _ _ _ _ _ hbusy, State.entryFlying, hspace]
  match scb with
  | none | some (_, false) =>
    simp only [consOf, Core.consBusy_nil]
    rfl
  | some (j, true) =>
    exact congrArg (fun x => Plan.go { s := x, lat := 2 + ceilDiv (s.here.cbOf i).size 64 }) (State.modHere_modHere ..)

section
variable {i : Instr} {plan : State → Plan} {s : State} (hexec : exec i s = issue s i plan) (hready : Ready s i)
include hexec hready

/-- An instruction whose plan is an entry in progress issues with it. -/
theorem issues_producing {C j lat : Nat} {adv : Bool} {attr : BitVec 5} {img : List Byte} {cons : List Nat} {fl : Flags} {hold : Core → Core}
    (hplan : plan s = .go { s := s.producing C j adv attr img cons fl hold, lat := lat })
    (hwalk : ∀ (k : Core) u, ((hold k).engine u).walk = (k.engine u).walk) : Issues i s (s.producing C j adv attr img cons fl hold) :=
  issues_of_keeps hexec hready hplan rfl (State.keeps_producing _ _ _ _ _ _ _ _ hwalk) rfl

end

/-! ### IGEN (R250) -/

section
variable {f : IgenF} {s : State} (ha : s.here.srcOk s.cur.tag false f.a = true) (hb : s.here.srcOk s.cur.tag true f.b = true)
include ha hb

theorem planIgen_fault {c : Cause} (h : cbFault (s.here.cbOf f.dcb.toNat) 5 = some c) : planIgen f s = .fault s c := by
  rw [planIgen, if_neg (by simp [ha, hb])]
  exact orFault_some h ..

theorem planIgen_eq (h : cbFault (s.here.cbOf f.dcb.toNat) 5 = none) (hroom : 1 ≤ (s.here.cbOf f.dcb.toNat).room s.now) :
    let d := s.here.cbOf f.dcb.toNat
    planIgen f s =
      if idxAttr d.attr = false then .fault s .format
      else if s.protAt s.cur.core 5 (d.entry d.slot) d.size then .fault s .segmentLegality
      else indexGo s f.dcb.toNat f.adv d.attr ((List.range (idxCount d)).map fun (j : Nat) =>
        wrapI (s.here.offVal s.cur.tag false f.a + (j : Int) * s.here.offVal s.cur.tag true f.b) (idxBits d.attr)) none
        fun k => (k.holdInt s.cur.tag false f.a).holdInt s.cur.tag true f.b := by
  rw [planIgen, if_neg (by simp [ha, hb]), orFault_none h, State.whenReady_write _ _ hroom]
  simp only [Bool.not_eq_true']
  rfl

end

/-! ### IMAP and ICMP (R250) -/

section
variable {dcb scb : BitVec 4} {advs advd : Bool} {a b : Src} {op : Nat → Nat → Nat → List Nat → List Nat} {s : State}
  (ha : s.here.srcOk s.cur.tag false a = true) (hb : s.here.srcOk s.cur.tag true b = true)
include ha hb

theorem planIdx_fault {c : Cause} (h : cbsFault [(s.here.cbOf dcb.toNat, 5), (s.here.cbOf scb.toNat, 5)] = some c) :
    planIdx dcb scb advs advd a b op s = .fault s c := by
  rw [planIdx, if_neg (by simp [ha, hb])]
  exact orFault_some h ..

theorem planIdx_eq (h : cbsFault [(s.here.cbOf dcb.toNat, 5), (s.here.cbOf scb.toNat, 5)] = none) (hocc : 1 ≤ (s.here.cbOf scb.toNat).occ)
    (hroom : 1 ≤ (s.here.cbOf dcb.toNat).room s.now) :
    let d := s.here.cbOf dcb.toNat
    let x := s.here.cbOf scb.toNat
    planIdx dcb scb advs advd a b op s =
      if d.size ≠ x.size then .fault s .illegalOperand
      else if (idxAttr x.attr && (attrRaw d.attr || decide (d.attr = x.attr))) = false then .fault s .format
      else if s.protAt s.cur.core 5 (d.entry d.slot) d.size then .fault s .segmentLegality
      else s.readEntries [x] fun s' => indexGo s' dcb.toNat advd x.attr
        (op (idxBits x.attr) (s.here.ctlVal s.cur.tag false a) (s.here.ctlVal s.cur.tag true b) (s'.indices x)) (some (scb.toNat, advs))
        fun k => (k.holdCtl s.cur.tag false a).holdCtl s.cur.tag true b := by
  rw [planIdx, if_neg (by simp [ha, hb]), orFault_none h, State.whenReady_read _ _ hocc, State.whenReady_write _ _ hroom]
  simp only [Bool.not_eq_true']
  rfl

end

theorem consOf_adv (i : Nat) (adv : Bool) : consOf (some (i, adv)) = if adv then [i] else [] := by cases adv <;> rfl

/-! ### The statement -/

/-- Settles O45: each instruction is its checks in order (`planIgen_eq`, `planIdx_eq`) and then an entry of indices in progress (`indexGo_eq`). That a buffer that
is not configured is an illegal operand before its space is checked, that an advance holds the later word back, that the destination takes its format at issue
and that the number of a reservation is taken at issue are the model's readings (log 47, 25, 26, 48). -/
theorem indexEngine : Obligations.IndexEngine := by
  refine ⟨fun f s hready ha hb => ?_, fun i dcb scb advs advd a b op s hi hready ha hb => ?_⟩
  · intro j d w v0 v1
    refine ⟨fun hents => faults_of_plan rfl hready rfl (by decide) (planIgen_fault ha hb (cbFault_unconfigured 5 hents)),
      fun hents hspace => faults_of_plan rfl hready rfl (by decide) (planIgen_fault ha hb (cbFault_space hents hspace)),
      fun hents hspace hroom h9 h10 => ?_, fun hents hspace hroom hattr => ?_⟩
    · refine faults_of_plan rfl hready rfl (by decide) ((planIgen_eq ha hb (cbFault_none hents hspace) hroom).trans (if_pos ?_))
      exact Bool.eq_false_iff.2 fun h => ((idxAttr_iff _).1 h).elim h9 h10
    · have hplan := (planIgen_eq ha hb (cbFault_none hents hspace) hroom).trans (if_neg (ne_false_of_eq_true ((idxAttr_iff _).2 hattr)))
      refine ⟨fun hprot => faults_of_plan rfl hready rfl (by decide) (hplan.trans (if_pos hprot)), fun hprot => ?_⟩
      refine issues_producing rfl hready ((hplan.trans (if_neg (ne_true_of_eq_false hprot))).trans (indexGo_eq hspace _ _ _ none fun k => ?_)) fun k u => ?_
      · exact (Core.holdLatch_busy ..).trans (Core.holdLatch_busy ..)
      · exact (Core.holdInt_walk ..).trans (Core.holdInt_walk ..)
  · have hi' : isAll i = false ∧ exec i s = issue s i (planIdx dcb scb advs advd a b op) := by
      obtain ⟨_, _, rfl, rfl⟩ | ⟨_, _, _, rfl, rfl⟩ := hi
      · exact ⟨rfl, rfl⟩
      · exact ⟨rfl, rfl⟩
    obtain ⟨hown, hexec⟩ := hi'
    intro d x w
    refine ⟨fun hents => faults_of_plan hexec hready hown (by decide) (planIdx_fault ha hb (cbsFault_unconfigured (by simpa using hents))),
      fun hd hx hspace => faults_of_plan hexec hready hown (by decide) (planIdx_fault ha hb (cbsFault_space (by simpa using ⟨hd, hx⟩) (by simpa using hspace))),
      fun hd hx hdspace hxspace hocc hroom hsize => ?_, fun hd hx hdspace hxspace hocc hroom hsize hidx hattr hprot hread => ?_⟩
    all_goals have hcb : cbsFault [(d, 5), (x, 5)] = none := cbsFault_none (by simp [hd, hx, hdspace, hxspace])
    · exact faults_of_plan hexec hready hown (by decide) ((planIdx_eq ha hb hcb hocc hroom).trans (if_pos hsize))
    · have hformat : ¬(idxAttr x.attr && (attrRaw d.attr || decide (d.attr = x.attr))) = false := by
        simpa [(idxAttr_iff _).2 hidx, or_iff_not_imp_left] using hattr
      have hplan := (planIdx_eq (op := op) (advs := advs) (advd := advd) ha hb hcb hocc hroom).trans ((if_neg (not_not.2 hsize)).trans
        ((if_neg hformat).trans ((if_neg (ne_true_of_eq_false hprot)).trans ((State.readEntries_sound _ (by simpa using hread)).trans
          (indexGo_eq hdspace _ _ _ _ fun k => (Core.holdLatch_busy ..).trans (Core.holdLatch_busy ..))))))
      rw [consOf_adv] at hplan
      exact issues_producing hexec hready hplan (Core.holdCtl2_walk · _ _ _)

end Sys2Proof.Machine
end

section
/-! The gather engine: GATH, SCAT, WIN and GSEG (O46). -/

namespace Sys2Proof.Machine

open Sys2Proof

/-! ### GATH and SCAT: their checks (R251) -/

theorem rowFault_cls_ne {d x : Cb} {rb : Nat} {c : Cause} (h : rowFault d x rb = some c) : c.cls ≠ 2 := by
  unfold rowFault firstFault needs at h
  obtain ⟨o, ho, hc⟩ := List.exists_of_findSome?_eq_some h
  simp only [List.mem_cons, List.not_mem_nil, or_false] at ho
  obtain rfl | rfl | rfl := ho
  all_goals
    simp only [id_eq] at hc
    split at hc <;> cases hc
    decide

section
variable {f : GathF} {s : State} (ha : s.here.srcOk s.cur.tag false f.a = true) (hrb : s.here.srcOk s.cur.tag true f.rb = true)
include ha hrb

theorem gath_operands : ¬(!(s.here.srcOk s.cur.tag false f.a && s.here.srcOk s.cur.tag true f.rb)) = true := by simp [ha, hrb]

section
variable {c : Cause} (h : cbsFault [(s.here.cbOf f.cb.toNat, 4), (s.here.cbOf f.icb.toNat, 5)] = some c)
include h

theorem planGath_fault : planGath f s = .fault s c := (if_neg (gath_operands ha hrb)).trans (orFault_some h ..)

theorem planScat_fault : planScat f s = .fault s c := (if_neg (gath_operands ha hrb)).trans (orFault_some h ..)

end

section
variable (h : cbsFault [(s.here.cbOf f.cb.toNat, 4), (s.here.cbOf f.icb.toNat, 5)] = none) (hx : 1 ≤ (s.here.cbOf f.icb.toNat).occ)
include h hx

section
variable {c : Cause} (hrow : rowFault (s.here.cbOf f.cb.toNat) (s.here.cbOf f.icb.toNat) (s.here.ctlVal s.cur.tag true f.rb) = some c)
include hrow

theorem planGath_rowFault (hd : 1 ≤ (s.here.cbOf f.cb.toNat).room s.now) : planGath f s = .fault s c :=
  (if_neg (gath_operands ha hrb)).trans ((orFault_none h ..).trans ((State.whenReady_read _ _ hx).trans ((State.whenReady_write _ _ hd).trans ((State.whenReady_nil ..).trans
    (orFault_some hrow ..)))))

theorem planScat_rowFault (hd : 1 ≤ (s.here.cbOf f.cb.toNat).occ) : planScat f s = .fault s c :=
  (if_neg (gath_operands ha hrb)).trans ((orFault_none h ..).trans ((State.whenReady_read _ _ hx).trans ((State.whenReady_read _ _ hd).trans ((State.whenReady_nil ..).trans
    (orFault_some hrow ..)))))

end
end
end

/-! ### GATH: its rows in progress (R251, R268) -/

/-- Number and address of each row of a GATH or SCAT. -/
def State.gathRows (s : State) (f : GathF) : List (Nat × Nat) :=
  rowAddrs (idxBits (s.here.cbOf f.icb.toNat).attr) (s.here.addr s.cur.tag false f.a) (s.here.ctlVal s.cur.tag true f.rb)
    (s.indices (s.here.cbOf f.icb.toNat))

/-- The state in which a GATH has put its granted rows into progress. -/
def State.gathered (s : State) (f : GathF) (g : Granted) : State :=
  let t := s.cur.tag
  let c := s.cur.core
  let i := f.cb.toNat
  let d := s.here.cbOf i
  let x := s.here.cbOf f.icb.toNat
  let rb := s.here.ctlVal t true f.rb
  let tag := tagOf f.ten f.tag
  let w := idxBits x.attr
  let xs := s.indices x
  let rows := s.gathRows f
  let ent := d.entry d.slot
  let links := linksOf c g.runs false
  let f0 := if g.lat.isSome then s.firstBeat links else s.now
  let due := f0 + g.lat.getD 0 + rowTicks w rb xs
  let dst := (rows.map fun p => s.bufRun c 4 (ent + p.1 * rb) rb) ++
    ((xs.zipIdx.filter fun p => decide (p.1 = idxNull w)).map fun p => s.bufRun c 4 (ent + p.2 * rb) rb) ++
    [s.bufRun c 4 (ent + xs.length * rb) (d.size - xs.length * rb)]
  let s1 := g.s.takeTag tag
  let r := ({ g with s := s1 } : Granted).launch due due true
    (.copy g.runs (List.replicate (d.size - rows.length * rb) 0) dst links (f0 + rowTicks w rb xs - 1) [] (.resv c i s1.nextId :: s1.tagFins tag))
  let s2 := (r.1.reserve c i r.2 f.advx (g.attrs.head?.elim d.attr awFmt)).modHere fun k => (k.holdSrc t false false 0 f.a).holdCtl t true f.rb
  if f.advi then s2.advanceAt (f0 + xs.length - 1) f.icb.toNat (.cons c f.icb.toNat 1) else s2

theorem State.keeps_gathered {s : State} {g : Granted} (h : s.Keeps Engine.walk g.s) (f : GathF) : s.Keeps Engine.walk (s.gathered f g) := by
  unfold State.gathered
  extract_lets t c i d x rb tag w xs rows ent links f0 due dst s1 r s2
  have hs2 : s.Keeps Engine.walk s2 := (((h.takeTag tag).rim (Granted.launch_rim ..)).reserve ..).modHere fun k u => Core.holdSrcCtl_walk ..
  exact (hs2.advanceAt ..).ite hs2

section
variable {f : GathF} {s : State} {g : Granted} (ha : s.here.srcOk s.cur.tag false f.a = true) (hrb : s.here.srcOk s.cur.tag true f.rb = true)
  (h : cbsFault [(s.here.cbOf f.cb.toNat, 4), (s.here.cbOf f.icb.toNat, 5)] = none)
  (hrow : rowFault (s.here.cbOf f.cb.toNat) (s.here.cbOf f.icb.toNat) (s.here.ctlVal s.cur.tag true f.rb) = none)
  (hx : 1 ≤ (s.here.cbOf f.icb.toNat).occ) (hxread : s.entryRead (s.here.cbOf f.icb.toNat) = (s, none))
include ha hrb h hrow hx hxread

theorem planGath_go (hd : 1 ≤ (s.here.cbOf f.cb.toNat).room s.now)
    (hg : s.GrantsAll ((s.gathRows f).map fun p => (p.2, s.here.ctlVal s.cur.tag true f.rb, useRead))
      (fun as => (fmtsOf as).all (fun a => !attrBlock a) && intoCb (s.here.cbOf f.cb.toNat) (fmtsOf as)) g)
    (hopen : s.openFault g.lat = false)
    (hprot : s.protAt s.cur.core 4 ((s.here.cbOf f.cb.toNat).entry (s.here.cbOf f.cb.toNat).slot) (s.here.cbOf f.cb.toNat).size = false)
    (htag : s.tagBusy (tagOf f.ten f.tag) = false) : ∃ last, planGath f s = .placed (s.gathered f g) last := by
  refine ⟨_, (if_neg (gath_operands ha hrb)).trans ((orFault_none h ..).trans ((State.whenReady_read _ _ hx).trans ((State.whenReady_write _ _ hd).trans ((State.whenReady_nil ..).trans
    ((orFault_none hrow ..).trans ((State.readEntries_sound _ (by simpa using hxread)).trans ((State.accessPaired_granted hg _).trans ((if_neg ?_).trans
      (if_neg (ne_true_of_eq_false htag))))))))))⟩
  exact ne_true_of_eq_false (Bool.or_eq_false_iff.2 ⟨hopen, hprot⟩)

end

/-! ### SCAT: its rows in progress (R147, R251, R268) -/

/-- The bytes of the rows of a SCAT, each with its VA and PA. -/
def State.scatBytes (s : State) (f : GathF) (g : Granted) : List (Nat × Nat × Byte) :=
  let rb := s.here.ctlVal s.cur.tag true f.rb
  let src := s.entryBytes (s.here.cbOf f.cb.toNat)
  spreadBytes g.runs ((s.gathRows f).flatMap fun p => (src.drop (p.1 * rb)).take rb)

/-- Those of them that the egress stage takes, and the stage once it holds them. -/
def State.scatStaged (s : State) (f : GathF) (g : Granted) : List (Nat × Nat × Byte) :=
  (s.scatBytes f g).filter fun p => s.byteStaged (g.runs.zip g.attrs) p.1 p.2.1

def State.scatStage (s : State) (f : GathF) (g : Granted) : List StageEnt :=
  stageAll s.here.egress ((s.scatStaged f g).flatMap fun p => [(2 * p.2.1, p.2.2.extractLsb' 0 4), (2 * p.2.1 + 1, p.2.2.extractLsb' 4 4)])

/-- The state in which a SCAT has put its granted rows into progress, and into the egress stage what is staged. -/
def State.scattered (s : State) (f : GathF) (g : Granted) : State :=
  let t := s.cur.tag
  let c := s.cur.core
  let i := f.cb.toNat
  let x := s.here.cbOf f.icb.toNat
  let rb := s.here.ctlVal t true f.rb
  let tag := tagOf f.ten f.tag
  let w := idxBits x.attr
  let xs := s.indices x
  let links := linksOf c g.runs true
  let f0 := if g.lat.isSome then s.firstBeat links else s.now
  let last := f0 + xs.length - 1
  let due := f0 + g.lat.getD 0 + rowTicks w rb xs
  let out := (s.scatBytes f g).filter fun p => !s.byteStaged (g.runs.zip g.attrs) p.1 p.2.1
  let s1 := (g.s.takeTag tag).modHere fun k =>
    { ((k.holdSrc t false false 0 f.a).holdCtl t true f.rb) with egress := if (s.scatStaged f g).isEmpty then k.egress else s.scatStage f g }
  let r := ({ g with s := s1 } : Granted).launch due due true
    (.copy [] (out.map fun p => p.2.2) (out.map fun p => { va := p.1, pa := p.2.1, len := 1 }) links (f0 + rowTicks w rb xs - 1) [] (s1.tagFins tag))
  let s2 := if f.advi then r.1.advanceAt last f.icb.toNat (.cons c f.icb.toNat 1) else r.1
  if f.advx then s2.advanceAt last i (.cons c i 1) else s2

/-- The tick at which a SCAT sends its last row. -/
def State.scatLast (s : State) (f : GathF) (g : Granted) : Nat :=
  (if g.lat.isSome then s.firstBeat (linksOf s.cur.core g.runs true) else s.now) + (s.indices (s.here.cbOf f.icb.toNat)).length - 1

theorem State.keeps_scattered {s : State} {g : Granted} (h : s.Keeps Engine.walk g.s) (f : GathF) : s.Keeps Engine.walk (s.scattered f g) := by
  unfold State.scattered
  extract_lets t c i x rb tag w xs links f0 last due out s1 r s2
  have hs1 : s.Keeps Engine.walk s1 := (h.takeTag tag).modHere fun k u => Core.holdSrcCtl_walk k t f.a f.rb u
  have hr : s.Keeps Engine.walk r.1 := hs1.rim (Granted.launch_rim ..)
  have hs2 : s.Keeps Engine.walk s2 := (hr.advanceAt ..).ite hr
  exact (hs2.advanceAt ..).ite hs2

section
variable {f : GathF} {s : State} {g : Granted} (ha : s.here.srcOk s.cur.tag false f.a = true) (hrb : s.here.srcOk s.cur.tag true f.rb = true)
  (h : cbsFault [(s.here.cbOf f.cb.toNat, 4), (s.here.cbOf f.icb.toNat, 5)] = none)
  (hrow : rowFault (s.here.cbOf f.cb.toNat) (s.here.cbOf f.icb.toNat) (s.here.ctlVal s.cur.tag true f.rb) = none)
  (hx : 1 ≤ (s.here.cbOf f.icb.toNat).occ) (hd : 1 ≤ (s.here.cbOf f.cb.toNat).occ)
  (hxread : s.entryRead (s.here.cbOf f.icb.toNat) = (s, none)) (hdread : s.entryRead (s.here.cbOf f.cb.toNat) = (s, none))
  (hg : s.GrantsAll ((s.gathRows f).map fun p => (p.2, s.here.ctlVal s.cur.tag true f.rb, { useWrite with stg := some false }))
    (fun as => (fmtsOf as).all fun a => attrRaw a || (!attrBlock a && decide (a = (s.here.cbOf f.cb.toNat).attr))) g)
include ha hrb h hrow hx hd hxread hdread hg

/-- Past the checks of its buffers and of its accesses: the room of the egress stage, the tag, the rows. -/
theorem planScat_granted (hopen : s.openFault g.lat = false) : planScat f s =
    if !(s.scatStaged f g).isEmpty && decide (s.here.stageRoom < (s.scatStage f g).length) then .fault s .segmentLegality
    else if s.tagBusy (tagOf f.ten f.tag) then .fault s .tagBusy
    else .placed (s.scattered f g) (s.scatLast f g) := by
  rw [← Bool.false_or (!(s.scatStaged f g).isEmpty && _), ← hopen]
  exact (if_neg (gath_operands ha hrb)).trans ((orFault_none h ..).trans ((State.whenReady_read _ _ hx).trans ((State.whenReady_read _ _ hd).trans
    ((State.whenReady_nil ..).trans ((orFault_none hrow ..).trans ((State.readEntries_sound _ (by simpa using ⟨hxread, hdread⟩)).trans
      (State.accessPaired_granted hg _)))))))

end

/-! ### WIN and GSEG (R252, R253) -/

/-- The rows of a window have no bytes, or the window has more bytes than an entry. -/
theorem winRows_iff (rb n size : Nat) : (!(decide (rb ≠ 0) && decide (n ≤ size))) = true ↔ rb = 0 ∨ size < n := by
  simp [or_iff_not_imp_left]

theorem planWin_fault {f : WinF} {s : State} (ha : s.here.srcOk s.cur.tag false f.a = true) {c : Cause}
    (h : cbsFault [(s.here.cbOf f.dcb.toNat, 4), (s.here.cbOf f.scb.toNat, 4)] = some c) : planWin f s = .fault s c :=
  (if_neg (by simp [ha])).trans (orFault_some h ..)

/-- Past the checks of its buffers and with its entries there: the bytes of its rows, the formats, a protected range, the windows. -/
theorem planWin_eq {f : WinF} {s : State} (ha : s.here.srcOk s.cur.tag false f.a = true)
    (h : cbsFault [(s.here.cbOf f.dcb.toNat, 4), (s.here.cbOf f.scb.toNat, 4)] = none) (hocc : 1 ≤ (s.here.cbOf f.scb.toNat).occ)
    (hroom : 1 ≤ (s.here.cbOf f.dcb.toNat).room s.now) :
    let d := s.here.cbOf f.dcb.toNat
    let x := s.here.cbOf f.scb.toNat
    let a := s.here.ctlVal s.cur.tag false f.a
    let rb := bitsN a 0 16
    let wl := bitsN a 16 8 + 1
    planWin f s =
      if !(decide (rb ≠ 0) && decide (wl * rb ≤ d.size)) then .fault s .illegalOperand
      else if !intoCb d [x.attr] then .fault s .format
      else if s.protAt s.cur.core 4 (d.entry d.slot) d.size then .fault s .segmentLegality
      else s.readEntries [x] fun s' => .go {
        s := s'.producing (s'.now + (4 + ceilDiv d.size 256) * s'.d) f.dcb.toNat f.advd x.attr
          (winImage (s'.entryBytes x) rb wl (bitsN a 24 8 + 1) (x.size / rb) (d.size / (wl * rb))) (if f.advs then [f.scb.toNat] else []) 0
          fun k => k.holdCtl s.cur.tag false f.a, lat := 4 + ceilDiv d.size 256 } :=
  (if_neg (by simp [ha])).trans ((orFault_none h ..).trans ((State.whenReady_read _ _ hocc).trans (State.whenReady_write _ _ hroom)))

section
variable {f : GsegF} {s : State} (ha : s.here.srcOk s.cur.tag false f.a = true) (hrb : s.here.srcOk s.cur.tag true f.rb = true)
include ha hrb

theorem planGseg_fault {c : Cause}
    (h : cbsFault [(s.here.cbOf f.dcb.toNat, 4), (s.here.cbOf f.scb.toNat, 4), (s.here.cbOf f.icb.toNat, 5)] = some c) : planGseg f s = .fault s c :=
  (if_neg (by simp [ha, hrb])).trans (orFault_some h ..)

/-- The rows of the destination that a GSEG of indices `xs` reduces, with its flags. -/
def State.segRows (s : State) (f : GsegF) (xs : List Nat) : List Nat × Flags :=
  let d := s.here.cbOf f.dcb.toNat
  let isF := decide (d.attr = 6)
  let n := s.here.ctlVal s.cur.tag true f.rb / 4
  let D := d.size / s.here.ctlVal s.cur.tag true f.rb
  let op := f.op.toNat
  xs.zipIdx.foldl (gsegStep isF op (idxBits (s.here.cbOf f.icb.toNat).attr) (s.here.ctlVal s.cur.tag false f.a) n D
    fun j => getElem 32 (s.entryBytes (s.here.cbOf f.scb.toNat)) j)
    (List.replicate (D * n) (if isF then redFloatId .fp32 op else wrapI (redIntId op true 32) 32), 0)

variable (h : cbsFault [(s.here.cbOf f.dcb.toNat, 4), (s.here.cbOf f.scb.toNat, 4), (s.here.cbOf f.icb.toNat, 5)] = none)
  (hxocc : 1 ≤ (s.here.cbOf f.scb.toNat).occ) (hiocc : 1 ≤ (s.here.cbOf f.icb.toNat).occ) (hroom : 1 ≤ (s.here.cbOf f.dcb.toNat).room s.now)
include h hxocc hiocc hroom

theorem planGseg_rows (hbad : s.here.ctlVal s.cur.tag true f.rb = 0 ∨ s.here.ctlVal s.cur.tag true f.rb % 4 ≠ 0) :
    planGseg f s = .fault s .illegalOperand :=
  (if_neg (by simp [ha, hrb])).trans ((orFault_none h ..).trans ((State.whenReady_read _ _ hxocc).trans ((State.whenReady_read _ _ hiocc).trans
    ((State.whenReady_write _ _ hroom).trans (if_pos (by simp; omega))))))

theorem planGseg_go (hrows : s.here.ctlVal s.cur.tag true f.rb ≠ 0 ∧ s.here.ctlVal s.cur.tag true f.rb % 4 = 0)
    (hidx : idxAttr (s.here.cbOf f.icb.toNat).attr = true)
    (hfit : idxCount (s.here.cbOf f.icb.toNat) * s.here.ctlVal s.cur.tag true f.rb ≤ (s.here.cbOf f.scb.toNat).size)
    (hsame : (s.here.cbOf f.dcb.toNat).attr = (s.here.cbOf f.scb.toNat).attr)
    (hattr : (s.here.cbOf f.dcb.toNat).attr = 6 ∨ (s.here.cbOf f.dcb.toNat).attr = 10)
    (hprot : s.protAt s.cur.core 4 ((s.here.cbOf f.dcb.toNat).entry (s.here.cbOf f.dcb.toNat).slot) (s.here.cbOf f.dcb.toNat).size = false)
    (hxread : s.entryRead (s.here.cbOf f.scb.toNat) = (s, none)) (hiread : s.entryRead (s.here.cbOf f.icb.toNat) = (s, none)) :
    let d := s.here.cbOf f.dcb.toNat
    let xs := s.indices (s.here.cbOf f.icb.toNat)
    let lat := 4 + xs.length + ceilDiv d.size 256
    planGseg f s = .go {
      s := s.producing (s.now + lat * s.d) f.dcb.toNat f.advd d.attr (packElems 32 (s.segRows f xs).1)
        ((if f.advs then [f.scb.toNat] else []) ++ if f.advi then [f.icb.toNat] else []) (s.segRows f xs).2
        fun k => (k.holdCtl s.cur.tag false f.a).holdCtl s.cur.tag true f.rb, lat := lat } :=
  (if_neg (by simp [ha, hrb])).trans ((orFault_none h ..).trans ((State.whenReady_read _ _ hxocc).trans ((State.whenReady_read _ _ hiocc).trans
    ((State.whenReady_write _ _ hroom).trans ((if_neg (by simp [hrows, hfit])).trans ((if_neg (by simpa [hidx, ← hsame, or_iff_not_imp_left] using hattr)).trans
      ((if_neg (ne_true_of_eq_false hprot)).trans (State.readEntries_sound _ (by simpa using ⟨hxread, hiread⟩)))))))))

end

/-! ### The statement -/

/-- Settles O46: each instruction is its checks in order and then its rows or its entry in progress (`planGath_go`, `planScat_granted`, `planWin_eq`, `planGseg_go`).
That a buffer that is not configured is an illegal operand before its space is checked, that rows of 0 bytes are one for GSEG, that row addresses wrap
modulo 2^56 and that the path of the table is busy until the last row has been sent are the model's readings (log 47, 49, 58, 111). -/
theorem rowsAndWindows : Obligations.RowsAndWindows := by
  refine ⟨fun f s g ha hrb => ?_, fun f s hready ha => ?_, fun f s hready ha hrb => ?_⟩
  · intro k t c i d x rb tag w xs rows
    refine ⟨fun e he => ⟨fun hready => ?_, fun hready => ?_⟩, fun e hcb hx hrow => ⟨fun hready hd => ?_, fun hready hd => ?_⟩,
      fun hready hcb hrow hx hd hread hg hopen hprot htag => ?_, fun hready hcb hrow hx hd hxread hdread hg hopen htag => ?_⟩
    · exact faults_of_plan rfl hready rfl (cbsFault_cls_ne he) (planGath_fault ha hrb he)
    · exact faults_of_plan rfl hready rfl (cbsFault_cls_ne he) (planScat_fault ha hrb he)
    · exact faults_of_plan rfl hready rfl (rowFault_cls_ne hrow) (planGath_rowFault ha hrb hcb hx hrow hd)
    · exact faults_of_plan rfl hready rfl (rowFault_cls_ne hrow) (planScat_rowFault ha hrb hcb hx hrow hd)
    · obtain ⟨last, hplan⟩ := planGath_go ha hrb hcb hrow hx hread hd hg hopen hprot htag
      exact issues_of_placed rfl hready hplan (State.keeps_gathered hg.keeps f)
    · have hplan := planScat_granted ha hrb hcb hrow hx hd hxread hdread hg hopen
      intro src all staged st stage
      simp only [ite_eq_nil]
      refine ⟨fun hst hfull => faults_of_plan rfl hready rfl (by decide) (hplan.trans (if_pos ((stageFull_iff ..).2 ⟨hst, hfull⟩))), fun hroom => ?_⟩
      refine issues_of_placed rfl hready (hplan.trans ((if_neg fun hfull => ?_).trans (if_neg (ne_true_of_eq_false htag)))) (State.keeps_scattered hg.keeps f)
      obtain ⟨hst, hfull⟩ := (stageFull_iff ..).1 hfull
      exact hroom.elim hst (not_le.2 hfull)
  · intro d x a rb wl st
    refine ⟨fun hents => faults_of_plan rfl hready rfl (by decide) (planWin_fault ha (cbsFault_unconfigured (by simpa using hents))),
      fun hd hx hspace => faults_of_plan rfl hready rfl (by decide) (planWin_fault ha (cbsFault_space (by simpa using ⟨hd, hx⟩) (by simpa using hspace))),
      fun hd hx hdspace hxspace hocc hroom => ?_⟩
    have hplan := planWin_eq ha (cbsFault_none (by simpa using ⟨⟨hd, hdspace⟩, hx, hxspace⟩)) hocc hroom
    refine ⟨fun hbad => faults_of_plan rfl hready rfl (by decide) (hplan.trans (if_pos ?_)), fun hrb hfit hraw hne => ?_, fun hrb hfit hattr => ?_⟩
    · exact (winRows_iff ..).2 hbad
    · refine faults_of_plan rfl hready rfl (by decide) (hplan.trans ((if_neg fun hbad => ?_).trans (if_pos ((intoCb_single_not ..).2 ⟨hraw, hne⟩))))
      exact ((winRows_iff ..).1 hbad).elim hrb (not_lt.2 hfit)
    · replace hplan := (hplan.trans (if_neg fun hbad => ((winRows_iff ..).1 hbad).elim hrb (not_lt.2 hfit))).trans
        (if_neg fun hformat => hattr.elim (ne_true_of_eq_false ((intoCb_single_not ..).1 hformat).1) ((intoCb_single_not ..).1 hformat).2)
      refine ⟨fun hprot => faults_of_plan rfl hready rfl (by decide) (hplan.trans (if_pos hprot)), fun hprot hread => ?_⟩
      exact issues_producing rfl hready ((hplan.trans (if_neg (ne_true_of_eq_false hprot))).trans (State.readEntries_sound _ (by simpa using hread)))
        (Core.holdCtl_walk · _ _ _)
  · intro d x ix rb a
    refine ⟨fun hents => faults_of_plan rfl hready rfl (by decide) (planGseg_fault ha hrb (cbsFault_unconfigured (by simpa using hents))),
      fun hd hx hix hspace => faults_of_plan rfl hready rfl (by decide)
        (planGseg_fault ha hrb (cbsFault_space (by simpa using ⟨hd, hx, hix⟩) (by simpa using hspace))),
      fun hd hx hix hdspace hxspace hispace hxocc hiocc hroom => ?_⟩
    have hcb : cbsFault [(d, 4), (x, 4), (ix, 5)] = none := cbsFault_none (by simpa using ⟨⟨hd, hdspace⟩, ⟨hx, hxspace⟩, hix, hispace⟩)
    refine ⟨fun hbad => faults_of_plan rfl hready rfl (by decide) (planGseg_rows ha hrb hcb hxocc hiocc hroom hbad),
      fun hpos hfour hidx hfit hsame hattr hprot hxread hiread => ?_⟩
    exact issues_producing rfl hready (planGseg_go ha hrb hcb hxocc hiocc hroom ⟨hpos, hfour⟩ ((idxAttr_iff _).2 hidx) hfit hsame hattr hprot hxread hiread)
      (Core.holdCtl2_walk · _ _ _)

end Sys2Proof.Machine
end

section
/-! The atomic engine: AST and AWAIT (O47). -/

namespace Sys2Proof.Machine

open Sys2Proof

/-! ### AST (R254) -/

/-- Bytes of an element of an AST. -/
def astBytes (f : AstF) : Nat := if f.sz then 8 else 4

theorem szBits_div_astBytes (f : AstF) : szBits f.sz / 8 = astBytes f := szBits_div_eight f.sz

theorem szBits_astBytes (f : AstF) : szBits f.sz = 8 * astBytes f := szBits_eq f.sz

/-- Number and address of each element of an AST. -/
def State.astAddrs (s : State) (f : AstF) : List (Nat × Nat) :=
  rowAddrs (idxBits (s.here.cbOf f.icb.toNat).attr) (s.here.addr s.cur.tag false f.a) (astBytes f) (s.indices (s.here.cbOf f.icb.toNat))

/-- Element `i` of the values of an AST. -/
def State.astVal (s : State) (f : AstF) (i : Nat) : Nat := getElem (8 * astBytes f) (s.entryBytes (s.here.cbOf f.vcb.toNat)) i

/-- Whether an AST defers the operation at an address to the end of the segment. -/
def State.astDefers (s : State) (va : Nat) : Bool := s.here.inSeg && !s.here.inScratch va

/-- The entries that an AST puts into the egress stage. -/
def State.astStage (s : State) (f : AstF) (g : Granted) : List StageEnt :=
  (((s.astAddrs f).zip g.runs).filter fun p => s.astDefers p.1.2).map fun p => StageEnt.atomn p.2.pa f.aop.toNat f.sz (s.astVal f p.1.1)

/-- The elements that it performs at once. -/
def State.astNow (s : State) (f : AstF) (g : Granted) : List ((Nat × Nat) × Run) := ((s.astAddrs f).zip g.runs).filter fun p => !s.astDefers p.1.2

/-- Operations put into flight one after the other, each with the runs of its own. -/
theorem foldl_launch_each_rim {α : Type} (due : Option Nat) (runs : α → List Run) (w : α → Work) (ps : List α) (r : State × Nat) :
    (ps.foldl (fun (r : State × Nat) p => r.1.launch due true (runs p) (w p)) r).1.rim = r.1.rim := by
  induction ps generalizing r with
  | nil => rfl
  | cons p ps ih => exact (ih _).trans (State.launch_rim ..)

/-- The state in which an AST has put its granted atomics into progress or into the egress stage. -/
def State.streamed (s : State) (f : AstF) (g : Granted) : State :=
  let c := s.cur.core
  let xs := s.indices (s.here.cbOf f.icb.toNat)
  let last := s.now + xs.length - 1
  let due := s.now + g.lat.getD 0 + xs.length
  let s1 := g.s.modHere fun k => { (k.holdSrc s.cur.tag false false 0 f.a) with egress := k.egress ++ s.astStage f g }
  let r := (s.astNow f g).foldl (fun (r : State × Nat) p =>
    r.1.launch (if g.lat.isSome then some due else none) true [p.2] (.atomic p.2.pa f.aop.toNat f.sz (s.astVal f p.1.1) 0 0 0 false none)) (s1, 0)
  let s2 := if (s.astNow f g).isEmpty then r.1 else (r.1.bindRegs r.2).lateMark g.late due
  let s3 := if f.advi then s2.advanceAt last f.icb.toNat (.cons c f.icb.toNat 1) else s2
  if f.advv then s3.advanceAt last f.vcb.toNat (.cons c f.vcb.toNat 1) else s3

theorem State.keeps_streamed {s : State} {g : Granted} (h : s.Keeps Engine.walk g.s) (f : AstF) : s.Keeps Engine.walk (s.streamed f g) := by
  unfold State.streamed
  extract_lets c xs last due s1 r s2 s3
  have hs1 : s.Keeps Engine.walk s1 := h.modHere fun k u => Core.holdSrc_walk k s.cur.tag false false 0 f.a u
  have hr : s.Keeps Engine.walk r.1 := hs1.rim (foldl_launch_each_rim ..)
  have hs2 : s.Keeps Engine.walk s2 := hr.ite (hr.rim ((State.lateMark_rim ..).trans (State.bindRegs_rim ..)))
  have hs3 : s.Keeps Engine.walk s3 := (hs2.advanceAt ..).ite hs2
  exact (hs3.advanceAt ..).ite hs3

section
variable {f : AstF} {s : State} (ha : s.here.srcOk s.cur.tag false f.a = true)
  (h : cbsFault [(s.here.cbOf f.vcb.toNat, 4), (s.here.cbOf f.icb.toNat, 5)] = none) (hidx : idxAttr (s.here.cbOf f.icb.toNat).attr = true)
  (hfit : idxCount (s.here.cbOf f.icb.toNat) * astBytes f ≤ (s.here.cbOf f.vcb.toNat).size) (hx : 1 ≤ (s.here.cbOf f.icb.toNat).occ)
  (hv : 1 ≤ (s.here.cbOf f.vcb.toNat).occ)
include ha h hidx hfit hx hv

theorem planAst_misaligned (hbad : s.here.addr s.cur.tag false f.a % astBytes f ≠ 0) :
    planAst f s = .bad s .alignment (BitVec.ofNat 64 (s.here.addr s.cur.tag false f.a)) none := by
  unfold planAst
  rw [szBits_div_astBytes, if_neg (by simp [ha])]
  exact (orFault_none h ..).trans ((State.whenReady_read _ _ hx).trans ((State.whenReady_read _ _ hv).trans
    ((if_neg (by simpa [hidx] using hfit)).trans ((if_neg (by simp [hidx])).trans (if_pos hbad)))))

/-- Past the checks of its buffers and of its accesses: the room of the egress stage, the atomics. -/
theorem planAst_granted {g : Granted} (halign : s.here.addr s.cur.tag false f.a % astBytes f = 0) (hxread : s.entryRead (s.here.cbOf f.icb.toNat) = (s, none))
    (hvread : s.entryRead (s.here.cbOf f.vcb.toNat) = (s, none))
    (hg : s.accessMany ((s.astAddrs f).map fun p => (p.2, astBytes f, { useAtomic with stg := if s.astDefers p.2 then some true else none })) = .ok g)
    (hopen : s.openFault g.lat = false) : planAst f s =
      if !(s.astStage f g).isEmpty && decide (s.here.stageRoom < s.here.egress.length + (s.astStage f g).length) then .fault s .segmentLegality
      else .placed (s.streamed f g) (s.now + (s.indices (s.here.cbOf f.icb.toNat)).length - 1) := by
  rw [← Bool.false_or (!(s.astStage f g).isEmpty && _), ← hopen]
  unfold planAst
  rw [szBits_div_astBytes, szBits_astBytes, if_neg (by simp [ha])]
  exact (orFault_none h ..).trans ((State.whenReady_read _ _ hx).trans ((State.whenReady_read _ _ hv).trans ((State.whenReady_nil ..).trans
    ((if_neg (by simpa [hidx] using hfit)).trans ((if_neg (by simp [hidx])).trans ((if_neg (not_not.2 halign)).trans
      ((State.readEntries_sound _ (by simpa using ⟨hxread, hvread⟩)).trans (congrArg (fun x => Got.plan x s _) hg))))))))

end

/-! ### AWAIT (R254) -/

section
variable {f : AwaitF} {s : State} (hleft : s.astLeft = false)
include hleft

theorem planAwait_go (hbar : f.bar = false) : planAwait f s = .go { s := s } := by simp [planAwait, hleft, hbar]

theorem planAwait_bar {g : Granted} (hbar : f.bar = true) (hn : s.here.srcOk s.cur.tag true f.n = true) (ha : s.here.slotOk s.cur.tag f.a = true)
    (hg : s.access (s.here.slotVal s.cur.tag f.a % 2 ^ 56) 16 { useWrite with rd := true } none = .ok g) (hone : g.runs.length = 1)
    (hplace : s.barrierPlace g.firstPa = true) (hstamp : s.stampOk g.firstPa = true) :
    planAwait f s =
      if s.here.inFixed then .fault s .segmentLegality
      else .go { s := (g.s.launch (some (s.now + s.d)) false g.runs (.arrive g.firstPa (s.here.offVal s.cur.tag true f.n))).1.modHere fun k =>
        k.holdInt s.cur.tag true f.n } := by
  rw [planAwait, if_neg (by simp [hn, ha]), if_neg (by simp [hleft]), if_neg (by simp [hbar])]
  exact State.barrierAt_ok hg hone hplace (fun _ => hstamp) _

end

/-! ### The statement -/

/-- Settles O47: AST is its checks in order and then its atomics in progress or staged (`planAst_granted`), AWAIT goes on when none is left, with an arrival where it
names a barrier object (`planAwait_bar`). That the alignment is checked before the translation of the addresses and that these wrap modulo 2^56 are the model's
readings (log 39, 58). -/
theorem atomicStreams : Obligations.AtomicStreams := by
  refine ⟨fun f s g hready ha => ?_, fun f s hready hleft => ⟨fun hbar => ?_, fun g hbar hn ha => ?_⟩⟩
  · intro k c v x n a xs els val staged parts st now last due hvents hxents hvspace hxspace hidx hfit hx hv
    have hcb : cbsFault [(v, 4), (x, 5)] = none := cbsFault_none (by simpa using ⟨⟨hvents, hvspace⟩, hxents, hxspace⟩)
    refine ⟨fun hbad => ?_, fun halign hxread hvread hg hopen => ?_⟩
    · exact exec_raises rfl hready rfl (.inl (by decide)) (planAst_misaligned ha hcb ((idxAttr_iff _).2 hidx) hfit hx hv hbad)
    · have hplan := planAst_granted ha hcb ((idxAttr_iff _).2 hidx) hfit hx hv halign hxread hvread hg hopen
      simp only [ite_eq_nil]
      refine ⟨fun hst hfull => faults_of_plan rfl hready rfl (by decide) (hplan.trans (if_pos ((stageFull_iff ..).2 ⟨hst, hfull⟩))), fun hroom => ?_⟩
      refine issues_of_placed rfl hready (hplan.trans (if_neg fun hfull => ?_)) (State.keeps_streamed (State.keeps_of_rim (State.accessMany_rim hg)) f)
      obtain ⟨hst, hfull⟩ := (stageFull_iff ..).1 hfull
      exact hroom.elim hst (not_le.2 hfull)
  · exact issues_same rfl hready (planAwait_go hleft hbar) rfl rfl
  · intro pa hg hone hplace hstamp
    have hplan := planAwait_bar hleft hbar hn ha hg hone hplace hstamp
    refine ⟨fun hfixed => faults_of_plan rfl hready rfl (by decide) (hplan.trans (if_pos hfixed)), fun hfixed => ?_⟩
    refine issues_of_keeps rfl hready (hplan.trans (if_neg (ne_true_of_eq_false hfixed))) rfl ?_ rfl
    exact (State.keeps_of_rim ((State.launch_rim ..).trans (State.access_rim hg))).modHere fun k u => Core.holdInt_walk ..

end Sys2Proof.Machine
end

section
/-! The HBM engine: HLD, HST, HPRE and HZERO (O48). -/

namespace Sys2Proof.Machine

open Sys2Proof

/-! ### Granted transfers between memory and B SRAM (R256, R268) -/

theorem heHold_walk (a b : Src) (t : Nat) (k : Core) (u : Nat) : ((heHold a b t k).engine u).walk = (k.engine u).walk := Core.holdSrcCtl_walk ..

theorem State.readParts_sound {s : State} (k : State → Plan) : ∀ {ps : List (Nat × Nat)}, (∀ p ∈ ps, s.issueRead 6 p.1 p.2 = (s, none)) → s.readParts ps k = k s
  | [], _ => rfl
  | p :: r, h => by
    rw [State.readParts, h p List.mem_cons_self]
    exact State.readParts_sound k fun x hx => h x (List.mem_cons_of_mem _ hx)

section
variable {s : State} {spans : List (Nat × Nat × Use)} {pair : List (List Run × List (BitVec 16)) → Bool} {g : Granted} {tag : Option Nat}
  {hold : Core → Core}

section
variable (hwalk : ∀ (k : Core) u, ((hold k).engine u).walk = (k.engine u).walk) (h : s.Keeps Engine.walk g.s)
include hwalk h

theorem State.keeps_hldFrom (dst : List Run) (pad : Nat) (cb : Option (Nat × Bool × BitVec 5)) :
    s.Keeps Engine.walk (s.hldFrom g dst pad tag cb hold) := by
  unfold State.hldFrom
  extract_lets c s1 fins m
  have hm : s.Keeps Engine.walk m.start.s := Move.start_keeps (h.takeTag tag)
  refine State.Keeps.modHere ?_ hwalk
  match cb with
  | none => exact hm
  | some (i, adv, a) => exact hm.reserve ..

theorem State.keeps_hstFrom (src : List Run) (cons : Option Nat) : s.Keeps Engine.walk (s.hstFrom g src tag cons hold) := by
  unfold State.hstFrom
  extract_lets c s1 fixed m s2
  have hs2 : s.Keeps Engine.walk s2 := State.Keeps.modHere (Move.start_keeps (h.takeTag tag)) hwalk
  match cons with
  | none => exact hs2
  | some i => exact hs2.ite (hs2.modHere fun _ _ => rfl)

end

variable (hg : s.GrantsAll spans pair g) (hopen : s.openFault g.lat = false) (htag : s.tagBusy tag = false)
include hg hopen htag

theorem hldGo_granted {dst : List Run} (hprot : ∀ r ∈ dst, s.here.hitsProt r.va r.len = false) (pad : Nat) (cb : Option (Nat × Bool × BitVec 5)) :
    ∃ last op, hldGo s spans pair dst pad tag cb hold = .placed (s.hldFrom g dst pad tag cb hold) last op := by
  have hfree : ¬(s.openFault g.lat || dst.any fun r => s.here.hitsProt r.va r.len) = true := by
    rw [hopen, Bool.false_or, Bool.not_eq_true, List.any_eq_false]
    exact fun r hr => ne_true_of_eq_false (hprot r hr)
  exact ⟨_, _, (State.accessPaired_granted hg _).trans ((if_neg hfree).trans (if_neg (ne_true_of_eq_false htag)))⟩

theorem hstGo_granted (hout : s.outFault g.runs g.attrs = false) (src : List Run) (cons : Option Nat) :
    ∃ last op, hstGo s spans pair src tag cons hold = .placed (s.hstFrom g src tag cons hold) last op := by
  have hfree : ¬(s.openFault g.lat || s.outFault g.runs g.attrs) = true := by simp [hopen, hout]
  exact ⟨_, _, (State.accessPaired_granted hg _).trans ((if_neg hfree).trans (if_neg (ne_true_of_eq_false htag)))⟩

end

/-! ### HLD and HST: a span (R256) -/

section
variable {f : HldF} {s : State} (ha : s.here.srcOk s.cur.tag false f.a = true) (hb : s.here.srcOk s.cur.tag true f.b = true)
include ha hb

section
variable (hcbm : f.cbm = false) (hc : s.here.slotOk s.cur.tag f.c = true)
include hcbm hc

theorem hldSpan_operands : ¬(!(s.here.srcOk s.cur.tag false f.a && s.here.srcOk s.cur.tag true f.b && (f.cbm || s.here.slotOk s.cur.tag f.c))) = true ∧
    (!f.cbm) = true := by simp [ha, hb, hc, hcbm]

theorem planHld_span : let n := s.here.slotVal s.cur.tag f.c
    let b := s.here.ctlVal s.cur.tag true f.b
    planHld f s =
      if n = 0 ∨ 32 * 2 ^ 20 < b + n then .fault s .illegalOperand
      else hldGo s [(s.here.addr s.cur.tag false f.a, n, useRead)] (fun _ => true) [s.bufRun s.cur.core 6 b n] 0 (tagOf f.ten f.tag) none
        (heHold f.a f.b s.cur.tag) :=
  (if_neg (hldSpan_operands ha hb hcbm hc).1).trans (if_pos (hldSpan_operands ha hb hcbm hc).2)

theorem planHst_span : let n := s.here.slotVal s.cur.tag f.c
    let b := s.here.ctlVal s.cur.tag true f.b
    planHst f s =
      if n = 0 ∨ 32 * 2 ^ 20 < b + n then .fault s .illegalOperand
      else s.readParts [(b, n)] fun s' => hstGo s' [(s.here.addr s.cur.tag false f.a, n, useWrite)] (fun as => (fmtsOf as).all fun x => !attrBlock x)
        [s'.bufRun s.cur.core 6 b n] (tagOf f.ten f.tag) none (heHold f.a f.b s.cur.tag) :=
  (if_neg (hldSpan_operands ha hb hcbm hc).1).trans (if_pos (hldSpan_operands ha hb hcbm hc).2)

end

/-! ### HLD and HST: an entry (R40, R41, R256) -/

section
variable (hcbm : f.cbm = true)
include hcbm

theorem hldEntry_operands : ¬(!(s.here.srcOk s.cur.tag false f.a && s.here.srcOk s.cur.tag true f.b && (f.cbm || s.here.slotOk s.cur.tag f.c))) = true ∧
    ¬(!f.cbm) = true := by simp [ha, hb, hcbm]

section
variable {c : Cause} (h : cbFault (s.here.cbOf f.cb.toNat) 6 = some c)
include h

theorem planHld_fault : planHld f s = .fault s c := by
  refine (if_neg (hldEntry_operands ha hb hcbm).1).trans ((if_neg (hldEntry_operands ha hb hcbm).2).trans ?_)
  rw [h]

theorem planHst_fault : planHst f s = .fault s c := by
  refine (if_neg (hldEntry_operands ha hb hcbm).1).trans ((if_neg (hldEntry_operands ha hb hcbm).2).trans ?_)
  rw [h]

end

variable (h : cbFault (s.here.cbOf f.cb.toNat) 6 = none)
include h

section
variable (hlinear : s.blockRange (s.here.addr s.cur.tag false f.a) = none)
include hlinear

theorem planHld_linear (hroom : 1 ≤ (s.here.cbOf f.cb.toNat).room s.now) :
    let d := s.here.cbOf f.cb.toNat
    planHld f s = hldGo s [((s.here.addr s.cur.tag false f.a + s.here.ctlVal s.cur.tag true f.b) % 2 ^ 56, d.size, useRead)] (fun as => intoCb d (fmtsOf as))
      [s.bufRun s.cur.core 6 (d.entry d.slot) d.size] 0 (tagOf f.ten f.tag) (some (f.cb.toNat, f.adv, d.attr)) (heHold f.a f.b s.cur.tag) := by
  refine (if_neg (hldEntry_operands ha hb hcbm).1).trans ((if_neg (hldEntry_operands ha hb hcbm).2).trans ?_)
  rw [h, hlinear]
  exact State.whenReady_write _ _ hroom

theorem planHst_linear (hocc : 1 ≤ (s.here.cbOf f.cb.toNat).occ) :
    let d := s.here.cbOf f.cb.toNat
    planHst f s = s.readParts [(d.entry d.cons.toNat, d.size)] fun s' =>
      hstGo s' [((s.here.addr s.cur.tag false f.a + s.here.ctlVal s.cur.tag true f.b) % 2 ^ 56, d.size, useWrite)]
        (fun as => (fmtsOf as).all fun x => attrRaw x || decide (x = d.attr)) [s'.bufRun s.cur.core 6 (d.entry d.cons.toNat) d.size] (tagOf f.ten f.tag)
        (if f.adv then some f.cb.toNat else none) (heHold f.a f.b s.cur.tag) := by
  refine (if_neg (hldEntry_operands ha hb hcbm).1).trans ((if_neg (hldEntry_operands ha hb hcbm).2).trans ?_)
  rw [h, hlinear]
  exact State.whenReady_read _ _ hocc

end

/-- The parts of the entry of a HLD or HST in the planes of a range. -/
def State.hldParts (s : State) (f : HldF) (r : Range) : List (Nat × Nat × Nat) :=
  let b := s.here.ctlVal s.cur.tag true f.b
  planeParts r (awFmt r.attr) (blocksPer (awFmt r.attr) (s.here.cbOf f.cb.toNat).size) (bitsN b 0 40) (bitsN b 40 24)

/-- Whether the blocks that it names lie in the element plane of the range. -/
def State.hldFits (s : State) (f : HldF) (r : Range) : Prop :=
  bitsN (s.here.ctlVal s.cur.tag true f.b) 0 40 + blocksPer (awFmt r.attr) (s.here.cbOf f.cb.toNat).size ≤ r.blocks (awFmt r.attr)

variable {r : Range} (hplanar : s.blockRange (s.here.addr s.cur.tag false f.a) = some r)
include hplanar

section
variable (hlong : ¬s.hldFits f r)
include hlong

theorem planHld_long (hroom : 1 ≤ (s.here.cbOf f.cb.toNat).room s.now) : planHld f s = .fault s .illegalOperand := by
  refine (if_neg (hldEntry_operands ha hb hcbm).1).trans ((if_neg (hldEntry_operands ha hb hcbm).2).trans ?_)
  rw [h, hplanar]
  exact (State.whenReady_write _ _ hroom).trans (if_pos (not_le.1 hlong))

theorem planHst_long (hocc : 1 ≤ (s.here.cbOf f.cb.toNat).occ) : planHst f s = .fault s .illegalOperand := by
  refine (if_neg (hldEntry_operands ha hb hcbm).1).trans ((if_neg (hldEntry_operands ha hb hcbm).2).trans ?_)
  rw [h, hplanar]
  exact (State.whenReady_read _ _ hocc).trans (if_pos (not_le.1 hlong))

end

variable (hfits : s.hldFits f r)
include hfits

theorem planHld_planes (hroom : 1 ≤ (s.here.cbOf f.cb.toNat).room s.now) :
    let d := s.here.cbOf f.cb.toNat
    let gaps := gapsOf d.size 0 ((s.hldParts f r).map fun p => (p.2.1, p.2.2))
    planHld f s = hldGo s ((s.hldParts f r).map fun p => (p.1, p.2.2, useRead)) (fun as => intoCb d (fmtsOf as))
      (((s.hldParts f r).map fun p => s.bufRun s.cur.core 6 (d.entry d.slot + p.2.1) p.2.2) ++
        gaps.map fun p => s.bufRun s.cur.core 6 (d.entry d.slot + p.1) p.2) (gaps.map fun p => p.2).sum (tagOf f.ten f.tag)
      (some (f.cb.toNat, f.adv, d.attr)) (heHold f.a f.b s.cur.tag) := by
  refine (if_neg (hldEntry_operands ha hb hcbm).1).trans ((if_neg (hldEntry_operands ha hb hcbm).2).trans ?_)
  rw [h, hplanar]
  exact (State.whenReady_write _ _ hroom).trans (if_neg (not_lt.2 hfits))

theorem planHst_planes (hocc : 1 ≤ (s.here.cbOf f.cb.toNat).occ) :
    let d := s.here.cbOf f.cb.toNat
    planHst f s = s.readParts ((s.hldParts f r).map fun p => (d.entry d.cons.toNat + p.2.1, p.2.2)) fun s' =>
      hstGo s' ((s.hldParts f r).map fun p => (p.1, p.2.2, useWrite)) (fun as => (fmtsOf as).all fun x => decide (x = d.attr))
        ((s.hldParts f r).map fun p => s'.bufRun s.cur.core 6 (d.entry d.cons.toNat + p.2.1) p.2.2) (tagOf f.ten f.tag)
        (if f.adv then some f.cb.toNat else none) (heHold f.a f.b s.cur.tag) := by
  refine (if_neg (hldEntry_operands ha hb hcbm).1).trans ((if_neg (hldEntry_operands ha hb hcbm).2).trans ?_)
  rw [h, hplanar]
  exact (State.whenReady_read _ _ hocc).trans (if_neg (not_lt.2 hfits))

end
end

/-! ### HPRE and HZERO (R257) -/

theorem planHpre_go {f : HpreF} {s : State} {g : Group} (ha : s.here.srcOk s.cur.tag false f.a = true) (hn : s.here.srcOk s.cur.tag true f.n = true)
    (hg : s.groupOf s.cur.core = some g) :
    planHpre f s = .go { s := (s.cacheAll (slotOfCore s.cur.core) g.job g.num
      (preKeys (s.viewOf s.cur.core) (s.here.addr s.cur.tag false f.a) (s.here.ctlVal s.cur.tag true f.n))).modHere (heHold f.a f.n s.cur.tag) } := by
  refine (if_neg (by simp [ha, hn])).trans ?_
  rw [hg]

/-- The state in which a HZERO has put its granted zeros into progress. -/
def State.zeroing (s : State) (f : HzeroF) (g : Granted) : State :=
  let n := s.here.ctlVal s.cur.tag true f.n
  let tag := tagOf f.ten f.tag
  let s1 := g.s.takeTag tag
  ({ s := s1, lat := g.lat, late := g.late, n := n, links := linksOf s.cur.core g.runs true, src := [], img := List.replicate n 0,
     dst := g.runs, leaves := none, fins := s1.tagFins tag } : Move).start.s.modHere (heHold f.a f.n s.cur.tag)

theorem State.keeps_zeroing {s : State} {g : Granted} (h : s.Keeps Engine.walk g.s) (f : HzeroF) : s.Keeps Engine.walk (s.zeroing f g) := by
  unfold State.zeroing
  extract_lets n tag s1
  exact State.Keeps.modHere (Move.start_keeps (h.takeTag tag)) (heHold_walk f.a f.n s.cur.tag)

section
variable {f : HzeroF} {s : State} (ha : s.here.srcOk s.cur.tag false f.a = true) (hn : s.here.srcOk s.cur.tag true f.n = true)
include ha hn

theorem planHzero_empty (hzero : s.here.ctlVal s.cur.tag true f.n = 0) : planHzero f s = .fault s .illegalOperand :=
  (if_neg (by simp [ha, hn])).trans (if_pos hzero)

theorem planHzero_granted {g : Granted} (hpos : s.here.ctlVal s.cur.tag true f.n ≠ 0)
    (hg : s.GrantsAll [(s.here.addr s.cur.tag false f.a, s.here.ctlVal s.cur.tag true f.n, useWrite)] (fun as => (fmtsOf as).all fun x => !attrBlock x) g)
    (hopen : s.openFault g.lat = false) (hout : s.outFault g.runs g.attrs = false) (htag : s.tagBusy (tagOf f.ten f.tag) = false) :
    ∃ last op, planHzero f s = .placed (s.zeroing f g) last op :=
  ⟨_, _, (if_neg (by simp [ha, hn])).trans ((if_neg hpos).trans ((State.accessPaired_granted hg _).trans ((if_neg (by simp [hopen, hout])).trans
    (if_neg (ne_true_of_eq_false htag)))))⟩

end

/-! ### The statement -/

/-- Settles O48: HLD and HST are their checks in order and then one granted transfer (`hldGo_granted`, `hstGo_granted`) of a span, of an entry in one span, or of
its parts in the planes of a range; HPRE and HZERO are `planHpre_go` and `planHzero_granted`. That the range decides whether blocks are planar, that a buffer that is
not configured is an illegal operand before its space is checked, and what held immediates leave in their latches are the model's readings (log 51, 47, 102). -/
theorem bulkTransfers : Obligations.BulkTransfers := by
  refine ⟨fun f s g ha hb => ?_, fun f s g hready ha hn hgroup => ?_, fun f s g hready ha hn => ?_⟩
  · intro k t c a b i d tag hold
    have hwalk : ∀ (k : Core) u, ((hold k).engine u).walk = (k.engine u).walk := heHold_walk f.a f.b t
    refine ⟨fun hcbm hc => ?_, fun hcbm => ⟨fun hents => ?_, fun hents hspace => ?_, fun hents hspace hlinear hopen htag => ?_, fun r hents hspace hplanar => ?_⟩⟩
    · intro n
      refine ⟨fun hbad => ⟨fun hready => ?_, fun hready => ?_⟩,
        fun hpos hfit hopen htag => ⟨fun hready hg hprot => ?_, fun hready hread hg hout => ?_⟩⟩
      · exact faults_of_plan rfl hready rfl (by decide) ((planHld_span ha hb hcbm hc).trans (if_pos hbad))
      · exact faults_of_plan rfl hready rfl (by decide) ((planHst_span ha hb hcbm hc).trans (if_pos hbad))
      · obtain ⟨last, op, hgo⟩ := hldGo_granted (hold := hold) hg hopen htag (dst := [s.bufRun c 6 b n]) (List.forall_mem_singleton.2 hprot) 0 none
        exact issues_of_placed rfl hready ((planHld_span ha hb hcbm hc).trans ((if_neg (not_or.2 ⟨hpos, not_lt.2 hfit⟩)).trans hgo))
          (State.keeps_hldFrom hwalk hg.keeps ..)
      · obtain ⟨last, op, hgo⟩ := hstGo_granted (hold := hold) hg hopen htag hout [s.bufRun c 6 b n] none
        exact issues_of_placed rfl hready ((planHst_span ha hb hcbm hc).trans ((if_neg (not_or.2 ⟨hpos, not_lt.2 hfit⟩)).trans
          ((State.readParts_sound _ (by simpa using hread)).trans hgo))) (State.keeps_hstFrom hwalk hg.keeps ..)
    · exact ⟨fun hready => faults_of_plan rfl hready rfl (by decide) (planHld_fault ha hb hcbm (cbFault_unconfigured 6 hents)),
        fun hready => faults_of_plan rfl hready rfl (by decide) (planHst_fault ha hb hcbm (cbFault_unconfigured 6 hents))⟩
    · exact ⟨fun hready => faults_of_plan rfl hready rfl (by decide) (planHld_fault ha hb hcbm (cbFault_space hents hspace)),
        fun hready => faults_of_plan rfl hready rfl (by decide) (planHst_fault ha hb hcbm (cbFault_space hents hspace))⟩
    · refine ⟨fun hready hroom hg hprot => ?_, fun hready hocc hread hg hout => ?_⟩
      · obtain ⟨last, op, hgo⟩ := hldGo_granted (hold := hold) hg hopen htag (dst := [s.bufRun c 6 (d.entry d.slot) d.size]) (List.forall_mem_singleton.2 hprot) 0
          (some (i, f.adv, d.attr))
        exact issues_of_placed rfl hready ((planHld_linear ha hb hcbm (cbFault_none hents hspace) hlinear hroom).trans hgo)
          (State.keeps_hldFrom hwalk hg.keeps ..)
      · obtain ⟨last, op, hgo⟩ := hstGo_granted (hold := hold) hg hopen htag hout [s.bufRun c 6 (d.entry d.cons.toNat) d.size] (if f.adv then some i else none)
        exact issues_of_placed rfl hready ((planHst_linear ha hb hcbm (cbFault_none hents hspace) hlinear hocc).trans
          ((State.readParts_sound _ (by simpa using hread)).trans hgo)) (State.keeps_hstFrom hwalk hg.keeps ..)
    · intro fm kk b0 parts
      have hcb : cbFault d 6 = none := cbFault_none hents hspace
      refine ⟨fun hlong => ⟨fun hready hroom => ?_, fun hready hocc => ?_⟩, fun hfits hopen htag => ⟨fun hready hroom => ?_, fun hready hocc => ?_⟩⟩
      · exact faults_of_plan rfl hready rfl (by decide) (planHld_long ha hb hcbm hcb hplanar (not_le.2 hlong) hroom)
      · exact faults_of_plan rfl hready rfl (by decide) (planHst_long ha hb hcbm hcb hplanar (not_le.2 hlong) hocc)
      · intro ent gaps dst hg hprot
        obtain ⟨last, op, hgo⟩ := hldGo_granted (hold := hold) hg hopen htag hprot (gaps.map fun p => p.2).sum (some (i, f.adv, d.attr))
        exact issues_of_placed rfl hready ((planHld_planes ha hb hcbm hcb hplanar hfits hroom).trans hgo) (State.keeps_hldFrom hwalk hg.keeps ..)
      · intro ent hread hg hout
        obtain ⟨last, op, hgo⟩ := hstGo_granted (hold := hold) hg hopen htag hout (parts.map fun p => s.bufRun c 6 (ent + p.2.1) p.2.2)
          (if f.adv then some i else none)
        have hsound : ∀ p ∈ parts.map fun p => (ent + p.2.1, p.2.2), s.issueRead 6 p.1 p.2 = (s, none) := List.forall_mem_map.2 hread
        exact issues_of_placed rfl hready ((planHst_planes ha hb hcbm hcb hplanar hfits hocc).trans ((State.readParts_sound _ hsound).trans hgo))
          (State.keeps_hstFrom hwalk hg.keeps ..)
  · refine issues_of_keeps rfl hready (planHpre_go ha hn hgroup) rfl ?_ rfl
    exact (State.keeps_of_rim (State.cacheAll_rim ..)).modHere (heHold_walk f.a f.n s.cur.tag)
  · intro n tag
    refine ⟨fun hzero => faults_of_plan rfl hready rfl (by decide) (planHzero_empty ha hn hzero), fun hpos hg hopen hout htag => ?_⟩
    obtain ⟨last, op, hplan⟩ := planHzero_granted ha hn hpos hg hopen hout htag
    exact issues_of_placed rfl hready hplan (State.keeps_zeroing hg.keeps f)

end Sys2Proof.Machine
end

section
/-! The transform engine: TCOPY and TCVT (O49). -/

namespace Sys2Proof.Machine

open Sys2Proof

/-! ### TCOPY (R258) -/

section
variable (f : TcopyF) (s : State)

/-- Rows and columns of the destination of a TCOPY whose operand C is `w`. -/
def tcopyShape (w : Nat) : Nat × Nat :=
  let rows := bitsN w 0 12 + 1
  let cols := bitsN w 12 12 + 1
  (if f.tr then cols else rows, if f.tr then rows else cols)

/-- The tiles that a TCOPY reads and writes. -/
def State.tcopySrc : Tile :=
  let w := s.here.slotVal s.cur.tag f.c
  { base := s.here.ctlVal s.cur.tag false f.a, rows := bitsN w 0 12 + 1, bytes := (bitsN w 12 12 + 1) * esBits f.es / 8, pitch := bitsN w 24 20 }

def State.tcopyDst : Tile :=
  let w := s.here.slotVal s.cur.tag f.c
  { base := s.here.ctlVal s.cur.tag true f.b, rows := (tcopyShape f w).1, bytes := (tcopyShape f w).2 * esBits f.es / 8, pitch := bitsN w 44 20 }

/-- Tiles whose rows are no whole bytes, overlap one another, or do not lie in B SRAM. -/
def State.TcopyBad : Prop :=
  let w := s.here.slotVal s.cur.tag f.c
  let src := s.tcopySrc f
  let dst := s.tcopyDst f
  (bitsN w 12 12 + 1) * esBits f.es % 8 ≠ 0 ∨ (tcopyShape f w).2 * esBits f.es % 8 ≠ 0 ∨ src.pitch < src.bytes ∨ dst.pitch < dst.bytes ∨
    32 * 2 ^ 20 < src.fin ∨ 32 * 2 ^ 20 < dst.fin

/-- The cells that a TCOPY writes: its elements, transposed or not. -/
def State.tcopyCells : List Host.Cell :=
  let es := esBits f.es
  let w := s.here.slotVal s.cur.tag f.c
  let src := s.tcopySrc f
  let dst := s.tcopyDst f
  let el (i j : Nat) : Nat :=
    if es = 4 then (rdNib s.memAhead (2 * s.bufPa s.cur.core 6 (src.base + i * src.pitch) + j)).toNat
    else rdLe s.memAhead (s.bufPa s.cur.core 6 (src.base + i * src.pitch + j * es / 8)) (es / 8)
  (List.range (tcopyShape f w).1).flatMap fun i =>
    cellsAt (s.bufPa s.cur.core 6 (dst.base + i * dst.pitch)) (packElems es ((List.range (tcopyShape f w).2).map fun j => if f.tr then el j i else el i j))

/-- The state in which a TCOPY is in progress. -/
def State.tcopying : State :=
  let w := s.here.slotVal s.cur.tag f.c
  let tag := tagOf f.ten f.tag
  let s1 := s.takeTag tag
  (s1.launch (some (s.now + (4 + (if f.tr then 2 else 1) * ceilDiv ((bitsN w 0 12 + 1) * (bitsN w 12 12 + 1) * esBits f.es / 8) 512) * s.d)) true []
    (.write (s.tcopyCells f) (s1.tagFins tag))).1.modHere fun k => (k.holdCtl s.cur.tag false f.a).holdCtl s.cur.tag true f.b

theorem State.keeps_tcopying : s.Keeps Engine.walk (s.tcopying f) :=
  State.Keeps.modHere (((State.Keeps.refl s).takeTag _).rim (State.launch_rim ..)) fun k u => Core.holdCtl2_walk k s.cur.tag f.a f.b u

end

section
variable {f : TcopyF} {s : State} (ha : s.here.srcOk s.cur.tag false f.a = true) (hb : s.here.srcOk s.cur.tag true f.b = true)
  (hc : s.here.slotOk s.cur.tag f.c = true) (hw : f.c.w = 16)
include ha hb hc hw

theorem tcopy_operands : ¬(!(s.here.srcOk s.cur.tag false f.a && s.here.srcOk s.cur.tag true f.b && s.here.slotOk s.cur.tag f.c) || decide (f.c.w ≠ 16)) = true := by
  simp [ha, hb, hc, hw]

theorem planTcopy_bad (hbad : s.TcopyBad f) : planTcopy f s = .fault s .illegalOperand := (if_neg (tcopy_operands ha hb hc hw)).trans (if_pos hbad)

variable (hok : ¬s.TcopyBad f)
include hok

theorem planTcopy_overlap (hmeets : (s.tcopySrc f).base < (s.tcopyDst f).fin ∧ (s.tcopyDst f).base < (s.tcopySrc f).fin) :
    planTcopy f s = .fault s .copyOverlap :=
  (if_neg (tcopy_operands ha hb hc hw)).trans ((if_neg hok).trans (if_pos hmeets))

variable (hapart : ¬((s.tcopySrc f).base < (s.tcopyDst f).fin ∧ (s.tcopyDst f).base < (s.tcopySrc f).fin))
include hapart

theorem planTcopy_protected (hprot : ((s.tcopyDst f).spans.any fun p => s.protAt s.cur.core 6 p.1 p.2) = true) : planTcopy f s = .fault s .segmentLegality :=
  (if_neg (tcopy_operands ha hb hc hw)).trans ((if_neg hok).trans ((if_neg hapart).trans (if_pos hprot)))

variable (hfree : ((s.tcopyDst f).spans.any fun p => s.protAt s.cur.core 6 p.1 p.2) = false)
include hfree

theorem planTcopy_tagBusy (htag : s.tagBusy (tagOf f.ten f.tag) = true) : planTcopy f s = .fault s .tagBusy :=
  (if_neg (tcopy_operands ha hb hc hw)).trans ((if_neg hok).trans ((if_neg hapart).trans ((if_neg (ne_true_of_eq_false hfree)).trans (if_pos htag))))

theorem planTcopy_go (htag : s.tagBusy (tagOf f.ten f.tag) = false) (hread : ∀ p ∈ (s.tcopySrc f).spans, s.issueRead 6 p.1 p.2 = (s, none)) :
    ∃ last, planTcopy f s = .placed (s.tcopying f) last :=
  ⟨_, (if_neg (tcopy_operands ha hb hc hw)).trans ((if_neg hok).trans ((if_neg hapart).trans ((if_neg (ne_true_of_eq_false hfree)).trans
    ((if_neg (ne_true_of_eq_false htag)).trans (State.readParts_sound _ hread)))))⟩

end

/-! ### TCVT (R259) -/

/-- The entry that a TCVT writes, and its flags. -/
def State.tcvtImage (s : State) (f : TcvtF) : List Byte × Flags :=
  let k := s.here
  let d := k.cbOf f.dcb.toNat
  let x := k.cbOf f.scb.toNat
  let src := s.entryBytes x
  let both := attrT x.attr && attrT d.attr
  let mode (i p : Nat) (half : Bool) : RMode := modeOf (s.rmOf f.rm.toNat) 0 k.seed
    (emberCtr 0 0x50 (k.segno.toNat % 2 ^ 16 * 2 ^ 32 + d.slot % 2 ^ 12 * 2 ^ 20 + i % 2 ^ 20)) (p % 64) half
  let tiles := if both then (src.drop (tileOff x.attr (blocksPer x.attr x.size))).take 64 else (List.range 16).flatMap fun _ => leBytes 4 0x3F800000
  cvtEntry d.attr d.size (entryElems x.attr x.size) (entryVal x.attr x.size src (!both)) mode tiles

/-- The state in which a TCVT is in progress. -/
def State.converting (s : State) (f : TcvtF) : State :=
  let c := s.cur.core
  let d := s.here.cbOf f.dcb.toNat
  let x := s.here.cbOf f.scb.toNat
  let tag := tagOf f.ten f.tag
  let C := s.now + (4 + ceilDiv (max x.size d.size) 256) * s.d
  let s1 := s.takeTag tag
  let r := s1.launch (some C) true [] (.write (cellsAt (s.bufPa c 6 (d.entry d.slot)) (s.tcvtImage f).1)
    (Fin.resv c f.dcb.toNat s1.nextId :: ((if f.advs then [.cons c f.scb.toNat 1] else []) ++ s1.tagFins tag)))
  (r.1.reserve c f.dcb.toNat r.2 f.advd d.attr).modHere fun k =>
    { (k.raise C (s.tcvtImage f).2) with
      busy := if f.advs then k.busy ++ [{ res := .cb f.scb.toNat, tick := C + 1, op := none, hold := none, old := [], mask := [] }] else k.busy }

theorem State.keeps_converting (s : State) (f : TcvtF) : s.Keeps Engine.walk (s.converting f) :=
  State.Keeps.modHere ((((State.Keeps.refl s).takeTag _).rim (State.launch_rim ..)).reserve ..) fun k u => congrArg Engine.walk (Core.raise_engine k u ..)

section
variable {f : TcvtF} {s : State}

theorem planTcvt_fault {c : Cause} (h : cbsFault [(s.here.cbOf f.dcb.toNat, 6), (s.here.cbOf f.scb.toNat, 6)] = some c) : planTcvt f s = .fault s c := by
  unfold planTcvt
  exact orFault_some h ..

variable (h : cbsFault [(s.here.cbOf f.dcb.toNat, 6), (s.here.cbOf f.scb.toNat, 6)] = none) (hocc : 1 ≤ (s.here.cbOf f.scb.toNat).occ)
  (hroom : 1 ≤ (s.here.cbOf f.dcb.toNat).room s.now)
include h hocc hroom

theorem planTcvt_format (hfmt : cvtAttr (s.here.cbOf f.dcb.toNat).attr = false ∨ cvtAttr (s.here.cbOf f.scb.toNat).attr = false) :
    planTcvt f s = .fault s .format := by
  have hno : (cvtAttr (s.here.cbOf f.dcb.toNat).attr && cvtAttr (s.here.cbOf f.scb.toNat).attr) = false := Bool.and_eq_false_iff.2 hfmt
  unfold planTcvt
  exact (orFault_none h ..).trans ((State.whenReady_read _ _ hocc).trans ((State.whenReady_write _ _ hroom).trans ((State.whenReady_nil ..).trans
    ((if_neg (by simp [hno])).trans (if_pos (by simp [hno]))))))

variable (hd : cvtAttr (s.here.cbOf f.dcb.toNat).attr = true) (hx : cvtAttr (s.here.cbOf f.scb.toNat).attr = true)
include hd hx

theorem planTcvt_short
    (hshort : entryElems (s.here.cbOf f.dcb.toNat).attr (s.here.cbOf f.dcb.toNat).size < entryElems (s.here.cbOf f.scb.toNat).attr (s.here.cbOf f.scb.toNat).size) :
    planTcvt f s = .fault s .illegalOperand := by
  unfold planTcvt
  exact (orFault_none h ..).trans ((State.whenReady_read _ _ hocc).trans ((State.whenReady_write _ _ hroom).trans ((State.whenReady_nil ..).trans
    (if_pos (by simpa [hd, hx] using hshort)))))

theorem planTcvt_go
    (hfit : entryElems (s.here.cbOf f.scb.toNat).attr (s.here.cbOf f.scb.toNat).size ≤ entryElems (s.here.cbOf f.dcb.toNat).attr (s.here.cbOf f.dcb.toNat).size)
    (hprot : s.protAt s.cur.core 6 ((s.here.cbOf f.dcb.toNat).entry (s.here.cbOf f.dcb.toNat).slot) (s.here.cbOf f.dcb.toNat).size = false)
    (htag : s.tagBusy (tagOf f.ten f.tag) = false) (hread : s.entryRead (s.here.cbOf f.scb.toNat) = (s, none)) :
    ∃ last, planTcvt f s = .placed (s.converting f) last := by
  unfold planTcvt
  exact ⟨_, (orFault_none h ..).trans ((State.whenReady_read _ _ hocc).trans ((State.whenReady_write _ _ hroom).trans ((State.whenReady_nil ..).trans
    ((if_neg (by simp [hd, hx, hfit])).trans ((if_neg (by simp [hd, hx])).trans ((if_neg (ne_true_of_eq_false hprot)).trans
      ((if_neg (ne_true_of_eq_false htag)).trans (State.readEntries_sound _ (by simpa using hread)))))))))⟩

end

/-! ### The statement -/

/-- Settles O49: TCOPY is its checks in order and then its cells in progress (`planTcopy_go`), TCVT its checks and then a converted entry (`planTcvt_go`). That
both complete when their operation ends and that a buffer that is not configured is an illegal operand before its space is checked are the model's readings
(log 53, 47). -/
theorem transforms : Obligations.Transforms := by
  refine ⟨fun f s hready ha hb hc hw => ?_, fun f s hready => ?_⟩
  · intro k t c es w rows cols drows dcols src dst tag bad meets
    refine ⟨fun hbad => faults_of_plan rfl hready rfl (by decide) (planTcopy_bad ha hb hc hw hbad),
      fun hok hmeets => faults_of_plan rfl hready rfl (by decide) (planTcopy_overlap ha hb hc hw hok hmeets),
      fun hok hapart hprot => ?_, fun hok hapart hfree htag => ?_, fun hok hapart hfree htag hread => ?_⟩
    · exact faults_of_plan rfl hready rfl (by decide) (planTcopy_protected ha hb hc hw hok hapart (List.any_eq_true.2 hprot))
    · exact faults_of_plan rfl hready rfl (by decide)
        (planTcopy_tagBusy ha hb hc hw hok hapart (List.any_eq_false.2 fun p hp => ne_true_of_eq_false (hfree p hp)) htag)
    · obtain ⟨last, hplan⟩ := planTcopy_go ha hb hc hw hok hapart (List.any_eq_false.2 fun p hp => ne_true_of_eq_false (hfree p hp)) htag hread
      exact issues_of_placed rfl hready hplan (State.keeps_tcopying f s)
  · intro k c d x tag n
    refine ⟨fun hents => faults_of_plan rfl hready rfl (by decide) (planTcvt_fault (cbsFault_unconfigured (by simpa using hents))),
      fun hd hx hspace => faults_of_plan rfl hready rfl (by decide) (planTcvt_fault (cbsFault_space (by simpa using ⟨hd, hx⟩) (by simpa using hspace))),
      fun hd hx hdspace hxspace hocc hroom hfmt => ?_, fun hd hx hdspace hxspace hocc hroom hdfmt hxfmt hshort => ?_,
      fun hd hx hdspace hxspace hocc hroom hdfmt hxfmt hfit hprot htag hread => ?_⟩
    all_goals have hcb : cbsFault [(d, 6), (x, 6)] = none := cbsFault_none (by simpa using ⟨⟨hd, hdspace⟩, hx, hxspace⟩)
    · exact faults_of_plan rfl hready rfl (by decide) (planTcvt_format hcb hocc hroom hfmt)
    · exact faults_of_plan rfl hready rfl (by decide) (planTcvt_short hcb hocc hroom hdfmt hxfmt hshort)
    · obtain ⟨last, hplan⟩ := planTcvt_go hcb hocc hroom hdfmt hxfmt hfit hprot htag hread
      exact issues_of_placed rfl hready hplan (State.keeps_converting s f)

end Sys2Proof.Machine
end

section
/-! The push engine: PUSH and PUSHB (O50). -/

namespace Sys2Proof.Machine

open Sys2Proof

/-! ### The due tick (R260, R421) -/

/-- The INFO of a push that arrives at tick `at'` of its segment and is due at `due`. -/
def dueInfo (dcore due at' : Nat) : W64 := BitVec.ofNat 32 at' ++ 0#10 ++ BitVec.ofNat 14 due ++ BitVec.ofNat 8 dcore

section
variable {s : State} {timed : Bool} {dcore due L : Nat}

/-- An untimed push, and a timed one that is due as it arrives, go on. -/
theorem dueCheck_onTime (h : timed = true → s.segTick s.cur.core + L = due) (k : Plan) : dueCheck s timed dcore due L k = k := by
  cases timed with
  | false => rfl
  | true => simp [dueCheck, dueTrap, h rfl]

/-- A timed push that is due later or earlier than it arrives traps. -/
theorem dueCheck_trap {e : Cause} (htimed : timed = true)
    (h : s.segTick s.cur.core + L < due ∧ e = Cause.pushEarly ∨ due < s.segTick s.cur.core + L ∧ e = Cause.pushLate) (k : Plan) :
    dueCheck s timed dcore due L k = .bad s e (dueInfo dcore due (s.segTick s.cur.core + L)) none := by
  subst htimed
  obtain ⟨hearly, rfl⟩ | ⟨hlate, rfl⟩ := h
  · simp [dueCheck, dueTrap, hearly, dueInfo]
  · simp [dueCheck, dueTrap, hlate, not_lt.2 hlate.le, dueInfo]

end

theorem State.pushPlace_iff (s : State) (timed : Bool) : s.pushPlace timed = true ↔ timed = s.here.inFixed := beq_iff_eq

/-! ### PUSH (R260) -/

/-- The state in which a PUSH to core `dc` is in progress. -/
def State.pushing (s : State) (f : PushF) (dc : Nat) : State :=
  let c := s.cur.core
  let x := s.here.cbOf f.scb.toNat
  let d := (s.core dc).cbOf f.dcb.toNat
  let dst := s.bufRun dc d.space (d.entry d.slot) d.size
  let m : Move := { s := s, lat := if f.timed then coreLat c dc else none, late := none, n := x.size, links := linkOf c dst.pa true, src := [],
                    img := s.entryBytes x, dst := [dst], leaves := some (x.space, x.entry x.cons.toNat), cons := if f.advs then some f.scb.toNat else none,
                    fins := [.resv dc f.dcb.toNat s.nextId] }
  (m.start.s.reserve dc f.dcb.toNat m.start.id true x.attr).modHere fun k => k.holdCtl s.cur.tag true f.due

theorem State.keeps_pushing (s : State) (f : PushF) (dc : Nat) : s.Keeps Engine.walk (s.pushing f dc) := by
  unfold State.pushing
  extract_lets c x d dst m
  exact State.Keeps.modHere ((Move.start_keeps (State.Keeps.refl s)).reserve ..) fun k u => Core.holdCtl_walk ..

section
variable {f : PushF} {s : State} {dc : Nat} (hdue : s.here.srcOk s.cur.tag true f.due = true) (hcore : s.groupCore f.dcore.toNat = some dc)
include hdue hcore

theorem planPush_unconfigured (h : (s.here.cbOf f.scb.toNat).ents = 0 ∨ ((s.core dc).cbOf f.dcb.toNat).ents = 0) :
    planPush f s = .fault s .illegalOperand := by
  refine (if_neg (by simp [hdue])).trans ?_
  rw [hcore]
  exact if_pos (by simpa [Cb.configured, imp_iff_not_or] using h)

/-- What a PUSH checks of its sizes, its due tick and its path. -/
def State.PushBad (s : State) (f : PushF) (dc : Nat) : Prop :=
  (s.here.cbOf f.scb.toNat).size ≠ ((s.core dc).cbOf f.dcb.toNat).size ∨ dueOk f.timed (s.here.ctlVal s.cur.tag true f.due) f.due = false ∨
    f.timed = true ∧ coreLat s.cur.core dc = none

variable (hxents : (s.here.cbOf f.scb.toNat).ents ≠ 0) (hdents : ((s.core dc).cbOf f.dcb.toNat).ents ≠ 0) (hocc : 1 ≤ (s.here.cbOf f.scb.toNat).occ)
  (hroom : 1 ≤ ((s.core dc).cbOf f.dcb.toNat).room s.now)
include hxents hdents hocc hroom

omit hdue hcore hxents hdents hocc hroom in
theorem pushBad_iff : (!(decide ((s.here.cbOf f.scb.toNat).size = ((s.core dc).cbOf f.dcb.toNat).size) &&
    dueOk f.timed (s.here.ctlVal s.cur.tag true f.due) f.due && (!f.timed || (coreLat s.cur.core dc).isSome))) = true ↔ s.PushBad f dc := by
  unfold State.PushBad
  cases f.timed <;> cases coreLat s.cur.core dc <;> simp

/-- Past the checks that its buffers are configured and with their entries there: sizes, due tick and path, formats, placement and a protected range, the trap,
the entry that it reads, the transfer. -/
theorem planPush_eq :
    let x := s.here.cbOf f.scb.toNat
    let d := (s.core dc).cbOf f.dcb.toNat
    let due := s.here.ctlVal s.cur.tag true f.due
    let L := coreLat s.cur.core dc
    ∃ k : State → Plan,
      (planPush f s =
        if !(decide (x.size = d.size) && dueOk f.timed due f.due && (!f.timed || L.isSome)) then .fault s .illegalOperand
        else if !intoCb d [x.attr] then .fault s .format
        else if !s.pushPlace f.timed || s.protAt dc d.space (d.entry d.slot) d.size then .fault s .segmentLegality
        else dueCheck s f.timed f.dcore.toNat due (L.getD 0) (s.readEntries [x] k)) ∧
      ∃ last op, k s = .placed (s.pushing f dc) last op := by
  intro x d due L
  have hconf : ¬(!(x.configured && d.configured)) = true := by simpa [Cb.configured] using ⟨hxents, hdents⟩
  unfold planPush
  rw [if_neg (by simp [hdue]), hcore]
  exact ⟨_, (if_neg hconf).trans ((State.whenReady_read _ _ hocc).trans (State.whenReady_write _ _ hroom)), _, _, rfl⟩

end

/-! ### PUSHB (R261) -/

/-- What the region checks can find. -/
theorem State.regionCheck_cause {s : State} {runs : List Run} {past : Bool} {e : Cause × Nat} (h : s.regionCheck runs past = some e) :
    e.1 = .coreAbsent ∨ e.1 = .windowStraddle ∨ e.1 = .windowHole ∨ e.1 = .addressHole := by
  unfold State.regionCheck at h
  split at h
  · cases h
    simp
  · split at h
    · split_ifs at h
      cases h
      simp
    · extract_lets p at h
      split at h
      · cases h
        simp
      · split_ifs at h <;> cases h <;> simp

/-- What the region checks find is no trap. -/
theorem State.regionCheck_cls_ne {s : State} {runs : List Run} {past : Bool} {e : Cause × Nat} (h : s.regionCheck runs past = some e) : e.1.cls ≠ 2 := by
  obtain h | h | h | h := State.regionCheck_cause h <;> rw [h] <;> decide

/-- A read of own bytes finds an uncorrectable unit, whatever would follow, or goes on in one state. -/
theorem State.readOwn_cases : ∀ (rs : List Run) (s : State),
    (∃ s' info, ∀ k, s.readOwn rs k = .bad s' .ueSram info none) ∨ ∃ s', ∀ k, s.readOwn rs k = k s'
  | [], s => .inr ⟨s, fun _ => rfl⟩
  | r :: rs, s => by
    simp only [State.readOwn]
    split
    · exact State.readOwn_cases rs s
    · split
      · next s' info _ => exact .inl ⟨s', info, fun _ => rfl⟩
      · next s' _ => exact State.readOwn_cases rs s'

/-- A read of own bytes that finds them sound goes on as if it had read nothing. -/
theorem State.readOwn_sound {s : State} {rs : List Run} (h : s.readOwn rs (fun x => .stall x) = .stall s) (k : State → Plan) : s.readOwn rs k = k s := by
  obtain ⟨s', info, hbad⟩ | ⟨s', hgo⟩ := State.readOwn_cases rs s
  · rw [hbad] at h
    cases h
  · rw [hgo] at h
    cases h
    exact hgo k

section
variable (s : State) (f : PushbF)

/-- Bytes, source and destination of a PUSHB. -/
def State.pushbLen : Nat := bitsN (s.here.slotVal s.cur.tag f.c) 0 24 + 1

def State.pushbSrc : List Run := s.peekPas (s.here.addr s.cur.tag false f.a) (s.pushbLen f)

def State.pushbDst : List Run := s.peekPas (s.here.slotVal s.cur.tag f.dst % 2 ^ 56) (s.pushbLen f)

/-- The core that a PUSHB writes, and the barrier object there at which it arrives. -/
def State.pushbCore : Nat := ((s.pushbDst f).head?.bind fun r => winCore r.pa).getD s.cur.core

def State.pushbBar : Run :=
  let bar := bitsN (s.here.slotVal s.cur.tag f.c) 24 24 * 16
  { va := 0x0400_0000_0000 + s.pushbCore f * 0x1000_0000 + bar, pa := s.slotPa (s.pushbCore f) + bar, len := 16 }

/-- Spans that a PUSHB may not move: from elsewhere than its own core's buffers, to elsewhere than those of its group, or of the accumulator memory. -/
def State.PushbOut : Prop :=
  s.inSlots (s.pushbSrc f) (fun d => decide (d = s.cur.core)) = false ∨
    s.inSlots (s.pushbDst f) (fun d => decide ((s.core d).grp = s.here.grp)) = false ∨ s.ownAcc (s.pushbSrc f ++ s.pushbDst f) = true

def State.pushbSpans : List (Nat × Nat × Use) :=
  [(s.here.addr s.cur.tag false f.a, s.pushbLen f, useRead), (s.here.slotVal s.cur.tag f.dst % 2 ^ 56, s.pushbLen f, useWrite)]

/-- The state in which a PUSHB that is granted as `g` is in progress. -/
def State.pushingSpan (g : Granted) : State :=
  let n := s.pushbLen f
  let src := cutRuns g.runs 0 n
  let dst := cutRuns g.runs n n
  let sd := g.s.srcSide f.timed src
  ({ s := g.s, lat := if f.timed then coreLat s.cur.core (s.pushbCore f) else none, late := g.late, n := n, links := linksOf s.cur.core dst true, src := sd.1,
     img := sd.2.1, dst := dst, leaves := sd.2.2, fins := [.barrier (s.pushbBar f).pa n] } : Move).start.s.modHere fun k =>
    (k.holdSrc s.cur.tag false false 0 f.a).holdCtl s.cur.tag true f.due

variable {s f} in
theorem State.keeps_pushingSpan {g : Granted} (hg : s.Keeps Engine.walk g.s) : s.Keeps Engine.walk (s.pushingSpan f g) :=
  State.Keeps.modHere (Move.start_keeps hg) fun k u => Core.holdSrcCtl_walk k s.cur.tag f.a f.due u

end

/-- The formats that a copy may move from its source to its destination. -/
def copyPair : List (List Run × List (BitVec 16)) → Bool
  | [a, b] => copyPairs a b
  | _ => false

section
variable {f : PushbF} {s : State} (ha : s.here.srcOk s.cur.tag false f.a = true) (hdue : s.here.srcOk s.cur.tag true f.due = true)
  (hdst : s.here.slotOk s.cur.tag f.dst = true) (hc : s.here.slotOk s.cur.tag f.c = true) (hw : f.c.w = 12)

theorem pushbOut_iff : (!s.inSlots (s.pushbSrc f) (fun d => decide (d = s.cur.core)) || !s.inSlots (s.pushbDst f) (fun d => decide ((s.core d).grp = s.here.grp)) ||
    s.ownAcc (s.pushbSrc f ++ s.pushbDst f)) = true ↔ s.PushbOut f := by
  simp [State.PushbOut, or_assoc]

include ha hdue hdst hc hw

theorem pushb_operands : ¬(!(s.here.srcOk s.cur.tag false f.a && s.here.srcOk s.cur.tag true f.due && s.here.slotOk s.cur.tag f.dst && s.here.slotOk s.cur.tag f.c) ||
    decide (f.c.w ≠ 12)) = true := by
  simp [ha, hdue, hdst, hc, hw]

theorem planPushb_out (h : s.PushbOut f) : planPushb f s = .fault s .bufferAccess :=
  (if_neg (pushb_operands ha hdue hdst hc hw)).trans (if_pos (pushbOut_iff.2 h))

variable (hin : ¬s.PushbOut f)
include hin

theorem planPushb_region {e : Cause × Nat} (h : s.regionCheck [s.pushbBar f] false = some e) : planPushb f s = .bad s e.1 (faultInfo e.1 e.2) none := by
  refine (if_neg (pushb_operands ha hdue hdst hc hw)).trans ((if_neg (pushbOut_iff.not.2 hin)).trans ?_)
  generalize hfound : s.regionCheck [_] false = found
  obtain rfl := hfound.symm.trans h
  rfl

/-- Past its spans and the region of its barrier object: the object's place, the due tick and the path, the accesses, placement, the object's time stamp and a
protected range, the trap, the bytes that it reads, the transfer. -/
theorem planPushb_eq (h : s.regionCheck [s.pushbBar f] false = none) :
    let due := s.here.ctlVal s.cur.tag true f.due
    let L := coreLat s.cur.core (s.pushbCore f)
    ∃ (dcore : Nat) (k : Granted → State → Plan), planPushb f s =
      (if !s.barrierPlace (s.pushbBar f).pa then .fault s .bufferAccess
      else if !dueOk f.timed due f.due || (f.timed && L.isNone) then .fault s .illegalOperand
      else s.accessPaired (s.pushbSpans f) copyPair fun g =>
        if !s.pushPlace f.timed || !s.stampOk (s.pushbBar f).pa || s.here.hitsProt (s.pushbBar f).va 16 then .fault s .segmentLegality
        else dueCheck s f.timed dcore due (L.getD 0) (g.s.readOwn (if f.timed then cutRuns g.runs 0 (s.pushbLen f) else []) (k g))) ∧
      ∀ g, ∃ last op, k g g.s = .placed (s.pushingSpan f g) last op := by
  intro due L
  refine ⟨?_, ?_, (if_neg (pushb_operands ha hdue hdst hc hw)).trans ((if_neg (pushbOut_iff.not.2 hin)).trans ?plan), fun g => ⟨?_, ?_, ?started⟩⟩
  case plan =>
    generalize hfound : s.regionCheck [_] false = found
    obtain rfl := hfound.symm.trans h
    rfl
  case started => rfl

variable (hregion : s.regionCheck [s.pushbBar f] false = none)
include hregion

theorem planPushb_notPlace (h : s.barrierPlace (s.pushbBar f).pa = false) : planPushb f s = .fault s .bufferAccess := by
  obtain ⟨dcore, k, hplan, -⟩ := planPushb_eq ha hdue hdst hc hw hin hregion
  exact hplan.trans (if_pos (by simp [h]))

variable (hplace : s.barrierPlace (s.pushbBar f).pa = true)
include hplace

theorem planPushb_noDue
    (h : dueOk f.timed (s.here.ctlVal s.cur.tag true f.due) f.due = false ∨ f.timed = true ∧ coreLat s.cur.core (s.pushbCore f) = none) :
    planPushb f s = .fault s .illegalOperand := by
  obtain ⟨dcore, k, hplan, -⟩ := planPushb_eq ha hdue hdst hc hw hin hregion
  exact hplan.trans ((if_neg (by simp [hplace])).trans (if_pos (by simpa using h)))

theorem planPushb_go {g : Granted} (hzero : dueOk f.timed (s.here.ctlVal s.cur.tag true f.due) f.due = true)
    (honTime : f.timed = true → coreLat s.cur.core (s.pushbCore f) ≠ none ∧
      s.segTick s.cur.core + (coreLat s.cur.core (s.pushbCore f)).getD 0 = s.here.ctlVal s.cur.tag true f.due)
    (hg : s.GrantsAll (s.pushbSpans f) copyPair g) (hfixed : f.timed = s.here.inFixed) (hstamp : s.stampOk (s.pushbBar f).pa = true)
    (hprot : s.here.hitsProt (s.pushbBar f).va 16 = false)
    (hread : g.s.readOwn (if f.timed then cutRuns g.runs 0 (s.pushbLen f) else []) (fun x => .stall x) = .stall g.s) :
    ∃ last op, planPushb f s = .placed (s.pushingSpan f g) last op := by
  obtain ⟨dcore, k, hplan, hgo⟩ := planPushb_eq ha hdue hdst hc hw hin hregion
  obtain ⟨last, op, hgo⟩ := hgo g
  have hdueOk : ¬(!dueOk f.timed (s.here.ctlVal s.cur.tag true f.due) f.due || (f.timed && (coreLat s.cur.core (s.pushbCore f)).isNone)) = true := by
    simpa [hzero] using fun htimed => (honTime htimed).1
  exact ⟨last, op, hplan.trans ((if_neg (by simp [hplace])).trans ((if_neg hdueOk).trans ((State.accessPaired_granted hg _).trans
    ((if_neg (by simp [(State.pushPlace_iff ..).2 hfixed, hstamp, hprot])).trans ((dueCheck_onTime (fun htimed => (honTime htimed).2) _).trans
      ((State.readOwn_sound hread _).trans hgo))))))⟩

end

/-! ### The statement -/

/-- Settles O50: PUSH is its checks in order (`planPush_eq`) and PUSHB its own (`planPushb_eq`), each followed by a transfer in progress. That the
DUE of an untimed push is 0 by its value or by an all-zero field is the model's reading (log 110). -/
theorem pushes : Obligations.Pushes := by
  refine ⟨fun f s dc hready hdue hcore => ?_, fun f s g hready ha hdue hdst hc hw => ?_⟩
  · intro c i j x d due at' info bad
    refine ⟨fun hents => faults_of_plan rfl hready rfl (by decide) (planPush_unconfigured hdue hcore hents), fun hx hd hocc hroom hbad => ?_,
      fun hx hd hocc hroom hok hraw hattr => ?_, fun hx hd hocc hroom hok hattr => ?_⟩
    all_goals obtain ⟨k, hplan, last, op, hgo⟩ := planPush_eq hdue hcore hx hd hocc hroom
    · exact faults_of_plan rfl hready rfl (by decide) (hplan.trans (if_pos (pushBad_iff.2 hbad)))
    · exact faults_of_plan rfl hready rfl (by decide)
        (hplan.trans ((if_neg (pushBad_iff.not.2 hok)).trans (if_pos ((intoCb_single_not d x.attr).2 ⟨hraw, hattr⟩))))
    have hformat : ¬(!intoCb d [x.attr]) = true := by simp [(intoCb_single d x.attr).2 hattr]
    replace hplan := hplan.trans ((if_neg (pushBad_iff.not.2 hok)).trans (if_neg hformat))
    refine ⟨fun hplace => ?_, fun _ hprot => ?_, fun hplace hfree => ?_⟩
    · exact faults_of_plan rfl hready rfl (by decide) (hplan.trans (if_pos (by simp [mt (State.pushPlace_iff ..).1 hplace])))
    · exact faults_of_plan rfl hready rfl (by decide) (hplan.trans (if_pos (by simp [d, j, hprot])))
    replace hplan := hplan.trans (if_neg (by simpa [(State.pushPlace_iff ..).2 hplace] using hfree))
    refine ⟨fun e htimed htrap hseg => ?_, fun honTime hread => ?_⟩
    · exact exec_raises rfl hready rfl (.inr hseg) (hplan.trans (dueCheck_trap htimed htrap _))
    · exact issues_of_placed rfl hready (hplan.trans ((dueCheck_onTime honTime _).trans ((State.readEntries_sound k (by simpa using hread)).trans hgo)))
        (State.keeps_pushing s f dc)
  · intro k t c w n due sva dva sp dp dc bpa bar L out
    refine ⟨fun hout => faults_of_plan rfl hready rfl (by decide) (planPushb_out ha hdue hdst hc hw hout),
      fun e hin hregion => exec_raises rfl hready rfl (.inl (State.regionCheck_cls_ne hregion)) (planPushb_region ha hdue hdst hc hw hin hregion),
      fun hin hregion hplace => faults_of_plan rfl hready rfl (by decide) (planPushb_notPlace ha hdue hdst hc hw hin hregion hplace),
      fun hin hregion hplace hbad => faults_of_plan rfl hready rfl (by decide) (planPushb_noDue ha hdue hdst hc hw hin hregion hplace hbad),
      fun hin hregion hplace hzero honTime hg hfixed hstamp hprot => ?_⟩
    intro src dst hread
    obtain ⟨last, op, hplan⟩ := planPushb_go ha hdue hdst hc hw hin hregion hplace hzero honTime hg hfixed hstamp hprot hread
    exact issues_of_placed rfl hready hplan (State.keeps_pushingSpan hg.keeps)

end Sys2Proof.Machine
end

section
/-! Copies, COPYD's deferral, and COLL (O51). -/

namespace Sys2Proof.Machine

open Sys2Proof

/-! ### COPY, COPYB, COPYD and PULL (R262, R263) -/

/-- What a copy is given: PULL or not, COPYD or not, its operands, its tag, and the barrier operand of COPYB. -/
structure CopyArgs where
  pull : Bool
  defer : Bool
  dst : Slot
  a : Src
  n : Src
  tag : Option Nat
  bar : Option Slot

def CopyArgs.plan (x : CopyArgs) : State → Plan := planCopy x.pull x.defer x.dst x.a x.n x.tag x.bar

/-- A copy instruction, and what it is given. -/
inductive IsCopy : Instr → CopyArgs → Prop
  | copy (f : CopyF) : IsCopy (.copy f) { pull := false, defer := false, dst := f.dst, a := f.a, n := f.n, tag := tagOf f.ten f.tag, bar := none }
  | copyd (f : CopyF) : IsCopy (.copyd f) { pull := false, defer := true, dst := f.dst, a := f.a, n := f.n, tag := tagOf f.ten f.tag, bar := none }
  | pull (f : CopyF) : IsCopy (.pull f) { pull := true, defer := false, dst := f.dst, a := f.a, n := f.n, tag := tagOf f.ten f.tag, bar := none }
  | copyb (f : CopybF) : IsCopy (.copyb f) { pull := false, defer := false, dst := f.dst, a := f.a, n := f.n, tag := none, bar := some f.bar }

theorem IsCopy.exec {i : Instr} {x : CopyArgs} (h : IsCopy i x) (s : State) : exec i s = issue s i x.plan := by cases h <;> rfl

theorem IsCopy.own {i : Instr} {x : CopyArgs} (h : IsCopy i x) : isAll i = false := by cases h <;> rfl

section
variable (s : State) (x : CopyArgs)

/-- Bytes, source and destination of a copy, as virtual addresses. -/
def State.copyLen : Nat := s.here.ctlVal s.cur.tag true x.n

def State.copyFrom : Nat := s.here.addr s.cur.tag false x.a

def State.copyTo : Nat := s.here.slotVal s.cur.tag x.dst % 2 ^ 56

/-- COPYD inside a segment puts the copy off to the segment's end. -/
def State.copyPut : Bool := x.defer && s.here.inSeg

def State.copyUse : Use := { useWrite with stg := if s.copyPut x then some true else none }

def State.copySpans : List (Nat × Nat × Use) :=
  [(s.copyFrom x, s.copyLen x, useRead), (s.copyTo x, s.copyLen x, s.copyUse x)] ++ match x.bar with
    | some o => [(s.here.slotVal s.cur.tag o % 2 ^ 56, 16, { useWrite with rd := true })]
    | none => []

/-- The spans, as far as they translate, meet the accumulator memory of the own core. -/
def State.copyAcc : Bool := s.ownAcc (s.peekPas (s.copyFrom x) (s.copyLen x) ++ s.peekPas (s.copyTo x) (s.copyLen x))

/-- A PULL into elsewhere than its own core's slot, or another copy out of another module. -/
def State.CopyFar : Prop :=
  if x.pull then s.inSlots (s.peekPas (s.copyTo x) (s.copyLen x)) (fun d => decide (d = s.cur.core)) = false
  else ∃ r ∈ s.peekPas (s.copyFrom x) (s.copyLen x), r.pa / 2 ^ 44 ≠ s.modId

/-- A write that leaves the core's group from inside a segment, by anything but a PULL. -/
def State.copyOuts : Bool := !x.pull && (s.peek (s.copyTo x) (s.copyLen x) (s.copyUse x)).elim false fun p => s.outFault p.1 p.2

/-- The copies that a format pair allows: the first two of the spans. -/
def copyFmts : List (List Run × List (BitVec 16)) → Bool
  | y :: z :: _ => copyPairs y z
  | _ => false

/-- A copy at fixed times. -/
def CopyArgs.fixed (g : Granted) : Bool := g.lat.isSome && !x.pull

/-- Operands with hold enter their latches. -/
def CopyArgs.hold (t : Nat) (k : Core) : Core := (k.holdSrc t false false 0 x.a).holdCtl t true x.n

variable (g : Granted)

/-- Source, destination and barrier object of a copy that is granted as `g`. -/
def State.copySrc : List Run := cutRuns g.runs 0 (s.copyLen x)

def State.copyDst : List Run := cutRuns g.runs (s.copyLen x) (s.copyLen x)

def State.copyBar : Option Nat := (cutRuns g.runs (2 * s.copyLen x) 16).head?.map fun r => r.pa

/-- What of its source a copy reads as it issues: own bytes that leave at fixed times. -/
def State.copyOwn : List Run := if x.fixed g && s.inSlots (s.copySrc x g) (fun d => decide (d = s.cur.core)) then s.copySrc x g else []

/-- The state in which a copy is put off to the end of the segment. -/
def State.copyDeferred : State :=
  (g.s.takeTag x.tag).modHere fun k =>
    { (x.hold s.cur.tag k) with deferred := k.deferred ++ [{ src := s.copySrc x g, dst := s.copyDst x g, tag := x.tag, pc := s.hereE.pc }] }

/-- The state in which a copy is in progress. -/
def State.copying : State :=
  let c := s.cur.core
  let src := s.copySrc x g
  let dst := s.copyDst x g
  let s1 := g.s.takeTag x.tag
  let sd := s1.srcSide (x.fixed g) src
  let L := (g.s.runsLat c src).getD (hbmLat c) + (g.s.runsLat c dst).getD (hbmLat c) - 2
  ({ s := s1, lat := if x.fixed g then some L else none, late := g.late, n := s.copyLen x, links := (linksOf c src false ++ linksOf c dst true).eraseDups,
     src := sd.1, img := sd.2.1, dst := dst, leaves := sd.2.2,
     fins := ((s.copyBar x g).elim [] fun p => [Fin.barrier p (s.copyLen x)]) ++ s1.tagFins x.tag } : Move).start.s.modHere (x.hold s.cur.tag)

variable {s x g} in
theorem State.keeps_copyDeferred (hg : s.Keeps Engine.walk g.s) : s.Keeps Engine.walk (s.copyDeferred x g) :=
  State.Keeps.modHere (hg.takeTag x.tag) fun k u => Core.holdSrcCtl_walk k s.cur.tag x.a x.n u

variable {s x g} in
theorem State.keeps_copying (hg : s.Keeps Engine.walk g.s) : s.Keeps Engine.walk (s.copying x g) :=
  State.Keeps.modHere (Move.start_keeps (hg.takeTag x.tag)) fun k u => Core.holdSrcCtl_walk k s.cur.tag x.a x.n u

end

section
variable {x : CopyArgs} {s : State} (ha : s.here.srcOk s.cur.tag false x.a = true) (hn : s.here.srcOk s.cur.tag true x.n = true)
  (hdst : s.here.slotOk s.cur.tag x.dst = true) (hbar : ∀ o, x.bar = some o → s.here.slotOk s.cur.tag o = true)
include ha hn hdst hbar

theorem copy_operands : ¬(!(s.here.srcOk s.cur.tag false x.a && s.here.srcOk s.cur.tag true x.n && s.here.slotOk s.cur.tag x.dst &&
    x.bar.elim true fun o => s.here.slotOk s.cur.tag o)) = true := by
  have : (x.bar.elim true fun o => s.here.slotOk s.cur.tag o) = true := by
    cases h : x.bar with
    | none => rfl
    | some o => exact hbar o h
  simp [ha, hn, hdst, this]

theorem planCopy_acc (h : s.copyAcc x = true) : x.plan s = .fault s .bufferAccess := (if_neg (copy_operands ha hn hdst hbar)).trans (if_pos h)

omit ha hn hdst hbar in
theorem copyFar_iff : (if x.pull then !s.inSlots (s.peekPas (s.copyTo x) (s.copyLen x)) (fun d => decide (d = s.cur.core))
    else (s.peekPas (s.copyFrom x) (s.copyLen x)).any fun r => decide (r.pa / 2 ^ 44 ≠ s.modId)) = true ↔ s.CopyFar x := by
  unfold State.CopyFar
  cases x.pull <;> simp

variable (hacc : s.copyAcc x = false)
include hacc

theorem planCopy_operand (h : s.copyLen x = 0 ∨ 2 ^ 32 ≤ s.copyLen x ∨ s.CopyFar x) : x.plan s = .fault s .illegalOperand := by
  refine (if_neg (copy_operands ha hn hdst hbar)).trans ((if_neg (ne_true_of_eq_false hacc)).trans ?_)
  by_cases hlen : s.copyLen x = 0 ∨ 2 ^ 32 ≤ s.copyLen x
  · exact if_pos hlen
  · exact (if_neg hlen).trans (if_pos (copyFar_iff.2 ((or_assoc.2 h).resolve_left hlen)))

/-- Past its operands, its spans and its accesses: overlap, the barrier object's place, then what a deferred copy checks or what another does. -/
theorem planCopy_eq {g : Granted} (hlen : ¬(s.copyLen x = 0 ∨ 2 ^ 32 ≤ s.copyLen x)) (hnear : ¬s.CopyFar x) (hg : s.GrantsAll (s.copySpans x) copyFmts g) :
    ∃ k : State → Plan, x.plan s =
      (if (s.copySrc x g).any (fun y => (s.copyDst x g).any fun z => y.meets z) then .fault s .copyOverlap
      else if (s.copyBar x g).elim false (fun p => !s.barrierPlace p) then .fault s .bufferAccess
      else if s.copyPut x then
        if 16 ≤ s.here.deferred.length then .fault s .segmentLegality
        else if s.tagBusy x.tag then .fault s .tagBusy
        else .go { s := s.copyDeferred x g }
      else if s.copyOuts x || (!x.fixed g && s.here.inFixed) || (s.copyBar x g).elim false (fun p => !s.stampOk p) then .fault s .segmentLegality
      else if s.tagBusy x.tag then .fault s .tagBusy
      else g.s.readOwn (s.copyOwn x g) k) ∧
      ∃ last op, k g.s = .placed (s.copying x g) last op :=
  ⟨_, (if_neg (copy_operands ha hn hdst hbar)).trans ((if_neg (ne_true_of_eq_false hacc)).trans ((if_neg hlen).trans ((if_neg (copyFar_iff.not.2 hnear)).trans
    (State.accessPaired_granted hg _)))), _, _, rfl⟩

end

/-- An object that is there fails a test. -/
theorem elim_not_iff (o : Option Nat) (p : Nat → Bool) : (o.elim false fun x => !p x) = true ↔ ¬∀ x, o = some x → p x = true := by
  cases o <;> simp

theorem runsMeet_iff (src dst : List Run) : (src.any fun y => dst.any fun z => y.meets z) = true ↔ ∃ y ∈ src, ∃ z ∈ dst, y.meets z = true := by simp

theorem runsApart_iff (src dst : List Run) : ¬(src.any fun y => dst.any fun z => y.meets z) = true ↔ ∀ y ∈ src, ∀ z ∈ dst, y.meets z = false := by simp

theorem copyIllegal_iff (s : State) (x : CopyArgs) (g : Granted) :
    (s.copyOuts x || (!x.fixed g && s.here.inFixed) || (s.copyBar x g).elim false fun p => !s.stampOk p) = true ↔
      (s.copyOuts x = true ∨ x.fixed g = false ∧ s.here.inFixed = true) ∨ ¬∀ p, s.copyBar x g = some p → s.stampOk p = true := by
  rw [Bool.or_eq_true, elim_not_iff]
  simp

/-! ### Reads at issue (R264, R409) -/

theorem State.keeps_of_cores {α : Type} {p : Engine → α} {s s' : State} (hcur : s'.cur = s.cur) (hcores : s'.cores = s.cores) : s.Keeps p s' :=
  ⟨hcur, fun u => by rw [State.here, State.here, State.core, State.core, hcur, hcores]⟩

theorem State.keeps_countHbm {α : Type} {p : Engine → α} (s : State) (ch : Nat) (ue : Bool) : s.Keeps p (s.countHbm ch ue) := by
  unfold State.countHbm
  extract_lets n s1 s2 ctl pcth ueth
  split
  · exact State.keeps_of_cores rfl rfl
  · exact State.keeps_of_cores rfl rfl

theorem foldl_keeps {α β : Type} {p : Engine → α} {f : State → β → State} (hf : ∀ (s : State) b, s.Keeps p (f s b)) : ∀ (bs : List β) (s : State), s.Keeps p (bs.foldl f s)
  | [], s => State.Keeps.refl s
  | b :: bs, s => (hf s b).trans (foldl_keeps hf bs (f s b))

/-- A read at issue that finds no uncorrectable unit leaves every engine as it is. -/
theorem State.readAtIssue_keeps (fixed : Bool) : ∀ (rs : List Run) {s s' : State}, s.readAtIssue fixed rs = (s', none) → s.Keeps Engine.walk s'
  | [], s, s', h => by
    cases h
    exact State.Keeps.refl s
  | r :: rs, s, s', h => by
    unfold State.readAtIssue at h
    split at h
    · simp at h
    · exact State.readAtIssue_keeps fixed rs h
    · extract_lets s1 at h
      have h1 : s.Keeps Engine.walk s1 := by
        unfold s1
        split
        · exact State.Keeps.refl s
        · refine foldl_keeps (fun s u => ?_) _ s
          dsimp only
          split
          · exact (State.keeps_of_cores rfl rfl).trans (State.keeps_countHbm ..)
          · exact State.keeps_of_cores rfl rfl
      have h2 := State.readAtIssue_keeps fixed rs h
      split at h2
      · exact (h1.rim (State.claim_rim ..)).trans h2
      · exact h1.trans h2

section
variable {s s' : State} {va n : Nat} {pair : List (List Run × List (BitVec 16)) → Bool} {bs : List Byte} {runs : List Run} (h : s.Reads va n pair s' bs runs)
include h

theorem State.Reads.keeps : s.Keeps Engine.walk s' := by
  obtain ⟨-, rfl, -, -⟩ | ⟨-, g, hg, hread, -, -⟩ := h
  · exact State.Keeps.refl _
  · exact hg.keeps.trans (State.readAtIssue_keeps _ _ hread)

theorem readSpan_reads (k : State → List Byte → List Run → Plan) : readSpan s va n pair k = k s' bs runs := by
  obtain ⟨hn, rfl, rfl, rfl⟩ | ⟨hn, g, hg, hread, rfl, rfl⟩ := h
  · exact if_pos hn
  · refine (if_neg hn).trans ((State.accessPaired_granted hg _).trans ?_)
    rw [hread]

end

theorem State.ReadsSource.keeps {s s' : State} {a : BitVec 5} {va count : Nat} {els scales tiles : List Byte} {runs : List Run}
    (h : s.ReadsSource a va count s' els scales tiles runs) : s.Keeps Engine.walk s' := by
  obtain ⟨-, -, -, hread⟩ | ⟨-, -, sp, b, s1, s2, r1, r2, r3, e3, -, h1, h2, h3, -, -⟩ := h
  · exact hread.keeps
  · exact (h1.keeps.trans h2.keeps).trans h3.keeps

/-! ### COLL (R264) -/

/-- The contribution that core `c` sends in `s`. -/
def State.contribution (s : State) (f : CollF) (d : CollDesc) (words : List Nat) (els scales tiles : List Byte) (c : Nat) : Contrib :=
  { collid := d.collid, seq := d.seq, ncont := d.ncont, rank := d.rank, count := d.count, op := f.op.toNat, sfmt := BitVec.ofNat 5 d.sfmt,
    dfmt := BitVec.ofNat 5 d.dfmt, eblk := d.eblk, root := d.root, members := words, src := els, scales := scales, tiles := tiles, core := some c,
    dst := d.dst, tag := tagOf f.ten f.tag, inseg := s.here.inSeg, live := true, pc := s.hereE.pc }

/-- The state in which the contribution `me`, whose destination is granted as `g`, is on its way and its result has its place in the queue. -/
def State.contributing (s : State) (f : CollF) (d : CollDesc) (me : Contrib) (g : Granted) (hold : Core → Core) : State :=
  let s1 := g.s.takeTag (tagOf f.ten f.tag)
  let r := ({ s1 with free := s1.free + 1 } : State).sendOff (s.time + s1.collTicks me) (.contrib me)
  ((r.1.bindRegs r.2).sendOff neverTick (.collDst d.collid d.seq g.runs)).1.modHere hold

theorem State.sendOff_rim (s : State) (due : Nat) (w : Work) : (s.sendOff due w).1.rim = s.rim := State.addFlight_rim ..

theorem State.keeps_contributing {s : State} {g : Granted} (hg : s.Keeps Engine.walk g.s) (f : CollF) (d : CollDesc) (me : Contrib) {hold : Core → Core}
    (hhold : ∀ (k : Core) u, ((hold k).engine u).walk = (k.engine u).walk) : s.Keeps Engine.walk (s.contributing f d me g hold) := by
  unfold State.contributing
  extract_lets s1 r
  have hfree : s.Keeps Engine.walk { s1 with free := s1.free + 1 } := (hg.takeTag _).rim rfl
  exact State.Keeps.modHere (((hfree.rim (State.sendOff_rim ..)).rim (State.bindRegs_rim ..)).rim (State.sendOff_rim ..)) hhold

/-- A contribution whose source has been read may go out: outside FIXED segments, its tag free, nothing in the queue still to write what it reads, and its
X-die with room for the collective or already in it (R385). -/
structure State.MaySend (s : State) (f : CollF) (d : CollDesc) (runs : List Run) : Prop where
  unfixed : s.here.inFixed = false
  tagFree : s.tagBusy (tagOf f.ten f.tag) = false
  settled : s.queueWrites runs = false
  room : (s.colls.filter fun y => decide (y.xdie = s.xdieOf d.collid)).length < 1024 ∨ ∃ y ∈ s.colls, ∃ p ∈ y.parts, p.collid = d.collid ∧ p.seq = d.seq

theorem collSend_go {f : CollF} {s : State} {d : CollDesc} {words : List Nat} {els scales tiles : List Byte} {dst : List (Nat × Nat)} {runs : List Run} {g : Granted}
    (hg : s.GrantsAll (dst.map fun p => (p.1, p.2, useWrite)) (fmtIs (BitVec.ofNat 5 d.dfmt)) g) (h : s.MaySend f d runs) (hold : Core → Core) :
    collSend f s d words els scales tiles dst runs hold = .placed (s.contributing f d (s.contribution f d words els scales tiles s.cur.core) g hold) s.now := by
  obtain ⟨hfixed, htag, hqueue, hroom⟩ := h
  have hfits : ¬(decide (1024 ≤ (s.colls.filter fun x => decide (x.xdie = s.xdieOf d.collid)).length) &&
      !(s.colls.any fun x => x.parts.any fun p => decide (p.collid = d.collid ∧ p.seq = d.seq))) = true := by
    rintro hfull
    simp only [Bool.and_eq_true, decide_eq_true_eq, Bool.not_eq_true', List.any_eq_false, List.any_eq_true, not_exists, not_and] at hfull
    obtain ⟨hfull, hnone⟩ := hfull
    obtain hroom | ⟨y, hy, p, hp, hsame⟩ := hroom
    · exact absurd hroom (not_lt.2 hfull)
    · exact hnone y hy p hp hsame.1 hsame.2
  simp only [collSend, Option.map_id']
  exact (State.accessPaired_granted hg _).trans ((if_neg (ne_true_of_eq_false hfixed)).trans ((if_neg (ne_true_of_eq_false htag)).trans
    ((if_neg (ne_true_of_eq_false hqueue)).trans (if_neg hfits))))

section
variable {f : CollF} {s s1 s2 : State} {bs ms : List Byte} {r0 r1 : List Run}

/-- The member words of a COLL. -/
def collWords (ms : List Byte) (d : CollDesc) : List Nat := (List.range d.ncont).map fun i => getElem 32 ms i

/-- A COLL whose descriptor and members are read and sound sends a barrier contribution, or goes on to `data`: its destination, its source. -/
theorem planColl_eq {d : CollDesc} (hd : d = collDesc bs) (ha : s.here.srcOk s.cur.tag false f.a = true)
    (hnear : ∀ r ∈ s.peekPas (s.here.addr s.cur.tag false f.a) 64, r.pa / 2 ^ 44 = s.modId)
    (hdesc : s.Reads (s.here.addr s.cur.tag false f.a) 64 (fun _ => true) s1 bs r0) (hok : collFieldsOk f.op.toNat d = true)
    (hmemb : s1.Reads d.memb (4 * d.ncont) (fun _ => true) s2 ms r1) (hwords : ∀ w ∈ collWords ms d, w < 2 ^ 16) :
    let hold := fun k : Core => k.holdSrc s.cur.tag false false 0 f.a
    ∃ data : Plan, planColl f s = (if f.op.toNat = 6 then collSend f s2 d (collWords ms d) [] [] [] [] [] hold else data) ∧
      ∀ dst, s2.collDst (BitVec.ofNat 5 d.dfmt) d.dst (collOut f.op.toNat d.count d.ncont) = some dst → s2.dstAway dst = false →
        ((f.op.toNat = 2 ∨ f.op.toNat = 3) → BitVec.ofNat 5 d.sfmt = BitVec.ofNat 5 d.dfmt) →
        ∀ {s3 els scales tiles runs}, s2.ReadsSource (BitVec.ofNat 5 d.sfmt) d.src d.count s3 els scales tiles runs →
          data = collSend f s3 d (collWords ms d) els scales tiles dst runs hold := by
  subst hd
  intro hold
  have hfar : ¬((s.peekPas (s.here.addr s.cur.tag false f.a) 64).any fun r => decide (r.pa / 2 ^ 44 ≠ s.modId)) = true := by simpa using hnear
  have hbig : ¬((collWords ms (collDesc bs)).any fun w => decide (2 ^ 16 ≤ w)) = true := by simpa using hwords
  refine ⟨_, (if_neg (by simp [ha])).trans ((if_neg hfar).trans ((readSpan_reads hdesc _).trans ((if_neg (by simp [hok])).trans
    ((readSpan_reads hmemb _).trans (if_neg hbig))))), fun dst hdst hhere hfmt s3 els scales tiles runs hsrc => ?_⟩
  have hsame : ¬(decide (f.op.toNat = 2 ∨ f.op.toNat = 3) && decide (BitVec.ofNat 5 (collDesc bs).sfmt ≠ BitVec.ofNat 5 (collDesc bs).dfmt)) = true := by
    simpa using hfmt
  rw [hdst]
  obtain ⟨hplain, rfl, rfl, hread⟩ | ⟨hblock, hcount, sp, b, x1, x2, e1, e2, e3, m3, hplaces, h1, h2, h3, rfl, rfl⟩ := hsrc
  · have hone : (attrBlock (BitVec.ofNat 5 (collDesc bs).sfmt) && decide ((collDesc bs).count ≠ 0)) = false := by
      obtain h | h := hplain <;> simp [h]
    exact (if_neg (by rw [hhere, hone]; simp)).trans ((if_neg hsame).trans ((if_neg (ne_true_of_eq_false hone)).trans (readSpan_reads hread _)))
  · refine (if_neg (by simp [hhere, hplaces])).trans ((if_neg hsame).trans ((if_pos (by simp [hblock, hcount])).trans ?_))
    rw [hplaces]
    exact (readSpan_reads h1 _).trans ((readSpan_reads h2 _).trans (readSpan_reads h3 _))

/-- A COLL that comes to send a contribution in `x`, which reads have made of `s`, issues where it may send. -/
theorem issues_contributing {x : State} {d : CollDesc} {words : List Nat} {els scales tiles : List Byte} {dst : List (Nat × Nat)} {runs : List Run} {g : Granted}
    (hready : Ready s (.coll f)) (hx : s.Keeps Engine.walk x)
    (hplan : planColl f s = collSend f x d words els scales tiles dst runs fun k => k.holdSrc s.cur.tag false false 0 f.a)
    (hg : x.GrantsAll (dst.map fun p => (p.1, p.2, useWrite)) (fmtIs (BitVec.ofNat 5 d.dfmt)) g) (hmay : x.MaySend f d runs) :
    Issues (.coll f) s (x.contributing f d (x.contribution f d words els scales tiles s.cur.core) g fun k => k.holdSrc s.cur.tag false false 0 f.a) := by
  have hcore : x.cur.core = s.cur.core := by rw [hx.1]
  rw [← hcore]
  exact issues_of_placed rfl hready (hplan.trans (collSend_go hg hmay _))
    (hx.trans (State.keeps_contributing hg.keeps f d _ fun k u => Core.holdSrc_walk ..))

end

/-! ### The statement -/

/-- Settles O51: a copy is its checks in order and then a transfer, or an entry among the deferred ones (`planCopy_eq`); COLL reads its descriptor, its members
and its source and sends a contribution (`planColl_eq`, `collSend_go`). That raw memory is a source of any format is the model's reading (log 101). -/
theorem copiesAndCollectives : Obligations.CopiesAndCollectives := by
  refine ⟨fun i dstS a nS tag bar pull defer s g hi hready ha hn hdst hbar => ?_, fun f s s1 s2 bs ms r0 r1 hready => ⟨fun ha => ?_, fun ha => ?_⟩⟩
  · let x : CopyArgs := { pull := pull, defer := defer, dst := dstS, a := a, n := nS, tag := tag, bar := bar }
    have hcopy : IsCopy i x := by
      obtain ⟨h, dep, ten, tg, rfl, rfl, ⟨rfl, rfl, rfl⟩ | ⟨rfl, rfl, rfl⟩ | ⟨rfl, rfl, rfl⟩⟩ | ⟨h, dep, o, rfl, rfl, rfl, rfl, rfl⟩ := hi
      · exact .copy _
      · exact .copyd _
      · exact .pull _
      · exact .copyb _
    have hfault {c : Cause} (hc : c.cls ≠ 2) (h : x.plan s = .fault s c) : Faults i s c := faults_of_plan (hcopy.exec s) hready hcopy.own hc h
    intro k t c n sva dva sp dp put hold dUse spans far
    refine ⟨fun hacc => hfault (by decide) (planCopy_acc ha hn hdst hbar hacc),
      fun hacc hbad => hfault (by decide) (planCopy_operand ha hn hdst hbar hacc hbad), fun hacc hnz hlt hnear hg => ?_⟩
    obtain ⟨go, hplan, last, op, hgo⟩ := planCopy_eq (x := x) ha hn hdst hbar hacc (not_or.2 ⟨hnz, not_le.2 hlt⟩) hnear hg
    intro src dst bpa fixed outs
    refine ⟨fun hmeets => hfault (by decide) (hplan.trans (if_pos ((runsMeet_iff ..).2 hmeets))), fun hapart hplace => ?_⟩
    replace hplan := hplan.trans ((if_neg ((runsApart_iff ..).2 hapart)).trans (if_neg (mt (elim_not_iff ..).1 (not_not.2 hplace))))
    refine ⟨fun hput hroom htag => ?_, fun hput hfull => ?_, fun hput hbad => ?_, fun hput houts hfixed hstamp htag hread => ?_⟩
    · exact issues_of_keeps (hcopy.exec s) hready
        (hplan.trans ((if_pos hput).trans ((if_neg (not_le.2 hroom)).trans (if_neg (ne_true_of_eq_false htag))))) rfl (State.keeps_copyDeferred (x := x) hg.keeps) rfl
    · exact hfault (by decide) (hplan.trans ((if_pos hput).trans (if_pos hfull)))
    all_goals replace hplan := hplan.trans (if_neg (ne_true_of_eq_false hput))
    · exact hfault (by decide) (hplan.trans (if_pos ((copyIllegal_iff s x g).2 (.inl hbad))))
    · have hlegal : ¬(fixed = false ∧ k.inFixed = true) := fun h => hfixed.elim (absurd · (ne_true_of_eq_false h.1)) (absurd h.2 <| ne_true_of_eq_false ·)
      refine issues_of_placed (hcopy.exec s) hready (hplan.trans ((if_neg ?_).trans ((if_neg (ne_true_of_eq_false htag)).trans
        ((State.readOwn_sound hread go).trans hgo)))) (State.keeps_copying (x := x) hg.keeps)
      exact (copyIllegal_iff s x g).not.2 (not_or.2 ⟨not_or.2 ⟨ne_true_of_eq_false houts, hlegal⟩, not_not.2 hstamp⟩)
  · exact faults_of_plan rfl hready rfl (by decide) (if_pos (by simp [ha]))
  · intro va d op c tag words hnear hdesc hok hmemb hwords sent
    obtain ⟨data, hplan, hdata⟩ := planColl_eq rfl ha hnear hdesc hok hmemb hwords
    have hkeeps := hdesc.keeps.trans hmemb.keeps
    refine ⟨fun hop g hg hfixed htag hqueue hroom => ?_, fun hop dst hdst hhere hfmt s3 els scales tiles runs hsrc g hg hfixed htag hqueue hroom => ?_⟩
    · exact issues_contributing hready hkeeps (hplan.trans (if_pos hop)) hg ⟨hfixed, htag, hqueue, hroom⟩
    · exact issues_contributing hready (hkeeps.trans hsrc.keeps) (hplan.trans ((if_neg hop).trans (hdata dst hdst hhere hfmt hsrc))) hg
        ⟨hfixed, htag, hqueue, hroom⟩

end Sys2Proof.Machine
end
